-- ==== Sys2Proof/Word.lean ====
section
/-!
DEFINITION. Words, bytes and sparse tables: the plain data every other file is built from.
R3: bits are numbered from 0 at the least significant end; multi-byte values are little-endian.
-/
namespace Sys2Proof

/-- One byte. -/
abbrev Byte := BitVec 8

/-- One 64-bit lane register word (R113, R136). -/
abbrev Word := BitVec 64

/-- One 128-byte line (R20, R79). -/
abbrev LineData := BitVec 1024

/-- A sparse table: pairs of a key and a value, keys strictly rising. -/
abbrev Table (α : Type) := List (Nat × α)

/-- The value listed under a key. -/
def Table.find {α : Type} : Table α → Nat → Option α
  | [], _ => none
  | (k, v) :: t, n => if k = n then some v else Table.find t n

/-- The value listed under a key, or a default. -/
def Table.getD {α : Type} (t : Table α) (n : Nat) (d : α) : α := (Table.find t n).getD d

/-- List a value under a key, in the place that keeps the keys rising. -/
def Table.set {α : Type} : Table α → Nat → α → Table α
  | [], n, v => [(n, v)]
  | (k, w) :: t, n, v =>
    if n < k then (n, v) :: (k, w) :: t
    else if n = k then (n, v) :: t
    else (k, w) :: Table.set t n v

/-- Remove whatever is listed under a key. -/
def Table.erase {α : Type} : Table α → Nat → Table α
  | [], _ => []
  | (k, w) :: t, n => if k = n then t else (k, w) :: Table.erase t n

/-- List a value unless it is the default, in which case the key is removed. -/
def Table.put {α : Type} [DecidableEq α] (t : Table α) (n : Nat) (v d : α) : Table α :=
  if v = d then Table.erase t n else Table.set t n v

/-- Keys rise strictly. -/
def Table.sorted {α : Type} : Table α → Bool
  | [] => true
  | [_] => true
  | (k, _) :: (l, w) :: t => decide (k < l) && Table.sorted ((l, w) :: t)

end Sys2Proof
end

