-- ==== Sys2Proof/Config.lean ====
section
/-!
DEFINITION. What one implementation fixes, and the free values: constants with no body, which no proof can evaluate.
A claim about a free value holds for every value of it. Each is named in the assumption log.
-/
namespace Sys2Proof.Config

/-- Revision B1 (R2): letter code in bits 15:8, minor number in bits 7:0. -/
def revision : Nat := 0x4201
/-- Feature bits that revision B1 has (R382). -/
def features : Nat := 0x7F
def numDies : Nat := 8
def coresPerDie : Nat := 40
def numCores : Nat := 320
/-- GB of device memory per die at shipment (R17). -/
def capacityGB : Nat := 24
def numMailboxes : Nat := 16

/-- Whether a pending event or an issue comes next, for each choice (log entry 3). -/
opaque eventFirst : Nat → Bool
/-- One less than the number of events that may come in a row before an issue cycle, and of issue cycles before an event (R341, log entry
3). -/
opaque fairBound : Nat
/-- The set of the L1 that a line belongs to, and which of a full set's lines gives way, for each choice (R79). -/
opaque l1Set : Nat → Nat
opaque l1Victim : Nat → Nat
/-- Which of several takers one setting of a full/empty bit releases (R94, log entry 10). -/
opaque takeChoice : Nat → Nat
/-- Which of two elements of one engine command stays on a byte, and what overlapping destination elements receive
(R106, R434, log entry 11): the order in which the elements are performed, as positions to be taken next. -/
opaque elementOrder : Nat → Nat → Nat
/-- Where the fixed tree of a floating-point reduction splits the participants, for their number (R102). -/
opaque treeSplit : Nat → Nat
/-- The SHAKE256 function with 64 bytes of output (R351, R353, R408): named, not given, by the manual (log entry 6). -/
opaque shake256 : List Byte → Nat
/-- ML-DSA-65 verification of a signature over a message under a key (R353, log entry 6). -/
opaque sigVerify : List Byte → List Byte → List Byte → Bool
/-- The bytes of an attestation report's signature (R409, log entry 6). -/
opaque sigBytes : List Byte → List Byte
/-- The digest of the device identity public key (R409, R425). -/
opaque identityDigest : Nat
/-- The digest of the firmware ROM (R409). -/
opaque romDigest : Nat
/-- The body of a context image, its section offsets and the tag over it (R380, R381, R383), for the number of its save, and
for the body the index of the byte (log entry 7). -/
opaque imageByte : Nat → Nat → Byte
opaque imageSections : Nat → BitVec 384
opaque imageTag : Nat → BitVec 128
/-- The 256-bit key that the firmware draws for a protected context, for each choice (R383). -/
opaque contextKey : Nat → BitVec 256
/-- Whether a write of an image meets an uncorrectable error, for each choice (R436). -/
opaque imageWriteFails : Nat → Bool
/-- The size of the body of an image in units of 64 bytes, from how much of each kind of state it holds (R379, log entry 7). -/
opaque imageBodyUnits : List Nat → Nat
/-- The height of a row in luma lines, and the width and height of a chroma plane, of a command's parameters and, for a decode, its stream
(R414, R417, log entry 8). -/
opaque mediaShape : Nat → List Byte → Nat × Nat × Nat
/-- A reconstructed sample: the command's parameters, the stream, the reference frames and, under the external filter, the filtered rows that
it uses, then plane, line and column (R413, R417, log entry 8). -/
opaque mediaSample : Nat → List Byte → List Byte → List Byte → Nat → Nat → Nat → BitVec 10
/-- How many of the rows before a row it uses as a reference, of a command's parameters and a stream (R417, log entry 8). -/
opaque mediaNeeds : Nat → List Byte → Nat → Nat
/-- Whether the stream breaks at a row (R419). -/
opaque mediaBroken : Nat → List Byte → Nat → Bool
/-- How many bytes of state a command has, and what it leaves there (R414). -/
opaque mediaStateSize : Nat → Nat
opaque mediaState : Nat → List Byte → List Byte → List Byte → List Byte
/-- Whether an engine waits for a filtered row earlier than it has to, for each choice (R417). -/
opaque mediaWaits : Nat → Bool
/-- Bytes an encode produces (R416): the command's parameters, the frame and the reference frames. -/
opaque mediaEncode : Nat → List Byte → List Byte → List Byte
/-- One use of a symbol in a segment's contents: which bits of the contents it fills, which bits of the symbol's pointer it takes there from
which bit on, and the symbol, as a segment of the object and an offset within it (R159). -/
structure SymUse where
  at_ : Nat
  width : Nat
  low : Nat
  segment : Nat
  offset : Nat
  deriving DecidableEq, Repr

/-- Where a segment uses symbols, from the object's header, the segment's index and its contents: R352 to R354 give no table of the uses
(log entry 9). -/
opaque symbolUses : List Byte → Nat → List Byte → List SymUse
/-- The pointer of a symbol or an export whose segment has not been loaded yet, by the segment and the offset, or of an import that no
object exports, by its number (R159, R354, log entry 9). -/
opaque unplaced : Nat → Nat → Word
/-- The bytes of an attestation report, from its fields in the order of R409 (log entry 36). -/
opaque reportBytes : List Nat → List Byte
/-- Whether the yard uses its freedom to pre-empt, for each choice (R337). -/
opaque preempts : Nat → Bool
/-- A load of host memory the host has not answered reads what the host holds (R33). -/
opaque freeWord : Nat → Word
/-- How many cycles a load that misses the L1 takes, and what serves it, as a code of R400, for each choice (log entry 70). -/
opaque latency : Nat → Nat
opaque servedBy : Nat → Nat
/-- Where a request or its response was lost: the kind of link, the link and the lane (R372, R374). -/
opaque lostOn : Nat → Nat × Nat × Nat
/-- The 128 bytes that the host answers for a line of host memory (R33, R45). -/
opaque hostLine : Nat → Nat

end Sys2Proof.Config
end

