-- ==== Sys2Proof/Syntax.lean ====
section
/-!
DEFINITION. The instruction set as syntax: one constructor of `Instr` per row of spec/opcode_table.json.
Rows 1 to 157 are the instructions of R186 to R188, the next 20 the P-form halves of R189 (a P-form word is one
instruction, R185: it is named by half 0 and carries half 1), and the remaining 109 are the steps of the machine's
other agents, which are elements of the machine's agenda and not instruction words.
-/
namespace Sys2Proof

/-- Special source operands (R115). -/
inductive Special where
  | lane | gid | clock | cycle | core | die
  deriving DecidableEq, Repr

/-- A decoded 8-bit operand code (R115). `const c` stands for the value c - 16. -/
inductive Operand where
  | reg (n : Fin 128)
  | ind (x : Fin 8)
  | indInc (x : Fin 8)
  | queue (q : Fin 8)
  | zero
  | special (s : Special)
  | const (c : Fin 32)
  deriving DecidableEq, Repr

/-- A source operand with its last-read mark (R117, R119). -/
structure Src where
  op : Operand
  last : Bool
  deriving DecidableEq, Repr

/-- The predicate field (R171). -/
structure Guard where
  p : Fin 8
  neg : Bool
  deriving DecidableEq, Repr

/-- Lane patterns 0x0 to 0xE in code order (R176). -/
inductive LanePat where
  | ident | rot1 | rot2 | rot4 | rot8 | rot16 | rotm1 | rev | rev8 | xor1 | xor2 | xor4 | bc0 | bc8 | subrev
  deriving DecidableEq, Repr

/-- A lane pattern and the source it applies to (R170 bit 12, R177). -/
structure Pat where
  pat : LanePat
  onB : Bool
  deriving DecidableEq, Repr

/-- The integer column of R136, in code order. -/
inductive IType where
  | i64 | i32 | i16 | i8 | u64 | u32 | u16 | u8
  deriving DecidableEq, Repr

/-- The float column of R136, in code order. -/
inductive FType where
  | f64 | f32 | f16 | b16 | f8 | f6 | f4
  deriving DecidableEq, Repr

/-- Rounding modes (R142, R173). -/
inductive Rnd where
  | rn | rz | rd | ru
  deriving DecidableEq, Repr

/-- Integer conditions (R205). -/
inductive Cond where
  | eq | ne | lt | le | gt | ge
  deriving DecidableEq, Repr

/-- Float conditions (R261). -/
inductive FCond where
  | eq | ne | lt | le | gt | ge | un
  deriving DecidableEq, Repr

/-- Memory orders (R174). -/
inductive Order where
  | rlx | acq | rel | ar | sc
  deriving DecidableEq, Repr

/-- Memory scopes (R174, R175); `lvl n` is the level-relative scope of level n. -/
inductive Scope where
  | group | core | quad | die | pkg | sys | lvl (n : Fin 8)
  deriving DecidableEq, Repr

/-- Operations of ATOM and RED (R231). -/
inductive AtomOp where
  | swap | cas | add | and | or | xor | min | max | fadd
  deriving DecidableEq, Repr

/-- The type of an ATOM or RED: an integer type or a float type (R231). -/
inductive AtomTy where
  | int (t : IType)
  | flt (t : FType)
  deriving DecidableEq, Repr

/-- Functions of LDS (R235). -/
inductive LdsFn where
  | plain | take | peek
  deriving DecidableEq, Repr

/-- Functions of VOTE (R274). -/
inductive VoteFn where
  | any | all | ballot | uni
  deriving DecidableEq, Repr

/-- Granularities of a Benes control set (R272). -/
inductive Gran where
  | b64 | b32 | b16 | b8 | b4 | b6
  deriving DecidableEq, Repr

/-- Functions of EDQ (R240). -/
inductive EdqFn where
  | num | pin | unpin | dpins
  deriving DecidableEq, Repr

/-- PCHK access kinds (R204). -/
inductive AccessKind where
  | load | store | atomic | fetch | engRead | engWrite | engAdd | publish | writeTenure
  deriving DecidableEq, Repr

/-- The control and status registers of R220. -/
inductive Csr where
  | tctl | astat | gstat | lclock | tvec | svec | tmode | tepc | tcause | tval | tsave
  | lidx (n : Fin 8)
  | lcnt (n : Fin 8)
  deriving DecidableEq, Repr

/-- Branch hints (R180, R181); they change only timing. -/
inductive Hint where
  | none | likely | unlikely | diverge
  deriving DecidableEq, Repr

/-- F-form operands: guard, lane pattern, type, destination and one source. -/
structure Un (τ : Type) where
  g : Guard
  pat : Pat
  ty : τ
  d : Operand
  a : Src
  deriving DecidableEq, Repr

/-- F-form operands with two sources. -/
structure Bin (τ : Type) where
  g : Guard
  pat : Pat
  ty : τ
  d : Operand
  a : Src
  b : Src
  deriving DecidableEq, Repr

/-- F-form operands with three sources. -/
structure Ter (τ : Type) where
  g : Guard
  pat : Pat
  ty : τ
  d : Operand
  a : Src
  b : Src
  c : Src
  deriving DecidableEq, Repr

/-- I-form operands (R178). -/
structure Imm where
  g : Guard
  d : Operand
  a : Operand
  imm : BitVec 32
  deriving DecidableEq, Repr

/-- One P-form half (R182). -/
structure Half (τ : Type) where
  ty : τ
  d : Operand
  s : Src
  pat : LanePat
  deriving DecidableEq, Repr

/-- Class A half operations (R189). -/
inductive HalfOp where
  | add | sub | mul | and | or | xor | andn | shl | shr | sar | min | max | mov | neg | abs
  deriving DecidableEq, Repr

/-- Half 1 of a P-form word: always class A (R184 rule 4). -/
structure Half1 where
  op : HalfOp
  h : Half IType
  deriving DecidableEq, Repr

/-- Functions of PMOV with the operands each uses (R206). -/
inductive PmovArg where
  | copy (pd pa : Fin 8)
  | get (d : Operand)
  | set (a : Src) (pat : LanePat)
  deriving DecidableEq, Repr

/-- Functions of CKCLR (R278). -/
inductive CkclrArg where
  | clear
  | set (a : Src) (pat : LanePat)
  deriving DecidableEq, Repr

/-- Functions of CKCHK (R278). -/
inductive CkchkArg where
  | check (ca cb : Fin 4)
  | get (d : Operand) (ca : Fin 4)
  deriving DecidableEq, Repr

/-- Functions of RNG (R279). -/
inductive RngArg where
  | raw (d : Operand)
  | unifF32 (d : Operand)
  | unifF16 (d : Operand)
  | seed (a : Src) (pat : LanePat)
  deriving DecidableEq, Repr

/-- Engines of one core (R96), in the numbering of R248. -/
inductive Eng where
  | bulk | gather | coll
  deriving DecidableEq, Repr

/-- What a host access over the UCIe attach does (R401): read or write `n` bytes uncached, little-endian value `v`; or,
under the mem protocol (R45), take a 64-byte sector of device memory into the host's cache and modify it there. -/
inductive HostOp where
  | read (pa n : Nat)
  | write (pa n : Nat) (v : Nat)
  | own (pa : Nat)
  | modify (pa n : Nat) (v : Nat)
  deriving DecidableEq, Repr

/-- What an error detection found (R388, R389). -/
inductive ErrKind where
  | corrected (cls die unit : Nat)      -- counted under R397
  | memory (pa : Nat)                   -- an uncorrectable 8-byte word of memory
  | line (pa : Nat)                     -- an uncorrectable line of GDDR7
  | register (core slot lane reg : Nat) -- an uncorrectable lane register (below 128) or group register (from 128)
  | queue (core slot lane q i : Nat)    -- an uncorrectable entry of a queue, the i-th oldest
  | scratchpad (grid block off : Nat)   -- an uncorrectable 8-byte word of a block's scratchpad
  | blockState (grid block : Nat)       -- store buffer, barrier state or full/empty bits of a block
  | sequencer (core : Nat) (e : Eng)    -- e0 to e15 of a sequencer
  deriving DecidableEq, Repr

/-- Which link carried a flit (R388). -/
inductive LinkKind where
  | dieToDie | ucie | kweusha
  deriving DecidableEq, Repr

/-- A line that a prefetch asks for: the lease of its launch (R82), and whether its page is streaming (R26). -/
structure Prefetch where
  line : Nat
  lease : Nat
  streaming : Bool
  deriving DecidableEq, Repr

/-- A numbered replicated update: its signal box and its number there (R31). -/
structure BoxUpdate where
  sbox : Nat
  seq : Nat
  deriving DecidableEq, Repr

/-- What a peer access is (R410): another package performs and acknowledges the oldest access that a core has sent; or a store or an atomic
of another package reaches this one's device memory. -/
inductive PeerOp where
  | ack (core : Nat)
  | store (pa n : Nat) (v : Nat)
  | atom (pa : Nat) (ty : AtomTy) (op : AtomOp) (v cas : Nat)
  deriving DecidableEq, Repr

/-- One constructor per row of the opcode table. -/
inductive Instr where
  -- INT group (R198 to R209)
  | add (o : Bin IType) (sat : Bool)
  | sub (o : Bin IType) (sat : Bool)
  | mul (o : Bin IType) (sat : Bool)
  | mulhi (o : Bin IType)
  | mad (o : Ter IType) (sat : Bool)
  | div (o : Bin IType)
  | rem (o : Bin IType)
  | min (o : Bin IType)
  | max (o : Bin IType)
  | abs (o : Un IType) (sat : Bool)
  | neg (o : Un IType) (sat : Bool)
  | and (o : Bin IType)
  | or (o : Bin IType)
  | xor (o : Bin IType)
  | andn (o : Bin IType)
  | not (o : Un IType)
  | shl (o : Bin IType)
  | shr (o : Bin IType)
  | sar (o : Bin IType)
  | rotl (o : Bin IType)
  | clz (o : Un IType)
  | popc (o : Un IType)
  | brev (o : Un IType)
  | bfx (o : Bin IType)
  | bfi (o : Ter IType)
  | sel (o : Bin IType) (pq : Fin 8) (neg : Bool)
  | mov (o : Un IType)
  | cvti (o : Un IType) (from_ : IType) (start : Fin 8) (sat : Bool)
  | lea (o : Bin Unit) (scale : Fin 8)
  | ptag (o : Bin Unit)
  | pchk (o : Bin Unit) (kind : AccessKind)
  | cmp (g : Guard) (pat : Pat) (ty : IType) (pd : Fin 8) (a b : Src) (cond : Cond) (any : Bool)
  | pand (g : Guard) (pd pa pb : Fin 8)
  | por (g : Guard) (pd pa pb : Fin 8)
  | pxor (g : Guard) (pd pa pb : Fin 8)
  | pnot (g : Guard) (pd pa : Fin 8)
  | pmov (g : Guard) (arg : PmovArg)
  | ixset (g : Guard) (pat : LanePat) (x : Fin 8) (a : Src)
  | ixcur (g : Guard) (pat : LanePat) (x : Fin 8) (a : Src) (add : Bool)
  | ixget (g : Guard) (d : Operand) (x : Fin 8)
  | qcfg (g : Guard) (q : Fin 8) (depth : Fin 17)
  | qocc (g : Guard) (d : Operand) (q : Fin 8)
  | free (g : Guard) (n : Fin 128) (count1 : Fin 128)
  -- FLT group (R256 to R279)
  | fadd (o : Bin FType) (r : Rnd)
  | fsub (o : Bin FType) (r : Rnd)
  | fmul (o : Bin FType) (r : Rnd)
  | fma (o : Ter FType) (r : Rnd)
  | fmin (o : Bin FType) (nan : Bool)
  | fmax (o : Bin FType) (nan : Bool)
  | fcmp (g : Guard) (pat : Pat) (ty : FType) (pd : Fin 8) (a b : Src) (cond : FCond) (any : Bool)
  | fdiv (o : Bin FType) (r : Rnd)
  | fsqrt (o : Un FType) (r : Rnd)
  | frcp (o : Un FType) (r : Rnd)
  | frsq (o : Un FType) (r : Rnd)
  | fexp2 (o : Un FType) (r : Rnd)
  | flog2 (o : Un FType) (r : Rnd)
  | fsin (o : Un FType) (r : Rnd)
  | fcos (o : Un FType) (r : Rnd)
  | ftanh (o : Un FType) (r : Rnd)
  | frnd (o : Un FType) (exact : Bool) (r : Rnd)
  | fclass (o : Un FType)
  | fcvt (o : Un FType) (from_ : FType) (start : Fin 16) (r : Rnd)
  | ftoi (o : Un IType) (from_ : FType) (start : Fin 16) (r : Rnd)
  | itof (o : Un FType) (from_ : IType) (start : Fin 8) (r : Rnd)
  | fscale (o : Bin FType) (sel : Fin 8) (r : Rnd)
  | qbp (o : Bin FType) (planes : Fin 9) (sel : Fin 8)
  | dqbp (o : Bin FType) (planes : Fin 9) (sel : Fin 8) (r : Rnd)
  | fdot4 (o : Ter FType) (r : Rnd)
  | idot4 (o : Ter IType) (sat : Bool)
  | shfl (o : Bin IType)
  | bnset (g : Guard) (pat : LanePat) (gran : Gran) (d : Operand) (a : Src) (n : Fin 4)
  | bnmov (g : Guard) (pat : LanePat) (d : Operand) (a : Src) (n : Fin 4)
  | vote (g : Guard) (pat : LanePat) (fn : VoteFn) (d : Operand) (a : Src)
  | kclr (g : Guard)
  | kadd (g : Guard) (pat : LanePat) (ty : FType) (a : Src)
  | kmac (g : Guard) (pat : Pat) (ty : FType) (a b : Src)
  | krnd (g : Guard) (ty : FType) (r : Rnd) (d : Operand)
  | kscan (o : Un FType) (r : Rnd)
  | ckclr (g : Guard) (c : Fin 4) (arg : CkclrArg)
  | ckacc (g : Guard) (pat : LanePat) (ty : IType) (c : Fin 4) (a : Src) (sub : Bool)
  | ckchk (g : Guard) (arg : CkchkArg)
  | rng (g : Guard) (arg : RngArg)
  -- MEM group (R224 to R255)
  | ld (g : Guard) (pat : LanePat) (ty : IType) (ord : Order) (sc : Scope) (d : Operand) (a : Src)
  | st (g : Guard) (pat : Pat) (ty : IType) (ord : Order) (sc : Scope) (a b : Src)
  | lds (g : Guard) (pat : LanePat) (ty : IType) (x16 : Bool) (fn : LdsFn) (d : Operand) (a : Src) (off : BitVec 8)
  | sts (g : Guard) (pat : Pat) (ty : IType) (x16 : Bool) (fill : Bool) (a b : Src) (off : BitVec 8)
  | ldp (g : Guard) (pat : LanePat) (ord : Order) (sc : Scope) (n : Fin 128) (a : Src) (count : Fin 9)
  | stp (g : Guard) (pat : Pat) (ord : Order) (sc : Scope) (a : Src) (n : Fin 128) (lastB : Bool) (count : Fin 9)
  | pref (g : Guard) (pat : LanePat) (a : Src) (poc : Bool)
  | atom (g : Guard) (pat : Pat) (ty : AtomTy) (op : AtomOp) (ord : Order) (sc : Scope) (n : Fin 128) (a b : Src)
  | red (g : Guard) (pat : Pat) (ty : AtomTy) (op : AtomOp) (ord : Order) (sc : Scope) (a b : Src)
  | fence (g : Guard) (ord : Order) (sc : Scope)
  | feop (g : Guard) (pat : Pat) (set : Bool) (a b : Src)
  | tdef (g : Guard) (pat : LanePat) (d : Operand) (a : Src)
  | tacq (g : Guard) (pat : LanePat) (write : Bool) (a : Src)
  | trel (g : Guard) (pat : LanePat) (d : Operand) (a : Src)
  | tsplit (g : Guard) (pat : Pat) (n : Fin 128) (a b : Src) (dim : Fin 4)
  | tfree (g : Guard) (pat : LanePat) (a : Src)
  | tqry (g : Guard) (pat : LanePat) (d : Operand) (a : Src)
  | edq (g : Guard) (pat : Pat) (fn : EdqFn) (d : Operand) (a : Src) (b : Src)
  | edcopy (g : Guard) (pat : LanePat) (d : Operand) (a : Src)
  | pub (g : Guard) (pat : LanePat) (sc : Scope) (d : Operand) (a : Src)
  | adopt (g : Guard)
  | retract (g : Guard) (pat : LanePat) (d : Operand) (a : Src)
  | rwait (g : Guard) (pat : LanePat) (d : Operand) (a : Src)
  | cpy (o : Ter Unit) (dstSpad srcSpad : Bool)
  | cpyt (o : Bin Unit)
  | gath (o : Ter Unit) (dstSpad idxSpad : Bool)
  | coll (g : Guard) (pat : LanePat) (d : Operand) (a : Src) (lvl : Fin 8)
  | vcmd (g : Guard) (pat : LanePat) (d : Operand) (a : Src) (eng : Fin 16)
  | engq (g : Guard) (pat : LanePat) (wait : Bool) (d : Operand) (a : Src) (kind : Fin 4) (media : Fin 16)
  | fork (g : Guard) (pat : Pat) (a b c : Src)
  | rdv (g : Guard) (d : Operand)
  | bar (g : Guard) (lvl : Fin 8)
  | arrv (g : Guard) (d : Operand) (lvl : Fin 8)
  | bwait (g : Guard) (pat : LanePat) (a : Src) (lvl : Fin 8)
  | semw (g : Guard) (pat : Pat) (sc : Scope) (take : Bool) (d : Operand) (a b : Src)
  | sems (g : Guard) (pat : Pat) (sc : Scope) (a b : Src)
  | spush (g : Guard) (pat : LanePat) (n : Fin 128) (last : Bool) (die : Bool)
  | spop (g : Guard) (n : Fin 128) (sel : Fin 3)
  | join (g : Guard) (pat : LanePat) (sc : Scope) (d : Operand) (a : Src) (die : Bool)
  | launch (o : Bin Unit)
  -- MTX group (R280 to R299)
  | mbld (g : Guard) (pat : LanePat) (glob : Bool) (a : Src) (planes : Fin 9)
  | mbswp (g : Guard)
  | marb (g : Guard) (pat : Pat) (glob : Bool) (a b : Src) (rows1 : Fin 64)
  | mma (g : Guard) (tile : Fin 2) (planes : Fin 9)
  | mzero (g : Guard) (pat : LanePat) (tile : Fin 2) (a : Src) (count1 : Fin 64)
  | mrd (g : Guard) (pat : LanePat) (n : Fin 128) (tile : Fin 2) (b : Src)
  | mwr (g : Guard) (pat : Pat) (tile : Fin 2) (n : Fin 128) (lastA : Bool) (b : Src)
  | mdrain (g : Guard) (pat : Pat) (d : Operand) (tile : Fin 2) (a : Src) (n : Fin 128) (lastB : Bool)
      (m : Fin 128) (lastC : Bool) (sel : Fin 7) (add clr : Bool)
  -- SYS group (R220 to R223)
  | csrr (g : Guard) (d : Operand) (csr : Csr)
  | csrw (g : Guard) (pat : LanePat) (d : Operand) (csr : Csr) (a : Src)
  | csrs (g : Guard) (pat : LanePat) (d : Operand) (csr : Csr) (a : Src)
  | csrc (g : Guard) (pat : LanePat) (d : Operand) (csr : Csr) (a : Src)
  | sysc (g : Guard) (fn : BitVec 6)
  | eret (g : Guard)
  -- I-form (R210, R211)
  | movi (g : Guard) (d : Operand) (z : Bool) (imm : BitVec 32)
  | movhi (o : Imm)
  | addi (o : Imm) (sat : Bool)
  | andi (o : Imm) (s : Bool)
  | ori (o : Imm) (s : Bool)
  | xori (o : Imm) (s : Bool)
  | cmpi (g : Guard) (pd : Fin 8) (a : Operand) (cond : Cond) (uns : Bool) (imm : BitVec 32)
  | ldo (o : Imm) (size : Fin 4) (ord : Fin 4)
  | sto (o : Imm) (size : Fin 4) (ord : Fin 4)
  -- B-form (R212 to R219)
  | bra (g : Guard) (hint : Hint) (off : BitVec 30)
  | brx (g : Guard) (hint : Hint) (a : Operand)
  | call (g : Guard) (hint : Hint) (l : Fin 128) (off : BitVec 30)
  | callx (g : Guard) (hint : Hint) (l : Fin 128) (a : Operand)
  | rtn (g : Guard) (hint : Hint) (a : Operand)
  | yield (g : Guard)
  | tail (g : Guard)
  | exit (g : Guard)
  | trap (g : Guard) (imm : BitVec 8)
  | bpt (g : Guard) (imm : BitVec 8)
  | nop (g : Guard)
  -- P-form words, named by half 0 (R182 to R185, R189)
  | addHalf (h0 : Half IType) (h1 : Half1)
  | subHalf (h0 : Half IType) (h1 : Half1)
  | mulHalf (h0 : Half IType) (h1 : Half1)
  | andHalf (h0 : Half IType) (h1 : Half1)
  | orHalf (h0 : Half IType) (h1 : Half1)
  | xorHalf (h0 : Half IType) (h1 : Half1)
  | andnHalf (h0 : Half IType) (h1 : Half1)
  | shlHalf (h0 : Half IType) (h1 : Half1)
  | shrHalf (h0 : Half IType) (h1 : Half1)
  | sarHalf (h0 : Half IType) (h1 : Half1)
  | minHalf (h0 : Half IType) (h1 : Half1)
  | maxHalf (h0 : Half IType) (h1 : Half1)
  | movHalf (h0 : Half IType) (h1 : Half1)
  | negHalf (h0 : Half IType) (h1 : Half1)
  | absHalf (h0 : Half IType) (h1 : Half1)
  | faddHalf (h0 : Half FType) (h1 : Half1)
  | fsubHalf (h0 : Half FType) (h1 : Half1)
  | fmulHalf (h0 : Half FType) (h1 : Half1)
  | fminHalf (h0 : Half FType) (h1 : Half1)
  | fmaxHalf (h0 : Half FType) (h1 : Half1)
  -- threads, groups and scratchpad (R338 to R346, R90, R217, R370)
  | faultQueueSlotFreed (die ctx : Nat)
  | replayReexecution (die ctx : Nat)
  | issueSelection (core laneSet : Nat)
  | editionAwaitRelease (ctx buf : Nat)
  | yieldExpiry (core slot lane : Nat)
  | convRelease (core slot : Nat)
  | barrierPhaseComplete (grid level member : Nat)
  | semwRelease (pa : Nat)
  | bankAccess (core bank : Nat)
  | drainComplete (core slot : Nat)
  -- engines and the matrix path (R96 to R106, R288 to R296)
  | engineSlotFreed (core : Nat) (e : Eng)
  | engineCommandStart (core : Nat) (e : Eng)
  | engineCommandComplete (core : Nat) (e : Eng)
  | sequencerStep (core : Nat) (e : Eng)
  | collectiveComplete (grid level member seq : Nat)
  | mbldComplete (core : Nat)
  | mmaComplete (core : Nat)
  | drainingEnd (core : Nat)
  -- editions (R111)
  | pubFirstPhaseAck (core ctx buf : Nat)
  | pubCommit (ctx buf : Nat)
  -- leases and translation (R76 to R88)
  | pocLoad (core : Nat) (r : Prefetch)
  | pocStore (core : Nat)
  | pocAtomic (core : Nat)
  | loadReply (core : Nat)
  | translationWalk (core ctx va : Nat)
  | pocScrub (die line : Nat)
  | l1Scrub (core line : Nat)
  -- the Catalogue (R35 to R46)
  | annexReadRequest (die line : Nat)
  | annexStoreRequest (die line : Nat)
  | homeCoreAccess (line : Nat) (store : Bool)
  | regionMerge (die base : Nat)
  | snoopReceived (die line : Nat)
  | invalidationAck (die line : Nat)
  | dirtyWriteBack (die line : Nat)
  | requestRetry (die line : Nat)
  -- replicated pages (R31)
  | replicatedUpdate (sbox : Nat)
  | replicatedBufferAck (die : Nat) (u : BoxUpdate)
  | replicatedCommit (sbox seq : Nat)
  | replicatedApply (die : Nat)
  -- tiles and tenure (R52 to R59)
  | recall (die index : Nat)
  | recallLimitExpiry (die index : Nat)
  | recallAck (die index : Nat)
  | tenureGrant (die index : Nat)
  -- sidings and the yard (R326 to R337, R391 to R395)
  | spushRoom (siding : Nat)
  | joinDeferredPush (siding : Nat)
  | gridStart (ctx queue : Nat)
  | yardAdmission (die : Nat)
  | blockReservation (grid block : Nat)
  | yardPreemption (grid block : Nat)
  | gridEnd (grid : Nat)
  | blockContainment (grid block : Nat)
  | blockCommit (grid block : Nat)
  | blockRelaunch (grid block : Nat)
  -- errors, links, monitors and power (R388 to R400, R411)
  | errorDetected (e : ErrKind)
  | coreWithdrawal (core : Nat)
  | linkReplay (k : LinkKind) (link lane : Nat)
  | requestReissue (core id : Nat)
  | peerLoss (port peer : Nat)
  | peerAccess (op : PeerOp)
  | hostAccess (op : HostOp)
  | captureSample (die : Nat) (source : Nat) (value : Nat) (ctx : Nat)
  | captureClear (die unit : Nat)
  | registerWrite (pa n v : Nat)
  -- media engines (R413 to R419)
  | mediaCommandStart (eng : Fin 16)
  | mediaRow (eng : Fin 16)
  | mediaFilteredWait (eng : Fin 16)
  | mediaCommandComplete (eng : Fin 16)
  | mediaStreamError (eng : Fin 16)
  -- the reconvergence barrier, which has no field (R215)
  | conv
  -- events that take their subject from a queue in the state: logical time (R80, R88), shootdowns (R68, R77), the host
  -- (R33, R46), power (R411), and the firmware's commands, each for the mailbox whose doorbell rang first (R401 to R412)
  | clockSelfAdvance
  | referenceExchange
  | boundsInvalidationAck
  | shootdownAck
  | hostSectorRelease
  | hostMemoryResponse
  | powerClockStep
  | arithmeticClockRaise
  | deviceReset
  | createCtx
  | destroyCtx
  | mapPage
  | mapEdition
  | unmap
  | loadSegment
  | launchCommand
  | saveCtx
  | restoreCtx
  | faultReplay
  | faultCancel
  | dropChannel
  | setPolicyBoundsEntry
  | setPolicyVectors
  | setPolicySignalBox
  | setPolicyQuietInterval
  | setPolicyCodePublication
  | setPolicyLaunchQueue
  | setPolicyKeySlot
  | setPolicyErrorWindow
  | setPolicyPeerBase
  | queryRevision
  | queryFeatures
  | queryCapacity
  | queryFailureRecord
  | queryFailingUnits
  | queryIdentityKeyHash
  | queryImageSize
  | attest
  | mediaReset
  | unknownCommand
  | doorbellOverrun
  deriving DecidableEq, Repr

end Sys2Proof
end

