-- ==== Sys2Proof/Machine/State.lean ====
section
/-!
DEFINITION. The state of the whole package as plain data: threads, groups, blocks, cores, dies, contexts, grids, the
firmware's mailboxes, the engines, and the agenda of pending events. Keys: a core is numbered die x 40 + core (R86);
a group is core x 32 + slot, slot = lane-set x 8 + slot within the lane-set (R368); a thread is group x 32 + lane. A retired group whose
slot is free while accesses or commands of it are still to be performed stands in a drain tracker entry of its core instead (R217): entry
n of the 16 has the group number 16384 + core x 16 + n.
-/
namespace Sys2Proof.Machine

/-- Physical memory: the bytes listed, addresses strictly rising; an unlisted byte reads as zero (log entry 1). -/
abbrev Memory := List Host.Cell

/-- An index register (R122). Its start value is base 0, bound 1, cursor 0, step 0 (R113). -/
structure IndexReg where
  base : BitVec 7
  bound : BitVec 8
  cursor : BitVec 16
  step : BitVec 4
  deriving DecidableEq, Repr

def IndexReg.init : IndexReg := ⟨0, 1, 0, 0⟩

/-- A queue (R129, R130): depth 0 is unconfigured; the oldest entry stands first. -/
structure Queue where
  depth : Nat
  entries : List Word
  deriving DecidableEq, Repr

def Queue.init : Queue := ⟨0, []⟩

/-- The current region of a thread or sequencer (R344): buffer, pinned backing, its edition number. -/
structure RegionPin where
  buf : Nat
  backing : Nat
  edition : Nat
  deriving DecidableEq, Repr

/-- Where a checked page of an access lies (R66, R72 to R75). -/
structure Xlat where
  va : Nat
  pa : Nat
  n : Nat
  policy : Nat
  repl : Bool
  owner : Nat
  ed : Option (Nat × Nat)
  leaf : Word
  big : Bool
  deriving DecidableEq, Repr

/-- An access that has passed its check and has to wait before it is performed (R68): the word that makes it, its pointer, the kind of access
(R368), and its translations, under which it goes on when the word issues again. -/
structure Passed where
  pc : Word
  ptr : Word
  kind : Nat
  xs : List Xlat
  deriving DecidableEq, Repr

/-- What a thread that is not ready waits for (R338). A wait that the event ending it completes holds the waiting
instruction; in the others the thread executes its word again. -/
inductive Wait where
  | conv
  | ldsWait
  | bank
  | atomic (p : Word)
  | semw (pa : Nat) (ins : Instr)
  | tacq (die index : Nat) (ins : Instr)
  | barrier (grid level member phase : Nat) (ins : Instr)
  | pub (buf : Nat) (ins : Instr)
  | joinPush (siding : Nat) (ins : Instr)
  | adopt (buf : Nat)
  | edition (buf : Nat)
  | engine (e : Eng)
  | media (eng : Nat)
  | siding (id : Nat) (ins : Instr)
  | rdv
  deriving DecidableEq, Repr

/-- Running, waiting, parked on a fault entry (die and sequence number), parked with its fault not yet written because
the queue is full (R368), or retired (R217). -/
inductive Status where
  | run
  | wait (w : Wait)
  | park (die seq : Nat)
  | parkFull
  | retired
  deriving DecidableEq, Repr

/-- One thread (R113, R139, R193, R220, R279, R344). Only allocated v names are listed; a name that holds no register
reads zero (R119). In a YIELD interval (R216), yieldAt holds the cycle at which it began and the slots of the other
ready threads of the lane that have not issued since. A thread that re-executes after a replay carries the die and the number of
its fault entry (R370). One whose atomic has been performed before its word completes carries the value found and the pointer that it used
(R31, R32, R254). `poisoned` lists the v registers and the queue entries (Operands.markQ) that failed their check (R389). One that a cancel met while it ran on takes trap 0x0D, with the address here, before its next word (R377). `passed` lists the accesses of its word that have
passed their checks and wait. -/
structure Thread where
  pc : Word
  v : Table Word
  x : Table IndexReg
  q : Table Queue
  p : BitVec 8
  tctl : Word
  astat : Word
  tmode : Word
  tepc : Word
  tcause : Word
  tval : Word
  tsave : Word
  rng : Word
  region : Option RegionPin
  status : Status
  waited : Nat
  yieldAt : Option (Nat × List Nat)
  poisoned : List Nat
  replay : Option (Nat × Nat)
  answer : Option (Nat × Word)
  cancel : Option Word
  passed : List Passed
  deriving DecidableEq, Repr

def Thread.start (pc : Word) (gid : Nat) : Thread :=
  { pc := pc, v := [], x := [], q := [], p := 0, tctl := 0, astat := 0, tmode := 0, tepc := 0, tcause := 0, tval := 0,
    tsave := 0, rng := BitVec.ofNat 64 gid, region := none, status := .run, waited := 0, yieldAt := none, poisoned := [],
    replay := none, answer := none, cancel := none, passed := [] }

/-- A Benes control set with its granularity (R272); the map from destination to source positions. -/
structure Benes where
  gran : Gran
  perm : List Nat
  deriving DecidableEq, Repr

def Benes.init : Benes := ⟨.b64, List.range 32⟩

/-- A group's holds on one tile, and its revoked mark (R239, R57). -/
structure Hold where
  die : Nat
  index : Nat
  count : Nat
  revoked : Bool
  deriving DecidableEq, Repr

/-- The programs of a group's most recent FORK (R103, R104): its number among the group's FORKs, the engines still running, and the status
each program that ended reported first (R104), by engine number. -/
structure Fork where
  num : Nat
  running : List Nat
  statuses : Table Nat
  deriving DecidableEq, Repr

/-- One group (R114, R220, R239, R92, R104: how many FORKs it has issued); one in a drain tracker entry has the slot that it `left` (R217). gseen is gstat as every earlier issue cycle left it, and gsets the bits set in
this one (R195). -/
structure Group where
  ctx : Nat
  grid : Nat
  block : Nat
  lidx1 : Nat
  threads : Table Thread
  k : BitVec 2176
  kp : Bool
  kn : Bool
  kq : Bool
  ko : Bool
  c : Table Word
  n : Table Benes
  gstat : Word
  gseen : Word
  gsets : Word
  holds : List Hold
  spadCount : Nat
  fork : Option Fork
  forks : Nat
  poisoned : List Nat
  left : Option Nat
  deriving DecidableEq, Repr

def Group.start (ctx grid block lidx1 : Nat) (threads : Table Thread) : Group :=
  { ctx := ctx, grid := grid, block := block, lidx1 := lidx1, threads := threads, k := 0, kp := false, kn := false,
    kq := false, ko := false, c := [], n := [], gstat := 0, gseen := 0, gsets := 0, holds := [], spadCount := 0, fork := none,
    forks := 0, poisoned := [], left := none }

/-- One entry of a restartable block's store buffer (R392), at a location: a physical address, one that stands for all
copies of a replicated page (R32), or a byte of an edition buffer's draft, whichever backing that is when the block commits (R350); each with
the pointer under which it was checked. -/
inductive SbEntry where
  | store (thread : Nat) (ptr : Word) (loc : Nat) (size : Nat) (v : Word)
  | red (thread : Nat) (ptr : Word) (loc : Nat) (ty : AtomTy) (op : AtomOp) (v : Word)
  | sems (thread : Nat) (ptr : Word) (loc : Nat) (n : Nat)
  deriving DecidableEq, Repr

/-- The failure record of a context (R395, R425). -/
structure Failure where
  cause : Nat
  tval : Word
  tepc : Word
  grid : Nat
  block : Nat
  die : Nat
  core : Nat
  deriving DecidableEq, Repr

/-- One block (R89, R93, R392, R394). -/
structure Block where
  ctx : Nat
  grid : Nat
  index : Nat
  core : Nat
  scratch : Nat
  spad : Memory
  full : List Nat
  spadPoison : List Nat
  store : List SbEntry
  restartable : Bool
  contained : Nat
  stopped : Option Failure
  deriving DecidableEq, Repr

/-- The barrier of one member of a level (R250, R431), with the latest clock of a core that arrived at it, which a
completed wait takes over (R303 to R306). -/
structure Barrier where
  grid : Nat
  level : Nat
  member : Nat
  phase : BitVec 32
  arrived : List Nat
  clock : BitVec 16
  poisoned : Bool
  deriving DecidableEq, Repr

/-- Timestamps of one line at its point of coherence (R83, R302). -/
structure Stamp where
  wts : BitVec 16
  rts : BitVec 16
  origin : BitVec 16
  deriving DecidableEq, Repr

def Stamp.init : Stamp := ⟨0, 0, 0⟩

/-- One L1 line (R79): data, timestamps, dirty bytes under write tenure (R55), kept under tenure (R87), and whether it is of a streaming
page, first in line for eviction (R26). -/
structure L1Line where
  data : LineData
  st : Stamp
  dirty : BitVec 128
  kept : Bool
  streaming : Bool
  deriving DecidableEq, Repr

/-- One Annex line (R24): data, timestamps, the bytes stored and not yet written back, and its valid bit for each 64-byte sector
(R45). -/
structure AnnexLine where
  data : LineData
  st : Stamp
  dirty : BitVec 128
  valid : BitVec 2
  deriving DecidableEq, Repr

/-- States of a region entry (R35). -/
inductive RegState where
  | u | s | o
  deriving DecidableEq, Repr

/-- One Catalogue region entry (R35, R39). -/
structure Region where
  base : Nat
  size : Nat
  state : RegState
  sharers : List Nat
  quietSince : Nat
  deriving DecidableEq, Repr

/-- A core that holds tenure on a tile, for one context (R52), and the lease of the launch whose TACQ began the tenure, which its L1
copies take when it ends (R54). -/
structure Holder where
  core : Nat
  ctx : Nat
  write : Bool
  lease : Nat
  deriving DecidableEq, Repr

/-- Who makes an access: a thread, a core's posted stores and reductions, an engine of a core, a media engine, a prefetch of a core, or
the host and the firmware. -/
inductive Accessor where
  | thread (t : Nat)
  | posted (core : Nat)
  | engine (core : Nat) (e : Eng)
  | media (eng : Nat)
  | prefetch (core : Nat)
  | host
  deriving DecidableEq, Repr

/-- What a request at a Catalogue asks for: a store by the Annex or the home cores of a die, or an access that its accessor performs
once the request is the current one of its line (R42). -/
inductive ReqWho where
  | store
  | access (who : Accessor)
  deriving DecidableEq, Repr

/-- Where a request stands (R42): queued at the home; marked by a conflict that its Annex answered; or answered retry, until it is
issued again. -/
inductive ReqPhase where
  | queued | marked | retrying
  deriving DecidableEq, Repr

/-- A request at a Catalogue that has not completed (R42, R43): how often it has been answered retry, whether its entry has been split
for it (R38), the dies whose acknowledgement it awaits, and the highest rts that they have reported (R41). A store request that has been
served stays, `granted`, until a store of its die is performed. -/
structure CatReq where
  die : Nat
  line : Nat
  who : ReqWho
  retries : Nat
  phase : ReqPhase
  split : Bool
  awaiting : List Nat
  rts : BitVec 16
  granted : Bool
  deriving DecidableEq, Repr

/-- A request queued at a tile entry, in arrival order (R57, R58); a restored group's tenure waits as a request too (R385). -/
inductive TileReq where
  | tacq (group : Nat) (write : Bool)
  | regrant (group : Nat) (write : Bool)
  | access (who : Accessor)
  deriving DecidableEq, Repr

/-- A queued request with its number in the order of arrival at the die's tile entries. -/
structure Queued where
  seq : Nat
  req : TileReq
  deriving DecidableEq, Repr

/-- One entry of a die's tile table (R47 to R61, R320); `recalled` lists the cores that a recall asks, where it does not ask every
holder, and `eds` the buffer and backing of each page of the footprint, where it is one of an edition buffer's draft. -/
structure Tile where
  gen : BitVec 16
  defined : Bool
  retired : Bool
  ctx : Nat
  base : Word
  rank : Nat
  esize : Nat
  extents : List Nat
  strides : List Nat
  footprint : List (Nat × Nat)
  holders : List Holder
  recalling : Bool
  recalled : List Nat
  recallAt : Nat
  queue : List Queued
  eds : List (Option (Nat × Nat))
  published : Bool
  deriving DecidableEq, Repr

def Tile.free (gen : BitVec 16) (ctx : Nat) : Tile :=
  { gen := gen, defined := false, retired := false, ctx := ctx, base := 0, rank := 0, esize := 0, extents := [],
    strides := [], footprint := [], holders := [], recalling := false, recalled := [], recallAt := 0, queue := [], eds := [], published := false }

/-- A translated leaf held by a core (R76). -/
structure TlbEntry where
  ctx : Nat
  page : Nat
  big : Bool
  leaf : Word
  edition : Nat
  deriving DecidableEq, Repr

/-- A bounds-table entry (R64). -/
structure BoundsEntry where
  base : Nat
  limit : Nat
  rights : BitVec 16
  deriving DecidableEq, Repr

/-- A bounds entry held by a core (R68). -/
structure BoundsCached where
  ctx : Nat
  tag : Nat
  e : BoundsEntry
  deriving DecidableEq, Repr

/-- A global store issued and not yet performed (R84): the bytes of one line that an instruction stores, under one request identifier
(R372). -/
structure PendStore where
  id : BitVec 10
  thread : Nat
  pa : Nat
  size : Nat
  v : Nat
  lease : Nat
  ctx : Nat
  policy : Nat
  replicated : Bool
  issuedAt : BitVec 16
  sent : Bool
  buf : Option (Nat × Nat)
  deriving DecidableEq, Repr

/-- An atomic issued whose result no thread waits for (RED), not yet performed. -/
structure PendAtomic where
  id : BitVec 10
  thread : Nat
  pa : Nat
  ty : AtomTy
  op : AtomOp
  v : Word
  lease : Nat
  ctx : Nat
  policy : Nat
  replicated : Bool
  issuedAt : BitVec 16
  sent : Bool
  buf : Option (Nat × Nat)
  deriving DecidableEq, Repr

/-- A renewal the point of coherence has answered and the L1 has not installed (R83). -/
structure Reply where
  line : Nat
  data : LineData
  st : Stamp
  streaming : Bool
  deriving DecidableEq, Repr

/-- Who accesses a scratchpad with LDS: a thread, or the sequencer of an engine of the core. -/
inductive SpadWho where
  | thread (t : Nat)
  | sequencer (e : Eng)
  deriving DecidableEq, Repr

/-- An LDS in its bank's queue, or on the core's list until its granule's bit is set (R94): who waits, the byte it reads from, whether it
waits for the bit and takes it, and the instruction, which its bank step completes. -/
structure SpadWaiter where
  who : SpadWho
  block : Nat
  off : Nat
  take : Bool
  ins : Instr
  deriving DecidableEq, Repr

/-- The 16-byte granule that an LDS reads (R90). -/
def SpadWaiter.granule (w : SpadWaiter) : Nat := w.off / 16

/-- The group whose completion counter an LDS counts in (R92). -/
def SpadWaiter.group (w : SpadWaiter) : Option Nat :=
  match w.who with
  | .thread t => some (t / 32)
  | .sequencer _ => none

/-- A scratchpad access in its bank's queue (R90), with the group whose completion counter it counts in (R92); a
sequencer's access counts in none. -/
inductive SpadReq where
  | write (group : Option Nat) (block : Nat) (off size : Nat) (v : Nat) (fill : Bool)
  | setBit (group : Option Nat) (block : Nat) (granule : Nat) (set : Bool)
  | read (w : SpadWaiter)
  deriving DecidableEq, Repr

/-- The completion counter that an access counts in (R92). -/
def SpadReq.group : SpadReq → Option Nat
  | .write g _ _ _ _ _ => g
  | .setBit g _ _ _ => g
  | .read w => w.group

/-- The block that an access reaches. -/
def SpadReq.block : SpadReq → Nat
  | .write _ b _ _ _ _ => b
  | .setBit _ b _ _ => b
  | .read w => w.block

/-- An access that a collector or a sequencer holds because its bank's queue is full (R90). -/
structure SpadHeld where
  bank : Nat
  who : SpadWho
  req : SpadReq
  deriving DecidableEq, Repr

/-- What an engine command does (R96, R245, R293). -/
inductive CmdOp where
  | cpy (dst src len : Word) (dstSpad srcSpad : Bool)
  | cpyt (dst src : Word)
  | gath (dst src idx : Word) (idxSpad : Bool)
  | coll (desc : Word) (level : Nat)
  | edcopy (buf : Nat)
  | mdrain (tile : Nat) (rec : Word) (rows cols : List Byte) (add clr : Bool)
  deriving DecidableEq, Repr

/-- Progress of a command: queued, stopped on a fault (R99), cancelled, waiting for the other participants of its
collective, or performed, with the status and the trap of R100 that its completion records. -/
inductive CmdPhase where
  | queued
  | faulted
  | cancelled
  | collWait
  | done (status cause : Nat)
  deriving DecidableEq, Repr

/-- A completed command's status, the trap it raises at a wait (R100), and its encoded length (R248). -/
structure CmdStatus where
  num : BitVec 32
  status : Nat
  cause : Nat
  len : Nat
  deriving DecidableEq, Repr

/-- What a sequencer's program waits for: a place in its engine (R97), a full/empty bit (R103), room in a bank's queue (R90), the next
commit of a retracted region (R347), or the answer to a fault (R99); or the program ends, with a status, before its next word. -/
inductive SeqWait where
  | none | slot | bit | bank | edition (buf : Nat) | fault | ending (status : Nat)
  deriving DecidableEq, Repr

/-- A sequencer running an engine program (R103, R347). -/
structure Seq where
  pc : Word
  ctx : Nat
  group : Nat
  fork : Nat
  e : Table Word
  p : BitVec 8
  region : Option RegionPin
  waiting : SeqWait
  deriving DecidableEq, Repr

/-- One command of an engine (R97): the block whose scratchpad it reaches, the FORK whose program issued it, if one did, and what it has
read and checked since it started, in the order in which it did: its records and its ranges (R99, R245). -/
structure Cmd where
  num : BitVec 32
  ctx : Nat
  thread : Nat
  block : Nat
  op : CmdOp
  phase : CmdPhase
  fork : Option Nat
  recs : List Nat
  ranges : List (List Xlat)
  deriving DecidableEq, Repr

/-- One engine of a core (R96 to R100); `wrapped` once every command number has been given out (R97). -/
structure Engine where
  next : BitVec 32
  wrapped : Bool
  queue : List Cmd
  done : List CmdStatus
  seq : Option Seq
  deriving DecidableEq, Repr

def Engine.init : Engine := ⟨0, false, [], [], none⟩

/-- A background MBLD (R288): the planes read, as bank contents by element number. -/
structure BankLoad where
  data : Table Byte
  deriving DecidableEq, Repr

/-- An MMA in progress (R291). -/
structure MmaJob where
  tile : Nat
  planes : Nat
  deriving DecidableEq, Repr

/-- A tile being drained, and whether the engine has read it (R296). -/
structure DrainJob where
  tile : Nat
  clr : Bool
  read : Bool
  deriving DecidableEq, Repr

/-- The matrix path of a core (R280, R281). Bank and row-buffer elements hold the 8 planes of x as one byte. -/
structure Matrix where
  holder : Option Nat
  granted : Nat
  active : Bool
  bank0 : Table Byte
  bank1 : Table Byte
  rows : Table Byte
  kload : Nat
  a0 : Table (BitVec 32)
  a1 : Table (BitVec 32)
  loads : List BankLoad
  mmas : List MmaJob
  drains : List DrainJob
  deriving DecidableEq, Repr

def Matrix.init : Matrix :=
  { holder := none, granted := 0, active := false, bank0 := [], bank1 := [], rows := [], kload := 0, a0 := [], a1 := [],
    loads := [], mmas := [], drains := [] }

/-- One core (R11, R302, R68, R76, R79, R80, R84, R90, R334, R338, R372). -/
structure Core where
  clock : BitVec 16
  l1cfg : Nat
  l1 : Table L1Line
  tlb : List TlbEntry
  bounds : List BoundsCached
  pend : List PendStore
  pendAtomics : List PendAtomic
  replies : List Reply
  banks : Table (List SpadReq)
  held : List SpadHeld
  waiters : List SpadWaiter
  bulk : Engine
  gather : Engine
  coll : Engine
  matrix : Matrix
  inService : Bool
  reserved : Option Nat
  rr : Table Nat
  picks : Table Nat
  reqNext : BitVec 10
  replDie : Option (BitVec 16)
  replPkg : Option (BitVec 16)
  deriving DecidableEq, Repr

def Core.init : Core :=
  { clock := 0, l1cfg := 0, l1 := [], tlb := [], bounds := [], pend := [], pendAtomics := [], replies := [], banks := [],
    held := [], waiters := [], bulk := Engine.init, gather := Engine.init, coll := Engine.init, matrix := Matrix.init,
    inService := true, reserved := none, rr := [], picks := [], reqNext := 0, replDie := none, replPkg := none }

/-- What a replicated update does at its signal box (R31): a plain store, a reduction or an atomic with the value that CAS compares, a
signal or a take of a semaphore, or a join's decrement. -/
inductive ReplOp where
  | store
  | atom (ty : AtomTy) (op : AtomOp) (cas : Nat)
  | sems
  | semTake
  | join
  deriving DecidableEq, Repr

/-- A replicated update at its signal box (R31, R302): its number once it has one, the die offset it changes, the value
(or the operand of the operation that gives it), the dies that have acknowledged and those that have applied it; the request identifier
of the issuing core (R372), the thread that waits for it, and the value that an atomic found; and the latest timestamp at which a die has
applied it (R302). -/
structure ReplUpdate where
  sbox : Nat
  seq : Option Nat
  off : Nat
  size : Nat
  v : Nat
  op : ReplOp
  origin : BitVec 16
  core : Nat
  acks : List Nat
  committed : Bool
  applied : List Nat
  id : BitVec 10
  waiter : Option Accessor
  old : Nat
  top : BitVec 16
  deriving DecidableEq, Repr

/-- A store or an atomic on its way to another package (R410): the core and the identifier of the request (R372), the package and the address
in its device memory, what is done there with which operand, and the thread that waits for the answer. -/
structure PeerMsg where
  core : Nat
  id : BitVec 10
  peer : Nat
  addr : Nat
  size : Nat
  op : ReplOp
  v : Nat
  waiter : Option Accessor
  deriving DecidableEq, Repr

/-- One capture unit (R399). -/
structure Capture where
  control : Word
  min : Word
  max : Word
  samples : Word
  bins : Table Word
  deriving DecidableEq, Repr

def Capture.init : Capture := ⟨0xFFFF0000, BitVec.allOnes 64, 0, 0, []⟩

/-- A level-2 or level-1 table entry that a die's walker holds (R76): its context, its level, its number within the whole address space
at that level, and the entry. -/
structure WalkEntry where
  ctx : Nat
  level : Nat
  num : Nat
  entry : Word
  deriving DecidableEq, Repr

/-- One compute die with its base die (R9, R17, R20, R31, R35, R39, R76, R88, R397, R399). `lost` bounds the stamps of the lines that the
L2 no longer lists after it was invalidated (R34). `replTop` is the latest timestamp at which any die applied a replicated update that every die
has applied (R302); `inL2` and `inStacks` list the lines that an access has allocated in the L2 and in the Stacks (R14, R26). -/
structure Die where
  ref : BitVec 16
  heard : Table (BitVec 16)
  l2 : Table Stamp
  annex : Table AnnexLine
  regions : List Region
  requests : List CatReq
  writeBacks : List Nat
  quiet : Nat
  tiles : Table Tile
  arrivals : Nat
  live : List Nat
  capacity : Nat
  capture : Table Capture
  waysOff : List Nat
  replT : BitVec 16
  walker : List WalkEntry
  lost : Option Stamp
  replTop : Option (BitVec 16)
  inL2 : List Nat
  inStacks : List Nat
  deriving DecidableEq, Repr

def Die.init : Die :=
  { ref := 0, heard := [], l2 := [], annex := [], regions := [], requests := [], writeBacks := [], quiet := 20, tiles := [],
    arrivals := 0, live := List.range 24, capacity := 24, capture := [], waysOff := [], replT := 0, walker := [], lost := none,
    replTop := none, inL2 := [], inStacks := [] }

/-- Answer state of a fault entry (R369): an entry leaves the list when it has re-executed, or is cancelled or withdrawn
(R370, R371). A cancel given while the context is saved is kept for its restore (R385). -/
inductive FaultState where
  | unanswered | replayable | cancelled
  deriving DecidableEq, Repr

/-- One fault queue entry (R368). -/
structure FaultEntry where
  seq : Nat
  addr : Word
  kind : Nat
  flags : Nat
  thread : Nat
  grid : Nat
  block : Nat
  lidx1 : Nat
  cmd : Nat
  engine : Option Eng
  state : FaultState
  deriving DecidableEq, Repr

/-- The fault queue of one die for one context (R368). -/
structure FaultQueue where
  next : Nat
  entries : List FaultEntry
  waiting : List FaultEntry
  deriving DecidableEq, Repr

def FaultQueue.init : FaultQueue := ⟨0, [], []⟩

/-- A launch queue (R327, R430): packets accepted and not yet started, by sequence number. -/
structure LaunchQueue where
  base : Nat
  depth : Nat
  next : BitVec 32
  waiting : List Nat
  deriving DecidableEq, Repr

/-- Where a context stands: on the cores, stopping for a save or a change that needs one (R378), saved by SAVE_CTX, pre-empted
by the yard (R337), or being destroyed (R426). -/
inductive CtxPhase where
  | running | stopping | saved | preempted | ending
  deriving DecidableEq, Repr

/-- Where LOAD_SEGMENT has placed a segment of a code object (R159, R354, R407): the object's address, the segment's index, its region tag and
its virtual base. -/
structure Loaded where
  obj : Nat
  index : Nat
  tag : Nat
  base : Nat
  deriving DecidableEq, Repr

/-- One context (R64, R70, R220, R244, R327, R337, R351, R368, R379, R383, R403, R404, R406, R408). `tables` lists the page tables
taken from the pool, by physical base and size; `restoredAt` is the fabric cycle of its last restore, if any; `withdrawn` lists the edition
buffers that a RETRACT has withdrawn an edition of since they were created (R244), `loaded` the segments loaded, the latest load of each. -/
structure Context where
  isProtected : Bool
  service : Bool
  failure : Option Failure
  phase : CtxPhase
  restoredAt : Option Nat
  area : Nat
  areaSize : Nat
  tables : List (Nat × Nat)
  tvec : Word
  svec : Word
  signalBox : Nat
  codePolicy : Nat
  keys : Table Nat
  chain : Nat
  events : List (List Byte)
  omitted : Nat
  aesKey : Option (BitVec 256)
  counter : Nat
  imageSize : Nat
  queues : Table LaunchQueue
  faults : Table FaultQueue
  withdrawn : List Nat
  loaded : List Loaded
  deriving DecidableEq, Repr

/-- A contained restartable block that waits for its relaunch (R394): the core it was contained on, how often it has been
contained, and since when it waits. -/
structure Relaunch where
  block : Nat
  core : Nat
  contained : Nat
  since : Nat
  deriving DecidableEq, Repr

/-- A running or waiting grid (R325, R329, R330, R336), in fabric cycles since when it has run and since when it has had no
block admitted, and its place in the order of starts; `clock` is what its cores take over from its parent, if it has one (R318). -/
structure Grid where
  ctx : Nat
  queue : Nat
  seq : Nat
  entry : Word
  top : Nat
  l1 : Nat
  regs : Nat
  scratch : Nat
  lease : Nat
  tiles : Nat
  priority : Nat
  restartable : Bool
  gang : Nat
  domains : List Nat
  counts : List Nat
  completion : Word
  parent : Nat
  pendingBlocks : List Nat
  members : Table Nat
  started : Nat
  since : Nat
  relaunch : List Relaunch
  clock : Option (BitVec 16)
  order : Nat
  deriving DecidableEq, Repr

/-- A continuation record in a siding (R331): the four words, the pushing block's whole index, and the pushing core's clock,
which a pop takes over as an acquire (R317), and the place where the siding's part of the context's area holds it (R332, R404). -/
structure Rec where
  code : Word
  frame : Word
  join : Word
  flags : Word
  grid : Nat
  block : Nat
  clock : BitVec 16
  slot : Nat
  deriving DecidableEq, Repr

/-- A record that a SPUSH or a JOIN pushes once its siding has room, in the order in which they found it full, and the thread that waits for
it (R253, R435); for a JOIN, the addition that gives its counter back where its wait ends with no effect (R377; log entry 67). -/
structure Deferred where
  siding : Nat
  thread : Nat
  r : Rec
  undo : Option PendAtomic
  deriving DecidableEq, Repr

/-- Who holds a pin (R108, R241, R244, R344, R347); a pin that EDQ took outlives its thread. -/
inductive PinOwner where
  | thread (t : Nat)
  | sequencer (core : Nat) (e : Eng)
  | command (core : Nat) (e : Eng) (num : Nat)
  | media (eng core : Nat) (num : Nat)
  | edq (t : Option Nat)
  deriving DecidableEq, Repr

/-- One pin on one backing, with the edition that was current there when it was taken (R108, R244). -/
structure Pin where
  ctx : Nat
  buf : Nat
  backing : Nat
  edition : Nat
  owner : PinOwner
  deriving DecidableEq, Repr

/-- A PUB between its first phase and its commit (R111). -/
structure Publication where
  ctx : Nat
  buf : Nat
  thread : Nat
  acks : List Nat
  deriving DecidableEq, Repr

/-- A waiting SEMW (R252), in arrival order, of a thread or a media engine (R417): its word, the page through which it reaches it, and the
lease of its launch (R82); with the pointer under which it was checked. -/
structure SemWait where
  ptr : Word
  pa : Nat
  page : Xlat
  who : Accessor
  n : Nat
  take : Bool
  lease : Nat
  deriving DecidableEq, Repr

/-- A firmware command waiting for acknowledgements (R68, R77): mailbox, context, the tag or the ranges of virtual addresses whose entries it
changed, cores and walkers outstanding, and the result that it returns. -/
structure AckWait where
  mb : Nat
  ctx : Nat
  key : Nat
  spans : List (Nat × Nat)
  isBounds : Bool
  cores : List Nat
  w1 : Nat
  deriving DecidableEq, Repr

/-- One participant's COLL (R246, R247): accepted with no descriptor; its words and checked ranges from its start. -/
structure CollEntry where
  grid : Nat
  level : Nat
  member : Nat
  part : Nat
  seq : Nat
  core : Nat
  num : BitVec 32
  desc : List Nat
  src : List Xlat
  dst : List Xlat
  parts : Nat
  deriving DecidableEq, Repr

/-- How many COLLs a participant has issued at a level (R246). -/
structure CollCount where
  grid : Nat
  level : Nat
  member : Nat
  part : Nat
  next : Nat
  deriving DecidableEq, Repr

/-- One mailbox (R402), with the path its last doorbell took (R403). -/
structure Mailbox where
  doorbell : Word
  fromHost : Bool
  status : Word
  cmd : Table Word
  resp : Table Word
  deriving DecidableEq, Repr

def Mailbox.init : Mailbox := ⟨0, false, 0, [], []⟩

/-- Progress of a media command (R417, R419, R99): queued, stopped on a fault, cancelled, at its rows, about to signal a row that it has
written, with that signal on its way to the signal box, waiting in a SEMW.take on its filtered semaphore, at a break in its stream, with its
semaphores poisoned by a reset, or ended with a status and the trap of a wait. -/
inductive MediaPhase where
  | queued
  | faulted
  | cancelled
  | rows
  | signal
  | signalling
  | filtered
  | broken
  | poisoned
  | done (status cause : Nat)
  deriving DecidableEq, Repr

/-- A media command: its number on its engine and core; what it has read since it started, with the checked ranges (R99); from its start
the 64 bytes that the engine read (R414), its source and its reference frames as read, and the checked ranges of its output, its state and its semaphores; the rows done and the
filtered rows taken back (R417), and the bytes an encode wrote (R416). -/
structure MediaCmd where
  num : BitVec 32
  core : Nat
  ctx : Nat
  thread : Nat
  block : Nat
  fetched : List (List Xlat × List Byte)
  ptr : Word
  desc : Nat
  stream : List Byte
  refs : List Byte
  outX : List Xlat
  stateX : List Xlat
  rowX : List Xlat
  filtX : List Xlat
  row : Nat
  taken : Nat
  phase : MediaPhase
  len : Nat
  deriving DecidableEq, Repr

/-- One media engine (R413 to R419); command numbers are kept per core (R97), and `wrapped` lists the cores whose numbers have
all been given out once. -/
structure Media where
  next : Table (BitVec 32)
  wrapped : List Nat
  queue : List MediaCmd
  done : List (Nat × CmdStatus)
  deriving DecidableEq, Repr

def Media.init : Media := ⟨[], [], [], []⟩

/-- A host-cached sector of host-coherent memory (R45, R46): sector number is the key; the bytes the host modified, and
whether a device store waits for its release. -/
structure HostSector where
  data : BitVec 512
  dirty : BitVec 64
  wanted : Bool
  deriving DecidableEq, Repr

/-- A request of the hub's host agent for a sector of host memory (R33, R45): the sector's number, the die that asks, and whether the
agent takes ownership of it. -/
structure HostRequest where
  sector : Nat
  die : Nat
  own : Bool
  deriving DecidableEq, Repr

/-- An interrupt raised to the host (R401). -/
structure Interrupt where
  vector : Nat
  die : Nat
  ctx : Nat
  deriving DecidableEq, Repr

/-- A completed request of a core, kept at the home (R372). -/
structure ReqRecord where
  home : Nat
  core : Nat
  id : BitVec 10
  result : Word
  deriving DecidableEq, Repr

/-- What a context image holds (R380, R381), under the number of its save: the header, then groups and blocks by the keys
they had, the matrix path of each holder by its group's key, the programs, and the clocks. Of the fault queues it holds the
parked faults, of the pins those of threads and programs and EDQ's. `erased` once its context has been destroyed, and with it the key (R383,
R426). -/
structure Image where
  ctx : Nat
  save : Nat
  erased : Bool
  header : List Byte
  groups : Table Group
  blocks : Table Block
  barriers : List Barrier
  matrices : Table Matrix
  seqs : List (Nat × Eng × Seq)
  clocks : List (BitVec 16)
  faults : Table FaultQueue
  pins : List Pin
  deriving DecidableEq, Repr

/-- A decoded address of the current issue cycle (R339): the group, the program counter, the lanes at it, the word
that the fetch returned for them (0 until it has been fetched), and whether it is the convergent issue after a CONV (R215). -/
structure Issue where
  core : Nat
  slot : Nat
  pc : Word
  lanes : List Nat
  word : Word
  conv : Bool
  deriving DecidableEq, Repr

/-- What a capture unit times and has begun (R400): a packet that became visible in a queue, its grid up to the first issue, a publication,
and a fault entry on a die. -/
inductive Timed where
  | packet (ctx queue seq : Nat)
  | launch (tag ctx : Nat)
  | pub (ctx buf : Nat)
  | entry (ctx die seq : Nat)
  deriving DecidableEq, Repr

def Timed.ctx : Timed → Nat
  | .packet ctx _ _ => ctx
  | .launch _ ctx => ctx
  | .pub ctx _ => ctx
  | .entry ctx _ _ => ctx

/-- The whole package. `aside` and `mediaAside` hold the engine commands of contexts that are off the cores, which stopped on a fault or wait for
others, with those behind them (R99, R102, R378; log entry 38). `commits` holds the timestamp of the last commit of each edition buffer, by context and buffer (R313); `timed` holds when what a capture unit times began, in arithmetic cycles (R12, R400). `reports` lists the uncorrectable errors that the firmware has reported: where they were met (0 memory, 1
a completion write, 2 an image write), and the address or the context. -/
structure State where
  mem : Memory
  poison : List Nat
  cores : Table Core
  dies : Table Die
  groups : Table Group
  blocks : Table Block
  barriers : List Barrier
  contexts : Table Context
  grids : Table Grid
  nextTag : Nat
  sidings : Table (List Rec)
  deferred : List Deferred
  pins : List Pin
  publications : List Publication
  commits : List (Nat × Nat × BitVec 16)
  semWaits : List SemWait
  acks : List AckWait
  seqWaits : List (Nat × Eng × Seq)
  aside : List (Nat × Eng × Cmd)
  mediaAside : List (Nat × MediaCmd)
  colls : List CollEntry
  collCounts : List CollCount
  mailboxes : Table Mailbox
  doorbells : List Nat
  overruns : List Nat
  media : Table Media
  hostSectors : Table HostSector
  hostHeld : List Nat
  hostRequests : List HostRequest
  hostReads : List (Nat × Nat)
  interrupts : List Interrupt
  reqRecords : List ReqRecord
  sboxSeq : Table Nat
  replicated : List ReplUpdate
  peerBases : Table Nat
  peersLost : List Nat
  peerSent : List PeerMsg
  images : List Image
  errorTimes : List (Nat × Nat × Nat × Nat)
  errorWindow : Nat
  thresholds : Table Nat
  failing : List (Nat × Nat × Nat)
  reports : List (Nat × Nat)
  timed : List (Timed × Nat)
  linkLanesOff : List (Nat × Nat)
  armMHz : Nat
  cycle : Nat
  free : Nat
  eventRun : Nat
  issueRun : Nat
  issueAt : Nat
  issue : List Issue
  agenda : List Instr
  deriving DecidableEq, Repr

/-- Why the machine stops. Only a state that no step makes stops: safe. -/
inductive Fault where
  /-- An instruction word's meaning was asked for with no group issuing it. Raised by every instruction's meaning, never
  by a step; safe. -/
  | noIssue
  deriving DecidableEq, Repr

/-- Why the model stops at an instruction. -/
inductive Refusal where
  /-- The instruction has no meaning in this model. Raised by its arm of the dispatch alone; safe. -/
  | notModelled (mnemonic : String)
  deriving DecidableEq, Repr

/-- The machine right after reset: no context, no grid, every core in service with its clock at 0 (R80), 24 GB and 24
live channels on each die (R17, R20), the arithmetic clock at 3.3 GHz (R12), and the firmware's bring-up (R412)
pending. -/
def State.reset : State :=
  { mem := [], poison := [], cores := [], dies := [], groups := [], blocks := [], barriers := [], contexts := [], grids := [],
    nextTag := 1, sidings := [], deferred := [], pins := [], publications := [], commits := [], semWaits := [], acks := [], seqWaits := [], aside := [], mediaAside := [], colls := [], collCounts := [],
    mailboxes := [], doorbells := [], overruns := [],
    media := [], hostSectors := [], hostHeld := [], hostRequests := [], hostReads := [], interrupts := [], reqRecords := [], sboxSeq := [],
    replicated := [], peerBases := [], peersLost := [], peerSent := [], images := [], errorTimes := [], errorWindow := 32, thresholds := [],
    failing := [], reports := [], timed := [], linkLanesOff := [], armMHz := 3300, cycle := 0, free := 0, eventRun := 0, issueRun := 0, issueAt := 0, issue := [],
    agenda := [Instr.deviceReset] }

end Sys2Proof.Machine
end

