-- ==== Sys2Proof/Machine/Ops.lean ====
section
/-!
DEFINITION. The named operations over memory, registers, translation, traps and faults that the meanings share.
-/
namespace Sys2Proof.Machine

/-! ## Words -/

/-- Bits hi:lo of a word as a number (R3). -/
def bits (w : Word) (hi lo : Nat) : Nat := (w.toNat >>> lo) % 2 ^ (hi + 1 - lo)

/-- Bit n of a word. -/
def bit (w : Word) (n : Nat) : Bool := w.getLsbD n

/-- A number as a word, modulo 2^64. -/
def word (n : Nat) : Word := BitVec.ofNat 64 n

/-- An integer as a word, two's complement modulo 2^64. -/
def wordI (n : Int) : Word := BitVec.ofInt 64 n

/-- The region tag of a pointer (R62). -/
def tagOf (p : Word) : Nat := p.toNat >>> 54

/-- The virtual address of a pointer (R62). -/
def vaOf (p : Word) : Nat := p.toNat % 2 ^ 54

/-- A pointer from a tag and a virtual address (R62). -/
def ptr (tag va : Nat) : Word := word ((tag % 1024) * 2 ^ 54 + va % 2 ^ 54)

/-- Address arithmetic within bits 53:0, keeping the tag (R62, R63). -/
def ptrAdd (p : Word) (d : Int) : Word := ptr (tagOf p) (((vaOf p : Int) + d) % 2 ^ 54).toNat

/-- The program counter of the next word (R63). -/
def nextPc (pc : Word) : Word := ptrAdd pc 8

/-- Serial order of 16-bit timestamps (R81): a is later than b. -/
def later (a b : BitVec 16) : Bool := decide (0 < (a - b).toNat) && decide ((a - b).toNat < 2 ^ 15)

/-- The later of two timestamps (R81). -/
def maxT (a b : BitVec 16) : BitVec 16 := if later b a then b else a

/-- a ≤ b in serial order (R81). -/
def leT (a b : BitVec 16) : Bool := decide (a = b) || later b a

/-! ## Memory -/

/-- One byte of memory; an unlisted byte reads as zero (log entry 1). -/
def Memory.byte (m : Memory) (a : Nat) : Byte := Table.getD m a 0

/-- Write one byte, keeping the canonical form. -/
def Memory.putByte (m : Memory) (a : Nat) (b : Byte) : Memory := Table.put m a b 0

/-- n bytes from an address upwards, little-endian (R3). -/
def Memory.read (m : Memory) (a : Nat) : Nat → Nat
  | 0 => 0
  | n + 1 => (Memory.byte m a).toNat + 256 * Memory.read m (a + 1) n

/-- Write n bytes from an address upwards, little-endian (R3). -/
def Memory.write (m : Memory) (a : Nat) : Nat → Nat → Memory
  | 0, _ => m
  | n + 1, v => Memory.write (Memory.putByte m a (BitVec.ofNat 8 v)) (a + 1) n (v / 256)

/-- The canonical form: addresses strictly rising, no byte listed that equals what an unlisted one reads as. -/
def Memory.wf (m : Memory) : Bool := Table.sorted m && m.all (fun c => c.2 != 0)

/-- Replace n bytes at an offset of a little-endian number. -/
def spliceBytes (old off n v : Nat) : Nat :=
  old % 2 ^ (8 * off) + (v % 2 ^ (8 * n)) * 2 ^ (8 * off) + (old / 2 ^ (8 * (off + n))) * 2 ^ (8 * (off + n))

/-- Insert into a rising list without repeats. -/
def insertNat (n : Nat) : List Nat → List Nat
  | [] => [n]
  | m :: l => if n < m then n :: m :: l else if n = m then m :: l else m :: insertNat n l

/-- The 128-byte line number of a physical address (R20). -/
def lineOf (pa : Nat) : Nat := pa / 128

/-! ## Where a line lies in a die's memory (R20, R21) -/

/-- The channel that stores a line of a die, and the line's position within that channel: line index L of the die offset lies in channel
live[L mod n], at position L div n (R20). -/
def placeLine (live : List Nat) (off : Nat) : Option (Nat × Nat) :=
  (live[off / 128 % live.length]?).map (fun c => (c, off / 128 / live.length))

/-- The slice of the home die's Stacks that keeps the line of a physical address (R21): bits 11:7 XOR bits 16:12. -/
def stacksSlice (pa : Nat) : Nat := (pa / 2 ^ 7 % 32) ^^^ (pa / 2 ^ 12 % 32)

/-- A die's Stacks: 32 slices, each of 8,192 sets of 16 ways, hold 512 MiB of lines (R21). -/
def stacksSlices : Nat := 32
def stacksSets : Nat := 8192
def stacksWays : Nat := 16

/-- Bytes of a line. -/
def LineData.read (d : LineData) (off n : Nat) : Nat := (d.toNat >>> (8 * off)) % 2 ^ (8 * n)

/-- A line with bytes replaced. -/
def LineData.write (d : LineData) (off n v : Nat) : LineData := BitVec.ofNat 1024 (spliceBytes d.toNat off n v)

/-- The whole of a line in memory. -/
def Memory.line (m : Memory) (line : Nat) : LineData := BitVec.ofNat 1024 (Memory.read m (128 * line) 128)

/-- Write a whole line. -/
def Memory.putLine (m : Memory) (line : Nat) (d : LineData) : Memory := Memory.write m (128 * line) 128 d.toNat

/-! ## State access -/

def State.coreOf (s : State) (c : Nat) : Core := Table.getD s.cores c Core.init
def State.setCore (s : State) (c : Nat) (v : Core) : State := { s with cores := Table.set s.cores c v }
def State.dieOf (s : State) (d : Nat) : Die := Table.getD s.dies d Die.init
def State.setDie (s : State) (d : Nat) (v : Die) : State := { s with dies := Table.set s.dies d v }
def State.group? (s : State) (g : Nat) : Option Group := Table.find s.groups g
def State.setGroup (s : State) (g : Nat) (v : Group) : State := { s with groups := Table.set s.groups g v }
def State.thread? (s : State) (t : Nat) : Option Thread :=
  match Table.find s.groups (t / 32) with
  | some g => Table.find g.threads (t % 32)
  | none => none
/-- Replace a thread that exists. -/
def State.setThread (s : State) (t : Nat) (v : Thread) : State :=
  match Table.find s.groups (t / 32) with
  | some g => s.setGroup (t / 32) { g with threads := Table.set g.threads (t % 32) v }
  | none => s
def State.context? (s : State) (c : Nat) : Option Context := Table.find s.contexts c
def State.setContext (s : State) (c : Nat) (v : Context) : State := { s with contexts := Table.set s.contexts c v }
def State.grid? (s : State) (g : Nat) : Option Grid := Table.find s.grids g
def State.setGrid (s : State) (g : Nat) (v : Grid) : State := { s with grids := Table.set s.grids g v }
/-- A block's key: grid tag and block index. -/
def blockKey (grid index : Nat) : Nat := grid * 2 ^ 24 + index
def State.block? (s : State) (k : Nat) : Option Block := Table.find s.blocks k
def State.setBlock (s : State) (k : Nat) (v : Block) : State := { s with blocks := Table.set s.blocks k v }
def State.mailboxOf (s : State) (m : Nat) : Mailbox := Table.getD s.mailboxes m Mailbox.init
def State.setMailbox (s : State) (m : Nat) (v : Mailbox) : State := { s with mailboxes := Table.set s.mailboxes m v }
def State.mediaOf (s : State) (e : Nat) : Media := Table.getD s.media e Media.init
def State.setMedia (s : State) (e : Nat) (v : Media) : State := { s with media := Table.set s.media e v }

/-- Put an event at the end of the agenda. -/
def State.push (s : State) (i : Instr) : State := { s with agenda := s.agenda ++ [i] }
/-- Put events at the end of the agenda. -/
def State.pushAll (s : State) (l : List Instr) : State := { s with agenda := s.agenda ++ l }
/-- Put an event at the end of the agenda unless it is already pending. -/
def State.pushOnce (s : State) (i : Instr) : State := if s.agenda.contains i then s else s.push i

/-- Something that a capture unit times begins now (R400). -/
def State.startTime (s : State) (k : Timed) : State := { s with timed := s.timed.filter (fun p => p.1 ≠ k) ++ [(k, s.cycle)] }
/-- When something timed began, and that it is over. -/
def State.begun (s : State) (k : Timed) : Option Nat := (s.timed.find? (fun p => decide (p.1 = k))).map (fun p => p.2)
def State.endTime (s : State) (k : Timed) : State := { s with timed := s.timed.filter (fun p => p.1 ≠ k) }

/-- The die of a core. -/
def dieOfCore (c : Nat) : Nat := c / 40
/-- The number of a group in a drain tracker entry of a core (R217). -/
def trackKey (core n : Nat) : Nat := 16384 + 16 * core + n
/-- The core of a group, in a slot or in a drain tracker entry. -/
def coreOfGroup (g : Nat) : Nat := if g < 16384 then g / 32 else (g - 16384) / 16
/-- The core of a thread. -/
def coreOfThread (t : Nat) : Nat := t / 1024

def Core.engine (c : Core) : Eng → Engine
  | .bulk => c.bulk
  | .gather => c.gather
  | .coll => c.coll
def Core.setEngine (c : Core) (e : Eng) (v : Engine) : Core :=
  match e with
  | .bulk => { c with bulk := v }
  | .gather => { c with gather := v }
  | .coll => { c with coll := v }
def State.engineOf (s : State) (c : Nat) (e : Eng) : Engine := (s.coreOf c).engine e
def State.setEngine (s : State) (c : Nat) (e : Eng) (v : Engine) : State := s.setCore c ((s.coreOf c).setEngine e v)

/-- Raise an interrupt to the host (R401). -/
def State.interrupt (s : State) (v die ctx : Nat) : State :=
  { s with interrupts := s.interrupts ++ [⟨v, die, ctx⟩] }

/-- Take the next free choice number (log entry 3). -/
def State.tick (s : State) : State := { s with free := s.free + 1 }

/-- Raise a core's clock (R80): it never moves backwards. -/
def State.raiseClock (s : State) (c : Nat) (t : BitVec 16) : State :=
  let k := s.coreOf c
  s.setCore c { k with clock := maxT k.clock t }

/-! ## The physical address map (R15 to R18) -/

def isDevice (pa : Nat) : Bool := decide (pa < 2 ^ 38)
def isControl (pa : Nat) : Bool := decide (0x4000000000 ≤ pa) && decide (pa < 0x4100000000)
def isAperture (pa : Nat) : Bool := decide (0x4080000000 ≤ pa) && decide (pa < 0x4100000000)
def isHost (pa : Nat) : Bool := decide (0x8000000000000 ≤ pa) && decide (pa < 0x10000000000000)
/-- The home die of a device address (R15). -/
def homeDie (pa : Nat) : Nat := (pa / 2 ^ 35) % 8
def State.populated (s : State) (pa : Nat) : Bool :=
  isDevice pa && decide (pa % 2 ^ 35 < (s.dieOf (homeDie pa)).capacity * 2 ^ 30)
/-- An address at which some unit answers. -/
def State.answers (s : State) (pa : Nat) : Bool := s.populated pa || isControl pa || isHost pa
/-- A device range, all of it populated. -/
def State.populatedRange (s : State) (pa n : Nat) : Bool :=
  s.populated pa && s.populated (pa + n - 1) && decide (homeDie pa = homeDie (pa + n - 1))

/-- Whether an access of n bytes would consume poisoned data (R389): the lowest poisoned 8-byte word of the range. -/
def State.poisonIn (s : State) (pa n : Nat) : Option Nat :=
  (s.poison.filter (fun w => decide (8 * w < pa + n) && decide (pa < 8 * w + 8))).min?

/-- A store clears the poison of each 8-byte word that it writes whole (R389). -/
def clearPoison (l : List Nat) (pa n : Nat) : List Nat :=
  l.filter (fun w => !(decide (pa ≤ 8 * w) && decide (8 * w + 8 ≤ pa + n)))

/-! ## The context-memory area (R404), bounds entries (R64) and edition descriptors (R107) -/

def descAt (area buf : Nat) : Nat := area + 0x10000 + 64 * buf
def boundsAt (area tag : Nat) : Nat := area + 32 * tag
def rootAt (area : Nat) : Nat := area + 0x3A50000

/-- An edition descriptor (R107). -/
structure Desc where
  back0 : Nat
  back1 : Nat
  pages : Nat
  num : Nat
  pins0 : Nat
  pins1 : Nat
  cur : Nat
  retracted : Bool
  code : Bool
  withdrawn : Nat
  deriving DecidableEq, Repr

def Desc.backing (d : Desc) (b : Nat) : Nat := if b = 0 then d.back0 else d.back1
def Desc.pinsOn (d : Desc) (b : Nat) : Nat := if b = 0 then d.pins0 else d.pins1
def Desc.draft (d : Desc) : Nat := 1 - d.cur

def readDesc (m : Memory) (at_ : Nat) : Desc :=
  { back0 := Memory.read m at_ 8, back1 := Memory.read m (at_ + 8) 8, pages := Memory.read m (at_ + 16) 4,
    num := Memory.read m (at_ + 20) 4, pins0 := Memory.read m (at_ + 24) 4, pins1 := Memory.read m (at_ + 28) 4,
    cur := Memory.read m (at_ + 32) 1 % 2, retracted := decide (Memory.read m (at_ + 33) 1 = 1),
    code := decide (Memory.read m (at_ + 34) 1 % 2 = 1), withdrawn := Memory.read m (at_ + 36) 4 }

def writeDesc (m : Memory) (at_ : Nat) (d : Desc) : Memory :=
  let m := Memory.write m at_ 8 d.back0
  let m := Memory.write m (at_ + 8) 8 d.back1
  let m := Memory.write m (at_ + 16) 4 d.pages
  let m := Memory.write m (at_ + 20) 4 d.num
  let m := Memory.write m (at_ + 24) 4 d.pins0
  let m := Memory.write m (at_ + 28) 4 d.pins1
  let m := Memory.write m (at_ + 32) 1 d.cur
  let m := Memory.write m (at_ + 33) 1 (if d.retracted then 1 else 0)
  let m := Memory.write m (at_ + 34) 1 (if d.code then 1 else 0)
  Memory.write m (at_ + 36) 4 d.withdrawn

/-- The descriptor of a buffer the context has created: one with at least one page (R107). -/
def State.desc? (s : State) (ctx buf : Nat) : Option Desc :=
  match s.context? ctx with
  | none => none
  | some c =>
    let d := readDesc s.mem (descAt c.area buf)
    if d.pages = 0 then none else some d

def State.setDesc (s : State) (ctx buf : Nat) (d : Desc) : State :=
  match s.context? ctx with
  | none => s
  | some c => { s with mem := writeDesc s.mem (descAt c.area buf) d }

/-- Whether an owner already holds a pin on a backing: it holds one at most (R108). -/
def State.holdsPin (s : State) (ctx buf back : Nat) (owner : PinOwner) : Bool :=
  s.pins.any (fun p => decide (p.ctx = ctx) && decide (p.buf = buf) && decide (p.backing = back) && decide (p.owner = owner))

/-- Take a pin on a backing (R108). -/
def State.pin (s : State) (ctx buf back : Nat) (owner : PinOwner) : State :=
  match s.desc? ctx buf with
  | none => s
  | some d =>
    let d' := if back = 0 then { d with pins0 := d.pins0 + 1 } else { d with pins1 := d.pins1 + 1 }
    let s := s.setDesc ctx buf d'
    { s with pins := s.pins ++ [⟨ctx, buf, back, d.num, owner⟩] }

/-- Remove the first element that satisfies a test. -/
def removeFirst {α : Type} (p : α → Bool) : List α → List α
  | [] => []
  | a :: l => if p a then l else a :: removeFirst p l

/-- Lower a backing's pin count (R108). -/
def State.unpinCount (s : State) (ctx buf back : Nat) : State :=
  match s.desc? ctx buf with
  | none => s
  | some d =>
    s.setDesc ctx buf (if back = 0 then { d with pins0 := d.pins0 - 1 } else { d with pins1 := d.pins1 - 1 })

/-- Release the pin that an owner holds with its current region (R344, R345, R347): on that backing, of that edition. -/
def State.unpin (s : State) (ctx : Nat) (r : RegionPin) (owner : PinOwner) : State :=
  let here := fun (p : Pin) => decide (p.ctx = ctx) && decide (p.buf = r.buf) && decide (p.backing = r.backing) &&
    decide (p.edition = r.edition) && decide (p.owner = owner)
  if s.pins.any here then
    let s := s.unpinCount ctx r.buf r.backing
    { s with pins := removeFirst here s.pins }
  else s

/-- Release every pin of an owner of a context: the pins of a saved context keep their owners' names, which others may have by now (R345,
R385). -/
def State.unpinAll (s : State) (ctx : Nat) (owner : PinOwner) : State :=
  let mine := fun (p : Pin) => decide (p.ctx = ctx) && decide (p.owner = owner)
  let s := (s.pins.filter mine).foldl (fun s p => s.unpinCount p.ctx p.buf p.backing) s
  { s with pins := s.pins.filter (fun p => !(mine p)) }

/-! ## Traps (R222, R364, R366) -/

/-- A synchronous trap: its cause code and tval (R364). -/
structure Trap where
  cause : Nat
  val : Word
  deriving DecidableEq, Repr

/-- Handler entry (R222): the ONE operation by which a thread enters a handler. Nothing else of the thread changes. DESIGN
CHOICE (log entry 64): a vector whose bits 2:0 are not zero is neither refused by SET_POLICY nor masked here; the fetch at it then raises 0x0E. -/
def Thread.enter (t : Thread) (cause : Nat) (value resume vector : Word) : Thread :=
  { t with tepc := resume, tcause := word cause, tval := value, tmode := 1, pc := vector, status := .run }

/-- Whether a thread runs a handler: bit 0 of tmode (R220). -/
def Thread.inHandler (t : Thread) : Bool := bit t.tmode 0

/-- What a lane's word does beside its thread: a trap taken in handler mode, with what tepc would have held, contains the block (R366); a
no-operation of probe mode sets PRB (R193). -/
inductive Aside where
  | contain (tr : Trap) (resume : Word)
  | probe
  deriving DecidableEq, Repr

/-- What a lane comes to: its thread, and what the word does beside it. -/
structure LaneOut where
  t : Thread
  aside : Option Aside
  deriving DecidableEq, Repr

/-- The causes that a thread in probe mode does not take: 0x01 to 0x05, at decode or on a register value at issue (R193, R364). -/
def Trap.isDecode (tr : Trap) : Bool := decide (1 ≤ tr.cause) && decide (tr.cause ≤ 5)

/-- Whether a thread is in probe mode: bit 0 of tctl (R193). -/
def Thread.probing (t : Thread) : Bool := bit t.tctl 0

/-- A lane that goes on with its next word. -/
def Thread.advance (t : Thread) : Thread := { t with pc := nextPc t.pc }

/-- Take a synchronous trap (R222, R364, R366). In probe mode a word that would raise 0x01 to 0x05 is a no-operation instead (R193); in
handler mode the block is to be contained and the handler is not entered. -/
def Thread.takeTrap (t : Thread) (vec resume : Word) (tr : Trap) : LaneOut :=
  if t.probing && tr.isDecode then ⟨t.advance, some .probe⟩
  else if t.inHandler then ⟨t, some (.contain tr resume)⟩ else ⟨t.enter tr.cause tr.val resume vec, none⟩

/-- The return from a handler (R223): tmode := 0 and pc := tepc. -/
def Thread.leave (t : Thread) : Thread := { t with tmode := 0, pc := t.tepc }

/-- A restartable block whose last group has gone is committing, and can no longer be contained (R393). -/
def State.committing (s : State) (k : Nat) (b : Block) : Bool :=
  b.restartable && !(s.groups.any (fun p => decide (blockKey p.2.grid p.2.block = k)))

/-- Request the containment of a block (R366, R390): no thread of it issues again (R391 step 1), and the event
BLOCK_CONTAINMENT does the rest. The first request stands, and a block that is committing goes on (R393). -/
def State.stopBlock (s : State) (k : Nat) (cause : Nat) (tval tepc : Word) : State :=
  match s.block? k with
  | none => s
  | some b =>
    match b.stopped with
    | some _ => s
    | none =>
      if s.committing k b then s
      else
        let f : Failure :=
          { cause := cause, tval := tval, tepc := tepc, grid := b.grid, block := b.index, die := dieOfCore b.core,
            core := b.core % 40 }
        (s.setBlock k { b with stopped := some f }).push (.blockContainment b.grid b.index)

def Group.blockKey (g : Group) : Nat := Machine.blockKey g.grid g.block

/-- The flags of gstat that are kept: PRB and MSAT (R194). -/
def gstatMask : Word := 3

/-- Update gstat: within one issue cycle the clears take effect before the sets (R195). -/
def Group.updateGstat (g : Group) (clears sets : Word) : Group :=
  { g with gstat := ((g.gstat &&& ~~~clears) ||| sets ||| g.gsets) &&& gstatMask, gsets := (g.gsets ||| sets) &&& gstatMask }

/-- PRB is set in a group (R194). -/
def State.setPrb (s : State) (g : Nat) : State :=
  match s.group? g with
  | some gr => s.setGroup g (gr.updateGstat 0 1)
  | none => s

/-- Record what a lane came to: its thread, and PRB or a containment (R193, R366). -/
def State.putLane (s : State) (t : Nat) (o : LaneOut) : State :=
  let s1 := s.setThread t o.t
  match o.aside with
  | none => s1
  | some .probe => s1.setPrb (t / 32)
  | some (.contain tr resume) =>
    match s.group? (t / 32) with
    | none => s1
    | some g => s1.stopBlock g.blockKey tr.cause tr.val resume

/-- The trap vector of a context (R220). -/
def State.tvecOf (s : State) (ctx : Nat) : Word :=
  match s.context? ctx with
  | some c => c.tvec
  | none => 0
def State.svecOf (s : State) (ctx : Nat) : Word :=
  match s.context? ctx with
  | some c => c.svec
  | none => 0

/-- Thread t takes a trap at the word it stands at. -/
def State.trap (s : State) (t : Nat) (tr : Trap) : State :=
  match s.group? (t / 32), s.thread? t with
  | some g, some th => s.putLane t (th.takeTrap (s.tvecOf g.ctx) th.pc tr)
  | _, _ => s

/-! ## The fault queues (R368) -/

/-- The ring is full for the next number: the slot's older entry has been neither answered nor withdrawn (R368). -/
def FaultQueue.full (q : FaultQueue) : Bool :=
  q.entries.any (fun e => decide ((e.seq + 4096) % 2 ^ 32 = q.next) && decide (e.state = .unanswered))

/-- Every entry written has been answered or withdrawn (R368). -/
def FaultQueue.empty (q : FaultQueue) : Bool := q.entries.all (fun e => decide (e.state ≠ .unanswered))

/-- Write one entry; `none` when the queue is full. -/
def FaultQueue.write (q : FaultQueue) (e : FaultEntry) : Option FaultQueue :=
  if q.full then none
  else some { q with next := (q.next + 1) % 2 ^ 32, entries := q.entries ++ [{ e with seq := q.next }] }

def Context.faultQueue (c : Context) (die : Nat) : FaultQueue := Table.getD c.faults die FaultQueue.init

/-- The 32-bit thread field as the ring stores it (R368). -/
def threadField (t : Nat) : Nat :=
  let lane := t % 32
  let slot := (t / 32) % 8
  let laneSet := (t / 256) % 4
  let core := t / 1024
  lane + laneSet * 32 + slot * 128 + (core % 40) * 1024 + (core / 40) * 65536

/-- The 32 bytes of an entry in the ring (R368). -/
def FaultEntry.bytes (e : FaultEntry) (ctx : Nat) : Nat :=
  e.addr.toNat + 2 ^ 64 * (e.seq % 2 ^ 32) + 2 ^ 96 * (ctx % 2 ^ 16) + 2 ^ 112 * (e.kind % 256) + 2 ^ 120 * (e.flags % 256) +
    2 ^ 128 * threadField e.thread + 2 ^ 160 * (e.grid % 2 ^ 32) + 2 ^ 192 * (e.block % 2 ^ 24) + 2 ^ 216 * (e.lidx1 % 32) +
    2 ^ 224 * (e.cmd % 2 ^ 32)

/-- The thread that an entry names: one of a group in a drain tracker entry has the slot that the group left (R217, R368; log entry 75). -/
def State.shownThread (s : State) (t : Nat) : Nat :=
  match s.group? (t / 32) with
  | some g => (match g.left with
    | some k => k * 32 + t % 32
    | none => t)
  | none => t

/-- Write an entry to its slot of the ring of a die, in the context-memory area (R368, R404). -/
def State.writeFault (s : State) (ctx die area : Nat) (e : FaultEntry) : State :=
  let bytes := ({ e with thread := s.shownThread e.thread } : FaultEntry).bytes ctx
  { s with mem := Memory.write s.mem (area + 0x50000 + die * 0x20000 + 32 * (e.seq % 4096)) 32 bytes }

/-- A fault reaches the queue of a die: it is written, with the fault interrupt when the queue goes from empty to
non-empty, or it waits because the queue is full (R368). The answer is the entry's number, if it was written. -/
def State.fault (s : State) (ctx die : Nat) (e : FaultEntry) : State × Option Nat :=
  match s.context? ctx with
  | none => (s, none)
  | some c =>
    let q := c.faultQueue die
    match (if q.waiting.isEmpty then q.write e else none) with
    | some q' =>
      let s := ((s.setContext ctx { c with faults := Table.set c.faults die q' }).writeFault ctx die c.area { e with seq := q.next }).startTime
        (.entry ctx die q.next)
      (if q.empty then s.interrupt 16 die ctx else s, some q.next)
    | none =>
      (s.setContext ctx { c with faults := Table.set c.faults die { q with waiting := q.waiting ++ [e] } }, none)

/-- The thread field of a fault entry (R368): the thread's key carries lane, slot, lane-set, core and die. -/
def faultEntry (g : Group) (t : Nat) (kind : Nat) (addr : Word) (flags cmd : Nat) (engine : Option Eng) : FaultEntry :=
  { seq := 0, addr := addr, kind := kind, flags := flags, thread := t, grid := g.grid, block := g.block, lidx1 := g.lidx1,
    cmd := cmd, engine := engine, state := .unanswered }

/-- Set a thread parked on the entry it wrote, or parked with its fault waiting (R367, R368). -/
def Thread.parked (t : Thread) (die : Nat) : Option Nat → Thread
  | some n => { t with status := .park die n }
  | none => { t with status := .parkFull }

/-- One thread parks on a recoverable translation fault (R367). Its other state stays as it was. -/
def State.park (s : State) (t : Nat) (kind : Nat) (addr : Word) (leaf : Bool) : State :=
  match s.group? (t / 32), s.thread? t with
  | some g, some th =>
    let die := dieOfCore (coreOfThread t)
    let (s, n) := s.fault g.ctx die (faultEntry g t kind addr (if leaf then 4 else 0) 0 none)
    s.setThread t (th.parked die n)
  | _, _ => s

/-- All threads of a group park as one on an entry for lane 0 (R225, R284, R367). -/
def State.parkGroup (s : State) (g : Nat) (kind : Nat) (addr : Word) (leaf : Bool) : State :=
  match s.group? g with
  | some gr =>
    let die := dieOfCore (coreOfGroup g)
    let (s, n) := s.fault gr.ctx die (faultEntry gr (g * 32) kind addr (if leaf then 5 else 1) 0 none)
    match s.group? g with
    | some gr => s.setGroup g { gr with threads := gr.threads.map (fun p => (p.1, p.2.parked die n)) }
    | none => s
  | none => s

/-! ## Bounds and translation (R64 to R76) -/

/-- Why an access does not go on: a trap, or a recoverable translation fault. -/
inductive Stop where
  | trap (cause : Nat)
  | park (addr : Word) (leaf : Bool)
  deriving DecidableEq, Repr

/-- What an access needs (R67, R75): the rights in the bounds entry, the R, W, X bits of the leaf, whether an edition
leaf resolves to the draft (R73), and the kind that a fault entry records (R368). -/
structure Need where
  rights : Nat
  r : Bool
  w : Bool
  x : Bool
  draft : Bool
  kind : Nat
  deriving DecidableEq, Repr

def Need.load : Need := ⟨1, true, false, false, false, 0⟩
def Need.store : Need := ⟨2, false, true, false, true, 1⟩
def Need.atomic : Need := ⟨19, true, true, false, true, 2⟩
def Need.fetch : Need := ⟨4, false, false, true, false, 3⟩
def Need.engRead : Need := ⟨9, true, false, false, false, 4⟩
def Need.engWrite : Need := ⟨10, false, true, false, true, 5⟩
def Need.engAdd : Need := ⟨27, true, true, false, true, 6⟩
def Need.matrix : Need := ⟨1, true, false, false, false, 7⟩
def Need.tdef : Need := ⟨1, true, false, false, true, 8⟩
/-- R67 asks publish rights of PUB, RETRACT and EDCOPY; R75 names no leaf bit for them, and R368 no access kind: none is needed, and a
fault entry records a load (log entry 64). -/
def Need.publish : Need := ⟨32, false, false, false, false, 0⟩
def Need.tenure : Need := ⟨3, true, true, false, true, 1⟩

def readBounds (m : Memory) (at_ : Nat) : BoundsEntry :=
  { base := Memory.read m at_ 8, limit := Memory.read m (at_ + 8) 8, rights := BitVec.ofNat 16 (Memory.read m (at_ + 16) 2) }

def BoundsEntry.isEmpty (e : BoundsEntry) : Bool := decide (e.limit ≤ e.base)

/-- The entry that a core's checks use: the one its bounds cache holds, else the one in the table (R68). -/
def State.boundsEntry (s : State) (core ctx tag : Nat) : BoundsEntry :=
  match (s.coreOf core).bounds.find? (fun b => decide (b.ctx = ctx) && decide (b.tag = tag)) with
  | some b => b.e
  | none =>
    match s.context? ctx with
    | none => ⟨0, 0, 0⟩
    | some c => readBounds s.mem (boundsAt c.area tag)

/-- Fields of a leaf (R72). -/
def leafOwner (l : Word) : Nat := bits l 63 54
def leafPolicy (l : Word) : Nat := bits l 6 5
def leafE (l : Word) : Bool := bit l 8
def leafD (l : Word) : Bool := bit l 9
def leafRepl (l : Word) : Bool := bit l 7
def leafBuf (l : Word) : Nat := bits l 27 16
def leafPage (l : Word) : Nat := bits l 51 28

/-- A leaf that breaks R74, but for what depends on the edition descriptor. -/
def leafBad (l : Word) (big : Bool) : Bool :=
  (bit l 3 && bit l 4) || decide (bits l 53 52 ≠ 0) || decide (bits l 15 10 ≠ 0) || !(bit l 1) || (leafD l && !(leafE l)) ||
    (big && (decide (bits l 27 16 ≠ 0) || leafE l))

/-- A table entry that breaks R71: bits other than V and the next table's address, or a misaligned address. -/
def tableBad (l : Word) (align : Nat) : Bool :=
  decide (bits l 63 52 ≠ 0) || decide (bits l 14 1 ≠ 0) || decide (((bits l 51 15) * 32768) % align ≠ 0)

inductive WalkStop where
  | bad | absent
  deriving DecidableEq, Repr

/-- The walk of R70 to R72, from the root of the context: the leaf, and whether it maps 256 MiB. `held` gives the entries that the
walker holds, by level and number (R76); every other entry is read from memory. -/
def walkWith (held : Nat → Nat → Option Word) (m : Memory) (root va : Nat) : Except WalkStop (Word × Bool) :=
  let e2 := (held 2 (va / 2 ^ 41)).getD (word (Memory.read m (root + 8 * (va / 2 ^ 41 % 8192)) 8))
  if !(bit e2 0) then .error .absent
  else if bit e2 1 || tableBad e2 65536 then .error .bad
  else
    let e1 := (held 1 (va / 2 ^ 28)).getD (word (Memory.read m (bits e2 51 15 * 32768 + 8 * (va / 2 ^ 28 % 8192)) 8))
    if !(bit e1 0) then .error .absent
    else if bit e1 1 then (if leafBad e1 true then .error .bad else .ok (e1, true))
    else if tableBad e1 32768 then .error .bad
    else
      let e0 := word (Memory.read m (bits e1 51 15 * 32768 + 8 * (va / 2 ^ 16 % 4096)) 8)
      if !(bit e0 0) then .error .absent
      else if leafBad e0 false then .error .bad
      else .ok (e0, false)

/-- The walk of a walker that holds nothing. -/
def walk (m : Memory) (root va : Nat) : Except WalkStop (Word × Bool) := walkWith (fun _ _ => none) m root va

/-- The entry of a context that a die's walker holds, by level and number (R76). -/
def Die.held (d : Die) (ctx level num : Nat) : Option Word :=
  (d.walker.find? (fun e => decide (e.ctx = ctx) && decide (e.level = level) && decide (e.num = num))).map (fun e => e.entry)

/-- The level-2 and level-1 entries that the walk of an address reads: valid ones, which the walker then holds (R76). -/
def State.walked (s : State) (die ctx va : Nat) : List WalkEntry :=
  match s.context? ctx with
  | none => []
  | some c =>
    let e2 := ((s.dieOf die).held ctx 2 (va / 2 ^ 41)).getD (word (Memory.read s.mem (rootAt c.area + 8 * (va / 2 ^ 41 % 8192)) 8))
    let e1 := ((s.dieOf die).held ctx 1 (va / 2 ^ 28)).getD
      (word (Memory.read s.mem (bits e2 51 15 * 32768 + 8 * (va / 2 ^ 28 % 8192)) 8))
    if !(bit e2 0) then []
    else ⟨ctx, 2, va / 2 ^ 41, e2⟩ :: (if bit e1 0 then [⟨ctx, 1, va / 2 ^ 28, e1⟩] else [])

/-- A walker takes the entries of a walk that it does not hold yet. -/
def Die.hold (d : Die) (l : List WalkEntry) : Die :=
  { d with walker := d.walker ++ l.filter (fun e => (d.held e.ctx e.level e.num).isNone) }

/-- Whether a held translation still hits (R76): an edition leaf misses once PUB has changed the number. -/
def State.tlbHit (s : State) (ctx va : Nat) (t : TlbEntry) : Bool :=
  decide (t.ctx = ctx) && decide (t.page = va / (if t.big then 2 ^ 28 else 2 ^ 16)) &&
    (!(leafE t.leaf) || (match s.desc? ctx (leafBuf t.leaf) with | some d => decide (d.num = t.edition) | none => false))

/-- The leaf of an address as a core sees it: from its translation cache, else by a walk (R76). -/
def State.leafFor (s : State) (core ctx va : Nat) : Except WalkStop (Word × Bool) :=
  match (s.coreOf core).tlb.find? (s.tlbHit ctx va) with
  | some t => .ok (t.leaf, t.big)
  | none =>
    match s.context? ctx with
    | none => .error .absent
    | some c => walkWith ((s.dieOf (dieOfCore core)).held ctx) s.mem (rootAt c.area) va

/-- The addresses that an access of a core through a frame reaches: of a replicated page, the copy of its own die, or every copy where
it writes (R29, R30, R31). -/
def reachedPas (repl : Bool) (core pa : Nat) (w : Bool) : List Nat :=
  if !repl then [pa]
  else if w then (List.range 8).map (fun d => pa % 2 ^ 35 + d * 2 ^ 35) else [pa % 2 ^ 35 + dieOfCore core * 2 ^ 35]

/-- Whether an edition leaf is malformed for its buffer (R74). -/
def editionBad (l : Word) (ed : Option Desc) : Bool :=
  leafE l && (match ed with
    | none => true
    | some d => decide (d.pages ≤ leafPage l) || (bit l 4 && !d.code))

/-- Translate one page of an access (R66, R72 to R75): n bytes from va, all in one leaf. A missing permission is met before a frame at
which nothing answers: R75 and R18 do not order the two on one leaf (log entry 64). -/
def State.xlat1 (s : State) (core ctx tag va n : Nat) (need : Need) : Except Stop Xlat :=
  match s.leafFor core ctx va with
  | .error .absent => .error (.park (ptr tag va) false)
  | .error .bad => .error (.trap 0x0D)
  | .ok (l, big) =>
    let ed := if leafE l then s.desc? ctx (leafBuf l) else none
    if editionBad l ed then .error (.trap 0x0D)
    else if (need.r && !(bit l 2)) || (need.w && !(bit l 3)) || (need.x && !(bit l 4)) then
      .error (.park (ptr tag va) true)
    else
      let (pa, e) := match ed with
        | some d =>
          let b := if leafD l || need.draft then d.draft else d.cur
          (d.backing b + leafPage l * 65536 + va % 65536, some (leafBuf l, b))
        | none => if big then (bits l 51 28 * 2 ^ 28 + va % 2 ^ 28, none) else (bits l 51 16 * 65536 + va % 65536, none)
      if (reachedPas (leafRepl l) core pa need.w).all (fun a => s.answers a && s.answers (a + n - 1)) then
        .ok { va := va, pa := pa, n := n, policy := leafPolicy l, repl := leafRepl l, owner := leafOwner l, ed := e,
              leaf := l, big := big }
      else .error (.trap 0x0D)

/-- Translate every 64 KiB page of a range in ascending order, stopping at the first failure. -/
def State.xlatPages (s : State) (core ctx tag : Nat) (need : Need) : Nat → Nat → Nat → Except Stop (List Xlat)
  | 0, _, _ => .ok []
  | fuel + 1, va, stop =>
    if stop ≤ va then .ok []
    else
      let n := min stop ((va / 65536 + 1) * 65536) - va
      match s.xlat1 core ctx tag va n need with
      | .error e => .error e
      | .ok x =>
        match s.xlatPages core ctx tag need fuel (va + n) stop with
        | .error e => .error e
        | .ok l => .ok (x :: l)

/-- The check of R66, in its order: alignment, bounds, rights, translation of every page, owner of every leaf. -/
def State.check (s : State) (core ctx : Nat) (p : Word) (size align : Nat) (need : Need) : Except Stop (List Xlat) :=
  let va := vaOf p
  let e := s.boundsEntry core ctx (tagOf p)
  if va % align ≠ 0 then .error (.trap 0x0E)
  else if e.isEmpty || decide (va < e.base) || decide (e.limit < va + size) then .error (.trap 0x0A)
  else if e.rights.toNat &&& need.rights ≠ need.rights then .error (.trap 0x0B)
  else
    match s.xlatPages core ctx (tagOf p) need (size / 65536 + 2) va (va + size) with
    | .error x => .error x
    | .ok l =>
      if l.any (fun x => decide (x.owner ≠ 0) && decide (x.owner ≠ tagOf p)) then .error (.trap 0x0C) else .ok l

/-- Whether the entries that translate an address are malformed (R74). -/
def State.malformed (s : State) (core ctx va : Nat) : Bool :=
  match s.leafFor core ctx va with
  | .error .bad => true
  | .error .absent => false
  | .ok (l, _) => editionBad l (if leafE l then s.desc? ctx (leafBuf l) else none)

/-- The first page of a range that does not translate. -/
def State.firstFailing (s : State) (core ctx tag : Nat) (need : Need) : Nat → Nat → Nat → Option Nat
  | 0, _, _ => none
  | fuel + 1, va, stop =>
    if stop ≤ va then none
    else
      let n := min stop ((va / 65536 + 1) * 65536) - va
      match s.xlat1 core ctx tag va n need with
      | .error _ => some va
      | .ok _ => s.firstFailing core ctx tag need fuel (va + n) stop

/-- An access whose check answered a cause has met a malformed entry where that cause is 0x0D and its first failing page says so: the
firmware reports it as an uncorrectable error (R74), by its virtual address. -/
def State.reportBad (s : State) (core ctx : Nat) (p : Word) (size : Nat) (need : Need) (cause : Nat) : State :=
  if cause ≠ 0x0D then s
  else match s.firstFailing core ctx (tagOf p) need (size / 65536 + 2) (vaOf p) (vaOf p + size) with
    | some va => if s.malformed core ctx va then { s with reports := s.reports ++ [(3, va)] } else s
    | none => s

/-- After an access passed its check, the core holds its bounds entry and its translations, and its die's walker the table entries read for
them (R68, R76). The core's caches hold 64 and 2,048 entries. -/
def State.fillCaches (s : State) (core ctx : Nat) (tag : Nat) (xs : List Xlat) : State :=
  let k := s.coreOf core
  let b := if k.bounds.any (fun b => decide (b.ctx = ctx) && decide (b.tag = tag)) then k.bounds
    else (⟨ctx, tag, s.boundsEntry core ctx tag⟩ :: k.bounds).take 64
  let one := fun (l : List TlbEntry) (x : Xlat) =>
    if l.any (s.tlbHit ctx x.va) then l
    else
      let page := x.va / (if x.big then 2 ^ 28 else 2 ^ 16)
      let ed := match x.ed with
        | some (buf, _) => (match s.desc? ctx buf with | some d => d.num | none => 0)
        | none => 0
      (⟨ctx, page, x.big, x.leaf, ed⟩ :: l.filter (fun t => !(decide (t.ctx = ctx) && decide (t.page = page) &&
        decide (t.big = x.big)))).take 2048
  let missed := xs.filter (fun x => !(k.tlb.any (s.tlbHit ctx x.va)))
  let d := s.dieOf (dieOfCore core)
  let s' := s.setCore core { k with bounds := b, tlb := xs.foldl one k.tlb }
  if missed.isEmpty then s'
  else s'.setDie (dieOfCore core) (missed.foldl (fun (d : Die) x => d.hold (s.walked (dieOfCore core) ctx x.va)) d)

/-- The physical address of the byte at va within the checked pages. -/
def paAt (xs : List Xlat) (va : Nat) : Nat :=
  match xs.find? (fun x => decide (x.va ≤ va) && decide (va < x.va + x.n)) with
  | some x => x.pa + (va - x.va)
  | none => 0

/-- The trap of R110: a write that resolves to a draft backing with a pin count above zero. -/
def State.draftPinned (s : State) (ctx : Nat) (xs : List Xlat) : Bool :=
  xs.any (fun x => match x.ed with
    | some (buf, b) => (match s.desc? ctx buf with | some d => decide (d.pinsOn b ≠ 0) | none => false)
    | none => false)

/-- The hub's host agent stands beside the dies 0 to 7 as number 8 (R24, R45). -/
def hub : Nat := 8

/-! ## Logical time (R80, R81, R88) -/

/-- The dies across a boundary (R10). -/
def neighbours (d : Nat) : List Nat :=
  (if d % 4 ≠ 3 then [d + 1] else []) ++ (if d % 4 ≠ 0 then [d - 1] else []) ++ [if d < 4 then d + 4 else d - 4]

def maxAll (t : BitVec 16) (l : List (BitVec 16)) : BitVec 16 := l.foldl maxT t

/-- Raise a die's reference (R88). -/
def Die.note (d : Die) (t : BitVec 16) : Die := { d with ref := maxT d.ref t }

/-- Raise a core's clock, and the reference of its die with it (R80, R88). -/
def State.jump (s : State) (core : Nat) (t : BitVec 16) : State :=
  let s := s.raiseClock core t
  let d := dieOfCore core
  s.setDie d ((s.dieOf d).note (s.coreOf core).clock)

/-- The lead limit (R88): a reference runs at most 2^10 ticks ahead of the latest one received from any neighbour. -/
def State.leads (s : State) (die : Nat) (t : BitVec 16) : Bool :=
  let d := s.dieOf die
  leT t d.ref || (neighbours die).all (fun n => leT t (Table.getD d.heard n 0 + 1024))

/-- The stamps of a line that its point of coherence has not stamped: as far back as the scrubber keeps any (R88). -/
def Die.floorStamp (d : Die) : Stamp := ⟨d.ref - 16384, d.ref - 16384, d.ref - 16384⟩

def Stamp.max (a b : Stamp) : Stamp := ⟨maxT a.wts b.wts, maxT a.rts b.rts, maxT a.origin b.origin⟩

/-- The stamps of a line that the L2 does not list: the floor, but no earlier than those of the lines that an invalidation took out of the
L2 (R34), which the exchanges keep comparable (R81). -/
def Die.unlisted (d : Die) : Stamp :=
  match d.lost with
  | none => d.floorStamp
  | some st => st.max d.floorStamp

/-- The earlier of two timestamps (R81). -/
def minT (a b : BitVec 16) : BitVec 16 := if later b a then a else b

/-- A time that every core's clock has reached, whichever its die (R88): no clock lies more than 2^13 ticks behind its die's reference. -/
def State.floor (s : State) : BitVec 16 := ((List.range 8).map (fun d => (s.dieOf d).ref)).foldl minT (s.dieOf 0).ref - 8192

/-- A time kept to raise clocks, which no clock needs any more once it lies behind t. -/
def keepAfter (t : BitVec 16) (k : Option (BitVec 16)) : Option (BitVec 16) := k.filter (fun x => later x t)

/-- The times that the machine keeps for a later comparison stay comparable (R81, R88): one that every clock has passed would raise none, so
it is forgotten or brought up to the floor, as the scrubbers do with a line's stamps. -/
def State.ageTimes (s : State) : State :=
  let f := s.floor
  { s with
    barriers := s.barriers.map (fun b => { b with clock := maxT b.clock f }),
    commits := s.commits.filter (fun c => later c.2.2 f),
    grids := s.grids.map (fun (p : Nat × Grid) => (p.1, { p.2 with clock := p.2.clock.map (fun t => maxT t f) })),
    sidings := s.sidings.map (fun (p : Nat × List Rec) => (p.1, p.2.map (fun (r : Rec) => { r with clock := maxT r.clock f }))),
    deferred := s.deferred.map (fun d => { d with r := { d.r with clock := maxT d.r.clock f } }),
    cores := s.cores.map (fun (p : Nat × Core) =>
      (p.1, { p.2 with replDie := keepAfter p.2.clock p.2.replDie, replPkg := keepAfter p.2.clock p.2.replPkg })),
    dies := s.dies.map (fun (p : Nat × Die) => (p.1, { p.2 with
      replT := maxT p.2.replT (p.2.ref - 16384), replTop := keepAfter f p.2.replTop, lost := p.2.lost.map (fun st => st.max p.2.floorStamp) })) }

/-- One exchange of references (R88): each die hears what its neighbours' references were, and raises its own to the
latest of them; a core more than 2^13 ticks behind is raised to reference - 2^13. R88 speaks of dies only: the hub's host agent, die 8, takes
the latest of theirs (log entry 64). -/
def State.exchange (s : State) : State :=
  let old := fun n => (s.dieOf n).ref
  let s1 := (List.range 8).foldl (fun t d =>
    let k := t.dieOf d
    t.setDie d { k with heard := (neighbours d).map (fun n => (n, old n)) |>.foldl (fun h p => Table.set h p.1 p.2) k.heard,
                        ref := maxAll k.ref ((neighbours d).map old) }) s
  let s2 := s1.setDie hub ((s1.dieOf hub).note (maxAll (s1.dieOf 0).ref ((List.range 8).map (fun d => (s1.dieOf d).ref))))
  (s2.cores.foldl (fun t p =>
    let floor := (t.dieOf (dieOfCore p.1)).ref - 8192
    if later floor p.2.clock then t.raiseClock p.1 floor else t) s2).ageTimes

/-- An access that the lead limit holds back waits for exchanges (R88); sixteen carry any reference across the package, and with it every
timestamp that the points of coherence have assigned or granted. -/
def State.awaitLead (s : State) (die : Nat) (t : BitVec 16) : Nat → State
  | 0 => s
  | n + 1 => if s.leads die t then s else s.exchange.awaitLead die t n

/-- A core's clock jumps to t under the lead limit. -/
def State.jumpTo (s : State) (core : Nat) (t : BitVec 16) : State :=
  (s.awaitLead (dieOfCore core) t 16).jump core t

end Sys2Proof.Machine
end

