-- ==== Sys2Proof/Machine/Operands.lean ====
section
/-!
DEFINITION. Operands: resolving, reading, popping, releasing and writing them (R113 to R135, R171, R176, R177).
-/
namespace Sys2Proof

/-! ## Types and sub-elements (R136) -/

def IType.width : IType → Nat
  | .i64 | .u64 => 64
  | .i32 | .u32 => 32
  | .i16 | .u16 => 16
  | .i8 | .u8 => 8

def IType.signed : IType → Bool
  | .i64 | .i32 | .i16 | .i8 => true
  | .u64 | .u32 | .u16 | .u8 => false

def FType.width : FType → Nat
  | .f64 => 64
  | .f32 => 32
  | .f16 | .b16 => 16
  | .f8 => 8
  | .f6 => 6
  | .f4 => 4

/-- The lane that supplies a source to the thread in lane l (R176). -/
def LanePat.source (p : LanePat) (l : Nat) : Nat :=
  match p with
  | .ident => l
  | .rot1 => (l + 31) % 32
  | .rot2 => (l + 30) % 32
  | .rot4 => (l + 28) % 32
  | .rot8 => (l + 24) % 32
  | .rot16 => (l + 16) % 32
  | .rotm1 => (l + 1) % 32
  | .rev => 31 - l
  | .rev8 => l ^^^ 7
  | .xor1 => l ^^^ 1
  | .xor2 => l ^^^ 2
  | .xor4 => l ^^^ 4
  | .bc0 => 0
  | .bc8 => l - l % 8
  | .subrev => l

/-- The pattern on srcA and on srcB (R177). -/
def Pat.forA (p : Pat) : LanePat := if p.onB then .ident else p.pat
def Pat.forB (p : Pat) : LanePat := if p.onB then p.pat else .ident

end Sys2Proof

namespace Sys2Proof.Machine

/-- Number of sub-elements of a width: ten under f6, otherwise 64 / w (R136). -/
def subCount (w : Nat) : Nat := 64 / w

/-- Sub-element i of a word, as an unsigned number. -/
def sub (v : Word) (w i : Nat) : Nat := (v.toNat >>> (w * i)) % 2 ^ w

/-- A number of w bits read as two's complement. -/
def toSigned (w n : Nat) : Int := if n < 2 ^ (w - 1) then n else (n : Int) - 2 ^ w

/-- Sub-element i under an integer type. -/
def subI (t : IType) (v : Word) (i : Nat) : Int :=
  if t.signed then toSigned t.width (sub v t.width i) else sub v t.width i

/-- A word from sub-elements of width w, sub-element 0 lowest. -/
def packNat (w : Nat) : List Nat → Nat
  | [] => 0
  | x :: l => x % 2 ^ w + 2 ^ w * packNat w l
def pack (w : Nat) (l : List Nat) : Word := word (packNat w l)

/-- The word whose sub-elements are f 0, f 1, … (R136). -/
def mapSub (w : Nat) (f : Nat → Nat) : Word := pack w ((List.range (subCount w)).map f)

/-- Reverse the sub-elements (pattern 0xE, R176). -/
def reverseSub (w : Nat) (v : Word) : Word := mapSub w (fun i => sub v w (subCount w - 1 - i))

/-- How a source is supplied (R116): as one whole value, or as sub-elements of a type. -/
inductive Form where
  | whole
  | int (t : IType)
  | flt (t : FType)
  /-- one whole value, whose sub-elements of a width pattern 0xE reverses -/
  | cell (w : Nat)
  /-- a source read in a type of its own, whose sub-elements of the width of the type field pattern 0xE reverses (R136, R176) -/
  | intFrom (t : IType) (w : Nat)
  | fltFrom (t : FType) (w : Nat)
  deriving DecidableEq, Repr

def Form.width : Form → Nat
  | .whole => 64
  | .int t => IType.width t
  | .flt t => FType.width t
  | .cell w => w
  | .intFrom _ w => w
  | .fltFrom _ w => w

/-- The inline constant c - 16 converted round-to-nearest-even into a float format, with the format's saturation
(R116, R141, R144, R148): the codes of the magnitudes 0 to 16. Only f6 above 8 and f4 above 4 round or saturate. -/
def constNarrow : FType → Nat → Nat
  | .f8, n => -- 3 fraction bits, bias 8
    match n with
    | 0 => 0x00 | 1 => 0x40 | 2 => 0x48 | 3 => 0x4C | 4 => 0x50 | 5 => 0x52 | 6 => 0x54 | 7 => 0x56
    | 8 => 0x58 | 9 => 0x59 | 10 => 0x5A | 11 => 0x5B | 12 => 0x5C | 13 => 0x5D | 14 => 0x5E | 15 => 0x5F | _ => 0x60
  | .f6, n => -- 2 fraction bits, bias 3
    match n with
    | 0 => 0x00 | 1 => 0x0C | 2 => 0x10 | 3 => 0x12 | 4 => 0x14 | 5 => 0x15 | 6 => 0x16 | 7 => 0x17
    | 8 => 0x18 | 9 => 0x18 | 10 => 0x19 | 11 => 0x1A | 12 => 0x1A | 13 => 0x1A | 14 => 0x1B | 15 => 0x1C | _ => 0x1C
  | _, n => -- f4: 1 fraction bit, bias 1
    match n with
    | 0 => 0 | 1 => 2 | 2 => 4 | 3 => 5 | 4 => 6 | 5 => 6 | _ => 7

/-- An integer of magnitude at most 16 in an IEEE format with m fraction bits and the given bias. -/
def constIeee (m bias n : Nat) : Nat :=
  if n = 0 then 0 else (bias + Nat.log2 n) * 2 ^ m + (n - 2 ^ Nat.log2 n) * 2 ^ (m - Nat.log2 n)

/-- The bits of an inline constant in one float sub-element. -/
def constFloat (t : FType) (c : Int) : Nat :=
  let n := c.natAbs
  let neg := if c < 0 then 1 else 0
  match t with
  | .f64 => constIeee 52 1023 n + neg * 2 ^ 63
  | .f32 => constIeee 23 127 n + neg * 2 ^ 31
  | .f16 => constIeee 10 15 n + neg * 2 ^ 15
  | .b16 => constIeee 7 127 n + neg * 2 ^ 15
  | .f8 => constNarrow .f8 n + neg * 128
  | .f6 => constNarrow .f6 n + neg * 32
  | .f4 => constNarrow .f4 n + neg * 8

/-- An inline constant under a form (R116). -/
def constWord (f : Form) (c : Int) : Word :=
  match f with
  | .whole => wordI c
  | .cell _ => wordI c
  | .int t => mapSub (IType.width t) (fun _ => (c % 2 ^ IType.width t).toNat)
  | .flt t => mapSub (FType.width t) (fun _ => constFloat t c)
  | .intFrom t _ => mapSub (IType.width t) (fun _ => (c % 2 ^ IType.width t).toNat)
  | .fltFrom t _ => mapSub (FType.width t) (fun _ => constFloat t c)

/-! ## Index registers (R122 to R125) -/

/-- The image of an index register (R124). -/
def IndexReg.image (x : IndexReg) : Word :=
  word (x.cursor.toNat * 2 ^ 28 + x.step.toNat * 2 ^ 24 + x.bound.toNat * 2 ^ 16 + x.base.toNat)

/-- The register that an index register names, if its window and its cursor are in range (R125). -/
def IndexReg.target (x : IndexReg) : Option Nat :=
  if x.base.toNat + x.bound.toNat ≤ 128 ∧ x.cursor.toInt ≥ 0 ∧ x.cursor.toInt < x.bound.toNat then
    some (x.base.toNat + x.cursor.toNat)
  else none

/-- The post-increment (R125). -/
def IndexReg.bump (x : IndexReg) : IndexReg := { x with cursor := x.cursor + x.step.signExtend 16 }

def Thread.xreg (t : Thread) (n : Nat) : IndexReg := Table.getD t.x n IndexReg.init
def Thread.queueOf (t : Thread) (n : Nat) : Queue := Table.getD t.q n Queue.init
/-- A v register; a name that holds none reads zero (R119). -/
def Thread.vreg (t : Thread) (n : Nat) : Word := Table.getD t.v n 0
/-- Write a v register: the write allocates the name (R119), and a poisoned register is whole again. -/
def Thread.setV (t : Thread) (n : Nat) (w : Word) : Thread :=
  { t with v := Table.set t.v n w, poisoned := t.poisoned.filter (fun m => m ≠ n) }
/-- Release a name (R119). -/
def Thread.freeV (t : Thread) (n : Nat) : Thread :=
  { t with v := Table.erase t.v n, poisoned := t.poisoned.filter (fun m => m ≠ n) }
/-- Release a range of names (R209). -/
def Thread.freeRange (t : Thread) (n : Nat) : Nat → Thread
  | 0 => t
  | k + 1 => Thread.freeRange (t.freeV n) (n + 1) k
/-- A predicate; p0 reads 1 (R113). -/
def Thread.pred (t : Thread) (n : Fin 8) : Bool := n = 0 || t.p.getLsbD n.val
/-- Write a predicate; a write to p0 is discarded (R130). -/
def Thread.setP (t : Thread) (n : Fin 8) (b : Bool) : Thread :=
  if n = 0 then t
  else { t with p := if b then t.p ||| (1#8 <<< n.val) else t.p &&& ~~~(1#8 <<< n.val) }
/-- Whether the predicate field selects a thread (R171). -/
def Thread.selected (t : Thread) (g : Guard) : Bool := xor (t.pred g.p) g.neg

/-! ## The issue environment -/

/-- What an issued word sees besides its thread's registers, all taken before the word has any effect. -/
structure Env where
  core : Nat
  group : Nat
  clock : BitVec 16
  cycle : Nat
  gid0 : Nat
  tvec : Word
  svec : Word
  word : Word
  ctx : Nat
  g : Group
  deriving DecidableEq, Repr

/-- Counts lcnt of a grid at a level (R323). -/
def Grid.lcnt (g : Grid) (n : Nat) : Nat :=
  if n = 0 then 32 else if n < g.top then g.counts.getD (n - 1) 1 else 1

/-- The index of member number m of level n within its parent, and the parents' indexes above it (R323): level 2's
member number is the block index. -/
def Grid.memberAt (g : Grid) (block : Nat) : Nat → Nat
  | 0 => block
  | n + 1 => g.memberAt block n / g.lcnt (n + 2)

/-- lidx at a level n ≥ 2 for a block (R323). -/
def Grid.lidxHigh (g : Grid) (block n : Nat) : Nat :=
  if n ≥ g.top then 0 else g.memberAt block (n - 2) % g.lcnt n

/-- The member of level n ≥ 2 that a block belongs to, numbered within the grid. -/
def Grid.member (g : Grid) (block n : Nat) : Nat := if n ≥ g.top then 0 else g.memberAt block (n - 2)

/-- %gid of lane 0 of a group (R323): blocks are numbered so that the index is linear. -/
def Grid.gid0 (g : Grid) (block lidx1 : Nat) : Nat := 32 * (lidx1 + g.lcnt 1 * block)

/-- lidx of a thread at a level (R220, R323). -/
def State.lidx (s : State) (g : Group) (lane n : Nat) : Nat :=
  if n = 0 then lane else if n = 1 then g.lidx1
  else match s.grid? g.grid with
    | some gr => gr.lidxHigh g.block n
    | none => 0

/-- lcnt of a group's launch at a level (R220, R323). -/
def State.lcnt (s : State) (g : Group) (n : Nat) : Nat :=
  match s.grid? g.grid with
  | some gr => gr.lcnt n
  | none => if n = 0 then 32 else 1

/-- The group key of an issue. -/
def Issue.group (i : Issue) : Nat := i.core * 32 + i.slot

/-- The environment of an issue, if its group is resident. -/
def State.env? (s : State) (i : Issue) : Option Env :=
  match s.group? i.group with
  | none => none
  | some g =>
    let gid := match s.grid? g.grid with
      | some gr => gr.gid0 g.block g.lidx1
      | none => 0
    some { core := i.core, group := i.group, clock := (s.coreOf i.core).clock, cycle := s.cycle, gid0 := gid,
           tvec := s.tvecOf g.ctx, svec := s.svecOf g.ctx, word := i.word, ctx := g.ctx, g := g }

def specialValue (e : Env) (lane : Nat) : Special → Word
  | .lane => word lane
  | .gid => word (e.gid0 + lane)
  | .clock => word e.clock.toNat
  | .cycle => word e.cycle
  | .core => word (e.core % 40)
  | .die => word (e.core / 40)

/-- Whether a thread's registers can be read by others: not parked, not retired (R134). -/
def Thread.readable (t : Thread) : Bool :=
  match t.status with
  | .park _ _ => false
  | .parkFull => false
  | .retired => false
  | _ => true

/-- A v register of a lane as a thread in lane `self` reads it: its own, or another thread's under R134. -/
def Group.vAt (g : Group) (self : Nat) (own : Thread) (lane n : Nat) : Word :=
  if lane = self then own.vreg n
  else match Table.find g.threads lane with
    | some t => if t.readable then t.vreg n else 0
    | none => 0

/-- Whether that read meets a poisoned register (R389). -/
def Group.vPoisoned (g : Group) (self : Nat) (own : Thread) (lane n : Nat) : Bool :=
  if lane = self then own.poisoned.contains n
  else match Table.find g.threads lane with
    | some t => t.readable && t.poisoned.contains n
    | none => false

/-- Read a v register through a pattern, for a source supplied under a form. -/
def readV (e : Env) (lane : Nat) (t : Thread) (p : LanePat) (f : Form) (n : Nat) : Word :=
  let v := e.g.vAt lane t (p.source lane) n
  if p = .subrev then reverseSub f.width v else v

/-! ## Collection (R125, R130, R131, R133, R365 step 4) -/

/-- One source operand of an instruction, with the pattern that applies to it. -/
structure SrcSpec where
  src : Src
  pat : LanePat
  form : Form
  deriving DecidableEq, Repr

/-- Where a result goes. -/
inductive Dest where
  | reg (n : Nat)
  | queue (q : Nat)
  | none
  deriving DecidableEq, Repr

/-- What a lane has collected: the values, the thread after its pops, releases and cursor steps, the resolved
destination, and whether a poisoned register was read. -/
structure Got where
  a : Word
  b : Word
  c : Word
  t : Thread
  d : Dest
  poisoned : Bool
  deriving DecidableEq, Repr

/-- The failing index register of an operand, if it fails (R125). -/
def indexFail (t : Thread) : Operand → Option Trap
  | .ind x | .indInc x =>
    match (t.xreg x.val).target with
    | some _ => none
    | none => some ⟨0x07, (t.xreg x.val).image⟩
  | _ => none

/-- The first of several options that holds something. -/
def firstSome {α : Type} : List (Option α) → Option α
  | [] => none
  | some a :: _ => some a
  | none :: l => firstSome l

/-- The poison mark of an entry of a queue, the i-th oldest, among a thread's (R388, R389): above those of the v registers. -/
def markQ (q i : Nat) : Nat := 128 + 16 * q + i

/-- The marks after a pop of a queue: each of its entries is one place older. -/
def popMarks (q : Nat) (l : List Nat) : List Nat :=
  (l.filter (fun m => m ≠ markQ q 0)).map (fun m => if markQ q 0 < m ∧ m < markQ (q + 1) 0 then m - 1 else m)

/-- The value a source supplies, and the thread after a pop. Indirect operands have been checked; a pop of an empty or
unconfigured queue is trap 0x08 (R130). The registers and cursors read are those before the instruction. -/
def readSrc (e : Env) (lane : Nat) (t0 : Thread) (t : Thread) (s : SrcSpec) : Except Trap (Word × Thread × Bool) :=
  match s.src.op with
  | .reg n => .ok (readV e lane t0 s.pat s.form n.val, t, e.g.vPoisoned lane t0 (s.pat.source lane) n.val)
  | .ind x | .indInc x =>
    let n := ((t0.xreg x.val).target).getD 0
    .ok (t0.vreg n, t, t0.poisoned.contains n)
  | .queue q =>
    let qq := t.queueOf q.val
    match qq.entries with
    | [] => .error ⟨0x08, word q.val⟩
    | v :: rest => .ok (v, { t with q := Table.set t.q q.val { qq with entries := rest }, poisoned := popMarks q.val t.poisoned },
        t.poisoned.contains (markQ q.val 0))
  | .zero => .ok (0, t, false)
  | .special sp => .ok (specialValue e lane sp, t, false)
  | .const c => .ok (constWord s.form ((c.val : Int) - 16), t, false)

/-- As `readSrc` for a source the instruction may not have. -/
def readOpt (e : Env) (lane : Nat) (t0 t : Thread) : Option SrcSpec → Except Trap (Word × Thread × Bool)
  | none => .ok (0, t, false)
  | some s => readSrc e lane t0 t s

/-- The push check and the resolved destination, after the instruction's own pops (R130). -/
def destOf (t0 t : Thread) : Option Operand → Except Trap Dest
  | none => .ok .none
  | some (.reg n) => .ok (.reg n.val)
  | some (.ind x) | some (.indInc x) => .ok (.reg (((t0.xreg x.val).target).getD 0))
  | some (.queue q) =>
    let qq := t.queueOf q.val
    if qq.entries.length < qq.depth then .ok (.queue q.val) else .error ⟨0x09, word q.val⟩
  | some _ => .ok .none

/-- The index registers that operands step (R125): each once. -/
def stepOf : Option Operand → List Nat
  | some (.indInc x) => [x.val]
  | _ => []

/-- The names that last-read marks release (R119). -/
def releaseOf : Option SrcSpec → List Nat
  | some ⟨⟨.reg n, true⟩, _, _⟩ => [n.val]
  | _ => []

def Thread.bump (t : Thread) (n : Nat) : Thread := { t with x := Table.set t.x n (t.xreg n).bump }

/-- Collect the operands of one lane. The order is R365 step 4: every index register, then the pops in the order A, B,
C, then the push (R130). Nothing has changed where a trap is answered. -/
def collect (e : Env) (lane : Nat) (t : Thread) (d : Option Operand) (a b c : Option SrcSpec) : Except Trap Got :=
  let op := fun (o : Option SrcSpec) => o.map (fun s => s.src.op)
  let idx := firstSome ([op a, op b, op c, d].map (fun o => match o with | some o => indexFail t o | none => none))
  match idx with
  | some tr => .error tr
  | none =>
    match readOpt e lane t t a with
    | .error tr => .error tr
    | .ok (va, t1, pa) =>
      match readOpt e lane t t1 b with
      | .error tr => .error tr
      | .ok (vb, t2, pb) =>
        match readOpt e lane t t2 c with
        | .error tr => .error tr
        | .ok (vc, t3, pc) =>
          match destOf t t3 d with
          | .error tr => .error tr
          | .ok dd =>
            let steps := ((stepOf (op a)) ++ (stepOf (op b)) ++ (stepOf (op c)) ++ (stepOf d)).eraseDups
            let t4 := steps.foldl Thread.bump t3
            let rel := releaseOf a ++ releaseOf b ++ releaseOf c
            let t5 := rel.foldl Thread.freeV t4
            .ok { a := va, b := vb, c := vc, t := t5, d := dd, poisoned := pa || pb || pc }

/-- Write a result (R115, R119, R130). -/
def Thread.put (t : Thread) (d : Dest) (w : Word) : Thread :=
  match d with
  | .reg n => t.setV n w
  | .queue q =>
    let qq := t.queueOf q
    { t with q := Table.set t.q q { qq with entries := qq.entries ++ [w] } }
  | .none => t

/-- The trap of a poisoned register read (R364 code 0x18, R389). -/
def poisonTrap : Trap := ⟨0x18, 0⟩

/-! ## Sources of the instruction forms -/

def srcA (p : Pat) (f : Form) (a : Src) : Option SrcSpec := some ⟨a, p.forA, f⟩
def srcB (p : Pat) (f : Form) (b : Src) : Option SrcSpec := some ⟨b, p.forB, f⟩
def srcP (p : LanePat) (f : Form) (a : Src) : Option SrcSpec := some ⟨a, p, f⟩
def srcN (f : Form) (a : Src) : Option SrcSpec := some ⟨a, .ident, f⟩
def srcO (f : Form) (a : Operand) : Option SrcSpec := some ⟨⟨a, false⟩, .ident, f⟩

/-! ## Running a word lane by lane (R196) -/

/-- The effect of a word on one thread: what it comes to, from the thread before it. -/
abbrev LaneFn := Env → Nat → Thread → LaneOut

/-- One lane of an issued word: a lane that the predicate does not select only goes on (R171, R196). -/
def runLane (g : Guard) (f : LaneFn) (e : Env) (lane : Nat) (t : Thread) : LaneOut :=
  if t.selected g then f e lane t else ⟨t.advance, none⟩

/-- Every issued lane of a group, each from the state before the word. -/
def Group.mapLanes (gr : Group) (lanes : List Nat) (f : Nat → Thread → LaneOut) : Group :=
  { gr with threads := gr.threads.map (fun p => if lanes.contains p.1 then (p.1, (f p.1 p.2).t) else p) }

/-- What the issued lanes do beside their threads, in lane order. -/
def Group.asides (gr : Group) (lanes : List Nat) (f : Nat → Thread → LaneOut) : List Aside :=
  gr.threads.filterMap (fun p => if lanes.contains p.1 then (f p.1 p.2).aside else none)

/-- The first lane that trapped in handler mode, with its trap and its word (R366). -/
def firstContained : List Aside → Option (Trap × Word)
  | [] => none
  | .contain tr pc :: _ => some (tr, pc)
  | .probe :: l => firstContained l

/-- Run a word whose effect on each thread depends on that thread and the environment alone, on every issued lane. -/
def State.runLanes (s : State) (i : Issue) (f : LaneFn) : State :=
  match s.env? i with
  | none => s
  | some e =>
    let s1 := s.setGroup i.group (e.g.mapLanes i.lanes (f e))
    match e.g.asides i.lanes (f e) with
    | [] => s1
    | l =>
      let s2 := if l.contains .probe then s1.setPrb i.group else s1
      match firstContained l with
      | none => s2
      | some (tr, pc) => s2.stopBlock e.g.blockKey tr.cause tr.val pc

/-- The meaning of an instruction word acts on the issue at the head of the state's list. -/
def issued (s : State) (f : Issue → State) : Host.Outcome State Fault Refusal :=
  match s.issue with
  | [] => .fault .noIssue
  | i :: _ => .next (f i)

/-- The meaning of a word that acts on each thread alone. -/
def lanewise (g : Guard) (f : LaneFn) (s : State) : Host.Outcome State Fault Refusal :=
  issued s (fun i => s.runLanes i (runLane g f))

/-- A trap of one lane at its own word. -/
def trapLane (e : Env) (t : Thread) (tr : Trap) : LaneOut := t.takeTrap e.tvec t.pc tr

/-- A trap with the flags that it still sets (R140). -/
abbrev Raise := Trap × Word

/-- Whether a cause belongs to step 6 of R365: it yields to a poisoned register, and every earlier check comes first. -/
def Trap.isResult (tr : Trap) : Bool := decide (0x12 ≤ tr.cause) && decide (tr.cause ≤ 0x14)

/-- A word that collects its operands, computes, and goes on: the body answers the thread (before the advance), or the
trap it takes. A poisoned register is consumed after the checks of the operands and before those of the result (R365 step 6). -/
def lane (d : Option Operand) (a b c : Option SrcSpec) (f : Got → Except Raise Thread) : LaneFn := fun e l t =>
  match collect e l t d a b c with
  | .error tr => trapLane e t tr
  | .ok g =>
    match f g with
    | .error (tr, fl) =>
      if g.poisoned && tr.isResult then trapLane e t poisonTrap else trapLane e { t with astat := t.astat ||| fl } tr
    | .ok t' => if g.poisoned then trapLane e t poisonTrap else ⟨t'.advance, none⟩

/-- A word that computes one result from its sources and writes it. -/
def lanePure (d : Operand) (a b c : Option SrcSpec) (f : Got → Word) : LaneFn :=
  lane (some d) a b c (fun g => .ok (g.t.put g.d (f g)))

/-! ## Running a word lane by lane over the whole state -/

/-- The effect of a word on one selected lane, from the state that earlier lanes left; the operands come from the
environment and the thread before the word. -/
abbrev StateLane := Env → Nat → Thread → State → State

/-- Run a word over its issued lanes in ascending order. Every lane collects from the state before the word. -/
def State.foldLanes (s : State) (i : Issue) (g : Guard) (body : StateLane) : State :=
  match s.env? i with
  | none => s
  | some e =>
    i.lanes.foldl (fun s l =>
      match Table.find e.g.threads l with
      | none => s
      | some t => if t.selected g then body e l t s else s.setThread (i.group * 32 + l) t.advance) s

/-- The key of the thread in a lane. -/
def Env.tid (e : Env) (l : Nat) : Nat := e.group * 32 + l

/-- A lane of a word that reaches outside its thread takes a trap at its own word. -/
def State.trapAt (s : State) (e : Env) (l : Nat) (t : Thread) (tr : Trap) : State :=
  s.putLane (e.tid l) (trapLane e t tr)

/-- A word over lanes whose effect reaches outside the thread: a lane's checks that come before its register values (R365 step 3),
then collect, then the body. -/
def overLanesBy (pre : Env → Nat → Thread → State → Option Trap) (g : Guard) (d : Option Operand) (a b c : Option SrcSpec)
    (body : Env → Nat → Thread → Got → State → State) (s : State) : Host.Outcome State Fault Refusal :=
  issued s (fun i => s.foldLanes i g (fun e l t s =>
    match pre e l t s with
    | some tr => s.trapAt e l t tr
    | none =>
      match collect e l t d a b c with
      | .error tr => s.trapAt e l t tr
      | .ok r => body e l t r s))

/-- As `overLanesBy` with checks that are the same for every lane. -/
def overLanesIf (pre : Env → State → Option Trap) (g : Guard) (d : Option Operand) (a b c : Option SrcSpec)
    (body : Env → Nat → Thread → Got → State → State) (s : State) : Host.Outcome State Fault Refusal :=
  overLanesBy (fun e _ _ s => pre e s) g d a b c body s

/-- As `overLanesIf` with no such check. -/
def overLanes (g : Guard) (d : Option Operand) (a b c : Option SrcSpec)
    (body : Env → Nat → Thread → Got → State → State) (s : State) : Host.Outcome State Fault Refusal :=
  overLanesIf (fun _ _ => none) g d a b c body s

/-- A lane completes: its thread after collection, with a result where the word has one, goes on. -/
def State.complete (s : State) (e : Env) (l : Nat) (t : Thread) : State := s.setThread (e.tid l) t.advance

/-- A lane waits at its word, with nothing else changed. -/
def State.waitAt (s : State) (e : Env) (l : Nat) (t : Thread) (w : Wait) : State :=
  s.setThread (e.tid l) { t with status := .wait w }

end Sys2Proof.Machine
end

