-- ==== Sys2Proof/Machine/Coherence.lean ====
section
/-!
DEFINITION. The points of coherence and the Catalogue (R24 to R28, R35 to R46), the lease rules and logical time (R80 to
R88), tenure as it meets an access (R53 to R57, R87), and the replicated pages (R29 to R32, R302).
Host memory is homed at the hub die's host agent (R24, R45), which the model numbers 8 beside the dies 0 to 7.
-/
namespace Sys2Proof.Machine

/-- Where the Catalogue of an address stands: the home die, or the host agent of the hub (R15, R45). -/
def homeOf (pa : Nat) : Nat := if isHost pa then hub else homeDie pa
def homeOfLine (line : Nat) : Nat := homeOf (128 * line)

/-- The fabric clock runs at two thirds of the arithmetic clock (R12). -/
def State.fabric (s : State) : Nat := s.cycle * 2 / 3

/-! ## Stamps (R25, R83) -/

/-- The stamps of a line at a die's point of coherence (R25): L2 for its own lines, else the Annex. -/
def State.stampAt (s : State) (die line : Nat) : Stamp :=
  let d := s.dieOf die
  if homeOfLine line = die then Table.getD d.l2 line d.unlisted
  else match Table.find d.annex line with
    | some a => a.st
    | none => d.floorStamp

def State.setStamp (s : State) (die line : Nat) (st : Stamp) : State :=
  let d := s.dieOf die
  if homeOfLine line = die then s.setDie die { d with l2 := Table.set d.l2 line st }
  else match Table.find d.annex line with
    | some a => s.setDie die { d with annex := Table.set d.annex line { a with st := st } }
    | none => s

/-! ## Data -/

/-- Bytes of `new` where the mask has a bit, else of `old`. -/
def mergeLine (old new : LineData) (mask : BitVec 128) : LineData :=
  (List.range 128).foldl (fun (d : LineData) i => if mask.getLsbD i then LineData.write d i 1 (LineData.read new i 1) else d) old

/-- Write the masked bytes of a line to memory. -/
def Memory.writeMasked (m : Memory) (line : Nat) (d : LineData) (mask : BitVec 128) : Memory :=
  (List.range 128).foldl (fun m i =>
    if mask.getLsbD i then Memory.putByte m (128 * line + i) (BitVec.ofNat 8 (LineData.read d i 1)) else m) m

def byteMask (off n : Nat) : BitVec 128 := BitVec.ofNat 128 ((2 ^ n - 1) * 2 ^ off)

/-- A line as its home has it. -/
def State.homeLine (s : State) (line : Nat) : LineData := Memory.line s.mem line

/-- The mask over a line of the bytes that the host holds modified (R45). -/
def State.hostMask (s : State) (line : Nat) : BitVec 128 :=
  let m := fun k => match Table.find s.hostSectors (2 * line + k) with
    | some x => x.dirty
    | none => 0
  m 1 ++ m 0

/-- The valid bit of each sector of a line in an L2 (R45): one that the host holds modified is not valid there. -/
def State.l2Valid (s : State) (line : Nat) : BitVec 2 :=
  let ok := fun k => match Table.find s.hostSectors (2 * line + k) with
    | some x => decide (x.dirty = 0)
    | none => true
  BitVec.ofBool (ok 1) ++ BitVec.ofBool (ok 0)

/-- The sectors of a line of host memory that the hub's host agent owns (R45). -/
def State.heldMask (s : State) (line : Nat) : BitVec 2 :=
  BitVec.ofBool (s.hostHeld.contains (2 * line + 1)) ++ BitVec.ofBool (s.hostHeld.contains (2 * line))

/-- The bytes of a line that lie in the sectors of a mask. -/
def sectorBytes (m : BitVec 2) : BitVec 128 :=
  (if m.getLsbD 1 then BitVec.allOnes 64 else 0) ++ (if m.getLsbD 0 then BitVec.allOnes 64 else (0 : BitVec 64))

/-- What the host modified in a line's sectors reaches the home as a store there, with the next timestamp (R27, R45); the
host keeps the sectors clean. -/
def State.hostFlush (s : State) (line : Nat) : State :=
  if s.hostMask line = 0 then s
  else
    let half := fun k => match Table.find s.hostSectors (2 * line + k) with
      | some x => x.data
      | none => 0
    let home := homeOfLine line
    let ts := (s.stampAt home line).rts + 1
    let s := s.awaitLead home ts 16
    let s := s.pushAll ((s.semWaits.filter (fun w => decide (w.pa / 128 = line))).map (fun w => .semwRelease w.pa))
    let s := { s with mem := Memory.writeMasked s.mem line (half 1 ++ half 0) (s.hostMask line),
                      hostSectors := s.hostSectors.map (fun (p : Nat × HostSector) =>
                        if p.1 / 2 = line then (p.1, { p.2 with dirty := 0 }) else p) }
    let s := s.setStamp home line ⟨ts, ts, (s.stampAt home line).origin⟩
    s.setDie home ((s.dieOf home).note ts)

/-- An access allocates a line in its home's L2, in the Stacks, or in both (R14, R23, R26). Either may evict it at any time. -/
def State.allocate (s : State) (line : Nat) (l2 kept : Bool) : State :=
  let home := homeOfLine line
  if home = hub then s
  else
    let d := s.dieOf home
    s.setDie home { d with inL2 := if l2 then insertNat line d.inL2 else d.inL2,
                           inStacks := if kept then insertNat line d.inStacks else d.inStacks }

/-! ## Region entries (R35 to R40) -/

def Region.covers (r : Region) (pa : Nat) : Bool := decide (r.base ≤ pa) && decide (pa < r.base + r.size)

def Die.entry? (d : Die) (line : Nat) : Option Region := d.regions.find? (fun r => r.covers (128 * line))

/-- The entry of a line: one of 64 KiB in state U where there is none (R35). -/
def Die.entry (d : Die) (line now : Nat) : Region :=
  match d.entry? line with
  | some r => r
  | none => { base := 128 * line / 65536 * 65536, size := 65536, state := .u, sharers := [], quietSince := now }

def Die.putEntry (d : Die) (r : Region) : Die :=
  { d with regions := r :: d.regions.filter (fun q => !(decide (q.base = r.base))) }

/-- A set of dies with one more, in rising order (R35: one bit per die). -/
def addDie (l : List Nat) (d : Nat) : List Nat := (List.range 9).filter (fun x => decide (x = d) || l.contains x)

/-- Give the entry of a line a state and sharers; a change starts its quiet interval again (R39). -/
def State.setEntry (s : State) (home line : Nat) (st : RegState) (sharers : List Nat) : State :=
  let d := s.dieOf home
  let r := d.entry line s.fabric
  let same := decide (r.state = st) && decide (r.sharers = sharers)
  s.setDie home (d.putEntry { r with state := st, sharers := sharers, quietSince := if same then r.quietSince else s.fabric })

/-- Split the entry of a line once into two halves that keep what it had (R38). -/
def State.splitEntry (s : State) (home line : Nat) : State :=
  let d := s.dieOf home
  let r := d.entry line s.fabric
  if r.size ≤ 128 then s.setDie home (d.putEntry { r with quietSince := s.fabric })
  else
    let half := r.size / 2
    let lo := { r with size := half, quietSince := s.fabric }
    s.setDie home ((d.putEntry lo).putEntry { lo with base := r.base + half })

/-- The lines of an entry that a die's Annex holds. -/
def Die.annexIn (d : Die) (r : Region) : List (Nat × AnnexLine) := d.annex.filter (fun p => r.covers (128 * p.1))

/-- One Annex line is written back to its home, with the stamps it carries; its copy becomes clean (R24, R40). -/
def State.writeBackLine (s : State) (die line : Nat) : State :=
  let d := s.dieOf die
  match Table.find d.annex line with
  | none => s
  | some a =>
    let home := homeOfLine line
    let s := if a.dirty = 0 then s
      else { s.allocate line true true with mem := Memory.writeMasked s.mem line a.data a.dirty }
    let s := s.setDie die { d with annex := Table.set d.annex line { a with dirty := 0 } }
    s.setStamp home line ((s.stampAt home line).max a.st)

/-- An owner writes back its dirty lines of an entry and keeps clean copies (R40). -/
def State.writeBackEntry (s : State) (die : Nat) (r : Region) : State :=
  (((s.dieOf die).annexIn r).filter (fun p => p.2.dirty ≠ 0)).foldl (fun s p => s.writeBackLine die p.1) s

/-- An Annex drops its lines of an entry, dirty ones written back first, and reports the highest rts it had granted,
which each of those lines keeps at the home (R40, R41). -/
def State.dropEntry (s : State) (die : Nat) (r : Region) : State × Option (BitVec 16) :=
  let lines := (s.dieOf die).annexIn r
  match lines with
  | [] => (s, none)
  | p :: rest =>
    let top := maxAll p.2.st.rts (rest.map (fun q => q.2.st.rts))
    let s := lines.foldl (fun s q =>
      let s := s.writeBackLine die q.1
      let h := homeOfLine q.1
      let st := s.stampAt h q.1
      s.setStamp h q.1 { st with rts := maxT st.rts top }) s
    let d := s.dieOf die
    (s.setDie die { d with annex := d.annex.filter (fun q => !(r.covers (128 * q.1))) }, some top)

/-- The home keeps the highest rts reported for a line (R41). -/
def State.foldRts (s : State) (home line : Nat) (t : Option (BitVec 16)) : State :=
  match t with
  | none => s
  | some t =>
    let st := s.stampAt home line
    s.setStamp home line { st with rts := maxT st.rts t }

/-- Every sharer but one drops its lines of the entry of a line (R40). -/
def State.dropOthers (s : State) (home line : Nat) (keep : Option Nat) : State :=
  let r := (s.dieOf home).entry line s.fabric
  (r.sharers.filter (fun e => some e ≠ keep)).foldl (fun s e =>
    let (s, t) := s.dropEntry e r
    s.foldRts home line t) s

/-- Whether a store or an atomic for a die would invalidate, or take ownership from, another die's copy (R38). -/
def State.conflicts (s : State) (home line : Nat) (keep : Option Nat) : Bool :=
  match (s.dieOf home).entry? line with
  | none => false
  | some r => r.sharers.any (fun e => some e ≠ keep)

/-- The owner of a line's entry, if it is in state O. -/
def State.owner? (s : State) (home line : Nat) : Option Nat :=
  match (s.dieOf home).entry? line with
  | some r => if r.state = .o then r.sharers.head? else none
  | none => none

/-- The sectors of a line of host memory that the agent has come to own enter an Annex copy that lacks them (R45). -/
def State.fillSectors (s : State) (die line : Nat) : State :=
  if homeOfLine line ≠ hub then s
  else
    let d := s.dieOf die
    match Table.find d.annex line with
    | none => s
    | some a =>
      let fresh := s.heldMask line &&& ~~~a.valid
      if fresh = 0 then s
      else
        let a : AnnexLine := { a with data := mergeLine a.data (s.homeLine line) (sectorBytes fresh), valid := a.valid ||| fresh }
        s.setDie die { d with annex := Table.set d.annex line a }

/-- A line enters a die's Annex with its home's data and stamps. A full Annex sends a dirty line back (R24, R37). -/
def State.installAnnex (s : State) (die line : Nat) : State :=
  let d := s.dieOf die
  match Table.find d.annex line with
  | some _ => s.fillSectors die line
  | none =>
    let a : AnnexLine := ⟨s.homeLine line, s.stampAt (homeOfLine line) line, 0, if homeOfLine line = hub then s.heldMask line else 3⟩
    let s := s.setDie die { d with annex := Table.set d.annex line a }
    if d.annex.length < 262144 then s
    else match d.annex.find? (fun p => p.2.dirty ≠ 0) with
      | some p => s.pushOnce (.dirtyWriteBack die p.1)
      | none => s

/-- A read from the Annex of a die is served (R40, rows 1 to 3). -/
def State.annexRead (s : State) (die line : Nat) : State :=
  let home := homeOfLine line
  let s := s.hostFlush line
  let r := (s.dieOf home).entry line s.fabric
  let s := match r.state with
    | .o =>
      (match r.sharers with
        | [e] =>
          if e = die then s
          else
            let s := s.splitEntry home line
            let s := s.writeBackEntry e ((s.dieOf home).entry line s.fabric)
            s.setEntry home line .s (addDie [e] die)
        | _ => s)
    | _ => s.setEntry home line .s (addDie r.sharers die)
  s.installAnnex die line

/-- A read by a home-die core (R40): an owner writes back and keeps a clean copy. -/
def State.homeRead (s : State) (line : Nat) : State :=
  let home := homeOfLine line
  let s := s.hostFlush line
  match s.owner? home line with
  | none => s
  | some e =>
    let s := s.splitEntry home line
    let s := s.writeBackEntry e ((s.dieOf home).entry line s.fabric)
    s.setEntry home line .s [e]

/-- The home takes a line from every Annex, for a store or an atomic performed there (R40): state U. -/
def State.homeTake (s : State) (line : Nat) : State :=
  let home := homeOfLine line
  let s := s.hostFlush line
  if s.conflicts home line none then
    let s := s.splitEntry home line
    (s.dropOthers home line none).setEntry home line .u []
  else s

/-- Ownership is granted to a die (R40): state O {die}, the line in its Annex, and every line of the entry that its Annex holds with the
rts that the home knows of, so that its stores there come after every lease that an invalidated die had granted (R41). -/
def State.grantOwner (s : State) (die line : Nat) : State :=
  let home := homeOfLine line
  let s := ((s.hostFlush line).setEntry home line .o [die]).installAnnex die line
  ((s.dieOf die).annexIn ((s.dieOf home).entry line s.fabric)).foldl (fun s p =>
    s.foldRts die p.1 (some (s.stampAt home p.1).rts)) s

/-- A die takes ownership of the entry of a line (R40, store rows): O {die}. -/
def State.takeOwnership (s : State) (die line : Nat) : State :=
  let home := homeOfLine line
  let s := if s.conflicts home line (some die) then
      (s.splitEntry home line).dropOthers home line (some die)
    else s
  s.grantOwner die line

/-! ## The Catalogue's requests (R42, R43) -/

/-- The current request of a line: the earliest that has neither completed nor been set aside. -/
def Die.current (d : Die) (line : Nat) : Option CatReq :=
  d.requests.find? (fun r => decide (r.line = line) && decide (r.phase = .queued))

/-- Whether two requests are of one die, for one line and one asker. -/
def CatReq.same (r q : CatReq) : Bool := decide (q.die = r.die) && decide (q.line = r.line) && decide (q.who = r.who)

/-- Replace a request. -/
def Die.putReq (d : Die) (r : CatReq) : Die := { d with requests := d.requests.map (fun q => if r.same q then r else q) }
def Die.dropReq (d : Die) (r : CatReq) : Die := { d with requests := d.requests.filter (fun q => !(r.same q)) }

/-- A die is no sharer of a line's entry any more: its copies are gone (R40). -/
def State.removeSharer (s : State) (home line die : Nat) : State :=
  match (s.dieOf home).entry? line with
  | none => s
  | some r =>
    let rest := r.sharers.filter (fun e => e ≠ die)
    if rest = r.sharers then s else s.setEntry home line (if rest.isEmpty then .u else .s) rest

/-- A store request is served: a store of a home-die core leaves state U (R40), a store of another die makes it the owner. -/
def State.grantReq (s : State) (home : Nat) (r : CatReq) : State :=
  if r.die = home then
    (match (s.dieOf home).entry? r.line with
      | some _ => s.setEntry home r.line .u []
      | none => s)
  else s.grantOwner r.die r.line

/-- A request of a line completes. Every other request of the line, one marked by a conflict or one that arrived meanwhile, is answered
retry; one that has been answered retry four times is served next (R42, R43). -/
def State.closeReq (s : State) (home : Nat) (r : CatReq) : State :=
  let d := (s.dieOf home).dropReq r
  let here := fun (q : CatReq) => decide (q.line = r.line) && decide (q.phase ≠ .retrying)
  let mine := d.requests.filter here
  let again := mine.filter (fun q => decide (q.retries < 4))
  let next := mine.filter (fun q => !(decide (q.retries < 4)))
  let others := d.requests.filter (fun q => !(here q))
  let put := fun (p : ReqPhase) (q : CatReq) => ({ q with phase := p } : CatReq)
  let s := s.setDie home { d with requests := next.map (put .queued) ++ others ++ again.map (put .retrying) }
  s.pushAll (again.map (fun q => .requestRetry q.die q.line))

/-- Start the current request of a line. A store with no copy to take from another die is served at once; otherwise the entry is split
once for it and each die that holds copies is snooped, until none is left (R38, R40). One that has been served stays the current request until
the store that it was made for is performed (R42). An access is served by its accessor. -/
def State.startReq (s : State) (home line : Nat) : State :=
  match (s.dieOf home).current line with
  | none => s
  | some r =>
    if decide (r.who ≠ .store) || r.granted || !r.awaiting.isEmpty then s
    else
      let keep := if r.die = home then none else some r.die
      if s.conflicts home line keep then
        let s := if r.split then s else s.splitEntry home line
        let targets := ((s.dieOf home).entry line s.fabric).sharers.filter (fun e => some e ≠ keep)
        (s.setDie home ((s.dieOf home).putReq { r with split := true, awaiting := targets })).pushAll
          (targets.map (fun e => .snoopReceived e line))
      else
        let s := s.grantReq home r
        s.setDie home ((s.dieOf home).putReq { r with granted := true })

/-- A request that its asker gives up, or that its accessor performs: the line's next request is looked at. -/
def State.leaveReq (s : State) (home : Nat) (r : CatReq) : State :=
  if (s.dieOf home).current r.line = some r then (s.closeReq home r).startReq home r.line
  else s.setDie home ((s.dieOf home).dropReq r)

/-- A request of a die reaches the Catalogue of a line, where it stands once. -/
def State.enterReq (s : State) (die line : Nat) (who : ReqWho) : State :=
  let home := homeOfLine line
  let r : CatReq := { die := die, line := line, who := who, retries := 0, phase := .queued, split := false, awaiting := [], rts := 0, granted := false }
  let d := s.dieOf home
  if d.requests.any r.same then s
  else
    let idle := (d.current line).isNone
    let s := s.setDie home { d with requests := d.requests ++ [r] }
    if idle then s.startReq home line else s

/-- A store request of a die reaches the Catalogue of a line. -/
def State.requestStore (s : State) (die line : Nat) : State := s.enterReq die line .store

/-- An asker's requests for a line leave its Catalogue: performed, or given up. -/
def State.leaveLine (s : State) (who : Accessor) (line : Nat) : State :=
  let home := homeOfLine line
  ((s.dieOf home).requests.filter (fun r => decide (r.line = line) && decide (r.who = .access who))).foldl (fun s r => s.leaveReq home r) s

/-- How a store of a die stands at the Catalogue of a line: it may be performed now, its request having been served, or there being nothing to
ask for; its request was served, but the line has gone to a tenure's holder since; or it has to ask, or to wait. -/
inductive StoreTurn where
  | go (r : Option CatReq)
  | lost (r : CatReq)
  | ask
  deriving DecidableEq, Repr

/-- The turn of a store that a die's Annex performs as the owner, or that the home L2 performs (`die` = home) with no copy in an Annex (R40,
R42). The owner sends nothing to the home. A line that a tile entry handles is out of region tracking: its stores have their turn there (R54). -/
def State.storeTurn (s : State) (home die line : Nat) (tiled : Bool) : StoreTurn :=
  let d := s.dieOf home
  let mine := fun (r : CatReq) => decide (r.line = line) && decide (r.who = .store) && decide (r.die = die)
  let clear := if die = home then !(s.conflicts home line none) else decide (s.owner? home line = some die)
  if tiled then .go (d.requests.find? mine)
  else match (d.current line).filter mine with
    | some r => if clear then .go (some r) else if r.granted then .lost r else .ask
    | none => if clear && ((d.current line).isNone || decide (die ≠ home)) then .go none else .ask

/-- A store has been performed: the request that it made leaves the Catalogue. -/
def State.leaveStore (s : State) (home : Nat) (r : Option CatReq) : State :=
  match r with
  | some r => s.leaveReq home r
  | none => s

/-- A served request whose line has gone meanwhile is started again, as the line's current request. -/
def State.restartReq (s : State) (home : Nat) (r : CatReq) : State :=
  (s.setDie home ((s.dieOf home).putReq { r with granted := false })).startReq home r.line

/-- A line as every observer of the current coherence order would find it: its home's bytes, an owner's dirty bytes. -/
def State.lineNow (s : State) (line : Nat) : LineData :=
  match s.owner? (homeOfLine line) line with
  | some e =>
    (match Table.find (s.dieOf e).annex line with
      | some a => mergeLine (s.homeLine line) a.data a.dirty
      | none => s.homeLine line)
  | none => s.homeLine line

/-- Bytes of memory as `lineNow` gives them, little-endian. -/
def State.bytesNow (s : State) (pa : Nat) : Nat → Nat
  | 0 => 0
  | n + 1 => LineData.read (s.lineNow (pa / 128)) (pa % 128) 1 + 256 * s.bytesNow (pa + 1) n

/-! ## Tenure as an access meets it (R53 to R57, R87) -/

def Tile.hasLine (t : Tile) (line : Nat) : Bool :=
  t.footprint.any (fun r => decide (r.1 < 128 * line + 128) && decide (128 * line < r.1 + r.2))

def Tile.heldBy (t : Tile) (core ctx : Nat) : Bool := t.holders.any (fun h => decide (h.core = core) && decide (h.ctx = ctx))
def Tile.writtenBy (t : Tile) (core ctx : Nat) : Bool :=
  t.holders.any (fun h => decide (h.core = core) && decide (h.ctx = ctx) && h.write)

/-- The tiles that handle a line: under tenure, being recalled, or with requests queued, and the line in the footprint. -/
def State.tenured (s : State) (line : Nat) : List (Nat × Tile) :=
  (s.dieOf (homeOfLine line)).tiles.filter (fun p =>
    (!p.2.holders.isEmpty || p.2.recalling || !p.2.queue.isEmpty) && p.2.hasLine line)

/-- A tile with no tenure left whose first queued request is this accessor's serves it (R57, R58). -/
def Tile.serves (t : Tile) (who : Accessor) : Bool :=
  t.holders.isEmpty && !t.recalling && decide (t.queue.head?.map (fun q => q.req) = some (.access who))

/-- Whether a core holds tenure on a line's footprint: none, read, or write (R52). -/
inductive Tenure where
  | none | read | write
  deriving DecidableEq, Repr

def State.tenureOf (s : State) (core ctx line : Nat) : Tenure :=
  let l := s.tenured line
  if l.any (fun p => p.2.writtenBy core ctx) then .write
  else if l.any (fun p => p.2.heldBy core ctx) then .read else .none

/-- Whether a request is queued at a tile entry. -/
def Tile.queued (t : Tile) (r : TileReq) : Bool := t.queue.any (fun q => decide (q.req = r))

/-- Queue a request at a tile entry once, in arrival order, and recall its holders (R57, R58). -/
def State.queueAtTile (s : State) (die index : Nat) (t : Tile) (r : TileReq) : State :=
  let d := s.dieOf die
  let s := if t.queued r then s.setDie die { d with tiles := Table.set d.tiles index t }
    else s.setDie die { d with arrivals := d.arrivals + 1, tiles := Table.set d.tiles index { t with queue := t.queue ++ [⟨d.arrivals, r⟩] } }
  if t.recalling then s
  else if t.holders.isEmpty then s.pushOnce (.tenureGrant die index)
  else s.pushOnce (.recall die index)

/-- An accessor's request leaves every queue of the tile entries and of the Catalogues: it has been served, or its accessor has gone on. -/
def State.unqueue (s : State) (who : Accessor) : State :=
  s.dies.foldl (fun s p =>
    let s := (p.2.requests.filter (fun r => decide (r.who = .access who))).foldl (fun s r => s.leaveReq p.1 r) s
    if p.2.tiles.any (fun q => q.2.queued (.access who)) then
      let s := s.pushAll ((p.2.tiles.filter (fun q => q.2.queued (.access who))).map (fun q => .tenureGrant p.1 q.1))
      let d := s.dieOf p.1
      s.setDie p.1 { d with tiles := d.tiles.map (fun (q : Nat × Tile) =>
        (q.1, { q.2 with queue := q.2.queue.filter (fun r => !(decide (r.req = .access who))) })) }
    else s) s

/-! ## What an access meets before it is performed -/

/-- Sectors of the host (R45): numbers 2 x line and 2 x line + 1. -/
def sectorOf (pa : Nat) : Nat := pa / 64

/-- A device store waits for sectors that the host holds: their release is asked for (R46). -/
def State.wantSectors (s : State) (l : List Nat) : State :=
  let s := { s with hostSectors := s.hostSectors.map (fun (p : Nat × HostSector) =>
    if l.contains p.1 then (p.1, { p.2 with wanted := true }) else p) }
  s.pushOnce .hostSectorRelease

/-- The sectors of a line that an access of host memory needs (R45): a cached load takes the whole line, any other access the sectors
that it touches. -/
def sectorsFor (pa n : Nat) (store uncached : Bool) : List Nat :=
  if store || uncached then [sectorOf pa, sectorOf (pa + n - 1)].eraseDups else [2 * lineOf pa, 2 * lineOf pa + 1]

/-- What an access of host memory still needs from the host (R33, R45): the agent asks for ownership of each sector that it does not own,
or, for an uncached load, for the sector's bytes. -/
def State.hostGate (s : State) (die pa n : Nat) (store reads uncached : Bool) : State × Bool :=
  let missing := (sectorsFor pa n store uncached).filter (fun x => !(s.hostHeld.contains x))
  let own := store || !uncached
  if missing.isEmpty || (uncached && store && !reads) then (s, true)
  else if !own && missing.all (fun x => s.hostReads.contains (x, die)) then
    ({ s with hostReads := missing.foldl (fun l x => removeFirst (fun p => decide (p = (x, die))) l) s.hostReads }, true)
  else
    let ask := (missing.filter (fun x => own || !(s.hostReads.contains (x, die)))).map (fun x => HostRequest.mk x die own)
    let fresh := ask.filter (fun r => !(s.hostRequests.contains r))
    ({ s with hostRequests := s.hostRequests ++ fresh }.pushAll (fresh.map (fun _ => .hostMemoryResponse)), false)

/-- The die that an access comes from: its core's, or the home for an accessor that has none. -/
def accessDie (core : Option Nat) (pa : Nat) : Nat :=
  match core with
  | some c => dieOfCore c
  | none => homeOf pa

/-- Whether a tile with no tenure left has no request but such as arrived after an access that another of the line's tiles serves, and so stands
no more in its way (R58). -/
def Tile.after (t : Tile) (l : List (Nat × Tile)) (who : Accessor) : Bool :=
  t.holders.isEmpty && !t.recalling && l.any (fun p => p.2.serves who && (match p.2.queue.head? with
    | some h => t.queue.all (fun q => decide (h.seq < q.seq))
    | none => false))

/-- Whether an access of one line meets no tenure of another core on the way (R57). If it does, it queues at the tile entry and the holders are
recalled; its request at the Catalogue goes, since the tile entry handles the line (R54). -/
def State.gateTile (s : State) (who : Accessor) (core : Option Nat) (ctx line : Nat) : State × Bool :=
  let others := (s.tenured line).filter (fun p => !(p.2.serves who) && !(p.2.after (s.tenured line) who) && (match core with
    | some c => !(p.2.heldBy c ctx)
    | none => true))
  match others with
  | p :: _ => ((s.leaveLine who line).queueAtTile (homeOfLine line) p.1 p.2 (.access who), false)
  | [] => (s, true)

/-- Whether the host stands in the way of an access no more: a store waits for a sector that the host owns (R46), an access of host memory for
the host's answer (R33). -/
def State.gateHost (s : State) (die pa n : Nat) (store reads uncached : Bool) : State × Bool :=
  let sectors := [sectorOf pa, sectorOf (pa + n - 1)].filter (fun x => (Table.find s.hostSectors x).isSome)
  if store && !sectors.isEmpty then (s.wantSectors sectors, false)
  else if isHost pa then s.hostGate die pa n store reads uncached else (s, true)

/-- Whether an access of one line can be performed now. If not, what it waits for has been set going: a recall (R57), its turn among the
requests of its line (R42), which the tile entry handles while it is under tenure (R54), a host-owned sector (R46) or the host's answer (R33). `core` is the core that tenure belongs to, if the
accessor has one; `reads` says that the line's data are needed. -/
def State.gate (s : State) (who : Accessor) (core : Option Nat) (ctx pa n : Nat) (store reads uncached : Bool) : State × Bool :=
  let line := lineOf pa
  match s.gateTile who core ctx line with
  | (s, false) => (s, false)
  | (s, true) =>
    let turn := !(s.tenured line).isEmpty || (match (s.dieOf (homeOfLine line)).current line with
      | some r => decide (r.who = .access who)
      | none => true)
    if !turn then (s.enterReq (accessDie core pa) line (.access who), false)
    else
      match s.gateHost (accessDie core pa) pa n store reads uncached with
      | (s, false) => (s, false)
      | (s, true) => (s.leaveLine who line, true)

/-! ## Performing at the point of coherence (R83) -/

/-- Cache policies (R26, R72). -/
def polStreaming : Nat := 1
def polUncached : Nat := 2

/-- A line of the core's L1 that a load may hit (R83, R87). -/
def State.l1Hit (s : State) (core line : Nat) : Option L1Line :=
  let k := s.coreOf core
  match Table.find k.l1 line with
  | some l => if l.kept || leT k.clock l.st.rts then some l else none
  | none => none

/-- Bring a line to a die's point of coherence and answer its data there. -/
def State.pocFetch (s : State) (die line : Nat) : State × LineData :=
  if homeOfLine line = die then
    let s := s.homeRead line
    (s, s.homeLine line)
  else
    let s := match Table.find (s.dieOf die).annex line with
      | some _ => s.fillSectors die line
      | none => s.annexRead die line
    match Table.find (s.dieOf die).annex line with
    | some a => (s, a.data)
    | none => (s, s.homeLine line)

/-- The renewal of R83 at a die's point of coherence: data and the stamps after rts is raised. -/
def State.renew (s : State) (core line lease : Nat) : State × LineData × Stamp :=
  let die := dieOfCore core
  let (s, d) := s.pocFetch die line
  let st := s.stampAt die line
  let st := { st with rts := maxT st.rts ((s.coreOf core).clock + BitVec.ofNat 16 lease) }
  (s.setStamp die line st, d, st)

/-- Put a line in a core's L1. -/
def State.setL1 (s : State) (core line : Nat) (l : L1Line) : State :=
  let k := s.coreOf core
  s.setCore core { k with l1 := Table.set k.l1 line l }
def State.dropL1 (s : State) (core line : Nat) : State :=
  let k := s.coreOf core
  s.setCore core { k with l1 := Table.erase k.l1 line }

/-- The clock rule of a load (R83, and R302 for a replicated line). -/
def State.loadClock (s : State) (core : Nat) (st : Stamp) (repl : Bool) : State :=
  s.jumpTo core (if repl then maxT st.wts st.origin else st.wts)

/-- The timestamp of a store at a die's point of coherence (R83, R41), and the state after any wait of the lead limit, which does not hold
for the hub (log entry 64). -/
def State.storeTime (s : State) (core : Option Nat) (die line : Nat) : State × BitVec 16 :=
  let r := (s.stampAt die line).rts + 1
  let ts := match core with
    | some c => maxT (s.coreOf c).clock r
    | none => r
  (if die = hub then s else s.awaitLead die ts 16, ts)

/-- A semaphore that threads wait on is looked at again after a write to it (R252). -/
def State.lookSems (s : State) (pa n : Nat) : State :=
  s.semWaits.foldl (fun (s : State) w => if w.pa < pa + n ∧ pa < w.pa + 8 then s.pushOnce (.semwRelease w.pa) else s) s

/-- Write bytes of one line at a die's point of coherence: memory for its own lines, else its Annex, kept dirty (R24). -/
def State.pocWrite (s : State) (die pa n v : Nat) : State :=
  let line := lineOf pa
  let s := s.lookSems pa n
  let s := { s with poison := clearPoison s.poison pa n }
  if homeOfLine line = die then { s with mem := Memory.write s.mem pa n v }
  else
    let d := s.dieOf die
    match Table.find d.annex line with
    | none => s
    | some a =>
      let a' := { a with data := LineData.write a.data (pa % 128) n v, dirty := a.dirty ||| byteMask (pa % 128) n }
      s.setDie die { d with annex := Table.set d.annex line a' }

/-- The line as a die's point of coherence holds it. -/
def State.pocLine (s : State) (die line : Nat) : LineData :=
  if homeOfLine line = die then s.homeLine line
  else match Table.find (s.dieOf die).annex line with
    | some a => a.data
    | none => s.homeLine line

/-- The stamps, the reference and the writer's jump after a store at a point of coherence (R83, R88). -/
def State.stamped (s : State) (core : Option Nat) (die line : Nat) (ts origin : BitVec 16) : State :=
  let s := s.setStamp die line ⟨ts, ts, origin⟩
  let s := s.setDie die ((s.dieOf die).note ts)
  match core with
  | some c => s.jumpTo c ts
  | none => s

/-- A store at a die's point of coherence, ownership arranged (R83): the L1 copy of the writer becomes the whole line. -/
def State.storeAt (s : State) (core : Option Nat) (die pa n v : Nat) (l1 : Bool) : State :=
  let line := lineOf pa
  let (s, ts) := s.storeTime core die line
  let o := (s.stampAt die line).origin
  let s := (s.pocWrite die pa n v).stamped core die line ts o
  match core, l1 with
  | some c, true =>
    (match Table.find (s.coreOf c).l1 line with
      | some l => s.setL1 c line { l with data := s.pocLine die line, st := ⟨ts, ts, o⟩ }
      | none => s)
  | _, _ => s

/-- The holder's dirty bytes of a line are written back: a store at the point of coherence of its die (R55). -/
def State.writeBackL1 (s : State) (core line : Nat) : State :=
  match Table.find (s.coreOf core).l1 line with
  | none => s
  | some l =>
    if l.dirty = 0 then s
    else
      let home := homeOfLine line
      let die := dieOfCore core
      let s := if home = die then s.homeTake line else s.takeOwnership die line
      let (s, ts) := s.storeTime (some core) die line
      let s := (List.range 128).foldl (fun s i =>
        if l.dirty.getLsbD i then s.pocWrite die (128 * line + i) 1 (LineData.read l.data i 1) else s) s
      let s := s.stamped (some core) die line ts (s.stampAt die line).origin
      s.setL1 core line { l with data := s.pocLine die line, st := ⟨ts, ts, l.st.origin⟩, dirty := 0 }

/-- How many sets of 16 ways a core's L1 has: 128 x l1 KiB of 128-byte lines (R79). -/
def Core.l1Sets (k : Core) : Nat := 64 * Nat.max k.l1cfg 1

/-- The lines of the L1 that lie in the set of a line. Which set a line lies in is not given: free (R79, log entry 27). -/
def Core.l1Mates (k : Core) (line : Nat) : Table L1Line :=
  k.l1.filter (fun p => decide (Config.l1Set p.1 % k.l1Sets = Config.l1Set line % k.l1Sets))

/-- The line of a full set that gives way: one of a streaming page first, else any; which one is free (R26, R79). -/
def Core.victim (k : Core) (line choice : Nat) : Option Nat :=
  let mates := k.l1Mates line
  let first := mates.filter (fun p => p.2.streaming)
  let l := if first.isEmpty then mates else first
  (l[Config.l1Victim choice % l.length]?).map (fun p => p.1)

/-- A line enters a core's L1. A full set evicts one line: a dirty one is written back, a clean one goes silently (R55, R79). -/
def State.installL1 (s : State) (core line : Nat) (l : L1Line) : State :=
  let k := s.coreOf core
  if (Table.find k.l1 line).isSome || decide (k.l1.length < 16) || decide ((k.l1Mates line).length < 16) then s.setL1 core line l
  else match k.victim line s.free with
    | none => s.setL1 core line l
    | some v => (((s.tick.writeBackL1 core v).dropL1 core v).setL1 core line l)

/-- The L1 of a core takes the size that a launch gives it: of a set that holds more than 16 lines, some are evicted (R79). -/
def State.resizeL1 (s : State) (core n : Nat) : State :=
  let k := s.coreOf core
  let s := s.setCore core { k with l1cfg := n }
  if k.l1cfg = n then s
  else (k.l1.map (fun p => p.1)).foldl (fun s line =>
    let k := s.coreOf core
    if (k.l1Mates line).length ≤ 16 then s
    else match k.victim line s.free with
      | none => s
      | some v => (s.tick.writeBackL1 core v).dropL1 core v) s

/-- A load of one line by a core, its gate passed (R83, R87, R302): the line's data. -/
def State.loadLine (s : State) (core ctx line lease policy : Nat) (repl : Bool) : State × LineData :=
  match s.l1Hit core line with
  | some l => (s.loadClock core l.st repl, l.data)
  | none =>
    let (s, d, st) := s.renew core line lease
    let s := s.installL1 core line { data := d, st := st, dirty := 0, kept := decide (s.tenureOf core ctx line ≠ .none),
                                     streaming := decide (policy = polStreaming) }
    (s.loadClock core st repl, d)

/-- A core that holds tenure on a line reaches it through an uncached mapping: its dirty bytes are written back first, and a store or an
atomic leaves no kept copy behind, which no lease would end (R28, R87; log entry 62). -/
def State.openTenured (s : State) (core ctx line : Nat) (write : Bool) : State :=
  if s.tenureOf core ctx line = .none then s
  else
    let s := s.writeBackL1 core line
    if write then s.dropL1 core line else s

/-- An uncached load: performed at the home's point of coherence, with no allocation (R28, R83, R302). -/
def State.loadUncached (s : State) (core ctx line : Nat) (repl : Bool) : State × LineData :=
  let s := (s.openTenured core ctx line false).homeRead line
  (s.loadClock core (s.stampAt (homeOfLine line) line) repl, s.homeLine line)

/-- A store under write tenure: it stays dirty in the holder's L1, without a timestamp (R55, R87). A copy whose lease has ended is
renewed first. -/
def State.storeTenured (s : State) (core ctx pa n v lease : Nat) : State :=
  let line := lineOf pa
  let s := match s.l1Hit core line with
    | some _ => s
    | none => (s.loadLine core ctx line lease 0 false).1
  let s := { s.lookSems pa n with poison := clearPoison s.poison pa n }
  match Table.find (s.coreOf core).l1 line with
  | none => s
  | some l =>
    let l' : L1Line :=
      { l with data := LineData.write l.data (pa % 128) n v, dirty := l.dirty ||| byteMask (pa % 128) n, kept := true }
    s.setL1 core line l'

/-- The next request identifier of a core (R372). -/
def State.takeId (s : State) (core : Nat) : State × BitVec 10 :=
  let k := s.coreOf core
  (s.setCore core { k with reqNext := k.reqNext + 1 }, k.reqNext)

/-- A home keeps, for each source core, the identifiers and results of its last 1,024 completed requests (R372). -/
def State.noteRequest (s : State) (home core : Nat) (id : BitVec 10) (result : Nat) : State :=
  let here := fun (r : ReqRecord) => decide (r.home = home) && decide (r.core = core)
  let mine := s.reqRecords.filter here
  { s with reqRecords := s.reqRecords.filter (fun r => !(here r)) ++
    (mine ++ [ReqRecord.mk home core id (word result)]).drop (mine.length - 1023) }

/-- A request that is performed as it issues: it takes its identifier and its home records it (R372). -/
def State.requested (s : State) (home core result : Nat) : State :=
  let (s, id) := s.takeId core
  s.noteRequest home core id result

/-- A store of one line, its gate passed, performed whole: at the home for an uncached page and for a home-die accessor,
else in the Annex of the core's die after it has taken ownership (R26, R40). -/
def State.storeNow (s : State) (core : Option Nat) (ctx policy pa n v lease : Nat) : State :=
  let line := lineOf pa
  let home := homeOfLine line
  match core with
  | none => ((s.homeTake line).storeAt none home pa n v false).allocate line false true
  | some c =>
    if policy = polUncached then
      ((((s.openTenured c ctx line true).homeTake line).storeAt core home pa n v false).allocate line false true).requested home c 0
    else if s.tenureOf c ctx line = .write then s.storeTenured c ctx pa n v lease
    else if home = dieOfCore c then (((s.homeTake line).storeAt core home pa n v true).allocate line true true).requested home c 0
    else ((s.takeOwnership (dieOfCore c) line).storeAt core (dieOfCore c) pa n v true).requested home c 0

/-! ## The end of a tenure (R54, R56) -/

/-- The lines of a tile that a core's L1 holds. -/
def State.l1Lines (s : State) (core : Nat) (t : Tile) : List Nat :=
  ((s.coreOf core).l1.filter (fun p => t.hasLine p.1)).map (fun p => p.1)

/-- A core's dirty lines of a tile are written back (R56). -/
def State.writeBackTile (s : State) (core : Nat) (t : Tile) : State :=
  (s.l1Lines core t).foldl (fun s line => s.writeBackL1 core line) s

/-- An L1 copy of a line outside any tenure of its core: one kept under read tenure is dropped (R56); one of a write
holder takes an ordinary lease of clock + lease (R54, R87) from its die's point of coherence, and goes if that no longer holds the line. A
copy that was never kept has its own lease. -/
def State.releaseL1 (s : State) (core ctx lease : Nat) (write : Bool) (line : Nat) : State :=
  if s.tenureOf core ctx line ≠ .none then s
  else
    match Table.find (s.coreOf core).l1 line with
    | none => s
    | some l =>
      let die := dieOfCore core
      let known := decide (homeOfLine line = die) || (Table.find (s.dieOf die).annex line).isSome
      if !l.kept then s
      else if write && known then
        let rts := (s.coreOf core).clock + BitVec.ofNat 16 lease
        let s := s.foldRts die line (some rts)
        s.setL1 core line { l with st := { l.st with rts := rts }, kept := false }
      else s.dropL1 core line

/-- The lines of a footprint. -/
def Tile.lines (t : Tile) : List Nat :=
  (t.footprint.flatMap (fun r =>
    (List.range ((r.1 + r.2 + 127) / 128 - r.1 / 128)).map (fun i => r.1 / 128 + i))).eraseDups

/-- A line of a holder off the home die returns to region tracking: its die is a sharer in state S (R54). -/
def State.returnLine (s : State) (die line : Nat) : State :=
  let home := homeOfLine line
  if home = die then s
  else
    let r := (s.dieOf home).entry line s.fabric
    match r.state with
    | .o =>
      if r.sharers = [die] then (s.writeBackEntry die r).setEntry home line .s [die] else s
    | _ => s.setEntry home line .s (addDie r.sharers die)

end Sys2Proof.Machine
end

