-- ==== Sys2Proof/Machine/Device.lean ====
section
/-!
DEFINITION. Device control space (R16, R428): mailboxes (R402, R427), capture units (R399, R400), and the doorbell that
starts a firmware command (R405).
-/
namespace Sys2Proof.Machine

/-! ## Mailboxes (R402) -/

def Mailbox.ready (m : Mailbox) : Bool := bit m.status 63
def Mailbox.busy (m : Mailbox) : Bool := bit m.status 32
/-- A command or response word. -/
def Mailbox.w (m : Mailbox) (n : Nat) : Word := Table.getD m.cmd n 0
def Mailbox.r (m : Mailbox) (n : Nat) : Word := Table.getD m.resp n 0
def Mailbox.code (m : Mailbox) : Nat := bits (m.w 0) 7 0
def Mailbox.ctx (m : Mailbox) : Nat := bits (m.w 0) 31 16

def wordByte (w : Word) (i : Nat) : Nat := (w.toNat >>> (8 * i)) % 256
def putWordByte (w : Word) (i v : Nat) : Word := word (spliceBytes w.toNat i 1 v)

/-- The event that a command is (R405, R406). A function or selector the tables do not list is answered by UNKNOWN_COMMAND. -/
def Mailbox.event (m : Mailbox) : Instr :=
  let w1 := (m.w 1).toNat
  match m.code with
  | 0x01 => .createCtx
  | 0x02 => .destroyCtx
  | 0x03 => if w1 % 256 = 1 then .mapEdition else .mapPage
  | 0x04 => .unmap
  | 0x05 => .loadSegment
  | 0x06 => .launchCommand
  | 0x07 => .saveCtx
  | 0x08 => .restoreCtx
  | 0x09 => .faultReplay
  | 0x0A => .faultCancel
  | 0x0B => .dropChannel
  | 0x0C =>
    (match w1 with
      | 0 => .setPolicyBoundsEntry
      | 1 => .setPolicyVectors
      | 2 => .setPolicySignalBox
      | 3 => .setPolicyQuietInterval
      | 4 => .setPolicyCodePublication
      | 5 => .setPolicyLaunchQueue
      | 6 => .setPolicyKeySlot
      | 7 => .setPolicyErrorWindow
      | 8 => .setPolicyPeerBase
      | _ => .unknownCommand)
  | 0x0D =>
    (match w1 with
      | 0 => .queryRevision
      | 1 => .queryFeatures
      | 2 => .queryCapacity
      | 3 => .queryFailureRecord
      | 4 => .queryFailingUnits
      | 5 => .queryIdentityKeyHash
      | 6 => .queryImageSize
      | _ => .unknownCommand)
  | 0x0E => .attest
  | 0x0F => .mediaReset
  | _ => .unknownCommand

/-- A doorbell written (R402, R403, R427, R412): ignored before ready; while busy ignored, with overrun; else the command
starts. -/
def State.ring (s : State) (n : Nat) (seq : Nat) (fromHost : Bool) : State :=
  let m := s.mailboxOf n
  if !m.ready then s
  else if m.busy then { s with overruns := s.overruns ++ [n] }.push .doorbellOverrun
  else
    let m := { m with doorbell := word (seq % 2 ^ 32), fromHost := fromHost, status := m.status ||| 0x100000000 }
    { s.setMailbox n m with doorbells := s.doorbells ++ [n] }.push m.event

/-- One byte of a mailbox (R402, R428). -/
def Mailbox.byte (m : Mailbox) (off : Nat) : Nat :=
  if off < 8 then wordByte m.doorbell off
  else if off < 16 then wordByte m.status (off - 8)
  else if 0x40 ≤ off ∧ off < 0x80 then wordByte (m.w ((off - 0x40) / 8)) (off % 8)
  else if 0x80 ≤ off ∧ off < 0xC0 then wordByte (m.r ((off - 0x80) / 8)) (off % 8)
  else 0

/-- Write the command slot; a write while busy is discarded (R402). -/
def Mailbox.putByte (m : Mailbox) (off v : Nat) : Mailbox :=
  if 0x40 ≤ off ∧ off < 0x80 ∧ !m.busy then
    let i := (off - 0x40) / 8
    { m with cmd := Table.put m.cmd i (putWordByte (m.w i) (off % 8) v) 0 }
  else m

/-! ## Capture units (R399, R400) -/

def captureBase : Nat := 0x4000100000

def Die.unit (d : Die) (u : Nat) : Capture := Table.getD d.capture u Capture.init
def Die.setUnit (d : Die) (u : Nat) (c : Capture) : Die := { d with capture := Table.set d.capture u c }

def Capture.reg (c : Capture) (off : Nat) : Word :=
  if off = 0 then c.control
  else if off = 8 then c.min
  else if off = 16 then c.max
  else if off = 24 then c.samples
  else if 0x20 ≤ off ∧ off < 0x120 then Table.getD c.bins ((off - 0x20) / 8) 0
  else 0

/-- The clear of bit 9 (R399). -/
def Capture.clear (c : Capture) : Capture := { Capture.init with control := c.control }

/-- A write of the control register: reserved bits stay zero, bit 9 reads 0 (R399). -/
def Capture.setControl (c : Capture) (w : Word) : Capture :=
  let c' := { c with control := w &&& 0xFFFF01FF }
  if bit w 9 then c'.clear else c'

/-- One sample (R399). -/
def Capture.sample (c : Capture) (v : Nat) : Capture :=
  let b := Nat.min 31 (Nat.log2 v)
  { c with min := if v < c.min.toNat then word v else c.min, max := if c.max.toNat < v then word v else c.max,
           samples := c.samples + 1, bins := Table.set c.bins b (Table.getD c.bins b 0 + 1) }

/-- Whether a unit records a source for a context (R399, R400). -/
def Capture.records (c : Capture) (source ctx : Nat) : Bool :=
  bit c.control 8 && decide (bits c.control 7 0 = source) && decide (1 ≤ source) && decide (source ≤ 10) &&
    (decide (bits c.control 31 16 = 0xFFFF) || decide (bits c.control 31 16 = ctx))

/-- Whether a unit of a die records a source for a context. -/
def State.recording (s : State) (die source ctx : Nat) : Bool := (s.dieOf die).capture.any (fun p => p.2.records source ctx)

/-- Every unit of a die that records the source takes a sample (R399, R400). -/
def State.sampled (s : State) (die source value ctx : Nat) : State :=
  let d := s.dieOf die
  s.setDie die { d with capture := d.capture.map (fun p => if p.2.records source ctx then (p.1, p.2.sample value) else p) }

/-- A sample is on its way to the units of a die, if any records it (R400). -/
def State.observe (s : State) (die source value ctx : Nat) : State :=
  if s.recording die source ctx then s.push (.captureSample die source value ctx) else s

/-- Something that a capture unit times is over: its length, in arithmetic cycles or in fabric cycles, is a sample (R400). -/
def State.observeEnd (s : State) (k : Timed) (fabric : Bool) (die source : Nat) : State :=
  match s.begun k with
  | none => s
  | some t =>
    let n := if fabric then s.fabric - t * 2 / 3 else s.cycle - t
    (s.endTime k).observe die source n k.ctx

/-- What serves a load of a line that misses the L1 of a core (R14, R400): the Annex of its die; else its home's L2, which counts for a die
other than the home, if an access has allocated the line there; else the Stacks, if one has there; else GDDR7. Whether a cache has evicted the
line since is free (R21, R23). Host memory is served by none of them. -/
def State.servedBy (s : State) (core line : Nat) : Nat :=
  let die := dieOfCore core
  let home := homeOfLine line
  let c := Config.servedBy s.free
  if home ≠ die ∧ (Table.find (s.dieOf die).annex line).isSome then 2
  else if home = hub then 0
  else if (s.dieOf home).inL2.contains line ∧ c % 2 = 0 then (if home = die then 0 else 2)
  else if (s.dieOf home).inStacks.contains line ∧ c / 2 % 2 = 0 then 3
  else 4

/-- A load that misses the L1 gives its latency, which is free, to the units of its die that record it (R400; log entry 70). -/
def State.observeLoad (s : State) (core ctx line : Nat) : State :=
  let die := dieOfCore core
  if [1, 2, 3, 4].any (fun c => s.recording die c ctx) then
    let n := Config.latency s.free
    let c := s.servedBy core line
    let s := s.tick.observe die 1 n ctx
    if c = 0 then s else s.observe die c n ctx
  else s

/-! ## Reading and writing control space (R428) -/

/-- What occupies an address of control space: a mailbox and an offset, or a capture unit's die, number and offset. -/
inductive RegPlace where
  | mailbox (m off : Nat)
  | capture (die unit off : Nat)
  | nothing
  deriving DecidableEq, Repr

def regPlace (pa : Nat) : RegPlace :=
  let o := pa - 0x4000000000
  if o < 0x10000 then .mailbox (o / 0x1000) (o % 0x1000)
  else if 0x100000 ≤ o ∧ o < 0x180000 then
    let c := o - 0x100000
    .capture (c / 0x10000) (c % 0x10000 / 0x400) (c % 0x400)
  else .nothing

def State.regByte (s : State) (pa : Nat) : Nat :=
  match regPlace pa with
  | .mailbox m off => (s.mailboxOf m).byte off
  | .capture d u off => wordByte (((s.dieOf d).unit u).reg (off / 8 * 8)) (off % 8)
  | .nothing => 0

/-- n bytes of control space, little-endian. -/
def State.regRead (s : State) (pa : Nat) : Nat → Nat
  | 0 => 0
  | n + 1 => s.regByte pa + 256 * s.regRead (pa + 1) n

/-- Write n bytes into command slots and control registers. -/
def State.regBytes (s : State) (pa v : Nat) : Nat → State
  | 0 => s
  | n + 1 =>
    let s := match regPlace pa with
      | .mailbox m off => s.setMailbox m ((s.mailboxOf m).putByte off (v % 256))
      | .capture d u off =>
        if off < 8 then
          let k := s.dieOf d
          let c := k.unit u
          s.setDie d (k.setUnit u (c.setControl (putWordByte (c.control) off (v % 256))))
        else s
      | .nothing => s
    s.regBytes (pa + 1) (v / 256) n

/-- A write of control space: a doorbell rings when any of its bits 31:0 is written (R427). -/
def State.regWrite (s : State) (pa n v : Nat) (fromHost : Bool) : State :=
  match regPlace pa with
  | .mailbox m off =>
    if off < 4 then
      s.ring m (spliceBytes (s.mailboxOf m).doorbell.toNat off (Nat.min n (8 - off)) v) fromHost
    else s.regBytes pa v n
  | _ => s.regBytes pa v n

/-- REGISTER_WRITE: a device context's store to control space (R402, R428). -/
def execRegisterWrite (pa n v : Nat) (s : State) : Host.Outcome State Fault Refusal := .next (s.regWrite pa n v false)

/-- DOORBELL_OVERRUN: a doorbell rang while busy (R402): status bit 33 is set. -/
def execDoorbellOverrun (s : State) : Host.Outcome State Fault Refusal :=
  .next (match s.overruns with
    | [] => s
    | n :: rest =>
      let m := s.mailboxOf n
      { s with overruns := rest }.setMailbox n { m with status := m.status ||| 0x200000000 })

/-- CAPTURE_SAMPLE: every unit of the die that records the source takes the sample (R399, R400). -/
def execCaptureSample (die source value ctx : Nat) (s : State) : Host.Outcome State Fault Refusal :=
  .next (s.sampled die source value ctx)

/-- CAPTURE_CLEAR: bit 9 of a unit's control register written (R399). -/
def execCaptureClear (die unit : Nat) (s : State) : Host.Outcome State Fault Refusal :=
  let d := s.dieOf die
  .next (s.setDie die (d.setUnit unit (d.unit unit).clear))

end Sys2Proof.Machine
end

