-- ==== Sys2Proof/Machine/Flags.lean ====
section
/-!
DEFINITION. The arithmetic flags of astat and their traps (R139, R140), and the group status bits (R194).
-/
namespace Sys2Proof.Machine

/-- Flags raised by one instruction, in the positions of astat bits 5:0 (R139). -/
abbrev Flags := BitVec 6

def flagNX : Flags := 0x01
def flagUF : Flags := 0x02
def flagOF : Flags := 0x04
def flagDV : Flags := 0x08
def flagNV : Flags := 0x10
def flagDZ : Flags := 0x20

/-- The OR of the flags of a list. -/
def orFlags : List Flags → Flags
  | [] => 0
  | f :: l => f ||| orFlags l

/-- The raised flags that are enabled in bits 13:8 of astat (R139, R140). -/
def enabledFlags (astat : Word) (f : Flags) : Flags := f &&& BitVec.ofNat 6 (bits astat 13 8)

/-- The trap of R140, if an enabled flag was raised: 0x13 takes precedence over 0x14. For 0x14, bits 12:8 of tval hold
the enabled flags raised, and bits 5:0 hold `low` (R364). -/
def flagTrap (astat : Word) (f : Flags) (low : Nat) : Option Trap :=
  let en := enabledFlags astat f
  if en = 0 then none
  else if en &&& flagDZ ≠ 0 then some ⟨0x13, 0⟩
  else some ⟨0x14, word ((en &&& 0x1F).toNat * 256 + low)⟩

/-- Set flags in astat (R140). -/
def Thread.setFlags (t : Thread) (f : Flags) : Thread := { t with astat := t.astat ||| word f.toNat }

/-- A result that raises flags: written with them, or the trap that keeps only them (R140). `t0` is the thread before
the instruction, whose astat decides. -/
def finishFlags (t : Thread) (d : Dest) (w : Word) (f : Flags) : Except Raise Thread :=
  match flagTrap t.astat f 0 with
  | some tr => .error (tr, word f.toNat)
  | none => .ok ((t.put d w).setFlags f)

/-- The PRB and MSAT bits of gstat (R194). -/
def gstatPRB : Word := 1
def gstatMSAT : Word := 2

end Sys2Proof.Machine
end

