-- ==== Sys2Proof/Machine/Collective.lean ====
section
/-!
DEFINITION. Group issue and the shared rules of group-collective words (R225, R257, R284, R340).
-/
namespace Sys2Proof.Machine

/-- A thread that stands at a word and can issue it: live, not parked, not waiting. -/
def Thread.atWord (t : Thread) (pc : Word) : Bool := decide (t.status = .run) && decide (t.pc = pc)

/-- The lanes of a group whose threads are at a word (R340). -/
def Group.lanesAt (g : Group) (pc : Word) : List Nat :=
  g.threads.filterMap (fun p => if p.2.atWord pc then some p.1 else none)

/-- Whether a lane is present at the word of an issue and selected by its predicate (R340). Group issue has brought every thread of the
group at that word into the issue. -/
def Group.takesPart (g : Group) (i : Issue) (gd : Guard) (l : Nat) : Bool :=
  match Table.find g.threads l with
  | some t => i.lanes.contains l && t.atWord i.pc && t.selected gd
  | none => false

/-- The lowest lane that is absent, parked, not at the word or not selected (R340, R364 code 0x06). -/
def Group.firstAbsent (g : Group) (i : Issue) (gd : Guard) : Option Nat :=
  (List.range 32).find? (fun l => !(g.takesPart i gd l))

/-- Every thread of a group at the word takes one trap. -/
def State.trapPresent (s : State) (i : Issue) (tr : Trap) : State := s.runLanes i (fun e _ t => trapLane e t tr)

/-- Group issue (R340): with no present thread selected the word has no effect; with all 32 present and selected the
body runs; otherwise every present thread takes trap 0x06. -/
def State.collective (s : State) (i : Issue) (gd : Guard) (body : Env → State) : State :=
  match s.env? i with
  | none => s
  | some e =>
    if i.lanes.any (e.g.takesPart i gd) then
      match e.g.firstAbsent i gd with
      | none => body e
      | some l => s.trapPresent i ⟨0x06, word l⟩
    else s.runLanes i (fun _ _ t => ⟨t.advance, none⟩)

/-- A thread's part in a collective word: its lane, itself before the word, itself with the result written, and the
flags it raises. -/
structure Part where
  lane : Nat
  t0 : Thread
  t : Thread
  fl : Flags
  deriving DecidableEq, Repr

/-- Collect the operands of every thread. The trap of the lowest lane that fails is every thread's (R225, R257; log
entry 16). -/
def collectAll (e : Env) (d : Option Operand) (a b c : Option SrcSpec) : List (Nat × Thread) →
    Except Trap (List (Nat × Thread × Got))
  | [] => .ok []
  | (l, t) :: rest =>
    match collect e l t d a b c with
    | .error tr => .error tr
    | .ok g =>
      match collectAll e d a b c rest with
      | .error tr => .error tr
      | .ok gs => .ok ((l, t, g) :: gs)

/-- Whether a thread read a poisoned register: a trap of R365 step 6, after every check of the operands and of an access. -/
def anyPoisoned (gs : List (Nat × Thread × Got)) : Bool := gs.any (fun p => p.2.2.poisoned)

/-- What the thread in a lane collected. -/
def gotOf (gs : List (Nat × Thread × Got)) (l : Nat) : Option Got :=
  match gs.find? (fun p => decide (p.1 = l)) with
  | some p => some p.2.2
  | none => none
def gotA (gs : List (Nat × Thread × Got)) (l : Nat) : Word := match gotOf gs l with | some g => g.a | none => 0
def gotB (gs : List (Nat × Thread × Got)) (l : Nat) : Word := match gotOf gs l with | some g => g.b | none => 0
def gotC (gs : List (Nat × Thread × Got)) (l : Nat) : Word := match gotOf gs l with | some g => g.c | none => 0

/-- tval of trap 0x14 in a collective (R257, R364): bits 4:0 the lowest lane whose flags trap, bit 5 set in a thread
whose own flags do not, bits 12:8 the thread's enabled flags raised. -/
def collTval (low : Nat) (astat : Word) (fl : Flags) : Word :=
  let own := (enabledFlags astat fl &&& 0x1F).toNat
  word (low + (if (flagTrap astat fl 0).isSome then 0 else 32) + own * 256)

/-- Finish a collective word: if any thread's flags trap, every thread sets its own and takes trap 0x14 with nothing
written; otherwise every thread is written and goes on, and the group registers change (R257). -/
def State.collFinish (s : State) (i : Issue) (e : Env) (ps : List Part) (upd : Group → Group) : State :=
  match ps.find? (fun p => (flagTrap p.t0.astat p.fl 0).isSome) with
  | some low =>
    s.runLanes i (fun e l t =>
      let fl := match ps.find? (fun p => decide (p.lane = l)) with
        | some p => p.fl
        | none => 0
      trapLane e (t.setFlags fl) ⟨0x14, collTval low.lane t.astat fl⟩)
  | none =>
    s.setGroup i.group (upd { e.g with threads := ps.map (fun p => (p.lane, (p.t.setFlags p.fl).advance)) })

/-- A collective word over each thread's own operands: the body answers the result and flags per lane and the change of
the group registers, or the trap that every thread takes. -/
def collWord (gd : Guard) (d : Option Operand) (a b c : Option SrcSpec)
    (body : Env → List (Nat × Thread × Got) → Except Trap ((Nat → Word) × (Nat → Flags) × (Group → Group)))
    (s : State) : Host.Outcome State Fault Refusal :=
  issued s (fun i => s.collective i gd (fun e =>
    match collectAll e d a b c e.g.threads with
    | .error tr => s.trapPresent i tr
    | .ok gs =>
      match body e gs with
      | .error tr => s.trapPresent i (if anyPoisoned gs && tr.isResult then poisonTrap else tr)
      | .ok (w, fl, upd) =>
        if anyPoisoned gs then s.trapPresent i poisonTrap
        else s.collFinish i e (gs.map (fun p => ⟨p.1, p.2.1, p.2.2.t.put p.2.2.d (w p.1), fl p.1⟩)) upd))

/-- Poison marks of group registers (R388, R389): k is 0, c0 to c3 are 1 to 4, n0 to n3 are 5 to 8, the accumulator tiles
9 and 10, the row buffer 11, the banks 12 and 13. -/
def markK : Nat := 0
def markC (n : Fin 4) : Nat := 1 + n.val
def markN (n : Fin 4) : Nat := 5 + n.val
def markA (n : Nat) : Nat := 9 + n
def markRows : Nat := 11
def markBank (n : Nat) : Nat := 12 + n

/-- A collective that reads a poisoned group register (R389). -/
def unpoisoned {α : Type} (e : Env) (marks : List Nat) (x : Except Trap α) : Except Trap α :=
  if marks.any e.g.poisoned.contains then .error poisonTrap else x

end Sys2Proof.Machine
end

