-- ==== Sys2Proof/Machine/FloatFmt.lean ====
section
/-!
DEFINITION. Float formats: values, exact dyadic arithmetic and the rounding of R141 to R148. A finite value is
sign x m x 2^e with m a natural number and e an integer, exactly.
-/
namespace Sys2Proof.Machine

/-- A value of a format. -/
inductive FV where
  | nan (signalling : Bool)
  | inf (neg : Bool)
  | fin (neg : Bool) (m : Nat) (e : Int)
  deriving DecidableEq, Repr

/-- Fraction bits m of a format (R141, R144). -/
def fracBits : FType → Nat
  | .f64 => 52 | .f32 => 23 | .f16 => 10 | .b16 => 7 | .f8 => 3 | .f6 => 2 | .f4 => 1

/-- Exponent bias (R141, R144). -/
def bias : FType → Nat
  | .f64 => 1023 | .f32 => 127 | .f16 => 15 | .b16 => 127 | .f8 => 8 | .f6 => 3 | .f4 => 1

/-- F8, F6 and F4 (R144). -/
def isNarrow : FType → Bool
  | .f8 | .f6 | .f4 => true
  | _ => false

/-- The magnitude bits of a code: all but the sign. -/
def magBits (t : FType) : Nat := t.width - 1

/-- The exponent field with all bits one. -/
def expMax (t : FType) : Nat := 2 ^ (magBits t - fracBits t) - 1

/-- The canonical NaN, or the narrow NaN code (R141, R144). -/
def nanCode (t : FType) : Nat :=
  if isNarrow t then 2 ^ magBits t else expMax t * 2 ^ fracBits t + 2 ^ (fracBits t - 1)

/-- Decode a code (R141, R144, R145). -/
def decodeF (t : FType) (c : Nat) : FV :=
  let m := fracBits t
  let neg := c.testBit (magBits t)
  let mag := c % 2 ^ magBits t
  let e := mag / 2 ^ m
  let f := mag % 2 ^ m
  if isNarrow t then
    if mag = 0 then (if neg then .nan false else .fin false 0 0)
    else .fin neg (2 ^ m + f) ((e : Int) - bias t - m)
  else if e = expMax t then
    if f = 0 then .inf neg else .nan (!(f.testBit (m - 1)))
  else if e = 0 then .fin neg f (1 - (bias t : Int) - m)
  else .fin neg (2 ^ m + f) ((e : Int) - bias t - m)

/-- The code with a sign and magnitude bits. -/
def signCode (t : FType) (neg : Bool) (mag : Nat) : Nat := (if neg then 2 ^ magBits t else 0) + mag

/-- Zero of a sign; the narrow formats have one zero (R145). -/
def zeroCode (t : FType) (neg : Bool) : Nat := if isNarrow t then 0 else signCode t neg 0

/-- Infinity, or for a narrow format the largest magnitude (R148). -/
def largestMag (t : FType) : Nat := if isNarrow t then 2 ^ magBits t - 1 else expMax t * 2 ^ fracBits t - 1
def infCode (t : FType) (neg : Bool) : Nat := signCode t neg (if isNarrow t then largestMag t else expMax t * 2 ^ fracBits t)

/-- Whether a magnitude rounds up, given its quotient, remainder and the divisor 2^sh (R142). -/
def roundsUp (r : Rnd) (neg : Bool) (q rem sh : Nat) : Bool :=
  match r with
  | .rn => decide (2 * rem > 2 ^ sh) || (decide (2 * rem = 2 ^ sh) && decide (q % 2 = 1))
  | .rz => false
  | .rd => neg && decide (rem ≠ 0)
  | .ru => !neg && decide (rem ≠ 0)

/-- m x 2^e rounded to a multiple of 2^u: the multiple, and whether it is inexact. -/
def roundAt (r : Rnd) (neg : Bool) (m : Nat) (e u : Int) : Nat × Bool :=
  if u ≤ e then (m * 2 ^ (e - u).toNat, false)
  else
    let sh := (u - e).toNat
    let q := m / 2 ^ sh
    let rem := m % 2 ^ sh
    (q + (if roundsUp r neg q rem sh then 1 else 0), decide (rem ≠ 0))

/-- The exponent of the leading bit of m x 2^e, for m not 0. -/
def leadExp (m : Nat) (e : Int) : Int := e + Nat.log2 m

/-- Whether m x 2^e ≤ n x 2^f. -/
def leDyadic (m : Nat) (e : Int) (n : Nat) (f : Int) : Bool :=
  if e ≤ f then decide (m ≤ n * 2 ^ (f - e).toNat) else decide (m * 2 ^ (e - f).toNat ≤ n)
def ltDyadic (m : Nat) (e : Int) (n : Nat) (f : Int) : Bool := !(leDyadic n f m e)

/-- Round a non-zero finite value into an IEEE format or B16 (R142). -/
def roundIeee (t : FType) (r : Rnd) (neg : Bool) (m : Nat) (e : Int) : Nat × Flags :=
  let fb := fracBits t
  let umin : Int := 1 - (bias t : Int) - fb
  let free := leadExp m e - fb
  let u := max free umin
  let (q, inexact) := roundAt r neg m e u
  let mag := (u - umin).toNat * 2 ^ fb + q
  if mag ≥ expMax t * 2 ^ fb then
    let toInf := match r with
      | .rn => true
      | .rz => false
      | .rd => neg
      | .ru => !neg
    (if toInf then infCode t neg else signCode t neg (largestMag t), flagOF ||| flagNX)
  else
    let (qf, _) := roundAt r neg m e free
    let tiny := ltDyadic qf free 1 (1 - (bias t : Int))
    (signCode t neg mag, (if inexact then flagNX else 0) ||| (if tiny && inexact then flagUF else 0))

/-- Round a non-zero finite value into a narrow format (R148). -/
def roundNarrow (t : FType) (r : Rnd) (neg : Bool) (m : Nat) (e : Int) : Nat × Flags :=
  let fb := fracBits t
  let umin : Int := -(bias t : Int) - fb
  let large := largestMag t
  if ltDyadic (2 ^ fb + large % 2 ^ fb) ((large / 2 ^ fb : Nat) + umin) m e then
    (signCode t neg large, flagOF ||| flagNX)
  else if ltDyadic m e (2 ^ fb + 1) umin then
    let up := match r with
      | .rn => ltDyadic (2 ^ fb + 1) (umin - 1) m e
      | .rz => false
      | .rd => neg
      | .ru => !neg
    (if up then signCode t neg 1 else 0, flagUF ||| flagNX)
  else
    let u := max (leadExp m e - fb) umin
    let (q, inexact) := roundAt r neg m e u
    (signCode t neg ((u - umin).toNat * 2 ^ fb + q - 2 ^ fb), if inexact then flagNX else 0)

/-- Round a finite value into a format; a zero keeps the sign given (R142, R145, R148). -/
def roundF (t : FType) (r : Rnd) (neg : Bool) (m : Nat) (e : Int) : Nat × Flags :=
  if m = 0 then (zeroCode t neg, 0)
  else if isNarrow t then roundNarrow t r neg m e else roundIeee t r neg m e

/-- A result: a NaN with its flags, an infinity (which saturates in a narrow format, R148), or a finite value. -/
def finishF (t : FType) (r : Rnd) (v : FV) (fl : Flags) : Nat × Flags :=
  match v with
  | .nan _ => (nanCode t, fl)
  | .inf neg => (infCode t neg, fl ||| (if isNarrow t then flagOF ||| flagNX else 0))
  | .fin neg m e =>
    let (c, f) := roundF t r neg m e
    (c, f ||| fl)

/-! ## Exact values -/

/-- Signed numerator over 2^-e. -/
def signedM (neg : Bool) (m : Nat) : Int := if neg then -(m : Int) else m

/-- A finite value from a signed numerator; `zneg` is the sign of an exact zero. -/
def ofSigned (n : Int) (e : Int) (zneg : Bool) : FV :=
  if n = 0 then .fin zneg 0 0 else .fin (decide (n < 0)) n.natAbs e

/-- The sum of two finite values, exactly: the numerator and the exponent. -/
def addExact (n1 : Int) (e1 : Int) (n2 : Int) (e2 : Int) : Int × Int :=
  let e := min e1 e2
  (n1 * 2 ^ (e1 - e).toNat + n2 * 2 ^ (e2 - e).toNat, e)

/-- NV for a signalling NaN (R143). -/
def sigNV : FV → Flags
  | .nan true => flagNV
  | _ => 0

def isNan : FV → Bool
  | .nan _ => true
  | _ => false

def negF : FV → FV
  | .nan s => .nan s
  | .inf n => .inf (!n)
  | .fin n m e => .fin (!n) m e

/-- A + B (R259): an exact zero sum of two zeros of one sign keeps it, any other is +0, or -0 under rd. -/
def addF (r : Rnd) (a b : FV) : FV × Flags :=
  let fl := sigNV a ||| sigNV b
  match a, b with
  | .nan _, _ | _, .nan _ => (.nan false, fl)
  | .inf n1, .inf n2 => if n1 = n2 then (.inf n1, fl) else (.nan false, flagNV)
  | .inf n, .fin _ _ _ => (.inf n, fl)
  | .fin _ _ _, .inf n => (.inf n, fl)
  | .fin n1 m1 e1, .fin n2 m2 e2 =>
    let (n, e) := addExact (signedM n1 m1) e1 (signedM n2 m2) e2
    let zneg := if m1 = 0 ∧ m2 = 0 ∧ n1 = n2 then n1 else decide (r = .rd)
    (ofSigned n e zneg, fl)

/-- A x B (R143, R259). -/
def mulF (a b : FV) : FV × Flags :=
  let fl := sigNV a ||| sigNV b
  match a, b with
  | .nan _, _ | _, .nan _ => (.nan false, fl)
  | .inf n1, .inf n2 => (.inf (xor n1 n2), fl)
  | .inf n1, .fin n2 m2 _ => if m2 = 0 then (.nan false, flagNV) else (.inf (xor n1 n2), fl)
  | .fin n1 m1 _, .inf n2 => if m1 = 0 then (.nan false, flagNV) else (.inf (xor n1 n2), fl)
  | .fin n1 m1 e1, .fin n2 m2 e2 => (.fin (xor n1 n2) (m1 * m2) (e1 + e2), fl)

/-- A x B + C with the invalid product taking precedence over a NaN in C (R143, R259). -/
def fmaF (r : Rnd) (a b c : FV) : FV × Flags :=
  let (p, fl) := mulF a b
  let invalid := !(isNan a) && !(isNan b) && isNan p
  if invalid then (.nan false, flagNV ||| sigNV c)
  else
    let (v, f2) := addF r p c
    (v, fl ||| f2)

/-- The quotient of two finite non-zero magnitudes, to more bits than any format has, with a last bit that stands for
the rest: m1 x 2^e1 / (m2 x 2^e2). -/
def divMag (m1 : Nat) (e1 : Int) (m2 : Nat) (e2 : Int) : Nat × Int :=
  let k := 58 + Nat.log2 m2
  let q := m1 * 2 ^ k / m2
  let rest := m1 * 2 ^ k % m2
  (2 * q + (if rest = 0 then 0 else 1), e1 - e2 - k - 1)

/-- A ÷ B (R143, R259). -/
def divF (a b : FV) : FV × Flags :=
  let fl := sigNV a ||| sigNV b
  match a, b with
  | .nan _, _ | _, .nan _ => (.nan false, fl)
  | .inf _, .inf _ => (.nan false, flagNV)
  | .inf n1, .fin n2 _ _ => (.inf (xor n1 n2), fl)
  | .fin n1 _ _, .inf n2 => (.fin (xor n1 n2) 0 0, fl)
  | .fin n1 m1 e1, .fin n2 m2 e2 =>
    if m2 = 0 then (if m1 = 0 then (.nan false, flagNV) else (.inf (xor n1 n2), flagDV))
    else if m1 = 0 then (.fin (xor n1 n2) 0 0, fl)
    else
      let (m, e) := divMag m1 e1 m2 e2
      (.fin (xor n1 n2) m e, fl)

/-- The integer square root, bit by bit: the largest r with r^2 ≤ n, for r below 2^fuel. -/
def isqrtGo (n : Nat) : Nat → Nat → Nat
  | 0, r => r
  | k + 1, r => let r' := r + 2 ^ k; isqrtGo n k (if r' * r' ≤ n then r' else r)
def isqrt (n : Nat) : Nat := isqrtGo n (Nat.log2 n / 2 + 1) 0

/-- The square root of m x 2^e, m not 0, with a last bit that stands for the rest. -/
def sqrtMag (m : Nat) (e : Int) : Nat × Int :=
  let odd := e % 2 = 1
  let m' := if odd then 2 * m else m
  let e' := if odd then e - 1 else e
  let n := m' * 2 ^ 120
  let r := isqrt n
  (2 * r + (if r * r = n then 0 else 1), e' / 2 - 60 - 1)

/-- The reciprocal square root of m x 2^e, m not 0, with a last bit that stands for the rest. -/
def rsqrtMag (m : Nat) (e : Int) : Nat × Int :=
  let odd := e % 2 = 1
  let m' := if odd then 2 * m else m
  let e' := if odd then e - 1 else e
  let k := 60 + Nat.log2 m'
  let r := isqrt (2 ^ (2 * k) / m')
  (2 * r + (if r * r * m' = 2 ^ (2 * k) then 0 else 1), -(e' / 2) - k - 1)

/-- Order of two values that are not NaN, with -0 below +0 (R260). -/
def ltTotal (a b : FV) : Bool :=
  match a, b with
  | .inf n1, .inf n2 => n1 && !n2
  | .inf n, _ => n
  | _, .inf n => !n
  | .fin n1 m1 e1, .fin n2 m2 e2 =>
    if m1 = 0 ∧ m2 = 0 then n1 && !n2
    else
      let (d, _) := addExact (signedM n1 m1) e1 (-(signedM n2 m2)) e2
      decide (d < 0)
  | _, _ => false

/-- Numeric equality: the two zeros compare equal (R261). -/
def eqNum (a b : FV) : Bool :=
  match a, b with
  | .inf n1, .inf n2 => n1 = n2
  | .fin n1 m1 e1, .fin n2 m2 e2 => decide ((addExact (signedM n1 m1) e1 (-(signedM n2 m2)) e2).1 = 0)
  | _, _ => false
/-- Numeric order (R261). -/
def ltNum (a b : FV) : Bool := ltTotal a b && !(eqNum a b)

/-- Round a finite value to an integer: the magnitude, and whether it is inexact. -/
def roundInt (r : Rnd) (neg : Bool) (m : Nat) (e : Int) : Nat × Bool := roundAt r neg m e 0

/-! ## E8 scales (R151) -/

/-- x scaled by codes, exactly. -/
def scaleF (x : FV) (codes : List Nat) : FV × Flags :=
  let special := match x with
    | .fin _ _ _ => false
    | _ => true
  if codes.any (fun c => decide (c = 255)) || (special && codes.any (fun c => decide (c = 0))) then (.nan false, flagNV)
  else
    match x with
    | .nan s => (.nan false, if s then flagNV else 0)
    | .inf n => (.inf n, 0)
    | .fin n m e =>
      if codes.any (fun c => decide (c = 0)) then (.fin n 0 0, 0)
      else (.fin n m (codes.foldl (fun (a : Int) (c : Nat) => a + ((c : Int) - 127)) e), 0)

/-- An integer scaled by codes: a code 0 gives +0 (R151). -/
def scaleI (x : Int) (codes : List Nat) : FV × Flags :=
  match scaleF (ofSigned x 0 false) codes with
  | (.fin _ 0 e, fl) => (.fin false 0 e, fl)
  | y => y

end Sys2Proof.Machine
end

