-- ==== Sys2Proof/Machine/FloatFn.lean ====
section
/-!
DEFINITION. The special functions of R262, each the exact value rounded once. FSQRT, FRCP and FRSQ are exact integer
computations. FEXP2, FLOG2, FSIN, FCOS and FTANH take values that are irrational except at the arguments listed, so a
lower and an upper bound in integers scaled by 2^P settle the rounding once they round alike; P grows until they do.
-/
namespace Sys2Proof.Machine

/-! ## Fixed-point bounds -/

/-- A value scaled by 2^P with its error bound in the same unit. -/
structure Approx where
  v : Int
  err : Nat
  deriving DecidableEq, Repr

/-- ln 2 x 2^p: the series of 1 / (k 2^k), each term rounded down. -/
def ln2Go (p : Nat) : Nat → Nat → Nat
  | 0, _ => 0
  | n + 1, k => 2 ^ p / (k * 2 ^ k) + ln2Go p n (k + 1)
def ln2 (p : Nat) : Approx := ⟨ln2Go p (p + 4) 1, p + 8⟩

/-- arctan (1/n) x 2^p by its alternating series; the term is (1/n)^(2k+1) x 2^p. -/
def atanInvGo (n : Nat) : Nat → Nat → Nat → Bool → Int
  | 0, _, _, _ => 0
  | f + 1, term, k, neg =>
    let d : Int := (term / (2 * k + 1) : Nat)
    (if neg then -d else d) + atanInvGo n f (term / (n * n)) (k + 1) (!neg)
def atanInv (p n : Nat) : Int := atanInvGo n (p / 4 + 4) (2 ^ p / n) 0 false
/-- π x 2^p by Machin's formula. -/
def piApprox (p : Nat) : Approx := ⟨16 * atanInv p 5 - 4 * atanInv p 239, 40 * (p + 8)⟩

/-- exp x for 0 ≤ x < 1, scaled by 2^p: the Taylor series. -/
def expGo (p : Nat) (x : Int) : Nat → Int → Nat → Int
  | 0, _, _ => 0
  | f + 1, term, k => term + expGo p x f (term * x / 2 ^ p / (k : Int)) (k + 1)
def expTerms (p : Nat) : Nat := p / 2 + 8
def expApprox (p : Nat) (x : Approx) : Approx := ⟨expGo p x.v (expTerms p) (2 ^ p) 1, 4 * x.err + 4 * expTerms p⟩

/-- Σ z^(2k+1) / (2k+1) (atanh) for 0 ≤ z ≤ 1/3, scaled by 2^p. -/
def atanhGo (p : Nat) (z2 : Nat) : Nat → Nat → Nat → Nat
  | 0, _, _ => 0
  | f + 1, term, k => term / (2 * k + 1) + atanhGo p z2 f (term * z2 / 2 ^ p) (k + 1)
/-- ln y for y = m / 2^l in [1, 2), scaled by 2^p. -/
def lnApprox (p m l : Nat) : Approx :=
  let z := (m - 2 ^ l) * 2 ^ p / (m + 2 ^ l)
  ⟨2 * (atanhGo p (z * z / 2 ^ p) (p / 3 + 4) z 0 : Nat), 8 * (p + 8)⟩

/-- sin and cos of |r| ≤ 1, scaled by 2^p: the Taylor series with alternating sign. -/
def trigGo (p : Nat) (r2 : Int) : Nat → Int → Nat → Int
  | 0, _, _ => 0
  | f + 1, term, k => term + trigGo p r2 f (-(term * r2 / 2 ^ p / ((k + 1 : Int) * (k + 2)))) (k + 2)
def sinApprox (p : Nat) (r : Approx) : Approx :=
  ⟨trigGo p (r.v * r.v / 2 ^ p) (p / 4 + 8) r.v 1, 4 * r.err + 4 * p + 64⟩
def cosApprox (p : Nat) (r : Approx) : Approx :=
  ⟨trigGo p (r.v * r.v / 2 ^ p) (p / 4 + 8) (2 ^ p) 0, 4 * r.err + 4 * p + 64⟩

/-- m x 2^e scaled by 2^p, rounded down. -/
def scaleTo (p m : Nat) (e : Int) : Nat × Bool :=
  let k := e + p
  if 0 ≤ k then (m * 2 ^ k.toNat, true) else (m / 2 ^ (-k).toNat, decide (m % 2 ^ (-k).toNat = 0))

/-! ## Rounding a bound -/

/-- Round v x 2^e, where v stands strictly between two representable values' midpoints as far as its error allows. -/
def roundSigned (t : FType) (r : Rnd) (v : Int) (e : Int) : Nat × Flags :=
  roundF t r (decide (v < 0)) (2 * v.natAbs + 1) (e - 1)

/-- Round a bracketed value at growing precision; the last precision decides in any case. `f` gives the bounds at
precision p as (v, err) with value v x 2^(sh - p). -/
def zivGo (t : FType) (r : Rnd) (f : Nat → Approx) (sh : Int) : List Nat → Nat × Flags
  | [] => (nanCode t, 0)
  | p :: rest =>
    let a := f p
    let lo := roundSigned t r (a.v - a.err) (sh - p)
    let hi := roundSigned t r (a.v + a.err) (sh - p)
    if lo = hi then lo
    else match rest with
      | [] => roundSigned t r a.v (sh - p)
      | _ => zivGo t r f sh rest
def ziv (t : FType) (r : Rnd) (f : Nat → Approx) (sh : Int) : Nat × Flags := zivGo t r f sh [128, 256, 512, 1024]

/-- A value just above or just below a dyadic in magnitude: it differs from it by less than 2^-60 of it. -/
def nudge (up : Bool) (m : Nat) (e : Int) : Nat × Int := ((if up then m * 2 ^ 60 + 1 else m * 2 ^ 60 - 1), e - 60)

/-! ## The functions (R262) -/

def fsqrt (t : FType) (r : Rnd) (x : FV) : Nat × Flags :=
  match x with
  | .nan s => (nanCode t, if s then flagNV else 0)
  | .inf n => if n then (nanCode t, flagNV) else (infCode t false, 0)
  | .fin n m e =>
    if m = 0 then (zeroCode t n, 0)
    else if n then (nanCode t, flagNV)
    else let (m', e') := sqrtMag m e; roundF t r false m' e'

def frcp (t : FType) (r : Rnd) (x : FV) : Nat × Flags :=
  let (v, fl) := divF (.fin false 1 0) x
  finishF t r v fl

def frsq (t : FType) (r : Rnd) (x : FV) : Nat × Flags :=
  match x with
  | .nan s => (nanCode t, if s then flagNV else 0)
  | .inf n => if n then (nanCode t, flagNV) else (zeroCode t false, 0)
  | .fin n m e =>
    if m = 0 then (infCode t n, flagDV)
    else if n then (nanCode t, flagNV)
    else let (m', e') := rsqrtMag m e; roundF t r false m' e'

/-- 2^x. Integers are exact; beyond the range of every format the result overflows or underflows. -/
def fexp2 (t : FType) (r : Rnd) (x : FV) : Nat × Flags :=
  match x with
  | .nan s => (nanCode t, if s then flagNV else 0)
  | .inf n => if n then (zeroCode t false, 0) else (infCode t false, 0)
  | .fin n m e =>
    if m = 0 then roundF t r false 1 0
    else if leadExp m e < -40 then let (m', e') := nudge (!n) 1 0; roundF t r false m' e'
    else if 12 < leadExp m e then (if n then roundF t r false 1 (-4096) else roundF t r false 1 4096)
    else if 0 ≤ e ∨ m % 2 ^ (-e).toNat = 0 then
      let k : Int := if 0 ≤ e then m * 2 ^ e.toNat else (m / 2 ^ (-e).toNat : Nat)
      roundF t r false 1 (if n then -k else k)
    else
      let x' := signedM n m
      let fl := x' / 2 ^ (-e).toNat
      let fr := x' % 2 ^ (-e).toNat
      ziv t r (fun p => let l := ln2 p; expApprox p ⟨fr * l.v / 2 ^ (-e).toNat, l.err + 1⟩) fl

/-- log2 x: exact for a power of two. -/
def flog2 (t : FType) (r : Rnd) (x : FV) : Nat × Flags :=
  match x with
  | .nan s => (nanCode t, if s then flagNV else 0)
  | .inf n => if n then (nanCode t, flagNV) else (infCode t false, 0)
  | .fin n m e =>
    if m = 0 then (infCode t true, flagDV)
    else if n then (nanCode t, flagNV)
    else
      let l := Nat.log2 m
      let k := e + l
      if m = 2 ^ l then roundF t r (decide (k < 0)) k.natAbs 0
      else ziv t r (fun p =>
        let a := lnApprox p m l
        let b := ln2 p
        ⟨k * 2 ^ p + a.v * 2 ^ p / b.v, 4 * (a.err + b.err) + 8⟩) 0

/-- The quadrant and the remainder in [-π/4, π/4] of m x 2^e, scaled by 2^p. -/
def reduceAngle (p m : Nat) (e : Int) : Nat × Approx :=
  let pp := p + 160
  let pi := piApprox pp
  let (x, _) := scaleTo pp m e
  let q := (2 * (x : Int) * 2 + pi.v) / (2 * pi.v)      -- nearest multiple of π/2
  let rem := 2 * (x : Int) - q * pi.v                     -- 2 x the remainder
  let err := q.natAbs * pi.err + 2
  ((q % 4).toNat, ⟨rem / 2 ^ (161 : Nat), err / 2 ^ (161 : Nat) + 2⟩)

def trigVal (p : Nat) (cosine : Bool) (neg : Bool) (m : Nat) (e : Int) : Approx :=
  let (q, r) := reduceAngle p m e
  let q := if cosine then (q + 1) % 4 else q
  let a := if q % 2 = 0 then sinApprox p r else cosApprox p r
  let a := if 2 ≤ q then ⟨-a.v, a.err⟩ else a
  if neg && !cosine then ⟨-a.v, a.err⟩ else a

def fsin (t : FType) (r : Rnd) (x : FV) : Nat × Flags :=
  match x with
  | .nan s => (nanCode t, if s then flagNV else 0)
  | .inf _ => (nanCode t, flagNV)
  | .fin n m e =>
    if m = 0 then (zeroCode t n, 0)
    else if leadExp m e < -40 then let (m', e') := nudge false m e; roundF t r n m' e'
    else ziv t r (fun p => trigVal p false n m e) 0

def fcos (t : FType) (r : Rnd) (x : FV) : Nat × Flags :=
  match x with
  | .nan s => (nanCode t, if s then flagNV else 0)
  | .inf _ => (nanCode t, flagNV)
  | .fin n m e =>
    if m = 0 then roundF t r false 1 0
    else if leadExp m e < -40 then let (m', e') := nudge false 1 0; roundF t r false m' e'
    else ziv t r (fun p => trigVal p true n m e) 0

/-- tanh |x| = 1 - 2 / (e^(2|x|) + 1), scaled by 2^p, for |x| < 64. -/
def tanhVal (p : Nat) (m : Nat) (e : Int) : Approx :=
  let l := ln2 (p + 16)
  let (x2, _) := scaleTo (p + 16) m (e + 1)
  let k := ((x2 : Int) / l.v).toNat
  let fr : Int := ((x2 : Int) - k * l.v) / 2 ^ (16 : Nat)
  let ex := expApprox p ⟨fr, 2 + (k * l.err) / 2 ^ (16 : Nat)⟩
  let big := ex.v * 2 ^ k                                 -- e^(2|x|), in units whose error is ex.err x 2^k
  ⟨2 ^ p * (big - 2 ^ p) / (big + 2 ^ p), 4 * ex.err + 4⟩

def ftanh (t : FType) (r : Rnd) (x : FV) : Nat × Flags :=
  match x with
  | .nan s => (nanCode t, if s then flagNV else 0)
  | .inf n => roundF t r n 1 0
  | .fin n m e =>
    if m = 0 then (zeroCode t n, 0)
    else if leadExp m e < -40 then let (m', e') := nudge false m e; roundF t r n m' e'
    else if 5 < leadExp m e then let (m', e') := nudge false 1 0; roundF t r n m' e'
    else ziv t r (fun p => let a := tanhVal p m e; if n then ⟨-a.v, a.err⟩ else a) 0

end Sys2Proof.Machine
end

