-- ==== Sys2Proof/Machine/Float.lean ====
section
/-!
DEFINITION. The FLT group's arithmetic and conversions (R256 to R270), QBP and DQBP.
-/
namespace Sys2Proof.Machine

/-- A typed result per sub-element with its flags. -/
def mapF (t : FType) (f : Nat → Nat × Flags) : Word × Flags :=
  let l := (List.range (subCount t.width)).map f
  (pack t.width (l.map (fun p => p.1)), orFlags (l.map (fun p => p.2)))

def fval (t : FType) (w : Word) (i : Nat) : FV := decodeF t (sub w t.width i)

/-- A word of one rounded operation per sub-element (R259). -/
def arithF1 (t : FType) (r : Rnd) (f : FV → FV × Flags) (a : Word) : Word × Flags :=
  mapF t (fun i => let (v, fl) := f (fval t a i); finishF t r v fl)
def arithF2 (t : FType) (r : Rnd) (f : FV → FV → FV × Flags) (a b : Word) : Word × Flags :=
  mapF t (fun i => let (v, fl) := f (fval t a i) (fval t b i); finishF t r v fl)
def arithF3 (t : FType) (r : Rnd) (f : FV → FV → FV → FV × Flags) (a b c : Word) : Word × Flags :=
  mapF t (fun i => let (v, fl) := f (fval t a i) (fval t b i) (fval t c i); finishF t r v fl)

/-! ## Words -/

def faddW (t : FType) (r : Rnd) (a b : Word) : Word × Flags := arithF2 t r (addF r) a b
def fsubW (t : FType) (r : Rnd) (a b : Word) : Word × Flags := arithF2 t r (fun x y => addF r x (negF y)) a b
def fmulW (t : FType) (r : Rnd) (a b : Word) : Word × Flags := arithF2 t r mulF a b

/-- FMIN or FMAX of two codes (R260): the selected operand's code unchanged. -/
def minmaxF (t : FType) (nanFn : Bool) (max : Bool) (ca cb : Nat) : Nat × Flags :=
  let a := decodeF t ca
  let b := decodeF t cb
  let fl := sigNV a ||| sigNV b
  if isNan a && isNan b then (nanCode t, fl)
  else if isNan a || isNan b then (if nanFn then nanCode t else if isNan a then cb else ca, fl)
  else (if xor (ltTotal b a) max then cb else ca, fl)
def fminW (t : FType) (nanFn : Bool) (a b : Word) : Word × Flags :=
  mapF t (fun i => minmaxF t nanFn false (sub a t.width i) (sub b t.width i))
def fmaxW (t : FType) (nanFn : Bool) (a b : Word) : Word × Flags :=
  mapF t (fun i => minmaxF t nanFn true (sub a t.width i) (sub b t.width i))

/-- A comparison of R261 with its flags. -/
def fcondHolds (c : FCond) (a b : FV) : Bool × Flags :=
  let un := isNan a || isNan b
  let sig := sigNV a ||| sigNV b
  let ordered := if un then flagNV else 0
  match c with
  | .eq => (eqNum a b, sig)
  | .ne => (un || !(eqNum a b), sig)
  | .un => (un, sig)
  | .lt => (!un && ltNum a b, ordered)
  | .le => (!un && !(ltNum b a), ordered)
  | .gt => (!un && ltNum b a, ordered)
  | .ge => (!un && !(ltNum a b), ordered)

/-- FRND of one code (R263). -/
def frndN (t : FType) (exact : Bool) (r : Rnd) (c : Nat) : Nat × Flags :=
  match decodeF t c with
  | .nan s => (nanCode t, if s then flagNV else 0)
  | .inf _ => (c, 0)
  | .fin n m e =>
    let (q, inexact) := roundInt r n m e
    ((roundF t .rn n q 0).1, if exact && inexact then flagNX else 0)

/-- FCLASS of one code (R264). -/
def fclassN (t : FType) (c : Nat) : Nat :=
  match decodeF t c with
  | .nan true => 0
  | .nan false => 1
  | .inf n => if n then 2 else 9
  | .fin n m _ =>
    if m = 0 then (if n then 5 else 6)
    else if !(isNarrow t) && (c % 2 ^ magBits t) / 2 ^ fracBits t = 0 then (if n then 4 else 7)
    else if n then 3 else 8

/-- FCVT of one code (R153, R265): the same format on both sides copies the value; a NaN gives the canonical NaN (R143), whose code is
the value that is copied. -/
def fcvtN (dst src : FType) (r : Rnd) (c : Nat) : Nat × Flags :=
  match decodeF src c with
  | .nan s => (nanCode dst, if s then flagNV else 0)
  | v => if dst = src then (c, 0) else finishF dst r v 0

/-- FTOI of one code (R153): rounded to an integer first, then judged against the range. -/
def ftoiN (dst : IType) (src : FType) (r : Rnd) (c : Nat) : Nat × Flags :=
  match decodeF src c with
  | .nan _ => (0, flagNV)
  | .inf n => (wrapTo (if n then lo else hi), flagNV)
  | .fin n m e =>
    let (q, inexact) := roundInt r n m e
    let v := signedM n q
    if v < lo then (wrapTo lo, flagNV)
    else if hi < v then (wrapTo hi, flagNV)
    else (wrapTo v, if inexact then flagNX else 0)
where
  lo : Int := if dst.signed then -(2 ^ (dst.width - 1)) else 0
  hi : Int := if dst.signed then 2 ^ (dst.width - 1) - 1 else 2 ^ dst.width - 1
  wrapTo (v : Int) : Nat := (v % 2 ^ dst.width).toNat

/-- ITOF of one integer (R153). -/
def itofN (dst : FType) (r : Rnd) (v : Int) : Nat × Flags := roundF dst r (decide (v < 0)) v.natAbs 0

/-- A conversion word (R265): sub-elements s + i of the source, zero where there is none. -/
def convW (wd ws : Nat) (start : Nat) (f : Nat → Nat × Flags) (a : Word) : Word × Flags :=
  let l := (List.range (subCount wd)).map (fun i =>
    if start + i < subCount ws then f (sub a ws (start + i)) else (0, 0))
  (pack wd (l.map (fun p => p.1)), orFlags (l.map (fun p => p.2)))

def byteOf (w : Word) (n : Nat) : Nat := sub w 8 n

/-- FSCALE (R266). -/
def fscaleW (t : FType) (r : Rnd) (a : Word) (code : Nat) : Word × Flags :=
  arithF1 t r (fun x => scaleF x [code]) a

/-! ## Dot products (R269, R270) -/

/-- The sub-elements of half j. -/
def halfRange (n j : Nat) : List Nat := (List.range (n / 2)).map (fun i => j * (n / 2) + i)

/-- One exact sum of terms rounded once to F32 (R269). -/
def dotSum (r : Rnd) (c : FV) (products : List (FV × Flags)) : Nat × Flags :=
  let terms := c :: products.map (fun p => p.1)
  let fl := orFlags (sigNV c :: products.map (fun p => p.2))
  let pos := terms.any (fun t => decide (t = .inf false))
  let neg := terms.any (fun t => decide (t = .inf true))
  if pos && neg then (nanCode .f32, fl ||| flagNV)
  else if terms.any isNan then (nanCode .f32, fl)
  else
    if pos then (infCode .f32 false, fl)
    else if neg then (infCode .f32 true, fl)
    else
      let sum := terms.foldl (fun (acc : Int × Int) t => match t with
        | .fin n m e => addExact acc.1 acc.2 (signedM n m) e
        | _ => acc) (0, 0)
      let allZero (sign : Bool) := terms.all (fun t => match t with
        | .fin n m _ => decide (m = 0) && decide (n = sign)
        | _ => false)
      let zneg := if allZero false then false else if allZero true then true else decide (r = .rd)
      finishF .f32 r (ofSigned sum.1 sum.2 zneg) fl

def fdot4W (t : FType) (r : Rnd) (a b c : Word) : Word × Flags :=
  mapF .f32 (fun j => dotSum r (fval .f32 c j)
    ((halfRange (subCount t.width) j).map (fun i => mulF (fval t a i) (fval t b i))))

/-- The 32-bit type that IDOT4 accumulates in (R270). -/
def idotAcc (t : IType) : IType := if t.signed then .i32 else .u32
def idot4W (t : IType) (sat : Bool) (a b c : Word) : Word :=
  mapSub 32 (fun j => wrapI (idotAcc t) sat
    ((halfRange (subCount t.width) j).foldl (fun acc i => acc + subI t a i * subI t b i) (subI (idotAcc t) c j)))
where
  wrapI (t : IType) (sat : Bool) (r : Int) : Nat :=
    ((if sat then (if t.signed then max (-(2 ^ 31)) (min (2 ^ 31 - 1) r) else max 0 (min (2 ^ 32 - 1) r)) else r) % 2 ^ 32).toNat

/-! ## Shapes -/

/-- A word whose result raises flags. -/
def laneFlags (d : Operand) (a b c : Option SrcSpec) (f : Got → Word × Flags) : LaneFn :=
  lane (some d) a b c (fun g => let (w, fl) := f g; finishFlags g.t g.d w fl)
def unF (o : Un FType) (f : Word → Word × Flags) (s : State) : Host.Outcome State Fault Refusal :=
  lanewise o.g (laneFlags o.d (srcA o.pat (.flt o.ty) o.a) none none (fun g => f g.a)) s
def binF (o : Bin FType) (f : Word → Word → Word × Flags) (s : State) : Host.Outcome State Fault Refusal :=
  lanewise o.g (laneFlags o.d (srcA o.pat (.flt o.ty) o.a) (srcB o.pat (.flt o.ty) o.b) none (fun g => f g.a g.b)) s
def terF (o : Ter FType) (f : Word → Word → Word → Word × Flags) (s : State) : Host.Outcome State Fault Refusal :=
  lanewise o.g (laneFlags o.d (srcA o.pat (.flt o.ty) o.a) (srcB o.pat (.flt o.ty) o.b) (srcN (.flt o.ty) o.c)
    (fun g => f g.a g.b g.c)) s

/-! ## Meanings -/

def execFadd (o : Bin FType) (r : Rnd) (s : State) := binF o (faddW o.ty r) s
def execFsub (o : Bin FType) (r : Rnd) (s : State) := binF o (fsubW o.ty r) s
def execFmul (o : Bin FType) (r : Rnd) (s : State) := binF o (fmulW o.ty r) s
def execFma (o : Ter FType) (r : Rnd) (s : State) := terF o (arithF3 o.ty r (fmaF r)) s
def execFmin (o : Bin FType) (nan : Bool) (s : State) := binF o (fminW o.ty nan) s
def execFmax (o : Bin FType) (nan : Bool) (s : State) := binF o (fmaxW o.ty nan) s
def execFcmp (g : Guard) (pat : Pat) (ty : FType) (pd : Fin 8) (a b : Src) (cond : FCond) (any : Bool) (s : State) :
    Host.Outcome State Fault Refusal :=
  lanewise g (lane none (srcA pat (.flt ty) a) (srcB pat (.flt ty) b) none (fun r =>
    let l := (List.range (subCount ty.width)).map (fun i => fcondHolds cond (fval ty r.a i) (fval ty r.b i))
    let fl := orFlags (l.map (fun p => p.2))
    let bs := l.map (fun p => p.1)
    match flagTrap r.t.astat fl 0 with
    | some tr => .error (tr, word fl.toNat)
    | none => .ok ((r.t.setP pd (if any then bs.any id else bs.all id)).setFlags fl))) s
def execFdiv (o : Bin FType) (r : Rnd) (s : State) := binF o (arithF2 o.ty r divF) s

/-- A special function on each sub-element. -/
def fnF (o : Un FType) (f : FV → Nat × Flags) (s : State) : Host.Outcome State Fault Refusal :=
  unF o (fun a => mapF o.ty (fun i => f (fval o.ty a i))) s
def execFsqrt (o : Un FType) (r : Rnd) (s : State) := fnF o (fsqrt o.ty r) s
def execFrcp (o : Un FType) (r : Rnd) (s : State) := fnF o (frcp o.ty r) s
def execFrsq (o : Un FType) (r : Rnd) (s : State) := fnF o (frsq o.ty r) s
def execFexp2 (o : Un FType) (r : Rnd) (s : State) := fnF o (fexp2 o.ty r) s
def execFlog2 (o : Un FType) (r : Rnd) (s : State) := fnF o (flog2 o.ty r) s
def execFsin (o : Un FType) (r : Rnd) (s : State) := fnF o (fsin o.ty r) s
def execFcos (o : Un FType) (r : Rnd) (s : State) := fnF o (fcos o.ty r) s
def execFtanh (o : Un FType) (r : Rnd) (s : State) := fnF o (ftanh o.ty r) s
def execFrnd (o : Un FType) (exact : Bool) (r : Rnd) (s : State) :=
  unF o (fun a => mapF o.ty (fun i => frndN o.ty exact r (sub a o.ty.width i))) s
def execFclass (o : Un FType) (s : State) :=
  unF o (fun a => (mapSub o.ty.width (fun i => fclassN o.ty (sub a o.ty.width i)), 0)) s

/-- The conversions read A in the source type, constants included; pattern 0xE reverses the sub-elements of the type field (R136, R176,
log entry 15). -/
def execFcvt (o : Un FType) (from_ : FType) (start : Fin 16) (r : Rnd) (s : State) : Host.Outcome State Fault Refusal :=
  lanewise o.g (laneFlags o.d (srcA o.pat (.fltFrom from_ o.ty.width) o.a) none none
    (fun g => convW o.ty.width from_.width start.val (fcvtN o.ty from_ r) g.a)) s
def execFtoi (o : Un IType) (from_ : FType) (start : Fin 16) (r : Rnd) (s : State) : Host.Outcome State Fault Refusal :=
  lanewise o.g (laneFlags o.d (srcA o.pat (.fltFrom from_ o.ty.width) o.a) none none
    (fun g => convW o.ty.width from_.width start.val (ftoiN o.ty from_ r) g.a)) s
def execItof (o : Un FType) (from_ : IType) (start : Fin 8) (r : Rnd) (s : State) : Host.Outcome State Fault Refusal :=
  lanewise o.g (laneFlags o.d (srcA o.pat (.intFrom from_ o.ty.width) o.a) none none
    (fun g => convW o.ty.width from_.width start.val
      (fun c => itofN o.ty r (if from_.signed then toSigned from_.width c else c)) g.a)) s

/-- FSCALE reads B whole: a byte of it is the scale (R152). DESIGN CHOICE (log entry 64): R116 names no such operand, and an inline constant as B is
the whole 64-bit value, of which byte sel is the scale. -/
def execFscale (o : Bin FType) (sel : Fin 8) (r : Rnd) (s : State) : Host.Outcome State Fault Refusal :=
  lanewise o.g (laneFlags o.d (srcA o.pat (.flt o.ty) o.a) (srcB o.pat (.cell o.ty.width) o.b) none
    (fun g => fscaleW o.ty r g.a (byteOf g.b sel.val))) s

def execFdot4 (o : Ter FType) (r : Rnd) (s : State) : Host.Outcome State Fault Refusal :=
  lanewise o.g (laneFlags o.d (srcA o.pat (.flt o.ty) o.a) (srcB o.pat (.flt o.ty) o.b) (srcN (.flt .f32) o.c)
    (fun g => fdot4W o.ty r g.a g.b g.c)) s
def execIdot4 (o : Ter IType) (sat : Bool) (s : State) : Host.Outcome State Fault Refusal :=
  lanewise o.g (lanePure o.d (srcA o.pat (.int o.ty) o.a) (srcB o.pat (.int o.ty) o.b) (srcN (.int (idotAcc o.ty)) o.c)
    (fun g => idot4W o.ty sat g.a g.b g.c)) s

/-! ## Bit-plane quantisation (R267, R268) -/

/-- Quantise one element with scale code c: the 8-bit two's-complement value and the flags. -/
def quantise (x : FV) (c : Nat) : Int × Flags :=
  if c = 0 ∨ c = 255 then (0, flagNV)
  else match x with
    | .nan _ => (0, flagNV)
    | .inf n => (if n then -128 else 127, flagOF ||| flagNX)
    | .fin n m e =>
      let (q, inexact) := roundInt .rn n m (e + (127 - (c : Int)))
      let v := signedM n q
      if v < -128 then (-128, flagOF ||| flagNX)
      else if 127 < v then (127, flagOF ||| flagNX)
      else (v, if inexact then flagNX else 0)

/-- The quantised elements of the group, by element number lane x n + i. -/
def quantAll (t : FType) (sel : Nat) (gs : List (Nat × Thread × Got)) : List (Int × Flags) :=
  let n := subCount t.width
  (List.range (32 * n)).map (fun e => quantise (fval t (gotA gs (e / n)) (e % n)) (byteOf (gotB gs (e / n)) sel))

/-- Bit p of an 8-bit two's-complement value. -/
def planeBit (v : Int) (p : Nat) : Nat := ((v % 256).toNat / 2 ^ p) % 2

/-- The plane block of plane p for elements 64 b to 64 b + 63 (R149). -/
def planeBlock (q : List (Int × Flags)) (p b : Nat) : Word :=
  pack 1 (((q.drop (64 * b)).take 64).map (fun x => planeBit x.1 p))

/-- QBP reads B whole: a byte of it is the scale, an inline constant included (log entry 64). -/
def execQbp (o : Bin FType) (planes : Fin 9) (sel : Fin 8) (s : State) : Host.Outcome State Fault Refusal :=
  collWord o.g (some o.d) (srcA o.pat (.flt o.ty) o.a) (srcB o.pat (.cell o.ty.width) o.b) none (fun _ gs =>
    let n := subCount o.ty.width
    let nb := n / 2
    let q := quantAll o.ty sel.val gs
    .ok (fun k => if k < planes.val * nb then planeBlock q (7 - k / nb) (k % nb) else 0,
      fun l => orFlags (((q.drop (l * n)).take n).map (fun x => x.2)), fun g => g)) s

/-- The element e of the first k planes of the group's words, times 2^(8 - k) (R150, R268). -/
def planeValue (word_ : Nat → Word) (nb k e : Nat) : Int :=
  let bits := (List.range k).map (fun j => sub (word_ (j * nb + e / 64)) 1 (e % 64))   -- plane 7 - j
  let raw := bits.foldl (fun acc b => 2 * acc + b) 0
  toSigned k raw * 2 ^ (8 - k)

/-- DQBP reads A, the plane words, and B, the scale, whole, inline constants included (log entry 64). -/
def execDqbp (o : Bin FType) (planes : Fin 9) (sel : Fin 8) (r : Rnd) (s : State) : Host.Outcome State Fault Refusal :=
  collWord o.g (some o.d) (srcA o.pat (.cell o.ty.width) o.a) (srcB o.pat (.cell o.ty.width) o.b) none (fun _ gs =>
    let n := subCount o.ty.width
    let res := fun l => mapF o.ty (fun i =>
      let x := planeValue (gotA gs) (n / 2) planes.val (l * n + i)
      let (v, fl) := scaleI x [byteOf (gotB gs l) sel.val]
      finishF o.ty r v fl)
    .ok (fun l => (res l).1, fun l => (res l).2, fun g => g)) s

end Sys2Proof.Machine
end

