-- ==== Sys2Proof/Machine/IntOps.lean ====
section
/-!
DEFINITION. The INT group of the F-form but PCHK, and the I-form instructions but LDO and STO (R196 to R210).
-/
namespace Sys2Proof.Machine

/-! ## Results per sub-element -/

/-- Clamp to the range of an integer type (R137). -/
def clampI (t : IType) (r : Int) : Int :=
  if t.signed then max (-(2 ^ (t.width - 1))) (min (2 ^ (t.width - 1) - 1) r) else max 0 (min (2 ^ t.width - 1) r)

/-- r mod 2^w, or r clamped where .sat is given (R198). -/
def wrapI (t : IType) (sat : Bool) (r : Int) : Nat := ((if sat then clampI t r else r) % 2 ^ t.width).toNat

/-- A word from an exact integer result per sub-element (R198). -/
def arith1 (t : IType) (sat : Bool) (f : Int → Int) (a : Word) : Word :=
  mapSub t.width (fun i => wrapI t sat (f (subI t a i)))
def arith2 (t : IType) (sat : Bool) (f : Int → Int → Int) (a b : Word) : Word :=
  mapSub t.width (fun i => wrapI t sat (f (subI t a i) (subI t b i)))
def arith3 (t : IType) (sat : Bool) (f : Int → Int → Int → Int) (a b c : Word) : Word :=
  mapSub t.width (fun i => wrapI t sat (f (subI t a i) (subI t b i) (subI t c i)))

/-- A word from the bits of each sub-element (R199). -/
def logic1 (t : IType) (f : Nat → Nat → Nat) (a : Word) : Word :=
  mapSub t.width (fun i => f t.width (sub a t.width i))
def logic2 (t : IType) (f : Nat → Nat → Nat → Nat) (a b : Word) : Word :=
  mapSub t.width (fun i => f t.width (sub a t.width i) (sub b t.width i))

/-- Quotient rounded toward zero with the cases of R138. -/
def divI (t : IType) (a b : Int) : Int :=
  if b = 0 then (if t.signed then -1 else 2 ^ t.width - 1) else a.tdiv b
/-- Remainder with the cases of R138. -/
def remI (t : IType) (a b : Int) : Int :=
  if b = 0 then a else if t.signed ∧ b = -1 then 0 else a.tmod b
/-- Whether a division case of R138 arises, which sets DZ. -/
def divCase (t : IType) (a b : Int) : Bool :=
  decide (b = 0) || (t.signed && decide (a = -(2 ^ (t.width - 1))) && decide (b = -1))
/-- DZ, if some sub-element meets a case of R138. -/
def divFlags (t : IType) (a b : Word) : Flags :=
  if (List.range (subCount t.width)).any (fun i => divCase t (subI t a i) (subI t b i)) then flagDZ else 0

def shlN (w a n : Nat) : Nat := if n ≥ w then 0 else (a <<< n) % 2 ^ w
def shrN (w a n : Nat) : Nat := if n ≥ w then 0 else a >>> n
/-- SAR fills with bit w - 1 under every type (R199). -/
def sarN (w a n : Nat) : Nat := ((toSigned w a / 2 ^ (min n w)) % 2 ^ w).toNat
def rotlN (w a n : Nat) : Nat := ((a <<< (n % w)) % 2 ^ w) ||| (a >>> (w - n % w))
/-- Number of leading zero bits of the low w bits. -/
def clzN : Nat → Nat → Nat
  | 0, _ => 0
  | w + 1, a => if a.testBit w then 0 else 1 + clzN w a
def popcN : Nat → Nat → Nat
  | 0, _ => 0
  | w + 1, a => (if a.testBit w then 1 else 0) + popcN w a
/-- Bit j of the result is bit w - 1 - j of a. -/
def brevN (w a : Nat) : Nat := packNat 1 ((List.range w).map (fun j => if a.testBit (w - 1 - j) then 1 else 0))

/-- A bit-field control (R200): position and clipped length. -/
def fieldOf (w ctrl : Nat) : Option (Nat × Nat) :=
  let pos := ctrl % 2 ^ (w / 2)
  let len := ctrl / 2 ^ (w / 2)
  if len = 0 ∨ pos ≥ w then none else some (pos, min len (w - pos))
def bfxN (t : IType) (a b : Nat) : Nat :=
  match fieldOf t.width b with
  | none => 0
  | some (pos, len) =>
    let f := (a >>> pos) % 2 ^ len
    if t.signed then (toSigned len f % 2 ^ t.width).toNat else f
def bfiN (w a b c : Nat) : Nat :=
  match fieldOf w c with
  | none => a
  | some (pos, len) => a % 2 ^ pos + (b % 2 ^ len) * 2 ^ pos + (a / 2 ^ (pos + len)) * 2 ^ (pos + len)

/-! ## Words -/

def addW (t : IType) (sat : Bool) (a b : Word) : Word := arith2 t sat (· + ·) a b
def subW (t : IType) (sat : Bool) (a b : Word) : Word := arith2 t sat (· - ·) a b
def mulW (t : IType) (sat : Bool) (a b : Word) : Word := arith2 t sat (· * ·) a b
def minW (t : IType) (a b : Word) : Word := arith2 t false min a b
def maxW (t : IType) (a b : Word) : Word := arith2 t false max a b
def absW (t : IType) (sat : Bool) (a : Word) : Word := arith1 t sat (fun x => if x < 0 then -x else x) a
def negW (t : IType) (sat : Bool) (a : Word) : Word := arith1 t sat (fun x => -x) a
def mulhiW (t : IType) (a b : Word) : Word := arith2 t false (fun x y => (x * y) / 2 ^ t.width) a b
def shlW (t : IType) (a b : Word) : Word := logic2 t shlN a b
def shrW (t : IType) (a b : Word) : Word := logic2 t shrN a b
def sarW (t : IType) (a b : Word) : Word := logic2 t sarN a b

/-- Comparison of R205. -/
def condHolds (c : Cond) (a b : Int) : Bool :=
  match c with
  | .eq => decide (a = b)
  | .ne => decide (a ≠ b)
  | .lt => decide (a < b)
  | .le => decide (a ≤ b)
  | .gt => decide (b < a)
  | .ge => decide (b ≤ a)

/-- All or any of the sub-elements (R205). -/
def combine (any : Bool) (l : List Bool) : Bool := if any then l.any id else l.all id

def cvtiSub (dst src : IType) (start : Nat) (sat : Bool) (a : Word) (i : Nat) : Nat :=
  if start + i < subCount src.width then wrapI dst sat (subI src a (start + i)) else 0

/-! ## Shapes -/

/-- A typed word of one source. -/
def unInt (o : Un IType) (f : Word → Word) (s : State) : Host.Outcome State Fault Refusal :=
  lanewise o.g (lanePure o.d (srcA o.pat (.int o.ty) o.a) none none (fun g => f g.a)) s

/-- A typed word of two sources. -/
def binInt (o : Bin IType) (f : Word → Word → Word) (s : State) : Host.Outcome State Fault Refusal :=
  lanewise o.g (lanePure o.d (srcA o.pat (.int o.ty) o.a) (srcB o.pat (.int o.ty) o.b) none (fun g => f g.a g.b)) s

/-- A typed word of three sources. -/
def terInt (o : Ter IType) (f : Word → Word → Word → Word) (s : State) : Host.Outcome State Fault Refusal :=
  lanewise o.g (lanePure o.d (srcA o.pat (.int o.ty) o.a) (srcB o.pat (.int o.ty) o.b) (srcN (.int o.ty) o.c)
    (fun g => f g.a g.b g.c)) s

/-! ## Integer arithmetic (R198) -/

def execAdd (o : Bin IType) (sat : Bool) (s : State) := binInt o (addW o.ty sat) s
def execSub (o : Bin IType) (sat : Bool) (s : State) := binInt o (subW o.ty sat) s
def execMul (o : Bin IType) (sat : Bool) (s : State) := binInt o (mulW o.ty sat) s
def execMulhi (o : Bin IType) (s : State) := binInt o (mulhiW o.ty) s
def execMad (o : Ter IType) (sat : Bool) (s : State) := terInt o (arith3 o.ty sat (fun a b c => a * b + c)) s

/-- DIV and REM set DZ and may trap (R138 to R140). -/
def execDiv (o : Bin IType) (s : State) : Host.Outcome State Fault Refusal :=
  lanewise o.g (lane (some o.d) (srcA o.pat (.int o.ty) o.a) (srcB o.pat (.int o.ty) o.b) none
    (fun g => finishFlags g.t g.d (arith2 o.ty false (divI o.ty) g.a g.b) (divFlags o.ty g.a g.b))) s
def execRem (o : Bin IType) (s : State) : Host.Outcome State Fault Refusal :=
  lanewise o.g (lane (some o.d) (srcA o.pat (.int o.ty) o.a) (srcB o.pat (.int o.ty) o.b) none
    (fun g => finishFlags g.t g.d (arith2 o.ty false (remI o.ty) g.a g.b) (divFlags o.ty g.a g.b))) s

def execMin (o : Bin IType) (s : State) := binInt o (minW o.ty) s
def execMax (o : Bin IType) (s : State) := binInt o (maxW o.ty) s
def execAbs (o : Un IType) (sat : Bool) (s : State) := unInt o (absW o.ty sat) s
def execNeg (o : Un IType) (sat : Bool) (s : State) := unInt o (negW o.ty sat) s

/-! ## Logic, shifts and bit fields (R199, R200) -/

def execAnd (o : Bin IType) (s : State) := binInt o (fun a b => a &&& b) s
def execOr (o : Bin IType) (s : State) := binInt o (fun a b => a ||| b) s
def execXor (o : Bin IType) (s : State) := binInt o (fun a b => a ^^^ b) s
def execAndn (o : Bin IType) (s : State) := binInt o (fun a b => a &&& ~~~b) s
def execNot (o : Un IType) (s : State) := unInt o (fun a => ~~~a) s
def execShl (o : Bin IType) (s : State) := binInt o (shlW o.ty) s
def execShr (o : Bin IType) (s : State) := binInt o (shrW o.ty) s
def execSar (o : Bin IType) (s : State) := binInt o (sarW o.ty) s
def execRotl (o : Bin IType) (s : State) := binInt o (logic2 o.ty rotlN) s
def execClz (o : Un IType) (s : State) := unInt o (logic1 o.ty clzN) s
def execPopc (o : Un IType) (s : State) := unInt o (logic1 o.ty popcN) s
def execBrev (o : Un IType) (s : State) := unInt o (logic1 o.ty brevN) s
def execBfx (o : Bin IType) (s : State) := binInt o (logic2 o.ty (fun _ a b => bfxN o.ty a b)) s
def execBfi (o : Ter IType) (s : State) :=
  terInt o (fun a b c => mapSub o.ty.width (fun i =>
    bfiN o.ty.width (sub a o.ty.width i) (sub b o.ty.width i) (sub c o.ty.width i))) s

/-! ## Selection, moves and conversion (R201, R202) -/

/-- SEL picks whole registers: dst := A if pq XOR negate is 1, otherwise B. -/
def execSel (o : Bin IType) (pq : Fin 8) (neg : Bool) (s : State) : Host.Outcome State Fault Refusal :=
  lanewise o.g (lanePure o.d (srcA o.pat (.int o.ty) o.a) (srcB o.pat (.int o.ty) o.b) none
    (fun g => if xor (g.t.pred pq) neg then g.a else g.b)) s
def execMov (o : Un IType) (s : State) := unInt o (fun a => a) s

/-- CVTI reads A under the source type, constants and pattern 0xE included (R116, R176; log entry 15). -/
def execCvti (o : Un IType) (from_ : IType) (start : Fin 8) (sat : Bool) (s : State) :
    Host.Outcome State Fault Refusal :=
  lanewise o.g (lanePure o.d (srcA o.pat (.intFrom from_ o.ty.width) o.a) none none
    (fun g => mapSub o.ty.width (cvtiSub o.ty from_ start.val sat g.a))) s

/-! ## Addresses and pointer tags (R203) -/

def leaW (a b : Word) (scale : Nat) : Word := ptrAdd a (b.toInt * 2 ^ scale)
def execLea (o : Bin Unit) (scale : Fin 8) (s : State) : Host.Outcome State Fault Refusal :=
  lanewise o.g (lanePure o.d (srcA o.pat .whole o.a) (srcB o.pat .whole o.b) none (fun g => leaW g.a g.b scale.val)) s
def execPtag (o : Bin Unit) (s : State) : Host.Outcome State Fault Refusal :=
  lanewise o.g (lanePure o.d (srcA o.pat .whole o.a) (srcB o.pat .whole o.b) none
    (fun g => ptr (bits g.b 9 0) (vaOf g.a))) s

/-! ## Comparing and predicates (R205, R206) -/

def cmpHolds (t : IType) (c : Cond) (any : Bool) (a b : Word) : Bool :=
  combine any ((List.range (subCount t.width)).map (fun i => condHolds c (subI t a i) (subI t b i)))
def execCmp (g : Guard) (pat : Pat) (ty : IType) (pd : Fin 8) (a b : Src) (cond : Cond) (any : Bool) (s : State) :
    Host.Outcome State Fault Refusal :=
  lanewise g (lane none (srcA pat (.int ty) a) (srcB pat (.int ty) b) none
    (fun r => .ok (r.t.setP pd (cmpHolds ty cond any r.a r.b)))) s

/-- A word that only changes predicates. -/
def predOp (g : Guard) (f : Thread → Thread) (s : State) : Host.Outcome State Fault Refusal :=
  lanewise g (lane none none none none (fun r => .ok (f r.t))) s
def execPand (g : Guard) (pd pa pb : Fin 8) (s : State) := predOp g (fun t => t.setP pd (t.pred pa && t.pred pb)) s
def execPor (g : Guard) (pd pa pb : Fin 8) (s : State) := predOp g (fun t => t.setP pd (t.pred pa || t.pred pb)) s
def execPxor (g : Guard) (pd pa pb : Fin 8) (s : State) := predOp g (fun t => t.setP pd (xor (t.pred pa) (t.pred pb))) s
def execPnot (g : Guard) (pd pa : Fin 8) (s : State) := predOp g (fun t => t.setP pd (!(t.pred pa))) s

/-- Bits 7:1 of a predicate word; bit 0 stands for p0 and is kept 0. -/
def predBits (p : BitVec 8) : Word := word (p &&& 0xFE).toNat
def execPmov (g : Guard) (arg : PmovArg) (s : State) : Host.Outcome State Fault Refusal :=
  match arg with
  | .copy pd pa => predOp g (fun t => t.setP pd (t.pred pa)) s
  | .get d => lanewise g (lanePure d none none none (fun r => predBits r.t.p)) s
  | .set a pat => lanewise g (lane none (srcP pat .whole a) none none
      (fun r => .ok { r.t with p := BitVec.ofNat 8 (bits r.a 7 0) &&& 0xFE })) s

/-! ## Index registers, queues and release (R207 to R209) -/

/-- An index register from an image (R124). -/
def indexOf (a : Word) : IndexReg :=
  ⟨BitVec.ofNat 7 (bits a 6 0), BitVec.ofNat 8 (bits a 23 16), BitVec.ofNat 16 (bits a 43 28), BitVec.ofNat 4 (bits a 27 24)⟩

/-- What is written to an index register, stepped once more where the source is v[xN+] of the same register: the step comes after the
instruction (R125, R207). -/
def stepAfter (a : Src) (x : Fin 8) (v : IndexReg) : IndexReg := if (stepOf (some a.op)).contains x.val then v.bump else v

/-- IXSET: trap 0x07 for the bound before trap 0x02 for reserved bits (R207, R365). -/
def ixsetTrap (w a : Word) : Option Trap :=
  if bits a 23 16 = 0 ∨ bits a 23 16 > 128 then some ⟨0x07, a⟩
  else if bits a 63 44 ≠ 0 ∨ bits a 15 7 ≠ 0 then some ⟨0x02, w⟩
  else none
def execIxset (g : Guard) (pat : LanePat) (x : Fin 8) (a : Src) (s : State) : Host.Outcome State Fault Refusal :=
  lanewise g (fun e l t => lane none (srcP pat .whole a) none none
    (fun r => match ixsetTrap e.word r.a with
      | some tr => .error (tr, 0)
      | none => .ok { r.t with x := Table.set r.t.x x.val (stepAfter a x (indexOf r.a)) }) e l t) s
def execIxcur (g : Guard) (pat : LanePat) (x : Fin 8) (a : Src) (add : Bool) (s : State) :
    Host.Outcome State Fault Refusal :=
  lanewise g (fun e l t => lane none (srcP pat .whole a) none none
    (fun r =>
      let old := t.xreg x.val
      let v := BitVec.ofNat 16 (bits r.a 15 0)
      .ok { r.t with x := Table.set r.t.x x.val (stepAfter a x { old with cursor := if add then old.cursor + v else v }) }) e l t) s
def execIxget (g : Guard) (d : Operand) (x : Fin 8) (s : State) : Host.Outcome State Fault Refusal :=
  lanewise g (fun e l t => lanePure d none none none (fun _ => (t.xreg x.val).image) e l t) s
def execQcfg (g : Guard) (q : Fin 8) (depth : Fin 17) (s : State) : Host.Outcome State Fault Refusal :=
  lanewise g (lane none none none none (fun r => .ok { r.t with
    q := Table.set r.t.q q.val ⟨depth.val, []⟩, poisoned := r.t.poisoned.filter (fun m => !(decide (m / 16 = 8 + q.val))) })) s
def execQocc (g : Guard) (d : Operand) (q : Fin 8) (s : State) : Host.Outcome State Fault Refusal :=
  lanewise g (fun e l t => lanePure d none none none (fun _ => word (t.queueOf q.val).entries.length) e l t) s
def execFree (g : Guard) (n : Fin 128) (count1 : Fin 128) (s : State) : Host.Outcome State Fault Refusal :=
  lanewise g (lane none none none none (fun r => .ok (r.t.freeRange n.val (count1.val + 1)))) s

/-! ## The I-form (R210) -/

def zext32 (i : BitVec 32) : Word := i.zeroExtend 64
def sext32 (i : BitVec 32) : Word := i.signExtend 64
def execMovi (g : Guard) (d : Operand) (z : Bool) (imm : BitVec 32) (s : State) : Host.Outcome State Fault Refusal :=
  lanewise g (lanePure d none none none (fun _ => if z then zext32 imm else sext32 imm)) s

/-- An I-form word of one source. -/
def immOp (o : Imm) (f : Word → Word) (s : State) : Host.Outcome State Fault Refusal :=
  lanewise o.g (lanePure o.d (srcO .whole o.a) none none (fun r => f r.a)) s
def execMovhi (o : Imm) (s : State) := immOp o (fun a => word (o.imm.toNat * 2 ^ 32 + bits a 31 0)) s
def execAddi (o : Imm) (sat : Bool) (s : State) := immOp o (fun a => addW .i64 sat a (sext32 o.imm)) s
def extImm (sx : Bool) (i : BitVec 32) : Word := if sx then sext32 i else zext32 i
def execAndi (o : Imm) (sx : Bool) (s : State) := immOp o (fun a => a &&& extImm sx o.imm) s
def execOri (o : Imm) (sx : Bool) (s : State) := immOp o (fun a => a ||| extImm sx o.imm) s
def execXori (o : Imm) (sx : Bool) (s : State) := immOp o (fun a => a ^^^ extImm sx o.imm) s
def cmpiHolds (c : Cond) (uns : Bool) (a : Word) (imm : BitVec 32) : Bool :=
  if uns then condHolds c a.toNat (zext32 imm).toNat else condHolds c a.toInt (sext32 imm).toInt
def execCmpi (g : Guard) (pd : Fin 8) (a : Operand) (cond : Cond) (uns : Bool) (imm : BitVec 32) (s : State) :
    Host.Outcome State Fault Refusal :=
  lanewise g (lane none (srcO .whole a) none none (fun r => .ok (r.t.setP pd (cmpiHolds cond uns r.a imm)))) s

end Sys2Proof.Machine
end

