-- ==== Sys2Proof/Machine/Scratch.lean ====
section
/-!
DEFINITION. The scratchpad, its banks and full/empty bits (R89 to R95), and LDS, STS, FEOP (R235, R236).
-/
namespace Sys2Proof.Machine

/-- Extend w bits as a load does: signed under i types (R228). -/
def extendLoad (t : IType) (v : Nat) : Word := if t.signed then wordI (toSigned t.width (v % 2 ^ t.width)) else word (v % 2 ^ t.width)

/-- The check of an access to a block's allocation: alignment, then the end of the allocation (R89, R66). -/
def spadCheck (b : Block) (off size align : Nat) : Option Nat :=
  if off % align ≠ 0 then some 0x0E else if b.scratch < off + size then some 0x0A else none

/-- The bank of a granule (R90). -/
def bankOf (off : Nat) : Nat := (off / 16) % 64

/-- The lowest poisoned 8-byte word of a scratchpad range (R389). -/
def Block.poisonIn (b : Block) (off n : Nat) : Option Nat :=
  (b.spadPoison.filter (fun w => decide (8 * w < off + n) && decide (off < 8 * w + 8))).min?

/-- Write bytes of a block's allocation. -/
def Block.write (b : Block) (off size v : Nat) : Block :=
  { b with spad := Memory.write b.spad off size v, spadPoison := clearPoison b.spadPoison off size }
def Block.setFull (b : Block) (granule : Nat) (on : Bool) : Block :=
  { b with full := if on then insertNat granule b.full else b.full.filter (fun g => g ≠ granule) }

/-- The block of a group. -/
def State.blockOf (s : State) (g : Group) : Option Block := s.block? g.blockKey

/-! ## Completing an LDS -/

/-- The result of an LDS at an offset, written to its destination: one register, or two for a 16-byte access (R235). -/
def ldsWrite (b : Block) (ty : IType) (x16 : Bool) (off : Nat) (r : Got) : Thread :=
  if x16 then
    let v := Memory.read b.spad off 16
    match r.d with
    | .reg n => (r.t.setV n (word v)).setV (n + 1) (word (v / 2 ^ 64))
    | _ => r.t
  else r.t.put r.d (extendLoad ty (Memory.read b.spad off (ty.width / 8)))

/-- The bit after an LDS of a function (R93): .wait.take clears it. -/
def ldsBit (fn : LdsFn) (granule : Nat) (b : Block) : Block :=
  match fn with
  | .take => b.setFull granule false
  | _ => b

/-- Perform the LDS of a thread whose bank step has come: the data and the bit change in one step (R93). -/
def State.ldsPerform (s : State) (e : Env) (l : Nat) (t : Thread) (r : Got) (k : Nat) (b : Block) (ty : IType) (x16 : Bool)
    (fn : LdsFn) (off : Nat) : State :=
  match b.poisonIn off (if x16 then 16 else ty.width / 8) with
  | some w => s.trapAt e l t ⟨0x18, word (8 * w)⟩
  | none => (s.setBlock k (ldsBit fn (off / 16) b)).complete e l (ldsWrite b ty x16 off r)

/-- A waiting thread's LDS completes at the byte that it read from when it was issued: its registers are collected again for their pops and
releases only (R94). -/
def State.ldsResume (s : State) (tid off : Nat) (ins : Instr) : State :=
  match ins, s.group? (tid / 32), s.thread? tid with
  | .lds _ pat ty x16 fn d a _, some g, some t =>
    (match s.env? ⟨tid / 1024, tid / 32 % 32, t.pc, [tid % 32], 0, false⟩, s.blockOf g with
      | some e, some b =>
        let t := { t with status := .run }
        (match collect e (tid % 32) t (some d) (srcP pat (.cell ty.width) a) none none with
          | .error tr => s.trapAt e (tid % 32) t tr
          | .ok r => s.ldsPerform e (tid % 32) t r g.blockKey b ty x16 fn off)
      | _, _ => s)
  | _, _, _ => s

/-- Replace the program of a sequencer. -/
def State.putSeq (s : State) (core : Nat) (e : Eng) (q : Option Seq) : State :=
  s.setEngine core e { s.engineOf core e with seq := q }

/-- A waiting sequencer's LDS completes: an 8-byte access into an e register (R103). Poisoned data end the program with status 6 (R389). -/
def State.ldsResumeSeq (s : State) (core : Nat) (en : Eng) (k off : Nat) (ins : Instr) : State :=
  match ins, (s.engineOf core en).seq, s.block? k with
  | .lds _ _ _ _ fn d _ _, some q, some b =>
    if (b.poisonIn off 8).isSome then (s.putSeq core en (some { q with waiting := .ending 6 })).push (.sequencerStep core en)
    else
      let v := word (Memory.read b.spad off 8)
      let q := { q with waiting := .none, pc := nextPc q.pc, e := match d with
        | .reg n => Table.set q.e n.val v
        | _ => q.e }
      ((s.setBlock k (ldsBit fn (off / 16) b)).putSeq core en (some q)).push (.sequencerStep core en)
  | _, _, _ => s

/-- A group's completion counter counts one access less (R92). -/
def State.countDown (s : State) (g : Option Nat) : State :=
  match g with
  | none => s
  | some n =>
    match s.group? n with
    | none => s
    | some gr => s.setGroup n { gr with spadCount := gr.spadCount - 1 }

/-- A group's completion counter counts one access more (R92). -/
def State.countUp (s : State) (g : Option Nat) : State :=
  match g with
  | none => s
  | some n =>
    match s.group? n with
    | none => s
    | some gr => s.setGroup n { gr with spadCount := gr.spadCount + 1 }

/-- An LDS completes in its bank: it counts no more, and its instruction goes on. -/
def State.resumeWaiter (s : State) (core : Nat) (w : SpadWaiter) : State :=
  let s := s.countDown w.group
  match w.who with
  | .thread t => s.ldsResume t w.off w.ins
  | .sequencer e => s.ldsResumeSeq core e w.block w.off w.ins

/-- Whether a wait stands on a granule of a block. -/
def SpadWaiter.on (w : SpadWaiter) (block granule : Nat) : Bool :=
  decide (w.block = block) && decide (w.granule = granule)

/-- The bit of a granule is set: every .peek wait standing there is released, and exactly one .take wait, which one is
free (R94, log entry 10). -/
def State.releaseGranule (s : State) (core block granule : Nat) : State :=
  let k := s.coreOf core
  let here := k.waiters.filter (fun w => w.on block granule)
  let peeks := here.filter (fun w => !w.take)
  let takes := here.filter (fun w => w.take)
  let chosen := match takes with
    | [] => []
    | _ => (takes.drop (Config.takeChoice s.free % takes.length)).take 1
  let gone := peeks ++ chosen
  let s := s.setCore core { k with waiters := k.waiters.filter (fun w => !(gone.contains w)) }
  let s := if takes.length > 1 then s.tick else s
  gone.foldl (fun s w => s.resumeWaiter core w) s

/-- Set or clear the bit of one granule in its bank step (R93). -/
def State.setGranule (s : State) (block granule : Nat) (on : Bool) : State :=
  match s.block? block with
  | none => s
  | some b =>
    let s := s.setBlock block (b.setFull granule on)
    if on then s.releaseGranule b.core block granule else s

/-! ## Bank queues (R90 to R92) -/

/-- Whether an LDS waits for its granule's bit (R93). -/
def SpadWaiter.waits (w : SpadWaiter) : Bool :=
  match w.ins with
  | .lds _ _ _ _ fn _ _ _ => decide (fn ≠ .plain)
  | _ => false

/-- Perform one queued access in its bank (R90). An LDS.wait whose granule is empty leaves the bank for the core's list, and counts on
(R92, R94). -/
def State.bankPerform (s : State) (core : Nat) (r : SpadReq) : State :=
  match r with
  | .write g block off size v fill =>
    let s := s.countDown g
    (match s.block? block with
      | none => s
      | some b =>
        let s := s.setBlock block (b.write off size v)
        if fill then s.setGranule block (off / 16) true else s)
  | .setBit g block granule on => (s.countDown g).setGranule block granule on
  | .read w =>
    match s.block? w.block with
    | none => s.countDown w.group
    | some b =>
      if w.waits && !(b.full.contains w.granule) then
        let k := s.coreOf core
        s.setCore core { k with waiters := k.waiters ++ [w] }
      else s.resumeWaiter core w

/-- An access enters its bank's queue and counts in its group's completion counter (R92). -/
def State.enterBank (s : State) (core bank : Nat) (r : SpadReq) : State :=
  let k := s.coreOf core
  ((s.setCore core { k with banks := Table.set k.banks bank (Table.getD k.banks bank [] ++ [r]) }).countUp r.group).push
    (.bankAccess core bank)

/-- Whether a core holds an access of a thread or a sequencer back from its bank. -/
def Core.holding (k : Core) (who : SpadWho) : Bool := k.held.any (fun h => decide (h.who = who))

/-- A thread or a sequencer whose last held access has entered its bank goes on (R90). -/
def State.letGo (s : State) (core : Nat) (who : SpadWho) : State :=
  if (s.coreOf core).holding who then s
  else match who with
    | .thread tid =>
      (match s.thread? tid with
        | some t => if t.status = .wait .bank then s.setThread tid { t with status := .run } else s
        | none => s)
    | .sequencer e =>
      match (s.engineOf core e).seq with
      | some q =>
        if q.waiting = .bank then (s.putSeq core e (some { q with waiting := .none })).push (.sequencerStep core e) else s
      | none => s

/-- A bank with room takes the oldest access that a collector holds for it (R90). -/
def State.admitHeld (s : State) (core bank : Nat) : State :=
  let k := s.coreOf core
  match k.held.find? (fun h => decide (h.bank = bank)) with
  | none => s
  | some h =>
    ((s.setCore core { k with held := removeFirst (fun x => decide (x = h)) k.held }).enterBank core bank h.req).letGo core h.who

/-- One bank serves the access at the head of its queue. -/
def State.bankServe (s : State) (core bank : Nat) : State :=
  let k := s.coreOf core
  match Table.getD k.banks bank [] with
  | [] => s
  | r :: rest => ((s.setCore core { k with banks := Table.put k.banks bank rest [] }).bankPerform core r).admitHeld core bank

/-- A bank serves its whole queue, and what collectors hold for it. -/
def State.bankDrainN (s : State) (core bank : Nat) : Nat → State
  | 0 => s
  | n + 1 => (s.bankServe core bank).bankDrainN core bank n
def State.bankDrain (s : State) (core bank : Nat) : State :=
  s.bankDrainN core bank ((Table.getD (s.coreOf core).banks bank []).length + (s.coreOf core).held.length)

/-- Every bank of a core serves its whole queue: of its groups' scratchpad accesses only an LDS that waits for a bit is left uncompleted
(R92). -/
def State.spadDrain (s : State) (core : Nat) : State :=
  ((s.coreOf core).banks.map (fun p => p.1)).foldl (fun s b => s.bankDrain core b) s

/-- An access goes to its bank's queue, which holds eight; the collector holds it while the queue is full (R90). -/
def State.bankEnqueue (s : State) (core : Nat) (who : SpadWho) (off : Nat) (r : SpadReq) : State :=
  let bank := bankOf off
  let k := s.coreOf core
  if 8 ≤ (Table.getD k.banks bank []).length then s.setCore core { k with held := k.held ++ [⟨bank, who, r⟩] }
  else s.enterBank core bank r

/-- A lane completes, but its thread's later instructions wait while the collector holds an access of it (R90). -/
def State.completeHeld (s : State) (e : Env) (l : Nat) (t : Thread) : State :=
  if (s.coreOf e.core).holding (.thread (e.tid l)) then s.complete e l { t with status := .wait .bank }
  else s.complete e l t

/-! ## LDS, STS and FEOP (R235, R236) -/

/-- The LDS of one lane: it enters its bank's queue, and the thread waits for the bank step that reads (R90, R94). -/
def ldsLane (ins : Instr) (ty : IType) (x16 : Bool) (fn : LdsFn) (off : BitVec 8) :
    Env → Nat → Thread → Got → State → State := fun e l t r s =>
  let size := if x16 then 16 else ty.width / 8
  let at_ := r.a.toNat + off.toNat
  match s.blockOf e.g with
  | none => s
  | some b =>
    match spadCheck b at_ size size with
    | some c => s.trapAt e l t ⟨c, word at_⟩
    | none =>
      if r.poisoned then s.trapAt e l t poisonTrap
      else
        let w : SpadWaiter := ⟨.thread (e.tid l), e.g.blockKey, at_, decide (fn = .take), ins⟩
        (s.waitAt e l t .ldsWait).bankEnqueue e.core (.thread (e.tid l)) at_ (.read w)

def execLds (g : Guard) (pat : LanePat) (ty : IType) (x16 : Bool) (fn : LdsFn) (d : Operand) (a : Src) (off : BitVec 8)
    (s : State) : Host.Outcome State Fault Refusal :=
  overLanes g (some d) (srcP pat (.cell ty.width) a) none none
    (ldsLane (.lds g pat ty x16 fn d a off) ty x16 fn off) s

/-- The register after a direct one, as a source of a 16-byte store. -/
def nextReg (pat : LanePat) (b : Src) : Option SrcSpec :=
  match b.op with
  | .reg n => some ⟨⟨.reg (n + 1), false⟩, pat, .whole⟩
  | _ => none

/-- STS places each active thread's access in its bank's queue (R90). DEDUCED (log entry 15), as of STP: with .x16 a last-read mark on B releases
the first register alone, and a lane pattern applies to both. -/
def execSts (g : Guard) (pat : Pat) (ty : IType) (x16 : Bool) (fill : Bool) (a b : Src) (off : BitVec 8) (s : State) :
    Host.Outcome State Fault Refusal :=
  overLanes g none (srcA pat (.cell ty.width) a) (srcB pat (.int ty) b) (if x16 then nextReg pat.forB b else none) (fun e l t r s =>
    let size := if x16 then 16 else ty.width / 8
    let at_ := r.a.toNat + off.toNat
    match s.blockOf e.g with
    | none => s
    | some b0 =>
      match spadCheck b0 at_ size size with
      | some c => s.trapAt e l t ⟨c, word at_⟩
      | none =>
        if r.poisoned then s.trapAt e l t poisonTrap
        else
          let v := if x16 then r.b.toNat + r.c.toNat * 2 ^ 64 else r.b.toNat % 2 ^ ty.width
          (s.bankEnqueue e.core (.thread (e.tid l)) at_ (.write (some e.group) e.g.blockKey at_ size v fill)).completeHeld e l r.t) s

/-- The granules of a range, in order. -/
def granules (off len : Nat) : List Nat := (List.range (len / 16)).map (fun i => off / 16 + i)

/-- The trap of FEOP (R236): alignment and a zero length, then the end of the allocation. -/
def feopCheck (b : Block) (off len : Nat) : Option Nat :=
  if off % 16 ≠ 0 ∨ len % 16 ≠ 0 ∨ len = 0 then some 0x0E else if b.scratch < off + len then some 0x0A else none

def execFeop (g : Guard) (pat : Pat) (set : Bool) (a b : Src) (s : State) : Host.Outcome State Fault Refusal :=
  overLanes g none (srcA pat .whole a) (srcB pat .whole b) none (fun e l t r s =>
    match s.blockOf e.g with
    | none => s
    | some b0 =>
      match feopCheck b0 r.a.toNat r.b.toNat with
      | some c => s.trapAt e l t ⟨c, r.a⟩
      | none =>
        if r.poisoned then s.trapAt e l t poisonTrap
        else
          ((granules r.a.toNat r.b.toNat).foldl (fun s gr =>
            s.bankEnqueue e.core (.thread (e.tid l)) (16 * gr) (.setBit (some e.group) e.g.blockKey gr set)) s).completeHeld e l r.t) s

/-- BANK_ACCESS: a bank serves one queued access (R90). -/
def execBankAccess (core bank : Nat) (s : State) : Host.Outcome State Fault Refusal := .next (s.bankServe core bank)

end Sys2Proof.Machine
end

