-- ==== Sys2Proof/Machine/Memory.lean ====
section
/-!
DEFINITION. Global loads, stores, atomics, prefetches and fences (R227 to R234, R211, R204). Stores and reductions are
issued into the core's list of pending accesses and performed later (R84, R86); loads and atomics are performed when they
issue (log entry 4). An access that has to wait leaves its thread at its word, to issue again.
-/
namespace Sys2Proof.Machine

/-! ## Addresses and ranges -/

/-- The copy of a replicated page on a die (R29). -/
def replPa (pa die : Nat) : Nat := pa % 2 ^ 35 + die * 2 ^ 35
/-- The physical address that an access of a core reads: the issuing die's copy of a replicated page (R30). -/
def Xlat.loadPa (x : Xlat) (core va : Nat) : Nat :=
  let pa := x.pa + (va - x.va)
  if x.repl then replPa pa (dieOfCore core) else pa

/-- Split a range at line boundaries: (offset from its start, length) pairs. -/
def chunksFrom (va done n : Nat) : Nat → List (Nat × Nat)
  | 0 => []
  | fuel + 1 =>
    if n ≤ done then []
    else
      let len := Nat.min (n - done) (128 - (va + done) % 128)
      (done, len) :: chunksFrom va (done + len) n fuel
def chunks (va n : Nat) : List (Nat × Nat) := chunksFrom va 0 n (n / 128 + 2)

def xlatAt (xs : List Xlat) (va : Nat) : Option Xlat := xs.find? (fun x => decide (x.va ≤ va) && decide (va < x.va + x.n))

/-- Whether two byte ranges share a byte. -/
def overlaps (a n b m : Nat) : Bool := decide (a < b + m) && decide (b < a + n)

/-- What a location is called when accesses of one thread are compared: all copies of a replicated page are one (R32). -/
def locKey (pa : Nat) (repl : Bool) : Nat := if repl then pa % 2 ^ 35 + 2 ^ 60 else pa

/-- A thread's store or reduction to bytes of a range that has not been performed (R84). -/
def Core.pendingOn (k : Core) (tid key n : Nat) : Bool :=
  k.pend.any (fun p => decide (p.thread = tid) && overlaps (locKey p.pa p.replicated) p.size key n) ||
  k.pendAtomics.any (fun p => decide (p.thread = tid) && overlaps (locKey p.pa p.replicated) 8 key n)

/-- A thread's stores and reductions not yet performed. -/
def Core.pendingOf (k : Core) (tid : Nat) : Bool :=
  k.pend.any (fun p => decide (p.thread = tid)) || k.pendAtomics.any (fun p => decide (p.thread = tid))

/-! ## Scopes, releases (R175, R301 to R303) -/

/-- The memory scope of a domain code (R322). -/
def domainScope (code : Nat) : Scope :=
  match code with
  | 1 => .core
  | 2 => .quad
  | 3 => .die
  | 4 | 5 => .pkg
  | 6 => .sys
  | _ => .group

/-- The memory scope of a level of a launch (R322): levels 0 and 1 are group. -/
def State.levelScope (s : State) (g : Group) (n : Nat) : Scope :=
  if n < 2 then .group
  else match s.grid? g.grid with
    | some gr => domainScope (gr.domains.getD (n - 2) 0)
    | none => .group

/-- A scope with a level-relative one resolved (R175). -/
def State.resolve (s : State) (g : Group) (sc : Scope) : Scope :=
  match sc with
  | .lvl n => s.levelScope g n.val
  | other => other

def scopeRank : Scope → Nat
  | .group => 0
  | .core => 1
  | .quad => 2
  | .die => 3
  | .pkg => 4
  | .sys => 5
  | .lvl _ => 0

/-- An optional timestamp raises a core's clock. -/
def State.raiseTo (s : State) (core : Nat) (t : Option (BitVec 16)) : State :=
  match t with
  | some t => s.jumpTo core t
  | none => s

/-- Whether a replicated update that a release at package scope orders is still on its way: one of the core itself, or one that the core's
die has applied, which the thread may have acquired, not yet applied on every die (R301, R302, R309; log entry 63). -/
def State.replBehind (s : State) (core : Nat) : Bool :=
  s.replicated.any (fun u => decide (u.core = core) || u.applied.contains (dieOfCore core))

/-- A release at package scope that has waited for replicated updates raises its core's clock to the latest timestamp at which any die applied
them (R302): those of its core, and those that its die has applied, which its thread may have acquired (log entry 63). -/
def State.raisePkg (s : State) (core : Nat) : State :=
  (s.raiseTo core (s.coreOf core).replPkg).raiseTo core (s.dieOf (dieOfCore core)).replTop

/-- A release at a scope by a thread (R303): `none` while an earlier access of it has not been performed there. At core
scope and wider its scratchpad accesses complete (R301); at die scope and wider the clock passes the timestamps at which
replicated updates were applied (R302). -/
def State.release (s : State) (core tid : Nat) (sc : Scope) : Option State :=
  let k := s.coreOf core
  if k.pendingOf tid then none
  else if 4 ≤ scopeRank sc && s.replBehind core then none
  else
    let s := if 1 ≤ scopeRank sc then s.spadDrain core else s
    some (if 4 ≤ scopeRank sc then s.raisePkg core else if scopeRank sc = 3 then s.raiseTo core k.replDie else s)

/-- What an SC access waits for, whatever its scope: the single total order of R86 has no scope, so that no replicated update that it orders
may still be unseen by a die; the clock passes the timestamps at which the dies applied them (R302, R310; log entry 73). -/
def State.releaseSc (s : State) (core tid : Nat) (sc : Scope) : Option State :=
  if s.replBehind core then none else (s.release core tid sc).map (fun s => s.raisePkg core)

/-- The part of an order that comes before the access: `none` while it has to wait (R86, R303). -/
def State.before (s : State) (e : Env) (l : Nat) (o : Order) (sc : Scope) : Option State :=
  match o with
  | .rel | .ar => s.release e.core (e.tid l) (s.resolve e.g sc)
  | .sc => s.releaseSc e.core (e.tid l) (s.resolve e.g sc)
  | .rlx | .acq => some s

/-- The part of an order that comes before a load: only an SC load waits for its thread's earlier accesses (R86, R310). -/
def State.beforeLoad (s : State) (e : Env) (l : Nat) (o : Order) (sc : Scope) : Option State :=
  match o with
  | .sc => s.releaseSc e.core (e.tid l) (s.resolve e.g sc)
  | _ => some s

/-! ## A restartable block's store buffer (R392) -/

def atomWidth : AtomTy → Nat
  | .int t => t.width
  | .flt t => t.width

/-- The new value of an atomic (R231), on bits width - 1 : 0. -/
def atomNew (ty : AtomTy) (op : AtomOp) (old b cas : Nat) : Nat :=
  let w := atomWidth ty
  let m := 2 ^ w
  let less := match ty with
    | .int t => if t.signed then decide (toSigned w (old % m) < toSigned w (b % m)) else decide (old % m < b % m)
    | .flt _ => false
  match op with
  | .swap => b % m
  | .cas => if old % m = cas % m then b % m else old % m
  | .add => (old + b) % m
  | .and => (old % m) &&& (b % m)
  | .or => (old % m) ||| (b % m)
  | .xor => (old % m) ^^^ (b % m)
  | .min => if less then old % m else b % m
  | .max => if less then b % m else old % m
  | .fadd =>
    (match ty with
      | .flt t =>
        let (v, fl) := addF .rn (decodeF t (old % m)) (decodeF t (b % m))
        (finishF t .rn v fl).1
      | .int _ => old % m)

/-- SEMS on a semaphore word (R251, R252). -/
def semAdd (w n : Nat) : Nat :=
  if w / 2 ^ 63 % 2 = 1 then w else w / 2 ^ 48 * 2 ^ 48 + Nat.min (w % 2 ^ 48 + n) (2 ^ 48 - 1)

/-! ## Semaphore words (R251, R252) -/

def semPoisoned (w : Nat) : Bool := decide (w / 2 ^ 63 % 2 = 1)
def semReady (w n : Nat) : Bool := semPoisoned w || decide (n ≤ w % 2 ^ 48)
/-- The word after a take (R252). -/
def semTaken (w n : Nat) : Nat := if semPoisoned w then w else w - n

/-- The value that an update with an operand leaves where it found another (R31, R231, R252, R254). -/
def ReplOp.new (op : ReplOp) (v old : Nat) : Nat :=
  match op with
  | .store => v
  | .atom ty o cas => atomNew ty o old v cas
  | .sems => semAdd old v
  | .semTake => semTaken old v
  | .join => old - 1

def SbEntry.range : SbEntry → Nat × Nat
  | .store _ _ loc n _ => (loc, n)
  | .red _ _ loc ty _ _ => (loc, atomWidth ty / 8)
  | .sems _ _ loc _ => (loc, 8)

/-- The pointer under which a buffered access was checked. -/
def SbEntry.ptr : SbEntry → Word
  | .store _ p _ _ _ => p
  | .red _ p _ _ _ _ => p
  | .sems _ p _ _ => p

/-- Whether a buffered store gives the byte at a location, whatever memory holds there (R392). -/
def SbEntry.gives (x : SbEntry) (loc : Nat) : Bool :=
  match x with
  | .store _ _ a n _ => decide (a ≤ loc) && decide (loc < a + n)
  | _ => false

/-- A number's byte. -/
def nthByte (v i : Nat) : Nat := (v / 2 ^ (8 * i)) % 256

/-- The bytes a block's buffered accesses leave in a range of locations, over given bytes, in entry order. -/
def overlay (l : List SbEntry) (loc n : Nat) (v : Nat) (under : Nat → Nat → Nat) : Nat :=
  let full := l.foldl (fun (m : Table Nat) x =>
    let (a, k) := x.range
    let byteAt := fun i => match Table.find m (a + i) with
      | some b => b
      | none => under (a + i) 1
    let old := (List.range k).foldl (fun acc i => acc + byteAt i * 2 ^ (8 * i)) 0
    let new := match x with
      | .store _ _ _ _ w => w.toNat
      | .red _ _ _ ty op w => atomNew ty op old w.toNat 0
      | .sems _ _ _ c => semAdd old c
    (List.range k).foldl (fun m i => Table.set m (a + i) (nthByte new i)) m) ([] : Table Nat)
  (List.range n).foldl (fun acc i => match Table.find full (loc + i) with
    | some b => spliceBytes acc i 1 b
    | none => acc) v

/-- The location of a byte of a checked page in a store buffer (R392): a draft is named by its buffer, since a buffered store resolves when
the block commits (R350; log entry 66). -/
def State.sbLoc (s : State) (ctx : Nat) (x : Xlat) (va : Nat) : Nat :=
  let pa := x.pa + (va - x.va)
  match x.ed with
  | none => locKey pa x.repl
  | some (buf, b) =>
    match s.desc? ctx buf with
    | none => locKey pa x.repl
    | some d =>
      if d.draft = b then 2 ^ 61 + buf * 2 ^ 40 + (pa - d.backing b) else locKey pa x.repl

/-- The draft that a location names: buffer and offset. -/
def draftLoc (loc : Nat) : Option (Nat × Nat) :=
  if 2 ^ 61 ≤ loc then some ((loc - 2 ^ 61) / 2 ^ 40, loc % 2 ^ 40) else none

/-- The address that a location stands for now, and whether it stands for every copy of a replicated page. -/
def State.resolveLoc (s : State) (ctx loc : Nat) : Nat × Bool :=
  match draftLoc loc with
  | some (buf, off) =>
    (match s.desc? ctx buf with
      | some d => (d.backing d.draft + off, false)
      | none => (off, false))
  | none => if 2 ^ 60 ≤ loc then (loc - 2 ^ 60, true) else (loc, false)

/-- Bytes at a location, as a die finds them. -/
def State.locBytes (s : State) (ctx die loc n : Nat) : Nat :=
  let r := s.resolveLoc ctx loc
  s.bytesNow (if r.2 then replPa r.1 die else r.1) n

/-- What a thread of a block reads at a location where memory holds v (R392). -/
def State.blockView (s : State) (b : Option Block) (die loc n v : Nat) : Nat :=
  match b with
  | some b => if b.restartable then overlay b.store loc n v (s.locBytes b.ctx die) else v
  | none => v

def State.blockOfEnv (s : State) (e : Env) : Option Block := s.block? e.g.blockKey
def State.restartable (s : State) (e : Env) : Bool :=
  match s.blockOfEnv e with
  | some b => b.restartable
  | none => false

/-- Put entries in the block's store buffer. -/
def State.buffer (s : State) (e : Env) (l : List SbEntry) : State :=
  match s.blockOfEnv e with
  | some b => s.setBlock e.g.blockKey { b with store := b.store ++ l }
  | none => s
/-- The buffer of 2,048 entries cannot take n more (R392). -/
def State.bufferFull (s : State) (e : Env) (n : Nat) : Bool :=
  match s.blockOfEnv e with
  | some b => decide (2048 < b.store.length + n)
  | none => false

def restartTrap : Trap := ⟨0x15, 0⟩
/-- The checks of R392 that come before an instruction's register values: an instruction a restartable block may not
issue, and a store of n entries that finds the buffer full. -/
def noRestart (e : Env) (s : State) : Option Trap := if s.restartable e then some restartTrap else none
def noRoom (n : Nat) (e : Env) (s : State) : Option Trap :=
  if s.restartable e && s.bufferFull e n then some restartTrap else none

/-! ## Loading bytes -/

def State.leaseOf (s : State) (grid : Nat) : Nat :=
  match s.grid? grid with
  | some g => if g.lease = 0 then 10 else g.lease
  | none => 10

/-- A load that misses the L1 is about to be served (R14): the units that record it take its latency, and the line is allocated as its policy
says, in its home's L2 where the home's own core asks for it (R23, R26). -/
def State.missLoad (s : State) (core ctx pa policy : Nat) : State :=
  let line := lineOf pa
  (s.observeLoad core ctx line).allocate line (decide (homeOf pa = dieOfCore core) && decide (policy ≠ polUncached))
    (decide (policy ≠ polStreaming))

/-- Load bytes of one line through a translated page: `none` while the access has to wait. -/
def State.loadChunk (s : State) (who : Accessor) (core ctx lease : Nat) (x : Xlat) (va n : Nat) : State × Option Nat :=
  let pa := x.loadPa core va
  if isControl pa then (s, some (s.regRead pa n))
  else if x.policy = polUncached then
    match s.gate who (some core) ctx pa n false true true with
    | (s, false) => (s, none)
    | (s, true) =>
      let (s, d) := (s.missLoad core ctx pa x.policy).loadUncached core ctx (lineOf pa) x.repl
      (s, some (LineData.read d (pa % 128) n))
  else if (s.l1Hit core (lineOf pa)).isSome then
    let (s, d) := s.loadLine core ctx (lineOf pa) lease x.policy x.repl
    (s, some (LineData.read d (pa % 128) n))
  else
    match s.gate who (some core) ctx pa n false true false with
    | (s, false) => (s, none)
    | (s, true) =>
      let (s, d) := (s.missLoad core ctx pa x.policy).loadLine core ctx (lineOf pa) lease x.policy x.repl
      (s, some (LineData.read d (pa % 128) n))

/-- Load a checked range, line by line in ascending order: `none` while a part has to wait. -/
def State.loadChunks (s : State) (who : Accessor) (core ctx lease : Nat) (xs : List Xlat) (va : Nat) :
    List (Nat × Nat) → Nat → State × Option Nat
  | [], acc => (s, some acc)
  | (off, n) :: rest, acc =>
    match xlatAt xs (va + off) with
    | none => (s, none)
    | some x =>
      match s.loadChunk who core ctx lease x (va + off) n with
      | (s, none) => (s, none)
      | (s, some v) => s.loadChunks who core ctx lease xs va rest (acc + v * 2 ^ (8 * off))

/-- A load that resolves to a buffer's current backing through its public view reads the last commit, a store at each of its locations: the
core's clock passes its timestamp, and with it every lease on a copy from before (R83, R85, R313). -/
def State.readCommits (s : State) (core ctx : Nat) (xs : List Xlat) : State :=
  xs.foldl (fun s x => match x.ed with
    | some (buf, _) =>
      if leafD x.leaf then s
      else s.raiseTo core ((s.commits.find? (fun c => decide (c.1 = ctx) && decide (c.2.1 = buf))).map (fun c => c.2.2))
    | none => s) s

def State.loadRange (s : State) (who : Accessor) (core ctx lease : Nat) (xs : List Xlat) (va n : Nat) : State × Option Nat :=
  (s.readCommits core ctx xs).loadChunks who core ctx lease xs va (chunks va n) 0

/-- The lowest poisoned word that an access of a checked range consumes, as its virtual address (R364 code 0x18). -/
def State.poisonVa (s : State) (core : Nat) (xs : List Xlat) (va n : Nat) : Option Nat :=
  firstSome ((chunks va n).map (fun c => match xlatAt xs (va + c.1) with
    | none => none
    | some x =>
      let pa := x.loadPa core (va + c.1)
      (s.poisonIn pa c.2).map (fun w => (va + c.1 + 8 * w - pa) / 8 * 8)))

def poisonAt (p : Word) (va : Nat) : Trap := ⟨0x18, ptr (tagOf p) va⟩

/-! ## The shared part of an access by a lane -/

/-- A lane traps: its queued requests go with it. -/
def State.memTrap (s : State) (e : Env) (l : Nat) (t : Thread) (tr : Trap) : State :=
  (s.trapAt e l t tr).unqueue (.thread (e.tid l))

/-- A lane's access completes. -/
def State.memDone (s : State) (e : Env) (l : Nat) (t : Thread) : State :=
  (s.complete e l t).unqueue (.thread (e.tid l))

/-- Whether a core holds new accesses through an edition buffer that a PUB has told it of (R111 step 3). -/
def State.heldBack (s : State) (core ctx : Nat) (xs : List Xlat) : Bool :=
  xs.any (fun x => match x.ed with
    | none => false
    | some (buf, _) => s.publications.any (fun p => decide (p.ctx = ctx) && decide (p.buf = buf) && p.acks.contains core))

/-- The translations of an access that the thread's word has made before, if it passed its check then (R68). -/
def Thread.passedAs (t : Thread) (p : Word) (kind : Nat) : Option (List Xlat) :=
  (t.passed.find? (fun a => decide (a.pc = t.pc) && decide (a.ptr = p) && decide (a.kind = kind))).map (fun a => a.xs)

/-- A thread that still stands at its word has to wait with an access that has passed its check. -/
def State.holdPassed (s : State) (tid : Nat) (old : Thread) (a : Passed) : State :=
  match s.thread? tid with
  | none => s
  | some t =>
    if t.pc = old.pc ∧ t.status = .run ∧ t.tmode = old.tmode ∧ a ∉ t.passed then s.setThread tid { t with passed := t.passed ++ [a] } else s

/-- The translations of an access of a group's lane 0 that passed its check before and waits. -/
def State.passedBy (s : State) (tid : Nat) (p : Word) (kind : Nat) : Option (List Xlat) := (s.thread? tid).bind (fun t => t.passedAs p kind)

/-- A group's lane 0, or a fetching thread, has to wait with an access that has passed its check. -/
def State.holdAt (s : State) (tid : Nat) (p : Word) (kind : Nat) (xs : List Xlat) : State :=
  match s.thread? tid with
  | some t => s.holdPassed tid t ⟨t.pc, p, kind, xs⟩
  | none => s

/-- Check an access of a lane (R66): trap, park (R75, R367), or go on with its translations, which the core then holds. One that had to wait
after its check is never checked a second time (R68). -/
def State.access (s : State) (e : Env) (l : Nat) (t : Thread) (p : Word) (size align : Nat) (need : Need)
    (k : List Xlat → State → State) : State :=
  match t.passedAs p need.kind with
  | some xs => k xs s
  | none =>
    match s.check e.core e.ctx p size align need with
    | .error (.trap c) => (s.reportBad e.core e.ctx p size need c).memTrap e l t ⟨c, p⟩
    | .error (.park a leaf) => (s.park (e.tid l) need.kind a leaf).unqueue (.thread (e.tid l))
    | .ok xs =>
      if s.heldBack e.core e.ctx xs then s
      else (k xs (s.fillCaches e.core e.ctx (tagOf p) xs)).holdPassed (e.tid l) t ⟨t.pc, p, need.kind, xs⟩

/-! ## LD and LDP (R228, R229) -/

/-- Where a byte of a checked range lies, as accesses of one thread are compared (R32, R300). -/
def locAt (xs : List Xlat) (va : Nat) : Nat :=
  match xlatAt xs va with
  | some x => locKey (x.pa + (va - x.va)) x.repl
  | none => 0

/-- Whether a store or reduction of the thread to bytes of a checked range is still to be performed (R84, R300). -/
def Core.pendingIn (k : Core) (tid : Nat) (xs : List Xlat) (va n : Nat) : Bool :=
  (chunks va n).any (fun c => (xlatAt xs (va + c.1)).isSome && k.pendingOn tid (locAt xs (va + c.1)) c.2)

/-- The bytes of a checked range as the block's threads see them over what memory holds (R392). -/
def State.viewRange (s : State) (b : Option Block) (ctx die : Nat) (xs : List Xlat) (va n v : Nat) : Nat :=
  (chunks va n).foldl (fun acc c => match xlatAt xs (va + c.1) with
    | none => acc
    | some x => spliceBytes acc c.1 c.2 (s.blockView b die (s.sbLoc ctx x (va + c.1)) c.2 (acc / 2 ^ (8 * c.1)))) v

/-- A relaxed load of a checked range by a thread: it waits for the thread's own overlapping stores (R84, R300), and finds its block's
buffered bytes (R392). `none` while it has to wait. -/
def State.loadOwn (s : State) (e : Env) (l : Nat) (xs : List Xlat) (va n : Nat) : State × Option Nat :=
  if (s.coreOf e.core).pendingIn (e.tid l) xs va n then (s, none)
  else
    match s.loadRange (.thread (e.tid l)) e.core e.ctx (s.leaseOf e.g.grid) xs va n with
    | (s, none) => (s, none)
    | (s, some v) => (s, some (if s.restartable e then s.viewRange (s.blockOfEnv e) e.ctx (dieOfCore e.core) xs va n v else v))

/-- The lowest poisoned word that a thread's access of a checked range consumes: a byte that its restartable block's buffer gives is read from
there (R389, R392). -/
def State.poisonSeen (s : State) (e : Env) (xs : List Xlat) (va n : Nat) : Option Nat :=
  match s.blockOfEnv e with
  | some b =>
    if b.restartable && !s.poison.isEmpty then
      firstSome ((List.range n).map (fun i => (xlatAt xs (va + i)).bind (fun x =>
        if s.poison.contains ((x.loadPa e.core (va + i)) / 8) && !(b.store.any (fun y => y.gives (s.sbLoc e.ctx x (va + i)))) then
          some ((va + i) / 8 * 8) else none)))
    else s.poisonVa e.core xs va n
  | none => s.poisonVa e.core xs va n

/-- A load of n bytes by a lane; the body writes the result. -/
def State.loadLane (s : State) (e : Env) (l : Nat) (t : Thread) (r : Got) (p : Word) (n align : Nat) (o : Order) (sc : Scope)
    (fin : Nat → Thread) : State :=
  s.access e l t p n align Need.load (fun xs s =>
    if xs.any (fun x => isAperture x.pa) then s.memTrap e l t ⟨0x0D, p⟩
    else if r.poisoned then s.memTrap e l t poisonTrap
    else
      match s.poisonSeen e xs (vaOf p) n with
      | some va => s.memTrap e l t (poisonAt p va)
      | none =>
        match s.beforeLoad e l o sc with
        | none => s
        | some s =>
          match s.loadOwn e l xs (vaOf p) n with
          | (s, none) => s
          | (s, some v) => s.memDone e l (fin v))

def execLd (g : Guard) (pat : LanePat) (ty : IType) (ord : Order) (sc : Scope) (d : Operand) (a : Src) (s : State) :
    Host.Outcome State Fault Refusal :=
  overLanes g (some d) (srcP pat (.cell ty.width) a) none none (fun e l t r s =>
    s.loadLane e l t r r.a (ty.width / 8) (ty.width / 8) ord sc (fun v => r.t.put r.d (extendLoad ty v))) s

/-- Registers n to n + count - 1 from consecutive words. -/
def Thread.setWords (t : Thread) (n v : Nat) : Nat → Thread
  | 0 => t
  | k + 1 => Thread.setWords (t.setV n (word v)) (n + 1) (v / 2 ^ 64) k

def execLdp (g : Guard) (pat : LanePat) (ord : Order) (sc : Scope) (n : Fin 128) (a : Src) (count : Fin 9) (s : State) :
    Host.Outcome State Fault Refusal :=
  overLanes g none (srcP pat .whole a) none none (fun e l t r s =>
    s.loadLane e l t r r.a (8 * count.val) 8 ord sc (fun v => r.t.setWords n.val v count.val)) s

/-- LDO (R211): zero-extended, with the order acquire at a scope its code gives. -/
def ldoOrder (ord : Fin 4) (o : Order) : Order × Scope :=
  match ord.val with
  | 0 => (.rlx, .group)
  | 1 => (o, .core)
  | 2 => (o, .die)
  | _ => (o, .pkg)

def sizeBytes (size : Fin 4) : Nat := 2 ^ size.val

def execLdo (o : Imm) (size : Fin 4) (ord : Fin 4) (s : State) : Host.Outcome State Fault Refusal :=
  overLanes o.g (some o.d) (srcO .whole o.a) none none (fun e l t r s =>
    s.loadLane e l t r (leaW r.a (o.imm.signExtend 64) 0) (sizeBytes size) (sizeBytes size) (ldoOrder ord .acq).1
      (ldoOrder ord .acq).2 (fun v => r.t.put r.d (word v))) s

/-! ## ST and STP (R228, R229) -/

/-- The words of a store: (byte offset, size, value). -/
abbrev StoreWords := List (Nat × Nat × Word)

/-- The bytes of a store as one number. -/
def storeValue (ws : StoreWords) : Nat := ws.foldl (fun acc w => acc + (w.2.2.toNat % 2 ^ (8 * w.2.1)) * 2 ^ (8 * w.1)) 0

/-- Whether one of a core's next n request identifiers is still outstanding: a core has at most 1,024 requests under way (R372). -/
def State.idsBusy (s : State) (core n : Nat) : Bool :=
  let k := s.coreOf core
  (List.range n).any (fun i =>
    let id := k.reqNext + BitVec.ofNat 10 i
    k.pend.any (fun p => decide (p.id = id)) || k.pendAtomics.any (fun p => decide (p.id = id)) ||
      s.replicated.any (fun u => decide (u.core = core) && decide (u.id = id)) ||
      s.peerSent.any (fun m => decide (m.core = core) && decide (m.id = id)))

/-- Issue a store: one pending store, with an identifier of its own, for each line that it reaches, performed as one event there (R83,
R372). -/
def State.issueStore (s : State) (e : Env) (l : Nat) (xs : List Xlat) (va n v : Nat) : State :=
  let k := s.coreOf e.core
  let lease := s.leaseOf e.g.grid
  let parts := chunks va n
  let new := (List.range parts.length).zip parts |>.map (fun p =>
    let x := xlatAt xs (va + p.2.1)
    ({ id := k.reqNext + BitVec.ofNat 10 p.1, thread := e.tid l, pa := paAt xs (va + p.2.1), size := p.2.2,
       v := v / 2 ^ (8 * p.2.1) % 2 ^ (8 * p.2.2), lease := lease, ctx := e.ctx,
       policy := (x.map (fun x => x.policy)).getD 0, replicated := (x.map (fun x => x.repl)).getD false,
       issuedAt := k.clock, sent := false, buf := (x.map (fun x => x.ed)).getD none } : PendStore))
  (s.setCore e.core { k with reqNext := k.reqNext + BitVec.ofNat 10 parts.length, pend := k.pend ++ new }).pushAll
    (new.map (fun _ => .pocStore e.core))

/-- A store by a lane. In a restartable block it enters the store buffer (R392); else it is issued (R84). -/
def State.storeLane (s : State) (e : Env) (l : Nat) (t : Thread) (r : Got) (p : Word) (n align : Nat) (o : Order) (sc : Scope)
    (ws : StoreWords) : State :=
    s.access e l t p n align Need.store (fun xs s =>
      let paOf := fun off => paAt xs (vaOf p + off)
      let locOf := fun off => match xlatAt xs (vaOf p + off) with
        | some x => s.sbLoc e.ctx x (vaOf p + off)
        | none => paOf off
      if s.draftPinned e.ctx xs then s.memTrap e l t ⟨0x11, p⟩
      else if (chunks (vaOf p) n).any (fun c => decide (s.tenureOf e.core e.ctx (lineOf (paOf c.1)) = .read)) then
        s.memTrap e l t ⟨0x10, p⟩
      else if r.poisoned then s.memTrap e l t poisonTrap
      else if s.restartable e then
        (s.buffer e (ws.map (fun w => .store (e.tid l) p (locOf w.1) w.2.1 w.2.2))).memDone e l r.t
      else
        let behind := (chunks (vaOf p) n).any (fun c => (s.coreOf e.core).pendAtomics.any (fun q => decide (q.thread = e.tid l) &&
          overlaps (locKey q.pa q.replicated) 8 (locAt xs (vaOf p + c.1)) c.2))
        if behind || s.idsBusy e.core (chunks (vaOf p) n).length then s
        else
          match s.before e l o sc with
          | none => s
          | some s => (s.issueStore e l xs (vaOf p) n (storeValue ws)).memDone e l r.t)

def execSt (g : Guard) (pat : Pat) (ty : IType) (ord : Order) (sc : Scope) (a b : Src) (s : State) :
    Host.Outcome State Fault Refusal :=
  overLanesIf (noRoom 1) g none (srcA pat (.cell ty.width) a) (srcB pat (.cell ty.width) b) none (fun e l t r s =>
    let n := ty.width / 8
    s.storeLane e l t r r.a n n ord sc [(0, n, word (r.b.toNat % 2 ^ ty.width))]) s

/-- STP's data: registers n to n + count - 1, each through the lane pattern where it stands on srcB (log entry 15). -/
def packedWords (e : Env) (l : Nat) (t : Thread) (p : LanePat) (n count : Nat) : StoreWords :=
  (List.range count).map (fun j => (8 * j, 8, readV e l t p .whole (n + j)))
def packedPoison (e : Env) (l : Nat) (t : Thread) (p : LanePat) (n count : Nat) : Bool :=
  (List.range count).any (fun j => e.g.vPoisoned l t (p.source l) (n + j))

def execStp (g : Guard) (pat : Pat) (ord : Order) (sc : Scope) (a : Src) (n : Fin 128) (lastB : Bool) (count : Fin 9)
    (s : State) : Host.Outcome State Fault Refusal :=
  overLanesIf (noRoom count.val) g none (srcA pat .whole a) (srcB pat .whole ⟨.reg n, lastB⟩) none (fun e l t r s =>
    let r := { r with poisoned := r.poisoned || packedPoison e l t pat.forB n.val count.val }
    s.storeLane e l t r r.a (8 * count.val) 8 ord sc (packedWords e l t pat.forB n.val count.val)) s

/-- STO's data operand stands in the dst field (R210). -/
def execSto (o : Imm) (size : Fin 4) (ord : Fin 4) (s : State) : Host.Outcome State Fault Refusal :=
  overLanesIf (noRoom 1) o.g none (srcO .whole o.a) (srcO .whole o.d) none (fun e l t r s =>
    let (od, sc) := ldoOrder ord .rel
    let n := sizeBytes size
    s.storeLane e l t r (leaW r.a (o.imm.signExtend 64) 0) n n od sc [(0, n, word (r.b.toNat % 2 ^ (8 * n)))]) s

/-! ## Atomics (R231, R232) -/

def peerOf (pa : Nat) : Nat := (pa - 0x4080000000) / 2 ^ 23

/-- The outcome of an atomic at its home: performed with the old value, or it has to wait. -/
abbrev AtomicOut := State × Option Nat

/-- An atomic on a line of memory whose gate it has passed, performed as one step: on the holder's L1 copy under write tenure (R232), in the
Annex of a die that owns the region, else at the home (R27, R40). `f` gives the new value from the old. An uncached atomic leaves the L1 as
it is (R83). -/
def State.atomicNow (s : State) (core : Option Nat) (ctx policy pa n lease : Nat) (f : Nat → Nat) : State × Nat :=
  let line := lineOf pa
  let home := homeOfLine line
  let uncached := decide (policy = polUncached)
  let read := fun (d : LineData) => LineData.read d (pa % 128) n
  match core with
  | none =>
    let s := s.homeTake line
    let old := read (s.homeLine line)
    ((s.storeAt none home pa n (f old) false).allocate line false true, old)
  | some c =>
    let s := if uncached then s.openTenured c ctx line true else s
    if s.tenureOf c ctx line = .write ∧ !uncached then
      let (s, d) := s.loadLine c ctx line lease policy false
      (s.storeTenured c ctx pa n (f (read d)) lease, read d)
    else if s.owner? home line = some (dieOfCore c) ∧ home ≠ dieOfCore c ∧ !uncached then
      let s := s.installAnnex (dieOfCore c) line
      let old := read (s.pocLine (dieOfCore c) line)
      ((s.storeAt core (dieOfCore c) pa n (f old) false).dropL1 c line, old)
    else
      let s := s.homeTake line
      let old := read (s.homeLine line)
      let s := (s.storeAt core home pa n (f old) false).allocate line (!uncached) true
      (if uncached then s else s.dropL1 c line, old)

/-- Where the record of a request's identifier is kept (R372): with its home, or at the hub for control space and a peer. -/
def requestHome (pa : Nat) : Nat := if isControl pa then hub else homeOf pa

/-- The poison that stands in a word which an atomic was performed on stays there: what it made of poisoned data is poisoned (R389). -/
def State.keepPoison (s before : State) (pa n : Nat) : State :=
  { s with poison := s.poison ++ before.poison.filter (fun w =>
      decide (8 * w < pa + n) && decide (pa < 8 * w + 8) && !(s.poison.contains w)) }

/-- An atomic on a line of memory, once its gate lets it pass. -/
def State.atomicAt (s : State) (who : Accessor) (core : Option Nat) (ctx policy pa n lease : Nat) (f : Nat → Nat) : AtomicOut :=
  match s.gate who core ctx pa n true true (decide (policy = polUncached)) with
  | (s, false) => (s, none)
  | (s, true) =>
    let (t, old) := s.atomicNow core ctx policy pa n lease f
    (t.keepPoison s pa n, some old)

/-- The package that a request through a peer aperture goes to, and the address in its device memory (R410). -/
def State.peerAddr (s : State) (pa : Nat) : Nat × Nat := (peerOf pa, Table.getD s.peerBases (peerOf pa) 0 + (pa - 0x4080000000) % 2 ^ 23)

/-- The store or reduction that a core had sent under an identifier is over; the yard's own have none. -/
def State.sentDone (s : State) (core : Nat) (id : BitVec 10) : State :=
  let k := s.coreOf core
  if Config.numCores ≤ core then s
  else s.setCore core { k with pend := k.pend.filter (fun p => p.id ≠ id), pendAtomics := k.pendAtomics.filter (fun p => p.id ≠ id) }

/-- A store or an atomic leaves for a peer, which performs it at its home L2 and acknowledges it (R410). One that nothing waits for is dropped
where its peer is lost (R398). -/
def State.sendPeer (s : State) (core pa n v : Nat) (op : ReplOp) (id : BitVec 10) (waiter : Option Accessor) : State :=
  if waiter.isNone && s.peersLost.contains (peerOf pa) then s.sentDone core id
  else ({ s with peerSent := s.peerSent ++ [⟨core, id, (s.peerAddr pa).1, (s.peerAddr pa).2, n, op, v, waiter⟩] } : State).push (.peerAccess (.ack core))

/-- An atomic of control space, of a peer's memory where nothing waits for its answer, or of memory. A peer's old value is the peer's (R410):
free. -/
def State.atomicAny (s : State) (who : Accessor) (core : Option Nat) (ctx policy pa n lease : Nat) (f : Nat → Nat) : AtomicOut :=
  if isAperture pa then (s.tick, some ((Config.freeWord s.free).toNat % 2 ^ (8 * n)))
  else if isControl pa then
    let old := s.regRead pa n
    (s.regWrite pa n (f old) false, some old)
  else s.atomicAt who core ctx policy pa n lease f

/-- One replicated store at a die's L2 (R31): timestamp max(line rts + 1, T + 1). -/
def State.applyReplicated (s : State) (die off n v : Nat) (origin : BitVec 16) : State :=
  let pa := replPa off die
  let line := lineOf pa
  let d := s.dieOf die
  let ts := maxT ((s.stampAt die line).rts + 1) (d.replT + 1)
  let s := s.awaitLead die ts 16
  let s := s.pocWrite die pa n v
  let s := s.setStamp die line ⟨ts, ts, origin⟩
  let d := s.dieOf die
  s.setDie die { d.note ts with replT := ts }

/-- What an update applied on the issuing die does in its core: as at any store, the core's copy becomes the line as it stands at the point
of coherence, and its clock jumps past the timestamp (R32, R83, R300; log entry 63). -/
def State.ownReplicated (s : State) (core off : Nat) (origin : BitVec 16) : State :=
  let die := dieOfCore core
  let line := lineOf (replPa off die)
  let ts := (s.dieOf die).replT
  let s := match Table.find (s.coreOf core).l1 line with
    | some l => s.setL1 core line { l with data := s.homeLine line, st := ⟨ts, ts, origin⟩ }
    | none => s
  s.jumpTo core (maxT ts origin)

def State.signalBox (s : State) (ctx : Nat) : Nat :=
  match s.context? ctx with
  | some c => c.signalBox
  | none => 0

/-- A replicated update leaves for the signal box (R31), with the issuing core's clock at issue as its origin time. -/
def State.sendReplicated (s : State) (core ctx pa n v : Nat) (op : ReplOp) (at_ : BitVec 16) (id : BitVec 10)
    (waiter : Option Accessor) : State :=
  let sbox := s.signalBox ctx
  let u : ReplUpdate := { sbox := sbox, seq := none, off := pa % 2 ^ 35, size := n, v := v, op := op, origin := at_,
                          core := core, acks := [], committed := false, applied := [], id := id, waiter := waiter, old := 0, top := 0 }
  { s with replicated := s.replicated ++ [u] }.push (.replicatedUpdate sbox)

/-- What an atomic through a translated page comes to: it has to wait; it is on its way to the signal box or to a peer, whose answer its
accessor waits for; or it is performed, with the value found. -/
inductive AtomicStep where
  | wait
  | sent
  | done (old : Nat)
  deriving DecidableEq, Repr

/-- An atomic through a translated page. The signal box performs one on a replicated page (R31, R232), a peer one through its aperture (R410). -/
def State.atomicThrough (s : State) (who : Accessor) (core ctx lease : Nat) (x : Xlat) (va n : Nat) (op : ReplOp) (v : Nat) :
    State × AtomicStep :=
  let pa := x.pa + (va - x.va)
  if s.idsBusy core 1 then (s, .wait)
  else if x.repl then
    let (s, id) := s.takeId core
    (s.sendReplicated core ctx pa n v op (s.coreOf core).clock id (some who), .sent)
  else if isAperture pa then
    let (s, id) := s.takeId core
    (s.sendPeer core pa n v op id (some who), .sent)
  else
    match s.atomicAny who (some core) ctx x.policy pa n lease (op.new v) with
    | (s, some old) => (s.requested (requestHome pa) core old, .done old)
    | (s, none) => (s, .wait)

/-- A lane's atomic: it waits at its word, waits for the signal box or a peer, or completes. -/
def State.atomicLane (s : State) (e : Env) (l : Nat) (t : Thread) (p : Word) (n : Nat) (x : Xlat) (op : ReplOp) (v : Nat)
    (fin : Nat → State → State) : State :=
  match s.atomicThrough (.thread (e.tid l)) e.core e.ctx (s.leaseOf e.g.grid) x (vaOf p) n op v with
  | (s, .wait) => s
  | (s, .sent) => (s.waitAt e l t (.atomic p)).unqueue (.thread (e.tid l))
  | (s, .done old) => fin old s

/-- A lane whose atomic the signal box has answered completes with the value found, its word having had every check before. -/
def Got.answered (r : Got) : Got := { r with t := { r.t with answer := none } }

/-- The checks that follow the translation of an atomic of n bytes, through the page of its address: the draft's pins (R110), read tenure
(R57), a lost peer where the thread waits for its answer (R398, R410), poison (R389). -/
def State.atomicChecks (s : State) (e : Env) (l : Nat) (t : Thread) (r : Got) (p : Word) (n : Nat) (waits : Bool) (xs : List Xlat)
    (k : Xlat → State → State) : State :=
  match xlatAt xs (vaOf p) with
  | none => s
  | some x =>
    let pa := x.pa + (vaOf p - x.va)
    if s.draftPinned e.ctx xs then s.memTrap e l t ⟨0x11, p⟩
    else if s.tenureOf e.core e.ctx (lineOf pa) = .read then s.memTrap e l t ⟨0x10, p⟩
    else if waits && isAperture pa && s.peersLost.contains (peerOf pa) then s.memTrap e l t ⟨0x0D, p⟩
    else if r.poisoned then s.memTrap e l t poisonTrap
    else
      match s.poisonSeen e xs (vaOf p) n with
      | some va => s.memTrap e l t (poisonAt p va)
      | none => k x s

/-- The old value as ATOM writes it (R231). -/
def atomResult (ty : AtomTy) (old : Nat) : Word :=
  match ty with
  | .int t => extendLoad t old
  | .flt _ => word old

/-- An atomic by a lane whose result it waits for. -/
def State.atomLane (s : State) (e : Env) (l : Nat) (t : Thread) (r : Got) (p : Word) (n : Nat) (o : Order) (sc : Scope)
    (op : ReplOp) (v : Nat) (fin : Got → Nat → State → State) : State :=
  match t.answer with
  | some (old, _) => fin r.answered old s
  | none =>
    s.access e l t p n n Need.atomic (fun xs s => s.atomicChecks e l t r p n true xs (fun x s =>
      if (s.coreOf e.core).pendingOn (e.tid l) (locKey (x.pa + (vaOf p - x.va)) x.repl) n then s
      else
        match s.before e l o sc with
        | none => s
        | some s => s.atomicLane e l t p n x op v (fin r)))

/-- How the operand of an atomic is supplied: as sub-elements of its type (R116, R231). -/
def atomForm : AtomTy → Form
  | .int t => .int t
  | .flt t => .flt t

/-- ATOM: the compared value of CAS is dst as collected. -/
def execAtom (g : Guard) (pat : Pat) (ty : AtomTy) (op : AtomOp) (ord : Order) (sc : Scope) (n : Fin 128) (a b : Src)
    (s : State) : Host.Outcome State Fault Refusal :=
  let w := atomWidth ty
  overLanesIf noRestart g none (srcA pat (.cell w) a) (srcB pat (atomForm ty) b)
    (if op = .cas then some ⟨⟨.reg n, false⟩, .ident, .whole⟩ else none)
    (fun e l t r s => s.atomLane e l t r r.a (w / 8) ord sc (.atom ty op r.c.toNat) r.b.toNat
        (fun r old s => s.memDone e l (r.t.setV n.val (atomResult ty old)))) s

/-- RED: issued, and performed later; in a restartable block it enters the store buffer. -/
def execRed (g : Guard) (pat : Pat) (ty : AtomTy) (op : AtomOp) (ord : Order) (sc : Scope) (a b : Src) (s : State) :
    Host.Outcome State Fault Refusal :=
  let w := atomWidth ty
  overLanesIf (noRoom 1) g none (srcA pat (.cell w) a) (srcB pat (atomForm ty) b) none (fun e l t r s =>
      s.access e l t r.a (w / 8) (w / 8) Need.atomic (fun xs s => s.atomicChecks e l t r r.a (w / 8) false xs (fun x s =>
        let pa := x.pa + (vaOf r.a - x.va)
        if s.restartable e then (s.buffer e [.red (e.tid l) r.a (s.sbLoc e.ctx x (vaOf r.a)) ty op r.b]).memDone e l r.t
        else if (s.coreOf e.core).pend.any (fun q => decide (q.thread = e.tid l) &&
            overlaps (locKey q.pa q.replicated) q.size (locKey pa x.repl) 8) || s.idsBusy e.core 1 then s
        else
          match s.before e l ord sc with
          | none => s
          | some s =>
            let lease := s.leaseOf e.g.grid
            let (s, id) := s.takeId e.core
            let k := s.coreOf e.core
            let new : PendAtomic :=
              { id := id, thread := e.tid l, pa := pa, ty := ty, op := op, v := r.b, lease := lease, ctx := e.ctx, policy := x.policy,
                replicated := x.repl, issuedAt := k.clock, sent := false, buf := x.ed }
            ((s.setCore e.core { k with pendAtomics := k.pendAtomics ++ [new] }).push (.pocAtomic e.core)).memDone e l r.t))) s

/-! ## PREF, FENCE, PCHK (R230, R234, R204) -/

/-- PREF: dropped where a step of R66 fails. To the L1 it renews as a load does, and the reply arrives later; to the point
of coherence it asks for the line. R67 and R230 name no size for its checks: the model checks the byte that A names (log entry 64). -/
def execPref (g : Guard) (pat : LanePat) (a : Src) (poc : Bool) (s : State) : Host.Outcome State Fault Refusal :=
  overLanes g none (srcP pat .whole a) none none (fun e l _ r s =>
    let done := s.complete e l r.t
    match s.check e.core e.ctx r.a 1 1 Need.load with
    | .error _ => done
    | .ok xs =>
      match xs with
      | [] => done
      | x :: _ =>
        let pa := x.loadPa e.core x.va
        if isControl pa || x.policy = polUncached || s.heldBack e.core e.ctx xs then done
        else if poc then
          (if homeOf pa = dieOfCore e.core then done else done.push (.annexReadRequest (dieOfCore e.core) (lineOf pa)))
        else done.push (.pocLoad e.core ⟨lineOf pa, s.leaseOf e.g.grid, decide (x.policy = polStreaming)⟩)) s

/-- FENCE (R311, R234): the release part waits for the thread's earlier accesses; above group scope every fence waits until the scratchpad
completion counter of its group is zero (R92). Loads are performed when they issue. -/
def execFence (g : Guard) (ord : Order) (sc : Scope) (s : State) : Host.Outcome State Fault Refusal :=
  overLanes g none none none none (fun e l _ r s =>
    match s.before e l ord sc with
    | none => s
    | some s =>
      if scopeRank (s.resolve e.g sc) = 0 then s.complete e l r.t
      else
        let s := s.spadDrain e.core
        match s.group? e.group with
        | some gr => if gr.spadCount = 0 then s.complete e l r.t else s
        | none => s) s

/-- The need that PCHK tests for a kind. R75 names the leaf bits of loads, stores, atomics and fetches only: a publish needs none, and write
tenure R and W (log entry 64). -/
def pchkNeed : AccessKind → Need
  | .load => Need.load
  | .store => Need.store
  | .atomic => Need.atomic
  | .fetch => Need.fetch
  | .engRead => Need.engRead
  | .engWrite => Need.engWrite
  | .engAdd => Need.engAdd
  | .publish => Need.publish
  | .writeTenure => Need.tenure

def pchkAlign (k : AccessKind) (size : Nat) : Nat :=
  match k with
  | .load | .store | .atomic => if size = 2 ∨ size = 4 ∨ size = 8 ∨ size = 16 then size else 1
  | .fetch => 8
  | _ => 1

/-- The outcome of R69: 0, or the cause code of the first failing step; a recoverable fault answers 0x0D. -/
def pchkWord (s : State) (e : Env) (k : AccessKind) (p size : Word) : Word :=
  let n := size.toNat
  if n = 0 ∨ 2 ^ 32 < n then 0x0A
  else match s.check e.core e.ctx p n (pchkAlign k n) (pchkNeed k) with
    | .ok _ => 0
    | .error (.trap c) => word c
    | .error (.park _ _) => 0x0D

def execPchk (o : Bin Unit) (kind : AccessKind) (s : State) : Host.Outcome State Fault Refusal :=
  lanewise o.g (fun e l t => lanePure o.d (srcA o.pat .whole o.a) (srcB o.pat .whole o.b) none
    (fun r => pchkWord s e kind r.a r.b) e l t) s

end Sys2Proof.Machine
end

