-- ==== Sys2Proof/Machine/Catalogue.lean ====
section
/-!
DEFINITION. The steps of the memory system's agents: pending stores and reductions reaching their points of coherence
(R84, R86), the Catalogue's requests, snoops and retries (R40 to R44), scrubbers and exchanges (R88), replicated updates
(R31), host sectors (R45, R46), the host's own accesses (R401) and peers (R410, R398).
-/
namespace Sys2Proof.Machine

/-! ## The Catalogue's requests (R42, R43) -/

/-- ANNEX_STORE_REQUEST: a store from the Annex of a die asks for ownership (R40). -/
def execAnnexStoreRequest (die line : Nat) (s : State) : Host.Outcome State Fault Refusal :=
  .next (if homeOfLine line = die ∨ s.owner? (homeOfLine line) line = some die then s else s.requestStore die line)

/-- SNOOP_RECEIVED: an invalidation reaches the Annex of a die (R42). With requests of its own pending on the line it answers conflict and
does not act: they are marked, to be answered retry once the current request has completed, and the home sends the snoop again. Otherwise
it drops the entry's lines, an owner writing back first, and acknowledges with the highest rts it had granted (R41). -/
def execSnoopReceived (die line : Nat) (s : State) : Host.Outcome State Fault Refusal :=
  let home := homeOfLine line
  .next (match (s.dieOf home).current line with
    | none => s
    | some r =>
      if !(r.awaiting.contains die) then s
      else
        let own := fun (q : CatReq) => decide (q.die = die) && decide (q.line = line)
        let d := s.dieOf home
        if d.requests.any (fun q => own q && decide (q.phase = .queued)) && !(d.requests.any (fun q => own q && decide (q.phase = .marked))) then
          (s.setDie home { d with requests := d.requests.map (fun q =>
            if own q && decide (q.phase = .queued) then { q with phase := .marked } else q) }).push (.snoopReceived die line)
        else
          let (s, t) := s.dropEntry die ((s.dieOf home).entry line s.fabric)
          let s := s.foldRts home line t
          let s := match t with
            | some t => s.setDie home ((s.dieOf home).putReq { r with rts := maxT r.rts t })
            | none => s
          (s.removeSharer home line die).push (.invalidationAck die line))

/-- INVALIDATION_ACK: the home counts an acknowledgement; with the last one the request is served, and stays the line's current one until its
store is performed, unless another die has taken a copy of
the entry meanwhile, which is snooped in its turn (R40). -/
def execInvalidationAck (die line : Nat) (s : State) : Host.Outcome State Fault Refusal :=
  let home := homeOfLine line
  .next (match (s.dieOf home).current line with
    | none => s
    | some r =>
      if !(r.awaiting.contains die) then s
      else
        let r := { r with awaiting := r.awaiting.filter (fun e => e ≠ die) }
        (s.setDie home ((s.dieOf home).putReq r)).startReq home line)

/-- REQUEST_RETRY: a request answered retry is issued again, with its identifier; none is retried a fifth time (R42, R43). -/
def execRequestRetry (die line : Nat) (s : State) : Host.Outcome State Fault Refusal :=
  let home := homeOfLine line
  let d := s.dieOf home
  .next (match d.requests.find? (fun q => decide (q.die = die) && decide (q.line = line) && decide (q.phase = .retrying)) with
    | none => s
    | some q =>
      let idle := (d.current line).isNone
      let d := d.dropReq q
      let s := s.setDie home { d with requests := d.requests ++ [{ q with phase := .queued, retries := q.retries + 1 }] }
      if idle then s.startReq home line else s)

/-- ANNEX_READ_REQUEST: a line is brought into a die's Annex (R40). One under tenure is left alone: only an access
recalls (R57), and a request that the prefetch had made there before goes. -/
def execAnnexReadRequest (die line : Nat) (s : State) : Host.Outcome State Fault Refusal :=
  .next (if homeOfLine line = die ∨ !(s.tenured line).isEmpty then s.leaveLine (.prefetch (40 * die)) line
    else match s.gate (.prefetch (40 * die)) (some (40 * die)) 0 (128 * line) 1 false true false with
      | (s, true) => s.annexRead die line
      | (s, false) => s.push (.annexReadRequest die line))

/-- HOME_CORE_ACCESS: a home-die core reads a line, or asks for it for a store (R40). -/
def execHomeCoreAccess (line : Nat) (store : Bool) (s : State) : Host.Outcome State Fault Refusal :=
  let home := homeOfLine line
  .next (if store then s.requestStore home line
    else if ((s.dieOf home).current line).isSome then s.push (.homeCoreAccess line false)
    else s.homeRead line)

/-- REGION_MERGE: two sibling halves that have been alike and quiet for the quiet interval become their parent, whose own quiet interval
starts at the merge: R39 does not say (log entry 64). -/
def execRegionMerge (die base : Nat) (s : State) : Host.Outcome State Fault Refusal :=
  let d := s.dieOf die
  .next (match d.regions.find? (fun r => decide (r.base = base)) with
    | none => s
    | some r =>
      match d.regions.find? (fun q => decide (q.base = base + r.size) && decide (q.size = r.size)) with
      | none => s
      | some q =>
        let quiet := fun (x : Region) => decide (x.quietSince + 2 ^ d.quiet ≤ s.fabric)
        if r.size < 65536 ∧ base % (2 * r.size) = 0 ∧ r.state = q.state ∧ r.sharers = q.sharers ∧ quiet r ∧ quiet q then
          let d := { d with regions := d.regions.filter (fun x => !(decide (x.base = q.base))) }
          s.setDie die (d.putEntry { r with size := 2 * r.size, quietSince := s.fabric })
        else s)

/-- DIRTY_WRITE_BACK: an Annex sends a dirty line back and keeps it in its write-back buffer until the home has it; a
forward that came in between has consumed it (R44). -/
def execDirtyWriteBack (die line : Nat) (s : State) : Host.Outcome State Fault Refusal :=
  let d := s.dieOf die
  .next (match Table.find d.annex line with
    | none => s.setDie die { d with writeBacks := d.writeBacks.filter (fun x => x ≠ line) }
    | some a =>
      if d.writeBacks.contains line then
        let s := s.setDie die { d with writeBacks := d.writeBacks.filter (fun x => x ≠ line) }
        if a.dirty = 0 then s
        else
          let s := s.writeBackLine die line
          let d := s.dieOf die
          s.setDie die { d with annex := Table.erase d.annex line }
      else if a.dirty = 0 then s
      else (s.setDie die { d with writeBacks := d.writeBacks ++ [line] }).push (.dirtyWriteBack die line))

/-! ## Loads, stores and reductions reaching their points of coherence -/

/-- POC_LOAD: a prefetch renews a line at its die's point of coherence for the lease of its launch (R82); the reply travels to the L1. One that
has become needless, or meets a tenure, is dropped, with a request that it had made (R42). -/
def execPocLoad (core : Nat) (r : Prefetch) (s : State) : Host.Outcome State Fault Refusal :=
  .next (if (s.l1Hit core r.line).isSome ∨ !(s.tenured r.line).isEmpty then s.leaveLine (.prefetch core) r.line
    else match s.gate (.prefetch core) (some core) 0 (128 * r.line) 1 false true false with
      | (s, false) => s.push (.pocLoad core r)
      | (s, true) =>
        let s := s.allocate r.line (decide (homeOfLine r.line = dieOfCore core)) (!r.streaming)
        let (s, d, st) := s.renew core r.line r.lease
        let k := s.coreOf core
        (s.setCore core { k with replies := k.replies ++ [⟨r.line, d, st, r.streaming⟩] }).push (.loadReply core))

/-- LOAD_REPLY: the oldest reply is installed, unless the L1 holds a later copy; the clock rises (R83). -/
def execLoadReply (core : Nat) (s : State) : Host.Outcome State Fault Refusal :=
  let k := s.coreOf core
  .next (match k.replies with
    | [] => s
    | r :: rest =>
      let s := s.setCore core { k with replies := rest }
      let stale := match Table.find k.l1 r.line with
        | some l => l.kept || decide (l.dirty ≠ 0) || leT r.st.rts l.st.rts
        | none => false
      let s := if stale then s
        else s.installL1 core r.line { data := r.data, st := r.st, dirty := 0, kept := false, streaming := r.streaming }
      s.loadClock core r.st false)

/-- A pending store has been performed: it leaves the core's list, and its home records its identifier (R372). -/
def State.donePend (s : State) (core home : Nat) (p : PendStore) : State :=
  let k := s.coreOf core
  ((s.setCore core { k with pend := k.pend.filter (fun q => q.id ≠ p.id) }).noteRequest home core p.id 0).unqueue (.posted core)

/-- The oldest pending store of a core that has not been sent on is performed, or sent, or waits (R84). At the Catalogue it stands once, as the
store request of the die that performs it, from its arrival until it is performed (R42, R43). -/
def State.performPend (s : State) (core : Nat) (p : PendStore) : State :=
  let k := s.coreOf core
  let mark := s.setCore core { k with pend := k.pend.map (fun q => if q.id = p.id then { q with sent := true } else q) }
  let again := fun (s : State) => s.push (.pocStore core)
  if isAperture p.pa then mark.sendPeer core p.pa p.size p.v .store p.id none
  else if isControl p.pa then (s.regWrite p.pa p.size p.v false).donePend core hub p
  else if p.replicated then mark.sendReplicated core p.ctx p.pa p.size p.v .store p.issuedAt p.id none
  else
    let line := lineOf p.pa
    let home := homeOfLine line
    let die := dieOfCore core
    let uncached := decide (p.policy = polUncached)
    let atHome := uncached || decide (home = die)
    match s.gateTile (.posted core) (some core) p.ctx line with
    | (s, false) => again s
    | (s, true) =>
      match s.gateHost die p.pa p.size true (!atHome) uncached with
      | (s, false) => again s
      | (s, true) =>
        let s := if uncached then s.openTenured core p.ctx line true else s
        if s.tenureOf core p.ctx line = .write ∧ !uncached then
          (s.storeTenured core p.ctx p.pa p.size p.v p.lease).donePend core die p
        else
          let at_ := if atHome then home else die
          match s.storeTurn home at_ line (!(s.tenured line).isEmpty) with
          | .go r =>
            let s := if atHome then ((s.homeTake line).storeAt (some core) home p.pa p.size p.v (!uncached)).allocate line (!uncached) true
              else
                let s := if s.owner? home line = some die then s.installAnnex die line else s.takeOwnership die line
                s.storeAt (some core) die p.pa p.size p.v true
            (s.leaveStore home r).donePend core at_ p
          | .lost r => again (s.restartReq home r)
          | .ask => again (s.push (if atHome then .homeCoreAccess line true else .annexStoreRequest die line))

/-- POC_STORE: a core's oldest pending store (R84). -/
def execPocStore (core : Nat) (s : State) : Host.Outcome State Fault Refusal :=
  .next (match (s.coreOf core).pend.find? (fun p => !p.sent) with
    | none => s
    | some p => s.performPend core p)

/-- POC_ATOMIC: a core's oldest pending reduction (R231). -/
def execPocAtomic (core : Nat) (s : State) : Host.Outcome State Fault Refusal :=
  let k := s.coreOf core
  .next (match k.pendAtomics.find? (fun p => !p.sent) with
    | none => s
    | some p =>
      let n := atomWidth p.ty / 8
      let op : ReplOp := .atom p.ty p.op 0
      let mark := s.setCore core { k with pendAtomics := k.pendAtomics.map (fun q => if q.id = p.id then { q with sent := true } else q) }
      if p.replicated then mark.sendReplicated core p.ctx p.pa n p.v.toNat op p.issuedAt p.id none
      else if isAperture p.pa then mark.sendPeer core p.pa n p.v.toNat op p.id none
      else
        match s.atomicAny (.posted core) (some core) p.ctx p.policy p.pa n p.lease (op.new p.v.toNat) with
        | (s, none) => s.push (.pocAtomic core)
        | (s, some old) =>
          let k := s.coreOf core
          ((s.setCore core { k with pendAtomics := k.pendAtomics.filter (fun q => q.id ≠ p.id) }).noteRequest (requestHome p.pa) core p.id
            old).unqueue (.posted core))

/-! ## Logical time (R80, R88) -/

/-- CLOCK_SELF_ADVANCE: every core's clock advances by one tick, under the lead limit of its die (R80, R88). -/
def execClockSelfAdvance (s : State) : Host.Outcome State Fault Refusal :=
  .next ((List.range Config.numCores).foldl (fun s c =>
    let t := (s.coreOf c).clock + 1
    s.jumpTo c t) s)

def Stamp.old (st : Stamp) (t : BitVec 16) : Bool := decide (16384 < (t - st.wts).toNat) && decide ((t - st.wts).toNat < 32768)

/-- REFERENCE_EXCHANGE: the exchange of R88, after which the scrubbers visit what has grown old, and halves that have been
alike are looked at (R39). -/
def execReferenceExchange (s : State) : Host.Outcome State Fault Refusal :=
  let s := s.exchange
  let poc := s.dies.flatMap (fun p =>
    ((p.2.l2.filter (fun q => q.2.old p.2.ref)).map (fun q => Instr.pocScrub p.1 q.1)) ++
    ((p.2.annex.filter (fun q => q.2.st.old p.2.ref)).map (fun q => Instr.pocScrub p.1 q.1)))
  let l1 := s.cores.flatMap (fun p =>
    (p.2.l1.filter (fun q => q.2.st.old p.2.clock)).map (fun q => Instr.l1Scrub p.1 q.1))
  let merge := s.dies.flatMap (fun p =>
    (p.2.regions.filter (fun r => decide (r.size < 65536) && decide (r.base % (2 * r.size) = 0) &&
      decide (r.quietSince + 2 ^ p.2.quiet ≤ s.fabric))).map (fun r => Instr.regionMerge p.1 r.base))
  .next (s.pushAll (poc ++ l1 ++ merge))

/-- POC_SCRUB: a line whose wts lies more than 2^14 ticks behind the reference has both stamps raised (R88), and the origin time that stands
with them. -/
def execPocScrub (die line : Nat) (s : State) : Host.Outcome State Fault Refusal :=
  let r := (s.dieOf die).ref
  let st := s.stampAt die line
  .next (if st.old r then s.setStamp die line ⟨r - 16384, maxT st.rts (r - 16384), maxT st.origin (r - 16384)⟩ else s)

/-- L1_SCRUB: the L1 drops a clean line whose wts lies more than 2^14 ticks behind the clock (R88). -/
def execL1Scrub (core line : Nat) (s : State) : Host.Outcome State Fault Refusal :=
  let k := s.coreOf core
  .next (match Table.find k.l1 line with
    | some l => if l.dirty = 0 ∧ l.st.old k.clock then s.dropL1 core line else s
    | none => s)

/-! ## Replicated pages (R31, R302) -/

/-- Replace the first update that satisfies a test. -/
def mapFirst {α : Type} (p : α → Bool) (f : α → α) : List α → List α
  | [] => []
  | a :: l => if p a then f a :: l else a :: mapFirst p f l

/-- The command of a media engine that waits on its filtered semaphore (R417). -/
def State.mediaWaiting (s : State) (eng : Nat) : Option MediaCmd :=
  match (s.mediaOf eng).queue with
  | c :: _ => if c.phase = .filtered then some c else none
  | [] => none

/-- It has taken one filtered row and goes on (R417). -/
def State.mediaTook (s : State) (eng : Nat) : State :=
  let m := s.mediaOf eng
  (s.setMedia eng { m with queue := match m.queue with
    | c :: rest => { c with taken := c.taken + 1, phase := .rows } :: rest
    | [] => [] }).push (.mediaRow (BitVec.ofNat 4 eng).toFin)

/-- A thread whose atomic or semaphore wait will not be answered with a value takes a trap at its word. -/
def State.failWait (s : State) (tid : Nat) (tr : Trap) : State :=
  match s.thread? tid with
  | some t => ((s.setThread tid { t with status := .run }).trap tid tr).unqueue (.thread tid)
  | none => s

/-- The media engine's signal on its row semaphore has been performed (R417): the next row follows. -/
def State.mediaSignalled (s : State) (eng : Nat) : State :=
  let m := s.mediaOf eng
  match m.queue with
  | [] => s
  | c :: rest =>
    if c.phase = .signalling then
      (s.setMedia eng { m with queue := { c with row := c.row + 1, phase := .rows } :: rest }).push (.mediaRow (BitVec.ofNat 4 eng).toFin)
    else s

/-- The command of a media engine that waits for an update of a semaphore ends with a status: the word was poisoned (R389), or the peer was lost
(R398). -/
def State.mediaFails (s : State) (eng status cause : Nat) : State :=
  let m := s.mediaOf eng
  match m.queue with
  | [] => s
  | c :: rest =>
    if c.phase = .signalling ∨ c.phase = .filtered then
      (s.setMedia eng { m with queue := { c with phase := .done status cause } :: rest }).push (.mediaCommandComplete (BitVec.ofNat 4 eng).toFin)
    else s

/-- What waits for the signal box goes on: with the value found, or, where a take found too few signals, to try again (R252). -/
def State.answerAtomic (s : State) (who : Option Accessor) (old : Option Nat) : State :=
  match who with
  | some (.thread tid) =>
    (match s.thread? tid with
      | some t =>
        (match t.status with
          | .wait (.atomic p) => s.setThread tid { t with status := .run, answer := old.map (fun v => (v, p)) }
          | _ => s)
      | none => s)
  | some (.media eng) =>
    (match old, s.mediaWaiting eng with
      | some _, some _ => s.mediaTook eng
      | some _, none => s.mediaSignalled eng
      | none, _ => s.push (.mediaFilteredWait (BitVec.ofNat 4 eng).toFin))
  | _ => s

/-- An atomic that finds its word poisoned at the signal box consumes poisoned data: it changes nothing, and what waits for it traps, or ends
(R389; log entry 74). -/
def State.consumed (s : State) (u : ReplUpdate) : State :=
  match u.waiter with
  | some (.thread tid) =>
    (match s.thread? tid with
      | some t => (match t.status with
        | .wait (.atomic p) => s.failWait tid ⟨0x18, ptr (tagOf p) (vaOf p / 8 * 8)⟩
        | _ => s)
      | none => s)
  | some (.media eng) => s.mediaFails eng 6 0x18
  | _ => s.sentDone u.core u.id

/-- The origin time that an update carries from the signal box (R302): an atomic also carries on that of the value it found, so that what
acquires its result synchronises with the release that wrote that value (R304, R308; log entry 73). -/
def State.originOf (s : State) (u : ReplUpdate) : BitVec 16 :=
  if u.op = .store then u.origin else maxT u.origin (s.stampAt u.sbox (lineOf (replPa u.off u.sbox))).origin

/-- REPLICATED_UPDATE: the signal box numbers its oldest update, performs an atomic on its own copy, and multicasts (R31). An atomic waits
for the earlier updates of its own copy; a take of a semaphore that finds too few signals does nothing (R252). -/
def execReplicatedUpdate (sbox : Nat) (s : State) : Host.Outcome State Fault Refusal :=
  let mine := fun (u : ReplUpdate) => decide (u.sbox = sbox) && u.seq.isNone
  .next (match s.replicated.find? mine with
    | none => s
    | some u =>
      let earlier := s.replicated.any (fun q => decide (q.sbox = sbox) && q.seq.isSome && !(q.applied.contains sbox))
      if u.op ≠ .store ∧ earlier then s.push (.replicatedUpdate sbox)
      else
        let n := Table.getD s.sboxSeq sbox 0
        let old := s.bytesNow (replPa u.off sbox) u.size
        if u.op ≠ .store ∧ (s.poisonIn (replPa u.off sbox) u.size).isSome then
          ({ s with replicated := removeFirst mine s.replicated } : State).consumed u
        else if u.op = .semTake ∧ !(semReady old u.v) then
          ({ s with replicated := removeFirst mine s.replicated } : State).answerAtomic u.waiter none
        else
          { s with sboxSeq := Table.set s.sboxSeq sbox (n + 1),
                   replicated := mapFirst mine (fun u => { u with seq := some n, v := u.op.new u.v old, old := old, origin := s.originOf u }) s.replicated }.pushAll
            ((List.range 8).map (fun d => .replicatedBufferAck d ⟨sbox, n⟩)))

/-- REPLICATED_BUFFER_ACK: a die has stored an update of a signal box in its buffer; with the eighth the signal box commits (R31). -/
def execReplicatedBufferAck (die : Nat) (b : BoxUpdate) (s : State) : Host.Outcome State Fault Refusal :=
  let mine := fun (u : ReplUpdate) => decide (u.sbox = b.sbox) && decide (u.seq = some b.seq) && !u.committed && !(u.acks.contains die)
  .next (match s.replicated.find? mine with
    | none => s
    | some u =>
      let s := { s with replicated := mapFirst mine (fun u => { u with acks := u.acks ++ [die] }) s.replicated }
      if u.acks.length = 7 then s.push (.replicatedCommit u.sbox b.seq) else s)

/-- REPLICATED_COMMIT: the update is committed to every die (R31). -/
def execReplicatedCommit (sbox seq : Nat) (s : State) : Host.Outcome State Fault Refusal :=
  let mine := fun (u : ReplUpdate) => decide (u.sbox = sbox) && decide (u.seq = some seq) && decide (u.acks.length = 8)
  .next (if s.replicated.any mine then
    { s with replicated := mapFirst mine (fun u => { u with committed := true }) s.replicated }.pushAll
      ((List.range 8).map (fun d => .replicatedApply d))
  else s)

/-- An update has been applied on the issuing die: the store, reduction or atomic that it came from completes (R32), and the signal box has
its identifier and result (R372). -/
def State.doneReplicated (s : State) (u : ReplUpdate) : State :=
  let k := s.coreOf u.core
  let s := (s.setCore u.core { k with pend := k.pend.filter (fun p => p.id ≠ u.id),
                                      pendAtomics := k.pendAtomics.filter (fun p => p.id ≠ u.id) }).noteRequest u.sbox u.core u.id u.old
  (s.ownReplicated u.core u.off u.origin).answerAtomic u.waiter (some u.old)

/-- Every die has applied an update, the last at this timestamp or an earlier one (R302). -/
def State.seenByAll (s : State) (top : BitVec 16) : State :=
  (List.range 8).foldl (fun s d =>
    let k := s.dieOf d
    s.setDie d { k with replTop := some (match k.replTop with | some t => maxT t top | none => top) }) s

/-- REPLICATED_APPLY: a die applies the next committed update of a signal box to its copy, in sequence order (R31). An update of the yard or
the firmware is no core's. -/
def execReplicatedApply (die : Nat) (s : State) : Host.Outcome State Fault Refusal :=
  let behind := fun (u : ReplUpdate) => s.replicated.any (fun q => decide (q.sbox = u.sbox) && !(q.applied.contains die) &&
    (match q.seq, u.seq with
      | some a, some b => decide (a < b)
      | _, _ => false))
  let mine := fun (u : ReplUpdate) => u.committed && !(u.applied.contains die) && !(behind u)
  .next (match s.replicated.find? mine with
    | none => s
    | some u =>
      let s := s.applyReplicated die u.off u.size u.v u.origin
      let ts := (s.dieOf die).replT
      let k := s.coreOf u.core
      let s := if Config.numCores ≤ u.core then s
        else s.setCore u.core { k with
          replPkg := some (match k.replPkg with | some t => maxT t ts | none => ts),
          replDie := if dieOfCore u.core = die then some ts else k.replDie }
      let top := if u.applied.isEmpty then ts else maxT u.top ts
      let left := if u.applied.length = 7 then removeFirst mine s.replicated
        else mapFirst mine (fun u => { u with applied := u.applied ++ [die], top := top }) s.replicated
      let s : State := { s with replicated := left }
      let s := if u.applied.length = 7 then s.seenByAll top else s
      if dieOfCore u.core = die then s.doneReplicated u else s)

/-! ## Translation (R76) and the host (R33, R45, R46, R401) -/

/-- TRANSLATION_WALK: a walk fills a core's translation cache and its die's walker (R76). A malformed entry is reported (R74). -/
def execTranslationWalk (core ctx va : Nat) (s : State) : Host.Outcome State Fault Refusal :=
  .next (match s.context? ctx with
    | none => s
    | some c =>
      match walkWith ((s.dieOf (dieOfCore core)).held ctx) s.mem (rootAt c.area) va with
      | .error .absent => s
      | .error .bad => { s with reports := s.reports ++ [(3, va)] }
      | .ok (l, big) =>
        let x : Xlat := { va := va, pa := 0, n := 0, policy := leafPolicy l, repl := leafRepl l, owner := leafOwner l,
                          ed := if leafE l then some (leafBuf l, 0) else none, leaf := l, big := big }
        let k := s.coreOf core
        let s' := s.fillCaches core ctx 0 [x]
        s'.setCore core { k with tlb := (s'.coreOf core).tlb })

/-- HOST_SECTOR_RELEASE: the host gives up a sector that a device store waits for; what it had modified reaches the home
first (R45, R46). -/
def execHostSectorRelease (s : State) : Host.Outcome State Fault Refusal :=
  .next (match s.hostSectors.find? (fun p => p.2.wanted) with
    | none => s
    | some p =>
      let s := s.hostFlush (p.1 / 2)
      let s := { s with hostSectors := Table.erase s.hostSectors p.1 }
      if s.hostSectors.any (fun q => q.2.wanted) then s.pushOnce .hostSectorRelease else s)

/-- HOST_MEMORY_RESPONSE: the host answers the oldest request for a sector of host memory, with what it holds: a free value (R33, R45). The
host agent owns the sector from then on, or an uncached load of a die may read it once. -/
def execHostMemoryResponse (s : State) : Host.Outcome State Fault Refusal :=
  .next (match s.hostRequests with
    | [] => s
    | r :: rest =>
      let s := { s with hostRequests := rest }
      if s.hostHeld.contains r.sector then s
      else
        let s := { s with mem := Memory.write s.mem (64 * r.sector) 64 (Config.hostLine s.free) }.tick
        if r.own then { s with hostHeld := insertNat r.sector s.hostHeld }
        else { s with hostReads := s.hostReads ++ [(r.sector, r.die)] })

/-- Write bytes for the host, line by line: `none` while a line has to wait. -/
def State.hostStore (s : State) (pa v : Nat) : List (Nat × Nat) → State × Bool
  | [] => (s, true)
  | (off, n) :: rest =>
    match s.gate .host none 0 (pa + off) n true false true with
    | (s, false) => (s, false)
    | (s, true) => (s.storeNow none 0 polUncached (pa + off) n (v / 2 ^ (8 * off)) 0).hostStore pa v rest

/-- Read lines for the host: an owner writes back first (R40). -/
def State.hostLoad (s : State) (pa : Nat) : List (Nat × Nat) → State × Bool
  | [] => (s, true)
  | (off, n) :: rest =>
    match s.gate .host none 0 (pa + off) n false true true with
    | (s, false) => (s, false)
    | (s, true) => (s.homeRead (lineOf (pa + off))).hostLoad pa rest

/-! ## Peers (R398, R410) -/

/-- A peer has performed the oldest access that a core sent to one: it is performed at sys scope, the hub has its identifier (R372), and a
thread that waits has the value found there, a free value. A take of a semaphore that finds too few signals goes on waiting there (R252). -/
def State.peerAnswers (s : State) (core : Nat) : State :=
  match s.peerSent.find? (fun m => decide (m.core = core)) with
  | none => s
  | some m =>
    let old := (Config.freeWord s.free).toNat % 2 ^ (8 * m.size)
    let s : State := { s.tick with peerSent := removeFirst (fun q => decide (q = m)) s.peerSent }
    if m.op = .semTake ∧ !(semReady old m.v) then ({ s with peerSent := s.peerSent ++ [m] } : State).push (.peerAccess (.ack core))
    else if Config.numCores ≤ core then s
    else ((s.sentDone core m.id).noteRequest hub core m.id (if m.waiter.isSome then old else 0)).answerAtomic m.waiter (some old)

/-- PEER_ACCESS: a peer acknowledges; or a store or an atomic of a peer is performed at the home L2, as an uncached access (R26, R27). -/
def execPeerAccess (op : PeerOp) (s : State) : Host.Outcome State Fault Refusal :=
  let retry := fun (r : State × Bool) => if r.2 then r.1.unqueue .host else r.1.push (.peerAccess op)
  .next (match op with
    | .ack core => s.peerAnswers core
    | .store pa n v => if s.populatedRange pa n then retry (s.hostStore pa v (chunks pa n)) else s
    | .atom pa ty op v cas =>
      let n := atomWidth ty / 8
      if s.populatedRange pa n ∧ pa % n = 0 then
        retry (match s.atomicAt .host none 0 polUncached pa n 0 (fun old => atomNew ty op old v cas) with
          | (s, some _) => (s, true)
          | (s, none) => (s, false))
      else s)

/-- What waited for the answer of a dropped request. -/
def State.peerDrops (s : State) (m : PeerMsg) : State :=
  match m.waiter with
  | some (.thread tid) =>
    (match s.thread? tid with
      | some t => (match t.status with
        | .wait (.atomic p) => s.failWait tid ⟨0x0D, p⟩
        | _ => s)
      | none => s)
  | some (.media eng) => s.mediaFails eng 4 0x0D
  | _ => s.sentDone m.core m.id

/-- Outstanding remote stores, reductions and atomics to a lost peer are dropped: stores and reductions silently, the others with a trap in the
thread that waits (R398, R410), so also a SEMW that waits on a semaphore there. -/
def State.loosePeer (s : State) (peer : Nat) : State :=
  let lost := s.peerSent.filter (fun m => decide (m.peer = peer))
  let sems := s.semWaits.filter (fun w => isAperture w.pa && decide (peerOf w.pa = peer))
  let s : State := { s with peersLost := if s.peersLost.contains peer then s.peersLost else s.peersLost ++ [peer],
                            peerSent := s.peerSent.filter (fun m => m.peer ≠ peer),
                            semWaits := s.semWaits.filter (fun w => !(isAperture w.pa && decide (peerOf w.pa = peer))) }
  sems.foldl (fun s w => match w.who with
    | .thread tid => s.failWait tid ⟨0x0D, w.ptr⟩
    | .media eng => s.mediaFails eng 4 0x0D
    | _ => s) (lost.foldl (fun s m => s.peerDrops m) s)

end Sys2Proof.Machine
end

