-- ==== Sys2Proof/Decode.lean ====
section
/-!
DEFINITION. The decoder, total on every 64-bit word, and the encoder beside it.
Words and forms: R169 (frames), R170 (F), R178 (I), R180 (B), R182 (P). Operand codes: R115. The checks and their
order: R191. A word that is not an instruction is rejected by the name of its decode trap (0x01 to 0x05).
The one thing a word alone does not settle is whether the launch declares a level (R175, R250): the decoder takes the
launch's top level T as an argument.
-/
namespace Sys2Proof

/-- Why a word is not an instruction (R191), in the order of the checks. -/
inductive DecodeTrap where
  | illegal | reserved | operand | type | pairing
  deriving DecidableEq, Repr

/-- The cause code of a decode trap (R364). -/
def DecodeTrap.cause : DecodeTrap → BitVec 8
  | .illegal => 0x01
  | .reserved => 0x02
  | .operand => 0x03
  | .type => 0x04
  | .pairing => 0x05

/-! ### Raw fields -/

/-- The fields of an F-form word (R170), the frame apart. -/
structure RawF where
  op : BitVec 9
  pred : BitVec 3
  neg : BitVec 1
  dst : BitVec 8
  a : BitVec 8
  b : BitVec 8
  c : BitVec 8
  pat : BitVec 4
  tgt : BitVec 1
  la : BitVec 1
  lb : BitVec 1
  lc : BitVec 1
  ty : BitVec 3
  mod : BitVec 6
  deriving DecidableEq, Repr

/-- The fields of an I-form word (R178). -/
structure RawI where
  op : BitVec 6
  pred : BitVec 3
  neg : BitVec 1
  dst : BitVec 8
  a : BitVec 8
  mod : BitVec 4
  imm : BitVec 32
  deriving DecidableEq, Repr

/-- The fields of a B-form word (R180). -/
structure RawB where
  op : BitVec 6
  pred : BitVec 3
  neg : BitVec 1
  hint : BitVec 2
  a : BitVec 8
  aux : BitVec 8
  res : BitVec 3
  off : BitVec 30
  deriving DecidableEq, Repr

/-- The fields of one P-form half (R182). -/
structure RawH where
  op : BitVec 7
  dst : BitVec 8
  src : BitVec 8
  last : BitVec 1
  ty : BitVec 3
  pat : BitVec 4
  deriving DecidableEq, Repr

def unpackF (w : BitVec 64) : RawF where
  op := w.extractLsb' 53 9
  pred := w.extractLsb' 50 3
  neg := w.extractLsb' 49 1
  dst := w.extractLsb' 41 8
  a := w.extractLsb' 33 8
  b := w.extractLsb' 25 8
  c := w.extractLsb' 17 8
  pat := w.extractLsb' 13 4
  tgt := w.extractLsb' 12 1
  la := w.extractLsb' 11 1
  lb := w.extractLsb' 10 1
  lc := w.extractLsb' 9 1
  ty := w.extractLsb' 6 3
  mod := w.extractLsb' 0 6

def packF (r : RawF) : BitVec 64 :=
  0#2 ++ r.op ++ r.pred ++ r.neg ++ r.dst ++ r.a ++ r.b ++ r.c ++ r.pat ++ r.tgt ++ r.la ++ r.lb ++ r.lc
    ++ r.ty ++ r.mod

def unpackI (w : BitVec 64) : RawI where
  op := w.extractLsb' 56 6
  pred := w.extractLsb' 53 3
  neg := w.extractLsb' 52 1
  dst := w.extractLsb' 44 8
  a := w.extractLsb' 36 8
  mod := w.extractLsb' 32 4
  imm := w.extractLsb' 0 32

def packI (r : RawI) : BitVec 64 :=
  2#2 ++ r.op ++ r.pred ++ r.neg ++ r.dst ++ r.a ++ r.mod ++ r.imm

def unpackB (w : BitVec 64) : RawB where
  op := w.extractLsb' 55 6
  pred := w.extractLsb' 52 3
  neg := w.extractLsb' 51 1
  hint := w.extractLsb' 49 2
  a := w.extractLsb' 41 8
  aux := w.extractLsb' 33 8
  res := w.extractLsb' 30 3
  off := w.extractLsb' 0 30

def packB (r : RawB) : BitVec 64 :=
  6#3 ++ r.op ++ r.pred ++ r.neg ++ r.hint ++ r.a ++ r.aux ++ r.res ++ r.off

def unpackH (h : BitVec 31) : RawH where
  op := h.extractLsb' 24 7
  dst := h.extractLsb' 16 8
  src := h.extractLsb' 8 8
  last := h.extractLsb' 7 1
  ty := h.extractLsb' 4 3
  pat := h.extractLsb' 0 4

def packH (r : RawH) : BitVec 31 :=
  r.op ++ r.dst ++ r.src ++ r.last ++ r.ty ++ r.pat

/-! ### Operand codes (R115) -/

/-- The operand a code names; none for 0x9F and 0xC0 to 0xFF. -/
def operandOf (c : BitVec 8) : Option Operand :=
  let n := c.toNat
  if n < 0x80 then some (.reg (Fin.ofNat 128 n))
  else if n < 0x88 then some (.ind (Fin.ofNat 8 n))
  else if n < 0x90 then some (.indInc (Fin.ofNat 8 n))
  else if n < 0x98 then some (.queue (Fin.ofNat 8 n))
  else if n = 0x98 then some .zero
  else if n = 0x99 then some (.special .lane)
  else if n = 0x9A then some (.special .gid)
  else if n = 0x9B then some (.special .clock)
  else if n = 0x9C then some (.special .cycle)
  else if n = 0x9D then some (.special .core)
  else if n = 0x9E then some (.special .die)
  else if n < 0xA0 then none
  else if n < 0xC0 then some (.const (Fin.ofNat 32 (n - 0xA0)))
  else none

def specialCode : Special → BitVec 8
  | .lane => 0x99
  | .gid => 0x9A
  | .clock => 0x9B
  | .cycle => 0x9C
  | .core => 0x9D
  | .die => 0x9E

def operandCode : Operand → BitVec 8
  | .reg n => BitVec.ofNat 8 n.val
  | .ind x => BitVec.ofNat 8 (0x80 + x.val)
  | .indInc x => BitVec.ofNat 8 (0x88 + x.val)
  | .queue q => BitVec.ofNat 8 (0x90 + q.val)
  | .zero => 0x98
  | .special s => specialCode s
  | .const c => BitVec.ofNat 8 (0xA0 + c.val)

def isRegCode (c : BitVec 8) : Bool := decide (c.toNat < 0x80)
/-- Codes a value source accepts (R197). -/
def isValueSource (c : BitVec 8) : Bool :=
  decide (c.toNat ≤ 0x9E) || (decide (0xA0 ≤ c.toNat) && decide (c.toNat ≤ 0xBF))
/-- Codes a value destination accepts (R197). -/
def isValueDest (c : BitVec 8) : Bool := decide (c.toNat ≤ 0x98)

/-! ### Field codes -/

def itypeOf (c : BitVec 3) : IType :=
  match c.toNat with
  | 0 => .i64 | 1 => .i32 | 2 => .i16 | 3 => .i8 | 4 => .u64 | 5 => .u32 | 6 => .u16 | _ => .u8

def itypeCode : IType → BitVec 3
  | .i64 => 0 | .i32 => 1 | .i16 => 2 | .i8 => 3 | .u64 => 4 | .u32 => 5 | .u16 => 6 | .u8 => 7

/-- The float column; code 111 is the illegal type (R172). -/
def ftypeOf (c : BitVec 3) : FType :=
  match c.toNat with
  | 0 => .f64 | 1 => .f32 | 2 => .f16 | 3 => .b16 | 4 => .f8 | 5 => .f6 | _ => .f4

def ftypeCode : FType → BitVec 3
  | .f64 => 0 | .f32 => 1 | .f16 => 2 | .b16 => 3 | .f8 => 4 | .f6 => 5 | .f4 => 6

def patOf (c : BitVec 4) : LanePat :=
  match c.toNat with
  | 0 => .ident | 1 => .rot1 | 2 => .rot2 | 3 => .rot4 | 4 => .rot8 | 5 => .rot16 | 6 => .rotm1 | 7 => .rev
  | 8 => .rev8 | 9 => .xor1 | 10 => .xor2 | 11 => .xor4 | 12 => .bc0 | 13 => .bc8 | _ => .subrev

def patCode : LanePat → BitVec 4
  | .ident => 0 | .rot1 => 1 | .rot2 => 2 | .rot4 => 3 | .rot8 => 4 | .rot16 => 5 | .rotm1 => 6 | .rev => 7
  | .rev8 => 8 | .xor1 => 9 | .xor2 => 10 | .xor4 => 11 | .bc0 => 12 | .bc8 => 13 | .subrev => 14

def rndOf (c : BitVec 2) : Rnd :=
  match c.toNat with
  | 0 => .rn | 1 => .rz | 2 => .rd | _ => .ru

def rndCode : Rnd → BitVec 2
  | .rn => 0 | .rz => 1 | .rd => 2 | .ru => 3

def condOf (c : BitVec 3) : Cond :=
  match c.toNat with
  | 0 => .eq | 1 => .ne | 2 => .lt | 3 => .le | 4 => .gt | _ => .ge

def condCode : Cond → BitVec 3
  | .eq => 0 | .ne => 1 | .lt => 2 | .le => 3 | .gt => 4 | .ge => 5

def fcondOf (c : BitVec 3) : FCond :=
  match c.toNat with
  | 0 => .eq | 1 => .ne | 2 => .lt | 3 => .le | 4 => .gt | 5 => .ge | _ => .un

def fcondCode : FCond → BitVec 3
  | .eq => 0 | .ne => 1 | .lt => 2 | .le => 3 | .gt => 4 | .ge => 5 | .un => 6

def orderOf (c : BitVec 3) : Order :=
  match c.toNat with
  | 0 => .rlx | 1 => .acq | 2 => .rel | 3 => .ar | _ => .sc

def orderCode : Order → BitVec 3
  | .rlx => 0 | .acq => 1 | .rel => 2 | .ar => 3 | .sc => 4

/-- Scope codes; code 6 takes its level from bits 2:0 of srcC (R175). -/
def scopeOf (c : BitVec 3) (srcC : BitVec 8) : Scope :=
  match c.toNat with
  | 0 => .group | 1 => .core | 2 => .quad | 3 => .die | 4 => .pkg | 5 => .sys
  | _ => .lvl (Fin.ofNat 8 srcC.toNat)

def scopeCode : Scope → BitVec 3
  | .group => 0 | .core => 1 | .quad => 2 | .die => 3 | .pkg => 4 | .sys => 5 | .lvl _ => 6

def scopeSrcC : Scope → BitVec 8
  | .lvl n => BitVec.ofNat 8 n.val
  | _ => 0

def atomOpOf (c : BitVec 8) : AtomOp :=
  match c.toNat with
  | 0 => .swap | 1 => .cas | 2 => .add | 3 => .and | 4 => .or | 5 => .xor | 6 => .min | 7 => .max | _ => .fadd

def atomOpCode : AtomOp → BitVec 8
  | .swap => 0 | .cas => 1 | .add => 2 | .and => 3 | .or => 4 | .xor => 5 | .min => 6 | .max => 7 | .fadd => 8

def atomTyOf (op : AtomOp) (c : BitVec 3) : AtomTy :=
  if op = .fadd then .flt (ftypeOf c) else .int (itypeOf c)

def atomTyCode : AtomTy → BitVec 3
  | .int t => itypeCode t
  | .flt t => ftypeCode t

def granOf (c : BitVec 3) : Gran :=
  match c.toNat with
  | 0 => .b64 | 1 => .b32 | 2 => .b16 | 3 => .b8 | 4 => .b4 | _ => .b6

def granCode : Gran → BitVec 3
  | .b64 => 0 | .b32 => 1 | .b16 => 2 | .b8 => 3 | .b4 => 4 | .b6 => 5

def voteOf (c : BitVec 3) : VoteFn :=
  match c.toNat with
  | 0 => .any | 1 => .all | 2 => .ballot | _ => .uni

def voteCode : VoteFn → BitVec 3
  | .any => 0 | .all => 1 | .ballot => 2 | .uni => 3

def edqOf (c : BitVec 3) : EdqFn :=
  match c.toNat with
  | 0 => .num | 1 => .pin | 2 => .unpin | _ => .dpins

def edqCode : EdqFn → BitVec 3
  | .num => 0 | .pin => 1 | .unpin => 2 | .dpins => 3

def kindOf (c : BitVec 8) : AccessKind :=
  match c.toNat with
  | 0 => .load | 1 => .store | 2 => .atomic | 3 => .fetch | 4 => .engRead | 5 => .engWrite | 6 => .engAdd
  | 7 => .publish | _ => .writeTenure

def kindCode : AccessKind → BitVec 8
  | .load => 0 | .store => 1 | .atomic => 2 | .fetch => 3 | .engRead => 4 | .engWrite => 5 | .engAdd => 6
  | .publish => 7 | .writeTenure => 8

def ldsFnOf (c : BitVec 2) : LdsFn :=
  match c.toNat with
  | 0 => .plain | 1 => .take | _ => .peek

def ldsFnCode : LdsFn → BitVec 2
  | .plain => 0 | .take => 1 | .peek => 2

/-- CSR numbers (R220); none for a number the table does not list. -/
def csrOf (c : BitVec 6) : Option Csr :=
  match c.toNat with
  | 0 => some .tctl | 1 => some .astat | 2 => some .gstat | 3 => some .lclock
  | 8 => some .tvec | 9 => some .svec | 10 => some .tmode | 11 => some .tepc | 12 => some .tcause
  | 13 => some .tval | 14 => some .tsave
  | n => if 0x10 ≤ n ∧ n < 0x18 then some (.lidx (Fin.ofNat 8 n))
         else if 0x18 ≤ n ∧ n < 0x20 then some (.lcnt (Fin.ofNat 8 n))
         else none

def csrCode : Csr → BitVec 6
  | .tctl => 0 | .astat => 1 | .gstat => 2 | .lclock => 3 | .tvec => 8 | .svec => 9 | .tmode => 10 | .tepc => 11
  | .tcause => 12 | .tval => 13 | .tsave => 14
  | .lidx n => BitVec.ofNat 6 (0x10 + n.val)
  | .lcnt n => BitVec.ofNat 6 (0x18 + n.val)

def hintOf (c : BitVec 2) : Hint :=
  match c.toNat with
  | 0 => .none | 1 => .likely | 2 => .unlikely | _ => .diverge

def hintCode : Hint → BitVec 2
  | .none => 0 | .likely => 1 | .unlikely => 2 | .diverge => 3

def boolOf (b : BitVec 1) : Bool := decide (b ≠ 0#1)
def bitOf (b : Bool) : BitVec 1 := if b then 1#1 else 0#1

/-! ### What an F-form instruction accepts -/

/-- The kind of an operand field (R197, R258, R285, R287). `direct m` is a register coded 0x00 to 0x7F with number at
most m; `name` is one that is not read (FREE, R209). -/
inductive FieldKind where
  | unused
  | value
  | dest
  | direct (max : Nat)
  | name
  | sel (bits : Nat)
  | imm (ok : BitVec 8 → Bool)
  | level

/-- What the type field accepts (R172). -/
inductive TypeKind where
  | none
  | int (ok : IType → Bool)
  | flt (ok : FType → Bool)
  | raw (ok : BitVec 3 → Bool)

/-- One entry of the F-form: its fields and the modifier values it lists. -/
structure FSpec where
  dst : FieldKind
  a : FieldKind
  b : FieldKind
  c : FieldKind
  ty : TypeKind
  mod : BitVec 6 → Bool
  /-- further reasons for trap 0x02, 0x03 and 0x04 that the entry gives -/
  bad2 : RawF → Bool := fun _ => false
  bad3 : RawF → Bool := fun _ => false
  bad4 : RawF → Bool := fun _ => false

def anyI : IType → Bool := fun _ => true
def anyF : FType → Bool := fun _ => true
def ieeeF : FType → Bool := fun t => decide (t = .f64 ∨ t = .f32 ∨ t = .f16 ∨ t = .b16)
def specF : FType → Bool := fun t => decide (t = .f32 ∨ t = .f16 ∨ t = .b16)
def quantF : FType → Bool := fun t => decide (t = .f32 ∨ t = .f16 ∨ t = .b16 ∨ t = .f8)
def dotF : FType → Bool := fun t => decide (t ≠ .f64 ∧ t ≠ .f32)
def dotI : IType → Bool := fun t => decide (t = .i8 ∨ t = .u8 ∨ t = .i16 ∨ t = .u16)

def modFn (m : BitVec 6) : BitVec 3 := m.extractLsb' 3 3
def modSat (m : BitVec 6) : BitVec 1 := m.extractLsb' 2 1
def modRnd (m : BitVec 6) : BitVec 2 := m.extractLsb' 0 2
def modScope (m : BitVec 6) : BitVec 3 := m.extractLsb' 3 3
def modOrder (m : BitVec 6) : BitVec 3 := m.extractLsb' 0 3

/-- Modifier layout A (R173) with `fns` function values, with or without saturation and rounding. -/
def layoutA (fns : Nat) (sat rnd : Bool) (m : BitVec 6) : Bool :=
  decide ((modFn m).toNat < fns) && (sat || modSat m == 0) && (rnd || modRnd m == 0)

def modZero (m : BitVec 6) : Bool := m == 0
def modLt (n : Nat) (m : BitVec 6) : Bool := decide (m.toNat < n)

/-- Modifier layout M (R174, R226): the orders the entry accepts; with rlx the scope is group. -/
def layoutM (ok : Order → Bool) (lvl : Bool) (m : BitVec 6) : Bool :=
  decide ((modOrder m).toNat < 5) && ok (orderOf (modOrder m)) &&
  decide ((modScope m).toNat < (if lvl then 7 else 6)) &&
  (!(decide ((modOrder m).toNat = 0)) || decide ((modScope m).toNat = 0))

def ordLd : Order → Bool | .rlx | .acq | .sc => true | _ => false
def ordSt : Order → Bool | .rlx | .rel | .sc => true | _ => false
def ordLdp : Order → Bool | .rlx | .acq => true | _ => false
def ordStp : Order → Bool | .rlx | .rel => true | _ => false
def ordAll : Order → Bool := fun _ => true
def ordFence : Order → Bool | .rlx => false | _ => true
def ordRel : Order → Bool | .rel => true | _ => false
def ordAcq : Order → Bool | .acq => true | _ => false
def ordAr : Order → Bool | .ar => true | _ => false

def immLt (n : Nat) (v : BitVec 8) : Bool := decide (v.toNat < n)
def immAny (_ : BitVec 8) : Bool := true
def immIn (lo hi : Nat) (v : BitVec 8) : Bool := decide (lo ≤ v.toNat ∧ v.toNat ≤ hi)
def immPacked (v : BitVec 8) : Bool := decide (v.toNat = 2 ∨ v.toNat = 4 ∨ v.toNat = 8)

/-- Sub-element counts (R136). -/
def itypeCount : IType → Nat
  | .i64 | .u64 => 1
  | .i32 | .u32 => 2
  | .i16 | .u16 => 4
  | .i8 | .u8 => 8

def ftypeCount : FType → Nat
  | .f64 => 1
  | .f32 => 2
  | .f16 | .b16 => 4
  | .f8 => 8
  | .f6 => 10
  | .f4 => 16

def uns (t : TypeKind) (m : BitVec 6 → Bool) : FSpec :=
  { dst := .dest, a := .value, b := .unused, c := .unused, ty := t, mod := m }
def bins (t : TypeKind) (m : BitVec 6 → Bool) : FSpec :=
  { dst := .dest, a := .value, b := .value, c := .unused, ty := t, mod := m }
def ters (t : TypeKind) (m : BitVec 6 → Bool) : FSpec :=
  { dst := .dest, a := .value, b := .value, c := .value, ty := t, mod := m }
def preds (d a b : Bool) : FSpec :=
  { dst := if d then .sel 3 else .unused, a := if a then .sel 3 else .unused, b := if b then .sel 3 else .unused,
    c := .unused, ty := .none, mod := modZero }

/-- QBP and DQBP control: planes 2 to 8 in bits 7:4, bit 3 zero (R267). -/
def immQuant (v : BitVec 8) : Bool :=
  decide (2 ≤ v.toNat / 16 ∧ v.toNat / 16 ≤ 8) && decide (v.toNat / 8 % 2 = 0)

/-- ENGQ's selector (R248). -/
def immEngq (v : BitVec 8) : Bool :=
  decide (v.toNat < 64) && (decide (v.toNat % 4 = 3) || decide (v.toNat / 4 = 0))

def atomTyOk (op : BitVec 8) (ty : BitVec 3) : Bool :=
  if op.toNat = 8 then decide (ty.toNat < 2)
  else decide (ty.toNat = 0 ∨ ty.toNat = 1 ∨ ty.toNat = 4 ∨ ty.toNat = 5)

/-- The INT group (R198 to R209). -/
def fSpecInt (r : RawF) : Option FSpec :=
  match r.op.toNat with
  | 0x00 | 0x01 | 0x02 => some (bins (.int anyI) (layoutA 1 true false))
  | 0x03 | 0x05 | 0x06 | 0x07 | 0x08 => some (bins (.int anyI) modZero)
  | 0x04 => some (ters (.int anyI) (layoutA 1 true false))
  | 0x09 | 0x0A => some (uns (.int anyI) (layoutA 1 true false))
  | 0x0B | 0x0C | 0x0D | 0x0E | 0x10 | 0x11 | 0x12 | 0x13 | 0x17 => some (bins (.int anyI) modZero)
  | 0x0F | 0x14 | 0x15 | 0x16 | 0x1A => some (uns (.int anyI) modZero)
  | 0x18 => some (ters (.int anyI) modZero)
  | 0x19 => some { bins (.int anyI) modZero with c := .imm (immLt 16) }
  | 0x1B => some { uns (.int anyI) (layoutA 8 true false) with
      c := .imm (fun v => decide (v.toNat < itypeCount (itypeOf (modFn r.mod)))) }
  | 0x1C => some { bins .none modZero with c := .imm (immLt 8) }
  | 0x1D => some (bins .none modZero)
  | 0x1E => some { bins .none modZero with c := .imm (immLt 9) }
  | 0x1F => some { bins (.int anyI) (layoutA 6 false false) with dst := .sel 3, c := .imm (immLt 2) }
  | 0x20 | 0x21 | 0x22 => some (preds true true true)
  | 0x23 => some (preds true true false)
  | 0x24 => match (modFn r.mod).toNat with
    | 0 => some { preds true true false with mod := layoutA 3 false false }
    | 1 => some { preds false false false with dst := .dest, mod := layoutA 3 false false }
    | _ => some { preds false false false with a := .value, mod := layoutA 3 false false }
  | 0x25 => some { preds true false false with a := .value }
  | 0x26 => some { preds true false false with a := .value, mod := layoutA 2 false false }
  | 0x27 => some { preds false true false with dst := .dest }
  | 0x28 => some { preds true false false with c := .imm (immLt 17) }
  | 0x29 => some { preds false true false with dst := .dest }
  | 0x2A => some { preds false false false with
      a := .name, c := .imm immAny, bad2 := fun r => isRegCode r.a && decide (r.a.toNat + r.c.toNat + 1 > 128) }
  | _ => none

/-- The FLT group (R256 to R279). -/
def fSpecFlt (r : RawF) : Option FSpec :=
  match r.op.toNat with
  | 0x80 | 0x81 | 0x82 => some (bins (.flt anyF) (layoutA 1 false true))
  | 0x83 => some (ters (.flt anyF) (layoutA 1 false true))
  | 0x84 | 0x85 => some (bins (.flt anyF) (layoutA 2 false false))
  | 0x86 => some { bins (.flt anyF) (layoutA 7 false false) with dst := .sel 3, c := .imm (immLt 2) }
  | 0x87 => some (bins (.flt ieeeF) (layoutA 1 false true))
  | 0x88 | 0x89 => some (uns (.flt ieeeF) (layoutA 1 false true))
  | 0x8A | 0x8B | 0x8C | 0x8D | 0x8E | 0x8F => some (uns (.flt specF) (layoutA 1 false true))
  | 0x90 => some (uns (.flt anyF) (layoutA 2 false true))
  | 0x91 => some (uns (.flt anyF) modZero)
  | 0x92 => some { uns (.flt anyF) (layoutA 8 false true) with
      c := .imm (fun v => modFn r.mod == 7 || decide (v.toNat < ftypeCount (ftypeOf (modFn r.mod)))),
      bad4 := fun r => modFn r.mod == 7 }
  | 0x93 => some { uns (.int anyI) (layoutA 8 false true) with
      c := .imm (fun v => modFn r.mod == 7 || decide (v.toNat < ftypeCount (ftypeOf (modFn r.mod)))),
      bad4 := fun r => modFn r.mod == 7 }
  | 0x94 => some { uns (.flt anyF) (layoutA 8 false true) with
      c := .imm (fun v => decide (v.toNat < itypeCount (itypeOf (modFn r.mod)))) }
  | 0x95 => some { bins (.flt anyF) (layoutA 1 false true) with c := .imm (immLt 8) }
  | 0x96 => some { bins (.flt quantF) modZero with c := .imm immQuant }
  | 0x97 => some { bins (.flt quantF) (layoutA 1 false true) with c := .imm immQuant }
  | 0x98 => some (ters (.flt dotF) (layoutA 1 false true))
  | 0x99 => some (ters (.int dotI) (layoutA 1 true false))
  | 0x9A => some { bins (.int anyI) modZero with a := .direct 127, bad3 := fun r => r.pat != 0 }
  | 0x9B => some { uns .none (layoutA 6 false false) with c := .sel 2 }
  | 0x9C => some { uns .none modZero with a := .direct 127, c := .sel 2 }
  | 0x9D => some (uns .none (layoutA 4 false false))
  | 0x9E => some (preds false false false)
  | 0x9F => some { preds false false false with a := .value, ty := .flt anyF }
  | 0xA0 => some { preds false false false with
      a := .value, b := .value, ty := .flt (fun t => decide (t ≠ .f64)) }
  | 0xA1 => some { preds false false false with dst := .dest, ty := .flt anyF, mod := layoutA 1 false true }
  | 0xA2 => some (uns (.flt anyF) (layoutA 1 false true))
  | 0xA3 => match (modFn r.mod).toNat with
    | 0 => some { preds false false false with dst := .sel 2, mod := layoutA 2 false false }
    | _ => some { preds false false false with dst := .sel 2, a := .value, mod := layoutA 2 false false }
  | 0xA4 => some { preds false false false with
      dst := .sel 2, a := .value, ty := .int anyI, mod := layoutA 2 false false }
  | 0xA5 => match (modFn r.mod).toNat with
    | 0 => some { preds false false false with a := .sel 2, b := .sel 2, mod := layoutA 2 false false }
    | _ => some { preds false false false with dst := .dest, a := .sel 2, mod := layoutA 2 false false }
  | 0xA6 => match (modFn r.mod).toNat with
    | 0 => some { preds false false false with
        dst := .dest, ty := .raw (fun t => decide (t.toNat = 4)), mod := layoutA 3 false false }
    | 1 => some { preds false false false with
        dst := .dest, ty := .raw (fun t => decide (t.toNat = 1 ∨ t.toNat = 2)), mod := layoutA 3 false false }
    | _ => some { preds false false false with
        a := .value, ty := .raw (fun t => decide (t.toNat = 0)), mod := layoutA 3 false false }
  | _ => none

/-- Level-relative scope takes its level from srcC (R175); otherwise srcC is unused. -/
def scopeField (r : RawF) : FieldKind := if (modScope r.mod).toNat = 6 then .level else .unused

/-- Registers n to n + count - 1 must exist (R228). -/
def packedBad (n count : BitVec 8) : Bool := isRegCode n && decide (n.toNat + count.toNat > 128)

def x16Bad3 (n : BitVec 8) (r : RawF) : Bool := r.mod.getLsbD 2 && !(decide (n.toNat ≤ 126))
def x16Bad4 (r : RawF) : Bool := r.mod.getLsbD 2 && !(decide (r.ty.toNat = 4))

/-- The MEM group (R224 to R255). -/
def fSpecMem (r : RawF) : Option FSpec :=
  match r.op.toNat with
  | 0x100 => some { uns (.int anyI) (layoutM ordLd true) with c := scopeField r }
  | 0x101 => some { preds false false false with
      a := .value, b := .value, c := scopeField r, ty := .int anyI, mod := layoutM ordSt true }
  | 0x102 => some { uns (.int anyI) (fun m => decide (m.toNat < 8) && !(decide (m.toNat % 4 = 3))) with
      c := .imm immAny, bad3 := fun r => x16Bad3 r.dst r, bad4 := x16Bad4 }
  | 0x103 => some { bins (.int anyI) (fun m => decide (m.toNat < 8) && decide (m.toNat % 4 < 2)) with
      dst := .unused, c := .imm immAny, bad3 := fun r => x16Bad3 r.b r, bad4 := x16Bad4 }
  | 0x104 => some { uns .none (layoutM ordLdp false) with
      dst := .direct 127, c := .imm immPacked, bad3 := fun r => packedBad r.dst r.c }
  | 0x105 => some { bins .none (layoutM ordStp false) with
      dst := .unused, b := .direct 127, c := .imm immPacked, bad3 := fun r => packedBad r.b r.c }
  | 0x106 => some { preds false false false with a := .value, c := .imm (immLt 2) }
  | 0x107 => some { bins (.raw (fun t => atomTyOk r.c t)) (layoutM ordAll false) with
      dst := .direct 127, c := .imm (immLt 9) }
  | 0x108 => some { bins (.raw (fun t => atomTyOk r.c t)) (layoutM ordStp false) with
      dst := .unused, c := .imm (immIn 2 8) }
  | 0x109 => some { preds false false false with c := scopeField r, mod := layoutM ordFence true }
  | 0x10A => some { bins .none (modLt 2) with dst := .unused }
  | 0x10B => some (uns .none modZero)
  | 0x10C => some { uns .none (modLt 2) with dst := .unused }
  | 0x10D => some (uns .none modZero)
  | 0x10E => some { bins .none modZero with dst := .direct 126, c := .imm (immLt 4) }
  | 0x10F => some { uns .none modZero with dst := .unused }
  | 0x110 => some (uns .none modZero)
  | 0x111 => some { uns .none (fun m => decide ((modFn m).toNat < 4) && decide (m.toNat % 8 = 0)) with
      b := if (modFn r.mod).toNat = 2 then .value else .unused }
  | 0x112 => some (uns .none modZero)
  | 0x113 => some { uns .none (layoutM ordRel true) with c := scopeField r }
  | 0x114 => some (preds false false false)
  | 0x115 | 0x116 => some (uns .none modZero)
  | 0x117 => some (ters .none (modLt 4))
  | 0x118 => some (bins .none modZero)
  | 0x119 => some (ters .none (modLt 4))
  | 0x11A => some { uns .none modZero with c := .imm (immIn 2 7) }
  | 0x11B => some { uns .none modZero with c := .imm (immLt 16) }
  | 0x11C => some { uns .none (modLt 2) with c := .imm immEngq }
  | 0x11D => some { ters .none modZero with dst := .unused }
  | 0x11E => some { uns .none modZero with a := .unused }
  | 0x11F => some { preds false false false with c := .level, bad2 := fun r => decide (r.c.toNat = 0) }
  | 0x120 => some { preds false false false with
      dst := .dest, c := .level, bad2 := fun r => decide (r.c.toNat = 0) }
  | 0x121 => some { preds false false false with
      a := .value, c := .level, bad2 := fun r => decide (r.c.toNat = 0) }
  | 0x122 => some { bins .none (layoutM ordAcq false) with c := .imm (immLt 2) }
  | 0x123 => some { bins .none (layoutM ordRel true) with dst := .unused, c := scopeField r }
  | 0x124 => some { preds false false false with a := .direct 124, c := .imm (immLt 2) }
  | 0x125 => some { preds false false false with dst := .direct 124, c := .imm (immLt 3) }
  | 0x126 => some { uns .none (layoutM ordAr false) with c := .imm (immLt 2) }
  | 0x127 => some (bins .none modZero)
  | _ => none

/-- The MTX group (R287) and the SYS group (R220 to R223). -/
def fSpecMtx (r : RawF) : Option FSpec :=
  match r.op.toNat with
  | 0x180 => some { preds false false false with a := .value, c := .imm (immIn 2 8), mod := layoutA 2 false false }
  | 0x181 => some (preds false false false)
  | 0x182 => some { preds false false false with
      a := .value, b := .value, c := .imm (immLt 64), mod := layoutA 2 false false }
  | 0x183 => some { preds false false false with dst := .sel 1, c := .imm (immIn 2 8) }
  | 0x184 => some { preds false false false with dst := .sel 1, a := .value, c := .imm (immLt 64) }
  | 0x185 => some { preds false false false with dst := .direct 124, a := .sel 1, b := .value }
  | 0x186 => some { preds false false false with dst := .sel 1, a := .direct 124, b := .value }
  | 0x187 => some { preds false false false with
      dst := .dest, a := .value, b := .direct 124, c := .direct 124,
      mod := fun m => decide ((modFn m).toNat < 7) }
  | 0x1C0 => some { preds false false false with dst := .dest, mod := fun m => (csrOf m).isSome }
  | 0x1C1 => some { uns .none (fun m => (csrOf m).isSome && !(csrOf m == some .tmode)) with a := .value }
  | 0x1C2 | 0x1C3 => some { uns .none (fun m => (csrOf m).isSome && !(csrOf m == some .lclock)) with a := .value }
  | 0x1C4 => some { preds false false false with mod := fun _ => true }
  | 0x1C5 => some (preds false false false)
  | _ => none

/-- The F-form opcode map (R186); none for an unassigned code (R190). -/
def fSpec (r : RawF) : Option FSpec :=
  if r.op.toNat < 0x80 then fSpecInt r
  else if r.op.toNat < 0x100 then fSpecFlt r
  else if r.op.toNat < 0x180 then fSpecMem r
  else fSpecMtx r

/-! ### The checks of R191 -/

/-- Check 2 on one field: reserved or unused fields, values out of a field's range, an undeclared level. -/
def fieldOk2 (top : Nat) (k : FieldKind) (v : BitVec 8) : Bool :=
  match k with
  | .unused => v == 0
  | .sel n => decide (v.toNat < 2 ^ n)
  | .imm ok => ok v
  | .level => decide (v.toNat < 8) && (decide (v.toNat < 2) || decide (v.toNat ≤ top))
  | _ => true

/-- Check 3 on one field: the operand kind. -/
def fieldOk3 (k : FieldKind) (v : BitVec 8) : Bool :=
  match k with
  | .value => isValueSource v
  | .dest => isValueDest v
  | .direct m => decide (v.toNat ≤ m)
  | .name => isRegCode v
  | _ => true

/-- Whether a source field is read as a register operand, so that a mark or a pattern may apply (R117, R177). -/
def fieldReads (k : FieldKind) (v : BitVec 8) : Bool :=
  match k with
  | .value | .direct _ => isRegCode v
  | _ => false

def typeOk2 (k : TypeKind) (ty : BitVec 3) : Bool :=
  match k with
  | .none => ty == 0
  | _ => true

def typeOk4 (k : TypeKind) (ty : BitVec 3) : Bool :=
  match k with
  | .none => true
  | .int ok => ok (itypeOf ty)
  | .flt ok => decide (ty.toNat < 7) && ok (ftypeOf ty)
  | .raw ok => ok ty

def hasType (k : TypeKind) : Bool := match k with | .none => false | _ => true

def patternTarget (s : FSpec) (r : RawF) : Bool :=
  if r.tgt = 0 then fieldReads s.a r.a else fieldReads s.b r.b

def check2F (top : Nat) (s : FSpec) (r : RawF) : Bool :=
  fieldOk2 top s.dst r.dst && fieldOk2 top s.a r.a && fieldOk2 top s.b r.b && fieldOk2 top s.c r.c
    && typeOk2 s.ty r.ty && s.mod r.mod && r.pat != 15 && !(r.pat == 0 && r.tgt == 1) && !(s.bad2 r)

def check3F (s : FSpec) (r : RawF) : Bool :=
  fieldOk3 s.dst r.dst && fieldOk3 s.a r.a && fieldOk3 s.b r.b && fieldOk3 s.c r.c
    && (r.la == 0 || fieldReads s.a r.a) && (r.lb == 0 || fieldReads s.b r.b) && (r.lc == 0 || fieldReads s.c r.c)
    && (r.pat == 0 || patternTarget s r) && !(r.pat == 14 && !(hasType s.ty)) && !(s.bad3 r)

def check4F (s : FSpec) (r : RawF) : Bool := typeOk4 s.ty r.ty && !(s.bad4 r)

/-! ### Building the instruction -/

def opnd (c : BitVec 8) : Operand := (operandOf c).getD .zero
def rGuard (p : BitVec 3) (n : BitVec 1) : Guard := ⟨Fin.ofNat 8 p.toNat, boolOf n⟩
def rG (r : RawF) : Guard := rGuard r.pred r.neg
def rPat (r : RawF) : Pat := ⟨patOf r.pat, boolOf r.tgt⟩
def rLp (r : RawF) : LanePat := patOf r.pat
def rA (r : RawF) : Src := ⟨opnd r.a, boolOf r.la⟩
def rB (r : RawF) : Src := ⟨opnd r.b, boolOf r.lb⟩
def rC (r : RawF) : Src := ⟨opnd r.c, boolOf r.lc⟩
def rUn {τ : Type} (t : τ) (r : RawF) : Un τ := ⟨rG r, rPat r, t, opnd r.dst, rA r⟩
def rBin {τ : Type} (t : τ) (r : RawF) : Bin τ := ⟨rG r, rPat r, t, opnd r.dst, rA r, rB r⟩
def rTer {τ : Type} (t : τ) (r : RawF) : Ter τ := ⟨rG r, rPat r, t, opnd r.dst, rA r, rB r, rC r⟩
def uI (r : RawF) : Un IType := rUn (itypeOf r.ty) r
def bI (r : RawF) : Bin IType := rBin (itypeOf r.ty) r
def tI (r : RawF) : Ter IType := rTer (itypeOf r.ty) r
def uF (r : RawF) : Un FType := rUn (ftypeOf r.ty) r
def bF (r : RawF) : Bin FType := rBin (ftypeOf r.ty) r
def tF (r : RawF) : Ter FType := rTer (ftypeOf r.ty) r
def uN (r : RawF) : Un Unit := rUn () r
def bN (r : RawF) : Bin Unit := rBin () r
def tN (r : RawF) : Ter Unit := rTer () r
def rSat (r : RawF) : Bool := boolOf (modSat r.mod)
def rRnd (r : RawF) : Rnd := rndOf (modRnd r.mod)
def rFn1 (r : RawF) : Bool := r.mod.getLsbD 3
def f8 (v : BitVec 8) : Fin 8 := Fin.ofNat 8 v.toNat
def f128 (v : BitVec 8) : Fin 128 := Fin.ofNat 128 v.toNat
def rOrd (r : RawF) : Order := orderOf (modOrder r.mod)
def rSc (r : RawF) : Scope := scopeOf (modScope r.mod) r.c

def buildInt (r : RawF) : Instr :=
  match r.op.toNat with
  | 0x00 => .add (bI r) (rSat r)
  | 0x01 => .sub (bI r) (rSat r)
  | 0x02 => .mul (bI r) (rSat r)
  | 0x03 => .mulhi (bI r)
  | 0x04 => .mad (tI r) (rSat r)
  | 0x05 => .div (bI r)
  | 0x06 => .rem (bI r)
  | 0x07 => .min (bI r)
  | 0x08 => .max (bI r)
  | 0x09 => .abs (uI r) (rSat r)
  | 0x0A => .neg (uI r) (rSat r)
  | 0x0B => .and (bI r)
  | 0x0C => .or (bI r)
  | 0x0D => .xor (bI r)
  | 0x0E => .andn (bI r)
  | 0x0F => .not (uI r)
  | 0x10 => .shl (bI r)
  | 0x11 => .shr (bI r)
  | 0x12 => .sar (bI r)
  | 0x13 => .rotl (bI r)
  | 0x14 => .clz (uI r)
  | 0x15 => .popc (uI r)
  | 0x16 => .brev (uI r)
  | 0x17 => .bfx (bI r)
  | 0x18 => .bfi (tI r)
  | 0x19 => .sel (bI r) (f8 r.c) (r.c.getLsbD 3)
  | 0x1A => .mov (uI r)
  | 0x1B => .cvti (uI r) (itypeOf (modFn r.mod)) (f8 r.c) (rSat r)
  | 0x1C => .lea (bN r) (f8 r.c)
  | 0x1D => .ptag (bN r)
  | 0x1E => .pchk (bN r) (kindOf r.c)
  | 0x1F => .cmp (rG r) (rPat r) (itypeOf r.ty) (f8 r.dst) (rA r) (rB r) (condOf (modFn r.mod)) (r.c.getLsbD 0)
  | 0x20 => .pand (rG r) (f8 r.dst) (f8 r.a) (f8 r.b)
  | 0x21 => .por (rG r) (f8 r.dst) (f8 r.a) (f8 r.b)
  | 0x22 => .pxor (rG r) (f8 r.dst) (f8 r.a) (f8 r.b)
  | 0x23 => .pnot (rG r) (f8 r.dst) (f8 r.a)
  | 0x24 => .pmov (rG r) (match (modFn r.mod).toNat with
    | 0 => .copy (f8 r.dst) (f8 r.a)
    | 1 => .get (opnd r.dst)
    | _ => .set (rA r) (rLp r))
  | 0x25 => .ixset (rG r) (rLp r) (f8 r.dst) (rA r)
  | 0x26 => .ixcur (rG r) (rLp r) (f8 r.dst) (rA r) (rFn1 r)
  | 0x27 => .ixget (rG r) (opnd r.dst) (f8 r.a)
  | 0x28 => .qcfg (rG r) (f8 r.dst) (Fin.ofNat 17 r.c.toNat)
  | 0x29 => .qocc (rG r) (opnd r.dst) (f8 r.a)
  | _ => .free (rG r) (f128 r.a) (f128 r.c)

def buildFlt (r : RawF) : Instr :=
  match r.op.toNat with
  | 0x80 => .fadd (bF r) (rRnd r)
  | 0x81 => .fsub (bF r) (rRnd r)
  | 0x82 => .fmul (bF r) (rRnd r)
  | 0x83 => .fma (tF r) (rRnd r)
  | 0x84 => .fmin (bF r) (rFn1 r)
  | 0x85 => .fmax (bF r) (rFn1 r)
  | 0x86 => .fcmp (rG r) (rPat r) (ftypeOf r.ty) (f8 r.dst) (rA r) (rB r) (fcondOf (modFn r.mod)) (r.c.getLsbD 0)
  | 0x87 => .fdiv (bF r) (rRnd r)
  | 0x88 => .fsqrt (uF r) (rRnd r)
  | 0x89 => .frcp (uF r) (rRnd r)
  | 0x8A => .frsq (uF r) (rRnd r)
  | 0x8B => .fexp2 (uF r) (rRnd r)
  | 0x8C => .flog2 (uF r) (rRnd r)
  | 0x8D => .fsin (uF r) (rRnd r)
  | 0x8E => .fcos (uF r) (rRnd r)
  | 0x8F => .ftanh (uF r) (rRnd r)
  | 0x90 => .frnd (uF r) (rFn1 r) (rRnd r)
  | 0x91 => .fclass (uF r)
  | 0x92 => .fcvt (uF r) (ftypeOf (modFn r.mod)) (Fin.ofNat 16 r.c.toNat) (rRnd r)
  | 0x93 => .ftoi (uI r) (ftypeOf (modFn r.mod)) (Fin.ofNat 16 r.c.toNat) (rRnd r)
  | 0x94 => .itof (uF r) (itypeOf (modFn r.mod)) (f8 r.c) (rRnd r)
  | 0x95 => .fscale (bF r) (f8 r.c) (rRnd r)
  | 0x96 => .qbp (bF r) (Fin.ofNat 9 (r.c.toNat / 16)) (f8 r.c)
  | 0x97 => .dqbp (bF r) (Fin.ofNat 9 (r.c.toNat / 16)) (f8 r.c) (rRnd r)
  | 0x98 => .fdot4 (tF r) (rRnd r)
  | 0x99 => .idot4 (tI r) (rSat r)
  | 0x9A => .shfl (bI r)
  | 0x9B => .bnset (rG r) (rLp r) (granOf (modFn r.mod)) (opnd r.dst) (rA r) (Fin.ofNat 4 r.c.toNat)
  | 0x9C => .bnmov (rG r) (rLp r) (opnd r.dst) (rA r) (Fin.ofNat 4 r.c.toNat)
  | 0x9D => .vote (rG r) (rLp r) (voteOf (modFn r.mod)) (opnd r.dst) (rA r)
  | 0x9E => .kclr (rG r)
  | 0x9F => .kadd (rG r) (rLp r) (ftypeOf r.ty) (rA r)
  | 0xA0 => .kmac (rG r) (rPat r) (ftypeOf r.ty) (rA r) (rB r)
  | 0xA1 => .krnd (rG r) (ftypeOf r.ty) (rRnd r) (opnd r.dst)
  | 0xA2 => .kscan (uF r) (rRnd r)
  | 0xA3 => .ckclr (rG r) (Fin.ofNat 4 r.dst.toNat) (if rFn1 r then .set (rA r) (rLp r) else .clear)
  | 0xA4 => .ckacc (rG r) (rLp r) (itypeOf r.ty) (Fin.ofNat 4 r.dst.toNat) (rA r) (rFn1 r)
  | 0xA5 => .ckchk (rG r) (if rFn1 r then .get (opnd r.dst) (Fin.ofNat 4 r.a.toNat)
      else .check (Fin.ofNat 4 r.a.toNat) (Fin.ofNat 4 r.b.toNat))
  | _ => .rng (rG r) (match (modFn r.mod).toNat with
    | 0 => .raw (opnd r.dst)
    | 1 => if r.ty.toNat = 1 then .unifF32 (opnd r.dst) else .unifF16 (opnd r.dst)
    | _ => .seed (rA r) (rLp r))

def buildMem (r : RawF) : Instr :=
  match r.op.toNat with
  | 0x100 => .ld (rG r) (rLp r) (itypeOf r.ty) (rOrd r) (rSc r) (opnd r.dst) (rA r)
  | 0x101 => .st (rG r) (rPat r) (itypeOf r.ty) (rOrd r) (rSc r) (rA r) (rB r)
  | 0x102 => .lds (rG r) (rLp r) (itypeOf r.ty) (r.mod.getLsbD 2) (ldsFnOf (modRnd r.mod)) (opnd r.dst) (rA r) r.c
  | 0x103 => .sts (rG r) (rPat r) (itypeOf r.ty) (r.mod.getLsbD 2) (r.mod.getLsbD 0) (rA r) (rB r) r.c
  | 0x104 => .ldp (rG r) (rLp r) (rOrd r) (rSc r) (f128 r.dst) (rA r) (Fin.ofNat 9 r.c.toNat)
  | 0x105 => .stp (rG r) (rPat r) (rOrd r) (rSc r) (rA r) (f128 r.b) (boolOf r.lb) (Fin.ofNat 9 r.c.toNat)
  | 0x106 => .pref (rG r) (rLp r) (rA r) (r.c.getLsbD 0)
  | 0x107 => .atom (rG r) (rPat r) (atomTyOf (atomOpOf r.c) r.ty) (atomOpOf r.c) (rOrd r) (rSc r) (f128 r.dst)
      (rA r) (rB r)
  | 0x108 => .red (rG r) (rPat r) (atomTyOf (atomOpOf r.c) r.ty) (atomOpOf r.c) (rOrd r) (rSc r) (rA r) (rB r)
  | 0x109 => .fence (rG r) (rOrd r) (rSc r)
  | 0x10A => .feop (rG r) (rPat r) (r.mod.getLsbD 0) (rA r) (rB r)
  | 0x10B => .tdef (rG r) (rLp r) (opnd r.dst) (rA r)
  | 0x10C => .tacq (rG r) (rLp r) (r.mod.getLsbD 0) (rA r)
  | 0x10D => .trel (rG r) (rLp r) (opnd r.dst) (rA r)
  | 0x10E => .tsplit (rG r) (rPat r) (f128 r.dst) (rA r) (rB r) (Fin.ofNat 4 r.c.toNat)
  | 0x10F => .tfree (rG r) (rLp r) (rA r)
  | 0x110 => .tqry (rG r) (rLp r) (opnd r.dst) (rA r)
  | 0x111 => .edq (rG r) (rPat r) (edqOf (modFn r.mod)) (opnd r.dst) (rA r) (rB r)
  | 0x112 => .edcopy (rG r) (rLp r) (opnd r.dst) (rA r)
  | 0x113 => .pub (rG r) (rLp r) (rSc r) (opnd r.dst) (rA r)
  | 0x114 => .adopt (rG r)
  | 0x115 => .retract (rG r) (rLp r) (opnd r.dst) (rA r)
  | 0x116 => .rwait (rG r) (rLp r) (opnd r.dst) (rA r)
  | 0x117 => .cpy (tN r) (r.mod.getLsbD 0) (r.mod.getLsbD 1)
  | 0x118 => .cpyt (bN r)
  | 0x119 => .gath (tN r) (r.mod.getLsbD 0) (r.mod.getLsbD 1)
  | 0x11A => .coll (rG r) (rLp r) (opnd r.dst) (rA r) (f8 r.c)
  | 0x11B => .vcmd (rG r) (rLp r) (opnd r.dst) (rA r) (Fin.ofNat 16 r.c.toNat)
  | 0x11C => .engq (rG r) (rLp r) (r.mod.getLsbD 0) (opnd r.dst) (rA r) (Fin.ofNat 4 r.c.toNat)
      (Fin.ofNat 16 (r.c.toNat / 4))
  | 0x11D => .fork (rG r) (rPat r) (rA r) (rB r) (rC r)
  | 0x11E => .rdv (rG r) (opnd r.dst)
  | 0x11F => .bar (rG r) (f8 r.c)
  | 0x120 => .arrv (rG r) (opnd r.dst) (f8 r.c)
  | 0x121 => .bwait (rG r) (rLp r) (rA r) (f8 r.c)
  | 0x122 => .semw (rG r) (rPat r) (rSc r) (r.c.getLsbD 0) (opnd r.dst) (rA r) (rB r)
  | 0x123 => .sems (rG r) (rPat r) (rSc r) (rA r) (rB r)
  | 0x124 => .spush (rG r) (rLp r) (f128 r.a) (boolOf r.la) (r.c.getLsbD 0)
  | 0x125 => .spop (rG r) (f128 r.dst) (Fin.ofNat 3 r.c.toNat)
  | 0x126 => .join (rG r) (rLp r) (rSc r) (opnd r.dst) (rA r) (r.c.getLsbD 0)
  | _ => .launch (bN r)

def buildMtx (r : RawF) : Instr :=
  match r.op.toNat with
  | 0x180 => .mbld (rG r) (rLp r) (rFn1 r) (rA r) (Fin.ofNat 9 r.c.toNat)
  | 0x181 => .mbswp (rG r)
  | 0x182 => .marb (rG r) (rPat r) (rFn1 r) (rA r) (rB r) (Fin.ofNat 64 r.c.toNat)
  | 0x183 => .mma (rG r) (Fin.ofNat 2 r.dst.toNat) (Fin.ofNat 9 r.c.toNat)
  | 0x184 => .mzero (rG r) (rLp r) (Fin.ofNat 2 r.dst.toNat) (rA r) (Fin.ofNat 64 r.c.toNat)
  | 0x185 => .mrd (rG r) (rLp r) (f128 r.dst) (Fin.ofNat 2 r.a.toNat) (rB r)
  | 0x186 => .mwr (rG r) (rPat r) (Fin.ofNat 2 r.dst.toNat) (f128 r.a) (boolOf r.la) (rB r)
  | 0x187 => .mdrain (rG r) (rPat r) (opnd r.dst) (if r.mod.getLsbD 0 then 1 else 0) (rA r) (f128 r.b) (boolOf r.lb)
      (f128 r.c) (boolOf r.lc) (Fin.ofNat 7 (modFn r.mod).toNat) (r.mod.getLsbD 2) (r.mod.getLsbD 1)
  | 0x1C0 => .csrr (rG r) (opnd r.dst) ((csrOf r.mod).getD .tctl)
  | 0x1C1 => .csrw (rG r) (rLp r) (opnd r.dst) ((csrOf r.mod).getD .tctl) (rA r)
  | 0x1C2 => .csrs (rG r) (rLp r) (opnd r.dst) ((csrOf r.mod).getD .tctl) (rA r)
  | 0x1C3 => .csrc (rG r) (rLp r) (opnd r.dst) ((csrOf r.mod).getD .tctl) (rA r)
  | 0x1C4 => .sysc (rG r) r.mod
  | _ => .eret (rG r)

def buildF (r : RawF) : Instr :=
  if r.op.toNat < 0x80 then buildInt r
  else if r.op.toNat < 0x100 then buildFlt r
  else if r.op.toNat < 0x180 then buildMem r
  else buildMtx r

def decodeF (top : Nat) (r : RawF) : Except DecodeTrap Instr :=
  match fSpec r with
  | none => .error .illegal
  | some s =>
    if !(check2F top s r) then .error .reserved
    else if !(check3F s r) then .error .operand
    else if !(check4F s r) then .error .type
    else .ok (buildF r)

/-! ### The I-form (R178, R179, R210) -/

def check2I (r : RawI) : Bool :=
  match r.op.toNat with
  | 0 => decide (r.mod.toNat < 2) && r.a == 0
  | 1 => r.mod == 0
  | 2 | 3 | 4 | 5 => decide (r.mod.toNat < 2)
  | 6 => decide (r.mod.toNat % 8 < 6) && decide (r.dst.toNat < 8)
  | _ => true

def check3I (r : RawI) : Bool :=
  match r.op.toNat with
  | 0 => isValueDest r.dst
  | 6 => isValueSource r.a
  | 8 => isValueSource r.dst && isValueSource r.a
  | _ => isValueDest r.dst && isValueSource r.a

def iG (r : RawI) : Guard := rGuard r.pred r.neg
def iImm (r : RawI) : Imm := ⟨iG r, opnd r.dst, opnd r.a, r.imm⟩

def buildI (r : RawI) : Instr :=
  match r.op.toNat with
  | 0 => .movi (iG r) (opnd r.dst) (r.mod.getLsbD 0) r.imm
  | 1 => .movhi (iImm r)
  | 2 => .addi (iImm r) (r.mod.getLsbD 0)
  | 3 => .andi (iImm r) (r.mod.getLsbD 0)
  | 4 => .ori (iImm r) (r.mod.getLsbD 0)
  | 5 => .xori (iImm r) (r.mod.getLsbD 0)
  | 6 => .cmpi (iG r) (f8 r.dst) (opnd r.a) (condOf (r.mod.extractLsb' 0 3)) (r.mod.getLsbD 3) r.imm
  | 7 => .ldo (iImm r) (Fin.ofNat 4 r.mod.toNat) (Fin.ofNat 4 (r.mod.toNat / 4))
  | _ => .sto (iImm r) (Fin.ofNat 4 r.mod.toNat) (Fin.ofNat 4 (r.mod.toNat / 4))

def decodeI (r : RawI) : Except DecodeTrap Instr :=
  if r.op.toNat ≥ 9 then .error .illegal
  else if !(check2I r) then .error .reserved
  else if !(check3I r) then .error .operand
  else .ok (buildI r)

/-! ### The B-form (R180, R212) -/

def takesHint (op : Nat) : Bool := decide (op < 5)
def takesOffset (op : Nat) : Bool := decide (op = 0 ∨ op = 2)
def takesSrcA (op : Nat) : Bool := decide (op = 1 ∨ op = 3 ∨ op = 4)
def takesLink (op : Nat) : Bool := decide (op = 2 ∨ op = 3)
def takesCode (op : Nat) : Bool := decide (op = 9 ∨ op = 10)

def check2B (r : RawB) : Bool :=
  let op := r.op.toNat
  (takesHint op || r.hint == 0) && (takesOffset op || r.off == 0) && (takesSrcA op || r.a == 0)
    && (takesLink op || takesCode op || r.aux == 0) && r.res == 0
    && !(op == 5 && !(r.pred == 0 && r.neg == 0))

def check3B (r : RawB) : Bool :=
  let op := r.op.toNat
  (!(takesSrcA op) || isValueSource r.a) && (!(takesLink op) || isRegCode r.aux)

def bG (r : RawB) : Guard := rGuard r.pred r.neg

def buildB (r : RawB) : Instr :=
  match r.op.toNat with
  | 0 => .bra (bG r) (hintOf r.hint) r.off
  | 1 => .brx (bG r) (hintOf r.hint) (opnd r.a)
  | 2 => .call (bG r) (hintOf r.hint) (f128 r.aux) r.off
  | 3 => .callx (bG r) (hintOf r.hint) (f128 r.aux) (opnd r.a)
  | 4 => .rtn (bG r) (hintOf r.hint) (opnd r.a)
  | 5 => .conv
  | 6 => .yield (bG r)
  | 7 => .tail (bG r)
  | 8 => .exit (bG r)
  | 9 => .trap (bG r) r.aux
  | 10 => .bpt (bG r) r.aux
  | _ => .nop (bG r)

def decodeB (r : RawB) : Except DecodeTrap Instr :=
  if r.op.toNat ≥ 12 then .error .illegal
  else if !(check2B r) then .error .reserved
  else if !(check3B r) then .error .operand
  else .ok (buildB r)

/-! ### The P-form (R182 to R185, R189) -/

def halfClassA (op : BitVec 7) : Bool := decide (op.toNat < 15)
/-- A binary half also reads its dst (R183); MOV, NEG and ABS do not. -/
def halfReadsDst (op : BitVec 7) : Bool := !(decide (op.toNat = 12 ∨ op.toNat = 13 ∨ op.toNat = 14))

def halfOk2 (r : RawH) : Bool := r.pat != 15
def halfOk3 (r : RawH) : Bool :=
  isValueDest r.dst && isValueSource r.src && (r.last == 0 || isRegCode r.src) && (r.pat == 0 || isRegCode r.src)
def halfOk4 (r : RawH) : Bool := halfClassA r.op || decide (r.ty.toNat < 4)

/-- Registers a half reads, codes 0x00 to 0x7F only (R184 rule 2). -/
def halfReads (r : RawH) : List Nat :=
  (if isRegCode r.src then [r.src.toNat] else []) ++
  (if halfReadsDst r.op && isRegCode r.dst then [r.dst.toNat] else [])

def banksOf (l : List Nat) : List Nat := (l.map (· % 4)).eraseDups

/-- The pairing rules of R184. -/
def pairOk (h0 h1 : RawH) : Bool :=
  !(isRegCode h0.dst && isRegCode h1.dst && h0.dst.toNat % 4 == h1.dst.toNat % 4)
  && decide ((banksOf (halfReads h0 ++ halfReads h1)).length ≤ 3)
  && !(isRegCode h0.dst && (h1.src == h0.dst || (halfReadsDst h1.op && h1.dst == h0.dst)))
  && halfClassA h1.op
  && !(decide (0x80 ≤ h1.dst.toNat ∧ h1.dst.toNat ≤ 0x97)) && !(decide (0x80 ≤ h1.src.toNat ∧ h1.src.toNat ≤ 0x97))

def halfI (r : RawH) : Half IType := ⟨itypeOf r.ty, opnd r.dst, ⟨opnd r.src, boolOf r.last⟩, patOf r.pat⟩
def halfF (r : RawH) : Half FType := ⟨ftypeOf r.ty, opnd r.dst, ⟨opnd r.src, boolOf r.last⟩, patOf r.pat⟩

def halfOpOf (c : BitVec 7) : HalfOp :=
  match c.toNat with
  | 0 => .add | 1 => .sub | 2 => .mul | 3 => .and | 4 => .or | 5 => .xor | 6 => .andn | 7 => .shl | 8 => .shr
  | 9 => .sar | 10 => .min | 11 => .max | 12 => .mov | 13 => .neg | _ => .abs

def halfOpCode : HalfOp → BitVec 7
  | .add => 0 | .sub => 1 | .mul => 2 | .and => 3 | .or => 4 | .xor => 5 | .andn => 6 | .shl => 7 | .shr => 8
  | .sar => 9 | .min => 10 | .max => 11 | .mov => 12 | .neg => 13 | .abs => 14

def half1 (r : RawH) : Half1 := ⟨halfOpOf r.op, halfI r⟩

def buildP (h0 h1 : RawH) : Instr :=
  match h0.op.toNat with
  | 0 => .addHalf (halfI h0) (half1 h1)
  | 1 => .subHalf (halfI h0) (half1 h1)
  | 2 => .mulHalf (halfI h0) (half1 h1)
  | 3 => .andHalf (halfI h0) (half1 h1)
  | 4 => .orHalf (halfI h0) (half1 h1)
  | 5 => .xorHalf (halfI h0) (half1 h1)
  | 6 => .andnHalf (halfI h0) (half1 h1)
  | 7 => .shlHalf (halfI h0) (half1 h1)
  | 8 => .shrHalf (halfI h0) (half1 h1)
  | 9 => .sarHalf (halfI h0) (half1 h1)
  | 10 => .minHalf (halfI h0) (half1 h1)
  | 11 => .maxHalf (halfI h0) (half1 h1)
  | 12 => .movHalf (halfI h0) (half1 h1)
  | 13 => .negHalf (halfI h0) (half1 h1)
  | 14 => .absHalf (halfI h0) (half1 h1)
  | 15 => .faddHalf (halfF h0) (half1 h1)
  | 16 => .fsubHalf (halfF h0) (half1 h1)
  | 17 => .fmulHalf (halfF h0) (half1 h1)
  | 18 => .fminHalf (halfF h0) (half1 h1)
  | _ => .fmaxHalf (halfF h0) (half1 h1)

def decodeP (h0 h1 : RawH) : Except DecodeTrap Instr :=
  if h0.op.toNat ≥ 20 ∨ h1.op.toNat ≥ 20 then .error .illegal
  else if !(halfOk2 h0 && halfOk2 h1) then .error .reserved
  else if !(halfOk3 h0 && halfOk3 h1) then .error .operand
  else if !(halfOk4 h0 && halfOk4 h1) then .error .type
  else if !(pairOk h0 h1) then .error .pairing
  else .ok (buildP h0 h1)

/-! ### The decoder -/

/-- Decode one word under a launch whose top level is `top` (R169, R191). -/
def decodeWord (top : Nat) (w : BitVec 64) : Except DecodeTrap Instr :=
  match (w.extractLsb' 62 2).toNat with
  | 0 => decodeF top (unpackF w)
  | 1 => decodeP (unpackH (w.extractLsb' 31 31)) (unpackH (w.extractLsb' 0 31))
  | 2 => decodeI (unpackI w)
  | _ => if w.getLsbD 61 then .error .illegal else decodeB (unpackB w)

/-- The instruction the decoder reads from a word numbered as the opcode table numbers it: an instruction is one 64-bit
word, and every level is taken as declared. -/
def decodeTableWord (nbits w : Nat) : Option Instr :=
  if nbits = 0 ∨ nbits > 64 then none
  else match decodeWord 7 (BitVec.ofNat 64 (w % 2 ^ nbits)) with
    | .ok i => some i
    | .error _ => none

/-! ### The encoder -/

def gF (g : Guard) (op : BitVec 9) : RawF :=
  { op := op, pred := BitVec.ofNat 3 g.p.val, neg := bitOf g.neg, dst := 0, a := 0, b := 0, c := 0, pat := 0, tgt := 0,
    la := 0, lb := 0, lc := 0, ty := 0, mod := 0 }
def RawF.withPat (r : RawF) (p : Pat) : RawF := { r with pat := patCode p.pat, tgt := bitOf p.onB }
def RawF.withLp (r : RawF) (p : LanePat) : RawF := { r with pat := patCode p }
def RawF.withD (r : RawF) (d : Operand) : RawF := { r with dst := operandCode d }
def RawF.withA (r : RawF) (s : Src) : RawF := { r with a := operandCode s.op, la := bitOf s.last }
def RawF.withB (r : RawF) (s : Src) : RawF := { r with b := operandCode s.op, lb := bitOf s.last }
def RawF.withC (r : RawF) (s : Src) : RawF := { r with c := operandCode s.op, lc := bitOf s.last }

def eUn {τ : Type} (code : τ → BitVec 3) (op : BitVec 9) (o : Un τ) (m : BitVec 6) : RawF :=
  { (((gF o.g op).withPat o.pat).withD o.d).withA o.a with ty := code o.ty, mod := m }
def eBin {τ : Type} (code : τ → BitVec 3) (op : BitVec 9) (o : Bin τ) (m : BitVec 6) : RawF :=
  { ((((gF o.g op).withPat o.pat).withD o.d).withA o.a).withB o.b with ty := code o.ty, mod := m }
def eTer {τ : Type} (code : τ → BitVec 3) (op : BitVec 9) (o : Ter τ) (m : BitVec 6) : RawF :=
  { (((((gF o.g op).withPat o.pat).withD o.d).withA o.a).withB o.b).withC o.c with ty := code o.ty, mod := m }
def unitCode (_ : Unit) : BitVec 3 := 0
def satMod (s : Bool) : BitVec 6 := if s then 4 else 0
def rndMod (r : Rnd) : BitVec 6 := (0#4 ++ rndCode r)
def fnMod (f : BitVec 3) (lo : BitVec 3) : BitVec 6 := f ++ lo
def fn1Mod (b : Bool) : BitVec 6 := if b then 8 else 0
def b8 (n : Nat) : BitVec 8 := BitVec.ofNat 8 n
def cnd3 (b : Bool) : BitVec 8 := if b then 1 else 0
def memMod (o : Order) (s : Scope) : BitVec 6 := scopeCode s ++ orderCode o

/-- The F-form fields of an instruction; none for the other forms and for the machine's own events. -/
def encodeF : Instr → Option RawF
  | .add o s => some (eBin itypeCode 0x00 o (satMod s))
  | .sub o s => some (eBin itypeCode 0x01 o (satMod s))
  | .mul o s => some (eBin itypeCode 0x02 o (satMod s))
  | .mulhi o => some (eBin itypeCode 0x03 o 0)
  | .mad o s => some (eTer itypeCode 0x04 o (satMod s))
  | .div o => some (eBin itypeCode 0x05 o 0)
  | .rem o => some (eBin itypeCode 0x06 o 0)
  | .min o => some (eBin itypeCode 0x07 o 0)
  | .max o => some (eBin itypeCode 0x08 o 0)
  | .abs o s => some (eUn itypeCode 0x09 o (satMod s))
  | .neg o s => some (eUn itypeCode 0x0A o (satMod s))
  | .and o => some (eBin itypeCode 0x0B o 0)
  | .or o => some (eBin itypeCode 0x0C o 0)
  | .xor o => some (eBin itypeCode 0x0D o 0)
  | .andn o => some (eBin itypeCode 0x0E o 0)
  | .not o => some (eUn itypeCode 0x0F o 0)
  | .shl o => some (eBin itypeCode 0x10 o 0)
  | .shr o => some (eBin itypeCode 0x11 o 0)
  | .sar o => some (eBin itypeCode 0x12 o 0)
  | .rotl o => some (eBin itypeCode 0x13 o 0)
  | .clz o => some (eUn itypeCode 0x14 o 0)
  | .popc o => some (eUn itypeCode 0x15 o 0)
  | .brev o => some (eUn itypeCode 0x16 o 0)
  | .bfx o => some (eBin itypeCode 0x17 o 0)
  | .bfi o => some (eTer itypeCode 0x18 o 0)
  | .sel o pq n => some { eBin itypeCode 0x19 o 0 with c := b8 (pq.val + if n then 8 else 0) }
  | .mov o => some (eUn itypeCode 0x1A o 0)
  | .cvti o f s sat => some { eUn itypeCode 0x1B o (fnMod (itypeCode f) (if sat then 4 else 0)) with c := b8 s.val }
  | .lea o s => some { eBin unitCode 0x1C o 0 with c := b8 s.val }
  | .ptag o => some (eBin unitCode 0x1D o 0)
  | .pchk o k => some { eBin unitCode 0x1E o 0 with c := kindCode k }
  | .cmp g p t pd a b c any => some { (((gF g 0x1F).withPat p).withA a).withB b with
      dst := b8 pd.val, c := cnd3 any, ty := itypeCode t, mod := fnMod (condCode c) 0 }
  | .pand g pd pa pb => some { gF g 0x20 with dst := b8 pd.val, a := b8 pa.val, b := b8 pb.val }
  | .por g pd pa pb => some { gF g 0x21 with dst := b8 pd.val, a := b8 pa.val, b := b8 pb.val }
  | .pxor g pd pa pb => some { gF g 0x22 with dst := b8 pd.val, a := b8 pa.val, b := b8 pb.val }
  | .pnot g pd pa => some { gF g 0x23 with dst := b8 pd.val, a := b8 pa.val }
  | .pmov g (.copy pd pa) => some { gF g 0x24 with dst := b8 pd.val, a := b8 pa.val }
  | .pmov g (.get d) => some { (gF g 0x24).withD d with mod := fnMod 1 0 }
  | .pmov g (.set a p) => some { ((gF g 0x24).withLp p).withA a with mod := fnMod 2 0 }
  | .ixset g p x a => some { ((gF g 0x25).withLp p).withA a with dst := b8 x.val }
  | .ixcur g p x a add => some { ((gF g 0x26).withLp p).withA a with dst := b8 x.val, mod := fn1Mod add }
  | .ixget g d x => some { (gF g 0x27).withD d with a := b8 x.val }
  | .qcfg g q d => some { gF g 0x28 with dst := b8 q.val, c := b8 d.val }
  | .qocc g d q => some { (gF g 0x29).withD d with a := b8 q.val }
  | .free g n c => some { gF g 0x2A with a := b8 n.val, c := b8 c.val }
  | .fadd o r => some (eBin ftypeCode 0x80 o (rndMod r))
  | .fsub o r => some (eBin ftypeCode 0x81 o (rndMod r))
  | .fmul o r => some (eBin ftypeCode 0x82 o (rndMod r))
  | .fma o r => some (eTer ftypeCode 0x83 o (rndMod r))
  | .fmin o n => some (eBin ftypeCode 0x84 o (fn1Mod n))
  | .fmax o n => some (eBin ftypeCode 0x85 o (fn1Mod n))
  | .fcmp g p t pd a b c any => some { (((gF g 0x86).withPat p).withA a).withB b with
      dst := b8 pd.val, c := cnd3 any, ty := ftypeCode t, mod := fnMod (fcondCode c) 0 }
  | .fdiv o r => some (eBin ftypeCode 0x87 o (rndMod r))
  | .fsqrt o r => some (eUn ftypeCode 0x88 o (rndMod r))
  | .frcp o r => some (eUn ftypeCode 0x89 o (rndMod r))
  | .frsq o r => some (eUn ftypeCode 0x8A o (rndMod r))
  | .fexp2 o r => some (eUn ftypeCode 0x8B o (rndMod r))
  | .flog2 o r => some (eUn ftypeCode 0x8C o (rndMod r))
  | .fsin o r => some (eUn ftypeCode 0x8D o (rndMod r))
  | .fcos o r => some (eUn ftypeCode 0x8E o (rndMod r))
  | .ftanh o r => some (eUn ftypeCode 0x8F o (rndMod r))
  | .frnd o e r => some (eUn ftypeCode 0x90 o (fnMod (if e then 1 else 0) (0#1 ++ rndCode r)))
  | .fclass o => some (eUn ftypeCode 0x91 o 0)
  | .fcvt o f s r => some { eUn ftypeCode 0x92 o (fnMod (ftypeCode f) (0#1 ++ rndCode r)) with c := b8 s.val }
  | .ftoi o f s r => some { eUn itypeCode 0x93 o (fnMod (ftypeCode f) (0#1 ++ rndCode r)) with c := b8 s.val }
  | .itof o f s r => some { eUn ftypeCode 0x94 o (fnMod (itypeCode f) (0#1 ++ rndCode r)) with c := b8 s.val }
  | .fscale o s r => some { eBin ftypeCode 0x95 o (rndMod r) with c := b8 s.val }
  | .qbp o k s => some { eBin ftypeCode 0x96 o 0 with c := b8 (16 * k.val + s.val) }
  | .dqbp o k s r => some { eBin ftypeCode 0x97 o (rndMod r) with c := b8 (16 * k.val + s.val) }
  | .fdot4 o r => some (eTer ftypeCode 0x98 o (rndMod r))
  | .idot4 o s => some (eTer itypeCode 0x99 o (satMod s))
  | .shfl o => some (eBin itypeCode 0x9A o 0)
  | .bnset g p gr d a n => some { (((gF g 0x9B).withLp p).withD d).withA a with
      c := b8 n.val, mod := fnMod (granCode gr) 0 }
  | .bnmov g p d a n => some { (((gF g 0x9C).withLp p).withD d).withA a with c := b8 n.val }
  | .vote g p f d a => some { (((gF g 0x9D).withLp p).withD d).withA a with mod := fnMod (voteCode f) 0 }
  | .kclr g => some (gF g 0x9E)
  | .kadd g p t a => some { ((gF g 0x9F).withLp p).withA a with ty := ftypeCode t }
  | .kmac g p t a b => some { (((gF g 0xA0).withPat p).withA a).withB b with ty := ftypeCode t }
  | .krnd g t r d => some { (gF g 0xA1).withD d with ty := ftypeCode t, mod := rndMod r }
  | .kscan o r => some (eUn ftypeCode 0xA2 o (rndMod r))
  | .ckclr g c .clear => some { gF g 0xA3 with dst := b8 c.val }
  | .ckclr g c (.set a p) => some { ((gF g 0xA3).withLp p).withA a with dst := b8 c.val, mod := fnMod 1 0 }
  | .ckacc g p t c a s => some { ((gF g 0xA4).withLp p).withA a with
      dst := b8 c.val, ty := itypeCode t, mod := fn1Mod s }
  | .ckchk g (.check ca cb) => some { gF g 0xA5 with a := b8 ca.val, b := b8 cb.val }
  | .ckchk g (.get d ca) => some { (gF g 0xA5).withD d with a := b8 ca.val, mod := fnMod 1 0 }
  | .rng g (.raw d) => some { (gF g 0xA6).withD d with ty := 4 }
  | .rng g (.unifF32 d) => some { (gF g 0xA6).withD d with ty := 1, mod := fnMod 1 0 }
  | .rng g (.unifF16 d) => some { (gF g 0xA6).withD d with ty := 2, mod := fnMod 1 0 }
  | .rng g (.seed a p) => some { ((gF g 0xA6).withLp p).withA a with mod := fnMod 2 0 }
  | .ld g p t o s d a => some { (((gF g 0x100).withLp p).withD d).withA a with
      c := scopeSrcC s, ty := itypeCode t, mod := memMod o s }
  | .st g p t o s a b => some { (((gF g 0x101).withPat p).withA a).withB b with
      c := scopeSrcC s, ty := itypeCode t, mod := memMod o s }
  | .lds g p t x f d a off => some { (((gF g 0x102).withLp p).withD d).withA a with
      c := off, ty := itypeCode t, mod := fnMod 0 (bitOf x ++ ldsFnCode f) }
  | .sts g p t x f a b off => some { (((gF g 0x103).withPat p).withA a).withB b with
      c := off, ty := itypeCode t, mod := fnMod 0 (bitOf x ++ (0#1 ++ bitOf f)) }
  | .ldp g p o s n a c => some { ((gF g 0x104).withLp p).withA a with
      dst := b8 n.val, c := b8 c.val, mod := memMod o s }
  | .stp g p o s a n l c => some { ((gF g 0x105).withPat p).withA a with
      b := b8 n.val, lb := bitOf l, c := b8 c.val, mod := memMod o s }
  | .pref g p a poc => some { ((gF g 0x106).withLp p).withA a with c := cnd3 poc }
  | .atom g p t op o s n a b => some { (((gF g 0x107).withPat p).withA a).withB b with
      dst := b8 n.val, c := atomOpCode op, ty := atomTyCode t, mod := memMod o s }
  | .red g p t op o s a b => some { (((gF g 0x108).withPat p).withA a).withB b with
      c := atomOpCode op, ty := atomTyCode t, mod := memMod o s }
  | .fence g o s => some { gF g 0x109 with c := scopeSrcC s, mod := memMod o s }
  | .feop g p s a b => some { (((gF g 0x10A).withPat p).withA a).withB b with mod := if s then 1 else 0 }
  | .tdef g p d a => some (((gF g 0x10B).withLp p).withD d |>.withA a)
  | .tacq g p w a => some { ((gF g 0x10C).withLp p).withA a with mod := if w then 1 else 0 }
  | .trel g p d a => some (((gF g 0x10D).withLp p).withD d |>.withA a)
  | .tsplit g p n a b d => some { (((gF g 0x10E).withPat p).withA a).withB b with dst := b8 n.val, c := b8 d.val }
  | .tfree g p a => some (((gF g 0x10F).withLp p).withA a)
  | .tqry g p d a => some (((gF g 0x110).withLp p).withD d |>.withA a)
  | .edq g p f d a b =>
    if f = .unpin then some { ((((gF g 0x111).withPat p).withD d).withA a).withB b with mod := fnMod 2 0 }
    else some { (((gF g 0x111).withPat p).withD d).withA a with mod := fnMod (edqCode f) 0 }
  | .edcopy g p d a => some (((gF g 0x112).withLp p).withD d |>.withA a)
  | .pub g p s d a => some { (((gF g 0x113).withLp p).withD d).withA a with c := scopeSrcC s, mod := memMod .rel s }
  | .adopt g => some (gF g 0x114)
  | .retract g p d a => some (((gF g 0x115).withLp p).withD d |>.withA a)
  | .rwait g p d a => some (((gF g 0x116).withLp p).withD d |>.withA a)
  | .cpy o d s => some (eTer unitCode 0x117 o (0#4 ++ bitOf s ++ bitOf d))
  | .cpyt o => some (eBin unitCode 0x118 o 0)
  | .gath o d s => some (eTer unitCode 0x119 o (0#4 ++ bitOf s ++ bitOf d))
  | .coll g p d a l => some { (((gF g 0x11A).withLp p).withD d).withA a with c := b8 l.val }
  | .vcmd g p d a e => some { (((gF g 0x11B).withLp p).withD d).withA a with c := b8 e.val }
  | .engq g p w d a k m => some { (((gF g 0x11C).withLp p).withD d).withA a with
      c := b8 (k.val + 4 * m.val), mod := if w then 1 else 0 }
  | .fork g p a b c => some ((((gF g 0x11D).withPat p).withA a).withB b |>.withC c)
  | .rdv g d => some ((gF g 0x11E).withD d)
  | .bar g l => some { gF g 0x11F with c := b8 l.val }
  | .arrv g d l => some { (gF g 0x120).withD d with c := b8 l.val }
  | .bwait g p a l => some { ((gF g 0x121).withLp p).withA a with c := b8 l.val }
  | .semw g p s t d a b => some { ((((gF g 0x122).withPat p).withD d).withA a).withB b with
      c := cnd3 t, mod := memMod .acq s }
  | .sems g p s a b => some { (((gF g 0x123).withPat p).withA a).withB b with c := scopeSrcC s, mod := memMod .rel s }
  | .spush g p n l d => some { (gF g 0x124).withLp p with a := b8 n.val, la := bitOf l, c := cnd3 d }
  | .spop g n s => some { gF g 0x125 with dst := b8 n.val, c := b8 s.val }
  | .join g p s d a die => some { (((gF g 0x126).withLp p).withD d).withA a with c := cnd3 die, mod := memMod .ar s }
  | .launch o => some (eBin unitCode 0x127 o 0)
  | .mbld g p gl a k => some { ((gF g 0x180).withLp p).withA a with c := b8 k.val, mod := fn1Mod gl }
  | .mbswp g => some (gF g 0x181)
  | .marb g p gl a b m => some { (((gF g 0x182).withPat p).withA a).withB b with c := b8 m.val, mod := fn1Mod gl }
  | .mma g t k => some { gF g 0x183 with dst := b8 t.val, c := b8 k.val }
  | .mzero g p t a c => some { ((gF g 0x184).withLp p).withA a with dst := b8 t.val, c := b8 c.val }
  | .mrd g p n t b => some { { (gF g 0x185).withB b with pat := patCode p, tgt := bitOf (decide (p ≠ LanePat.ident)) } with
      dst := b8 n.val, a := b8 t.val }
  | .mwr g p t n l b => some { ((gF g 0x186).withPat p).withB b with dst := b8 t.val, a := b8 n.val, la := bitOf l }
  | .mdrain g p d t a n lb m lc s add clr => some { (((gF g 0x187).withPat p).withD d).withA a with
      b := b8 n.val, lb := bitOf lb, c := b8 m.val, lc := bitOf lc,
      mod := fnMod (BitVec.ofNat 3 s.val) (bitOf add ++ (bitOf clr ++ BitVec.ofNat 1 t.val)) }
  | .csrr g d c => some { (gF g 0x1C0).withD d with mod := csrCode c }
  | .csrw g p d c a => some { (((gF g 0x1C1).withLp p).withD d).withA a with mod := csrCode c }
  | .csrs g p d c a => some { (((gF g 0x1C2).withLp p).withD d).withA a with mod := csrCode c }
  | .csrc g p d c a => some { (((gF g 0x1C3).withLp p).withD d).withA a with mod := csrCode c }
  | .sysc g f => some { gF g 0x1C4 with mod := f }
  | .eret g => some (gF g 0x1C5)
  | _ => none

def gI (g : Guard) (op : BitVec 6) (d a : BitVec 8) (m : BitVec 4) (imm : BitVec 32) : RawI :=
  ⟨op, BitVec.ofNat 3 g.p.val, bitOf g.neg, d, a, m, imm⟩
def eImm (op : BitVec 6) (o : Imm) (m : BitVec 4) : RawI := gI o.g op (operandCode o.d) (operandCode o.a) m o.imm
def flag4 (b : Bool) : BitVec 4 := if b then 1 else 0

/-- The I-form fields of an instruction. -/
def encodeI : Instr → Option RawI
  | .movi g d z i => some (gI g 0 (operandCode d) 0 (flag4 z) i)
  | .movhi o => some (eImm 1 o 0)
  | .addi o s => some (eImm 2 o (flag4 s))
  | .andi o s => some (eImm 3 o (flag4 s))
  | .ori o s => some (eImm 4 o (flag4 s))
  | .xori o s => some (eImm 5 o (flag4 s))
  | .cmpi g pd a c u i => some (gI g 6 (b8 pd.val) (operandCode a) (bitOf u ++ condCode c) i)
  | .ldo o s d => some (eImm 7 o (BitVec.ofNat 4 (s.val + 4 * d.val)))
  | .sto o s d => some (eImm 8 o (BitVec.ofNat 4 (s.val + 4 * d.val)))
  | _ => none

def gB (g : Guard) (op : BitVec 6) (h : Hint) (a aux : BitVec 8) (off : BitVec 30) : RawB :=
  ⟨op, BitVec.ofNat 3 g.p.val, bitOf g.neg, hintCode h, a, aux, 0, off⟩

/-- The B-form fields of an instruction. -/
def encodeB : Instr → Option RawB
  | .bra g h o => some (gB g 0 h 0 0 o)
  | .brx g h a => some (gB g 1 h (operandCode a) 0 0)
  | .call g h l o => some (gB g 2 h 0 (b8 l.val) o)
  | .callx g h l a => some (gB g 3 h (operandCode a) (b8 l.val) 0)
  | .rtn g h a => some (gB g 4 h (operandCode a) 0 0)
  | .conv => some (gB ⟨0, false⟩ 5 .none 0 0 0)
  | .yield g => some (gB g 6 .none 0 0 0)
  | .tail g => some (gB g 7 .none 0 0 0)
  | .exit g => some (gB g 8 .none 0 0 0)
  | .trap g i => some (gB g 9 .none 0 i 0)
  | .bpt g i => some (gB g 10 .none 0 i 0)
  | .nop g => some (gB g 11 .none 0 0 0)
  | _ => none

def eHalf {τ : Type} (code : τ → BitVec 3) (op : BitVec 7) (h : Half τ) : RawH :=
  ⟨op, operandCode h.d, operandCode h.s.op, bitOf h.s.last, code h.ty, patCode h.pat⟩
def eHalf1 (h : Half1) : RawH := eHalf itypeCode (halfOpCode h.op) h.h

/-- The two halves of a P-form word. -/
def encodeP : Instr → Option (RawH × RawH)
  | .addHalf h k => some (eHalf itypeCode 0 h, eHalf1 k)
  | .subHalf h k => some (eHalf itypeCode 1 h, eHalf1 k)
  | .mulHalf h k => some (eHalf itypeCode 2 h, eHalf1 k)
  | .andHalf h k => some (eHalf itypeCode 3 h, eHalf1 k)
  | .orHalf h k => some (eHalf itypeCode 4 h, eHalf1 k)
  | .xorHalf h k => some (eHalf itypeCode 5 h, eHalf1 k)
  | .andnHalf h k => some (eHalf itypeCode 6 h, eHalf1 k)
  | .shlHalf h k => some (eHalf itypeCode 7 h, eHalf1 k)
  | .shrHalf h k => some (eHalf itypeCode 8 h, eHalf1 k)
  | .sarHalf h k => some (eHalf itypeCode 9 h, eHalf1 k)
  | .minHalf h k => some (eHalf itypeCode 10 h, eHalf1 k)
  | .maxHalf h k => some (eHalf itypeCode 11 h, eHalf1 k)
  | .movHalf h k => some (eHalf itypeCode 12 h, eHalf1 k)
  | .negHalf h k => some (eHalf itypeCode 13 h, eHalf1 k)
  | .absHalf h k => some (eHalf itypeCode 14 h, eHalf1 k)
  | .faddHalf h k => some (eHalf ftypeCode 15 h, eHalf1 k)
  | .fsubHalf h k => some (eHalf ftypeCode 16 h, eHalf1 k)
  | .fmulHalf h k => some (eHalf ftypeCode 17 h, eHalf1 k)
  | .fminHalf h k => some (eHalf ftypeCode 18 h, eHalf1 k)
  | .fmaxHalf h k => some (eHalf ftypeCode 19 h, eHalf1 k)
  | _ => none

/-- The 64-bit word of an instruction; none for the machine's own events, which no word encodes. -/
def encode (i : Instr) : Option (BitVec 64) :=
  match encodeF i, encodeI i, encodeB i, encodeP i with
  | some r, _, _, _ => some (packF r)
  | _, some r, _, _ => some (packI r)
  | _, _, some r, _ => some (packB r)
  | _, _, _, some (h0, h1) => some (1#2 ++ packH h0 ++ packH h1)
  | _, _, _, _ => none

end Sys2Proof
end

