-- ==== Sys2Proof/Machine/Tiles.lean ====
section
/-!
DEFINITION. Tiles and tenure: TDEF, TACQ, TREL, TSPLIT, TFREE, TQRY (R47 to R61, R225, R237 to R239, R319, R320), and the
tile entries' recalls and grants.
-/
namespace Sys2Proof.Machine

/-! ## Collective words with the operands of lane 0 (R225) -/

/-- A group-collective word that takes its operands from lane 0: every thread collects its own, and the values used are
lane 0's. The check `pre` comes before the register values (R365 step 3). -/
def coll0 (pre : Env → State → Option Trap) (gd : Guard) (d : Option Operand) (a b c : Option SrcSpec)
    (body : Issue → Env → List (Nat × Thread × Got) → Got → State → State) (s : State) :
    Host.Outcome State Fault Refusal :=
  issued s (fun i => s.collective i gd (fun e =>
    match pre e s with
    | some tr => s.trapPresent i tr
    | none =>
      match collectAll e d a b c e.g.threads with
      | .error tr => s.trapPresent i tr
      | .ok gs =>
        match gotOf gs 0 with
        | none => s
        | some r => body i e gs r s))

def noPre (_ : Env) (_ : State) : Option Trap := none

/-- Every thread of a collective is written one result and goes on. -/
def State.collDone (s : State) (group : Nat) (gs : List (Nat × Thread × Got)) (w : Word) : State :=
  match s.group? group with
  | none => s
  | some g => s.setGroup group { g with threads := gs.map (fun p => (p.1, (p.2.2.t.put p.2.2.d w).advance)) }

/-- Every thread of a group waits at its word. -/
def State.collWaits (s : State) (group : Nat) (w : Wait) : State :=
  match s.group? group with
  | none => s
  | some g => s.setGroup group { g with threads := g.threads.map (fun (p : Nat × Thread) => (p.1, { p.2 with status := .wait w })) }

/-- A trap of every thread, with the requests of lane 0 taken off the tile entries. -/
def State.collTrap (s : State) (i : Issue) (e : Env) (tr : Trap) : State := (s.trapPresent i tr).unqueue (.thread (e.tid 0))

/-- A waiting collective completes: its threads collect again, for nothing of them has changed. -/
def State.collResume (s : State) (group : Nat) (d : Option Operand) (a b c : Option SrcSpec) (w : Word) : State :=
  match s.group? group with
  | none => s
  | some g =>
    let s := s.setGroup group { g with threads := g.threads.map (fun (p : Nat × Thread) => (p.1, { p.2 with status := .run })) }
    match s.env? ⟨group / 32, group % 32, 0, List.range 32, 0, false⟩ with
    | none => s
    | some e =>
      match collectAll e d a b c e.g.threads with
      | .ok gs => s.collDone group gs w
      | .error _ => s

/-- A release at a scope by every thread of a group. -/
def State.releaseGroup (s : State) (group : Nat) (sc : Scope) : Option State :=
  if (List.range 32).any (fun l => (s.coreOf (group / 32)).pendingOf (group * 32 + l)) then none
  else s.release (group / 32) (group * 32) sc

/-! ## Handles (R49, R51) -/

def handleWord (gen : BitVec 16) (die index : Nat) : Word := word (gen.toNat * 2 ^ 48 + die * 2 ^ 45 + index * 2 ^ 28)
def handleDie (h : Word) : Nat := bits h 47 45
def handleIndex (h : Word) : Nat := bits h 44 28

def Die.tile (d : Die) (i ctx : Nat) : Tile := Table.getD d.tiles i (Tile.free 1 ctx)
def State.setTile (s : State) (die i : Nat) (t : Tile) : State :=
  let d := s.dieOf die
  s.setDie die { d with tiles := Table.set d.tiles i t }

/-- The tile a handle names for a context, unless it is stale (R51). -/
def State.tile? (s : State) (ctx : Nat) (h : Word) : Option Tile :=
  let t := (s.dieOf (handleDie h)).tile (handleIndex h) ctx
  if bits h 27 0 ≠ 0 ∨ bits h 63 48 = 0 ∨ bits h 63 48 ≠ t.gen.toNat ∨ !t.defined ∨ t.ctx ≠ ctx then none else some t

/-- Free an index: its generation is incremented; past 0xFFFF it is retired (R51). -/
def Tile.retire (t : Tile) : Tile :=
  if t.gen = 0xFFFF then { Tile.free t.gen t.ctx with retired := true } else Tile.free (t.gen + 1) t.ctx

/-- The context number of an index whose last context has been destroyed: no context has it (R51). -/
def noContext : Nat := 65536

/-- An index whose last context is destroyed: its generation is incremented, and a retired one returns at generation 1 (R51, R61). -/
def Tile.outlive (t : Tile) : Tile := Tile.free (if t.gen = 0xFFFF then 1 else t.gen + 1) noContext

/-- The lowest free index of a die's tile table, other than one already chosen. -/
def Die.freeIndex (d : Die) (not_ : Option Nat) : Option Nat :=
  let used := (d.tiles.filter (fun p => p.2.defined || p.2.retired)).map (fun p => p.1)
  (List.range (used.length + 2)).find? (fun i => decide (i < 131072) && !(used.contains i) && decide (some i ≠ not_))

/-! ## Descriptors (R47, R48, R50) -/

structure TileDesc where
  base : Word
  rank : Nat
  esize : Nat
  extents : List Nat
  strides : List Nat
  deriving DecidableEq, Repr

def field (v off n : Nat) : Nat := (v / 2 ^ (8 * off)) % 2 ^ (8 * n)

/-- Read a descriptor of 64 bytes; `none` when malformed (R47, R50 reason 0x02). -/
def parseTile (v : Nat) : Option TileDesc :=
  let rank := field v 8 1
  let es := field v 9 1
  let exts := (List.range 4).map (fun d => field v (16 + 4 * d) 4)
  let strs := (List.range 4).map (fun d => field v (32 + 8 * d) 8)
  let okDim := fun d => if d < rank then decide (1 ≤ exts.getD d 0) && decide (exts.getD d 0 ≤ 2 ^ 24)
    else decide (exts.getD d 0 = 0) && decide (strs.getD d 0 = 0)
  let base := word (field v 0 8)
  if 1 ≤ rank ∧ rank ≤ 4 ∧ es ≤ 3 ∧ field v 10 6 = 0 ∧ (List.range 4).all okDim ∧ vaOf base % 2 ^ es = 0 then
    some ⟨base, rank, es, exts, strs⟩
  else none

/-- The span (R48). -/
def spanOf (rank es : Nat) (exts strs : List Nat) : Nat :=
  (List.range rank).foldl (fun acc d => acc + (exts.getD d 0 - 1) * strs.getD d 0) (2 ^ es)

/-- The footprint of translated pages. -/
def footprintOf (xs : List Xlat) : List (Nat × Nat) := xs.map (fun x => (x.pa, x.n))

/-- The part of a footprint that covers len bytes from an offset of its bounding range. -/
def subFootprint : List (Nat × Nat) → Nat → Nat → List (Nat × Nat)
  | [], _, _ => []
  | (pa, n) :: rest, off, len =>
    if len = 0 then []
    else if n ≤ off then subFootprint rest (off - n) len
    else
      let take := Nat.min (n - off) len
      (pa + off, take) :: subFootprint rest 0 (len - take)

/-- The buffers and backings of the pages of that part. -/
def subEds : List (Nat × Nat) → List (Option (Nat × Nat)) → Nat → Nat → List (Option (Nat × Nat))
  | (_, n) :: rest, e :: es, off, len =>
    if len = 0 then []
    else if n ≤ off then subEds rest es (off - n) len
    else e :: subEds rest es 0 (len - Nat.min (n - off) len)
  | _, _, _, _ => []

/-- The refusals of R50 that come after translation, in the order of R433. -/
def tileRefusal (s : State) (xs : List Xlat) (free : Option Nat) : Option Nat :=
  if xs.any (fun x => x.repl || decide (x.policy ≠ 0) || !(s.populated x.pa)) then some 4
  else if xs.any (fun x => decide (homeDie x.pa ≠ homeDie ((xs.head?.map (fun y => y.pa)).getD 0))) then some 3
  else if free.isNone then some 1 else none

/-- A load of a checked range by a whole group, as its lane 0: it waits for the overlapping stores of every thread (R84, R225, R300).
`none` while it has to wait. -/
def State.loadAll (s : State) (e : Env) (xs : List Xlat) (va n : Nat) : State × Option Nat :=
  if (List.range 32).any (fun l => (s.coreOf e.core).pendingIn (e.tid l) xs va n) then (s, none)
  else s.loadOwn e 0 xs va n

/-- Define the tile that a descriptor of 64 bytes describes: a refusal reason, or the handle, goes to `done` (R49, R50, R433, R319). -/
def State.defineTile (s : State) (i : Issue) (e : Env) (v : Nat) (done : State → Word → State) : State :=
  match parseTile v with
  | none => done s 2
  | some t =>
    let span := spanOf t.rank t.esize t.extents t.strides
    if 2 ^ 26 < span then done s 5
    else
      match s.check e.core e.ctx t.base span 1 Need.tdef with
      | .error (.trap c) => (s.reportBad e.core e.ctx t.base span Need.tdef c).collTrap i e ⟨c, t.base⟩
      | .error (.park p leaf) => s.parkGroup e.group 8 p leaf
      | .ok xs =>
        let s := s.fillCaches e.core e.ctx (tagOf t.base) xs
        let die := homeDie ((xs.head?.map (fun x => x.pa)).getD 0)
        let free := (s.dieOf die).freeIndex none
        match tileRefusal s xs free with
        | some w => done s (word w)
        | none =>
          let ix := free.getD 0
          let old := (s.dieOf die).tile ix e.ctx
          let new : Tile :=
            { Tile.free old.gen e.ctx with
                defined := true, base := t.base, rank := t.rank, esize := t.esize, extents := t.extents,
                strides := t.strides, footprint := footprintOf xs, eds := xs.map (fun x => x.ed) }
          done (s.setTile die ix new) (handleWord old.gen die ix)

/-- TDEF with its descriptor's range checked. -/
def State.readTile (s : State) (i : Issue) (e : Env) (gs : List (Nat × Thread × Got)) (r : Got) (xs : List Xlat) : State :=
  if xs.any (fun x => isAperture x.pa) then s.collTrap i e ⟨0x0D, r.a⟩
  else if r.poisoned then s.collTrap i e poisonTrap
  else
    match s.poisonSeen e xs (vaOf r.a) 64 with
    | some va => s.collTrap i e (poisonAt r.a va)
    | none =>
      match s.loadAll e xs (vaOf r.a) 64 with
      | (s, none) => s.holdAt (e.tid 0) r.a Need.load.kind xs
      | (s, some v) => s.defineTile i e v (fun s w => (s.collDone e.group gs w).unqueue (.thread (e.tid 0)))

/-- TDEF (R49, R50, R433, R319). -/
def execTdef (g : Guard) (pat : LanePat) (d : Operand) (a : Src) (s : State) : Host.Outcome State Fault Refusal :=
  coll0 noPre g (some d) (srcP pat .whole a) none none (fun i e gs r s =>
    match s.passedBy (e.tid 0) r.a Need.load.kind with
    | some xs => s.readTile i e gs r xs
    | none =>
      match s.check e.core e.ctx r.a 64 64 Need.load with
      | .error (.trap c) => (s.reportBad e.core e.ctx r.a 64 Need.load c).collTrap i e ⟨c, r.a⟩
      | .error (.park p leaf) => (s.parkGroup e.group 0 p leaf).unqueue (.thread (e.tid 0))
      | .ok xs => if s.heldBack e.core e.ctx xs then s else s.readTile i e gs r xs) s

/-! ## Holds (R52, R239) -/

def Group.hold (g : Group) (die ix : Nat) : Option Hold := g.holds.find? (fun h => decide (h.die = die) && decide (h.index = ix))
def Group.setHold (g : Group) (h : Hold) : Group :=
  { g with holds := if g.holds.any (fun q => decide (q.die = h.die) && decide (q.index = h.index)) then
      g.holds.map (fun q => if q.die = h.die ∧ q.index = h.index then h else q) else g.holds ++ [h] }
def Group.dropHold (g : Group) (die ix : Nat) : Group :=
  { g with holds := g.holds.filter (fun q => !(decide (q.die = die) && decide (q.index = ix))) }

/-- The groups of a context on a core, those that only drain among them. -/
def State.groupsOn (s : State) (core ctx : Nat) : List (Nat × Group) :=
  s.groups.filter (fun p => decide (coreOfGroup p.1 = core) && decide (p.2.ctx = ctx))

/-- Whether some group of a context on a core still has a hold that grants something. -/
def State.stillHeld (s : State) (core ctx die ix : Nat) : Bool :=
  (s.groupsOn core ctx).any (fun p => match p.2.hold die ix with
    | some h => !h.revoked
    | none => false)

/-- Whether any group has holds on a tile, revoked or not (R239). -/
def State.anyHold (s : State) (die ix : Nat) : Bool := s.groups.any (fun p => (p.2.hold die ix).isSome)
def State.anyRevoked (s : State) (die ix : Nat) : Bool :=
  s.groups.any (fun p => match p.2.hold die ix with
    | some h => h.revoked
    | none => false)

/-! ## Granting (R53, R54, R56, R59) -/

/-- Two tiles conflict when their footprint lines intersect (R53). -/
def Tile.meets (t u : Tile) : Bool :=
  t.footprint.any (fun r => u.footprint.any (fun q =>
    decide (r.1 / 128 ≤ (q.1 + q.2 - 1) / 128) && decide (q.1 / 128 ≤ (r.1 + r.2 - 1) / 128)))

/-- The tiles of a die whose tenure keeps a core from a tenure on a tile (R53). -/
def State.blockers (s : State) (die : Nat) (t : Tile) (core : Nat) (write : Bool) : List Nat :=
  ((s.dieOf die).tiles.filter (fun p => p.2.meets t &&
    p.2.holders.any (fun h => decide (h.core ≠ core) && (write || h.write)))).map (fun p => p.1)

/-- A core's leased copies of a footprint go, those in its L1 and those on their way there: a grant acts as an acquire of the footprint
(R56), so that no later load of the core finds a value older than the tenure. -/
def Core.dropLeased (k : Core) (t : Tile) : Core :=
  { k with l1 := k.l1.filter (fun p => p.2.kept || !(t.hasLine p.1)), replies := k.replies.filter (fun r => !(t.hasLine r.line)) }

/-- The steps of R54 and the grant of R56: the footprint's lines leave region tracking; a write holder's clock passes every
lease granted on them. The holder has the lease of the launch whose TACQ began its tenure (R54 names a lease and no launch; log entry 64). -/
def State.grantTenure (s : State) (die ix : Nat) (t : Tile) (core ctx lease : Nat) (write : Bool) : State :=
  let s := t.lines.foldl (fun s line => if write then s.homeTake line else s.homeRead line) s
  let s := s.setCore core ((s.coreOf core).dropLeased t)
  let s := if write then
      s.jumpTo core (maxAll ((s.coreOf core).clock) (t.lines.map (fun line => (s.stampAt die line).rts + 1)))
    else s
  let now := (s.dieOf die).tile ix ctx
  let hs := if now.heldBy core ctx then
      now.holders.map (fun h => if h.core = core ∧ h.ctx = ctx then { h with write := h.write || write } else h)
    else now.holders ++ [⟨core, ctx, write, lease⟩]
  s.setTile die ix { now with holders := hs }

/-- Whether the lines of a tile are free of store requests in progress (R42). -/
def State.tileQuiet (s : State) (die : Nat) (t : Tile) : Bool :=
  !((s.dieOf die).requests.any (fun r => decide (r.who = .store) && t.hasLine r.line))

/-- Whether a queued request still stands: its group waits for this tile, or its thread is still at its access. -/
def State.alive (s : State) (die ix : Nat) (r : TileReq) : Bool :=
  match r with
  | .tacq g _ =>
    (match s.thread? (g * 32) with
      | some t => (match t.status with
        | .wait (.tacq d i _) => decide (d = die) && decide (i = ix)
        | _ => false)
      | none => false)
  | .regrant g _ =>
    (match s.group? g with
      | some g => (g.hold die ix).isSome
      | none => false)
  | .access (.thread t) =>
    (match s.thread? t with
      | some th => decide (th.status = .run)
      | none => false)
  | .access _ => true

/-- The core that a queued request asks tenure for, and whether for writing. -/
def TileReq.asks : TileReq → Option (Nat × Bool)
  | .tacq g w | .regrant g w => some (g / 32, w)
  | .access _ => none

/-- The core that an accessor belongs to, if it is a core's. -/
def Accessor.core? : Accessor → Option Nat
  | .thread t => some (coreOfThread t)
  | .posted c | .engine c _ | .prefetch c => some c
  | .media _ | .host => none

/-- Whether a request that arrived earlier, at a tile of the die that conflicts with this one, keeps a tenure from being granted: it caused
the recall that ended, or is to end, the tenures here (R53, R58). -/
def State.tileBehind (s : State) (die ix : Nat) (t : Tile) (core : Nat) (write : Bool) (seq : Nat) : Bool :=
  (s.dieOf die).tiles.any (fun p => decide (p.1 ≠ ix) && p.2.meets t && p.2.queue.any (fun q => decide (q.seq < seq) && s.alive die p.1 q.req &&
    (match q.req with
      | .access who => decide (who.core? ≠ some core)
      | r => match r.asks with
        | some (c, w) => decide (c ≠ core) && (w || write)
        | none => false)))

/-- Put a request at the end of a tile entry's queue. -/
def State.enqueueTile (s : State) (die ix : Nat) (r : TileReq) : State :=
  let d := s.dieOf die
  let t := d.tile ix 0
  s.setDie die { d with arrivals := d.arrivals + 1, tiles := Table.set d.tiles ix { t with queue := t.queue ++ [⟨d.arrivals, r⟩] } }

/-- The tile entries of a die with requests queued look at them again. -/
def State.wakeTiles (s : State) (die : Nat) : State :=
  ((s.dieOf die).tiles.filter (fun p => !p.2.queue.isEmpty)).foldl (fun s p => s.pushOnce (.tenureGrant die p.1)) s

/-- A group gains one hold on a tile (R52). -/
def State.addHold (s : State) (group die ix : Nat) : State :=
  match s.group? group with
  | none => s
  | some g =>
    let h := (g.hold die ix).getD ⟨die, ix, 0, false⟩
    s.setGroup group (g.setHold { h with count := h.count + 1 })

/-- Ask for the tenures on some tiles that conflict with a request of a core; a core's own tenure never does (R53, R57, R239). -/
def State.recallFrom (s : State) (die : Nat) (l : List Nat) (core : Nat) (write : Bool) : State :=
  l.foldl (fun s ix =>
    let t := (s.dieOf die).tile ix 0
    if t.recalling then s
    else
      let asked := (t.holders.filter (fun h => decide (h.core ≠ core) && (write || h.write))).map (fun h => h.core)
      (s.setTile die ix { t with recalled := asked }).pushOnce (.recall die ix)) s

/-- Ask every holder of a tile (R57, R320). -/
def State.recallAll (s : State) (die ix : Nat) : State :=
  let t := (s.dieOf die).tile ix 0
  if t.recalling then s else (s.setTile die ix { t with recalled := [] }).pushOnce (.recall die ix)

/-- The holders that a recall asks and that have not acknowledged it. -/
def Tile.asked (t : Tile) : List Holder := t.holders.filter (fun h => t.recalled.contains h.core)

/-- The limits of R239 and the tile states in which TACQ raises trap 0x10. -/
def tacqRefused (t : Tile) (g : Group) (die ix : Nat) : Bool :=
  t.published ||
  (match g.hold die ix with
    | some h => h.revoked || decide (16 ≤ h.count)
    | none => decide (16 ≤ g.holds.length))

/-- TACQ (R52 to R58, R237, R239): granted at once where nothing keeps it from it, else queued, with the group waiting. It does not
translate, and checks the rights alone (R53, R319). -/
def execTacq (g : Guard) (pat : LanePat) (write : Bool) (a : Src) (s : State) : Host.Outcome State Fault Refusal :=
  coll0 noRestart g none (srcP pat .whole a) none none (fun i e gs r s =>
    let die := handleDie r.a
    let ix := handleIndex r.a
    match s.tile? e.ctx r.a with
    | none => s.collTrap i e ⟨0x0F, r.a⟩
    | some t =>
      if tacqRefused t e.g die ix then s.collTrap i e ⟨0x10, r.a⟩
      else if write && decide ((s.boundsEntry e.core e.ctx (tagOf t.base)).rights.toNat &&& 3 ≠ 3) then
        s.collTrap i e ⟨0x0B, t.base⟩
      else if r.poisoned then s.collTrap i e poisonTrap
      else
        let bl := s.blockers die t e.core write
        let first := t.queue.isEmpty && !t.recalling && !(s.tileBehind die ix t e.core write (s.dieOf die).arrivals)
        if first && bl.isEmpty && s.tileQuiet die t then
          ((s.grantTenure die ix t e.core e.ctx (s.leaseOf e.g.grid) write).addHold e.group die ix).collDone e.group gs 0
        else
          let s := s.enqueueTile die ix (.tacq e.group write)
          let s := if bl.isEmpty then s.pushOnce (.tenureGrant die ix) else s.recallFrom die bl e.core write
          s.collWaits e.group (.tacq die ix (.tacq g pat write a))) s

/-! ## Releasing (R54 to R57) -/

/-- A core's tenure on a tile ends: dirty lines are written back, L1 copies go back to leases or are dropped, and the lines
return to region tracking. -/
def State.endTenure (s : State) (die ix core ctx : Nat) : State :=
  let t := (s.dieOf die).tile ix ctx
  let write := t.writtenBy core ctx
  let lease := ((t.holders.find? (fun h => decide (h.core = core) && decide (h.ctx = ctx))).map (fun h => h.lease)).getD 10
  let s := s.writeBackTile core t
  let s := t.lines.foldl (fun s line => s.returnLine (dieOfCore core) line) s
  let now := (s.dieOf die).tile ix ctx
  let s := s.setTile die ix { now with holders := now.holders.filter (fun h => !(decide (h.core = core) && decide (h.ctx = ctx))) }
  (s.l1Lines core t).foldl (fun s line => s.releaseL1 core ctx lease write line) s

/-- After a tenure has ended: the last holder's release acknowledges a recall, and waiting requests are looked at. -/
def State.afterRelease (s : State) (die ix : Nat) : State :=
  let t := (s.dieOf die).tile ix 0
  let s := if t.recalling ∧ t.asked.isEmpty then s.pushOnce (.recallAck die ix) else s
  s.pushAll (((s.dieOf die).tiles.filter (fun p => !p.2.queue.isEmpty)).map (fun p => .tenureGrant die p.1))

/-- One hold of a group is released: the answer is the group's revoked mark before it (R56, R57). -/
def State.dropOneHold (s : State) (group die ix : Nat) : State × Bool :=
  match s.group? group with
  | none => (s, false)
  | some g =>
    match g.hold die ix with
    | none => (s, false)
    | some h =>
      let core := coreOfGroup group
      let s := if h.revoked then s else s.writeBackTile core ((s.dieOf die).tile ix g.ctx)
      let s := match s.group? group with
        | none => s
        | some g => s.setGroup group (if h.count ≤ 1 then g.dropHold die ix else g.setHold { h with count := h.count - 1 })
      if h.revoked ∨ s.stillHeld core g.ctx die ix ∨ !(((s.dieOf die).tile ix g.ctx).heldBy core g.ctx) then (s, h.revoked)
      else ((s.endTenure die ix core g.ctx).afterRelease die ix, h.revoked)

/-- TREL (R56, R57, R237): a release of the footprint at package scope. -/
def execTrel (g : Guard) (pat : LanePat) (d : Operand) (a : Src) (s : State) : Host.Outcome State Fault Refusal :=
  coll0 noPre g (some d) (srcP pat .whole a) none none (fun i e gs r s =>
    let die := handleDie r.a
    let ix := handleIndex r.a
    match s.tile? e.ctx r.a with
    | none => s.collTrap i e ⟨0x0F, r.a⟩
    | some _ =>
      match e.g.hold die ix with
      | none => s.collTrap i e ⟨0x10, r.a⟩
      | some _ =>
        if r.poisoned then s.collTrap i e poisonTrap
        else match s.releaseGroup e.group .pkg with
        | none => s
        | some s =>
          let (s, w) := s.dropOneHold e.group die ix
          s.collDone e.group gs (if w then 1 else 0)) s

/-! ## TSPLIT, TFREE, TQRY (R59, R60, R238) -/

/-- Whether TSPLIT is allowed in a tile's state (R59, R239). -/
def State.splitAllowed (s : State) (die ix : Nat) (t : Tile) (core ctx : Nat) : Bool :=
  !t.published && !t.recalling && t.queue.isEmpty && !(s.anyRevoked die ix) &&
    t.holders.all (fun h => decide (h.core = core) && decide (h.ctx = ctx))

def setAt (l : List Nat) (n v : Nat) : List Nat := (List.range l.length).map (fun i => if i = n then v else l.getD i 0)

/-- The two tiles of a split (R60). -/
def splitTile (t : Tile) (dim sp : Nat) : Tile × Tile :=
  let ext := t.extents.getD dim 0
  let adv := sp * t.strides.getD dim 0
  let e1 := setAt t.extents dim sp
  let e2 := setAt t.extents dim (ext - sp)
  let n1 := spanOf t.rank t.esize e1 t.strides
  let n2 := spanOf t.rank t.esize e2 t.strides
  ({ t with extents := e1, footprint := subFootprint t.footprint 0 n1, eds := subEds t.footprint t.eds 0 n1 },
   { t with extents := e2, base := ptrAdd t.base adv, footprint := subFootprint t.footprint adv n2, eds := subEds t.footprint t.eds adv n2 })

/-- Every group's holds on a split tile stand on both halves. -/
def Group.splitHolds (g : Group) (die ix i1 i2 : Nat) : Group :=
  match g.hold die ix with
  | none => g
  | some h => ((g.dropHold die ix).setHold { h with index := i1 }).setHold { h with index := i2 }

def execTsplit (g : Guard) (pat : Pat) (n : Fin 128) (a b : Src) (dim : Fin 4) (s : State) :
    Host.Outcome State Fault Refusal :=
  coll0 noPre g none (srcA pat .whole a) (srcB pat .whole b) none (fun i e gs r s =>
    let die := handleDie r.a
    let ix := handleIndex r.a
    let done := fun (s : State) (w1 w2 : Word) =>
      match s.group? e.group with
      | none => s
      | some g => s.setGroup e.group
          { g with threads := gs.map (fun p => (p.1, ((p.2.2.t.setV n.val w1).setV (n.val + 1) w2).advance)) }
    match s.tile? e.ctx r.a with
    | none => s.collTrap i e ⟨0x0F, r.a⟩
    | some t =>
      if t.rank ≤ dim.val ∨ r.b.toNat < 1 ∨ t.extents.getD dim.val 0 ≤ r.b.toNat then s.collTrap i e ⟨0x02, e.word⟩
      else if !(s.splitAllowed die ix t e.core e.ctx) then s.collTrap i e ⟨0x10, r.a⟩
      else if r.poisoned then s.collTrap i e poisonTrap
      else
        let d := s.dieOf die
        match d.freeIndex none, d.freeIndex (d.freeIndex none) with
        | some i1, some i2 =>
          let (t1, t2) := splitTile t dim.val r.b.toNat
          let g1 := (d.tile i1 e.ctx).gen
          let g2 := (d.tile i2 e.ctx).gen
          let s := ((s.setTile die i1 { t1 with gen := g1 }).setTile die i2 { t2 with gen := g2 }).setTile die ix t.retire
          let s := { s with groups := s.groups.map (fun p => (p.1, p.2.splitHolds die ix i1 i2)) }
          done s (handleWord g1 die i1) (handleWord g2 die i2)
        | _, _ => done s 1 1) s

def execTfree (g : Guard) (pat : LanePat) (a : Src) (s : State) : Host.Outcome State Fault Refusal :=
  coll0 noPre g none (srcP pat .whole a) none none (fun i e gs r s =>
    let die := handleDie r.a
    let ix := handleIndex r.a
    match s.tile? e.ctx r.a with
    | none => s.collTrap i e ⟨0x0F, r.a⟩
    | some t =>
      if !t.holders.isEmpty || t.recalling || !t.queue.isEmpty || s.anyHold die ix then s.collTrap i e ⟨0x10, r.a⟩
      else if r.poisoned then s.collTrap i e poisonTrap
      else (s.setTile die ix t.retire).collDone e.group gs 0) s

/-- The word of R238. -/
def tqryWord (g : Group) (core die ix : Nat) (t : Tile) : Word :=
  let h := (g.hold die ix).getD ⟨die, ix, 0, false⟩
  let ten := if t.recalling ∧ t.recalled.contains core ∧ t.heldBy core g.ctx then 3 else if t.writtenBy core g.ctx then 2 else if t.heldBy core g.ctx then 1 else 0
  word (h.count * 65536 + (if h.revoked then 4 else 0) + ten)

def execTqry (g : Guard) (pat : LanePat) (d : Operand) (a : Src) (s : State) : Host.Outcome State Fault Refusal :=
  lanewise g (fun e l t => lane (some d) (srcP pat .whole a) none none (fun r =>
    match s.tile? e.ctx r.a with
    | none => .error (⟨0x0F, r.a⟩, 0)
    | some t => .ok (r.t.put r.d (tqryWord e.g e.core (handleDie r.a) (handleIndex r.a) t))) e l t) s

/-! ## The tile entries' own steps (R57, R58, R59) -/

/-- RECALL: a recall is sent to the holders of a tile that it asks, every one of them unless the request named some (R57); a tenure
kept for a saved context has no holder core, and is revoked at once (R385). -/
def execRecall (die index : Nat) (s : State) : Host.Outcome State Fault Refusal :=
  let t := (s.dieOf die).tile index 0
  let t := if t.recalled.isEmpty then { t with recalled := (t.holders.map (fun h => h.core)).eraseDups } else t
  let left := t.holders.filter (fun h => decide (h.core < Config.numCores) || !(t.recalled.contains h.core))
  .next (if t.recalling then s
    else if t.asked.isEmpty then (s.setTile die index { t with recalled := [] }).pushOnce (.tenureGrant die index)
    else
      let t := { t with holders := left, recalling := true, recallAt := s.fabric }
      (s.setTile die index t).push (if t.asked.isEmpty then .recallAck die index else .recallLimitExpiry die index))

/-- Set the revoked mark of every group of a context on a core that holds a tile (R57). -/
def State.markRevoked (s : State) (core ctx die ix : Nat) : State :=
  { s with groups := s.groups.map (fun p =>
      if coreOfGroup p.1 = core ∧ p.2.ctx = ctx then
        (p.1, match p.2.hold die ix with
          | some h => p.2.setHold { h with revoked := true }
          | none => p.2)
      else p) }

/-- The holders that a recall asked lose their tenure: written back, copies dropped, groups marked (R57). -/
def State.revokeTile (s : State) (die ix : Nat) : State :=
  let t := (s.dieOf die).tile ix 0
  t.asked.foldl (fun s h => (s.endTenure die ix h.core h.ctx).markRevoked h.core h.ctx die ix) s

/-- RECALL_LIMIT_EXPIRY: 2^16 fabric cycles after the recall, the holders that are left lose their tenure (R57). -/
def execRecallLimitExpiry (die index : Nat) (s : State) : Host.Outcome State Fault Refusal :=
  let t := (s.dieOf die).tile index 0
  .next (if !t.recalling then s
    else if t.asked.isEmpty then s.pushOnce (.recallAck die index)
    else if s.fabric < t.recallAt + 65536 then s.push (.recallLimitExpiry die index)
    else (s.revokeTile die index).pushOnce (.recallAck die index))

/-- RECALL_ACK: the last holder has acknowledged; the queue is served (R59). -/
def execRecallAck (die index : Nat) (s : State) : Host.Outcome State Fault Refusal :=
  let t := (s.dieOf die).tile index 0
  .next (if t.recalling ∧ t.asked.isEmpty then
    ((s.observe die 7 (s.fabric - t.recallAt) t.ctx).setTile die index { t with recalling := false, recalled := [] }).afterRelease die index
  else s)

/-- The threads of a waiting group stand at their word again. -/
def State.collRuns (s : State) (group : Nat) : State :=
  match s.group? group with
  | none => s
  | some g => s.setGroup group { g with threads := g.threads.map (fun (p : Nat × Thread) => (p.1, { p.2 with status := .run })) }

/-- Whether the head of a tile's queue, a request for tenure, can be granted. If not, what it waits for has been set going. -/
def State.canGrant (s : State) (die ix : Nat) (t : Tile) (core : Nat) (write : Bool) (seq : Nat) : State × Bool :=
  let bl := s.blockers die t core write
  if t.recalling || s.tileBehind die ix t core write seq then (s, false)
  else if !bl.isEmpty then (s.recallFrom die bl core write, false)
  else if !(s.tileQuiet die t) then (s.pushOnce (.tenureGrant die ix), false)
  else (s, true)

/-- Serve the queue of a tile entry in arrival order (R58): a TACQ is granted where nothing keeps it from it; an access is
served when its accessor performs it. On a tile whose edition has been published a TACQ goes back to its word, where it traps, and a
saved context's tenure is revoked (R320). -/
def State.serveTile (s : State) (die ix : Nat) : Nat → State
  | 0 => s
  | fuel + 1 =>
    let t := (s.dieOf die).tile ix 0
    match t.queue with
    | [] => s
    | ⟨seq, r⟩ :: rest =>
      let popped := s.setTile die ix { t with queue := rest }
      if !(s.alive die ix r) then (popped.wakeTiles die).serveTile die ix fuel
      else
        match r with
        | .access _ => if t.holders.isEmpty then s else s.recallAll die ix
        | .tacq g write =>
          (match s.group? g, s.thread? (g * 32) with
            | some gr, some th =>
              if t.published then ((popped.collRuns g).wakeTiles die).serveTile die ix fuel
              else match s.canGrant die ix t (g / 32) write seq with
                | (s, false) => s
                | (_, true) =>
                  let s := (popped.grantTenure die ix t (g / 32) gr.ctx (s.leaseOf gr.grid) write).addHold g die ix
                  let s := match th.status with
                    | .wait (.tacq _ _ (.tacq _ pat _ a)) => s.collResume g none (srcP pat .whole a) none none 0
                    | _ => s
                  (s.wakeTiles die).serveTile die ix fuel
            | _, _ => s)
        | .regrant g write =>
          (match s.group? g with
            | some gr =>
              if t.published then ((popped.markRevoked (g / 32) gr.ctx die ix).wakeTiles die).serveTile die ix fuel
              else match s.canGrant die ix t (g / 32) write seq with
                | (s, false) => s
                | (_, true) =>
                  ((popped.grantTenure die ix t (g / 32) gr.ctx (s.leaseOf gr.grid) write).wakeTiles die).serveTile die ix fuel
            | none => s)

/-- TENURE_GRANT: a tile entry serves its queue (R58, R59). -/
def execTenureGrant (die index : Nat) (s : State) : Host.Outcome State Fault Refusal :=
  .next (s.serveTile die index (((s.dieOf die).tile index 0).queue.length + 1))

end Sys2Proof.Machine
end

