-- ==== Sys2Proof/Machine/Editions.lean ====
section
/-!
DEFINITION. Edition buffers and code regions: EDQ, PUB, ADOPT, RETRACT, RWAIT (R107 to R112, R240 to R244, R343 to R351),
the steps of a PUB, and the attestation record it extends (R351, R408).
-/
namespace Sys2Proof.Machine

/-! ## The attestation record (R351, R408) -/

/-- n bytes of a number, little-endian. -/
def leBytes (v : Nat) : Nat → List Byte
  | 0 => []
  | n + 1 => BitVec.ofNat 8 v :: leBytes (v / 256) n

/-- A number from little-endian bytes. -/
def leNat : List Byte → Nat
  | [] => 0
  | b :: l => b.toNat + 256 * leNat l

/-- Bytes of memory from an address, as every observer would find them. -/
def State.byteList (s : State) (pa : Nat) : Nat → List Byte
  | 0 => []
  | n + 1 => BitVec.ofNat 8 (s.bytesNow pa 1) :: s.byteList (pa + 1) n

/-- How many bytes a context's log holds. -/
def Context.logged (c : Context) : Nat := c.events.foldl (fun n l => n + l.length) 0

/-- Extend a context's chain value, and its log unless that is full (R404, R408). -/
def Context.extend (c : Context) (e : List Byte) : Context :=
  let used := c.logged
  { c with chain := Config.shake256 (leBytes c.chain 64 ++ e),
           events := if used + e.length ≤ 0x100000 then c.events ++ [e] else c.events,
           omitted := if used + e.length ≤ 0x100000 then c.omitted else c.omitted + 1 }

/-- An event of a context: its chain is extended, and the event is written to the log in its area, behind those before it, unless that is full
(R404, R408). -/
def State.logEvent (s : State) (ctx : Nat) (e : List Byte) : State :=
  match s.context? ctx with
  | none => s
  | some c =>
    let s := s.setContext ctx (c.extend e)
    if c.logged + e.length ≤ 0x100000 then { s with mem := Memory.write s.mem (c.area + 0x150000 + c.logged) e.length (leNat e) } else s

/-- The event of a code publication (R351, R408). -/
def publicationEvent (buf num measurement : Nat) : List Byte :=
  (2 : Byte) :: (leBytes buf 2 ++ leBytes num 4 ++ leBytes measurement 64)

/-! ## A wait of one thread that an event completes -/

/-- A waiting thread's instruction completes: its operands are collected again, for nothing of the thread has changed. -/
def State.laneResume (s : State) (tid : Nat) (d : Option Operand) (a b c : Option SrcSpec)
    (f : Env → Nat → Thread → Got → State → State) : State :=
  match s.thread? tid with
  | none => s
  | some t =>
    let t := { t with status := .run }
    let s := s.setThread tid t
    match s.env? ⟨tid / 1024, tid / 32 % 32, t.pc, [tid % 32], 0, false⟩ with
    | none => s
    | some e =>
      match collect e (tid % 32) t d a b c with
      | .error tr => s.trapAt e (tid % 32) t tr
      | .ok r => f e (tid % 32) t r s

/-! ## EDQ, RETRACT, RWAIT, ADOPT -/

/-- Whether an address translates to an edition leaf whose index the context has not created. -/
def State.uncreated (s : State) (core ctx va : Nat) : Bool :=
  match s.leafFor core ctx va with
  | .ok (l, _) => leafE l && (s.desc? ctx (leafBuf l)).isNone
  | .error _ => false

/-- An edition instruction names a buffer by a pointer into a view (R240): a leaf with E = 0 raises trap 0x11. -/
def State.bufferAt (s : State) (e : Env) (l : Nat) (t : Thread) (r : Got) (need : Need)
    (k : Nat → Desc → State → State) : State :=
  s.access e l t r.a 1 1 need (fun xs s =>
    match xs with
    | [] => s
    | x :: _ =>
      if !(leafE x.leaf) then s.memTrap e l t ⟨0x11, r.a⟩
      else
        match s.desc? e.ctx (leafBuf x.leaf) with
        | none => s.memTrap e l t ⟨0x11, r.a⟩
        | some d => if r.poisoned then s.memTrap e l t poisonTrap else k (leafBuf x.leaf) d s)

/-- The word of EDQ.num (R241). -/
def edqNum (d : Desc) : Word :=
  word (d.num + d.cur * 2 ^ 32 + (if d.retracted then 2 ^ 33 else 0) + (if d.code then 2 ^ 34 else 0))
/-- The token of EDQ.pin (R241). -/
def edqToken (d : Desc) : Word := word (d.num + d.cur * 2 ^ 32)

def PinOwner.isEdq : PinOwner → Bool
  | .edq _ => true
  | _ => false

/-- Release one pin on a backing that EDQ took (R108, R241). Where the backing has only pins of fetching threads, sequencers and engine
commands, nothing is released, for those go in their own ways alone (R345, R347; log entry 74). -/
def State.unpinOne (s : State) (ctx buf back : Nat) : State :=
  let here := fun (p : Pin) => decide (p.ctx = ctx) && decide (p.buf = buf) && decide (p.backing = back) && p.owner.isEdq
  if s.pins.any here then { s.unpinCount ctx buf back with pins := removeFirst here s.pins } else s

/-- EDQ (R241). -/
def execEdq (g : Guard) (pat : Pat) (fn : EdqFn) (d : Operand) (a : Src) (b : Src) (s : State) :
    Host.Outcome State Fault Refusal :=
  overLanes g (some d) (srcA pat .whole a) (if fn = .unpin then srcB pat .whole b else none) none (fun e l t r s =>
    s.bufferAt e l t r Need.load (fun buf ds s =>
      let done := fun (s : State) (w : Word) => s.memDone e l (r.t.put r.d w)
      match fn with
      | .num => done s (edqNum ds)
      | .pin =>
        if ds.code then s.memTrap e l t ⟨0x11, r.a⟩
        else done (s.pin e.ctx buf ds.cur (.edq (some (e.tid l)))) (edqToken ds)
      | .unpin =>
        let back := bits r.b 32 32
        if ds.pinsOn back = 0 then s.memTrap e l t ⟨0x11, r.a⟩
        else done (s.unpinOne e.ctx buf back) 0
      | .dpins => done s (word (ds.pinsOn ds.draft)))) s

/-- Whether a RETRACT has ever withdrawn an edition of a buffer: the descriptor's edition 0 may be one, for numbers wrap (R107, R244). -/
def State.everWithdrawn (s : State) (ctx buf : Nat) : Bool :=
  match s.context? ctx with
  | some c => c.withdrawn.contains buf
  | none => false
def State.noteWithdrawn (s : State) (ctx buf : Nat) : State :=
  match s.context? ctx with
  | some c => if c.withdrawn.contains buf then s else s.setContext ctx { c with withdrawn := c.withdrawn ++ [buf] }
  | none => s

/-- RETRACT (R243, R348). -/
def execRetract (g : Guard) (pat : LanePat) (d : Operand) (a : Src) (s : State) : Host.Outcome State Fault Refusal :=
  overLanesIf noRestart g (some d) (srcP pat .whole a) none none (fun e l t r s =>
    s.bufferAt e l t r Need.publish (fun buf ds s =>
      if !ds.code then s.memTrap e l t ⟨0x11, r.a⟩
      else if ds.retracted then s.memDone e l (r.t.put r.d (word ds.withdrawn))
      else ((s.setDesc e.ctx buf { ds with retracted := true, withdrawn := ds.num }).noteWithdrawn e.ctx buf).memDone e l
        (r.t.put r.d (word ds.num)))) s

/-- Whether a thread fetches from an edition of a buffer. -/
def Thread.fetchesFrom (t : Thread) (buf edition : Nat) : Bool :=
  match t.region with
  | some p => decide (p.buf = buf) && decide (p.edition = edition)
  | none => false

/-- RWAIT (R244): while a pin taken on the withdrawn edition is held, the thread stays at its word. -/
def execRwait (g : Guard) (pat : LanePat) (d : Operand) (a : Src) (s : State) : Host.Outcome State Fault Refusal :=
  overLanes g (some d) (srcP pat .whole a) none none (fun e l t r s =>
    s.bufferAt e l t r Need.publish (fun buf ds s =>
      if !(s.everWithdrawn e.ctx buf) then s.memDone e l (r.t.put r.d 0)
      else if t.fetchesFrom buf ds.withdrawn then s.memTrap e l t ⟨0x11, r.a⟩
      else if s.pins.any (fun p => decide (p.ctx = e.ctx) && decide (p.buf = buf) && decide (p.edition = ds.withdrawn)) then s
      else s.memDone e l (r.t.put r.d (word ds.withdrawn)))) s

/-- A thread's current region becomes a buffer's current edition, pinned (R344). -/
def State.enterRegion (s : State) (tid ctx buf : Nat) (d : Desc) : State :=
  match s.thread? tid with
  | none => s
  | some t => (s.pin ctx buf d.cur (.thread tid)).setThread tid { t with region := some ⟨buf, d.cur, d.num⟩ }

/-- A thread leaves its current region (R344). -/
def State.leaveRegion (s : State) (tid ctx : Nat) : State :=
  match s.thread? tid with
  | none => s
  | some t =>
    match t.region with
    | none => s
    | some p => (s.unpin ctx p (.thread tid)).setThread tid { t with region := none }

/-- ADOPT (R242). -/
def execAdopt (g : Guard) (s : State) : Host.Outcome State Fault Refusal :=
  overLanes g none none none none (fun e l t r s =>
    match t.region with
    | none => s.complete e l r.t
    | some p =>
      match s.desc? e.ctx p.buf with
      | none => s.complete e l r.t
      | some d =>
        if d.retracted then
          let s := s.leaveRegion (e.tid l) e.ctx
          (match s.thread? (e.tid l) with
            | some t => s.setThread (e.tid l) { t with status := .wait (.adopt p.buf) }
            | none => s)
        else if p.edition = d.num ∧ p.backing = d.cur then s.complete e l r.t
        else
          let s := (s.leaveRegion (e.tid l) e.ctx).enterRegion (e.tid l) e.ctx p.buf d
          (match s.thread? (e.tid l) with
            | some t => s.setThread (e.tid l) t.advance
            | none => s)) s

/-! ## PUB (R111, R112, R350) -/

/-- Whether a core holds a translation or a bounds entry of a context, or has an access of it under way: after its blocks have left, it
still counts among the cores that run the context, so that nothing of it is used when the context comes back (R68, R77, R111). -/
def Core.knows (k : Core) (ctx : Nat) : Bool :=
  k.tlb.any (fun t => decide (t.ctx = ctx)) || k.bounds.any (fun b => decide (b.ctx = ctx)) ||
    k.pend.any (fun p => decide (p.ctx = ctx)) || k.pendAtomics.any (fun p => decide (p.ctx = ctx)) ||
    [Eng.bulk, .gather, .coll].any (fun e => (k.engine e).queue.any (fun c => decide (c.ctx = ctx)))

/-- The cores that run a context. -/
def State.coresOf (s : State) (ctx : Nat) : List Nat :=
  (((s.groups.filter (fun (p : Nat × Group) => decide (p.2.ctx = ctx))).map (fun (p : Nat × Group) => coreOfGroup p.1)) ++
    ((s.cores.filter (fun (p : Nat × Core) => p.2.knows ctx)).map (fun (p : Nat × Core) => p.1))).eraseDups

/-- Tiles with a page of a buffer's draft in their footprint (R320), by die. -/
def State.draftTiles (s : State) (ctx buf back : Nat) : List (Nat × Nat × Tile) :=
  s.dies.flatMap (fun p => (p.2.tiles.filter (fun q => q.2.defined && decide (q.2.ctx = ctx) &&
    q.2.eds.contains (some (buf, back)))).map (fun q => (p.1, q.1, q.2)))

/-- Every tenure on a draft is recalled (R320). -/
def State.recallDraft (s : State) (ctx buf back : Nat) : State :=
  (s.draftTiles ctx buf back).foldl (fun s x => if x.2.2.holders.isEmpty then s else s.recallAll x.1 x.2.1) s

/-- PUB: the release at its scope, the recall of tenures on the draft (R320), and the first phase; the thread waits for the
commit. An index that the context has not created raises trap 0x11 (R111). -/
def execPub (g : Guard) (pat : LanePat) (sc : Scope) (d : Operand) (a : Src) (s : State) :
    Host.Outcome State Fault Refusal :=
  overLanesIf noRestart g (some d) (srcP pat .whole a) none none (fun e l t r s =>
    if s.uncreated e.core e.ctx (vaOf r.a) && (match s.check e.core e.ctx r.a 1 1 Need.publish with
        | .error (.trap c) => decide (c = 0x0D)
        | _ => false) then
      (s.reportBad e.core e.ctx r.a 1 Need.publish 0x0D).memTrap e l t ⟨0x11, r.a⟩
    else s.bufferAt e l t r Need.publish (fun buf ds s =>
      if s.publications.any (fun p => decide (p.ctx = e.ctx) && decide (p.buf = buf)) then s
      else
        match s.before e l .rel sc with
        | none => s
        | some s =>
          let p : Publication := ⟨e.ctx, buf, e.tid l, []⟩
          let s : State := ({ s with publications := s.publications ++ [p] } : State).startTime (.pub e.ctx buf)
          let s := s.recallDraft e.ctx buf ds.draft
          (s.pushAll ((s.coresOf e.ctx).map (fun c => .pubFirstPhaseAck c e.ctx buf))).waitAt e l t
            (.pub buf (.pub g pat sc d a)))) s

/-- Which of the ranges of a command is the one that it writes, in the order in which they are checked. -/
def CmdOp.writes : CmdOp → Nat
  | .cpy .. => 1
  | .cpyt .. => 3
  | .gath .. => 4
  | .coll .. => 2
  | .edcopy _ => 1
  | .mdrain .. => 2

/-- Whether an engine has writes resolved to a buffer that it has still to perform: a command whose destination is checked, or a media
command that writes row by row (R111 step 2). A reader of the current backing holds a pin there, and no publication (R108). -/
def State.engineOpen (s : State) (ctx buf : Nat) : Bool :=
  let on := fun (l : List Xlat) => l.any (fun x => decide ((x.ed.map (fun b => b.1)) = some buf))
  s.cores.any (fun p => [Eng.bulk, .gather, .coll].any (fun e => (p.2.engine e).queue.any (fun c => decide (c.ctx = ctx) &&
      decide (c.phase = .queued ∨ c.phase = .faulted ∨ c.phase = .collWait) && on (c.ranges.getD c.op.writes [])))) ||
    s.media.any (fun p => p.2.queue.any (fun c => decide (c.ctx = ctx) && on (c.outX ++ c.stateX ++ c.rowX ++ c.filtX))) ||
    s.aside.any (fun p => decide (p.2.2.ctx = ctx) && on (p.2.2.ranges.getD p.2.2.op.writes [])) ||
    s.mediaAside.any (fun p => decide (p.2.ctx = ctx) && on (p.2.outX ++ p.2.stateX ++ p.2.rowX ++ p.2.filtX))

/-- Whether ranges reach an edition buffer. -/
def onBuffer (l : List Xlat) (buf : Nat) : Bool := l.any (fun x => decide ((x.ed.map (fun b => b.1)) = some buf))

/-- Whether a thread of a context on a core waits at its word with an access that has passed its check, of those that a test picks. -/
def State.waiting (s : State) (core ctx : Nat) (p : Passed → Bool) : Bool :=
  (s.groupsOn core ctx).any (fun g => g.2.threads.any (fun t =>
    decide (t.2.status = .run) && t.2.passed.any (fun a => decide (a.pc = t.2.pc) && p a)))

/-- PUB_FIRST_PHASE_ACK: once the engine writes that resolved to the draft have been performed, a core drops its entries for the buffer,
holds new accesses through it, and acknowledges when every access it resolved under the old number has been performed (R111 steps 2
and 3). A restartable block's buffered stores resolve at its commit (R350, R392; log entry 66). -/
def execPubFirstPhaseAck (core ctx buf : Nat) (s : State) : Host.Outcome State Fault Refusal :=
  let k := s.coreOf core
  let open_ := s.waiting core ctx (fun a => onBuffer a.xs buf) || k.pend.any (fun p => decide (p.ctx = ctx) && decide ((p.buf.map (fun b => b.1)) = some buf)) ||
    k.pendAtomics.any (fun p => decide (p.ctx = ctx) && decide ((p.buf.map (fun b => b.1)) = some buf)) || s.engineOpen ctx buf
  .next (if !(s.publications.any (fun p => decide (p.ctx = ctx) && decide (p.buf = buf) && !(p.acks.contains core))) then s
    else if open_ then s.push (.pubFirstPhaseAck core ctx buf)
    else
      let s := s.setCore core { k with tlb := k.tlb.filter (fun t =>
        !(decide (t.ctx = ctx) && leafE t.leaf && decide (leafBuf t.leaf = buf))) }
      let s := { s with publications := s.publications.map (fun (p : Publication) =>
        if p.ctx = ctx ∧ p.buf = buf then Publication.mk p.ctx p.buf p.thread (p.acks ++ [core]) else p) }
      s.pushOnce (.pubCommit ctx buf))

/-- The commit acts as a store at every location of the buffer at once (R313): every line of the new current backing takes one timestamp,
no earlier than the publisher's clock, if it has one, and later than every lease granted there. A load that resolves to the backing reads it,
and so hits on no copy from before (R85, R112; log entry 65). The publisher's clock jumps to it as at any store (R83). -/
def State.commitStore (s : State) (core : Option Nat) (ctx buf base pages : Nat) : State :=
  let die := homeDie base
  let lo := base / 128
  let n := 512 * pages
  let here := fun (line : Nat) => decide (lo ≤ line) && decide (line < lo + n)
  let d := s.dieOf die
  let copies := s.dies.flatMap (fun p => (p.2.annex.filter (fun q => here q.1)).map (fun q => q.2.st.rts + 1))
  let now := match core with
    | some c => maxT (s.coreOf c).clock (d.unlisted.rts + 1)
    | none => d.unlisted.rts + 1
  let t := maxAll now (((d.l2.filter (fun q => here q.1)).map (fun q => q.2.rts + 1)) ++ copies)
  let mark := fun (st : Stamp) => ({ wts := t, rts := t, origin := st.origin } : Stamp)
  let lines := (List.range n).map (fun i => (lo + i, mark (Table.getD d.l2 (lo + i) d.unlisted)))
  let l2 := d.l2.filter (fun q => decide (q.1 < lo)) ++ lines ++ d.l2.filter (fun q => decide (lo + n ≤ q.1))
  let s := s.awaitLead die t 16
  let s := s.setDie die (({ s.dieOf die with l2 := l2 } : Die).note t)
  let s : State := { s with
    dies := s.dies.map (fun (p : Nat × Die) => (p.1, { p.2 with annex := p.2.annex.map (fun (q : Nat × AnnexLine) =>
      if here q.1 then (q.1, { q.2 with st := mark q.2.st }) else q) })),
    commits := s.commits.filter (fun c => !(decide (c.1 = ctx) && decide (c.2.1 = buf))) ++ [(ctx, buf, t)] }
  match core with
  | some c => s.jumpTo c t
  | none => s

/-- A program that waits at a retracted region's boundary enters it with the commit (R346, R347): it pins the new edition, and goes on in
its own event. -/
def State.enterSeq (s : State) (core : Nat) (e : Eng) (ctx buf : Nat) (d : Desc) : State :=
  match (s.engineOf core e).seq with
  | some q =>
    if q.ctx = ctx ∧ q.waiting = .edition buf then
      (s.pin ctx buf d.cur (.sequencer core e)).setEngine core e { s.engineOf core e with
        seq := some { q with region := some ⟨buf, d.cur, d.num⟩ } }
    else s
  | none => s

/-- With the commit, every thread and program that waits for it enters the region, at the edition that it made current (R242, R346, R347). -/
def State.enterWaiters (s : State) (ctx buf : Nat) : State :=
  match s.desc? ctx buf with
  | none => s
  | some d =>
    let tids := s.groups.flatMap (fun p => if p.2.ctx = ctx then p.2.threads.map (fun q => p.1 * 32 + q.1) else [])
    let s := tids.foldl (fun s tid => match s.thread? tid with
      | none => s
      | some t =>
        if t.status = .wait (.edition buf) ∨ t.status = .wait (.adopt buf) then s.enterRegion tid ctx buf d else s) s
    (s.cores.flatMap (fun p => [(p.1, Eng.bulk), (p.1, Eng.gather), (p.1, Eng.coll)])).foldl
      (fun s x => s.enterSeq x.1 x.2 ctx buf d) s

/-- The commit of a PUB, of a thread of a core or of the loader (R111 step 4, R112, R350, R351): one event for every observer. -/
def State.commitEdition (s : State) (core : Option Nat) (ctx buf : Nat) (d : Desc) : State :=
  let num := (d.num + 1) % 2 ^ 32
  let s := match s.context? ctx with
    | none => s
    | some c =>
      if !d.code ∨ c.codePolicy = 0 then s
      else
        let m := if c.codePolicy = 2 then Config.shake256 (s.byteList (d.backing d.draft) (d.pages * 65536)) else 0
        s.logEvent ctx (publicationEvent buf num m)
  let s := s.setDesc ctx buf { d with cur := d.draft, num := num, retracted := false }
  let s := (s.draftTiles ctx buf d.draft).foldl (fun s x =>
    (s.setTile x.1 x.2.1 { x.2.2 with published := true }).pushOnce (.tenureGrant x.1 x.2.1)) s
  ((s.commitStore core ctx buf (d.backing d.draft) d.pages).enterWaiters ctx buf).push (.editionAwaitRelease ctx buf)

/-- Whether the thread of a publication still waits for it. -/
def State.publishing (s : State) (p : Publication) : Option (Guard × LanePat × Scope × Operand × Src) :=
  match s.thread? p.thread with
  | some t =>
    (match t.status with
      | .wait (.pub b (.pub g pat sc d a)) => if b = p.buf then some (g, pat, sc, d, a) else none
      | _ => none)
  | none => none

/-- PUB_COMMIT: when every core that runs the context has acknowledged, and no tenure on the draft is left. -/
def execPubCommit (ctx buf : Nat) (s : State) : Host.Outcome State Fault Refusal :=
  let here := fun (p : Publication) => decide (p.ctx = ctx) && decide (p.buf = buf)
  .next (match s.publications.find? here, s.desc? ctx buf with
    | some p, some d =>
      (match s.publishing p with
        | none => { s with publications := removeFirst here s.publications }
        | some (_, pat, _, dst, a) =>
          let missing := (s.coresOf ctx).filter (fun c => !(p.acks.contains c))
          if !missing.isEmpty then s.pushAll (missing.map (fun c => .pubFirstPhaseAck c ctx buf))
          else if (s.draftTiles ctx buf d.draft).any (fun x => !x.2.2.holders.isEmpty || x.2.2.recalling) then
            (s.recallDraft ctx buf d.draft).push (.pubCommit ctx buf)
          else
            let s := s.observeEnd (.pub ctx buf) true (dieOfCore (coreOfThread p.thread)) 8
            let s := { s.commitEdition (some (coreOfThread p.thread)) ctx buf d with publications := removeFirst here s.publications }
            s.laneResume p.thread (some dst) (srcP pat .whole a) none none (fun e l _ r s =>
              s.complete e l (r.t.put r.d (word ((d.num + 1) % 2 ^ 32)))))
    | some _, none => { s with publications := removeFirst here s.publications }
    | none, _ => s)

/-- Whether a thread's region is a buffer's. -/
def Thread.entered (t : Thread) (buf : Nat) : Bool :=
  match t.region with
  | some p => decide (p.buf = buf)
  | none => false

/-- EDITION_AWAIT_RELEASE: threads and programs that entered a region with its commit go on: at the boundary's word, or, from ADOPT, at the
next one (R242, R346, R347). -/
def execEditionAwaitRelease (ctx buf : Nat) (s : State) : Host.Outcome State Fault Refusal :=
  let go := fun (t : Thread) =>
    if !(t.entered buf) then t
    else if t.status = .wait (.edition buf) then { t with status := .run }
    else if t.status = .wait (.adopt buf) then { t with status := .run }.advance
    else t
  let s : State := { s with groups := s.groups.map (fun (p : Nat × Group) =>
    if p.2.ctx = ctx then (p.1, { p.2 with threads := p.2.threads.map (fun (q : Nat × Thread) => (q.1, go q.2)) }) else p) }
  .next ((s.cores.flatMap (fun p => [(p.1, Eng.bulk), (p.1, Eng.gather), (p.1, Eng.coll)])).foldl (fun s x =>
    match (s.engineOf x.1 x.2).seq with
    | some q =>
      if q.ctx = ctx ∧ q.waiting = .edition buf ∧ q.region.isSome then
        (s.setEngine x.1 x.2 { s.engineOf x.1 x.2 with seq := some { q with waiting := .none } }).push (.sequencerStep x.1 x.2)
      else s
    | none => s) s)

end Sys2Proof.Machine
end

