-- ==== Sys2Proof/Machine/Engines.lean ====
section
/-!
DEFINITION. The engines: acceptance, shape records, CPY, CPYT, GATH, EDCOPY and the drained tile, collectives, and the
steps of a command (R96 to R102, R105, R106, R110, R245 to R248, R293 to R296, R423, R424, R434). A command is performed
whole in its start step, from the data as they stand there, and its completion follows.
-/
namespace Sys2Proof.Machine

/-! ## Acceptance (R97) -/

/-- An engine with all of its 16 places taken (R97). -/
def Engine.full (g : Engine) : Bool := decide (16 ≤ g.queue.length)

/-- Accept a command: it takes the next number; `none` when the engine is full (R97). -/
def State.accept (s : State) (core : Nat) (e : Eng) (ctx thread block : Nat) (op : CmdOp) (fork : Option Nat) :
    Option (State × BitVec 32) :=
  let g := s.engineOf core e
  if g.full then none
  else
    let c : Cmd := { num := g.next, ctx := ctx, thread := thread, block := block, op := op, phase := .queued, fork := fork, recs := [],
                     ranges := [] }
    let g' : Engine := { g with next := g.next + 1, wrapped := g.wrapped || decide (g.next = 0xFFFFFFFF), queue := g.queue ++ [c] }
    some ((s.setEngine core e g').push (.engineCommandStart core e), g.next)

/-- A lane issues a command to its core's engine, or waits for a place (R97, R245). -/
def State.engIssue (s : State) (e : Env) (l : Nat) (t : Thread) (r : Got) (en : Eng) (op : CmdOp) : State :=
  match s.accept e.core en e.ctx (e.tid l) e.g.blockKey op none with
  | none => s.waitAt e l t (.engine en)
  | some (s, n) => s.complete e l (r.t.put r.d (word n.toNat))

/-- Threads of a core that wait on an engine issue their words again. -/
def State.wakeEngine (s : State) (core : Nat) (e : Eng) : State :=
  { s with groups := s.groups.map (fun (p : Nat × Group) =>
      if p.1 / 32 = core then
        (p.1, { p.2 with threads := p.2.threads.map (fun (q : Nat × Thread) =>
          if q.2.status = .wait (.engine e) then (q.1, { q.2 with status := .run }) else q) })
      else p) }

/-- Threads of a group that wait in RDV issue it again. -/
def State.wakeRdv (s : State) (group : Nat) : State :=
  match s.group? group with
  | none => s
  | some g => s.setGroup group { g with threads := g.threads.map (fun (q : Nat × Thread) =>
      if q.2.status = .wait .rdv then (q.1, { q.2 with status := .run }) else q) }

/-- A misaligned record or descriptor (R245). -/
def recordTrap (p : Word) (align : Nat) : Option Trap := if vaOf p % align ≠ 0 then some ⟨0x0E, p⟩ else none

/-! ## The instructions (R245) -/

def unitSrcA (p : Pat) (a : Src) : Option SrcSpec := srcA p .whole a
def unitSrcB (p : Pat) (b : Src) : Option SrcSpec := srcB p .whole b

/-- Issue one command per active thread. -/
def engineWord (g : Guard) (d : Operand) (a b c : Option SrcSpec) (en : Eng) (ck : Got → Option Trap) (op : Got → CmdOp)
    (s : State) : Host.Outcome State Fault Refusal :=
  overLanes g (some d) a b c (fun e l t r s =>
    match ck r with
    | some tr => s.trapAt e l t tr
    | none => if r.poisoned then s.trapAt e l t poisonTrap else s.engIssue e l t r en (op r)) s

def execCpy (o : Ter Unit) (dstSpad srcSpad : Bool) (s : State) : Host.Outcome State Fault Refusal :=
  engineWord o.g o.d (unitSrcA o.pat o.a) (unitSrcB o.pat o.b) (srcN .whole o.c) .bulk (fun _ => none)
    (fun r => .cpy r.a r.b r.c dstSpad srcSpad) s

def execCpyt (o : Bin Unit) (s : State) : Host.Outcome State Fault Refusal :=
  engineWord o.g o.d (unitSrcA o.pat o.a) (unitSrcB o.pat o.b) none .bulk
    (fun r => firstSome [recordTrap r.a 64, recordTrap r.b 64]) (fun r => .cpyt r.a r.b) s

def execGath (o : Ter Unit) (_dstSpad idxSpad : Bool) (s : State) : Host.Outcome State Fault Refusal :=
  engineWord o.g o.d (unitSrcA o.pat o.a) (unitSrcB o.pat o.b) (srcN .whole o.c) .gather
    (fun r => firstSome [recordTrap r.a 64, recordTrap r.b 64]) (fun r => .gath r.a r.b r.c idxSpad) s

/-- EDCOPY names its buffer by a pointer that is checked at issue (R240); the copy is a bulk copy command (R110). -/
def execEdcopy (g : Guard) (pat : LanePat) (d : Operand) (a : Src) (s : State) : Host.Outcome State Fault Refusal :=
  overLanesIf noRestart g (some d) (srcP pat .whole a) none none (fun e l t r s =>
    s.bufferAt e l t r Need.publish (fun buf _ s => s.engIssue e l t r .bulk (.edcopy buf))) s

/-! ## Collectives: who takes part (R246, R247) -/

/-- The key of an issuing group's participant at a level: the grid, the level, the member of the level, the participant's
index in it, and the number of participants. -/
def State.collKey (s : State) (g : Group) (lvl : Nat) : CollEntry :=
  let member := match s.grid? g.grid with
    | some gr => gr.member g.block lvl
    | none => 0
  { grid := g.grid, level := lvl, member := member, part := s.lidx g 0 (lvl - 1), seq := 0, core := 0, num := 0, desc := [],
    src := [], dst := [], parts := s.lcnt g (lvl - 1) }

/-- Accept a COLL: it is the participant's next collective at its level (R246, R247). -/
def State.acceptColl (s : State) (core ctx thread : Nat) (g : Group) (desc : Word) (lvl : Nat) (fork : Option Nat) :
    Option (State × BitVec 32) :=
  match s.accept core .coll ctx thread g.blockKey (.coll desc lvl) fork with
  | none => none
  | some (s, n) =>
    let k := s.collKey g lvl
    let same := fun (c : CollCount) => decide (c.grid = k.grid) && decide (c.level = lvl) && decide (c.member = k.member) &&
      decide (c.part = k.part)
    let seq := match s.collCounts.find? same with
      | some c => c.next
      | none => 0
    let rest := s.collCounts.filter (fun c => !(same c))
    some ({ s with colls := s.colls ++ [{ k with seq := seq, core := core, num := n }],
                   collCounts := rest ++ [⟨k.grid, lvl, k.member, k.part, seq + 1⟩] }, n)

def execColl (g : Guard) (pat : LanePat) (d : Operand) (a : Src) (lvl : Fin 8) (s : State) :
    Host.Outcome State Fault Refusal :=
  overLanes g (some d) (srcP pat .whole a) none none (fun e l t r s =>
    match recordTrap r.a 8 with
    | some tr => s.trapAt e l t tr
    | none =>
      if r.poisoned then s.trapAt e l t poisonTrap
      else
        match s.acceptColl e.core e.ctx (e.tid l) e.g r.a lvl.val none with
        | none => s.waitAt e l t (.engine .coll)
        | some (s, n) => s.complete e l (r.t.put r.d (word n.toNat))) s

/-! ## ENGQ on the engines of a core (R248) -/

/-- What an engine knows of a command: pending, its status, expired, or unknown. -/
inductive CmdKnown where
  | pending
  | status (st : CmdStatus)
  | expired
  | unknown
  deriving DecidableEq, Repr

def Engine.known (g : Engine) (n : BitVec 32) : CmdKnown :=
  if g.queue.any (fun c => decide (c.num = n)) then .pending
  else match g.done.find? (fun c => decide (c.num = n) && decide ((g.next - 1 - c.num).toNat < 64)) with
    | some st => .status st
    | none => if g.wrapped || decide (n.toNat < g.next.toNat) then .expired else .unknown

/-- The word of ENGQ (R248). -/
def CmdKnown.word : CmdKnown → Word
  | .pending => 0x100
  | .status st => Machine.word (st.status + st.len * 2 ^ 32)
  | .expired => 0x200
  | .unknown => 0x400

/-- The trap of a wait on a failed command (R100, R364). -/
def statusTrap (kind : Nat) (n : BitVec 32) (st : CmdStatus) : Option Trap :=
  if st.status = 0 then none else some ⟨st.cause, Machine.word (n.toNat + st.status * 2 ^ 32 + kind * 2 ^ 40)⟩

/-! ## Checked ranges (R99) -/

/-- Why a command does not go on: an end with a status and the trap that a wait on it takes (R100), or a recoverable
fault (R99). -/
inductive EngStop where
  | status (n cause : Nat)
  | park (kind : Nat) (addr : Word) (leaf : Bool)
  deriving DecidableEq, Repr

/-- What a command runs as: its core and engine, its context, its block's key, its launch's lease, its number, and what it has read and
checked already. -/
structure EngV where
  core : Nat
  e : Eng
  ctx : Nat
  block : Nat
  lease : Nat
  num : BitVec 32
  recs : List Nat
  ranges : List (List Xlat)
  deriving DecidableEq, Repr

def EngV.who (v : EngV) : Accessor := .engine v.core v.e

/-- The status of a failed check (R100). -/
def causeStatus (c : Nat) : Nat :=
  if c = 0x0A ∨ c = 0x0B then 2 else if c = 0x0C then 3 else if c = 0x0D then 4 else 1

/-- Check n bytes from a scratchpad offset or a virtual address under a region tag (R99): a global destination must be an
edition buffer whose draft is not pinned, and is not written from a restartable block (R392). -/
def State.engCheck (s : State) (v : EngV) (spad : Bool) (tag lo n : Nat) (need : Need) : Except EngStop (List Xlat) :=
  if n = 0 then .ok []
  else if spad then
    match s.block? v.block with
    | none => .error (.status 2 0x0A)
    | some b => if b.scratch < lo + n then .error (.status 2 0x0A) else .ok []
  else if need.w && (match s.block? v.block with | some b => b.restartable | none => false) then .error (.status 1 0x02)
  else if 2 ^ 54 < lo + n then .error (.status 2 0x0A)
  else
    match s.check v.core v.ctx (ptr tag lo) n 1 need with
    | .error (.trap c) => .error (.status (causeStatus c) c)
    | .error (.park a leaf) => .error (.park need.kind a leaf)
    | .ok xs =>
      if need.w && xs.any (fun x => x.ed.isNone) then .error (.status 5 0x11)
      else if xs.any (fun x => isAperture x.pa) then .error (.status 4 0x0D)
      else if need.w && s.draftPinned v.ctx xs then .error (.status 5 0x11)
      else .ok xs

/-- One line's part of a global access of a command. -/
structure Touch where
  pa : Nat
  n : Nat
  store : Bool
  policy : Nat
  repl : Bool
  deriving DecidableEq, Repr

/-- The line parts of byte ranges of a checked global side. -/
def touches (core : Nat) (xs : List Xlat) (store : Bool) (l : List (Nat × Nat)) : List Touch :=
  (l.flatMap (fun r => (chunks r.1 r.2).map (fun c => (r.1 + c.1, c.2)))).filterMap (fun c =>
    match xlatAt xs c.1 with
    | none => none
    | some x => some { pa := if store then x.pa + (c.1 - x.va) else x.loadPa core c.1, n := c.2, store := store,
                       policy := x.policy, repl := x.repl })

def Touch.uncached (t : Touch) : Bool := decide (t.policy = polUncached)

/-- Whether every line of a command can be reached now; what those that cannot wait for is set going. -/
def State.engGate (s : State) (v : EngV) : List Touch → State × Bool
  | [] => (s, true)
  | t :: rest =>
    if isControl t.pa || (!t.store && !t.uncached && (s.l1Hit v.core (lineOf t.pa)).isSome) then s.engGate v rest
    else
      match s.gate v.who (some v.core) v.ctx t.pa t.n t.store (!t.store) t.uncached with
      | (s, true) => s.engGate v rest
      | (s, false) => ((s.engGate v rest).1, false)

/-- The lines that a command reads, as they stand when it reads them. -/
abbrev Snap := Table LineData

/-- Load every source line once. -/
def State.engLoads (s : State) (v : EngV) : List Touch → Snap → State × Snap
  | [], sn => (s, sn)
  | t :: rest, sn =>
    let line := lineOf t.pa
    if isControl t.pa || (Table.find sn line).isSome then s.engLoads v rest sn
    else
      let (s, d) := if t.uncached then s.loadUncached v.core v.ctx line t.repl
        else s.loadLine v.core v.ctx line v.lease t.policy t.repl
      s.engLoads v rest (Table.set sn line d)

/-- The backings that a checked range reads through public views. -/
def publicReads (xs : List Xlat) : List (Nat × Nat) := (xs.filterMap (fun x => if leafD x.leaf then none else x.ed)).eraseDups

/-- An engine command that reads a public view pins the backing it reads, once (R108). -/
def State.engPins (s : State) (v : EngV) (xs : List Xlat) : State :=
  let owner : PinOwner := .command v.core v.e v.num.toNat
  (publicReads xs).foldl (fun s b => if s.holdsPin v.ctx b.1 b.2 owner then s else s.pin v.ctx b.1 b.2 owner) s

/-- Change a command of an engine. -/
def State.setCmd (s : State) (core : Nat) (e : Eng) (num : BitVec 32) (f : Cmd → Cmd) : State :=
  let g := s.engineOf core e
  s.setEngine core e { g with queue := g.queue.map (fun (c : Cmd) => if c.num = num then f c else c) }

/-- The pages of a range whose buffer no range that the command resolved before reaches. -/
def EngV.fresh (v : EngV) (xs : List Xlat) : List Xlat :=
  xs.filter (fun x => match x.ed with
    | some b => !(v.ranges.any (fun r => onBuffer r b.1))
    | none => false)

/-! ## Reading and writing elements -/

/-- n bytes of a side: the value, or status 6 where they are poisoned (R100). -/
def State.engRead (s : State) (v : EngV) (spad : Bool) (xs : List Xlat) (sn : Snap) (at_ n : Nat) : Except EngStop Nat :=
  if spad then
    match s.block? v.block with
    | none => .error (.status 2 0x0A)
    | some b => if (b.poisonIn at_ n).isSome then .error (.status 6 0x18) else .ok (Memory.read b.spad at_ n)
  else if (s.poisonVa v.core xs at_ n).isSome then .error (.status 6 0x18)
  else .ok ((chunks at_ n).foldl (fun acc c =>
    match xlatAt xs (at_ + c.1) with
    | none => acc
    | some x =>
      let pa := x.loadPa v.core (at_ + c.1)
      let w := match Table.find sn (lineOf pa) with
        | some d => LineData.read d (pa % 128) c.2
        | none => s.regRead pa c.2
      acc + w * 2 ^ (8 * c.1)) 0)

/-- Keep a snapshot up to date with a write of the command itself. -/
def Snap.note (sn : Snap) (pa n w : Nat) : Snap :=
  match Table.find sn (lineOf pa) with
  | some d => Table.set sn (lineOf pa) (LineData.write d (pa % 128) n w)
  | none => sn

/-- Write n bytes of a global destination, line by line; status 10 at the first that falls under read tenure (R424). -/
def State.engStore (s : State) (v : EngV) (xs : List Xlat) (at_ val : Nat) : List (Nat × Nat) → Snap → State × Snap × Nat
  | [], sn => (s, sn, 0)
  | (off, n) :: rest, sn =>
    match xlatAt xs (at_ + off) with
    | none => (s, sn, 4)
    | some x =>
      let pa := x.pa + (at_ + off - x.va)
      if s.tenureOf v.core v.ctx (lineOf pa) = .read then (s, sn, 10)
      else
        let w := (val / 2 ^ (8 * off)) % 2 ^ (8 * n)
        (s.storeNow (some v.core) v.ctx x.policy pa n w v.lease).engStore v xs at_ val rest (sn.note pa n w)

/-- Each line's part of an element through an atomic: `f` gives the new bytes at an offset from the old. The old value of the whole. -/
def State.engAtomics (s : State) (v : EngV) (xs : List Xlat) (at_ : Nat) (f : Nat → Nat → Nat → Nat) :
    List (Nat × Nat) → Nat → State × Option Nat
  | [], acc => (s, some acc)
  | (off, n) :: rest, acc =>
    match xlatAt xs (at_ + off) with
    | none => (s, none)
    | some x =>
      let pa := x.pa + (at_ + off - x.va)
      let (s, old) := s.atomicNow (some v.core) v.ctx x.policy pa n v.lease (f off n)
      (s.requested (requestHome pa) v.core old).engAtomics v xs at_ f rest (acc + old * 2 ^ (8 * off))

/-- Combine an element of a global destination with a value in one indivisible step (R295), also where it straddles two lines: its old
value is read whole before any of it is replaced. -/
def State.engCombine (s : State) (v : EngV) (xs : List Xlat) (at_ val : Nat) (f : Nat → Nat → Nat) (l : List (Nat × Nat)) (sn : Snap) :
    State × Snap × Nat :=
  let places := l.filterMap (fun c => (xlatAt xs (at_ + c.1)).map (fun x => (x.pa + (at_ + c.1 - x.va), c)))
  if places.any (fun p => decide (s.tenureOf v.core v.ctx (lineOf p.1) = .read)) then (s, sn, 10)
  else
    match s.engAtomics v xs at_ (fun _ _ old => old) l 0 with
    | (s, none) => (s, sn, 4)
    | (s, some old) =>
      let new := f old val
      let part := fun (c : Nat × Nat) => (new / 2 ^ (8 * c.1)) % 2 ^ (8 * c.2)
      match s.engAtomics v xs at_ (fun off n _ => part (off, n)) l 0 with
      | (s, none) => (s, sn, 4)
      | (s, some _) => (s, places.foldl (fun (sn : Snap) p => sn.note p.1 p.2.2 (part p.2)) sn, 0)

/-- One element of a command: where its value comes from and where it goes. -/
inductive ElemSrc where
  | zero
  | at_ (a : Nat)
  | val (n : Nat)
  deriving DecidableEq, Repr
structure Elem where
  src : ElemSrc
  dst : Nat
  deriving DecidableEq, Repr

/-- The two sides of a command that have passed their checks. -/
structure Sides where
  srcSpad : Bool
  srcXs : List Xlat
  dstSpad : Bool
  dstXs : List Xlat
  srcSize : Nat
  dstSize : Nat
  deriving DecidableEq, Repr

/-- Granules that n bytes from an offset lie in. -/
def granulesOf (off n : Nat) : List Nat := (List.range ((off + n + 15) / 16 - off / 16)).map (fun i => off / 16 + i)

/-- An engine's scratchpad write: the banks' earlier accesses come first (R90); the write of a granule's last byte sets its
bit in the same step (R95). -/
def State.engSpadWrite (s : State) (v : EngV) (at_ n val : Nat) (add : Option (Nat → Nat → Nat)) (later : List Elem) : State :=
  let gs := granulesOf at_ n
  let s := gs.foldl (fun s g => s.bankDrain v.core (g % 64)) s
  match s.block? v.block with
  | none => s
  | some b =>
    let w := match add with
      | none => val
      | some f => f (Memory.read b.spad at_ n) val
    let s := s.setBlock v.block (b.write at_ n w)
    let last := gs.filter (fun g => !(later.any (fun x => (granulesOf x.dst n).contains g)))
    last.foldl (fun s g => s.setGranule v.block g true) s

/-- Perform the elements of a command in the order given, until one fails: the status and the trap of R100. -/
def State.engMove (s : State) (v : EngV) (sd : Sides) (f : Nat → Nat) (add : Option (Nat → Nat → Nat)) :
    List Elem → Snap → State × Nat × Nat
  | [], _ => (s, 0, 0)
  | x :: rest, sn =>
    let got : Except EngStop Nat := match x.src with
      | .zero => .ok 0
      | .val n => .ok n
      | .at_ a => s.engRead v sd.srcSpad sd.srcXs sn a sd.srcSize
    match got with
    | .error (.status n c) => (s, n, c)
    | .error (.park _ _ _) => (s, 4, 0x0D)
    | .ok old =>
      if sd.dstSpad then
        if add.isSome && (match s.block? v.block with
          | some b => (b.poisonIn x.dst sd.dstSize).isSome
          | none => false) then (s, 6, 0x18)
        else (s.engSpadWrite v x.dst sd.dstSize (f old) add rest).engMove v sd f add rest sn
      else if add.isSome && (s.poisonVa v.core sd.dstXs x.dst sd.dstSize).isSome then (s, 6, 0x18)
      else
        match (match add with
          | some g => s.engCombine v sd.dstXs x.dst (f old) g (chunks x.dst sd.dstSize) sn
          | none => s.engStore v sd.dstXs x.dst (f old) (chunks x.dst sd.dstSize) sn) with
        | (s, sn, 0) => s.engMove v sd f add rest sn
        | (s, _, n) => (s, n, if n = 10 then 0x10 else 0x0D)

/-- The elements of a command in an order that nothing defines (R106, R434, log entry 11). -/
def pickAt {α : Type} : List α → Nat → Option (α × List α)
  | [], _ => none
  | a :: l, 0 => some (a, l)
  | a :: l, n + 1 => match pickAt l n with
    | some (b, r) => some (b, a :: r)
    | none => none
def shuffle {α : Type} (k : Nat) : Nat → List α → List α
  | 0, l => l
  | _ + 1, [] => []
  | _ + 1, [a] => [a]
  | fuel + 1, l =>
    match pickAt l (Config.elementOrder k l.length % l.length) with
    | some (a, r) => a :: shuffle k fuel r
    | none => l

/-! ## What a start comes to -/

/-- A start step: the command waits for a line, stops on a fault, ends, or waits for the other participants. -/
inductive Started where
  | blocked
  | parked (kind : Nat) (addr : Word) (leaf : Bool)
  | ended (status cause : Nat)
  | contributed
  deriving DecidableEq, Repr

def stopped : EngStop → Started
  | .status n c => .ended n c
  | .park k a leaf => .parked k a leaf

/-- Check the i-th range of a command, or take it as it was checked before, for a command that starts again goes on from there (R68, R99).
Once its check has passed, the core's caches hold its translations (R76), and a public view that it reads is pinned (R108). A publication
holds back a range through a buffer that the command has not resolved yet (R111). -/
def State.engRange (s : State) (v : EngV) (i : Nat) (spad : Bool) (tag lo n : Nat) (need : Need) : State × Except Started (List Xlat) :=
  match v.ranges[i]? with
  | some xs => (s, .ok xs)
  | none =>
    match s.engCheck v spad tag lo n need with
    | .error x =>
      (if x = .status 4 0x0D && !spad then s.reportBad v.core v.ctx (ptr tag lo) n need 0x0D else s, .error (stopped x))
    | .ok xs =>
      if s.heldBack v.core v.ctx (v.fresh xs) then (s, .error .blocked)
      else
        let s := if xs.isEmpty then s else s.fillCaches v.core v.ctx tag xs
        let s := if need.w then s else s.engPins v xs
        (s.setCmd v.core v.e v.num (fun c => { c with ranges := c.ranges ++ [xs] }), .ok xs)

/-- Reach and load the lines of a command whose ranges are checked, then go on with it. `rd` and `wr` are the byte
ranges that it reads and writes. -/
def State.engGo (s : State) (v : EngV) (sd : Sides) (rd wr : List (Nat × Nat))
    (k : State → Snap → State × Started) : State × Started :=
  let s := s.readCommits v.core v.ctx sd.srcXs
  let ts := touches v.core sd.srcXs false rd
  match s.engGate v (ts ++ touches v.core sd.dstXs true wr) with
  | (s, false) => (s, .blocked)
  | (s, true) =>
    let (s, sn) := s.engLoads v ts []
    k s sn

/-- Read n bytes that a command names beside its data: a record, a descriptor or an index list. The i-th of them is also the i-th range of
the command, and is read once, when the command starts (R245). -/
def State.engFetch (s : State) (v : EngV) (i : Nat) (spad : Bool) (p : Word) (n : Nat)
    (k : State → Nat → State × Started) : State × Started :=
  match v.recs[i]? with
  | some w => k s w
  | none =>
    let lo := if spad then p.toNat else vaOf p
    match s.engRange v i spad (tagOf p) lo n Need.engRead with
    | (s, .error x) => (s, x)
    | (s, .ok xs) =>
      s.engGo v ⟨spad, xs, false, [], n, 0⟩ [(lo, n)] [] (fun s sn =>
        match s.engRead v spad xs sn lo n with
        | .error x => (s, stopped x)
        | .ok w => k (s.setCmd v.core v.e v.num (fun c => { c with recs := c.recs ++ [w] })) w)

/-- The range from the lowest to the highest byte of elements (R99). -/
def spanRange (l : List Nat) (size : Nat) : Nat × Nat :=
  match l with
  | [] => (0, 0)
  | a :: rest =>
    let lo := rest.foldl Nat.min a
    (lo, rest.foldl Nat.max a + size - lo)

/-- Check both sides of a command over their spans, the source first, as its i-th and next range, then perform its elements (R99, R106). -/
def State.engElems (s : State) (v : EngV) (i : Nat) (srcSpad dstSpad : Bool) (srcTag dstTag : Nat)
    (srcAll dstAll : List Nat) (ss ds : Nat) (need : Need) (f : Nat → Nat) (add : Option (Nat → Nat → Nat))
    (es : List Elem) : State × Started :=
  let (slo, sn) := spanRange srcAll ss
  let (dlo, dn) := spanRange dstAll ds
  match s.engRange v i srcSpad srcTag slo sn Need.engRead with
  | (s, .error x) => (s, x)
  | (s, .ok sx) =>
    match s.engRange v (i + 1) dstSpad dstTag dlo dn need with
    | (s, .error x) => (s, x)
    | (s, .ok dx) =>
      let sd : Sides := ⟨srcSpad, sx, dstSpad, dx, ss, ds⟩
      let at_ := fun (l : List Nat) (n : Nat) => l.map (fun a => (a, n))
      s.engGo v sd (if srcSpad then [] else at_ srcAll ss) (if dstSpad then [] else at_ (es.map (fun x => x.dst)) ds)
        (fun s snap =>
          let (s, st, c) := s.tick.engMove v sd f add (shuffle s.free es.length es) snap
          (s, .ended st c))

/-! ## CPY and EDCOPY (R110, R245) -/

/-- A contiguous destination cut at 16-byte granules, each with its part of the value. -/
def cpyElems (dst val : Nat) : Nat → Nat → Nat → List (Nat × Nat × Nat)
  | 0, _, _ => []
  | fuel + 1, done, n =>
    if n ≤ done then []
    else
      let len := Nat.min (n - done) (16 - (dst + done) % 16)
      (dst + done, len, (val / 2 ^ (8 * done)) % 2 ^ (8 * len)) :: cpyElems dst val fuel (done + len) n

/-- Write the parts of a contiguous destination in order. -/
def State.cpyMove (s : State) (v : EngV) (sd : Sides) : List (Nat × Nat × Nat) → Snap → State × Nat × Nat
  | [], _ => (s, 0, 0)
  | (at_, n, w) :: rest, sn =>
    match s.engMove v { sd with dstSize := n } id none [⟨.val w, at_⟩] sn with
    | (s, 0, _) => s.cpyMove v sd rest sn
    | r => r

/-- CPY: the source is read whole before any byte is written. -/
def State.startCpy (s : State) (v : EngV) (dst src len : Word) (dstSpad srcSpad : Bool) : State × Started :=
  let n := len.toNat
  if n = 0 then (s, .ended 0 0)
  else if 2 ^ 32 < n then (s, .ended 1 0x02)
  else
    let slo := if srcSpad then src.toNat else vaOf src
    let dlo := if dstSpad then dst.toNat else vaOf dst
    match s.engRange v 0 srcSpad (tagOf src) slo n Need.engRead with
    | (s, .error x) => (s, x)
    | (s, .ok sx) =>
      match s.engRange v 1 dstSpad (tagOf dst) dlo n Need.engWrite with
      | (s, .error x) => (s, x)
      | (s, .ok dx) =>
        let sd : Sides := ⟨srcSpad, sx, dstSpad, dx, n, n⟩
        s.engGo v sd (if srcSpad then [] else [(slo, n)]) (if dstSpad then [] else [(dlo, n)]) (fun s sn =>
          match s.engRead v srcSpad sx sn slo n with
          | .error x => (s, stopped x)
          | .ok w =>
            let (s, st, c) := s.cpyMove v sd (cpyElems dlo w (n / 16 + 2) 0 n) sn
            (s, .ended st c))

/-- A backing as a checked range. -/
def backingXlat (d : Desc) (buf back : Nat) : Xlat :=
  { va := 0, pa := d.backing back, n := d.pages * 65536, policy := 0, repl := false, owner := 0, ed := some (buf, back),
    leaf := 0, big := false }

/-- The copy of EDCOPY, its two backings resolved. -/
def State.goEdcopy (s : State) (v : EngV) (sx dx : List Xlat) (n : Nat) : State × Started :=
  let sd : Sides := ⟨false, sx, false, dx, n, n⟩
  s.engGo v sd [(0, n)] [(0, n)] (fun s sn =>
    match s.engRead v false sd.srcXs sn 0 n with
    | .error x => (s, stopped x)
    | .ok w =>
      let (s, st, c) := s.cpyMove v sd (cpyElems 0 w (n / 16 + 2) 0 n) sn
      (s, .ended st c))

/-- EDCOPY: the whole current backing, pinned, onto the draft (R110). A command that has resolved them keeps both (R99). -/
def State.startEdcopy (s : State) (v : EngV) (buf : Nat) : State × Started :=
  match s.desc? v.ctx buf, v.ranges with
  | none, _ => (s, .ended 5 0x11)
  | some d, [sx, dx] => s.goEdcopy v sx dx (d.pages * 65536)
  | some d, _ =>
    let sx := [backingXlat d buf d.cur]
    let dx := [backingXlat d buf d.draft]
    if d.pinsOn d.draft ≠ 0 then (s, .ended 5 0x11)
    else if s.heldBack v.core v.ctx (sx ++ dx) then (s, .blocked)
    else ((s.engPins v sx).setCmd v.core v.e v.num (fun c => { c with ranges := [sx, dx] })).goEdcopy v sx dx (d.pages * 65536)

/-! ## Shape records (R105, R106) -/

structure Shape where
  base : Word
  rank : Nat
  esize : Nat
  fmt : Nat
  spad : Bool
  exts : List Nat
  strides : List Nat
  origins : List Int
  window : List Nat
  deriving DecidableEq, Repr

/-- The element size that a format must have (R105). -/
def fmtSize : Nat → Option Nat
  | 1 | 5 => some 2
  | 2 | 3 => some 1
  | 4 => some 0
  | _ => none

/-- Read a record of 128 bytes; `none` where it breaks a limit of R105. -/
def parseShape (v : Nat) : Option Shape :=
  let rank := field v 8 1
  let es := field v 9 1
  let fmt := field v 10 1
  let fl := field v 11 1
  let four := fun (off n : Nat) => (List.range 4).map (fun d => field v (off + n * d) n)
  let exts := four 16 4
  let strs := four 32 8
  let wins := four 80 4
  let base := word (field v 0 8)
  let okDim := fun d => if d < rank then
      decide (1 ≤ exts.getD d 0) && decide (exts.getD d 0 ≤ 2 ^ 24) && decide (1 ≤ wins.getD d 0) && decide (wins.getD d 0 ≤ 65536)
    else decide (exts.getD d 0 = 0) && decide (strs.getD d 0 = 0) && decide (wins.getD d 0 = 0)
  let fmtOk := if fmt = 0 then true else decide (fmt ≤ 5) && decide (fmtSize fmt = some es)
  if 1 ≤ rank ∧ rank ≤ 4 ∧ es ≤ 3 ∧ fmtOk ∧ fl ≤ 1 ∧ field v 12 4 = 0 ∧ field v 96 32 = 0 ∧ (List.range 4).all okDim ∧
      base.toNat % 2 ^ es = 0 then
    some { base := base, rank := rank, esize := es, fmt := fmt, spad := decide (fl = 1), exts := exts, strides := strs,
           origins := (four 64 4).map (toSigned 32), window := wins }
  else none

/-- Elements of the window in a dimension: one above the rank. -/
def Shape.count (h : Shape) (d : Nat) : Nat := if d < h.rank then h.window.getD d 1 else 1
def Shape.counts (h : Shape) : List Nat := (List.range 4).map h.count
def Shape.bytes (h : Shape) : Nat := 2 ^ h.esize

/-- Every index tuple below given counts, the first dimension varying fastest. -/
def tuples : List Nat → List (List Nat)
  | [] => [[]]
  | n :: ns => (tuples ns).flatMap (fun rest => (List.range n).map (fun i => i :: rest))

/-- The byte address of a tensor coordinate, unless it is clipped (R106). -/
def Shape.addr (h : Shape) (coord : Nat → Int) : Option Nat :=
  if (List.range h.rank).any (fun d => decide (coord d < 0) || decide ((h.exts.getD d 0 : Int) ≤ coord d)) then none
  else
    let base := if h.spad then h.base.toNat else vaOf h.base
    some ((List.range h.rank).foldl (fun acc d => acc + (coord d).toNat * h.strides.getD d 0) base)

/-- The address of a window element. -/
def Shape.at_ (h : Shape) (w : List Nat) : Option Nat := h.addr (fun d => h.origins.getD d 0 + (w.getD d 0 : Int))

/-- The float format of a record's format. -/
def fmtType : Nat → Option FType
  | 1 => some .f32
  | 2 => some .f16
  | 3 => some .b16
  | 4 => some .f8
  | _ => none

/-- The conversion of one element between formats, under R153 with rn (R245). -/
def fmtConvert (src dst : Nat) (v : Nat) : Nat :=
  match fmtType src, fmtType dst with
  | some a, some b => (fcvtN b a .rn v).1
  | some a, none => if dst = 5 then (ftoiN .i32 a .rn v).1 else v
  | none, some b => if src = 5 then (itofN b .rn (toSigned 32 v)).1 else v
  | none, none => v

/-- Two records whose elements a command can move. -/
def Shape.fits (d s : Shape) : Bool := decide (d.esize = s.esize) && (decide (d.fmt = 0) == decide (s.fmt = 0))

/-- CPYT (R245). -/
def State.startCpyt (s : State) (v : EngV) (dst src : Word) : State × Started :=
  s.engFetch v 0 false dst 128 (fun s dv =>
    s.engFetch v 1 false src 128 (fun s sv =>
      match parseShape dv, parseShape sv with
      | some d, some h =>
        if !(d.fits h) || decide (d.counts ≠ h.counts) then (s, .ended 1 0x02)
        else
          let ws := tuples d.counts
          let es := ws.filterMap (fun w => (d.at_ w).map (fun a => (⟨match h.at_ w with
            | some b => .at_ b
            | none => .zero, a⟩ : Elem)))
          s.engElems v 2 h.spad d.spad (tagOf h.base) (tagOf d.base) (ws.filterMap h.at_) (ws.filterMap d.at_) h.bytes
            d.bytes Need.engWrite (fmtConvert h.fmt d.fmt) none es
      | _, _ => (s, .ended 1 0x02)))

/-- GATH (R101, R245). R67 lists a gather source under read, and the GATH source of an engine under read and engine: the model asks for both
rights (log entry 64). -/
def State.startGath (s : State) (v : EngV) (dst src idx : Word) (idxSpad : Bool) : State × Started :=
  s.engFetch v 0 false dst 128 (fun s dv =>
    s.engFetch v 1 false src 128 (fun s sv =>
      match parseShape dv, parseShape sv with
      | some d, some h =>
        if !(d.fits h) || decide (h.count 0 ≠ 1) || decide ((d.counts).tail ≠ (h.counts).tail) then (s, .ended 1 0x02)
        else
          s.engFetch v 2 idxSpad idx (4 * d.count 0) (fun s iv =>
            let row := fun (w : List Nat) =>
              let r : Nat := (iv / 2 ^ (32 * w.getD 0 0)) % 2 ^ 32
              h.addr (fun k => if k = 0 then (r : Int) else h.origins.getD k 0 + (w.getD k 0 : Int))
            let ws := tuples d.counts
            let es := ws.filterMap (fun w => (d.at_ w).map (fun a => (⟨match row w with
              | some b => .at_ b
              | none => .zero, a⟩ : Elem)))
            s.engElems v 3 h.spad d.spad (tagOf h.base) (tagOf d.base) (ws.filterMap row) (ws.filterMap d.at_) h.bytes
              d.bytes Need.engWrite (fmtConvert h.fmt d.fmt) none es)
      | _, _ => (s, .ended 1 0x02)))

/-! ## The output of MDRAIN (R295) -/

def Matrix.tile (m : Matrix) (n : Nat) : Table (BitVec 32) := if n = 0 then m.a0 else m.a1
def Matrix.setTile (m : Matrix) (n : Nat) (t : Table (BitVec 32)) : Matrix := if n = 0 then { m with a0 := t } else { m with a1 := t }
/-- An element of a tile; one not listed is 0 (R281). -/
def Matrix.acc (m : Matrix) (n r c : Nat) : BitVec 32 := Table.getD (m.tile n) (256 * r + c) 0

/-- A tile's element scaled and rounded once into a format (R151, R295). -/
def drainValue (t : FType) (v : BitVec 32) (er ec : Nat) : Nat :=
  let (y, fl) := scaleI v.toInt [er, ec]
  (finishF t .rn y fl).1

/-- One step of a .add drain: round(old + v) (R295). -/
def drainAdd (t : FType) (old new : Nat) : Nat :=
  let (y, fl) := addF .rn (decodeF t old) (decodeF t new)
  (finishF t .rn y fl).1

/-- The engine has read a draining tile: the jobs on it may end (R296). -/
def State.drainRead (s : State) (core tile : Nat) : State :=
  let k := s.coreOf core
  let m := k.matrix
  (s.setCore core { k with matrix := { m with drains := m.drains.map (fun (j : DrainJob) =>
    if j.tile = tile then { j with read := true } else j) } }).push (.drainingEnd core)

/-- The start of a drained tile's output; it waits for the MMAs that were issued before it. -/
def State.startMdrain (s : State) (v : EngV) (tile : Nat) (rec_ : Word) (rows cols : List Byte) (add : Bool) :
    State × Started :=
  let m := (s.coreOf v.core).matrix
  let poisoned := match m.holder with
    | some g => (match s.group? g with
      | some gr => gr.poisoned.contains (markA tile)
      | none => false)
    | none => false
  if m.mmas.any (fun j => decide (j.tile = tile)) then (s, .blocked)
  else if poisoned then (s, .ended 6 0x18)
  else
    s.engFetch v 0 false rec_ 128 (fun s rv =>
      match parseShape rv with
      | none => (s, .ended 1 0x02)
      | some d =>
        match fmtType d.fmt with
        | none => (s, .ended 1 0x02)
        | some t =>
          if d.counts ≠ [256, 64, 1, 1] then (s, .ended 1 0x02)
          else
            let ws := tuples [256, 64]
            let val := fun (w : List Nat) =>
              let c := w.getD 0 0
              let r := w.getD 1 0
              drainValue t (m.acc tile r c) (rows.getD r 0).toNat (cols.getD c 0).toNat
            let es := ws.filterMap (fun w => (d.at_ w).map (fun a => (⟨.val (val w), a⟩ : Elem)))
            s.engElems v 1 false d.spad 0 (tagOf d.base) [] (ws.filterMap d.at_) 0 d.bytes
              (if add then Need.engAdd else Need.engWrite) id (if add then some (drainAdd t) else none) es)

/-! ## COLL (R102, R246) -/

structure CollDesc where
  dst : Word
  src : Word
  count : Nat
  op : Nat
  elem : Nat
  dstSpad : Bool
  srcSpad : Bool
  root : Nat
  deriving DecidableEq, Repr

/-- Bytes of a descriptor's element. -/
def collBytes (elem : Nat) : Nat :=
  if elem < 8 then 8 / 2 ^ (elem % 4) else if elem = 8 then 8 else if elem = 9 then 4 else 2

/-- Read a descriptor of 32 bytes; `none` where it breaks a limit of R246. -/
def parseColl (v parts : Nat) : Option CollDesc :=
  let op := field v 20 1
  let elem := field v 21 1
  let fl := field v 22 1
  let count := field v 16 4
  let root := field v 24 4
  if 1 ≤ count ∧ count ≤ 2 ^ 24 ∧ op ≤ 5 ∧ elem ≤ 11 ∧ fl ≤ 3 ∧ field v 23 1 = 0 ∧ field v 28 4 = 0 ∧
      (if op = 3 then root < parts else root = 0) then
    some { dst := word (field v 0 8), src := word (field v 8 8), count := count, op := op, elem := elem,
           dstSpad := decide (fl % 2 = 1), srcSpad := decide (fl / 2 = 1), root := root }
  else none

/-- Elements read and written by one participant (R246). -/
def CollDesc.reads (d : CollDesc) (parts : Nat) : Nat := if d.op = 5 then d.count * parts else d.count
def CollDesc.writes (d : CollDesc) (parts : Nat) : Nat := if 4 ≤ d.op then d.count * parts else d.count
def CollDesc.srcLo (d : CollDesc) : Nat := if d.srcSpad then d.src.toNat else vaOf d.src
def CollDesc.dstLo (d : CollDesc) : Nat := if d.dstSpad then d.dst.toNat else vaOf d.dst

/-- The entry of an engine's collective at the head of its queue. -/
def State.collOf (s : State) (core : Nat) (num : BitVec 32) : Option CollEntry :=
  s.colls.find? (fun c => decide (c.core = core) && decide (c.num = num))

def State.dropColl (s : State) (core : Nat) (num : BitVec 32) : State :=
  { s with colls := s.colls.filter (fun c => !(decide (c.core = core) && decide (c.num = num))) }

def CollEntry.sameOp (a b : CollEntry) : Bool :=
  decide (a.grid = b.grid) && decide (a.level = b.level) && decide (a.member = b.member) && decide (a.seq = b.seq)

/-- Whether every participant of a command's collective has contributed, so that it will complete (R102). -/
def State.collReady (s : State) (core : Nat) (num : BitVec 32) : Bool :=
  match s.collOf core num with
  | none => false
  | some c => decide (c.parts ≤ (s.colls.filter (fun q => q.sameOp c && !q.desc.isEmpty)).length)

/-- Start of a COLL: its descriptor is read and its ranges are checked; the operation waits until every participant has
contributed. A malformed descriptor matches none (log entry 43). A participant whose ranges fail their check ends alone with its own
status, and the others go on waiting for it: R102 says nothing of it (log entry 64). -/
def State.startColl (s : State) (v : EngV) (desc : Word) : State × Started :=
  match s.collOf v.core v.num with
  | none => (s, .ended 1 0x02)
  | some c =>
    s.engFetch v 0 false desc 32 (fun s dv =>
      let put := fun (s : State) (sx dx : List Xlat) =>
        let c' : CollEntry := { c with desc := [dv], src := sx, dst := dx }
        let s : State := { s with colls := s.colls.map (fun q => if q.core = c.core ∧ q.num = c.num then c' else q) }
        let all := s.colls.filter (fun q => q.sameOp c && !q.desc.isEmpty)
        let s := if c.parts ≤ all.length then s.push (.collectiveComplete c.grid c.level c.member c.seq) else s
        (s, Started.contributed)
      match parseColl dv c.parts with
      | none => put s [] []
      | some d =>
        match s.engRange v 1 d.srcSpad (tagOf d.src) d.srcLo (d.reads c.parts * collBytes d.elem) Need.engRead with
        | (s, .error x) => (s, x)
        | (s, .ok sx) =>
          match s.engRange v 2 d.dstSpad (tagOf d.dst) d.dstLo (d.writes c.parts * collBytes d.elem) Need.engWrite with
          | (s, .error x) => (s, x)
          | (s, .ok dx) => put s sx dx)

/-- Element type of a descriptor: an integer type of R136 or a float type. -/
def collType (elem : Nat) : AtomTy :=
  match elem with
  | 0 => .int .i64 | 1 => .int .i32 | 2 => .int .i16 | 3 => .int .i8
  | 4 => .int .u64 | 5 => .int .u32 | 6 => .int .u16 | 7 => .int .u8
  | 8 => .flt .f64 | 9 => .flt .f32 | 10 => .flt .f16 | _ => .flt .b16

/-- One step of a reduction (R102). -/
def collStep (ty : AtomTy) (op a b : Nat) : Nat :=
  match ty with
  | .int _ => if op = 0 then atomNew ty .add a b 0 else if op = 1 then atomNew ty .min a b 0 else atomNew ty .max a b 0
  | .flt t =>
    if op = 0 then
      let (y, fl) := addF .rn (decodeF t a) (decodeF t b)
      (finishF t .rn y fl).1
    else (minmaxF t false (decide (op = 2)) a b).1

/-- The fixed binary tree over the participants in index order (R102); where it splits is free (log entry 17). -/
def collTree (f : Nat → Nat → Nat) : Nat → List Nat → Nat
  | _, [] => 0
  | _, [a] => a
  | _, [a, b] => f a b
  | 0, a :: l => l.foldl f a
  | fuel + 1, l =>
    let k : Nat := Config.treeSplit l.length % (l.length - 1) + 1
    f (collTree f fuel (l.take k)) (collTree f fuel (l.drop k))

def elemAt (v n i : Nat) : Nat := (v / 2 ^ (8 * n * i)) % 2 ^ (8 * n)

def joinElems (n : Nat) : List Nat → Nat
  | [] => 0
  | x :: l => x + 2 ^ (8 * n) * joinElems n l

/-- What a participant receives, from every participant's source in index order (R246). -/
def collResult (d : CollDesc) (part : Nat) (srcs : List Nat) : Nat :=
  let n := collBytes d.elem
  match d.op with
  | 3 => srcs.getD d.root 0
  | 4 => joinElems (n * d.count) srcs
  | 5 => joinElems (n * d.count) (srcs.map (fun v => elemAt v (n * d.count) part))
  | _ => joinElems n ((List.range d.count).map (fun i =>
      collTree (collStep (collType d.elem) d.op) srcs.length (srcs.map (fun v => elemAt v n i))))

/-! ## The steps of a command -/

def State.engV (s : State) (core : Nat) (e : Eng) (c : Cmd) : EngV :=
  ⟨core, e, c.ctx, c.block, s.leaseOf (c.block / 2 ^ 24), c.num, c.recs, c.ranges⟩

def State.startCmd (s : State) (core : Nat) (e : Eng) (c : Cmd) : State × Started :=
  let v := s.engV core e c
  match c.op with
  | .cpy d a n ds ss => s.startCpy v d a n ds ss
  | .cpyt d a => s.startCpyt v d a
  | .gath d a i is => s.startGath v d a i is
  | .coll d _ => s.startColl v d
  | .edcopy b => s.startEdcopy v b
  | .mdrain t r rs cs add _ => s.startMdrain v t r rs cs add

/-- Set the progress of a command. -/
def State.setPhase (s : State) (core : Nat) (e : Eng) (num : BitVec 32) (p : CmdPhase) : State :=
  s.setCmd core e num (fun c => { c with phase := p })

/-- A recoverable fault of a command or of a program (R99): it is written under the issuing thread, with the command's number
where it has one. -/
def State.engFault (s : State) (core : Nat) (e : Eng) (ctx thread kind : Nat) (addr : Word) (leaf : Bool)
    (num : Option (BitVec 32)) : State :=
  match s.group? (thread / 32) with
  | none => s
  | some g =>
    let fl := (if num.isSome then 2 else 0) + (if leaf then 4 else 0)
    (s.fault ctx (dieOfCore core) (faultEntry g thread kind addr fl ((num.map (fun n => n.toNat)).getD 0) (some e))).1

/-- The engine is done with a drained tile, whatever the command came to. -/
def State.afterStart (s : State) (core : Nat) (c : Cmd) : State :=
  match c.op with
  | .mdrain t _ _ _ _ _ => s.drainRead core t
  | _ => s

/-- The command of a queue that starts next: the first. Behind a COLL that waits for its other participants, those of the same collective
that this engine has accepted start with it, since it could not complete otherwise; every other command waits until it has been
performed (R98, R102, R247; log entry 38). -/
def State.nextCmd (s : State) (core : Nat) (e : Eng) : Option Cmd :=
  match (s.engineOf core e).queue with
  | [] => none
  | h :: rest =>
    if h.phase ≠ .collWait then some h
    else match s.collOf core h.num with
      | none => none
      | some c => rest.find? (fun q => decide (q.phase = .queued) && (match s.collOf core q.num with
        | some k => k.sameOp c
        | none => false))

/-- ENGINE_COMMAND_START: a command starts once every earlier one has completed (R98, R99). -/
def execEngineCommandStart (core : Nat) (e : Eng) (s : State) : Host.Outcome State Fault Refusal :=
  .next (match s.nextCmd core e with
    | none => s
    | some c =>
      if c.phase ≠ .queued then s
      else
        match s.startCmd core e c with
        | (s, .blocked) => s.push (.engineCommandStart core e)
        | (s, .parked k a leaf) =>
          ((s.setPhase core e c.num .faulted).unqueue (.engine core e)).engFault core e c.ctx c.thread k a leaf (some c.num)
        | (s, .ended n cause) =>
          (((s.setPhase core e c.num (.done n cause)).unqueue (.engine core e)).afterStart core c).push (.engineCommandComplete core e)
        | (s, .contributed) => ((s.setPhase core e c.num .collWait).unqueue (.engine core e)).push (.engineCommandStart core e))

/-- Record the first failed status of a group's engine programs (R104). -/
def Fork.note (f : Fork) (e : Nat) (status : Nat) : Fork :=
  if status = 0 ∨ (Table.find f.statuses e).isSome then f else { f with statuses := Table.set f.statuses e status }

def engNumber : Eng → Nat
  | .bulk => 0
  | .gather => 1
  | .coll => 2

/-- A command's or a program's status reaches the group, if the FORK that it is of is still its most recent one (R104). -/
def State.noteFork (s : State) (group fork : Nat) (e : Eng) (status : Nat) : State :=
  match s.group? group with
  | none => s
  | some g => s.setGroup group { g with fork := g.fork.map (fun f => if f.num = fork then f.note (engNumber e) status else f) }

/-- The status with which the first command of a queue ends, if it has ended: cancelled commands end with status 4 (R371). -/
def Cmd.ended (c : Cmd) : Option (Nat × Nat) :=
  match c.phase with
  | .done n cause => some (n, cause)
  | .cancelled => some (4, 0x0D)
  | _ => none

/-- ENGINE_COMMAND_COMPLETE: the first command that has ended leaves the queue: its status is kept among the 64 most recently accepted,
its pins are released, a place frees, and who waits on it goes on (R97, R100, R104, R108). -/
def execEngineCommandComplete (core : Nat) (e : Eng) (s : State) : Host.Outcome State Fault Refusal :=
  .next (match (s.engineOf core e).queue.find? (fun c => c.ended.isSome) with
    | none => s
    | some c =>
      match c.ended with
      | none => s
      | some (n, cause) =>
        let s := if c.phase = .cancelled then s.afterStart core c else s
        let g := s.engineOf core e
        let rest := removeFirst (fun (q : Cmd) => decide (q.num = c.num)) g.queue
        let st : CmdStatus := ⟨c.num, n, cause, 0⟩
        let kept := (g.done ++ [st]).filter (fun d => decide ((g.next - 1 - d.num).toNat < 64))
        let s := s.setEngine core e { g with queue := rest, done := kept }
        let s := s.unpinAll c.ctx (.command core e c.num.toNat)
        let s := s.dropColl core c.num
        let s := match c.fork with
          | some f => (s.noteFork (c.thread / 32) f e n).wakeRdv (c.thread / 32)
          | none => s
        let s := s.push (.engineSlotFreed core e)
        if rest.isEmpty then s else s.push (.engineCommandStart core e))

/-- ENGINE_SLOT_FREED: threads that stall at a full engine, or wait on a command of it, issue again; a stalled sequencer too
(R97). -/
def execEngineSlotFreed (core : Nat) (e : Eng) (s : State) : Host.Outcome State Fault Refusal :=
  let s := s.wakeEngine core e
  .next (match (s.engineOf core e).seq with
    | some q => if q.waiting = .slot then s.pushOnce (.sequencerStep core e) else s
    | none => s)

/-! ## COLLECTIVE_COMPLETE -/

/-- A participant of a collective with what it needs to be performed. -/
structure CollPart where
  c : CollEntry
  v : EngV
  d : CollDesc
  deriving DecidableEq, Repr

def CollPart.sides (p : CollPart) : Sides :=
  ⟨p.d.srcSpad, p.c.src, p.d.dstSpad, p.c.dst, p.d.reads p.c.parts * collBytes p.d.elem, p.d.writes p.c.parts * collBytes p.d.elem⟩

def State.collPart (s : State) (c : CollEntry) : Option CollPart :=
  match (s.engineOf c.core .coll).queue.find? (fun q => decide (q.num = c.num)), parseColl (c.desc.headD 0) c.parts with
  | some q, some d => some ⟨c, s.engV c.core .coll q, d⟩
  | _, _ => none

/-- End a participant's command. -/
def State.endColl (s : State) (c : CollEntry) (n cause : Nat) : State :=
  (s.setPhase c.core .coll c.num (.done n cause)).push (.engineCommandComplete c.core .coll)

/-- Reach the lines of every participant. -/
def State.collGates (s : State) : List CollPart → State × Bool
  | [] => (s, true)
  | p :: rest =>
    let sd := p.sides
    let ts := (if sd.srcSpad then [] else touches p.v.core sd.srcXs false [(p.d.srcLo, sd.srcSize)]) ++
      (if sd.dstSpad then [] else touches p.v.core sd.dstXs true [(p.d.dstLo, sd.dstSize)])
    match s.engGate p.v ts with
    | (s, true) => s.collGates rest
    | (s, false) => ((s.collGates rest).1, false)

/-- Read every participant's source, in index order: the first failure ends that participant's command and is answered. -/
def State.collReads (s : State) : List CollPart → List (CollPart × Except EngStop Nat) → State × List (CollPart × Except EngStop Nat)
  | [], acc => (s, acc)
  | p :: rest, acc =>
    let sd := p.sides
    let (s, sn) := (s.readCommits p.v.core p.v.ctx sd.srcXs).engLoads p.v (if sd.srcSpad then [] else touches p.v.core sd.srcXs false [(p.d.srcLo, sd.srcSize)]) []
    s.collReads rest (acc ++ [(p, s.engRead p.v sd.srcSpad sd.srcXs sn p.d.srcLo sd.srcSize)])

/-- Write one participant's result and end its command. -/
def State.collWrite (s : State) (p : CollPart) (w : Nat) : State :=
  let sd := p.sides
  let (s, n, cause) := s.cpyMove p.v sd (cpyElems p.d.dstLo w (sd.dstSize / 16 + 2) 0 sd.dstSize) []
  s.endColl p.c n cause

/-- Descriptors match in op, element, count and root (R246). -/
def CollDesc.matches (a b : CollDesc) : Bool :=
  decide (a.op = b.op) && decide (a.elem = b.elem) && decide (a.count = b.count) && decide (a.root = b.root)

/-- The entry of a participant number among those of one collective. -/
def partOf (l : List CollEntry) (i : Nat) : Option CollEntry := l.find? (fun c => decide (c.part = i))

/-- COLLECTIVE_COMPLETE: once all participants have contributed, the operation completes on every one (R102, R246). Where one
participant's source is unreadable, its command ends with status 6 and the others' with it. -/
def execCollectiveComplete (grid level member seq : Nat) (s : State) : Host.Outcome State Fault Refusal :=
  let all := s.colls.filter (fun c => decide (c.grid = grid) && decide (c.level = level) && decide (c.member = member) &&
    decide (c.seq = seq) && !c.desc.isEmpty)
  .next (match all with
    | [] => s
    | c0 :: _ =>
      let ordered := (List.range c0.parts).filterMap (partOf all)
      if ordered.length < c0.parts then s
      else
        let parts := ordered.filterMap s.collPart
        match parts with
        | [] => ordered.foldl (fun s c => s.endColl c 1 0x02) s
        | p0 :: _ =>
          if parts.length < ordered.length || !(parts.all (fun p => p.d.matches p0.d)) then
            ordered.foldl (fun s c => s.endColl c 1 0x02) s
          else
            match s.collGates parts with
            | (s, false) => s.push (.collectiveComplete grid level member seq)
            | (s, true) =>
              let s := parts.foldl (fun s p => s.unqueue p.v.who) s
              let (s, rs) := s.collReads parts []
              if rs.any (fun r => match r.2 with | .error _ => true | .ok _ => false) then
                ordered.foldl (fun s c => s.endColl c 6 0x18) s
              else
                let srcs := rs.map (fun r => match r.2 with | .ok w => w | .error _ => 0)
                parts.foldl (fun s p => s.collWrite p (collResult p.d p.c.part srcs)) s)

end Sys2Proof.Machine
end

