-- ==== Sys2Proof/Machine/Fetch.lean ====
section
/-!
DEFINITION. Fetching one instruction word for a thread or a sequencer: the check of R63, entry into code regions and the
pinned edition (R344 to R347, R316), and poisoned words (R389). The instruction caches are transparent: a fetch reads what
the point of coherence holds.
-/
namespace Sys2Proof.Machine

/-- What a fetch comes to. A word that was got may enter a code region: the buffer, and its descriptor as it stands (R344). -/
inductive Fetched where
  | trap (t : Trap)
  | park (addr : Word) (leaf : Bool)
  | await_ (buf : Nat)
  | blocked
  | got (w : Word) (enter : Option (Nat × Desc))
  deriving DecidableEq, Repr

/-- Whether an address lies in a current region: a public-view leaf of its buffer translates it (R343, R344). -/
def State.inRegion (s : State) (core ctx : Nat) (p : RegionPin) (pc : Word) : Bool :=
  match s.leafFor core ctx (vaOf pc) with
  | .ok (l, _) => leafE l && !(leafD l) && decide (leafBuf l = p.buf)
  | .error _ => false

/-- The current region that a fetch at pc keeps; every other one is released before the word is read (R344). -/
def State.regionAt (s : State) (core ctx : Nat) (region : Option RegionPin) (pc : Word) : Option RegionPin :=
  match region with
  | some p => if s.inRegion core ctx p pc then some p else none
  | none => none

/-- The 8 bytes of a word: on a line under the core's own write tenure, those of its L1 copy (R87). -/
def State.fetchBytes (s : State) (core ctx pa : Nat) : Nat :=
  if isControl pa then s.regRead pa 8
  else match s.tenureOf core ctx (lineOf pa), Table.find (s.coreOf core).l1 (lineOf pa) with
    | .write, some l => LineData.read l.data (pa % 128) 8
    | _, _ => s.bytesNow pa 8

/-- Read a checked word at a physical address. -/
def State.fetchRead (s : State) (who : Accessor) (core ctx : Nat) (pc : Word) (pa : Nat) (enter : Option (Nat × Desc)) : State × Fetched :=
  if (s.poisonIn pa 8).isSome then (s, .trap ⟨0x18, pc⟩)
  else if isControl pa then (s, .got (word (s.fetchBytes core ctx pa)) enter)
  else
    match s.gate who (some core) ctx pa 8 false true true with
    | (s, false) => (s, .blocked)
    | (s, true) =>
      let s := s.hostFlush (lineOf pa)
      (s, .got (word (s.fetchBytes core ctx pa)) enter)

/-- Fetch the word at pc under a translation for fetchers whose current region there, if any, is given (R63, R344): within it from its pinned
backing; else, in a code region, at its current edition, which they enter, unless it is retracted. -/
def State.fetchAt (s : State) (who : Accessor) (core ctx : Nat) (here : Option RegionPin) (pc : Word) (x : Xlat) : State × Fetched :=
  if isAperture x.pa then (s, .trap ⟨0x0D, pc⟩)
  else
    match x.ed with
    | none => s.fetchRead who core ctx pc x.pa none
    | some (buf, back) =>
      match s.desc? ctx buf, here with
      | none, _ => (s, .trap ⟨0x0D, pc⟩)
      | some d, some p => s.fetchRead who core ctx pc (x.pa - d.backing back + d.backing p.backing) none
      | some d, none =>
        if d.retracted then (s, .await_ buf)
        else if s.heldBack core ctx [x] then (s, .blocked)
        else s.fetchRead who core ctx pc x.pa (some (buf, d))

/-- The translations under which a fetching thread passed its check at pc before (R68): a page of a buffer resolves anew. -/
def State.fetchPassed (s : State) (who : Accessor) (pc : Word) : Option (List Xlat) :=
  match who with
  | .thread t => s.passedBy t pc Need.fetch.kind
  | _ => none

/-- A thread's fetch that has to wait stays under the translation that its check gave (R68). -/
def State.holdFetch (s : State) (who : Accessor) (pc : Word) (xs : List Xlat) (f : Fetched) : State :=
  match who with
  | .thread t => if f = .blocked ∧ xs.all (fun x => x.ed.isNone) then s.holdAt t pc Need.fetch.kind xs else s
  | _ => s

/-- Fetch the word at pc (R63): checked, unless it waits with a check that it has passed. -/
def State.fetchWord (s : State) (who : Accessor) (core ctx : Nat) (here : Option RegionPin) (pc : Word) : State × Fetched :=
  match s.fetchPassed who pc with
  | some (x :: _) => s.fetchAt who core ctx here pc x
  | _ =>
    match s.check core ctx pc 8 8 Need.fetch with
    | .error (.trap c) => (s.reportBad core ctx pc 8 Need.fetch c, .trap ⟨c, pc⟩)
    | .error (.park a leaf) => (s, .park a leaf)
    | .ok xs =>
      let s := s.fillCaches core ctx (tagOf pc) xs
      match xs with
      | [] => (s, .blocked)
      | x :: _ =>
        match s.fetchAt who core ctx here pc x with
        | (s, f) => (s.holdFetch who pc xs f, f)

/-- A thread whose pc lies outside its current region leaves it (R344). -/
def State.leaveAt (s : State) (tid core ctx : Nat) (pc : Word) : State :=
  match s.thread? tid with
  | none => s
  | some t => if (s.regionAt core ctx t.region pc).isSome then s else s.leaveRegion tid ctx

/-- A thread enters the region that its fetch came to, if any. -/
def State.enterAt (s : State) (tid ctx : Nat) (enter : Option (Nat × Desc)) : State :=
  match enter with
  | some (buf, d) => s.enterRegion tid ctx buf d
  | none => s

end Sys2Proof.Machine
end

