-- ==== Sys2Proof/Machine/Control.lean ====
section
/-!
DEFINITION. The B-form control instructions but TAIL and EXIT, and the SYS group (R212 to R223).
-/
namespace Sys2Proof.Machine

/-! ## Branches (R180, R213) -/

/-- A word whose lanes each go to a program counter of their own, or trap. The body sees the thread after collection; its own trap
comes before that of a poisoned operand (R365). -/
def laneJump (a : Option SrcSpec) (f : Env → Thread → Got → Except Trap Thread) : LaneFn := fun e l t =>
  match collect e l t none a none none with
  | .error tr => trapLane e t tr
  | .ok g =>
    match f e t g with
    | .error tr => trapLane e t tr
    | .ok t' => if g.poisoned then trapLane e t poisonTrap else ⟨t', none⟩

/-- The target of a relative branch (R180). -/
def relTarget (pc : Word) (off : BitVec 30) : Word := ptrAdd pc (8 * off.toInt)

/-- A jump to a whole pointer: bits 2:0 not zero raise trap 0x0E (R213). -/
def jumpTo (t : Thread) (a : Word) : Except Trap Thread :=
  if a.toNat % 8 ≠ 0 then .error ⟨0x0E, a⟩ else .ok { t with pc := a }

def execBra (g : Guard) (_hint : Hint) (off : BitVec 30) (s : State) : Host.Outcome State Fault Refusal :=
  lanewise g (laneJump none (fun _ t r => .ok { r.t with pc := relTarget t.pc off })) s
def execBrx (g : Guard) (_hint : Hint) (a : Operand) (s : State) : Host.Outcome State Fault Refusal :=
  lanewise g (laneJump (srcO .whole a) (fun _ _ r => jumpTo r.t r.a)) s
/-- The return pointer is the branch word's address plus 8 with the program counter's tag (R213). -/
def execCall (g : Guard) (_hint : Hint) (l : Fin 128) (off : BitVec 30) (s : State) : Host.Outcome State Fault Refusal :=
  lanewise g (laneJump none (fun _ t r => .ok { r.t.setV l.val (nextPc t.pc) with pc := relTarget t.pc off })) s
def execCallx (g : Guard) (_hint : Hint) (l : Fin 128) (a : Operand) (s : State) : Host.Outcome State Fault Refusal :=
  lanewise g (laneJump (srcO .whole a) (fun _ t r => jumpTo (r.t.setV l.val (nextPc t.pc)) r.a)) s
def execRtn (g : Guard) (_hint : Hint) (a : Operand) (s : State) : Host.Outcome State Fault Refusal :=
  lanewise g (laneJump (srcO .whole a) (fun _ _ r => jumpTo r.t r.a)) s

/-! ## Waiting (R215, R216) -/

/-- A thread that reaches CONV waits there; its program counter stays at the word until the release (R215). -/
def execConv (s : State) : Host.Outcome State Fault Refusal :=
  issued s (fun i =>
    (s.runLanes i (fun _ _ t => ⟨{ t with status := .wait .conv }, none⟩)).pushOnce (.convRelease i.core i.slot))

/-- Slots of the other ready threads of a thread's lane (R216): resident, running and not in a YIELD interval. DESIGN CHOICE (log entry 64): those
that are ready when YIELD executes; one that becomes ready later is not waited for. -/
def State.lanePeers (s : State) (i : Issue) (lane : Nat) : List Nat :=
  (List.range 8).filter (fun k =>
    let slot := (i.slot / 8) * 8 + k
    slot ≠ i.slot &&
      (match s.thread? ((i.core * 32 + slot) * 32 + lane) with
        | some t => decide (t.status = .run) && t.yieldAt.isNone
        | none => false))

/-- YIELD (R216): the interval begins, and the event YIELD_EXPIRY ends it. -/
def execYield (g : Guard) (s : State) : Host.Outcome State Fault Refusal :=
  issued s (fun i =>
    let s1 := s.runLanes i (runLane g (fun _ l t =>
      ⟨{ t.advance with yieldAt := some (s.cycle, s.lanePeers i l) }, none⟩))
    let chosen := match s.group? i.group with
      | none => []
      | some gr => i.lanes.filter (fun l => match Table.find gr.threads l with
        | some t => t.selected g
        | none => false)
    s1.pushAll (chosen.map (fun l => .yieldExpiry i.core i.slot l)))

/-! ## Software traps and NOP (R219) -/

/-- TRAP resumes at the next word. -/
def execTrap (g : Guard) (imm : BitVec 8) (s : State) : Host.Outcome State Fault Refusal :=
  lanewise g (fun e _ t => t.takeTrap e.tvec (nextPc t.pc) ⟨0x17, word imm.toNat⟩) s
/-- BPT resumes at its own word. -/
def execBpt (g : Guard) (imm : BitVec 8) (s : State) : Host.Outcome State Fault Refusal :=
  lanewise g (fun e _ t => t.takeTrap e.tvec t.pc ⟨0x16, word imm.toNat⟩) s
def execNop (g : Guard) (s : State) : Host.Outcome State Fault Refusal :=
  lanewise g (fun _ _ t => ⟨t.advance, none⟩) s

/-! ## Control and status registers (R220, R221) -/

/-- The number of a register (R220). -/
def csrNumber : Csr → Nat
  | .tctl => 0x00 | .astat => 0x01 | .gstat => 0x02 | .lclock => 0x03 | .tvec => 0x08 | .svec => 0x09 | .tmode => 0x0A
  | .tepc => 0x0B | .tcause => 0x0C | .tval => 0x0D | .tsave => 0x0E
  | .lidx n => 0x10 + n.val
  | .lcnt n => 0x18 + n.val

/-- The value read. gstat is as every earlier issue cycle left it (R195). -/
def csrValue (s : State) (e : Env) (l : Nat) (t : Thread) : Csr → Word
  | .tctl => t.tctl
  | .astat => t.astat
  | .gstat => e.g.gseen
  | .lclock => word e.clock.toNat
  | .tvec => e.tvec
  | .svec => e.svec
  | .tmode => t.tmode
  | .tepc => t.tepc
  | .tcause => t.tcause
  | .tval => t.tval
  | .tsave => t.tsave
  | .lidx n => word (s.lidx e.g l n.val)
  | .lcnt n => word (s.lcnt e.g n.val)

/-- Whether a write is a privilege violation (R221). -/
def csrProtected (t : Thread) : Csr → Bool
  | .tvec | .svec | .tmode => true
  | .lidx _ | .lcnt _ => true
  | .tepc | .tcause | .tval | .tsave => !t.inHandler
  | _ => false

/-- The thread's own register written; reserved bits ignore writes (R220). gstat and lclock belong to the group and to
the core. -/
def csrWrite (t : Thread) (w : Word) : Csr → Thread
  | .tctl => { t with tctl := w &&& 1 }
  | .astat => { t with astat := w &&& 0x3F3F }
  | .tepc => { t with tepc := w }
  | .tcause => { t with tcause := w &&& 0xFF }
  | .tval => { t with tval := w }
  | .tsave => { t with tsave := w }
  | _ => t

/-- The functions of CSRW, CSRS and CSRC (R221). -/
inductive CsrFn where
  | write | set | clear
  deriving DecidableEq, Repr

def CsrFn.new (f : CsrFn) (old a : Word) : Word :=
  match f with
  | .write => a
  | .set => old ||| a
  | .clear => old &&& ~~~a

/-- One lane of CSRW, CSRS or CSRC: the privilege check comes first (R365 step 2), then the old value goes to dst and
the register is written. -/
def csrLane (s : State) (f : CsrFn) (pat : LanePat) (d : Operand) (csr : Csr) (a : Src) : LaneFn := fun e l t =>
  if csrProtected t csr then trapLane e t ⟨0x19, word (csrNumber csr)⟩
  else lane (some d) (srcP pat .whole a) none none
    (fun r =>
      let old := csrValue s e l t csr
      .ok (csrWrite (r.t.put r.d old) (f.new old r.a) csr)) e l t

/-- The values of A in the lanes of an issue that the word selects and that take no trap, in lane order. -/
def csrSources (e : Env) (i : Issue) (g : Guard) (pat : LanePat) (d : Operand) (a : Src) : List Word :=
  e.g.threads.filterMap (fun p =>
    if i.lanes.contains p.1 && p.2.selected g then
      match collect e p.1 p.2 (some d) (srcP pat .whole a) none none with
      | .ok r => if r.poisoned then none else some r.a
      | .error _ => none
    else none)

def orWords : List Word → Word
  | [] => 0
  | w :: l => w ||| orWords l

/-- The bits of gstat that one word clears and sets, over its threads (R194). -/
def gstatBits (f : CsrFn) (l : List Word) : Word × Word :=
  match f with
  | .write => (orWords (l.map (fun w => ~~~w)), orWords l)
  | .set => (0, orWords l)
  | .clear => (orWords l, 0)

/-- What a write of lclock raises the clock to: the value, when that is later by fewer than 2^13 ticks (R80). Like every jump it raises the
die's reference and waits under the lead limit (R88). -/
def lclockWrite (clock : BitVec 16) (w : Word) : BitVec 16 :=
  let v := BitVec.ofNat 16 (bits w 15 0)
  if 0 < (v - clock).toNat ∧ (v - clock).toNat < 2 ^ 13 then v else clock

/-- The part of a CSR write that the group or the core holds. -/
def csrShared (s : State) (i : Issue) (f : CsrFn) (csr : Csr) (l : List Word) : State :=
  match csr with
  | .gstat =>
    (match s.group? i.group with
      | none => s
      | some g => s.setGroup i.group (g.updateGstat (gstatBits f l).1 (gstatBits f l).2))
  | .lclock => l.foldl (fun s w => s.jumpTo i.core (lclockWrite (s.coreOf i.core).clock w)) s
  | _ => s

/-- The group status register is updated in issue order (R195): a word that reads or writes it waits while an MMA of the group, issued before
it, may still set MSAT (R291; log entry 73). -/
def State.satPending (s : State) (group : Nat) : Bool :=
  let m := (s.coreOf (coreOfGroup group)).matrix
  decide (m.holder = some group) && !m.mmas.isEmpty

/-- Whether a CSR word has to wait at its word: for an MMA's MSAT, or because the jump that it asks for stands under the lead limit (R88), with
the state after the exchanges that it may wait for at once. -/
def csrWaits (s : State) (i : Issue) (csr : Csr) (l : List Word) : Option State :=
  match csr with
  | .gstat => if s.satPending i.group then some s else none
  | .lclock =>
    let t := l.foldl lclockWrite (s.coreOf i.core).clock
    let s' := s.awaitLead (dieOfCore i.core) t 16
    if t ≠ (s.coreOf i.core).clock ∧ s'.leads (dieOfCore i.core) t = false then some s' else none
  | _ => none

/-- CSRW, CSRS and CSRC. -/
def csrModify (f : CsrFn) (g : Guard) (pat : LanePat) (d : Operand) (csr : Csr) (a : Src) (s : State) :
    Host.Outcome State Fault Refusal :=
  issued s (fun i =>
    match s.env? i with
    | none => s
    | some e =>
      match csrWaits s i csr (csrSources e i g pat d a) with
      | some s => s
      | none => csrShared (s.runLanes i (runLane g (csrLane s f pat d csr a))) i f csr (csrSources e i g pat d a))

def execCsrr (g : Guard) (d : Operand) (csr : Csr) (s : State) : Host.Outcome State Fault Refusal :=
  issued s (fun i =>
    match csrWaits s i csr [] with
    | some s => s
    | none => s.runLanes i (runLane g (fun e l t => lanePure d none none none (fun _ => csrValue s e l t csr) e l t)))
def execCsrw (g : Guard) (pat : LanePat) (d : Operand) (csr : Csr) (a : Src) (s : State) :
    Host.Outcome State Fault Refusal := csrModify .write g pat d csr a s
def execCsrs (g : Guard) (pat : LanePat) (d : Operand) (csr : Csr) (a : Src) (s : State) :
    Host.Outcome State Fault Refusal := csrModify .set g pat d csr a s
def execCsrc (g : Guard) (pat : LanePat) (d : Operand) (csr : Csr) (a : Src) (s : State) :
    Host.Outcome State Fault Refusal := csrModify .clear g pat d csr a s

/-! ## System calls and the return from a handler (R222, R223) -/

def execSysc (g : Guard) (fn : BitVec 6) (s : State) : Host.Outcome State Fault Refusal :=
  lanewise g (fun e _ t =>
    if t.inHandler then trapLane e t ⟨0x19, 0⟩
    else ⟨t.enter 0x00 (word fn.toNat) (nextPc t.pc) e.svec, none⟩) s

/-- ERET: trap 0x19 outside a handler, trap 0x0E for a misaligned tepc with tmode unchanged, else the return. -/
def execEret (g : Guard) (s : State) : Host.Outcome State Fault Refusal :=
  lanewise g (fun e _ t =>
    if !t.inHandler then trapLane e t ⟨0x19, 0⟩
    else if t.tepc.toNat % 8 ≠ 0 then trapLane e t ⟨0x0E, t.tepc⟩
    else ⟨t.leave, none⟩) s

end Sys2Proof.Machine
end

