-- ==== Sys2Proof/Machine/Sync.lean ====
section
/-!
DEFINITION. Barriers (R250, R431) and semaphores (R251, R252), with the events that release their waiters.
-/
namespace Sys2Proof.Machine

/-! ## Barriers -/

/-- The member of a level from 1 up that a group belongs to, numbered within its grid. -/
def Grid.memberOf (gr : Grid) (g : Group) (level : Nat) : Nat :=
  if level = 1 then g.block * gr.lcnt 1 + g.lidx1 else gr.member g.block level

def State.memberOf (s : State) (g : Group) (level : Nat) : Nat :=
  match s.grid? g.grid with
  | some gr => gr.memberOf g level
  | none => 0

def Barrier.on (b : Barrier) (grid level member : Nat) : Bool :=
  decide (b.grid = grid) && decide (b.level = level) && decide (b.member = member)

/-- The barrier of a member; its first phase is 0 (R431). -/
def State.barrier (s : State) (grid level member : Nat) : Barrier :=
  match s.barriers.find? (fun b => b.on grid level member) with
  | some b => b
  | none => ⟨grid, level, member, 0, [], 0, false⟩

def State.setBarrier (s : State) (b : Barrier) : State :=
  { s with barriers := b :: s.barriers.filter (fun c => !(c.on b.grid b.level b.member)) }

/-- The live threads of a member (R250). -/
def State.participants (s : State) (grid level member : Nat) : List Nat :=
  s.groups.flatMap (fun p =>
    if p.2.grid = grid ∧ s.memberOf p.2 level = member then
      p.2.threads.filterMap (fun q => if q.2.status = .retired then none else some (p.1 * 32 + q.1))
    else [])

def barrierTrap (level : Nat) : Trap := ⟨0x15, word level⟩

/-- The checks of R365 step 3: above the gang level (R335), and above the block in a restartable one (R392). -/
def barrierLevel (level : Nat) (e : Env) (s : State) : Option Trap :=
  match s.grid? e.g.grid with
  | none => none
  | some gr =>
    if (decide (3 ≤ level) && decide (gr.gang < level)) || (s.restartable e && decide (2 < level)) then some (barrierTrap level) else none

/-- The checks of R365 step 3 for an arrival: then a poisoned barrier (R395). -/
def barrierPre (level : Nat) (e : Env) (s : State) : Option Trap :=
  match barrierLevel level e s with
  | some tr => some tr
  | none => if (s.barrier e.g.grid level (s.memberOf e.g level)).poisoned then some (barrierTrap level) else none

/-- Whether a phase has completed (R431). -/
def phaseDone (c t : BitVec 32) : Bool := decide (1 ≤ (c - t).toNat) && decide ((c - t).toNat ≤ 2 ^ 31)

/-- An arrival, which is a release at the level's scope; `none` while the thread has to wait with it. -/
def State.arrive (s : State) (e : Env) (l level : Nat) : Option (State × Barrier) :=
  let b := s.barrier e.g.grid level (s.memberOf e.g level)
  if b.arrived.contains (e.tid l) then none
  else
    match s.before e l .rel (s.levelScope e.g level) with
    | none => none
    | some s =>
      let b' : Barrier := { b with arrived := b.arrived ++ [e.tid l], clock :=
        if b.phase = 0 ∧ b.arrived.isEmpty then (s.coreOf e.core).clock else maxT b.clock (s.coreOf e.core).clock }
      some ((s.setBarrier b').pushOnce (.barrierPhaseComplete b.grid b.level b.member), b)

/-- A lane waits for a phase of its barrier. -/
def State.barrierWait (s : State) (e : Env) (l : Nat) (t : Thread) (b : Barrier) (phase : BitVec 32) (ins : Instr) : State :=
  s.waitAt e l t (.barrier b.grid b.level b.member phase.toNat ins)

/-- BAR (R250). -/
def execBar (g : Guard) (lvl : Fin 8) (s : State) : Host.Outcome State Fault Refusal :=
  overLanesIf (barrierPre lvl.val) g none none none none (fun e l t _ s =>
    match s.arrive e l lvl.val with
    | none => s
    | some (s, b) => s.barrierWait e l t b b.phase (.bar g lvl)) s

/-- ARRV (R250): it completes at its arrival. -/
def execArrv (g : Guard) (d : Operand) (lvl : Fin 8) (s : State) : Host.Outcome State Fault Refusal :=
  overLanesIf (barrierPre lvl.val) g (some d) none none none (fun e l _ r s =>
    match s.arrive e l lvl.val with
    | none => s
    | some (s, b) => s.complete e l (r.t.put r.d (word b.phase.toNat))) s

/-- The checks of R365 step 3 for BWAIT: a poisoned barrier traps a thread that would wait at it (R395). Where A cannot be read, the model
takes the phase as one that has not completed (log entry 74). -/
def bwaitPre (pat : LanePat) (a : Src) (level : Nat) (e : Env) (l : Nat) (t : Thread) (s : State) : Option Trap :=
  match barrierLevel level e s with
  | some tr => some tr
  | none =>
    let b := s.barrier e.g.grid level (s.memberOf e.g level)
    let done := match collect e l t none (srcP pat .whole a) none none with
      | .ok r => phaseDone b.phase (BitVec.ofNat 32 r.a.toNat)
      | .error _ => false
    if b.poisoned && !done then some (barrierTrap level) else none

/-- BWAIT (R250, R431): a completed phase is seen at once. -/
def execBwait (g : Guard) (pat : LanePat) (a : Src) (lvl : Fin 8) (s : State) : Host.Outcome State Fault Refusal :=
  overLanesBy (bwaitPre pat a lvl.val) g none (srcP pat .whole a) none none (fun e l t r s =>
    let b := s.barrier e.g.grid lvl.val (s.memberOf e.g lvl.val)
    let p := BitVec.ofNat 32 r.a.toNat
    if r.poisoned then s.trapAt e l t poisonTrap
    else if phaseDone b.phase p then (s.jumpTo e.core b.clock).complete e l r.t
    else s.barrierWait e l t b p (.bwait g pat a lvl)) s

/-- A thread whose phase has completed goes on: the completed wait is an acquire. -/
def State.barrierResume (s : State) (tid : Nat) (clock : BitVec 16) (ins : Instr) : State :=
  let s := s.jumpTo (coreOfThread tid) clock
  match ins with
  | .bwait _ pat a _ => s.laneResume tid none (srcP pat .whole a) none none (fun e l _ r s => s.complete e l r.t)
  | _ => s.laneResume tid none none none none (fun e l _ r s => s.complete e l r.t)

/-- What a thread waits for at a barrier. -/
def Thread.barrierWaits (t : Thread) (grid level member : Nat) : Option (Nat × Instr) :=
  match t.status with
  | .wait (.barrier g l m p ins) => if g = grid ∧ l = level ∧ m = member then some (p, ins) else none
  | _ => none

/-- BARRIER_PHASE_COMPLETE: the phase completes once every participant has arrived at it, and its waiters resume. -/
def execBarrierPhaseComplete (grid level member : Nat) (s : State) : Host.Outcome State Fault Refusal :=
  let b := s.barrier grid level member
  let ps := s.participants grid level member
  .next (if ps.isEmpty || b.poisoned || !(ps.all b.arrived.contains) then s
    else
      let s := s.setBarrier { b with phase := b.phase + 1, arrived := [] }
      ps.foldl (fun s tid => match s.thread? tid with
        | none => s
        | some t =>
          match t.barrierWaits grid level member with
          | none => s
          | some (p, ins) =>
            if phaseDone (b.phase + 1) (BitVec.ofNat 32 p) then s.barrierResume tid b.clock ins else s) s)

/-- A retired thread stops being a participant: the barriers of its grid are looked at (R250). -/
def State.lookBarriers (s : State) (grid : Nat) : State :=
  s.pushAll ((s.barriers.filter (fun b => decide (b.grid = grid))).map (fun b => .barrierPhaseComplete b.grid b.level b.member))

/-! ## Semaphores -/

/-- The signals from 1 to 2^32 (R252). -/
def semCount (e : Env) (r : Got) : Option Trap := if r.b.toNat = 0 ∨ 2 ^ 32 < r.b.toNat then some ⟨0x02, e.word⟩ else none

/-- A semaphore word as it stands where it is performed: in the L1 copy of a write holder, at the signal box for a replicated page, else at
its home; a thread of a restartable block finds its block's buffered signals too (R392). -/
def State.semWord (s : State) (core ctx : Nat) (b : Option Block) (page : Xlat) (pa : Nat) : Nat :=
  let w := if page.repl then s.bytesNow (replPa pa (s.signalBox ctx)) 8
    else match s.tenureOf core ctx (lineOf pa), Table.find (s.coreOf core).l1 (lineOf pa) with
      | .write, some l => LineData.read l.data (pa % 128) 8
      | _, _ => s.bytesNow pa 8
  s.blockView b (dieOfCore core) (s.sbLoc ctx page (page.va + (pa - page.pa))) 8 w

/-- Whether a SEMW reads poisoned data at its word: not where its restartable block's buffer gives all of it (R389, R392). -/
def State.semBad (s : State) (ctx : Nat) (b : Option Block) (w : SemWait) : Bool :=
  let pa := if w.page.repl then replPa w.pa (s.signalBox ctx) else w.pa
  let loc := s.sbLoc ctx w.page (w.page.va + (w.pa - w.page.pa))
  (s.poisonIn pa 8).isSome && !(match b with
    | some b => b.restartable && (List.range 8).all (fun i => b.store.any (fun x => x.gives (loc + i)))
    | none => false)

/-- What an attempt of a SEMW comes to: it has to wait for its line, its count is not there, its take is on its way to the signal box or to a
peer, its word is poisoned data, or the word as found. -/
inductive SemTry where
  | blocked
  | short
  | sent
  | poisoned
  | found (w : Nat)
  deriving DecidableEq, Repr

/-- A satisfied SEMW that takes nothing reads its word as an acquire (R252, R304, R317). -/
def State.semRead (s : State) (w : SemWait) (core ctx : Nat) : State :=
  let line := lineOf w.pa
  if w.page.repl then
    let s := s.loadClock core (s.stampAt (dieOfCore core) (lineOf (replPa w.pa (dieOfCore core)))) true
    s.loadClock core (s.stampAt (s.signalBox ctx) (lineOf (replPa w.pa (s.signalBox ctx)))) true
  else if s.tenureOf core ctx line = .write then s
  else (s.loadUncached core ctx line false).1

/-- One attempt of a SEMW, an atomic at its word's home (R27, R252), or at the signal box, where every earlier update of the word has been
applied (R31, R32). -/
def State.semTry (s : State) (w : SemWait) (core ctx : Nat) (b : Option Block) : State × SemTry :=
  if isAperture w.pa then
    if w.take then
      if s.idsBusy core 1 then (s, .blocked)
      else
        let (s, id) := s.takeId core
        (s.sendPeer core w.pa 8 w.n .semTake id (some w.who), .sent)
    else
      let v := (Config.freeWord s.free).toNat
      (s.tick, if semReady v w.n then .found v else .short)
  else if isControl w.pa then
    let v := s.regRead w.pa 8
    if !(semReady v w.n) then (s, .short)
    else (if w.take then s.regWrite w.pa 8 (semTaken v w.n) false else s, .found v)
  else if w.page.repl then
    let v := s.semWord core ctx b w.page w.pa
    if s.replicated.any (fun u => overlaps u.off u.size (w.pa % 2 ^ 35) 8) || s.idsBusy core 1 then (s, .blocked)
    else if s.semBad ctx b w then (s, .poisoned)
    else if !(semReady v w.n) then (s, .short)
    else if w.take then
      let (s, id) := s.takeId core
      (s.sendReplicated core ctx w.pa 8 w.n .semTake (s.coreOf core).clock id (some w.who), .sent)
    else (s.semRead w core ctx, .found v)
  else if w.take && s.idsBusy core 1 then (s, .blocked)
  else
    match s.gate w.who (some core) ctx w.pa 8 true true (decide (w.page.policy = polUncached)) with
    | (s, false) => (s, .blocked)
    | (s, true) =>
      let v := s.semWord core ctx b w.page w.pa
      if s.semBad ctx b w then (s, .poisoned)
      else if !(semReady v w.n) then (s, .short)
      else if w.take then
        (((s.atomicNow (some core) ctx w.page.policy w.pa 8 w.lease (fun v => semTaken v w.n)).1).requested (requestHome w.pa) core v, .found v)
      else (s.semRead w core ctx, .found v)

/-- The word that a SEMW waits on: every copy of a replicated page is one (R32). -/
def semPa (x : Xlat) (va : Nat) : Nat :=
  let pa := x.pa + (va - x.va)
  if x.repl then replPa pa 0 else pa

/-- A SEMW waits behind the earlier ones on its semaphore, in arrival order (R252). -/
def State.semQueue (s : State) (w : SemWait) : State := ({ s with semWaits := s.semWaits ++ [w] } : State).pushOnce (.semwRelease w.pa)

/-- Whether an earlier SEMW waits on a semaphore that is not poisoned. -/
def State.semBehind (s : State) (w : SemWait) (core ctx : Nat) (b : Option Block) : Bool :=
  s.semWaits.any (fun q => decide (q.pa = w.pa)) && !(semPoisoned (s.semWord core ctx b w.page w.pa))

/-- SEMW (R252): satisfied at once, or it waits behind the earlier ones on its semaphore. -/
def execSemw (g : Guard) (pat : Pat) (sc : Scope) (take : Bool) (d : Operand) (a b : Src) (s : State) :
    Host.Outcome State Fault Refusal :=
  overLanesIf (if take then noRestart else noPre) g (some d) (srcA pat .whole a) (srcB pat .whole b) none (fun e l t r s =>
    match t.answer with
    | some (w, _) => s.memDone e l (r.answered.t.put r.d (word w))
    | none =>
      match semCount e r with
      | some tr => s.memTrap e l t tr
      | none =>
        s.access e l t r.a 8 8 Need.atomic (fun xs s => s.atomicChecks e l t r r.a 8 true xs (fun x s =>
          let w : SemWait := ⟨r.a, semPa x (vaOf r.a), x, .thread (e.tid l), r.b.toNat, take, s.leaseOf e.g.grid⟩
          let wait := fun (s : State) =>
            ((s.semQueue w).waitAt e l t (.semw w.pa (.semw g pat sc take d a b))).unqueue w.who
          if s.semBehind w e.core e.ctx (s.blockOfEnv e) then wait s
          else if (s.coreOf e.core).pendingOn (e.tid l) (locAt xs (vaOf r.a)) 8 then s
          else
            match s.semTry w e.core e.ctx (s.blockOfEnv e) with
            | (s, .blocked) => s
            | (s, .short) => wait s
            | (s, .sent) => (s.waitAt e l t (.atomic r.a)).unqueue w.who
            | (s, .poisoned) => s.memTrap e l t (poisonAt r.a (vaOf r.a))
            | (s, .found v) => s.memDone e l (r.t.put r.d (word v))))) s

/-- SEMS (R252): an atomic at the word's home, and a release; buffered in a restartable block (R392). -/
def execSems (g : Guard) (pat : Pat) (sc : Scope) (a b : Src) (s : State) : Host.Outcome State Fault Refusal :=
  overLanesIf (noRoom 1) g none (srcA pat .whole a) (srcB pat .whole b) none (fun e l t r s =>
    match t.answer with
    | some _ => s.memDone e l r.answered.t
    | none =>
      match semCount e r with
      | some tr => s.memTrap e l t tr
      | none =>
        s.access e l t r.a 8 8 Need.atomic (fun xs s => s.atomicChecks e l t r r.a 8 true xs (fun x s =>
          if s.restartable e then
            ((s.buffer e [.sems (e.tid l) r.a (s.sbLoc e.ctx x (vaOf r.a)) r.b.toNat]).pushOnce (.semwRelease (semPa x (vaOf r.a)))).memDone e l r.t
          else if (s.coreOf e.core).pendingOn (e.tid l) (locAt xs (vaOf r.a)) 8 then s
          else
            match s.before e l .rel sc with
            | none => s
            | some s => s.atomicLane e l t r.a 8 x .sems r.b.toNat (fun _ s => s.memDone e l r.t)))) s

/-- The instruction of a thread that still waits on a semaphore. -/
def State.semwOf (s : State) (w : SemWait) (tid : Nat) : Option (Guard × Pat × Scope × Operand × Src × Src) :=
  match s.thread? tid with
  | some t =>
    (match t.status with
      | .wait (.semw p (.semw g pat sc _ d a b)) => if p = w.pa then some (g, pat, sc, d, a, b) else none
      | _ => none)
  | none => none

/-- Release the waiting SEMWs of one word in arrival order, up to the first that cannot be satisfied (R252). -/
def State.semRelease (s : State) (pa : Nat) : Nat → State
  | 0 => s
  | fuel + 1 =>
    match s.semWaits.find? (fun w => decide (w.pa = pa)) with
    | none => s
    | some w =>
      let drop := fun (s : State) => ({ s with semWaits := removeFirst (fun q => decide (q = w)) s.semWaits } : State)
      match w.who with
      | .thread tid =>
        (match s.semwOf w tid, s.group? (tid / 32) with
          | some (_, pat, _, d, a, b), some g =>
            let resume := fun (s : State) (f : Env → Nat → Thread → Got → State → State) =>
              ((drop s).unqueue w.who).laneResume tid (some d) (srcA pat .whole a) (srcB pat .whole b) none f
            (match s.semTry w (coreOfThread tid) g.ctx (s.blockOf g) with
              | (s, .blocked) => s.push (.semwRelease pa)
              | (s, .short) => if isControl pa then s.push (.semwRelease pa) else s
              | (s, .sent) => (resume s (fun e l t r s => s.waitAt e l t (.atomic r.a))).push (.semwRelease pa)
              | (s, .poisoned) => ((drop s).failWait tid (poisonAt w.ptr (vaOf w.ptr))).semRelease pa fuel
              | (s, .found v) => (resume s (fun e l _ r s => s.complete e l (r.t.put r.d (word v)))).semRelease pa fuel)
          | _, _ => (drop s).semRelease pa fuel)
      | .media eng =>
        (match s.mediaWaiting eng with
          | some c =>
            (match s.semTry w c.core c.ctx none with
              | (s, .blocked) => s.push (.semwRelease pa)
              | (s, .short) => if isControl pa then s.push (.semwRelease pa) else s
              | (s, .sent) => ((drop s).unqueue w.who).push (.semwRelease pa)
              | (s, .poisoned) => (((drop s).unqueue w.who).mediaFails eng 6 0x18).semRelease pa fuel
              | (s, .found _) => (((drop s).unqueue w.who).mediaTook eng).semRelease pa fuel)
          | none => (drop s).semRelease pa fuel)
      | _ => (drop s).semRelease pa fuel

/-- SEMW_RELEASE: the waiting SEMWs of a word are looked at after it changed; one in control space or at a peer, which changes unseen, again
and again. -/
def execSemwRelease (pa : Nat) (s : State) : Host.Outcome State Fault Refusal :=
  .next (s.semRelease pa (s.semWaits.length + 1))

/-- Set the poison bit of a semaphore at its home (R419). -/
def semPoison : ReplOp := .atom (.int .u64) .or 0

end Sys2Proof.Machine
end

