-- ==== Sys2Proof/Machine/Matrix.lean ====
section
/-!
DEFINITION. The matrix path (R280 to R299): the operations on it, which a group's threads and its bulk copy sequencer
share, the eight instructions, and the events that end what runs in the background.
-/
namespace Sys2Proof.Machine

/-! ## Bit-plane tensors (R149, R150, R282, R283) -/

/-- Bit p of element e of a plane-major tensor of E elements held as a number. -/
def planeOf (v elems p e : Nat) : Nat := (v / 2 ^ ((7 - p) * elems + e)) % 2

/-- The byte of an element read at S planes: its top S planes, zeros below. -/
def planeByte (v elems planes e : Nat) : Byte :=
  BitVec.ofNat 8 ((List.range planes).foldl (fun acc j => acc + planeOf v elems (7 - j) e * 2 ^ (7 - j)) 0)

/-- A tensor of E elements at S planes as a table of its elements that are not zero. -/
def planeTable (v elems planes : Nat) : Table Byte :=
  (List.range elems).filterMap (fun e =>
    let b := planeByte v elems planes e
    if b = 0 then none else some (e, b))

/-- The value that k planes of a byte stand for: the floor at that precision (R283). -/
def planeTop (b : Byte) (k : Nat) : Int := (b.toInt / 2 ^ (8 - k)) * 2 ^ (8 - k)

def Matrix.activeBank (m : Matrix) : Table Byte := if m.active then m.bank1 else m.bank0
def Matrix.setLoading (m : Matrix) (t : Table Byte) : Matrix := if m.active then { m with bank0 := t } else { m with bank1 := t }

/-- x_A(r, kk) at k planes and x_B(kk, n) (R283). -/
def Matrix.xa (m : Matrix) (k r kk : Nat) : Int := planeTop (Table.getD m.rows (256 * r + kk) 0) k
def Matrix.xb (m : Matrix) (kk n : Nat) : Int := (Table.getD m.activeBank (256 * kk + n) 0).toInt

/-- The exact sum of one element of an MMA (R291). -/
def Matrix.sum (m : Matrix) (tile k r n : Nat) : Int :=
  (List.range 256).foldl (fun acc kk =>
    let a := m.xa k r kk
    if a = 0 then acc else acc + a * m.xb kk n) (m.acc tile r n).toInt

/-- The clamp of R291, and whether it acted. -/
def mmaClamp (v : Int) : Int × Bool :=
  if v > 2 ^ 31 - 1 then (2 ^ 31 - 1, true) else if v < -(2 ^ 31 - 1) then (-(2 ^ 31 - 1), true) else (v, false)

/-- A tile after an MMA, and whether any element saturated (R291). -/
def Matrix.mma (m : Matrix) (tile k : Nat) : Table (BitVec 32) × Bool :=
  let es := (List.range 16384).map (fun i => (i, mmaClamp (m.sum tile k (i / 256) (i % 256))))
  (es.filterMap (fun p => if p.2.1 = 0 then none else some (p.1, BitVec.ofInt 32 p.2.1)), es.any (fun p => p.2.2))

/-! ## Operations on the path -/

/-- On whose behalf the path acts: the group's threads, with whether an operand that they take is poisoned, or a program of the FORK given. -/
structure MatCtx where
  who : Accessor
  core : Nat
  group : Nat
  ctx : Nat
  block : Nat
  lease : Nat
  threads : Option Env
  poisoned : Bool
  fork : Option Nat
  deriving DecidableEq, Repr

/-- Why a matrix instruction does not complete now. -/
inductive MatStop where
  | wait
  | trap (t : Trap)
  | park (addr : Word) (leaf : Bool)
  | full
  deriving DecidableEq, Repr

abbrev MatOut := State × Option MatStop

def State.matrixOf (s : State) (core : Nat) : Matrix := (s.coreOf core).matrix
def State.setMatrix (s : State) (core : Nat) (m : Matrix) : State :=
  let k := s.coreOf core
  s.setCore core { k with matrix := m }

def Matrix.draining (m : Matrix) (tile : Nat) : Bool := m.drains.any (fun j => decide (j.tile = tile))
def Matrix.adding (m : Matrix) (tile : Nat) : Bool := m.mmas.any (fun j => decide (j.tile = tile))

/-- A group register that holds poisoned data is whole again once it is written whole (R389). -/
def State.unmark (s : State) (group mark : Nat) : State :=
  match s.group? group with
  | none => s
  | some g => s.setGroup group { g with poisoned := g.poisoned.filter (fun n => n ≠ mark) }
def State.marked (s : State) (group : Nat) (marks : List Nat) : Bool :=
  match s.group? group with
  | none => false
  | some g => marks.any g.poisoned.contains

/-- Load a checked range as relaxed loads of who the path acts for (R286). -/
def State.matLoads (s : State) (c : MatCtx) (xs : List Xlat) (va n : Nat) : State × Option Nat :=
  match c.threads with
  | some e => s.loadAll e xs va n
  | none => s.loadRange c.who c.core c.ctx c.lease xs va n

/-- The lowest poisoned word of a checked range: a group's threads find their block's buffered bytes there (R389, R392). -/
def State.matPoison (s : State) (c : MatCtx) (xs : List Xlat) (va n : Nat) : Option Nat :=
  match c.threads with
  | some e => s.poisonSeen e xs va n
  | none => s.poisonVa c.core xs va n

/-- The translations under which the path's group passed the check of a range before (R68). -/
def State.matPassed (s : State) (c : MatCtx) (p : Word) : Option (List Xlat) :=
  c.threads.bind (fun e => s.passedBy (e.tid 0) p Need.matrix.kind)

/-- Read n bytes of global memory whose check has passed, through the L1. A poisoned operand traps after every check (R284, R286, R365). -/
def State.matGlobal (s : State) (c : MatCtx) (xs : List Xlat) (p : Word) (n : Nat) : State × Except MatStop Nat :=
  if xs.any (fun x => isAperture x.pa) then (s, .error (.trap ⟨0x0D, p⟩))
  else if c.poisoned then (s, .error (.trap poisonTrap))
  else
    match s.matPoison c xs (vaOf p) n with
    | some va => (s, .error (.trap (poisonAt p va)))
    | none =>
      match (s.fillCaches c.core c.ctx (tagOf p) xs).matLoads c xs (vaOf p) n with
      | (s, none) =>
        (match c.threads with
          | some e => s.holdAt (e.tid 0) p Need.matrix.kind xs
          | none => s, .error .wait)
      | (s, some v) => (s, .ok v)

/-- Read n bytes for MBLD or MARB: from the block's scratchpad once the group's accesses have completed, or from global memory. -/
def State.matRead (s : State) (c : MatCtx) (glob : Bool) (p : Word) (n : Nat) : State × Except MatStop Nat :=
  if glob then
    match s.matPassed c p with
    | some xs => s.matGlobal c xs p n
    | none =>
      match s.check c.core c.ctx p n 128 Need.matrix with
      | .error (.trap k) => (s.reportBad c.core c.ctx p n Need.matrix k, .error (.trap ⟨k, p⟩))
      | .error (.park a leaf) => (s, .error (.park a leaf))
      | .ok xs => if s.heldBack c.core c.ctx xs then (s, .error .wait) else s.matGlobal c xs p n
  else
    match s.block? c.block with
    | none => (s, .error .wait)
    | some b0 =>
      match spadCheck b0 p.toNat n 16 with
      | some k => (s, .error (.trap ⟨k, p⟩))
      | none =>
        let s := s.spadDrain c.core
        let counting := match s.group? c.group with
          | some g => decide (g.spadCount ≠ 0)
          | none => false
        match s.block? c.block with
        | none => (s, .error .wait)
        | some b =>
          if c.poisoned then (s, .error (.trap poisonTrap))
          else if counting then (s, .error .wait)
          else match b.poisonIn p.toNat n with
          | some w => (s, .error (.trap ⟨0x18, word (8 * w)⟩))
          | none => (s, .ok (Memory.read b.spad p.toNat n))

/-- MBLD (R288): the range is read now, and the loading bank changes at MBLD_COMPLETE. -/
def State.matLoad (s : State) (c : MatCtx) (glob : Bool) (p : Word) (planes : Nat) : MatOut :=
  if !(s.matrixOf c.core).loads.isEmpty then (s, some .wait)
  else
    match s.matRead c glob p (planes * 8192) with
    | (s, .error x) => (s, some x)
    | (s, .ok v) =>
      let m := s.matrixOf c.core
      ((s.setMatrix c.core { m with loads := m.loads ++ [⟨planeTable v 65536 planes⟩] }).push (.mbldComplete c.core), none)

/-- MBSWP (R289). -/
def State.matSwap (s : State) (c : MatCtx) : MatOut :=
  let m := s.matrixOf c.core
  if !m.loads.isEmpty || !m.mmas.isEmpty then (s, some .wait) else (s.setMatrix c.core { m with active := !m.active }, none)

/-- MARB (R290): k is a register value, checked here. -/
def State.matRows (s : State) (c : MatCtx) (glob : Bool) (p : Word) (k m : Nat) (tval : Word) : MatOut :=
  if k < 2 ∨ 8 < k then (s, some (.trap ⟨0x02, tval⟩))
  else if !(s.matrixOf c.core).mmas.isEmpty then (s, some .wait)
  else
    match s.matRead c glob p (32 * k * m) with
    | (s, .error x) => (s, some x)
    | (s, .ok v) =>
      let mt := s.matrixOf c.core
      ((s.setMatrix c.core { mt with rows := planeTable v (256 * m) k, kload := k }).unmark c.group markRows, none)

/-- MMA (R291): it streams in the background, and the tile changes at MMA_COMPLETE. -/
def State.matMma (s : State) (c : MatCtx) (tile k : Nat) : MatOut :=
  let m := s.matrixOf c.core
  if m.draining tile then (s, some .wait)
  else if s.marked c.group [markRows, markBank (if m.active then 1 else 0), markA tile] then (s, some (.trap poisonTrap))
  else ((s.setMatrix c.core { m with mmas := m.mmas ++ [⟨tile, k⟩] }).push (.mmaComplete c.core), none)

/-- MZERO (R292). -/
def State.matZero (s : State) (c : MatCtx) (tile : Nat) (first : Word) (count : Nat) (tval : Word) : MatOut :=
  let m := s.matrixOf c.core
  if 64 < first.toNat + count then (s, some (.trap ⟨0x02, tval⟩))
  else if c.poisoned then (s, some (.trap poisonTrap))
  else if m.draining tile || m.adding tile then (s, some .wait)
  else
    let keep := (m.tile tile).filter (fun p => !(decide (first.toNat ≤ p.1 / 256) && decide (p.1 / 256 < first.toNat + count)))
    let s := s.setMatrix c.core (m.setTile tile keep)
    (if count = 64 then s.unmark c.group (markA tile) else s, none)

/-- MDRAIN (R293 to R296): one command of the bulk copy engine; the tile drains from here. -/
def State.matDrain (s : State) (c : MatCtx) (tile : Nat) (rec_ : Word) (rows cols : List Byte) (add clr : Bool) :
    State × Except MatStop (BitVec 32) :=
  let m := s.matrixOf c.core
  if vaOf rec_ % 64 ≠ 0 then (s, .error (.trap ⟨0x0E, rec_⟩))
  else if c.poisoned then (s, .error (.trap poisonTrap))
  else if m.draining tile then (s, .error .wait)
  else
    match s.accept c.core .bulk c.ctx (c.group * 32) c.block (.mdrain tile rec_ rows cols add clr) c.fork with
    | none => (s, .error .full)
    | some (s, n) =>
      let m := s.matrixOf c.core
      (s.setMatrix c.core { m with drains := m.drains ++ [⟨tile, clr, false⟩] }, .ok n)

/-- Whether a group is its core's matrix holder (R280). -/
def State.holds (s : State) (group : Nat) : Bool := decide ((s.matrixOf (group / 32)).holder = some group)
def State.granted (s : State) (group tile : Nat) : Bool := s.holds group && decide (tile < (s.matrixOf (group / 32)).granted)

/-! ## The instructions (R284 to R287) -/

/-- The check of an instruction that names no tile, and of one that names one (R280, R364). -/
def needHolder (e : Env) (s : State) : Option Trap := if s.holds e.group then none else some ⟨0x1A, 0⟩
def needTile (tile : Nat) (e : Env) (s : State) : Option Trap := if s.granted e.group tile then none else some ⟨0x1A, word tile⟩

def Env.mat (e : Env) (s : State) (poisoned : Bool) : MatCtx :=
  ⟨.thread (e.tid 0), e.core, e.group, e.ctx, e.g.blockKey, s.leaseOf e.g.grid, some e, poisoned, none⟩

/-- What a matrix instruction of a group comes to: it completes in every thread, traps in every thread, parks them as one, or
stays at its word. -/
def State.matEnd (s : State) (i : Issue) (e : Env) (x : Option MatStop) (fin : State → State) : State :=
  match x with
  | none => (fin s).unqueue (.thread (e.tid 0))
  | some .wait => s
  | some (.trap t) => s.collTrap i e t
  | some (.park a leaf) => (s.parkGroup e.group 7 a leaf).unqueue (.thread (e.tid 0))
  | some .full => s.collWaits e.group (.engine .bulk)

def execMbld (g : Guard) (pat : LanePat) (glob : Bool) (a : Src) (planes : Fin 9) (s : State) : Host.Outcome State Fault Refusal :=
  coll0 needHolder g none (srcP pat .whole a) none none (fun i e gs r s =>
    let (s, x) := s.matLoad (e.mat s r.poisoned) glob r.a planes.val
    s.matEnd i e x (fun s => s.collDone e.group gs 0)) s

def execMbswp (g : Guard) (s : State) : Host.Outcome State Fault Refusal :=
  coll0 needHolder g none none none none (fun i e gs _ s =>
    let (s, x) := s.matSwap (e.mat s false)
    s.matEnd i e x (fun s => s.collDone e.group gs 0)) s

def execMarb (g : Guard) (pat : Pat) (glob : Bool) (a b : Src) (rows1 : Fin 64) (s : State) : Host.Outcome State Fault Refusal :=
  coll0 needHolder g none (srcA pat .whole a) (srcB pat .whole b) none (fun i e gs r s =>
    let (s, x) := s.matRows (e.mat s r.poisoned) glob r.a r.b.toNat (rows1.val + 1) e.word
    s.matEnd i e x (fun s => s.collDone e.group gs 0)) s

def execMma (g : Guard) (tile : Fin 2) (planes : Fin 9) (s : State) : Host.Outcome State Fault Refusal :=
  coll0 (needTile tile.val) g none none none none (fun i e gs _ s =>
    let (s, x) := s.matMma (e.mat s false) tile.val planes.val
    s.matEnd i e x (fun s => s.collDone e.group gs 0)) s

def execMzero (g : Guard) (pat : LanePat) (tile : Fin 2) (a : Src) (count1 : Fin 64) (s : State) :
    Host.Outcome State Fault Refusal :=
  coll0 (needTile tile.val) g none (srcP pat .whole a) none none (fun i e gs r s =>
    let (s, x) := s.matZero (e.mat s r.poisoned) tile.val r.a (count1.val + 1) e.word
    s.matEnd i e x (fun s => s.collDone e.group gs 0)) s

/-- The word of register j of a row in a lane (R292). -/
def Matrix.rowWord (m : Matrix) (tile row l j : Nat) : Word :=
  pack 32 [(m.acc tile row (64 * j + l)).toNat, (m.acc tile row (64 * j + 32 + l)).toNat]

/-- A thread with a row in vn to v(n + 3). -/
def Matrix.rowInto (m : Matrix) (tile row l n : Nat) (t : Thread) : Thread :=
  (List.range 4).foldl (fun (t : Thread) j => t.setV (n + j) (m.rowWord tile row l j)) t

def execMrd (g : Guard) (pat : LanePat) (n : Fin 128) (tile : Fin 2) (b : Src) (s : State) : Host.Outcome State Fault Refusal :=
  coll0 (needTile tile.val) g none none (srcP pat .whole b) none (fun i e gs r s =>
    let m := s.matrixOf e.core
    if 64 ≤ r.b.toNat then s.collTrap i e ⟨0x02, e.word⟩
    else if r.poisoned then s.collTrap i e poisonTrap
    else if m.adding tile.val then s
    else if s.marked e.group [markA tile.val] then s.collTrap i e poisonTrap
    else
      match s.group? e.group with
      | none => s
      | some gr => s.setGroup e.group { gr with threads := gs.map (fun p =>
          (p.1, (m.rowInto tile.val r.b.toNat p.1 n.val p.2.2.t).advance)) }) s

/-- A row from four registers of every lane: element 32 (2j + i) + l is sub-element i of register j of lane l (R292). -/
def rowElem (word_ : Nat → Nat → Word) (c : Nat) : BitVec 32 := BitVec.ofNat 32 (sub (word_ (c % 32) (c / 64)) 32 (c / 32 % 2))

/-- A tile with a row replaced. -/
def Matrix.setRow (m : Matrix) (tile row : Nat) (f : Nat → BitVec 32) : Matrix :=
  m.setTile tile ((List.range 256).foldl (fun t c => Table.put t (256 * row + c) (f c) 0) (m.tile tile))

/-- Whether a register is poisoned in the source lane of any thread (R389). -/
def Env.anyLane (e : Env) (pat : LanePat) (n : Nat) : Bool := e.g.threads.any (fun p => e.g.vPoisoned p.1 p.2 (pat.source p.1) n)

def execMwr (g : Guard) (pat : Pat) (tile : Fin 2) (n : Fin 128) (lastA : Bool) (b : Src) (s : State) :
    Host.Outcome State Fault Refusal :=
  coll0 (needTile tile.val) g none (srcA pat .whole ⟨.reg n, lastA⟩) (srcB pat .whole b) none (fun i e gs r s =>
    let m := s.matrixOf e.core
    let word_ := fun l j => match Table.find e.g.threads l with
      | some t => readV e l t pat.forA .whole (n.val + j)
      | none => 0
    let bad := r.poisoned || (List.range 4).any (fun j => e.anyLane pat.forA (n.val + j))
    if 64 ≤ r.b.toNat then s.collTrap i e ⟨0x02, e.word⟩
    else if bad then s.collTrap i e poisonTrap
    else if m.adding tile.val || m.draining tile.val then s
    else (s.setMatrix e.core (m.setRow tile.val r.b.toNat (rowElem word_))).collDone e.group gs 0) s

/-- The 64 row scales and the 256 column scales (R152, R295). -/
def rowScales (w : Nat → Word) (sel : Nat) : List Byte :=
  (List.range 64).map (fun r => BitVec.ofNat 8 (byteOf (w (r % 32)) (sel + r / 32)))
def colScales (w : Nat → Word) : List Byte :=
  (List.range 256).map (fun c => BitVec.ofNat 8 (byteOf (w (c % 32)) (c / 32)))

def execMdrain (g : Guard) (pat : Pat) (d : Operand) (tile : Fin 2) (a : Src) (n : Fin 128) (lastB : Bool)
    (m : Fin 128) (lastC : Bool) (sel : Fin 7) (add clr : Bool) (s : State) : Host.Outcome State Fault Refusal :=
  coll0 (needTile tile.val) g (some d) (srcA pat .whole a) (srcB pat .whole ⟨.reg n, lastB⟩) (srcN .whole ⟨.reg m, lastC⟩)
    (fun i e gs r s =>
      let c := e.mat s (r.poisoned || e.anyLane pat.forB n.val || e.anyLane .ident m.val)
      match s.matDrain c tile.val r.a (rowScales (gotB gs) sel.val) (colScales (gotC gs)) add clr with
      | (s, .error x) => s.matEnd i e (some x) id
      | (s, .ok k) => s.collDone e.group gs (word k.toNat)) s

/-! ## What ends in the background -/

/-- MBLD_COMPLETE: the loading bank is written: the planes read, and zeros below (R288). -/
def execMbldComplete (core : Nat) (s : State) : Host.Outcome State Fault Refusal :=
  let m := s.matrixOf core
  .next (match m.loads with
    | [] => s
    | l :: rest =>
      let s := s.setMatrix core ({ m with loads := rest }.setLoading l.data)
      match m.holder with
      | some g => s.unmark g (markBank (if m.active then 0 else 1))
      | none => s)

/-- MSAT is set by an MMA, before every word that issued after it (R195, R291). -/
def Group.saturate (g : Group) : Group := { g with gstat := g.gstat ||| gstatMSAT, gseen := g.gseen ||| gstatMSAT }

/-- MMA_COMPLETE: the oldest MMA's sums are clamped and applied, and MSAT is set (R291, R195). -/
def execMmaComplete (core : Nat) (s : State) : Host.Outcome State Fault Refusal :=
  let m := s.matrixOf core
  .next (match m.mmas with
    | [] => s
    | j :: rest =>
      let (t, sat) := m.mma j.tile j.planes
      let s := s.setMatrix core ({ m with mmas := rest }.setTile j.tile t)
      match m.holder with
      | none => s
      | some g =>
        match s.group? g with
        | none => s
        | some gr => if sat then s.setGroup g gr.saturate else s)

/-- DRAINING_END: the engine has read a tile, which under .clr is zero from here on (R296). -/
def execDrainingEnd (core : Nat) (s : State) : Host.Outcome State Fault Refusal :=
  let m := s.matrixOf core
  let ended : List DrainJob := m.drains.filter (fun (j : DrainJob) => j.read)
  let s := match m.holder with
    | some g => (ended.filter (fun (j : DrainJob) => j.clr)).foldl (fun (s : State) (j : DrainJob) => s.unmark g (markA j.tile)) s
    | none => s
  .next (s.setMatrix core ({ (ended.foldl (fun (m : Matrix) (j : DrainJob) => if j.clr then m.setTile j.tile [] else m) m) with
    drains := m.drains.filter (fun (j : DrainJob) => !j.read) }))

end Sys2Proof.Machine
end

