-- ==== Sys2Proof/Machine/Sequencer.lean ====
section
/-!
DEFINITION. Engine programs: FORK, RDV and the words of a sequencer (R103, R104, R249, R297, R298, R347).
-/
namespace Sys2Proof.Machine

/-! ## The program of an engine -/

def engines : List Eng := [.bulk, .gather, .coll]

def State.seqOf (s : State) (core : Nat) (e : Eng) : Option Seq := (s.engineOf core e).seq
/-- A program that waits for a sequencer (R385, log entry 30) takes it. -/
def State.nextSeq (s : State) (core : Nat) (e : Eng) : State :=
  match s.seqWaits.find? (fun w => decide (w.1 = core) && decide (w.2.1 = e)) with
  | none => s
  | some w =>
    let s : State := { s with seqWaits := removeFirst (fun x => decide (x = w)) s.seqWaits }
    (s.putSeq core e (some w.2.2)).push (.sequencerStep core e)

/-- The pin of a program's current region is released; a program that waits for the same sequencer keeps its own (R347). -/
def State.seqLeave (s : State) (core : Nat) (e : Eng) (q : Seq) : State :=
  match q.region with
  | none => s
  | some r => s.unpin q.ctx r (.sequencer core e)

/-- A program is none that its FORK still runs. -/
def Fork.ended (f : Fork) (num : Nat) (e : Eng) : Fork :=
  if f.num = num then { f with running := f.running.filter (fun n => n ≠ engNumber e) } else f

/-- A FORK no longer runs a program, and RDV may go on (R104). -/
def State.forkEnded (s : State) (group fork : Nat) (e : Eng) : State :=
  match s.group? group with
  | none => s
  | some g => (s.setGroup group { g with fork := g.fork.map (fun f => f.ended fork e) }).wakeRdv group

/-- A program ends: its pin is released (R347), its status reaches its group, and RDV may go on (R104). -/
def State.endSeq (s : State) (core : Nat) (e : Eng) (status : Nat) : State :=
  match s.seqOf core e with
  | none => s
  | some q =>
    ((((s.putSeq core e none).seqLeave core e q).noteFork q.group q.fork e status).nextSeq core e).forkEnded q.group q.fork e

/-! ## Operands of a program (R103) -/

/-- The operand codes that a program may hold: e0 to e15, 0x98 and the inline constants. -/
def seqSrc : Operand → Bool
  | .reg n => decide (n.val < 16)
  | .zero => true
  | .const _ => true
  | _ => false

/-- A source of a program: e0 to e15, 0x98 or an inline constant. -/
def Seq.read (q : Seq) (f : Form) : Operand → Option Word
  | .reg n => if n.val < 16 then some (Table.getD q.e n.val 0) else none
  | .zero => some 0
  | .const c => some (constWord f ((c.val : Int) - 16))
  | _ => none

/-- A destination of a program: e0 to e15 or 0x98. -/
def Seq.canWrite : Operand → Bool
  | .reg n => decide (n.val < 16)
  | .zero => true
  | _ => false
def Seq.write (q : Seq) (d : Operand) (w : Word) : Seq :=
  match d with
  | .reg n => { q with e := Table.set q.e n.val w }
  | _ => q

/-- p0 to p3 (R103); p0 reads 1. -/
def Seq.pred (q : Seq) (n : Fin 8) : Bool := decide (n = 0) || q.p.getLsbD n.val
def Seq.selected (q : Seq) (g : Guard) : Bool := xor (q.pred g.p) g.neg
def Seq.setPred (q : Seq) (n : Fin 8) (b : Bool) : Seq :=
  if n = 0 then q else { q with p := if b then q.p ||| (1#8 <<< n.val) else q.p &&& ~~~(1#8 <<< n.val) }
def predOk (n : Fin 8) : Bool := decide (n.val < 4)
def guardOk (g : Guard) : Bool := predOk g.p
/-- A program has no lanes to take a source from. -/
def patOk (p : Pat) : Bool := decide (p.pat = .ident)
def typeOk (t : IType) : Bool := decide (t = .i64) || decide (t = .u64)

def Seq.next (q : Seq) : Seq := { q with pc := nextPc q.pc }

/-- What a word of a program comes to. -/
inductive SeqOut where
  | go (q : Seq)
  | again
  | waits
  | hold (w : SeqWait)
  | stop (status : Nat)
  | park (kind : Nat) (addr : Word) (leaf : Bool)
  deriving DecidableEq, Repr

abbrev SeqStep := State × SeqOut

/-- A word that computes. -/
def seqPure (s : State) (q : Seq) (d : Operand) (w : Option Word) : SeqStep :=
  match w with
  | some w => (s, .go (q.write d w).next)
  | none => (s, .stop 1)

def seqBin (s : State) (q : Seq) (o : Bin IType) (f : Word → Word → Word) : SeqStep :=
  seqPure s q o.d (match q.read (.int o.ty) o.a.op, q.read (.int o.ty) o.b.op with
    | some a, some b => some (f a b)
    | _, _ => none)

/-- Issue a command of a program to its engine (R97, R103). -/
def State.seqAccept (s : State) (core : Nat) (e : Eng) (q : Seq) (op : CmdOp) : Option (State × BitVec 32) :=
  match s.group? q.group with
  | none => none
  | some g => s.accept core e q.ctx (q.group * 32) g.blockKey op (some q.fork)

/-- A word that issues a command to the sequencer's own engine (R103). -/
def seqCommand (s : State) (q : Seq) (d : Operand) (x : Option (State × BitVec 32)) : SeqStep :=
  match x with
  | none => (s, .hold .slot)
  | some (s, n) => (s, .go (q.write d (word n.toNat)).next)

def recordOk (p : Word) (align : Nat) : Bool := decide (vaOf p % align = 0)

/-- The commands of the engines in a program. -/
def State.seqCpy (s : State) (core : Nat) (q : Seq) (o : Ter Unit) (ds ss : Bool) : SeqStep :=
  match q.read .whole o.a.op, q.read .whole o.b.op, q.read .whole o.c.op with
  | some a, some b, some c => seqCommand s q o.d (s.seqAccept core .bulk q (.cpy a b c ds ss))
  | _, _, _ => (s, .stop 1)

def State.seqCpyt (s : State) (core : Nat) (q : Seq) (o : Bin Unit) : SeqStep :=
  match q.read .whole o.a.op, q.read .whole o.b.op with
  | some a, some b =>
    if recordOk a 64 ∧ recordOk b 64 then
      seqCommand s q o.d (s.seqAccept core .bulk q (.cpyt a b))
    else (s, .stop 1)
  | _, _ => (s, .stop 1)

def State.seqGath (s : State) (core : Nat) (q : Seq) (o : Ter Unit) (is : Bool) : SeqStep :=
  match q.read .whole o.a.op, q.read .whole o.b.op, q.read .whole o.c.op with
  | some a, some b, some c =>
    if recordOk a 64 ∧ recordOk b 64 then
      seqCommand s q o.d (s.seqAccept core .gather q (.gath a b c is))
    else (s, .stop 1)
  | _, _, _ => (s, .stop 1)

def State.seqColl (s : State) (core : Nat) (q : Seq) (d : Operand) (a : Src) (lvl : Nat) : SeqStep :=
  match q.read .whole a.op, s.group? q.group with
  | some w, some g =>
    if recordOk w 8 then seqCommand s q d (s.acceptColl core q.ctx (q.group * 32) g w lvl (some q.fork))
    else (s, .stop 1)
  | _, _ => (s, .stop 1)

/-- EDCOPY in a program: a pointer that fails its check ends it with the status of R100. -/
def State.seqEdcopy (s : State) (core : Nat) (q : Seq) (d : Operand) (a : Src) : SeqStep :=
  let restartable : Bool := match s.group? q.group with
    | some g => (match s.block? g.blockKey with | some b => b.restartable | none => false)
    | none => false
  match q.read .whole a.op with
  | none => (s, .stop 1)
  | some p =>
    if restartable then (s, .stop 1)
    else
      match s.check core q.ctx p 1 1 Need.publish with
      | .error (.trap c) =>
        if s.uncreated core q.ctx (vaOf p) then (s, .stop 5) else (s.reportBad core q.ctx p 1 Need.publish c, .stop (causeStatus c))
      | .error (.park x leaf) => (s, .park Need.engWrite.kind x leaf)
      | .ok [] => (s, .stop 1)
      | .ok (x :: _) =>
        if !(leafE x.leaf) ∨ (s.desc? q.ctx (leafBuf x.leaf)).isNone then (s, .stop 5)
        else seqCommand s q d (s.seqAccept core .bulk q (.edcopy (leafBuf x.leaf)))

/-! ## Scratchpad words of a program -/

def State.seqBlock (s : State) (q : Seq) : Option (Nat × Block) :=
  match s.group? q.group with
  | none => none
  | some g => (s.block? g.blockKey).map (fun b => (g.blockKey, b))

/-- LDS with .wait.take or .wait.peek into an e register (R103): it enters its bank's queue, and a wait holds only this sequencer. -/
def State.seqLds (s : State) (core : Nat) (e : Eng) (q : Seq) (ins : Instr) (fn : LdsFn) (a : Src) (off : BitVec 8) : SeqStep :=
  match q.read .whole a.op, s.seqBlock q with
  | some w, some (k, b) =>
    let at_ := w.toNat + off.toNat
    match spadCheck b at_ 8 8 with
    | some c => (s, .stop (causeStatus c))
    | none => ((s.putSeq core e (some { q with waiting := .bit })).bankEnqueue core (.sequencer e) at_
        (.read ⟨.sequencer e, k, at_, decide (fn = .take), ins⟩), .waits)
  | _, _ => (s, .stop 1)

/-- A word whose accesses have gone to the banks: the next word waits while the sequencer holds one back (R90). -/
def State.seqHeld (s : State) (core : Nat) (e : Eng) (q : Seq) : SeqStep :=
  if (s.coreOf core).holding (.sequencer e) then (s.putSeq core e (some { q.next with waiting := .bank }), .waits) else (s, .go q.next)

/-- The second register of a 16-byte store. -/
def Seq.high (q : Seq) : Operand → Word
  | .reg n => Table.getD q.e (n.val + 1) 0
  | _ => 0

/-- STS.fill (R103). -/
def State.seqSts (s : State) (core : Nat) (e : Eng) (q : Seq) (ty : IType) (x16 : Bool) (a b : Src) (off : BitVec 8) : SeqStep :=
  match q.read .whole a.op, q.read (.int ty) b.op, s.seqBlock q with
  | some w, some v, some (k, bl) =>
    let size := if x16 then 16 else ty.width / 8
    let at_ := w.toNat + off.toNat
    match spadCheck bl at_ size size with
    | some c => (s, .stop (causeStatus c))
    | none =>
      let val := if x16 then v.toNat + (q.high b.op).toNat * 2 ^ 64 else v.toNat % 2 ^ ty.width
      (s.bankEnqueue core (.sequencer e) at_ (.write none k at_ size val true)).seqHeld core e q
  | _, _, _ => (s, .stop 1)

/-- FEOP (R103). -/
def State.seqFeop (s : State) (core : Nat) (e : Eng) (q : Seq) (set : Bool) (a b : Src) : SeqStep :=
  match q.read .whole a.op, q.read .whole b.op, s.seqBlock q with
  | some x, some n, some (k, bl) =>
    match feopCheck bl x.toNat n.toNat with
    | some c => (s, .stop (causeStatus c))
    | none =>
      ((granules x.toNat n.toNat).foldl (fun s gr => s.bankEnqueue core (.sequencer e) (16 * gr) (.setBit none k gr set)) s).seqHeld core e q
  | _, _, _ => (s, .stop 1)

/-! ## Matrix words of a program (R297) -/

def State.seqMat (s : State) (core : Nat) (q : Seq) : MatCtx :=
  let k := match s.group? q.group with
    | some g => g.blockKey
    | none => 0
  ⟨.engine core .bulk, core, q.group, q.ctx, k, s.leaseOf (k / 2 ^ 24), none, false, some q.fork⟩

/-- A trap condition ends the program with status 1, poisoned data with status 6; a recoverable fault stops it. -/
def seqMatEnd (q : Seq) (x : MatOut) : SeqStep :=
  match x with
  | (s, none) => (s, .go q.next)
  | (s, some .wait) => (s, .again)
  | (s, some .full) => (s, .hold .slot)
  | (s, some (.trap t)) => (s, .stop (if t.cause = 0x18 then 6 else 1))
  | (s, some (.park a leaf)) => (s, .park 7 a leaf)

/-- The lane registers that MDRAIN's scales name, from all 32 lanes of the holder (R297). DESIGN CHOICE (log entry 64): R134 gives zero for a parked
or exited lane to a reading thread only; a sequencer's MDRAIN reads such a lane's register as zero too. -/
def Group.scale (g : Group) (n l : Nat) : Word :=
  match Table.find g.threads l with
  | some t => if t.readable then t.vreg n else 0
  | none => 0

def Group.scaleBad (g : Group) (n : Nat) : Bool := g.threads.any (fun p => p.2.readable && p.2.poisoned.contains n)

def State.seqMdrain (s : State) (core : Nat) (q : Seq) (d : Operand) (tile : Nat) (a : Src) (n m : Nat) (sel : Nat)
    (add clr : Bool) : SeqStep :=
  match q.read .whole a.op, s.group? q.group with
  | some w, some g =>
    if !(s.granted q.group tile) then (s, .stop 1)
    else
      let c := { s.seqMat core q with poisoned := g.scaleBad n || g.scaleBad m }
      match s.matDrain c tile w (rowScales (g.scale n) sel) (colScales (g.scale m)) add clr with
      | (s, .error x) => seqMatEnd q (s, some x)
      | (s, .ok k) => (s, .go (q.write d (word k.toNat)).next)
  | _, _ => (s, .stop 1)

/-- A matrix word with its holder or tile check (R297). -/
def State.seqMatrix (s : State) (core : Nat) (q : Seq) (ok : Bool) (f : MatCtx → MatOut) : SeqStep :=
  if ok then seqMatEnd q (f (s.seqMat core q)) else (s, .stop 1)

/-! ## One word -/

/-- The predicate field of a word that a program of an engine may hold; `none` for any other word, operand code or type (R103, R297). -/
def seqForm (e : Eng) (ins : Instr) : Option Guard :=
  let bulk := decide (e = .bulk)
  let keep := fun (g : Guard) (ok : Bool) => if ok && guardOk g then some g else none
  let bin := fun (o : Bin IType) => keep o.g (typeOk o.ty && patOk o.pat && Seq.canWrite o.d && seqSrc o.a.op && seqSrc o.b.op)
  match ins with
  | .cpy o _ _ => keep o.g (bulk && patOk o.pat && Seq.canWrite o.d && seqSrc o.a.op && seqSrc o.b.op && seqSrc o.c.op)
  | .cpyt o => keep o.g (bulk && patOk o.pat && Seq.canWrite o.d && seqSrc o.a.op && seqSrc o.b.op)
  | .gath o _ _ =>
    keep o.g (decide (e = .gather) && patOk o.pat && Seq.canWrite o.d && seqSrc o.a.op && seqSrc o.b.op && seqSrc o.c.op)
  | .coll g pat d a _ => keep g (decide (e = .coll) && decide (pat = .ident) && Seq.canWrite d && seqSrc a.op)
  | .edcopy g pat d a => keep g (bulk && decide (pat = .ident) && Seq.canWrite d && seqSrc a.op)
  | .mbld g pat _ a _ => keep g (bulk && decide (pat = .ident) && seqSrc a.op)
  | .mbswp g => keep g bulk
  | .marb g pat _ a b _ => keep g (bulk && patOk pat && seqSrc a.op && seqSrc b.op)
  | .mma g _ _ => keep g bulk
  | .mzero g pat _ a _ => keep g (bulk && decide (pat = .ident) && seqSrc a.op)
  | .mdrain g pat d _ a n _ m _ _ _ _ =>
    keep g (bulk && patOk pat && Seq.canWrite d && seqSrc a.op && decide (n.val < 16) && decide (m.val < 16))
  | .add o _ => bin o
  | .sub o _ => bin o
  | .and o => bin o
  | .or o => bin o
  | .mov o => keep o.g (typeOk o.ty && patOk o.pat && Seq.canWrite o.d && seqSrc o.a.op)
  | .cmp g pat ty pd a b _ _ => keep g (typeOk ty && patOk pat && predOk pd && seqSrc a.op && seqSrc b.op)
  | .movi g d _ _ => keep g (Seq.canWrite d)
  | .addi o _ => keep o.g (Seq.canWrite o.d && seqSrc o.a)
  | .cmpi g pd a _ _ _ => keep g (predOk pd && seqSrc a)
  | .lds g pat ty x16 fn d a _ =>
    keep g (decide (fn ≠ .plain) && !x16 && decide (ty.width = 64) && decide (pat = .ident) && decide (d ≠ .zero) && Seq.canWrite d &&
      seqSrc a.op)
  | .sts g pat _ x16 fill a b _ =>
    keep g (fill && patOk pat && seqSrc a.op && seqSrc b.op && (!x16 || (match b.op with | .reg n => decide (n.val < 15) | _ => false)))
  | .feop g pat _ a b => keep g (patOk pat && seqSrc a.op && seqSrc b.op)
  | .bra g _ _ => keep g true
  | .exit g => keep g true
  | _ => none

/-- The effect of a word of a program whose form is allowed and whose predicate selects it (R103). -/
def State.seqWord (s : State) (core : Nat) (e : Eng) (q : Seq) (ins : Instr) : SeqStep :=
  match ins with
  | .cpy o ds ss => s.seqCpy core q o ds ss
  | .cpyt o => s.seqCpyt core q o
  | .gath o _ is => s.seqGath core q o is
  | .coll _ _ d a lvl => s.seqColl core q d a lvl.val
  | .edcopy _ _ d a => s.seqEdcopy core q d a
  | .mbld _ _ glob a planes =>
    (match q.read .whole a.op with
      | some w => s.seqMatrix core q (s.holds q.group) (fun c => s.matLoad c glob w planes.val)
      | none => (s, .stop 1))
  | .mbswp _ => s.seqMatrix core q (s.holds q.group) (fun c => s.matSwap c)
  | .marb _ _ glob a b rows1 =>
    (match q.read .whole a.op, q.read .whole b.op with
      | some w, some k => s.seqMatrix core q (s.holds q.group) (fun c => s.matRows c glob w k.toNat (rows1.val + 1) 0)
      | _, _ => (s, .stop 1))
  | .mma _ tile planes => s.seqMatrix core q (s.granted q.group tile.val) (fun c => s.matMma c tile.val planes.val)
  | .mzero _ _ tile a count1 =>
    (match q.read .whole a.op with
      | some w => s.seqMatrix core q (s.granted q.group tile.val) (fun c => s.matZero c tile.val w (count1.val + 1) 0)
      | none => (s, .stop 1))
  | .mdrain _ _ d tile a n _ m _ sel add clr => s.seqMdrain core q d tile.val a n.val m.val sel.val add clr
  | .add o sat => seqBin s q o (addW o.ty sat)
  | .sub o sat => seqBin s q o (subW o.ty sat)
  | .and o => seqBin s q o (fun a b => a &&& b)
  | .or o => seqBin s q o (fun a b => a ||| b)
  | .mov o => seqPure s q o.d (q.read (.int o.ty) o.a.op)
  | .cmp _ _ ty pd a b cond any =>
    (match q.read (.int ty) a.op, q.read (.int ty) b.op with
      | some x, some y => (s, .go (q.setPred pd (cmpHolds ty cond any x y)).next)
      | _, _ => (s, .stop 1))
  | .movi _ d z imm => seqPure s q d (some (if z then zext32 imm else sext32 imm))
  | .addi o sat => seqPure s q o.d ((q.read .whole o.a).map (fun a => addW .i64 sat a (sext32 o.imm)))
  | .cmpi _ pd a cond uns imm =>
    (match q.read .whole a with
      | some x => (s, .go (q.setPred pd (cmpiHolds cond uns x imm)).next)
      | none => (s, .stop 1))
  | .lds _ _ _ _ fn _ a off => s.seqLds core e q ins fn a off
  | .sts _ _ ty x16 _ a b off => s.seqSts core e q ty x16 a b off
  | .feop _ _ set a b => s.seqFeop core e q set a b
  | .bra _ _ off => (s, .go { q with pc := relTarget q.pc off })
  | .exit _ => (s, .stop 0)
  | _ => (s, .stop 1)

/-- Carry out what a word comes to. -/
def State.seqEnd (s : State) (core : Nat) (e : Eng) (q : Seq) (x : SeqOut) : State :=
  match x with
  | .go q => (s.putSeq core e (some { q with waiting := .none })).push (.sequencerStep core e)
  | .again => s.push (.sequencerStep core e)
  | .waits => s
  | .hold w => s.putSeq core e (some { q with waiting := w })
  | .stop n => s.endSeq core e n
  | .park kind a leaf => (s.putSeq core e (some { q with waiting := .fault })).engFault core e q.ctx (q.group * 32) kind a leaf none

/-- A program whose pc lies outside its current region leaves it before its word is read (R344, R347). -/
def State.seqRegion (s : State) (core : Nat) (e : Eng) (q : Seq) : State × Seq :=
  if q.region.isSome && (s.regionAt core q.ctx q.region q.pc).isNone then
    let q' := { q with region := none }
    ((s.seqLeave core e q).putSeq core e (some q'), q')
  else (s, q)

/-- A program enters the code region that its fetch came to, if any: it pins the edition (R103, R344, R347). -/
def State.seqEnter (s : State) (core : Nat) (e : Eng) (q : Seq) (enter : Option (Nat × Desc)) : State × Seq :=
  match enter with
  | none => (s, q)
  | some (buf, d) =>
    let q := { q with region := some ⟨buf, d.cur, d.num⟩ }
    ((s.pin q.ctx buf d.cur (.sequencer core e)).putSeq core e (some q), q)

/-- Whether a sequencer's program goes on with its next word: it waits for nothing, and its context runs (R378). -/
def State.seqRuns (s : State) (q : Seq) : Bool :=
  (match s.context? q.ctx with
    | some c => decide (c.phase = .running)
    | none => false) &&
  (decide (q.waiting = .none) || decide (q.waiting = .slot))

/-- One word of an engine program, fetched: it is checked against R103, and executed where its predicate selects it. -/
def State.seqExecute (s : State) (core : Nat) (e : Eng) (q : Seq) (w : Word) : State :=
  let top := match s.group? q.group with
    | some g => (match s.grid? g.grid with | some gr => gr.top | none => 7)
    | none => 7
  match decodeWord top w with
  | .error _ => s.seqEnd core e q (.stop 1)
  | .ok ins =>
    match seqForm e ins with
    | none => s.seqEnd core e q (.stop 1)
    | some g =>
      if q.selected g then
        let (s, x) := s.seqWord core e q ins
        s.seqEnd core e q x
      else s.seqEnd core e q (.go q.next)

/-- SEQUENCER_STEP: one word of an engine program, fetched under R63 (R103, R347). A pointer that fails its check ends the program with the
status of R100 (R249). -/
def execSequencerStep (core : Nat) (e : Eng) (s : State) : Host.Outcome State Fault Refusal :=
  .next (match s.seqOf core e with
    | none => s
    | some q =>
      match q.waiting with
      | .ending n => s.seqEnd core e q (.stop n)
      | _ =>
        if !(s.seqRuns q) then s
        else
          let (s, q) := s.seqRegion core e q
          match s.fetchWord (.engine core e) core q.ctx q.region q.pc with
          | (s, .trap t) => s.seqEnd core e q (.stop (if t.cause = 0x18 then 6 else causeStatus t.cause))
          | (s, .park a leaf) => s.seqEnd core e q (.park 3 a leaf)
          | (s, .await_ buf) => s.seqEnd core e q (.hold (.edition buf))
          | (s, .blocked) => s.push (.sequencerStep core e)
          | (s, .got w enter) =>
            let (s, q) := s.seqEnter core e q enter
            (s.unqueue (.engine core e)).seqExecute core e q w)

/-! ## FORK and RDV (R103, R104, R249) -/

/-- The programs a FORK starts: those with a pointer that is not 0. -/
def forkStarts (a b c : Word) : List (Eng × Word) :=
  [(Eng.bulk, a), (Eng.gather, b), (Eng.coll, c)].filter (fun p => p.2 ≠ 0)

/-- e0 to e15 from v0 to v15 of a thread. -/
def seqRegs (t : Thread) : Table Word := (List.range 16).map (fun i => (i, t.vreg i))

/-- FORK (R103, R104, R249): it waits while a sequencer that it needs, or a program of the group's earlier FORK, still runs. -/
def execFork (g : Guard) (pat : Pat) (a b c : Src) (s : State) : Host.Outcome State Fault Refusal :=
  coll0 noPre g none (srcA pat .whole a) (srcB pat .whole b) (srcN .whole c) (fun i e gs r s =>
    let starts := forkStarts r.a r.b r.c
    let busy := match e.g.fork with
      | some f => !f.running.isEmpty
      | none => false
    match Table.find e.g.threads 0 with
    | none => s
    | some t =>
      if r.poisoned || (!starts.isEmpty && (List.range 16).any t.poisoned.contains) then s.collTrap i e poisonTrap
      else if busy || starts.any (fun p => (s.seqOf e.core p.1).isSome) then s
      else
        let s := s.collDone e.group gs 0
        let s := starts.foldl (fun s p =>
          (s.putSeq e.core p.1 (some { pc := p.2, ctx := e.ctx, group := e.group, fork := e.g.forks, e := seqRegs t, p := 0,
                                       region := none, waiting := .none })).push (.sequencerStep e.core p.1)) s
        match s.group? e.group with
        | none => s
        | some gr => s.setGroup e.group
            { gr with forks := gr.forks + 1, fork := some ⟨e.g.forks, starts.map (fun p => engNumber p.1), []⟩ }) s

/-- Whether a command that programs of a group's FORK issued has not completed. -/
def State.forkPending (s : State) (group fork : Nat) : Bool :=
  s.cores.any (fun p => engines.any (fun e => (p.2.engine e).queue.any (fun c =>
    decide (c.fork = some fork) && decide (c.thread / 32 = group))))

/-- The first failed status in engine order (R104). -/
def Fork.status (f : Fork) : Nat :=
  match firstSome [Table.find f.statuses 0, Table.find f.statuses 1, Table.find f.statuses 2] with
  | some n => n
  | none => 0

def execRdv (g : Guard) (d : Operand) (s : State) : Host.Outcome State Fault Refusal :=
  coll0 noPre g (some d) none none none (fun _ e gs _ s =>
    match e.g.fork with
    | none => s.collDone e.group gs 0
    | some f =>
      if !f.running.isEmpty || s.forkPending e.group f.num then s.collWaits e.group .rdv
      else
        let s := s.collDone e.group gs (word f.status)
        match s.group? e.group with
        | none => s
        | some gr => s.setGroup e.group { gr with fork := none }) s

end Sys2Proof.Machine
end

