-- ==== Sys2Proof/Machine/Media.lean ====
section
/-!
DEFINITION. VCMD and ENGQ (R245, R248), and the media engines (R413 to R419). What a codec reconstructs or encodes is
uninterpreted (log entry 8); where its bytes go, what it signals and how a command ends follow the rules.
-/
namespace Sys2Proof.Machine

/-! ## Acceptance and queries -/

/-- The number of an engine as an event carries it. -/
def mediaNum (eng : Nat) : Fin 16 := (BitVec.ofNat 4 eng).toFin

def Media.nextFor (m : Media) (core : Nat) : BitVec 32 := Table.getD m.next core 0

/-- What a media engine knows of a core's command: the status of one of the 64 most recently accepted (R248). -/
def Media.known (m : Media) (core : Nat) (n : BitVec 32) : CmdKnown :=
  if m.queue.any (fun c => decide (c.core = core) && decide (c.num = n)) then .pending
  else match m.done.find? (fun d => decide (d.1 = core) && decide (d.2.num = n)) with
    | some d => if (m.nextFor core - 1 - n).toNat < 64 then .status d.2 else .expired
    | none => if m.wrapped.contains core || decide (n.toNat < (m.nextFor core).toNat) then .expired else .unknown

/-- Accept a media command of a core: 16 of one core may be incomplete (R97). -/
def State.acceptMedia (s : State) (eng core ctx thread block : Nat) (p : Word) : Option (State × BitVec 32) :=
  let m := s.mediaOf eng
  if 16 ≤ (m.queue.filter (fun c => decide (c.core = core))).length then none
  else
    let n := m.nextFor core
    let c : MediaCmd := { num := n, core := core, ctx := ctx, thread := thread, block := block, fetched := [], ptr := p, desc := 0, stream := [], refs := [], outX := [],
                          stateX := [], rowX := [], filtX := [], row := 0, taken := 0, phase := .queued, len := 0 }
    let m' : Media := { m with next := Table.set m.next core (n + 1),
                               wrapped := if n = 0xFFFFFFFF ∧ !(m.wrapped.contains core) then m.wrapped ++ [core] else m.wrapped,
                               queue := m.queue ++ [c] }
    some ((s.setMedia eng m').push (.mediaCommandStart (mediaNum eng)), n)

/-- VCMD (R245). -/
def execVcmd (g : Guard) (pat : LanePat) (d : Operand) (a : Src) (eng : Fin 16) (s : State) :
    Host.Outcome State Fault Refusal :=
  overLanes g (some d) (srcP pat .whole a) none none (fun e l t r s =>
    match recordTrap r.a 64 with
    | some tr => s.trapAt e l t tr
    | none =>
      if r.poisoned then s.trapAt e l t poisonTrap
      else match s.acceptMedia eng.val e.core e.ctx (e.tid l) e.g.blockKey r.a with
        | none => s.waitAt e l t (.media eng.val)
        | some (s, n) => s.complete e l (r.t.put r.d (word n.toNat))) s

/-- The engine of a kind below 3 (R248). -/
def engKind : Nat → Eng
  | 0 => .bulk
  | 1 => .gather
  | _ => .coll

/-- The trap of a wait (R100); the statuses of R418 raise none. -/
def waitTrap (kind : Nat) (n : BitVec 32) (st : CmdStatus) : Option Trap :=
  if kind = 3 ∧ 7 ≤ st.status ∧ st.status ≤ 9 then none else statusTrap kind n st

/-- ENGQ (R248). -/
def execEngq (g : Guard) (pat : LanePat) (wait : Bool) (d : Operand) (a : Src) (kind : Fin 4) (media : Fin 16) (s : State) :
    Host.Outcome State Fault Refusal :=
  overLanes g (some d) (srcP pat .whole a) none none (fun e l t r s =>
    let n := BitVec.ofNat 32 r.a.toNat
    let k := if kind.val = 3 then (s.mediaOf media.val).known e.core n else (s.engineOf e.core (engKind kind.val)).known n
    let done := s.complete e l (r.t.put r.d k.word)
    if r.poisoned then s.trapAt e l t poisonTrap
    else if !wait then done
    else match k with
      | .pending => s.waitAt e l t (if kind.val = 3 then .media media.val else .engine (engKind kind.val))
      | .status st =>
        (match waitTrap kind.val n st with
          | some tr => s.trapAt e l t tr
          | none => done)
      | _ => done) s

/-! ## The command (R414) -/

def MediaCmd.op (c : MediaCmd) : Nat := field c.desc 0 1
def MediaCmd.external (c : MediaCmd) : Bool := decide (field c.desc 2 1 % 2 = 1)
def MediaCmd.interrupts (c : MediaCmd) : Bool := decide (field c.desc 2 1 / 2 % 2 = 1)
def MediaCmd.limit (c : MediaCmd) : Nat := field c.desc 4 4
def MediaCmd.streamPtr (c : MediaCmd) : Word := word (field c.desc 8 8)
def MediaCmd.framePtr (c : MediaCmd) : Word := word (field c.desc 16 8)
def MediaCmd.statePtr (c : MediaCmd) : Word := word (field c.desc 24 8)
def MediaCmd.rowPtr (c : MediaCmd) : Word := word (field c.desc 32 8)
def MediaCmd.filtPtr (c : MediaCmd) : Word := word (field c.desc 40 8)
def MediaCmd.width (c : MediaCmd) : Nat := field c.desc 48 2
def MediaCmd.height (c : MediaCmd) : Nat := field c.desc 50 2

/-- The limits of R414. -/
def mediaOk (v : Nat) : Bool :=
  let w := field v 48 2
  let h := field v 50 2
  decide (field v 0 1 ≤ 1) && decide (field v 1 1 ≤ 1) && decide (field v 2 1 < 4) && decide (field v 3 1 = 0) &&
    decide (1 ≤ field v 4 4) && decide (field v 4 4 ≤ 2 ^ 28) && (decide (field v 2 1 % 2 = 1) || decide (field v 40 8 = 0)) &&
    decide (16 ≤ w) && decide (w ≤ 7680) && decide (16 ≤ h) && decide (h ≤ 4320) && decide (field v 52 12 = 0)

/-- A plane row in bytes: 16-bit samples, padded to 128 (R414). -/
def planeRow (w : Nat) : Nat := (2 * w + 127) / 128 * 128

/-- What a codec works from beside the stream: the operation, the codec, the external flag, the width and the height, and the limit of an
encode. The pointers are none of it (R413; log entry 8). -/
def MediaCmd.params (c : MediaCmd) : Nat :=
  field c.desc 0 2 + (field c.desc 2 1 % 2) * 2 ^ 16 + c.width * 2 ^ 24 + c.height * 2 ^ 40 + (if c.op = 1 then c.limit * 2 ^ 56 else 0)

/-- The height of a row, and the width and height of a chroma plane: of the stream of a decode, and of an encode's parameters alone. -/
def MediaCmd.shape (c : MediaCmd) : Nat × Nat × Nat := Config.mediaShape c.params (if c.op = 0 then c.stream else [])

/-- How many bytes of state the command has. -/
def MediaCmd.stateLen (c : MediaCmd) : Nat := Config.mediaStateSize c.params

/-- The planes of a frame: byte offset, width and height of Y, Cb, Cr (R414). -/
def MediaCmd.planes (c : MediaCmd) : List (Nat × Nat × Nat) :=
  let (_, cw, ch) := c.shape
  let y := planeRow c.width * c.height
  [(0, c.width, c.height), (y, cw, ch), (y + planeRow cw * ch, cw, ch)]
def MediaCmd.frameBytes (c : MediaCmd) : Nat :=
  let (_, cw, ch) := c.shape
  planeRow c.width * c.height + 2 * (planeRow cw * ch)

/-- The rows of a frame (R417). -/
def MediaCmd.rowHeight (c : MediaCmd) : Nat := Nat.max 1 c.shape.1
def MediaCmd.rows (c : MediaCmd) : Nat := (c.height + c.rowHeight - 1) / c.rowHeight

/-- The first line of row k in a plane of h lines. -/
def MediaCmd.lineOfRow (c : MediaCmd) (h k : Nat) : Nat := if c.rows ≤ k then h else Nat.min h (k * c.rowHeight * h / c.height)

/-- How many of the rows before the next one the engine uses as references, where groups filter them; all of them once it is done (R417
step 3). -/
def MediaCmd.needs (c : MediaCmd) : Nat :=
  if !c.external then 0
  else if c.rows ≤ c.row then c.row
  else Nat.min c.row (Config.mediaNeeds c.params c.stream c.row)

/-- Where the filtered rows lie that the engine uses now: in each plane the lines of the rows below `needs`. -/
def MediaCmd.usedSpans (c : MediaCmd) : List (Nat × Nat) :=
  c.planes.map (fun p => (vaOf c.framePtr + p.1, planeRow p.2.1 * c.lineOfRow p.2.2 c.needs))

/-! ## Reaching memory: at the home points of coherence (R417 step 1) -/

/-- The line parts of byte ranges of a checked side: physical address, length, value. -/
def mediaParts (xs : List Xlat) (l : List (Nat × Nat × Nat)) : List (Nat × Nat × Nat) :=
  l.flatMap (fun x => (chunks x.1 x.2.1).filterMap (fun c => (xlatAt xs (x.1 + c.1)).map (fun t =>
    (t.pa + (x.1 + c.1 - t.va), c.2, (x.2.2 / 2 ^ (8 * c.1)) % 2 ^ (8 * c.2)))))

/-- The line parts of a checked source: of a replicated page, the copy of the issuing core's die (R30). -/
def sourceParts (core : Nat) (xs : List Xlat) (va n : Nat) : List (Nat × Nat × Nat) :=
  (chunks va n).filterMap (fun c => (xlatAt xs (va + c.1)).map (fun t => (t.loadPa core (va + c.1), c.2, 0)))

/-- Whether every part can be reached now; what those that cannot wait for is set going. An answer of the host serves every part of its sector,
and is used up once all can be reached (R33). -/
def State.partsGate (s : State) (who : Accessor) (ctx : Nat) (store : Bool) : List (Nat × Nat × Nat) → State × Bool
  | [] => (s, true)
  | (pa, n, _) :: rest =>
    if isControl pa then s.partsGate who ctx store rest
    else match s.gate who none ctx pa n store (!store) true with
      | (t, b) =>
        match ({ t with hostReads := s.hostReads } : State).partsGate who ctx store rest with
        | (u, c) => ({ u with hostReads := if b && c then u.hostReads.filter t.hostReads.contains else s.hostReads }, b && c)

/-- Write parts, each at its home. -/
def State.putParts (s : State) : List (Nat × Nat × Nat) → State
  | [] => s
  | (pa, n, v) :: rest => (s.storeNow none 0 polUncached pa n v 0).putParts rest

/-- Read parts, each at its home, where an owner and the host write back first (R40, R45). -/
def State.readParts (s : State) (l : List (Nat × Nat × Nat)) : State :=
  l.foldl (fun s p => if isControl p.1 then s else s.homeRead (lineOf p.1)) s

/-- n bytes of a checked range as they stand: of a replicated page, those of the issuing core's die (R30). -/
def State.mediaBytes (s : State) (core : Nat) (xs : List Xlat) (va n : Nat) : List Byte :=
  (List.range n).map (fun i => match xlatAt xs (va + i) with
    | some x =>
      let pa := x.loadPa core (va + i)
      BitVec.ofNat 8 (if isControl pa then s.regByte pa else s.bytesNow pa 1)
    | none => 0)

/-- A clock that no timestamp of a store performed so far passes: the latest reference of any die (R88). -/
def State.topRef (s : State) : BitVec 16 :=
  match s.dies.map (fun p => p.2.ref) with
  | [] => 0
  | t :: l => maxAll t l

/-! ## Starting a command (R99, R414 to R416) -/

/-- The issuing core and context that a media engine's checks go through. -/
def State.mediaV (s : State) (c : MediaCmd) : EngV :=
  ⟨c.core, .bulk, c.ctx, c.block, s.leaseOf (c.block / 2 ^ 24), c.num, [], c.fetched.map (fun x => x.1)⟩

/-- Replace the first command of an engine. -/
def State.setMediaHead (s : State) (eng : Nat) (c : MediaCmd) : State :=
  let m := s.mediaOf eng
  s.setMedia eng { m with queue := c :: m.queue.drop 1 }

/-- A range that has passed its check stays with the command, with what it read there: a command that starts again goes on from there
(R99). `f` puts it where the command uses it. -/
def State.mediaKeep (s : State) (eng : Nat) (c : MediaCmd) (xs : List Xlat) (bytes : List Byte) (f : MediaCmd → MediaCmd) :
    State × MediaCmd :=
  let c := f { c with fetched := c.fetched ++ [(xs, bytes)] }
  (s.setMediaHead eng c, c)

/-- A frame or a state pointer that names no public view of an edition buffer breaks R414's limits. A destination outside one has status 5
already (R99; log entry 8). -/
def notPublic (xs : List Xlat) : Bool := xs.any (fun x => x.ed.isNone || leafD x.leaf)

/-- The engine's pins on the public views that it reads, each once (R108). -/
def State.mediaPins (s : State) (eng : Nat) (c : MediaCmd) (xs : List Xlat) : State :=
  let owner : PinOwner := .media eng c.core c.num.toNat
  (publicReads xs).foldl (fun s b => if s.holdsPin c.ctx b.1 b.2 owner then s else s.pin c.ctx b.1 b.2 owner) s

/-- A check that failed: a malformed entry is reported (R74). -/
def State.mediaStop (s : State) (c : MediaCmd) (p : Word) (n : Nat) (need : Need) (x : EngStop) : State × Started :=
  (if x = .status 4 0x0D then s.reportBad c.core c.ctx p n need 0x0D else s, stopped x)

/-- The i-th range of a command, a global source, checked and read. A publication holds it back (R111). -/
def State.mediaFetch (s : State) (eng : Nat) (c : MediaCmd) (i : Nat) (p : Word) (n : Nat) (pub : Bool)
    (f : List Byte → MediaCmd → MediaCmd) (k : State → MediaCmd → State × Started) : State × Started :=
  match c.fetched[i]? with
  | some _ => k s c
  | none =>
    match s.engCheck (s.mediaV c) false (tagOf p) (vaOf p) n Need.engRead with
    | .error x => s.mediaStop c p n Need.engRead x
    | .ok xs =>
      if pub && notPublic xs then (s, .ended 1 0x02)
      else if s.heldBack c.core c.ctx ((s.mediaV c).fresh xs) then (s, .blocked)
      else
        match s.partsGate (.media eng) c.ctx false (sourceParts c.core xs (vaOf p) n) with
        | (s, false) => (s, .blocked)
        | (s, true) =>
          if (s.poisonVa c.core xs (vaOf p) n).isSome then (s, .ended 6 0x18)
          else
            let s := s.readParts (sourceParts c.core xs (vaOf p) n)
            let bytes := s.mediaBytes c.core xs (vaOf p) n
            let (s, c) := (s.mediaPins eng c xs).mediaKeep eng c xs bytes (f bytes)
            k s c

/-- The check of a semaphore that a command names (R251); one at a lost peer ends it with status 4 (R398, R410). -/
def State.semCheck (s : State) (c : MediaCmd) (p : Word) : Except EngStop (List Xlat) :=
  match s.check c.core c.ctx p 8 8 Need.engAdd with
  | .error (.trap x) => .error (.status (causeStatus x) x)
  | .error (.park a leaf) => .error (.park Need.engAdd.kind a leaf)
  | .ok xs =>
    if s.draftPinned c.ctx xs then .error (.status 5 0x11)
    else if xs.any (fun x => isAperture x.pa && s.peersLost.contains (peerOf x.pa)) then .error (.status 4 0x0D)
    else .ok xs

/-- The i-th range of a command, which it will write: a destination, or a semaphore. -/
def State.mediaDest (s : State) (eng : Nat) (c : MediaCmd) (i : Nat) (p : Word) (n : Nat) (sem pub : Bool)
    (f : List Xlat → MediaCmd → MediaCmd) (k : State → MediaCmd → State × Started) : State × Started :=
  match c.fetched[i]? with
  | some _ => k s c
  | none =>
    let need := if sem then Need.engAdd else Need.engWrite
    match (if sem then s.semCheck c p else s.engCheck (s.mediaV c) false (tagOf p) (vaOf p) n need) with
    | .error x => s.mediaStop c p n need x
    | .ok xs =>
      if pub && notPublic xs then (s, .ended 1 0x02)
      else if s.heldBack c.core c.ctx ((s.mediaV c).fresh xs) then (s, .blocked)
      else
        let (s, c) := s.mediaKeep eng c xs [] (f xs)
        k s c

/-- A semaphore that the command does not name takes no check. -/
def State.mediaSem (s : State) (eng : Nat) (c : MediaCmd) (i : Nat) (p : Word) (named : Bool)
    (f : List Xlat → MediaCmd → MediaCmd) (k : State → MediaCmd → State × Started) : State × Started :=
  if named then s.mediaDest eng c i p 8 true false f k
  else match c.fetched[i]? with
    | some _ => k s c
    | none =>
      let (s, c) := s.mediaKeep eng c [] [] id
      k s c

/-- Whether the command names a row semaphore. -/
def MediaCmd.signals (c : MediaCmd) : Bool := decide (c.rowPtr ≠ 0)

/-- Read and check everything that a command names, in this order: its 64 bytes, its source, its reference frames, its destinations and its
semaphores; then its rows begin. -/
def State.startMedia (s : State) (eng : Nat) (c : MediaCmd) : State × Started :=
  s.mediaFetch eng c 0 c.ptr 64 false (fun b c => { c with desc := if mediaOk (leNat b) then leNat b else 0 }) (fun s c =>
    if !(mediaOk c.desc) then (s, .ended 1 0x02)
    else
      let decodes := decide (c.op = 0)
      let src := if decodes then (c.streamPtr, c.limit) else (c.framePtr, c.frameBytes)
      s.mediaFetch eng c 1 src.1 src.2 (!decodes) (fun b c => { c with stream := b }) (fun s c =>
        s.mediaFetch eng c 2 c.statePtr c.stateLen true (fun b c => { c with refs := b }) (fun s c =>
          let dst := if decodes then (c.framePtr, c.frameBytes) else (c.streamPtr, c.limit)
          s.mediaDest eng c 3 dst.1 dst.2 false decodes (fun xs c => { c with outX := xs }) (fun s c =>
            s.mediaDest eng c 4 c.statePtr c.stateLen false true (fun xs c => { c with stateX := xs }) (fun s c =>
              s.mediaSem eng c 5 c.rowPtr c.signals (fun xs c => { c with rowX := xs }) (fun s c =>
                s.mediaSem eng c 6 c.filtPtr c.external (fun xs c => { c with filtX := xs }) (fun s c =>
                  (s.setMediaHead eng { c with phase := .rows }, .contributed))))))))

/-- End the first command of an engine. -/
def State.endMedia (s : State) (eng : Nat) (c : MediaCmd) (n cause : Nat) : State :=
  (s.setMediaHead eng { c with phase := .done n cause }).push (.mediaCommandComplete (mediaNum eng))

/-- A media command's recoverable fault is written under its thread (R99). -/
def State.mediaFault (s : State) (c : MediaCmd) (kind : Nat) (addr : Word) (leaf : Bool) : State :=
  match s.group? (c.thread / 32) with
  | none => s
  | some g =>
    (s.fault c.ctx (dieOfCore c.core) (faultEntry g c.thread kind addr (if leaf then 6 else 2) c.num.toNat none)).1

/-- MEDIA_COMMAND_START: the first command of the queue is read and checked (R414 to R416). -/
def execMediaCommandStart (eng : Fin 16) (s : State) : Host.Outcome State Fault Refusal :=
  .next (match (s.mediaOf eng.val).queue with
    | [] => s
    | c :: _ =>
      if c.phase ≠ .queued then s
      else
        let now := fun (s : State) => ((s.mediaOf eng.val).queue.head?).getD c
        match s.startMedia eng.val c with
        | (s, .blocked) => s.push (.mediaCommandStart eng)
        | (s, .parked k a leaf) =>
          ((s.setMediaHead eng.val { now s with phase := .faulted }).unqueue (.media eng.val)).mediaFault c k a leaf
        | (s, .ended n cause) => (s.unqueue (.media eng.val)).endMedia eng.val (now s) n cause
        | (s, .contributed) => (s.unqueue (.media eng.val)).push (.mediaRow eng))

/-! ## Rows (R416, R417) -/

/-- The samples of one line of a plane, as its bytes: 10 bits of each 16-bit word (R414). -/
def lineBytes (f : Nat → BitVec 10) (w : Nat) : Nat :=
  (List.range w).foldl (fun acc x => acc + (f x).toNat * 2 ^ (16 * x)) 0

/-- The writes of one row: in each plane the lines that the row covers. `used` is what the engine read of filtered rows. -/
def MediaCmd.rowWrites (c : MediaCmd) (used : List Byte) : List (Nat × Nat × Nat) :=
  let at_ := vaOf c.framePtr
  (List.range 3).flatMap (fun p =>
    let (off, w, h) := c.planes.getD p (0, 0, 0)
    (List.range (c.lineOfRow h (c.row + 1) - c.lineOfRow h c.row)).map (fun i =>
      let y := c.lineOfRow h c.row + i
      (at_ + off + y * planeRow w, 2 * w, lineBytes (Config.mediaSample c.params c.stream c.refs used p y) w)))

/-- The semaphore that a checked range names, and its address. -/
def semPlace (xs : List Xlat) : Option (Nat × Xlat) := xs.head?.map (fun x => (semPa x x.va, x))

/-- An engine's update of a semaphore, an atomic at its home, or at the signal box or a peer, whose answer the engine waits for (R27, R31, R252,
R362, R410). It is a release at package scope: it comes after every store that the engine has performed (R303, R417). -/
def State.mediaAtomic (s : State) (eng : Nat) (c : MediaCmd) (xs : List Xlat) (op : ReplOp) (v : Nat) : State × AtomicStep :=
  match semPlace xs with
  | none => (s, .done 0)
  | some (pa, x) =>
    if x.repl || isAperture pa then
      if s.idsBusy c.core 1 then (s, .wait)
      else
        let (s, id) := s.takeId c.core
        (if x.repl then s.sendReplicated c.core c.ctx pa 8 v op s.topRef id (some (.media eng))
          else s.sendPeer c.core pa 8 v op id (some (.media eng)), .sent)
    else
      let s := if isControl pa then s else s.foldRts (homeOf pa) (lineOf pa) (some s.topRef)
      match s.atomicAny (.media eng) none c.ctx polUncached pa 8 (s.mediaV c).lease (op.new v) with
      | (s, some old) => (s, .done old)
      | (s, none) => (s, .wait)

/-- Why an engine cannot use a semaphore of its command any more: its word is poisoned data (R389), or its peer is lost (R398). -/
def State.semStop (s : State) (xs : List Xlat) : Option (Nat × Nat) :=
  match semPlace xs with
  | none => none
  | some (pa, x) =>
    if isAperture pa && s.peersLost.contains (peerOf pa) then some (4, 0x0D)
    else if !x.repl && (s.poisonIn pa 8).isSome then some (6, 0x18)
    else none

/-- The engine waits for a filtered row where it has to before it goes on, and where it chooses to (R417 step 3). -/
def State.mediaOwes (s : State) (c : MediaCmd) : Bool :=
  c.external && decide (c.taken < c.row) && (decide (c.rows ≤ c.row) || decide (c.taken < c.needs) || Config.mediaWaits s.free)

/-- The whole of an encode: the frame is encoded, and its bytes up to the limit are written from the pointer on (R416). -/
def State.mediaEncode (s : State) (eng : Fin 16) (c : MediaCmd) : State :=
  let out := Config.mediaEncode c.params c.stream c.refs
  let put := out.take c.limit
  let parts := mediaParts c.outX [(vaOf c.streamPtr, put.length, leNat put)] ++
    mediaParts c.stateX [(vaOf c.statePtr, c.stateLen, leNat (Config.mediaState c.params c.stream c.refs []))]
  match s.partsGate (.media eng.val) c.ctx true parts with
  | (s, false) => s.push (.mediaRow eng)
  | (s, true) =>
    let s := (s.putParts parts).unqueue (.media eng.val)
    if c.limit < out.length then s.endMedia eng.val c 9 0
    else s.endMedia eng.val { c with len := out.length } 0 0

/-- The signal of a row that has been written, on the row semaphore (R417 step 2). -/
def State.signalRow (s : State) (eng : Fin 16) (c : MediaCmd) : State :=
  match s.semStop c.rowX with
  | some (n, cause) => (s.unqueue (.media eng.val)).endMedia eng.val c n cause
  | none =>
    match s.mediaAtomic eng.val c c.rowX .sems 1 with
    | (s, .wait) => s.push (.mediaRow eng)
    | (s, .sent) => (s.unqueue (.media eng.val)).setMediaHead eng.val { c with phase := .signalling }
    | (s, .done _) => ((s.unqueue (.media eng.val)).setMediaHead eng.val { c with phase := .signalling }).mediaSignalled eng.val

/-- The filtered rows that the engine uses, read at their homes (R417): `none` while a line has to wait. -/
def State.readUsed (s : State) (eng : Nat) (c : MediaCmd) : State × Option (List Byte) :=
  let parts := c.usedSpans.flatMap (fun p => sourceParts c.core c.outX p.1 p.2)
  match s.partsGate (.media eng) c.ctx false parts with
  | (s, false) => (s, none)
  | (s, true) =>
    let s := s.readParts parts
    (s, some (c.usedSpans.flatMap (fun p => s.mediaBytes c.core c.outX p.1 p.2)))

/-- One row of a decode is written, or, after the last, its state (R415, R417). -/
def State.mediaPut (s : State) (eng : Fin 16) (c : MediaCmd) (used : List Byte) : State :=
  let last := decide (c.rows ≤ c.row)
  let parts := if last then mediaParts c.stateX [(vaOf c.statePtr, c.stateLen, leNat (Config.mediaState c.params c.stream c.refs used))]
    else mediaParts c.outX (c.rowWrites used)
  match s.partsGate (.media eng.val) c.ctx true parts with
  | (s, false) => s.push (.mediaRow eng)
  | (s, true) =>
    let s := (s.putParts parts).unqueue (.media eng.val)
    if last then s.endMedia eng.val c 0 0 else (s.setMediaHead eng.val { c with phase := .signal }).push (.mediaRow eng)

/-- A decode goes on: its stream breaks, or it waits for a filtered row, or it reads those that it uses and writes (R417, R419). -/
def State.mediaDecode (s : State) (eng : Fin 16) (c : MediaCmd) : State :=
  if Config.mediaBroken c.params c.stream c.row then (s.setMediaHead eng.val { c with phase := .broken }).push (.mediaStreamError eng)
  else if s.mediaOwes c then (s.tick.setMediaHead eng.val { c with phase := .filtered }).push (.mediaFilteredWait eng)
  else if c.usedSpans.any (fun p => (s.poisonVa c.core c.outX p.1 p.2).isSome) then (s.unqueue (.media eng.val)).endMedia eng.val c 6 0x18
  else
    match s.tick.readUsed eng.val c with
    | (s, none) => s.push (.mediaRow eng)
    | (s, some used) => s.mediaPut eng c used

/-- MEDIA_ROW: the next row of the running command or its signal, or the end once all rows are done and returned (R416, R417). -/
def execMediaRow (eng : Fin 16) (s : State) : Host.Outcome State Fault Refusal :=
  .next (match (s.mediaOf eng.val).queue with
    | [] => s
    | c :: _ =>
      if c.phase = .signal then s.signalRow eng c
      else if c.phase ≠ .rows then s
      else if c.op = 0 then s.mediaDecode eng c else s.mediaEncode eng c)

/-- MEDIA_FILTERED_WAIT: the engine takes one from the filtered semaphore, or waits for it behind earlier waiters (R252, R417). -/
def execMediaFilteredWait (eng : Fin 16) (s : State) : Host.Outcome State Fault Refusal :=
  .next (match s.mediaWaiting eng.val with
    | none => s
    | some c =>
      match semPlace c.filtX, s.semStop c.filtX with
      | none, _ => s.mediaTook eng.val
      | some _, some (n, cause) => (s.unqueue (.media eng.val)).endMedia eng.val c n cause
      | some (pa, x), none =>
        let w : SemWait := ⟨c.filtPtr, pa, x, .media eng.val, 1, true, (s.mediaV c).lease⟩
        if s.semWaits.contains w then s
        else if s.semBehind w c.core c.ctx none then s.semQueue w
        else
          match s.semTry w c.core c.ctx none with
          | (s, .blocked) => s.push (.mediaFilteredWait eng)
          | (s, .short) => (s.unqueue (.media eng.val)).semQueue w
          | (s, .sent) => s.unqueue (.media eng.val)
          | (s, .poisoned) => (s.unqueue (.media eng.val)).endMedia eng.val c 6 0x18
          | (s, .found _) => (s.unqueue (.media eng.val)).mediaTook eng.val)

/-! ## Ends (R248, R418, R419) -/

/-- Threads that wait at a media engine issue their words again. -/
def State.wakeMedia (s : State) (eng : Nat) : State :=
  { s with groups := s.groups.map (fun (p : Nat × Group) =>
      (p.1, { p.2 with threads := p.2.threads.map (fun (q : Nat × Thread) =>
        if q.2.status = .wait (.media eng) then (q.1, { q.2 with status := .run }) else q) })) }

/-- Keep the status of an ended command among the 64 most recently accepted of its core, and release its pins (R108, R248). -/
def State.recordMedia (s : State) (eng : Nat) (c : MediaCmd) (n cause : Nat) : State :=
  let m := s.mediaOf eng
  let st : CmdStatus := ⟨c.num, n, cause, if n = 0 then c.len else 0⟩
  let next := m.nextFor c.core
  let kept := (m.done ++ [(c.core, st)]).filter (fun d => decide (d.1 ≠ c.core) || decide ((next - 1 - d.2.num).toNat < 64))
  (s.setMedia eng { m with done := kept }).unpinAll c.ctx (.media eng c.core c.num.toNat)

/-- The interrupt of a media engine (R401). -/
def State.mediaInterrupt (s : State) (eng ctx : Nat) : State := s.interrupt (19 + eng) (eng / 2) ctx

def MediaCmd.ended (c : MediaCmd) : Option (Nat × Nat) :=
  match c.phase with
  | .done n cause => some (n, cause)
  | .cancelled => some (4, 0x0D)
  | _ => none

/-- MEDIA_COMMAND_COMPLETE: the first command has ended; its interrupt is raised if it asks for one (R414, R418). -/
def execMediaCommandComplete (eng : Fin 16) (s : State) : Host.Outcome State Fault Refusal :=
  .next (match (s.mediaOf eng.val).queue with
    | [] => s
    | c :: rest =>
      match c.ended with
      | none => s
      | some (n, cause) =>
        let s := s.recordMedia eng.val c n cause
        let s := s.setMedia eng.val { s.mediaOf eng.val with queue := rest }
        let s := if c.interrupts then s.mediaInterrupt eng.val c.ctx else s
        let s := s.wakeMedia eng.val
        if rest.isEmpty then s else s.push (.mediaCommandStart eng))

/-- A media engine waits on no semaphore any more; what waited behind it there is looked at (R252). -/
def State.leaveSems (s : State) (eng : Nat) : State :=
  let mine := s.semWaits.filter (fun w => decide (w.who = .media eng))
  mine.foldl (fun s w => s.pushOnce (.semwRelease w.pa)) { s with semWaits := s.semWaits.filter (fun w => w.who ≠ .media eng) }

/-- A command that stopped on a fault ends with its block, and any one with its context (R391, R426). -/
def State.cancelMedia (s : State) (eng : Nat) (c : MediaCmd) : State :=
  ((s.leaveSems eng).setMediaHead eng { c with phase := .cancelled }).push (.mediaCommandComplete (mediaNum eng))

/-- Step 1 of a reset: the signal of a row that has been written is finished, and the engine waits on no semaphore any more (R419). -/
def State.lastSignal (s : State) (eng : Nat) (c : MediaCmd) : State × AtomicStep :=
  let s := s.leaveSems eng
  if c.phase = .signal ∧ (s.semStop c.rowX).isNone then s.mediaAtomic eng c c.rowX .sems 1 else (s, .done 0)

/-- Where a semaphore that a command names lies: as it was checked, or, where the command has not come so far, as it is mapped now. One that
cannot be reached is left as it is (R419; log entry 39). -/
def State.namedSem (s : State) (c : MediaCmd) (xs : List Xlat) (p : Word) (named : Bool) : List Xlat :=
  if !xs.isEmpty ∨ !named then xs
  else match s.semCheck c p with
    | .ok ys => ys
    | .error _ => []

/-- The two semaphores of a command. -/
def State.semsOf (s : State) (c : MediaCmd) : List (List Xlat) :=
  [s.namedSem c c.rowX c.rowPtr c.signals, s.namedSem c c.filtX c.filtPtr c.external]

/-- Step 2 of a reset: the semaphores of the failing command are poisoned (R419): `none` while one has to wait. -/
def State.poisonSems (s : State) (eng : Nat) (c : MediaCmd) : Option State :=
  (s.semsOf c).foldl (fun s xs => s.bind (fun s => match s.mediaAtomic eng c xs semPoison (2 ^ 63) with
    | (_, .wait) => none
    | (s, _) => some s)) (some s)

/-- Whether the signal box or a peer has still to answer an update of an engine. -/
def State.mediaAwaits (s : State) (eng : Nat) : Bool :=
  s.replicated.any (fun u => decide (u.waiter = some (.media eng))) || s.peerSent.any (fun m => decide (m.waiter = some (.media eng)))

/-- Steps 3 to 5 of a reset: the first command ends with a status, those behind it with status 8 (R419). -/
def State.endAllMedia (s : State) (eng : Nat) (c : MediaCmd) (rest : List MediaCmd) (n cause : Nat) : State :=
  let s := (s.unqueue (.media eng)).recordMedia eng c n cause
  let s := rest.foldl (fun s q => s.recordMedia eng q 8 0) s
  let s := s.setMedia eng { s.mediaOf eng with queue := [] }
  (s.wakeMedia eng).mediaInterrupt eng c.ctx

/-- What a reset waits for is set going: the semaphores' lines (R42, R57). -/
def State.resetGate (s : State) (eng : Nat) (c : MediaCmd) : State :=
  ((s.semsOf c).filterMap semPlace).foldl (fun s p =>
    if p.2.repl || isControl p.1 then s else (s.gate (.media eng) none c.ctx p.1 8 true true true).1) s

/-- The reset of an engine, ending its running command with a status (R419), and whether it is over: it waits for a semaphore's line, for the
answer to a signal, and for that of the poisoning. A command that has its status keeps it. -/
def State.resetMedia (s : State) (eng : Nat) (status : Nat) : State × Bool :=
  match (s.mediaOf eng).queue with
  | [] => (s.mediaInterrupt eng 0, true)
  | c :: rest =>
    match c.ended with
    | some (n, cause) => (s.endAllMedia eng c rest n cause, true)
    | none =>
      if c.phase = .signalling then (s, false)
      else if c.phase = .poisoned then (if s.mediaAwaits eng then (s, false) else (s.endAllMedia eng c rest status 0, true))
      else
        match s.lastSignal eng c with
        | (_, .wait) => (s.resetGate eng c, false)
        | (t, .sent) => (t.setMediaHead eng { c with phase := .signalling }, false)
        | (t, .done _) =>
          match t.poisonSems eng c with
          | none => (s.resetGate eng c, false)
          | some t => if t.mediaAwaits eng then (t.setMediaHead eng { c with phase := .poisoned }, false)
            else (t.endAllMedia eng c rest status 0, true)

/-- MEDIA_STREAM_ERROR: the stream of the running command has broken, and the engine resets (R419). -/
def execMediaStreamError (eng : Fin 16) (s : State) : Host.Outcome State Fault Refusal :=
  .next (match (s.mediaOf eng.val).queue with
    | [] => s
    | c :: _ =>
      if c.phase ≠ .broken ∧ c.phase ≠ .poisoned then s
      else match s.resetMedia eng.val 7 with
        | (s, true) => s
        | (s, false) => s.push (.mediaStreamError eng))

end Sys2Proof.Machine
end

