-- ==== Sys2Proof/Machine/Sidings.lean ====
section
/-!
DEFINITION. Continuation records and sidings (R253, R254, R331 to R333, R315, R435), and LAUNCH (R255, R327, R373).
-/
namespace Sys2Proof.Machine

/-! ## Sidings (R332, R404) -/

/-- Numbers of a context's sidings: a core's, and a die's. -/
def coreSiding (core : Nat) : Nat := core
def dieSiding (die : Nat) : Nat := 320 + die
/-- The key of a siding: each context has its own (R404). -/
def sidingKey (ctx id : Nat) : Nat := ctx * 1024 + id
def sidingRoom (key : Nat) : Nat := if key % 1024 < 320 then 4096 else 65536

def State.sidingOf (s : State) (key : Nat) : List Rec := Table.getD s.sidings key []
def State.sidingFull (s : State) (key : Nat) : Bool := decide (sidingRoom key ≤ (s.sidingOf key).length)
/-- The four words of a record, as its 32 bytes (R331). -/
def Rec.bytes (r : Rec) : Nat := r.code.toNat + r.frame.toNat * 2 ^ 64 + r.join.toNat * 2 ^ 128 + r.flags.toNat * 2 ^ 192

/-- Where a siding's part of its context's area starts (R404). -/
def sidingAt (c : Context) (key : Nat) : Nat :=
  c.area + (if key % 1024 < 320 then 0x1250000 + key % 1024 * 0x20000 else 0x250000 + (key % 1024 - 320) * 0x200000)

/-- The lowest place of a siding that holds no record: the spec gives none (R404; log entry 52). -/
def freePlace (l : List Rec) : Nat :=
  match (List.range (l.length + 1)).find? (fun i => !(l.any (fun r => decide (r.slot = i)))) with
  | some i => i
  | none => 0

/-- A push goes to the newest end, and its record into the context's area (R404). -/
def State.pushRec (s : State) (key : Nat) (r : Rec) : State :=
  let r := { r with slot := freePlace (s.sidingOf key) }
  let s : State := { s with sidings := Table.set s.sidings key (s.sidingOf key ++ [r]) }
  match s.context? (key / 1024) with
  | none => s
  | some c => { s with mem := Memory.write s.mem (sidingAt c key + 32 * r.slot) 32 r.bytes }

/-- The siding that a selector 0 or 1 names for a core, and its scope (R253). -/
def selSiding (e : Env) (die : Bool) : Nat := sidingKey e.ctx (if die then dieSiding (dieOfCore e.core) else coreSiding e.core)
def selScope (die : Bool) : Scope := if die then .die else .core

/-- The level of a record (R331). -/
def recLevel (flags : Word) : Nat := bits flags 2 0

/-- The checks of a record that is pushed (R253, R331), in the order of R365: a bad level or reserved bits, then a misaligned code pointer. -/
def recTrap (e : Env) (top : Nat) (code flags : Word) : Option Trap :=
  if recLevel flags = 1 ∨ top < recLevel flags ∨ bits flags 7 3 ≠ 0 then some ⟨0x02, e.word⟩
  else if code.toNat % 8 ≠ 0 then some ⟨0x0E, code⟩
  else none

/-- The level-and-flags word as SPUSH writes it (R331). -/
def recFlags (grid block : Nat) (flags : Word) : Word :=
  word (bits flags 15 0 + (grid % 2 ^ 32) * 2 ^ 16 + (block % 2 ^ 16) * 2 ^ 48)

def State.topOf (s : State) (g : Group) : Nat :=
  match s.grid? g.grid with
  | some gr => gr.top
  | none => 7

/-- The record that a thread pushes, with its core's clock. -/
def State.makeRec (s : State) (e : Env) (code frame join flags : Word) : Rec :=
  { code := code, frame := frame, join := join, flags := recFlags e.g.grid e.g.block flags, grid := e.g.grid, block := e.g.block,
    clock := (s.coreOf e.core).clock, slot := 0 }

/-- The four words of a record. -/
structure RecWords where
  code : Word
  frame : Word
  join : Word
  flags : Word
  deriving DecidableEq, Repr

def recWords (e : Env) (l : Nat) (t : Thread) (pat : LanePat) (n : Nat) : RecWords :=
  { code := readV e l t pat .whole n, frame := readV e l t pat .whole (n + 1), join := readV e l t pat .whole (n + 2),
    flags := readV e l t pat .whole (n + 3) }

/-- A record enters a siding, as a request of its own (R372). -/
def State.pushNow (s : State) (core key : Nat) (r : Rec) : State := (s.pushRec key r).requested (dieOfCore core) core 0

/-- A record waits for room in its siding. -/
def State.defer (s : State) (d : Deferred) : State := { s with deferred := s.deferred ++ [d] }

/-- SPUSH (R253): the release at the siding's scope, then the push, or the wait for room with the record as collected (R133). A last-read mark
on its range releases the first register alone, as R229 says of STP: R253 says nothing (log entry 15). -/
def execSpush (g : Guard) (pat : LanePat) (n : Fin 128) (last die : Bool) (s : State) : Host.Outcome State Fault Refusal :=
  overLanesIf noRestart g none (srcP pat .whole ⟨.reg n, last⟩) none none (fun e l t r s =>
    let w := recWords e l t pat n.val
    match recTrap e (s.topOf e.g) w.code w.flags with
    | some tr => s.trapAt e l t tr
    | none =>
      if r.poisoned || packedPoison e l t pat n.val 4 then s.trapAt e l t poisonTrap
      else
        match s.before e l .rel (selScope die) with
        | none => s
        | some s =>
          let key := selSiding e die
          let x := s.makeRec e w.code w.frame w.join w.flags
          if s.sidingFull key then (s.defer ⟨key, e.tid l, x, none⟩).waitAt e l t (.siding key (.spush g pat n last die))
          else if s.idsBusy e.core 1 then s
          else (s.pushNow e.core key x).complete e l r.t) s

/-- What waits for room in a siding is looked at: the first record. -/
def State.lookSiding (s : State) (key : Nat) : State :=
  match s.deferred.find? (fun d => decide (d.siding = key)) with
  | none => s
  | some d => s.pushOnce (if d.undo.isSome then .joinDeferredPush key else .spushRoom key)

/-- The thread of a deferred push completes its word, if it still waits: a SPUSH, or a JOIN whose decrement reached zero (R253, R435). -/
def State.deferredResume (s : State) (d : Deferred) : State :=
  match s.thread? d.thread with
  | none => s
  | some t =>
    match t.status with
    | .wait (.siding _ (.spush _ pat n last _)) =>
      s.laneResume d.thread none (srcP pat .whole ⟨.reg n, last⟩) none none (fun e l _ r s => s.complete e l r.t)
    | .wait (.joinPush _ (.join _ pat _ dst a _)) =>
      s.laneResume d.thread (some dst) (srcP pat .whole a) none none (fun e l _ r s => s.complete e l (r.t.put r.d 0))
    | _ => s

/-- The first record that waits on a siding is pushed once there is room, if it is a JOIN's or a SPUSH's as asked. -/
def State.deferredPush (s : State) (siding : Nat) (join : Bool) : State :=
  if s.sidingFull siding then s
  else match s.deferred.find? (fun d => decide (d.siding = siding)) with
    | none => s
    | some d =>
      if d.undo.isSome ≠ join then s
      else if s.idsBusy (coreOfThread d.thread) 1 then s.push (if join then .joinDeferredPush siding else .spushRoom siding)
      else
        let s : State := { s with deferred := removeFirst (fun x => decide (x = d)) s.deferred }
        ((s.pushNow (coreOfThread d.thread) siding d.r).deferredResume d).lookSiding siding

/-- SPUSH_ROOM: a SPUSH that waits on a siding pushes once there is room (R253). -/
def execSpushRoom (siding : Nat) (s : State) : Host.Outcome State Fault Refusal := .next (s.deferredPush siding false)

/-! ## SPOP (R332, R333, R315) -/

/-- A record is eligible for a popping group (R332). -/
def State.eligible (s : State) (g : Group) (r : Rec) : Bool :=
  decide (r.grid = g.grid) &&
    (decide (recLevel r.flags < 2) ||
      (match s.grid? g.grid with
        | some gr => decide (gr.member r.block (recLevel r.flags) = gr.member g.block (recLevel r.flags))
        | none => false))

/-- The oldest record that satisfies a test, and the rest in order; or the newest. -/
def takeOldest (p : Rec → Bool) : List Rec → Option (Rec × List Rec)
  | [] => none
  | r :: l => if p r then some (r, l) else match takeOldest p l with
    | some (x, rest) => some (x, r :: rest)
    | none => none
def takeNewest (p : Rec → Bool) : List Rec → Option (Rec × List Rec)
  | [] => none
  | r :: l => match takeNewest p l with
    | some (x, rest) => some (x, r :: rest)
    | none => if p r then some (r, l) else none

/-- The core sidings that a steal probes, in order (R333). -/
def stealOrder (core : Nat) : List Nat :=
  let die := dieOfCore core
  let c := core % 40
  let q := c / 4
  (([1, 2, 3].map (fun i => c ^^^ i)) ++
    ((List.range 9).map (fun j => j + 1)).flatMap (fun j =>
      (List.range 4).map (fun i => 4 * ((q + j) % 10) + (c + i) % 4))).map (fun v => die * 40 + v)

/-- Where a pop looks: a siding's number, and how. -/
inductive Probe where
  | own
  | die
  | steal (core : Nat)
  deriving DecidableEq, Repr

def probes (core sel : Nat) : List Probe :=
  match sel with
  | 0 => [.own]
  | 1 => [.die]
  | _ => .own :: .die :: (stealOrder core).map .steal

/-- The first eligible record of a search, removed from its siding. -/
def State.pop (s : State) (e : Env) : List Probe → Option (Probe × Rec × Nat × List Rec)
  | [] => none
  | p :: rest =>
    let key := sidingKey e.ctx (match p with
      | .own => coreSiding e.core
      | .die => dieSiding (dieOfCore e.core)
      | .steal c => coreSiding c)
    let got := match p with
      | .own => takeNewest (s.eligible e.g) (s.sidingOf key)
      | _ => takeOldest (s.eligible e.g) (s.sidingOf key)
    match got with
    | some (r, l) => some (p, r, key, l)
    | none => s.pop e rest

/-- SPOP: an acquire at the siding's scope; a steal takes over the victim's clock (R315). -/
def execSpop (g : Guard) (n : Fin 128) (sel : Fin 3) (s : State) : Host.Outcome State Fault Refusal :=
  overLanesIf noRestart g none none none none (fun e l _ r s =>
    let put := fun (t : Thread) (a b c d : Word) => (((t.setV n.val a).setV (n.val + 1) b).setV (n.val + 2) c).setV (n.val + 3) d
    match s.pop e (probes e.core sel.val) with
    | none => s.complete e l (put r.t 0 0 0 0)
    | some (p, x, key, rest) =>
      let s : State := { s with sidings := Table.put s.sidings key rest [] }
      let s := match p with
        | .own => s
        | .die => s.jumpTo e.core x.clock
        | .steal c => s.jumpTo e.core (s.coreOf c).clock
      (s.lookSiding key).complete e l (put r.t x.code x.frame x.join x.flags)) s

/-! ## JOIN (R254, R435) -/

/-- What JOIN writes, from the counter as it was. -/
def joinResult (old : Nat) : Word := if old = 0 then BitVec.allOnes 64 else word (old - 1)

/-- The addition that gives a join block's counter back (R377; log entry 67). -/
def joinUndo (e : Env) (l lease : Nat) (x : Xlat) (va : Nat) : PendAtomic :=
  { id := 0, thread := e.tid l, pa := x.pa + (va - x.va), ty := .int .u64, op := .add, v := 1, lease := lease, ctx := e.ctx,
    policy := x.policy, replicated := x.repl, issuedAt := 0, sent := false, buf := x.ed }

/-- A JOIN after its decrement, which found `old`. Where that reached zero, the record is read, checked and pushed, with a release at the
siding's scope, or waits for room (R254, R331, R435). What has to wait before that stays at its word with the value found. A record that fails
its checks leaves the counter at zero (R331), so also for a probing thread, whose PRB is set though R193 has nothing else change (log entry
64). -/
def State.joinGo (s : State) (e : Env) (l : Nat) (t : Thread) (r : Got) (p : Word) (old : Nat) (die : Bool) (ins : Instr) : State :=
  if old ≠ 1 then s.memDone e l (r.t.put r.d (joinResult old))
  else
    let s := s.setThread (e.tid l) { t with answer := some (old, p) }
    s.access e l t p 40 8 Need.atomic (fun xs s =>
      match s.poisonVa e.core xs (vaOf p + 8) 32 with
      | some va => s.memTrap e l t (poisonAt p va)
      | none =>
        match s.loadOwn e l xs (vaOf p + 8) 32 with
        | (s, none) => s
        | (s, some v) =>
          let w := fun (i : Nat) => word (v / 2 ^ (64 * i))
          match recTrap e (s.topOf e.g) (w 0) (w 3) with
          | some tr => s.memTrap e l t tr
          | none =>
            match s.release e.core (e.tid l) (selScope die) with
            | none => s
            | some s =>
              let key := selSiding e die
              let x := s.makeRec e (w 0) (w 1) (w 2) (w 3)
              if s.sidingFull key then
                let undo := (xlatAt xs (vaOf p)).map (fun x => joinUndo e l (s.leaseOf e.g.grid) x (vaOf p))
                ((s.defer ⟨key, e.tid l, x, undo⟩).waitAt e l t (.joinPush key ins)).unqueue (.thread (e.tid l))
              else if s.idsBusy e.core 1 then s
              else (s.pushNow e.core key x).memDone e l (r.t.put r.d 0))

/-- JOIN (R254). -/
def execJoin (g : Guard) (pat : LanePat) (sc : Scope) (d : Operand) (a : Src) (die : Bool) (s : State) :
    Host.Outcome State Fault Refusal :=
  overLanesIf noRestart g (some d) (srcP pat .whole a) none none (fun e l t r s =>
    let ins : Instr := .join g pat sc d a die
    match t.answer with
    | some (old, p) => s.joinGo e l { t with answer := none } r.answered p old die ins
    | none =>
      s.access e l t r.a 40 8 Need.atomic (fun xs s =>
        if xs.any (fun x => isAperture x.pa) then s.memTrap e l t ⟨0x0D, r.a⟩
        else s.atomicChecks e l t r r.a 8 true xs (fun x s =>
          if (s.coreOf e.core).pendingIn (e.tid l) xs (vaOf r.a) 40 then s
          else
            match s.before e l .ar sc with
            | none => s
            | some s => s.atomicLane e l t r.a 8 x .join 0 (fun old s => s.joinGo e l t r r.a old die ins)))) s

/-- JOIN_DEFERRED_PUSH: the record of a JOIN that found its siding full is pushed once there is room (R435). -/
def execJoinDeferredPush (siding : Nat) (s : State) : Host.Outcome State Fault Refusal := .next (s.deferredPush siding true)

/-! ## LAUNCH (R255, R327, R328) -/

/-- A queue with a free slot (R327). -/
def LaunchQueue.room (q : LaunchQueue) : Bool := decide (q.waiting.length < q.depth)
/-- The ring slot of a packet (R327). -/
def LaunchQueue.slot (q : LaunchQueue) (seq : Nat) : Nat := q.base + 64 * (seq % q.depth)

/-- A packet's bytes with the sequence number and the parent written over what the source held (R328). -/
def packetBytes (src seq parent : Nat) : Nat := spliceBytes (spliceBytes src 16 4 seq) 32 8 parent

/-- A queue of a context, if it is configured (R327). -/
def State.queue? (s : State) (ctx q : Nat) : Option LaunchQueue :=
  match s.context? ctx with
  | none => none
  | some c =>
    match Table.find c.queues q with
    | some lq => if lq.depth = 0 then none else some lq
    | none => none

def State.setQueue (s : State) (ctx q : Nat) (lq : LaunchQueue) : State :=
  match s.context? ctx with
  | none => s
  | some c => s.setContext ctx { c with queues := Table.set c.queues q lq }

/-- The physical parts of a range, one per line. -/
def physParts (pa n v : Nat) : List (Nat × Nat × Nat) :=
  (chunks pa n).map (fun c => (pa + c.1, c.2, (v / 2 ^ (8 * c.1)) % 2 ^ (8 * c.2)))

/-- Enqueue a packet in a queue that has room: it is written to its slot, and the yard learns of it (R255, R327). `none` while
its slot's line has to wait. -/
def State.enqueue (s : State) (who : Accessor) (ctx q : Nat) (lq : LaunchQueue) (packet parent : Nat) : State × Bool :=
  let n := lq.next.toNat
  let parts := physParts (lq.slot n) 64 (packetBytes packet n parent)
  match s.partsGate who ctx true parts with
  | (s, false) => (s, false)
  | (s, true) =>
    let s := s.putParts parts
    (((s.setQueue ctx q { lq with next := lq.next + 1, waiting := lq.waiting ++ [n] }).startTime (.packet ctx q n)).pushOnce
      (.gridStart ctx q), true)

/-- LAUNCH: a release at package scope, then the copy of the packet, or bit 63 where the queue is full. A queue number that is not configured,
one above 63 among them, takes trap 0x0A with the number in tval: R255 names no tval and nothing of a number above 63 (log entry 64). -/
def execLaunch (o : Bin Unit) (s : State) : Host.Outcome State Fault Refusal :=
  overLanesIf noRestart o.g (some o.d) (srcA o.pat .whole o.a) (srcB o.pat .whole o.b) none (fun e l t r s =>
    if vaOf r.b % 64 ≠ 0 then s.memTrap e l t ⟨0x0E, r.b⟩
    else
      match s.queue? e.ctx r.a.toNat with
      | none => s.memTrap e l t ⟨0x0A, r.a⟩
      | some lq =>
        s.access e l t r.b 64 64 Need.load (fun xs s =>
          if xs.any (fun x => isAperture x.pa) then s.memTrap e l t ⟨0x0D, r.b⟩
          else if r.poisoned then s.memTrap e l t poisonTrap
          else
            match s.poisonVa e.core xs (vaOf r.b) 64 with
            | some va => s.memTrap e l t (poisonAt r.b va)
            | none =>
              match s.before e l .rel .pkg with
              | none => s
              | some s =>
                match s.loadOwn e l xs (vaOf r.b) 64 with
                | (s, none) => s
                | (s, some v) =>
                  if !lq.room then s.memDone e l (r.t.put r.d 0x8000000000000000)
                  else if s.idsBusy e.core 1 then s
                  else
                    match s.enqueue (.thread (e.tid l)) e.ctx r.a.toNat lq v e.g.grid with
                    | (s, false) => s
                    | (s, true) => (s.requested hub e.core lq.next.toNat).memDone e l (r.t.put r.d (word lq.next.toNat)))) s

end Sys2Proof.Machine
end

