-- ==== Sys2Proof/Machine/Yard.lean ====
section
/-!
DEFINITION. The yard: launch records (R321 to R326), grid start (R329), placement (R334, R335), admission and reservation
(R322, R336).
-/
namespace Sys2Proof.Machine

/-! ## Launch records and packets (R325, R326, R328) -/

def recDomain (v n : Nat) : Nat := field v (32 + 8 * (n - 2)) 1
def recCount (v n : Nat) : Nat := field v (36 + 8 * (n - 2)) 4
def recTop (v : Nat) : Nat := field v 9 1
/-- The declared levels. -/
def recLevels (v : Nat) : List Nat := (List.range (recTop v - 1)).map (fun i => i + 2)
/-- The blocks of a grid: the product of count_3 to count_T (R323). -/
def recBlocks (v : Nat) : Nat := (recLevels v).foldl (fun p n => if n = 2 then p else p * recCount v n) 1

/-- A level's entry: a domain code, its zero bytes, and its count (R322, R323, R325). -/
def levelOk (v n : Nat) : Bool :=
  if recTop v < n then decide (field v (32 + 8 * (n - 2)) 8 = 0)
  else
    decide (1 ≤ recDomain v n) && decide (recDomain v n ≤ 6) && decide (field v (33 + 8 * (n - 2)) 3 = 0) && decide (1 ≤ recCount v n) &&
      decide (recCount v n ≤ (if n = 2 then 32 else 65535)) &&
      (if n = 2 then decide (recDomain v 2 = 1) else decide (1 < recDomain v n) && decide (recDomain v (n - 1) ≤ recDomain v n))

/-- The limits of R321 to R325. -/
def recordFits (v : Nat) : Bool :=
  decide (field v 8 1 = 1) && decide (2 ≤ recTop v) && decide (recTop v ≤ 7) && decide (1 ≤ field v 10 1) && decide (field v 10 1 ≤ 4) &&
    decide (1 ≤ field v 11 1) && decide (field v 11 1 ≤ 128) && decide (field v 12 4 % 4096 = 0) &&
    decide (field v 12 4 + 131072 * field v 10 1 ≤ 1048576) && decide (field v 17 1 ≤ 2) && decide (field v 18 1 ≤ 7) &&
    decide (field v 19 1 < 2) && (decide (field v 20 1 = 0) || (decide (2 ≤ field v 20 1) && decide (field v 20 1 ≤ recTop v))) &&
    decide (field v 21 11 = 0) && decide (field v 80 176 = 0) && [2, 3, 4, 5, 6, 7].all (levelOk v) && decide (recBlocks v ≤ 2 ^ 24)

/-- G = 0 selects the highest declared level whose domain is die or narrower (R325). -/
def recGang (v : Nat) : Nat :=
  if field v 20 1 ≠ 0 then field v 20 1
  else (recLevels v).foldl (fun g n => if recDomain v n ≤ 3 then n else g) 2

/-- The packet's fields that R328 limits. -/
def packetOk (p : Nat) : Bool :=
  decide (field p 21 3 = 0) && decide (field p 40 24 = 0) && (decide (field p 20 1 ≤ 7) || decide (field p 20 1 = 0xFF)) &&
    decide (field p 8 8 % 8 = 0) && decide (field p 0 8 % 64 = 0)

/-- The grid of a packet and its record (R325, R328). -/
def gridOf (ctx queue seq p v now : Nat) (clock : Option (BitVec 16)) : Grid :=
  { ctx := ctx, queue := queue, seq := seq, entry := word (if field p 8 8 = 0 then field v 0 8 else field p 8 8), top := recTop v,
    l1 := field v 10 1, regs := field v 11 1, scratch := field v 12 4, lease := field v 16 1, tiles := field v 17 1,
    priority := if field p 20 1 = 0xFF then field v 18 1 else field p 20 1, restartable := decide (field v 19 1 = 1),
    gang := recGang v, domains := (recLevels v).map (recDomain v), counts := (recLevels v).map (recCount v),
    completion := word (field p 24 8), parent := field p 32 8, pendingBlocks := List.range (recBlocks v), members := [],
    started := now, since := now, relaunch := [], clock := clock, order := 0 }

/-! ## Cores as the yard sees them (R334) -/

/-- What a core still has for blocks: the L1 of the blocks it hosts, the scratchpad and slots they take, a matrix holder, the
registers taken in each bank pool of a lane of each lane-set, and the block that reserves it. -/
structure Room where
  core : Nat
  ok : Bool
  l1 : Option Nat
  scratch : Nat
  slots : List Nat
  matrix : Bool
  regs : List Nat
  reserved : Option Nat
  deriving DecidableEq, Repr

/-- Registers that a thread takes in each bank pool (R118). -/
def poolRegs (p : Nat) : Nat := (p + 3) / 4

def State.regsOf (s : State) (g : Group) : Nat :=
  match s.grid? g.grid with
  | some gr => poolRegs gr.regs
  | none => 0

def State.room (s : State) (core : Nat) : Room :=
  let blocks := (s.blocks.filter (fun p => decide (p.2.core = core))).map (fun p => p.2)
  let groups := s.groups.filter (fun p => decide (p.1 / 32 = core))
  let k := s.coreOf core
  { core := core, ok := k.inService,
    l1 := blocks.head?.map (fun b => match s.grid? b.grid with | some g => g.l1 | none => k.l1cfg),
    scratch := blocks.foldl (fun n b => n + b.scratch) 0, slots := groups.map (fun p => p.1 % 32), matrix := k.matrix.holder.isSome,
    regs := (List.range 4).map (fun ls =>
      (groups.filter (fun p => decide (p.1 % 32 / 8 = ls))).foldl (fun n p => n + s.regsOf p.2) 0),
    reserved := k.reserved }

def State.rooms (s : State) : List Room := (List.range Config.numCores).map s.room

/-- A core that hosts no block. -/
def Room.emptied (r : Room) : Room :=
  { r with l1 := none, scratch := 0, slots := [], matrix := false, regs := [0, 0, 0, 0], reserved := none }

def Room.free (r : Room) : Nat := if r.ok then 32 - r.slots.length else 0

/-- The lowest free slot whose lane-set has registers for one more group. -/
def Room.slot? (r : Room) (p4 : Nat) : Option Nat :=
  (List.range 32).find? (fun n => !(r.slots.contains n) && decide (r.regs.getD (n / 8) 128 + p4 ≤ 128))

def Room.takeSlot (r : Room) (p4 n : Nat) : Room :=
  { r with slots := n :: r.slots, regs := (List.range 4).map (fun ls => r.regs.getD ls 0 + (if n / 8 = ls then p4 else 0)) }

/-- Slots for a number of groups. -/
def Room.takeSlots (r : Room) (p4 : Nat) : Nat → Option (Room × List Nat)
  | 0 => some (r, [])
  | k + 1 =>
    match r.slot? p4 with
    | none => none
    | some n =>
      match (r.takeSlot p4 n).takeSlots p4 k with
      | none => none
      | some (r', l) => some (r', n :: l)

/-- Whether a block fits a core, with the core as it is afterwards and the slots of its groups (R334); a core reserved by another
block takes nothing else (R336). -/
def Room.fit (r : Room) (g : Grid) (key : Nat) : Option (Room × List Nat) :=
  let l1Ok : Bool := match r.l1 with
    | some n => decide (n = g.l1)
    | none => true
  let mine : Bool := match r.reserved with
    | some k => decide (k = key)
    | none => true
  if r.ok && mine && l1Ok && decide (r.scratch + g.scratch + 131072 * g.l1 ≤ 1048576) && (decide (g.tiles = 0) || !r.matrix) then
    match r.takeSlots (poolRegs g.regs) (g.lcnt 1) with
    | none => none
    | some (r, l) =>
      some ({ r with l1 := some g.l1, scratch := r.scratch + g.scratch, matrix := r.matrix || decide (g.tiles ≠ 0), reserved := none }, l)
  else none

/-! ## Placement (R322, R334, R335) -/

/-- The instance of a domain that a core lies in (R322). -/
def instOf (domain core : Nat) : Nat :=
  match domain with
  | 1 => core
  | 2 => core / 4
  | 3 => core / 40
  | 4 => core / 80
  | _ => 0

/-- One block's place. -/
structure Place where
  block : Nat
  core : Nat
  slots : List Nat
  deriving DecidableEq, Repr

/-- What placing comes to: the cores afterwards, the members bound to instances, and the places. -/
structure Placed where
  rooms : List Room
  bound : Table Nat
  places : List Place
  deriving DecidableEq, Repr

def memberKey (level member : Nat) : Nat := level * 2 ^ 24 + member
def Grid.domain (g : Grid) (n : Nat) : Nat := g.domains.getD (n - 2) 5

/-- The best of several, by a measure, the first on a tie. -/
def bestBy {α : Type} (f : α → Nat) : List α → Option α
  | [] => none
  | a :: l => match bestBy f l with
    | none => some a
    | some b => if f a < f b then some b else some a

/-- A block on one of the allowed cores: the fitting one with the most free slots, the lowest number on a tie; a block that
has reserved a core goes there (R334, R336). -/
def placeBlock (g : Grid) (grid b : Nat) (allowed : Nat → Bool) (x : Placed) : Option Placed :=
  let key := blockKey grid b
  let own := x.rooms.filter (fun r => decide (r.reserved = some key))
  let cands := ((if own.isEmpty then x.rooms else own).filter (fun r => allowed r.core)).filterMap (fun r =>
    (r.fit g key).map (fun y => (r.free, y)))
  match bestBy (fun (c : Nat × Room × List Nat) => c.1) cands with
  | none => none
  | some (_, r', slots) =>
    some { x with rooms := x.rooms.map (fun r => if r.core = r'.core then r' else r), places := x.places ++ [⟨b, r'.core, slots⟩] }

/-- Free group slots of an instance, over all of its cores. -/
def freeSlots (rooms : List Room) (domain inst : Nat) : Nat :=
  rooms.foldl (fun n r => if instOf domain r.core = inst then n + r.free else n) 0

/-- The instances that a member may take: the one it is bound to, else every one with an allowed core. -/
def instances (g : Grid) (level member : Nat) (allowed : Nat → Bool) (x : Placed) : List Nat :=
  match Table.find x.bound (memberKey level member) with
  | some i => [i]
  | none => ((x.rooms.filter (fun r => allowed r.core)).map (fun r => instOf (g.domain level) r.core)).eraseDups

/-- Put something into one instance of a member's domain: of those that take it, the one with the most free group slots, the
lowest number on a tie (R335). -/
def inInstance (g : Grid) (level member : Nat) (allowed : Nat → Bool) (x : Placed) (inner : (Nat → Bool) → Placed → Option Placed) :
    Option Placed :=
  let dom := g.domain level
  let cands := (instances g level member allowed x).filterMap (fun i =>
    (inner (fun c => allowed c && decide (instOf dom c = i)) { x with bound := Table.set x.bound (memberKey level member) i }).map
      (fun y => (freeSlots x.rooms dom i, y)))
  (bestBy (fun (c : Nat × Placed) => c.1) cands).map (fun c => c.2)

/-- Place things one after another. -/
def placeAll (f : Nat → Placed → Option Placed) : List Nat → Placed → Option Placed
  | [], x => some x
  | m :: rest, x => match f m x with
    | none => none
    | some y => placeAll f rest y

/-- All blocks of a member of level k + 2, in one instance of its domain and of those of the levels within (R335). -/
def placeMember (g : Grid) (grid : Nat) : Nat → Nat → (Nat → Bool) → Placed → Option Placed
  | 0, b, allowed, x => placeBlock g grid b allowed x
  | k + 1, m, allowed, x =>
    inInstance g (k + 3) m allowed x (fun allowed x =>
      placeAll (fun c x => placeMember g grid k c allowed x) ((List.range (g.lcnt (k + 2))).map (fun i => m * g.lcnt (k + 2) + i)) x)

/-- The level whose members the yard admits whole (R335). -/
def Grid.unitLevel (g : Grid) : Nat := if 3 ≤ g.gang then g.gang else 2

/-- The members of the levels above a block that are above a given level: (level, member) pairs. -/
def Grid.above (g : Grid) (level block : Nat) : List (Nat × Nat) :=
  (List.range (g.top - level)).map (fun i => (level + 1 + i, g.memberAt block (level - 1 + i)))

/-- Whether a core lies inside the instances that members are bound to (R322). -/
def Grid.insideBound (g : Grid) (bound : Table Nat) (l : List (Nat × Nat)) (core : Nat) : Bool :=
  l.all (fun m => match Table.find bound (memberKey m.1 m.2) with
    | some i => decide (instOf (g.domain m.1) core = i)
    | none => true)

/-- Members that are not bound take the instance of a core (R322). -/
def Grid.bindAt (g : Grid) (bound : Table Nat) (l : List (Nat × Nat)) (core : Nat) : Table Nat :=
  l.foldl (fun b m => if (Table.find b (memberKey m.1 m.2)).isSome then b
    else Table.set b (memberKey m.1 m.2) (instOf (g.domain m.1) core)) bound

/-- A unit of a grid is placed inside the instances that the members above it are bound to already; those that are not are bound where its
first block goes (R322, R334, R335). -/
def Grid.place (g : Grid) (grid unit : Nat) (rooms : List Room) : Option Placed :=
  let first := (List.range (g.unitLevel - 2)).foldl (fun m i => m * g.lcnt (g.unitLevel - 1 - i)) unit
  let up := g.above g.unitLevel first
  match placeMember g grid (g.unitLevel - 2) unit (g.insideBound g.members up) ⟨rooms, g.members, []⟩ with
  | none => none
  | some x =>
    match x.places with
    | [] => some x
    | p :: _ => some { x with bound := g.bindAt x.bound up p.core }

/-- The status with which a grid that cannot fit ends (R326): some block fits no core in service that is empty, or some member
of a level up to the gang level no empty instance. -/
def State.cannotFit (s : State) (g : Grid) : Bool :=
  let rooms := s.rooms.map Room.emptied
  let one := fun (k : Nat) => (placeMember g 0 k 0 (fun _ => true) ⟨rooms, [], []⟩).isNone
  one 0 || (List.range (g.gang - 2)).any (fun i => one (i + 1))

/-! ## Admission (R113, R114, R280, R318, R336) -/

/-- The threads of a group at its start (R113, R323). -/
def startThreads (pc : Word) (gid0 : Nat) : Table Thread := (List.range 32).map (fun l => (l, Thread.start pc (gid0 + l)))

/-- A block starts on a core (R79, R89, R113, R114, R280, R281). -/
def State.admitBlock (s : State) (tag : Nat) (g : Grid) (p : Place) (contained : Nat) : State :=
  let b : Block := { ctx := g.ctx, grid := tag, index := p.block, core := p.core, scratch := g.scratch, spad := [], full := [],
                     spadPoison := [], store := [], restartable := g.restartable, contained := contained, stopped := none }
  let s := s.setBlock (blockKey tag p.block) b
  let start := fun (i : Nat) => Group.start g.ctx tag p.block i (startThreads g.entry (g.gid0 p.block i))
  let s := ((List.range p.slots.length).zip p.slots).foldl (fun (s : State) x => s.setGroup (p.core * 32 + x.2) (start x.1)) s
  let k := s.coreOf p.core
  let m := if g.tiles = 0 then k.matrix
    else { Matrix.init with holder := p.slots.head?.map (fun n => p.core * 32 + n), granted := g.tiles }
  let s := s.setCore p.core { k with matrix := m, reserved := if k.reserved = some (blockKey tag p.block) then none else k.reserved }
  (s.resizeL1 p.core g.l1).raiseTo p.core g.clock

/-- A grid whose blocks the yard may admit: its context is on the cores and has not failed (R395, R426). -/
def State.runnable (s : State) (ctx : Nat) : Bool :=
  match s.context? ctx with
  | some c => decide (c.phase = .running) && c.failure.isNone
  | none => false

/-- Base and effective priority (R336). -/
def State.effective (s : State) (g : Grid) : Nat := Nat.min 7 (g.priority + (s.fabric - g.since) / 65536)

/-- The units of a grid that wait, in increasing order. -/
def Grid.waitingUnits (g : Grid) : List Nat := (g.pendingBlocks.map (fun b => g.memberAt b (g.unitLevel - 2))).eraseDups

/-- Whether the pool of a context has overflow slots of 32 KiB for n more groups, beside its tables and those of the groups it has on the
cores (R120, R404). -/
def State.poolRoom (s : State) (ctx n : Nat) : Bool :=
  match s.context? ctx with
  | none => false
  | some c =>
    let used := (s.groups.filter (fun p => decide (p.2.ctx = ctx))).length
    c.tables.all (fun t => decide (t.1 + t.2 + 32768 * (used + n) ≤ c.area + c.areaSize))

/-- How many groups are to be placed. -/
def groupsPlaced (l : List Place) : Nat := l.foldl (fun n p => n + p.slots.length) 0

/-- Admit one unit if it fits, its first block is on this die, and the pool has overflow slots for its groups. -/
def State.admitUnit (s : State) (die tag unit : Nat) : Option State :=
  match s.grid? tag with
  | none => none
  | some g =>
    match g.place tag unit s.rooms with
    | none => none
    | some x =>
      match x.places with
      | [] => none
      | p :: _ =>
        if dieOfCore p.core ≠ die ∨ !(s.poolRoom g.ctx (groupsPlaced x.places)) then none
        else
          let s := x.places.foldl (fun s p => (s.admitBlock tag g p 0).observe die 6 (s.fabric - g.started) g.ctx) s
          let gone := x.places.map (fun p => p.block)
          some (s.setGrid tag { g with members := x.bound, since := s.fabric,
                                       pendingBlocks := g.pendingBlocks.filter (fun b => !(gone.contains b)) })

/-- Admit up to a number of units of one priority, passing over those that do not fit (R336). -/
def State.admitSome (s : State) (die : Nat) : List (Nat × Nat) → Nat → State
  | [], _ => s
  | _, 0 => s
  | (tag, unit) :: rest, n + 1 =>
    match s.admitUnit die tag unit with
    | some s => s.admitSome die rest n
    | none => s.admitSome die rest (n + 1)

/-- A waiting grid takes its place in start order. -/
def byStart (w : Nat × Nat × Grid) : List (Nat × Nat × Grid) → List (Nat × Nat × Grid)
  | [] => [w]
  | x :: l => if w.2.2.order < x.2.2.order then w :: x :: l else x :: byStart w l

/-- One round of a die's yard: priorities 7 down to 0, at priority e up to e + 1 units (R336). -/
def State.admitRound (s : State) (die : Nat) : State :=
  let waiting := (s.grids.filter (fun p => s.runnable p.2.ctx)).foldl (fun l p => byStart (s.effective p.2, p.1, p.2) l) []
  [7, 6, 5, 4, 3, 2, 1, 0].foldl (fun s e =>
    let units := (waiting.filter (fun w => decide (w.1 = e))).flatMap (fun w => w.2.2.waitingUnits.map (fun u => (w.2.1, u)))
    s.admitSome die units (e + 1)) s

/-- Every die's yard looks at what waits. -/
def State.lookYards (s : State) : State := (List.range Config.numDies).foldl (fun s d => s.pushOnce (.yardAdmission d)) s

/-- The cores on which R394 lets a block be relaunched. -/
def relaunchAllowed (g : Grid) (r : Relaunch) (core : Nat) : Bool :=
  let quad := g.domains.contains 2
  decide (core ≠ r.core) && (if quad then decide (core / 4 = r.core / 4) else decide (core / 4 ≠ r.core / 4)) &&
    g.insideBound g.members (g.above 2 r.block) core

/-- Since when a block waits for a core, and which it may take: one of a grid, or one that is relaunched (R336, R394). -/
def Grid.waitsFor (g : Grid) (block : Nat) : Option (Nat × (Nat → Bool)) :=
  if g.pendingBlocks.contains block then some (g.started, g.insideBound g.members (g.above 2 block))
  else (g.relaunch.find? (fun r => decide (r.block = block))).map (fun r => (r.since, relaunchAllowed g r))

/-- BLOCK_RESERVATION: a block that has waited 2^20 fabric cycles reserves the core with the most free registers, among those inside the
instances that its members are bound to, unless another block holds that core (R322, R336). -/
def execBlockReservation (grid block : Nat) (s : State) : Host.Outcome State Fault Refusal :=
  .next (match s.grid? grid with
    | none => s
    | some g =>
      let key := blockKey grid block
      match g.waitsFor block with
      | none => s
      | some (since, allowed) =>
      if decide (s.fabric < since + 1048576) || !(s.runnable g.ctx) then s
      else
        let rooms := s.rooms
        if rooms.any (fun r => decide (r.reserved = some key)) then s
        else
          let free := fun (r : Room) => r.regs.foldl (fun n x => n + (128 - x)) 0
          match bestBy free (rooms.filter (fun r => r.ok && allowed r.core)) with
          | none => s
          | some r => if r.reserved.isSome then s else s.setCore r.core { s.coreOf r.core with reserved := some key })

/-! ## The completion word (R330) -/

/-- The core number under which the yard and the firmware check a context's memory: one that caches nothing. -/
def noCore : Nat := Config.numCores

/-- A time that no store performed so far passes, nor the clock of any core: what the end of a grid carries on (R303, R318, R330). -/
def State.fullTime (s : State) : BitVec 16 := s.cores.foldl (fun t c => maxT t c.2.clock) s.topRef

/-- Whether a replicated update that some die has applied, and that a thread may have seen, is still on its way to others (R302). -/
def State.replUnderWay (s : State) : Bool := s.replicated.any (fun u => !u.applied.isEmpty)

/-- Write a grid's completion word, if it has one, as a release at sys scope: after every replicated update that may have been seen, with a
timestamp past every store (R302, R303, R330); through an aperture a peer performs it (R410). `false` while it has to wait. A write that fails is reported by the firmware. -/
def State.complete? (s : State) (ctx : Nat) (p : Word) (status discarded : Nat) : State × Bool :=
  if p = 0 then (s, true)
  else
    let fail := fun (s : State) => ({ s with reports := s.reports ++ [(1, ctx)] } : State)
    match s.check noCore ctx p 8 8 Need.store with
    | .error _ => (fail s, true)
    | .ok xs =>
      match xs.head? with
      | none => (fail s, true)
      | some x =>
        let w := 2 ^ 63 + (discarded % 2 ^ 32) * 2 ^ 8 + status
        if s.draftPinned ctx xs || (isAperture x.pa && s.peersLost.contains (peerOf x.pa)) then (fail s, true)
        else if s.replUnderWay then (s, false)
        else if isAperture x.pa then (s.sendPeer noCore x.pa 8 w .store 0 none, true)
        else if isControl x.pa then (s.regWrite x.pa 8 w false, true)
        else if x.repl then (s.sendReplicated noCore ctx x.pa 8 w .store s.fullTime 0 none, true)
        else
          match s.gate .host none ctx x.pa 8 true false true with
          | (s, false) => (s, false)
          | (s, true) =>
            let line := lineOf x.pa
            let s := s.foldRts (homeOfLine line) line (some s.fullTime)
            ((s.storeNow none ctx polUncached x.pa 8 w 0).unqueue .host, true)

/-! ## Grid start (R326, R329) -/

/-- Queues of every context with packets that wait are looked at. -/
def State.lookQueues (s : State) : State :=
  s.contexts.foldl (fun s c => c.2.queues.foldl (fun s q =>
    if q.2.waiting.isEmpty then s else s.pushOnce (.gridStart c.1 q.1)) s) s

/-- The next tag that no running grid has; tag 0 is never assigned (R329). -/
def nextFree (used : List Nat) : Nat → Nat → Nat
  | 0, t => t
  | fuel + 1, t =>
    if t % 2 ^ 32 = 0 ∨ used.contains (t % 2 ^ 32) then nextFree used fuel (t + 1) else t % 2 ^ 32

/-- The bytes of line parts that can be reached, as their homes have them. -/
def State.partBytes (s : State) (l : List (Nat × Nat × Nat)) : List Byte :=
  l.flatMap (fun p => if isControl p.1 then (List.range p.2.1).map (fun i => BitVec.ofNat 8 (s.regByte (p.1 + i))) else s.byteList p.1 p.2.1)

/-- The yard and the firmware read line parts through their homes, once each can be reached (R40, R45, R57). -/
def State.partsReady (s : State) (ctx : Nat) (l : List (Nat × Nat × Nat)) : State × Bool :=
  match s.partsGate .host ctx false l with
  | (s, false) => (s, false)
  | (s, true) => ((s.readParts l).unqueue .host, true)

/-- A stage of reading after another: the host's answers that served the first serve the next one too, and are used up once both are over. -/
def State.andThen (s : State) (f g : State → State × Bool) : State × Bool :=
  match f s with
  | (t, false) => (t, false)
  | (t, true) =>
    match g { t with hostReads := s.hostReads } with
    | (u, b) => ({ u with hostReads := if b then u.hostReads.filter t.hostReads.contains else s.hostReads }, b)

def State.yardRead (s : State) (ctx : Nat) (l : List (Nat × Nat × Nat)) : State × Option Nat :=
  match s.partsReady ctx l with
  | (s, false) => (s, none)
  | (s, true) => (s, some (leNat (s.partBytes l)))

/-- What a packet's record comes to: it has to wait, it breaks a limit or cannot be read, or its words (R326). -/
inductive RecordRead where
  | wait
  | bad
  | got (v : Nat)
  deriving DecidableEq, Repr

/-- Read the record of a packet, on a replicated page at the frame of its leaf. -/
def State.readRecord (s : State) (ctx p : Nat) : State × RecordRead :=
  let rec_ := word (field p 0 8)
  if !(packetOk p) then (s, .bad)
  else match s.check noCore ctx rec_ 256 64 Need.load with
    | .error (.trap c) => (s.reportBad noCore ctx rec_ 256 Need.load c, .bad)
    | .error (.park _ _) => (s, .bad)
    | .ok xs =>
      if xs.any (fun x => isAperture x.pa) then (s, .bad)
      else
        match s.yardRead ctx (mediaParts xs [(vaOf rec_, 256, 0)]) with
        | (s, none) => (s, .wait)
        | (s, some v) =>
          let entry := if field p 8 8 = 0 then field v 0 8 else field p 8 8
          (s, if recordFits v && decide (entry % 8 = 0) then .got v else .bad)

/-- The first waiting packet of a queue leaves it: its slot is free (R327). -/
def State.dequeue (s : State) (ctx queue : Nat) (lq : LaunchQueue) : State :=
  (s.setQueue ctx queue { lq with waiting := lq.waiting.drop 1 }).pushOnce (.gridStart ctx queue)

/-- A packet's grid has started: what is timed is now the grid, since its packet became visible (R400). -/
def State.launched (s : State) (p g : Timed) : State := { s with timed := s.timed.map (fun x => if x.1 = p then (g, x.2) else x) }

/-- End a packet without starting its grid (R330). -/
def State.refusePacket (s : State) (ctx queue p status : Nat) (lq : LaunchQueue) : State :=
  match s.complete? ctx (word (field p 24 8)) status 0 with
  | (s, false) => s.push (.gridStart ctx queue)
  | (s, true) => (s.endTime (.packet ctx queue (lq.waiting.headD 0))).dequeue ctx queue lq

/-- Whether a context has failed and is not being destroyed. -/
def State.failed (s : State) (ctx : Nat) : Bool :=
  match s.context? ctx with
  | some c => c.failure.isSome && decide (c.phase ≠ .ending)
  | none => false

/-- The place of the next grid in the order of starts (R336). -/
def State.nextOrder (s : State) : Nat := 1 + s.grids.foldl (fun n p => Nat.max n p.2.order) 0

/-- GRID_START: the first packet of a queue starts its grid, ends without one, or waits for its parent or for a free place among
256 grids (R326, R329). A packet of a failed context ends with status 4 (R395). -/
def execGridStart (ctx queue : Nat) (s : State) : Host.Outcome State Fault Refusal :=
  .next (match s.queue? ctx queue with
    | none => s
    | some lq =>
      match lq.waiting with
      | [] => s
      | seq :: _ =>
        if !(s.runnable ctx) && !(s.failed ctx) then s
        else
          match s.yardRead ctx (physParts (lq.slot seq) 64 0) with
          | (s, none) => s.push (.gridStart ctx queue)
          | (s, some p) =>
            let parent := field p 32 8
            if s.failed ctx then s.refusePacket ctx queue p 4 lq
            else if (s.grid? parent).isSome ∨ 256 ≤ s.grids.length then s
            else match s.readRecord ctx p with
              | (s, .wait) => s.push (.gridStart ctx queue)
              | (s, .bad) => s.refusePacket ctx queue p 2 lq
              | (s, .got v) =>
                let g := gridOf ctx queue seq p v s.fabric (if parent = 0 then none else some s.fullTime)
                let g := { g with order := s.nextOrder }
                if s.cannotFit g then s.refusePacket ctx queue p 3 lq
                else
                  let tag := nextFree (s.grids.map (fun q => q.1)) 300 s.nextTag
                  let s : State := { s.setGrid tag g with nextTag := tag + 1 }
                  let s := s.launched (.packet ctx queue seq) (.launch tag ctx)
                  (s.dequeue ctx queue lq).lookYards)

end Sys2Proof.Machine
end

