-- ==== Sys2Proof/Machine/Retire.lean ====
section
/-!
DEFINITION. Retirement and drains (R217, R218), the end of a grid (R330), containment (R390, R391), restartable blocks (R392 to
R394) and failed contexts (R395).
-/
namespace Sys2Proof.Machine

/-! ## What a group still has under way -/

/-- Commands of a thread that have not passed their checks (R217 step 2). Those that a program of its group issues are the program's: R217 does
not say whose they are (log entry 64). -/
def State.unchecked (s : State) (tid : Nat) : Bool :=
  s.cores.any (fun p => engines.any (fun e => (p.2.engine e).queue.any (fun c => decide (c.thread = tid) && c.fork.isNone &&
    (decide (c.phase = .queued) || decide (c.phase = .faulted))))) ||
  s.media.any (fun p => p.2.queue.any (fun c => decide (c.thread = tid) && (decide (c.phase = .queued) || decide (c.phase = .faulted))))

/-- Commands of a thread that have not completed; a program's are the program's (log entry 64). -/
def State.commandsOf (s : State) (tid : Nat) : Bool :=
  s.cores.any (fun p => engines.any (fun e => (p.2.engine e).queue.any (fun c => decide (c.thread = tid) && c.fork.isNone))) ||
  s.media.any (fun p => p.2.queue.any (fun c => decide (c.thread = tid)))

/-- Whether a group has an access not performed, a command not completed, or a program not ended (R217 step 4). -/
def State.drains (s : State) (key : Nat) : Bool :=
  let k := s.coreOf (coreOfGroup key)
  k.pend.any (fun p => decide (p.thread / 32 = key)) || k.pendAtomics.any (fun p => decide (p.thread / 32 = key)) ||
    s.cores.any (fun p => engines.any (fun e => (p.2.engine e).queue.any (fun c => decide (c.thread / 32 = key)) ||
      (match (p.2.engine e).seq with | some q => decide (q.group = key) | none => false))) ||
    s.media.any (fun p => p.2.queue.any (fun c => decide (c.thread / 32 = key))) || s.seqWaits.any (fun w => decide (w.2.2.group = key))

/-! ## Removing a group -/

/-- What still names a group's threads goes with it: waits, queued requests, arrivals; EDQ's pins outlive them. -/
def State.purgeGroup (s : State) (key : Nat) : State :=
  let gone := fun (t : Nat) => decide (t / 32 = key)
  let k := s.coreOf (coreOfGroup key)
  let s := s.setCore (coreOfGroup key)
    { k with waiters := k.waiters.filter (fun w => match w.who with | .thread t => !(gone t) | _ => true) }
  let s := (List.range 32).foldl (fun (s : State) l => s.unqueue (.thread (key * 32 + l))) s
  let old := fun (r : Queued) => match r.req with
    | .tacq g _ => decide (g = key)
    | .regrant g _ => decide (g = key)
    | .access _ => false
  let s := s.dies.foldl (fun (s : State) p =>
    if p.2.tiles.any (fun q => q.2.queue.any old) then
      let s := s.pushAll ((p.2.tiles.filter (fun q => q.2.queue.any old)).map (fun q => .tenureGrant p.1 q.1))
      let d := s.dieOf p.1
      s.setDie p.1 { d with tiles := d.tiles.map (fun (q : Nat × Tile) => (q.1, { q.2 with queue := q.2.queue.filter (fun r => !(old r)) })) }
    else s) s
  let mine := s.semWaits.filter (fun w => match w.who with | .thread t => gone t | _ => false)
  let s := s.pushAll (mine.map (fun w => .semwRelease w.pa))
  { s with
    barriers := s.barriers.map (fun (b : Barrier) => { b with arrived := b.arrived.filter (fun t => !(gone t)) }),
    semWaits := s.semWaits.filter (fun w => match w.who with | .thread t => !(gone t) | _ => true),
    deferred := s.deferred.filter (fun d => !(gone d.thread)),
    replicated := s.replicated.map (fun (u : ReplUpdate) => match u.waiter with
      | some (.thread t) => if gone t then { u with waiter := none } else u
      | _ => u),
    pins := s.pins.map (fun (p : Pin) => match p.owner with
      | .edq (some t) => if gone t then { p with owner := .edq none } else p
      | _ => p) }

/-- Release every hold of a group as by TREL (R217 step 5). -/
def State.releaseHolds (s : State) (key : Nat) : State :=
  match s.group? key with
  | none => s
  | some g => g.holds.foldl (fun s h => (List.range h.count).foldl (fun s _ => (s.dropOneHold key h.die h.index).1) s) s

/-- A group's slot is freed, and with it the matrix path that it held (R217, R280). -/
def State.freeSlot (s : State) (key : Nat) : State :=
  let s := s.purgeGroup key
  let k := s.coreOf (coreOfGroup key)
  let s := s.setCore (coreOfGroup key) { k with matrix := if k.matrix.holder = some key then Matrix.init else k.matrix }
  { s with groups := Table.erase s.groups key }

/-- What names a retired group's threads names them in its drain tracker entry from here on (R217). -/
def State.renameGroup (s : State) (key new : Nat) : State :=
  let ren := fun (t : Nat) => if t / 32 = key then new * 32 + t % 32 else t
  let cmd := fun (c : Cmd) => { c with thread := ren c.thread }
  let seq := fun (q : Seq) => if q.group = key then { q with group := new } else q
  let eng := fun (g : Engine) => { g with queue := g.queue.map cmd, seq := g.seq.map seq }
  let faults := fun (l : List FaultEntry) => l.map (fun (e : FaultEntry) => { e with thread := ren e.thread })
  { s with
    seqWaits := s.seqWaits.map (fun w => (w.1, w.2.1, seq w.2.2)),
    contexts := s.contexts.map (fun (p : Nat × Context) => (p.1, { p.2 with
      faults := p.2.faults.map (fun (q : Nat × FaultQueue) => (q.1, { q.2 with entries := faults q.2.entries, waiting := faults q.2.waiting })) })),
    cores := s.cores.map (fun (p : Nat × Core) => (p.1, { p.2 with
      pend := p.2.pend.map (fun (q : PendStore) => { q with thread := ren q.thread }),
      pendAtomics := p.2.pendAtomics.map (fun (q : PendAtomic) => { q with thread := ren q.thread }),
      bulk := eng p.2.bulk, gather := eng p.2.gather, coll := eng p.2.coll })),
    media := s.media.map (fun (p : Nat × Media) => (p.1, { p.2 with
      queue := p.2.queue.map (fun (c : MediaCmd) => { c with thread := ren c.thread }) })) }

/-- The lowest of a core's 16 drain tracker entries that is free (R217). -/
def State.freeTracker (s : State) (core : Nat) : Option Nat :=
  (List.range 16).find? (fun n => (s.group? (trackKey core n)).isNone)

/-- A retired group leaves its slot for a drain tracker entry, with what it still has under way, its programs and its holds (R217 step 4). The
matrix path goes with the slot, or, while a tile is being drained, once that is read (R280, R296; log entry 75). -/
def State.toTracker (s : State) (core key n : Nat) (g : Group) : State :=
  let m := (s.coreOf core).matrix
  let s := (s.freeSlot key).renameGroup key (trackKey core n)
  let s := if m.holder = some key ∧ !m.drains.isEmpty then s.setCore core { s.coreOf core with matrix := { m with holder := some (trackKey core n) } }
    else s
  ((s.setGroup (trackKey core n) { g with left := some key }).push (.drainComplete core (32 + n))).lookYards

/-- The groups of a block, those that only drain among them. -/
def State.groupsOf (s : State) (bk : Nat) : List Nat := (s.groups.filter (fun p => decide (p.2.blockKey = bk))).map (fun p => p.1)

/-- A block has gone from its core: its room may serve others, and its grid may have ended. -/
def State.blockGone (s : State) (bk grid : Nat) : State :=
  ({ s with blocks := Table.erase s.blocks bk }.lookYards).pushOnce (.gridEnd grid)

/-! ## TAIL and EXIT (R217, R218) -/

/-- One thread retires: its registers, queues and region pin are released. -/
def State.retire (s : State) (e : Env) (l : Nat) (t : Thread) : State :=
  (s.unpinAll e.ctx (.thread (e.tid l))).setThread (e.tid l) { Thread.start t.pc 0 with status := .retired }

/-- After threads of a group have retired: barriers and CONV lose them, and a group with none left drains (R215, R217, R250). -/
def State.afterRetire (s : State) (i : Issue) : State :=
  match s.group? i.group with
  | none => s
  | some g =>
    if !(g.threads.any (fun p => i.lanes.contains p.1 && decide (p.2.status = .retired))) then s
    else
      let s := (s.lookBarriers g.grid).pushOnce (.convRelease i.core i.slot)
      if g.threads.all (fun p => decide (p.2.status = .retired)) then s.pushOnce (.drainComplete i.core i.slot) else s

/-- TAIL: the thread stays at its word while a command of it has not passed its checks. -/
def execTail (g : Guard) (s : State) : Host.Outcome State Fault Refusal :=
  issued s (fun i => (s.foldLanes i g (fun e l t s => if s.unchecked (e.tid l) then s else s.retire e l t)).afterRetire i)

/-- EXIT: it stays also while an access of it has not been performed or a command has not completed. -/
def execExit (g : Guard) (s : State) : Host.Outcome State Fault Refusal :=
  issued s (fun i => (s.foldLanes i g (fun e l t s =>
    let s := s.spadDrain e.core
    if (s.coreOf e.core).pendingOf (e.tid l) || s.commandsOf (e.tid l) then s else s.retire e l t)).afterRetire i)

/-- A group whose drain is done releases its holds and its slot or entry; a restartable block commits when its last group has gone (R217,
R393). -/
def State.drained (s : State) (key : Nat) (g : Group) : State :=
  let s := ((s.releaseHolds key).freeSlot key).lookYards
  match s.block? g.blockKey with
  | none => s
  | some b =>
    if !(s.groupsOf g.blockKey).isEmpty then s
    else if b.restartable then s.pushOnce (.blockCommit g.grid g.block)
    else s.blockGone g.blockKey g.grid

/-- DRAIN_COMPLETE: a retired group, in a slot or, from number 32 on, in a drain tracker entry. With nothing left under way its drain is done;
otherwise it leaves its slot for a free entry (R217). -/
def execDrainComplete (core slot : Nat) (s : State) : Host.Outcome State Fault Refusal :=
  let key := if slot < 32 then core * 32 + slot else trackKey core (slot - 32)
  .next (match s.group? key with
    | none => s
    | some g =>
      if !(g.threads.all (fun p => decide (p.2.status = .retired))) then s
      else if (match s.block? g.blockKey with | some b => b.stopped.isSome | none => false) then s
      else
        let s := s.spadDrain core
        match s.group? key with
        | none => s
        | some g =>
          if !(s.drains key) then s.drained key g
          else if 32 ≤ slot then s.push (.drainComplete core slot)
          else
            match s.freeTracker core with
            | none => s.push (.drainComplete core slot)
            | some n => s.toTracker core key n g)

/-! ## The end of a grid (R330) -/

/-- The records of a grid in the sidings of its context. -/
def State.leftRecords (s : State) (grid : Nat) : Nat :=
  s.sidings.foldl (fun n p => n + (p.2.filter (fun r => decide (r.grid = grid))).length) 0

def State.discardRecords (s : State) (grid : Nat) : State :=
  let here := (s.sidings.filter (fun p => p.2.any (fun r => decide (r.grid = grid)))).map (fun p => p.1)
  let s := { s with sidings := s.sidings.filterMap (fun (p : Nat × List Rec) =>
    let l := p.2.filter (fun r => decide (r.grid ≠ grid))
    if l.isEmpty then none else some (p.1, l)) }
  here.foldl (fun s k => s.lookSiding k) s

/-- Whether a grid has nothing left to run. A saved context's blocks are in its image. -/
def State.gridOver (s : State) (tag : Nat) (g : Grid) : Bool :=
  let away := match s.context? g.ctx with
    | some c => decide (c.phase = .saved) || decide (c.phase = .preempted)
    | none => false
  g.pendingBlocks.isEmpty && g.relaunch.isEmpty && !(s.blocks.any (fun p => decide (p.2.grid = tag))) && !away

/-- 1 ended; 4 context failed or destroyed (R330). -/
def State.endStatus (s : State) (ctx : Nat) : Nat :=
  match s.context? ctx with
  | some c => if c.failure.isSome ∨ c.phase = .ending then 4 else 1
  | none => 4

/-- GRID_END: records left over are discarded, the completion word is written, and what waited for the grid may start: after every store of
the grid has been performed for all, replicated ones on every die (R318, R329, R330). -/
def execGridEnd (grid : Nat) (s : State) : Host.Outcome State Fault Refusal :=
  .next (match s.grid? grid with
    | none => s
    | some g =>
      if !(s.gridOver grid g) then s
      else if s.replUnderWay then s.push (.gridEnd grid)
      else match s.complete? g.ctx g.completion (s.endStatus g.ctx) (s.leftRecords grid) with
        | (s, false) => s.push (.gridEnd grid)
        | (s, true) =>
          let s := s.discardRecords grid
          let s : State := { s with grids := Table.erase s.grids grid, barriers := s.barriers.filter (fun b => b.grid ≠ grid),
                                    collCounts := s.collCounts.filter (fun c => c.grid ≠ grid),
                                    colls := s.colls.filter (fun c => c.grid ≠ grid) }
          s.lookQueues.lookYards)

/-! ## Failed contexts (R395) -/

/-- A context fails: the first failure record stands, no block is admitted, and every running block is contained. -/
def State.failContext (s : State) (ctx : Nat) (f : Failure) : State :=
  match s.context? ctx with
  | none => s
  | some c =>
    if c.failure.isSome then s
    else
      let s := (s.setContext ctx { c with failure := some f }).interrupt 18 f.die ctx
      let s := { s with grids := s.grids.map (fun (p : Nat × Grid) =>
        if p.2.ctx = ctx then (p.1, { p.2 with pendingBlocks := [], relaunch := [] }) else p) }
      let s := (s.blocks.filter (fun p => decide (p.2.ctx = ctx))).foldl (fun s p => s.stopBlock p.1 f.cause f.tval f.tepc) s
      let s := (s.grids.filter (fun p => decide (p.2.ctx = ctx))).foldl (fun s p => s.pushOnce (.gridEnd p.1)) s
      c.queues.foldl (fun s q => s.pushOnce (.gridStart ctx q.1)) s

/-- Poison the barrier of a member: its waiters take trap 0x15, and later arrivals will (R395). -/
def State.poisonBarrier (s : State) (grid level member : Nat) : State :=
  let s := s.setBarrier { s.barrier grid level member with poisoned := true }
  (s.participants grid level member).foldl (fun s tid => match s.thread? tid with
    | none => s
    | some t => if (t.barrierWaits grid level member).isSome then s.trap tid (barrierTrap level) else s) s

def State.poisonBarriers (s : State) (grid block : Nat) : State :=
  match s.grid? grid with
  | none => s
  | some g => (List.range (g.top - 2)).foldl (fun s i => s.poisonBarrier grid (i + 3) (g.member block (i + 3))) s

/-! ## Containment (R390, R391) -/

/-- Whether a collective command can still complete: some group of its member runs in a block that is not being contained, and may issue what
it waits for (R246). -/
def State.collAlive (s : State) (core : Nat) (num : BitVec 32) : Bool :=
  match s.colls.find? (fun c => decide (c.core = core) && decide (c.num = num)) with
  | none => false
  | some ce => s.groups.any (fun p => decide (p.2.grid = ce.grid) && decide (s.memberOf p.2 ce.level = ce.member) &&
      p.2.threads.any (fun t => decide (t.2.status ≠ .retired)) &&
      (match s.block? p.2.blockKey with | some b => b.stopped.isNone | none => false))

/-- Accepted commands of a contained block complete (R391 step 3). One that stopped on a fault, whose entry is withdrawn, and a collective that
nobody can complete any more end with status 4 (log entry 39). -/
def State.endStopped (s : State) (keys : List Nat) : State :=
  let s := s.cores.foldl (fun s p => engines.foldl (fun s e => (p.2.engine e).queue.foldl (fun s c =>
    if keys.contains (c.thread / 32) ∧ (c.phase = .faulted ∨ (c.phase = .collWait ∧ !(s.collAlive p.1 c.num))) then
      (s.setPhase p.1 e c.num .cancelled).push (.engineCommandComplete p.1 e)
    else s) s) s) s
  s.media.foldl (fun s p =>
    match p.2.queue with
    | c :: _ => if keys.contains (c.thread / 32) ∧ c.phase = .faulted then s.cancelMedia p.1 c else s
    | [] => s) s

/-- What a sequencer had asked of the scratchpad for a program that has stopped is dropped. -/
def State.stopSpad (s : State) (core : Nat) (e : Eng) : State :=
  let k := s.coreOf core
  let mine := fun (r : SpadReq) => match r with
    | .read w => decide (w.who = .sequencer e)
    | _ => false
  s.setCore core { k with
    banks := k.banks.map (fun (p : Nat × List SpadReq) => (p.1, p.2.filter (fun r => !(mine r)))),
    held := k.held.filter (fun h => h.who ≠ .sequencer e), waiters := k.waiters.filter (fun w => w.who ≠ .sequencer e) }

/-- The programs of groups stop where they stand, and their pins are released (R345). -/
def State.stopSeqs (s : State) (keys : List Nat) : State :=
  let mine := s.seqWaits.filter (fun w => keys.contains w.2.2.group)
  let s := mine.foldl (fun (s : State) w => s.seqLeave w.1 w.2.1 w.2.2) s
  let s : State := { s with seqWaits := s.seqWaits.filter (fun w => !(keys.contains w.2.2.group)) }
  s.cores.foldl (fun s p => engines.foldl (fun s e => match s.seqOf p.1 e with
    | some q => if keys.contains q.group then ((s.putSeq p.1 e none).seqLeave p.1 e q).stopSpad p.1 e |>.nextSeq p.1 e else s
    | none => s) s) s

/-- Fault entries of groups are withdrawn (R371, R391). -/
def State.withdraw (s : State) (ctx : Nat) (keep : FaultEntry → Bool) : State :=
  match s.context? ctx with
  | none => s
  | some c =>
    let fs := c.faults.map (fun (p : Nat × FaultQueue) =>
      (p.1, { p.2 with entries := p.2.entries.filter keep, waiting := p.2.waiting.filter keep }))
    (s.setContext ctx { c with faults := fs }).pushAll (((List.range Config.numDies).filter (fun d =>
      match Table.find fs d with | some q => !q.waiting.isEmpty | none => false)).map (fun d => .faultQueueSlotFreed d ctx))

/-- Every pin that a group's threads hold (R391 step 5). -/
def State.unpinGroup (s : State) (key : Nat) : State :=
  match s.group? key with
  | none => s
  | some g => (List.range 32).foldl (fun s l => (s.unpinAll g.ctx (.thread (key * 32 + l))).unpinAll g.ctx (.edq (some (key * 32 + l)))) s

/-- A relaunched block starts anew: the barriers within it and its counts of collectives within it are those of a start (R246, R394, R431). -/
def State.freshBlock (s : State) (g : Grid) (grid block : Nat) : State :=
  let within := fun (level member : Nat) => (decide (level = 1) && decide (member / g.lcnt 1 = block)) ||
    (decide (level = 2) && decide (member = g.member block 2))
  { s with barriers := s.barriers.filter (fun b => !(decide (b.grid = grid) && within b.level b.member)),
           collCounts := s.collCounts.filter (fun c => !(decide (c.grid = grid) && within c.level c.member)) }

/-- After a block has been contained: a restartable one waits for its relaunch, the fourth time it fails its context; another, whose barriers
have been poisoned, fails its context (R394, R395). -/
def State.afterContainment (s : State) (b : Block) (f : Failure) : State :=
  let failed : Bool := match s.context? b.ctx with
    | some (c : Context) => c.failure.isSome
    | none => true
  let s := s.blockGone (blockKey b.grid b.index) b.grid
  let ending : Bool := match s.context? b.ctx with
    | some (c : Context) => decide (c.phase = CtxPhase.ending)
    | none => true
  if ending then s
  else if !b.restartable then s.failContext b.ctx f
  else if failed then s
  else if 3 ≤ b.contained then s.failContext b.ctx f
  else match s.grid? b.grid with
    | none => s
    | some g =>
      ((s.freshBlock g b.grid b.index).setGrid b.grid { g with relaunch := g.relaunch ++ [Relaunch.mk b.index b.core (b.contained + 1) s.fabric] }).push
        (.blockRelaunch b.grid b.index)

/-- BLOCK_CONTAINMENT (R391). The barriers of a block that is not restartable are poisoned at once, so that no block waits there for the commands
of this one to complete (R395; log entry 75). -/
def execBlockContainment (grid block : Nat) (s : State) : Host.Outcome State Fault Refusal :=
  .next (match s.block? (blockKey grid block) with
    | none => s
    | some b =>
      match b.stopped with
      | none => s
      | some f =>
        let keys := s.groupsOf (blockKey grid block)
        let s := if b.restartable then s else s.poisonBarriers b.grid b.index
        let s := (s.endStopped keys).stopSeqs keys
        if keys.any s.drains then s.push (.blockContainment grid block)
        else
          let s := keys.foldl (fun s k => (s.releaseHolds k).unpinGroup k) (s.spadDrain b.core)
          let s := s.withdraw b.ctx (fun e => !(keys.contains (e.thread / 32)))
          let s := keys.foldl (fun s k => s.freeSlot k) s
          s.afterContainment b f)

/-! ## Commit and relaunch of restartable blocks (R393, R394) -/

/-- The store or reduction that an entry stands for, with its operand. -/
def SbEntry.op : SbEntry → ReplOp × Nat
  | .store _ _ _ n v => (.store, v.toNat % 2 ^ (8 * n))
  | .red _ _ _ ty op v => (.atom ty op 0, v.toNat)
  | .sems _ _ _ n => (.sems, n)

/-- Whether the release at package scope of a committing block's core has to wait: an update of its own is on its way to the dies, or a store to
a peer (R302, R393, R410). -/
def State.awaitsOthers (s : State) (core : Nat) : Bool :=
  s.replicated.any (fun u => decide (u.core = core)) || s.peerSent.any (fun m => decide (m.core = core))

/-- One buffered entry is performed at its home, as by one thread whose releases are all at package scope: after every replicated update of
its own, on a replicated page through the signal box, and through an aperture by the peer (R393, R410). One that reaches a draft resolves here,
not while its core holds new accesses through the buffer for a publication, and writes nothing onto a pinned draft (R110, R350; log entry 66).
`false` while it has to wait. -/
def State.commitEntry (s : State) (core ctx lease : Nat) (x : SbEntry) : State × Bool :=
  let who := Accessor.posted core
  let n := x.range.2
  let (pa, repl) := s.resolveLoc ctx x.range.1
  let pinned := match draftLoc x.range.1 with
    | some (buf, _) => (match s.desc? ctx buf with | some d => decide (d.pinsOn d.draft ≠ 0) | none => true)
    | none => false
  let held := match draftLoc x.range.1 with
    | some (buf, _) => s.publications.any (fun p => decide (p.ctx = ctx) && decide (p.buf = buf) && p.acks.contains core)
    | none => false
  let (op, v) := x.op
  if held || s.awaitsOthers core || s.idsBusy core 1 then (s, false)
  else
    let s := s.raisePkg core
    if pinned then (s, true)
    else if repl then
      let (s, id) := s.takeId core
      (s.sendReplicated core ctx pa n v op (s.coreOf core).clock id none, true)
    else if isAperture pa then
      let (s, id) := s.takeId core
      (s.sendPeer core pa n v op id none, true)
    else match op with
      | .store =>
        if isControl pa then (s.regWrite pa n v false, true)
        else
          match s.gate who (some core) ctx pa n true false true with
          | (s, false) => (s, false)
          | (s, true) => ((s.storeNow (some core) ctx polUncached pa n v lease).unqueue who, true)
      | _ =>
        match s.atomicAny who (some core) ctx polUncached pa n lease (op.new v) with
        | (s, none) => (s, false)
        | (s, some old) => ((s.requested (requestHome pa) core old).unqueue who, true)

/-- Perform a buffer in entry order: what is left, where an entry has to wait. -/
def State.commitAll (s : State) (core ctx lease : Nat) : List SbEntry → State × List SbEntry
  | [] => (s, [])
  | x :: rest =>
    match s.commitEntry core ctx lease x with
    | (s, true) => s.commitAll core ctx lease rest
    | (s, false) => (s, x :: rest)

/-- BLOCK_COMMIT: once its last group has retired, the block's buffer is performed in order; the block has gone when the last entry has been
performed for all (R393). -/
def execBlockCommit (grid block : Nat) (s : State) : Host.Outcome State Fault Refusal :=
  let bk := blockKey grid block
  .next (match s.block? bk with
    | none => s
    | some b =>
      if !b.restartable || !(s.groupsOf bk).isEmpty then s
      else
        match s.commitAll b.core b.ctx (s.leaseOf grid) b.store with
        | (s, []) =>
          if s.awaitsOthers b.core then (s.setBlock bk { b with store := [] }).push (.blockCommit grid block)
          else s.blockGone bk grid
        | (s, l) => (s.setBlock bk { b with store := l }).push (.blockCommit grid block))

/-- BLOCK_RELAUNCH: a contained restartable block starts again on another core, once one fits (R394). -/
def execBlockRelaunch (grid block : Nat) (s : State) : Host.Outcome State Fault Refusal :=
  .next (match s.grid? grid with
    | none => s
    | some g =>
      match g.relaunch.find? (fun r => decide (r.block = block)) with
      | none => s
      | some r =>
        if !(s.runnable g.ctx) then s.push (.blockRelaunch grid block)
        else match placeBlock g grid block (relaunchAllowed g r) ⟨s.rooms, g.members, []⟩ with
          | some ⟨_, _, p :: ps⟩ =>
            if !(s.poolRoom g.ctx (groupsPlaced (p :: ps))) then s.push (.blockRelaunch grid block)
            else
            let s := (s.admitBlock grid g p r.contained).observe (dieOfCore p.core) 6 (s.fabric - r.since) g.ctx
            s.setGrid grid { g with relaunch := g.relaunch.filter (fun q => q.block ≠ block), since := s.fabric }
          | _ => s.push (.blockRelaunch grid block))

end Sys2Proof.Machine
end

