-- ==== Sys2Proof/Machine/Images.lean ====
section
/-!
DEFINITION. Taking a context off the cores and putting it back: the cut (R378), what an image holds (R380 to R382), placement
and what a restore gives back (R384, R385). SAVE_CTX, RESTORE_CTX, pre-emption by the yard, core withdrawal and channel repair
share these operations.
-/
namespace Sys2Proof.Machine

/-! ## The cut (R378) -/

/-- Whether a command of an engine cannot complete while its context issues nothing: it stopped on a fault, which is answered once the context
is back, or waits for participants that have not issued (R99, R102). -/
def State.stuck (s : State) (core : Nat) (c : Cmd) : Bool :=
  decide (c.phase = .faulted) || (decide (c.phase = .collWait) && !(s.collReady core c.num))

/-- The cores on which a context has groups. -/
def State.coresWith (s : State) (ctx : Nat) : List Nat := s.coresOf ctx

/-- An engine's commands of a context have completed, or stand behind one of it that is stuck (log entry 38). -/
def State.settled (s : State) (ctx core : Nat) (e : Eng) : Bool :=
  match (s.engineOf core e).queue.find? (fun c => decide (c.ctx = ctx)) with
  | none => true
  | some c => s.stuck core c

/-- A media engine's commands of a context have completed, or stand behind one that stopped on a fault or waits for a signal of a group. -/
def Media.settled (m : Media) (ctx : Nat) : Bool :=
  match m.queue.find? (fun c => decide (c.ctx = ctx)) with
  | none => true
  | some c => decide (c.phase = .faulted) || decide (c.phase = .filtered)

/-- Whether a thread's instruction has issued and neither completed nor come to one of the waits at which R378 saves it: an access that a
bank or a signal box has taken up, a publication, or a trap that it has still to take. -/
def Thread.underWay (t : Thread) : Bool :=
  (match t.status with
    | .run => t.answer.isSome || t.cancel.isSome
    | .wait (.atomic _) => true
    | .wait .bank => true
    | .wait (.pub _ _) => true
    | _ => false)

/-- Whether scratchpad accesses of a context stand in a core's banks or before them. -/
def State.banksBusy (s : State) (ctx : Nat) (k : Core) : Bool :=
  let mine := fun (r : SpadReq) => match s.block? r.block with
    | some b => decide (b.ctx = ctx)
    | none => false
  k.banks.any (fun p => p.2.any mine) || k.held.any (fun h => mine h.req)

/-- Whether the cut of a context is complete: every instruction issued has completed, parked or come to its wait, every access has been
performed and every drain is done, every command is settled, the matrix path is at rest (R299), and no block is being contained or
committed. -/
def State.cutDone (s : State) (ctx : Nat) : Bool :=
  !(s.cores.any (fun p => p.2.pend.any (fun q => decide (q.ctx = ctx)) || p.2.pendAtomics.any (fun q => decide (q.ctx = ctx)) ||
      s.banksBusy ctx p.2)) &&
    !(s.groups.any (fun p => decide (p.2.ctx = ctx) && p.2.threads.any (fun q => q.2.underWay))) &&
    !(s.replicated.any (fun u => match u.waiter with | some (.media e) => (s.mediaOf e).queue.any (fun c => decide (c.ctx = ctx)) | _ => false)) &&
    !(s.peerSent.any (fun m => match m.waiter with | some (.media e) => (s.mediaOf e).queue.any (fun c => decide (c.ctx = ctx)) | _ => false)) &&
    s.cores.all (fun p => engines.all (s.settled ctx p.1)) && s.media.all (fun p => p.2.settled ctx) &&
    (s.coresWith ctx).all (fun c =>
      let m := (s.coreOf c).matrix
      let mine : Bool := match m.holder with
        | some g => (match s.group? g with | some g => decide (g.ctx = ctx) | none => false)
        | none => false
      !mine || (m.loads.isEmpty && m.mmas.isEmpty && m.drains.isEmpty)) &&
    !(s.blocks.any (fun p => decide (p.2.ctx = ctx) && (p.2.stopped.isSome || (s.groupsOf p.1).isEmpty)))

/-- Whether an image holds a pin (R380): a thread's or a program's on its region, and EDQ's; a command's stays with the command. -/
def PinOwner.kept : PinOwner → Bool
  | .command _ _ _ => false
  | .media _ _ _ => false
  | _ => true

/-- What a save of a thread records: one that waits stands at its word and will execute it again; parked and retired threads,
and the thread of a push that JOIN owes, stay as they are (R378, R435). -/
def Thread.atCut (t : Thread) : Thread :=
  match t.status with
  | .wait (.joinPush _ _) => { t with yieldAt := none, passed := [] }
  | .wait _ => { t with status := .run, yieldAt := none, passed := [] }
  | _ => { t with yieldAt := none, passed := [] }

/-- The threads of a context that wait at BAR: their arrivals have no effect before the restore (R378). -/
def State.arrivalsUndone (s : State) (ctx : Nat) : List Nat :=
  s.groups.flatMap (fun p => if p.2.ctx = ctx then p.2.threads.filterMap (fun q =>
    match q.2.status with
    | .wait (.barrier _ _ _ _ (.bar _ _)) => some (p.1 * 32 + q.1)
    | _ => none) else [])

/-- The tiles of a context that a core holds. -/
def State.heldTiles (s : State) (ctx : Nat) : List (Nat × Nat × Holder) :=
  s.dies.flatMap (fun p => p.2.tiles.flatMap (fun q => (q.2.holders.filter (fun h => decide (h.ctx = ctx) &&
    decide (h.core < Config.numCores))).map (fun h => (p.1, q.1, h))))

/-- Step 3 of R378: dirty lines are written back, the copies held under tenure are dropped, and the tenure stays recorded
against the context with no holder core (R385). -/
def State.parkTenure (s : State) (x : Nat × Nat × Holder) : State :=
  let (die, ix, h) := x
  let t := (s.dieOf die).tile ix h.ctx
  let s := s.writeBackTile h.core t
  let s := (s.l1Lines h.core t).foldl (fun s line => s.dropL1 h.core line) s
  let t := (s.dieOf die).tile ix h.ctx
  s.setTile die ix { t with holders := t.holders.map (fun q => if q = h then { q with core := noCore } else q) }

/-- The context's entries in every core's translation and bounds caches go (R378). -/
def State.dropCached (s : State) (ctx : Nat) : State :=
  { s with cores := s.cores.map (fun (p : Nat × Core) => (p.1, { p.2 with
      tlb := p.2.tlb.filter (fun t => t.ctx ≠ ctx), bounds := p.2.bounds.filter (fun b => b.ctx ≠ ctx) })) }

/-! ## The image (R380 to R382) -/

/-- The programs of a context's groups, with where they run. -/
def State.seqsOf (s : State) (ctx : Nat) : List (Nat × Eng × Seq) :=
  s.cores.flatMap (fun p => engines.filterMap (fun e => match (p.2.engine e).seq with
    | some q => if q.ctx = ctx then some (p.1, e, q) else none
    | none => none)) ++ s.seqWaits.filter (fun w => decide (w.2.2.ctx = ctx))

/-- What an image of a context holds at the cut (R380). -/
def State.imageOf (s : State) (ctx : Nat) : Image :=
  let undone := s.arrivalsUndone ctx
  let gs := (s.groups.filter (fun p => decide (p.2.ctx = ctx))).map (fun (p : Nat × Group) =>
    (p.1, { p.2 with spadCount := 0, threads := p.2.threads.map (fun (q : Nat × Thread) => (q.1, q.2.atCut)) }))
  let grids := (s.grids.filter (fun p => decide (p.2.ctx = ctx))).map (fun p => p.1)
  { ctx := ctx, save := s.images.length, erased := false, header := [], groups := gs, blocks := s.blocks.filter (fun p => decide (p.2.ctx = ctx)),
    barriers := (s.barriers.filter (fun b => grids.contains b.grid)).map (fun (b : Barrier) =>
      { b with arrived := b.arrived.filter (fun t => !(undone.contains t)) }),
    matrices := s.cores.filterMap (fun p => match p.2.matrix.holder with
      | some g => if (gs.map (fun q => q.1)).contains g then some (g, p.2.matrix) else none
      | none => none),
    seqs := s.seqsOf ctx, clocks := (s.coresWith ctx).map (fun c => (s.coreOf c).clock),
    faults := match s.context? ctx with | some c => c.faults | none => [],
    pins := s.pins.filter (fun p => decide (p.ctx = ctx) && p.owner.kept) }

def Thread.isParked (t : Thread) : Bool :=
  match t.status with
  | .park _ _ => true
  | .parkFull => true
  | _ => false

def flag (n : Nat) (b : Bool) : Nat := if b then 2 ^ n else 0

/-- The live features (R382). -/
def Image.live (m : Image) : Nat :=
  1 + flag 1 (!m.matrices.isEmpty) +
    flag 2 (m.groups.any (fun p => decide (p.2.k ≠ 0) || p.2.kp || p.2.kn || p.2.kq || p.2.ko)) +
    flag 3 (m.groups.any (fun p => p.2.holds.any (fun h => decide (h.count ≠ 0) || h.revoked))) + flag 4 (!m.pins.isEmpty) +
    flag 5 (m.groups.any (fun p => p.2.threads.any (fun q => q.2.isParked)) || m.faults.any (fun p => !p.2.entries.isEmpty || !p.2.waiting.isEmpty)) +
    flag 6 (!m.seqs.isEmpty)

/-- How much of each kind of state an image holds (R379). -/
def Image.amounts (m : Image) : List Nat :=
  [m.groups.length, m.groups.foldl (fun n p => p.2.threads.foldl (fun n q => n + q.2.v.length + 1) n) 0,
   m.groups.foldl (fun n p => p.2.threads.foldl (fun n q => q.2.q.foldl (fun n k => n + k.2.entries.length) n) n) 0,
   m.blocks.foldl (fun n p => n + p.2.scratch) 0, m.blocks.foldl (fun n p => n + p.2.store.length) 0, m.barriers.length,
   m.matrices.length, m.seqs.length, m.faults.foldl (fun n p => n + p.2.entries.length + p.2.waiting.length) 0, m.pins.length,
   m.clocks.length]

/-- The size of an image in bytes, its header included (R379, R381). -/
def Image.size (m : Image) : Nat := 128 + 64 * Config.imageBodyUnits m.amounts

/-- The 128-byte header (R381, R383). -/
def Image.headerBytes (m : Image) (isProtected : Bool) (counter : Nat) : List Byte :=
  leBytes 0x49435641 4 ++ leBytes 1 2 ++ leBytes Config.revision 2 ++ leBytes Config.features 8 ++ leBytes m.live 8 ++
    leBytes m.ctx 2 ++ leBytes (if isProtected then 1 else 0) 1 ++ leBytes 0 5 ++ leBytes (if isProtected then counter else 0) 8 ++
    leBytes m.size 8 ++ (if isProtected then leBytes m.ctx 2 ++ leBytes 0 2 ++ leBytes counter 8 else leBytes 0 12) ++ leBytes 0 4 ++
    leBytes (if isProtected then (Config.imageTag m.save).toNat else 0) 16 ++ leBytes (Config.imageSections m.save).toNat 48

/-- The whole image as it stands in memory (R380, R381). -/
def Image.bytes (m : Image) : List Byte := m.header ++ (List.range (m.size - 128)).map (fun i => Config.imageByte m.save i)

/-! ## Off the cores -/

/-- Step 3 of R378, on every tile that the context holds. -/
def State.parkTenures (s : State) (ctx : Nat) : State := (s.heldTiles ctx).foldl (fun s x => s.parkTenure x) s

/-- The commands of a context that are stuck leave their engines with those behind them: other contexts' commands go on (R378 step 4). -/
def State.setAside (s : State) (ctx : Nat) : State :=
  let its := fun (g : Engine) => g.queue.filter (fun c => decide (c.ctx = ctx))
  let drop := fun (g : Engine) => { g with queue := g.queue.filter (fun c => c.ctx ≠ ctx) }
  let cmds := s.cores.flatMap (fun p => engines.flatMap (fun e => (its (p.2.engine e)).map (fun c => (p.1, e, c))))
  let media := s.media.flatMap (fun p => (p.2.queue.filter (fun c => decide (c.ctx = ctx))).map (fun c => (p.1, c)))
  let s := (media.map (fun p => p.1)).eraseDups.foldl (fun (s : State) m => s.leaveSems m) s
  let s : State := { s with
    cores := s.cores.map (fun (p : Nat × Core) => (p.1, { p.2 with bulk := drop p.2.bulk, gather := drop p.2.gather, coll := drop p.2.coll })),
    media := s.media.map (fun (p : Nat × Media) => (p.1, { p.2 with queue := p.2.queue.filter (fun c => c.ctx ≠ ctx) })),
    aside := s.aside ++ cmds, mediaAside := s.mediaAside ++ media }
  let s := (cmds.map (fun x => (x.1, x.2.1))).eraseDups.foldl (fun (s : State) x =>
    ((s.unqueue (.engine x.1 x.2)).wakeEngine x.1 x.2).push (.engineCommandStart x.1 x.2)) s
  (media.map (fun p => p.1)).eraseDups.foldl (fun (s : State) m =>
    ((s.unqueue (.media m)).wakeMedia m).push (.mediaCommandStart (mediaNum m))) s

/-- They go back to the engines that accepted them, in front: they were accepted earlier (R98). -/
def State.putBack (s : State) (ctx : Nat) : State :=
  let mine := s.aside.filter (fun x => decide (x.2.2.ctx = ctx))
  let media := s.mediaAside.filter (fun x => decide (x.2.ctx = ctx))
  let back := fun (core : Nat) (e : Eng) (g : Engine) =>
    { g with queue := (mine.filter (fun x => decide (x.1 = core) && decide (x.2.1 = e))).map (fun x => x.2.2) ++ g.queue }
  let s : State := { s with
    cores := s.cores.map (fun (p : Nat × Core) =>
      (p.1, { p.2 with bulk := back p.1 .bulk p.2.bulk, gather := back p.1 .gather p.2.gather, coll := back p.1 .coll p.2.coll })),
    media := s.media.map (fun (p : Nat × Media) => (p.1, { p.2 with
      queue := (media.filter (fun x => decide (x.1 = p.1))).map (fun x => x.2) ++ p.2.queue })),
    aside := s.aside.filter (fun x => x.2.2.ctx ≠ ctx), mediaAside := s.mediaAside.filter (fun x => x.2.ctx ≠ ctx) }
  let s := s.pushAll ((mine.map (fun x => (x.1, x.2.1))).eraseDups.flatMap (fun x =>
    [.engineCommandComplete x.1 x.2, .engineCommandStart x.1 x.2]))
  s.pushAll ((media.map (fun x => x.1)).eraseDups.flatMap (fun m =>
    [.mediaCommandStart (mediaNum m), .mediaRow (mediaNum m), .mediaFilteredWait (mediaNum m)]))

/-- Release the cores of a context whose cut is complete and whose tenures are parked: its groups, blocks, matrix paths, programs and commands
leave them (R378 step 4). A push that JOIN owes stays; a SPUSH will execute again. -/
def State.takeOff (s : State) (ctx : Nat) (phase : CtxPhase) : State :=
  let undone := s.arrivalsUndone ctx
  let keys := (s.groups.filter (fun p => decide (p.2.ctx = ctx))).map (fun p => p.1)
  let owed := s.deferred.filter (fun d => d.undo.isSome || decide (d.siding / 1024 ≠ ctx))
  let pins := s.pins
  let s := keys.foldl (fun s k => s.freeSlot k) (s.setAside ctx)
  let s := (s.seqsOf ctx).foldl (fun (s : State) x => match s.seqOf x.1 x.2.1 with
    | some q => if q.ctx = ctx then ((s.putSeq x.1 x.2.1 none).stopSpad x.1 x.2.1).nextSeq x.1 x.2.1 else s
    | none => s) { s with seqWaits := s.seqWaits.filter (fun w => w.2.2.ctx ≠ ctx) }
  let s : State := { s with
    blocks := s.blocks.filter (fun p => p.2.ctx ≠ ctx), deferred := owed, pins := pins,
    barriers := s.barriers.map (fun (b : Barrier) => { b with arrived := b.arrived.filter (fun t => !(undone.contains t)) }) }
  let s := s.dropCached ctx
  match s.context? ctx with
  | none => s
  | some c => (s.setContext ctx { c with phase := phase }).lookYards

/-! ## Back on the cores (R384 check 6, R385) -/

/-- Place blocks of a grid one after the other, each inside the instances that its members are bound to, which the first block of a member
settles (R322). -/
def placeBlocks (g : Grid) (grid : Nat) : List Nat → Placed → Option Placed
  | [], x => some x
  | b :: rest, x =>
    let up := g.above 2 b
    match placeBlock g grid b (g.insideBound x.bound up) x with
    | none => none
    | some y =>
      match y.places.getLast? with
      | none => none
      | some p => placeBlocks g grid rest { y with bound := g.bindAt y.bound up p.core }

/-- Where the blocks of an image go: grid by grid, in the instances their members were bound to, or in new ones where those
cannot take them. -/
def State.placeGrids (s : State) (m : Image) (rooms : List Room) : List Nat → Option (List (Nat × Placed))
  | [] => some []
  | tag :: rest =>
    match s.grid? tag with
    | none => none
    | some g =>
      let bs := (m.blocks.filter (fun p => decide (p.2.grid = tag))).map (fun p => p.2.index)
      let try_ := fun (bound : Table Nat) => placeBlocks g tag bs ⟨rooms, bound, []⟩
      match (match try_ g.members with | some x => some x | none => try_ []) with
      | none => none
      | some x => match s.placeGrids m x.rooms rest with
        | none => none
        | some l => some ((tag, x) :: l)

def Image.grids (m : Image) : List Nat := ((m.blocks.map (fun p => p.2.grid))).eraseDups
def State.placeImage (s : State) (m : Image) : Option (List (Nat × Placed)) := s.placeGrids m s.rooms m.grids

/-- Old group keys with their new ones: a block's groups take its slots in order. -/
def Image.moves (m : Image) (l : List (Nat × Placed)) : List (Nat × Nat) :=
  l.flatMap (fun x => x.2.places.flatMap (fun p =>
    let gs := (m.groups.filter (fun q => decide (q.2.grid = x.1) && decide (q.2.block = p.block))).map (fun q => q.1)
    (gs.zip p.slots).map (fun q => (q.1, p.core * 32 + q.2))))

def moved (mv : List (Nat × Nat)) (key : Nat) : Nat :=
  match mv.find? (fun p => decide (p.1 = key)) with
  | some p => p.2
  | none => key
/-- The key of a thread after its group has moved. -/
def movedThread (mv : List (Nat × Nat)) (t : Nat) : Nat := moved mv (t / 32) * 32 + t % 32

def PinOwner.move (mv : List (Nat × Nat)) (o : PinOwner) : PinOwner :=
  match o with
  | .thread t => .thread (movedThread mv t)
  | .edq (some t) => .edq (some (movedThread mv t))
  | o => o

/-- A fault queue at a restore: the image's entries, with what has been answered meanwhile taking precedence (R385). -/
def FaultQueue.restored (mv : List (Nat × Nat)) (now img : FaultQueue) : FaultQueue :=
  let one := fun (e : FaultEntry) =>
    let st := match now.entries.find? (fun x => decide (x.seq = e.seq)) with
      | some x => if x.state = .unanswered then e.state else x.state
      | none => e.state
    { e with state := st, thread := movedThread mv e.thread }
  { next := now.next, entries := img.entries.map one, waiting := img.waiting.map (fun (e : FaultEntry) =>
      { e with thread := movedThread mv e.thread }) }

/-- Everything that names a thread of the context follows its group to its new place. -/
def State.moveNames (s : State) (ctx : Nat) (mv : List (Nat × Nat)) : State :=
  { s with
    aside := s.aside.map (fun x => if x.2.2.ctx = ctx then (x.1, x.2.1, { x.2.2 with thread := movedThread mv x.2.2.thread }) else x),
    mediaAside := s.mediaAside.map (fun x => if x.2.ctx = ctx then (x.1, { x.2 with thread := movedThread mv x.2.thread }) else x),
    cores := s.cores.map (fun (p : Nat × Core) =>
      let f := fun (g : Engine) => { g with queue := g.queue.map (fun (c : Cmd) => if c.ctx = ctx then { c with thread := movedThread mv c.thread } else c) }
      (p.1, { p.2 with bulk := f p.2.bulk, gather := f p.2.gather, coll := f p.2.coll })),
    media := s.media.map (fun (p : Nat × Media) => (p.1, { p.2 with queue := p.2.queue.map (fun (c : MediaCmd) =>
      if c.ctx = ctx then { c with thread := movedThread mv c.thread } else c) })),
    deferred := s.deferred.map (fun (d : Deferred) => if d.siding / 1024 = ctx then
      { d with thread := movedThread mv d.thread, undo := d.undo.map (fun (p : PendAtomic) => { p with thread := movedThread mv p.thread }) }
      else d) }

/-- A group's holds at a restore: revoked if marked in the image, or if the tile no longer records the tenure (R385). -/
def State.restoreHold (s : State) (ctx : Nat) (h : Hold) : Hold :=
  let t := (s.dieOf h.die).tile h.index ctx
  { h with revoked := h.revoked || (decide (h.count ≠ 0) && !(t.holders.any (fun q => decide (q.core = noCore) && decide (q.ctx = ctx)))) }

/-- A tenure not revoked is granted again to the core that receives the group, behind conflicting requests (R385, R58). -/
def State.regrant (s : State) (ctx key : Nat) (x : Nat × Nat × Bool) : State :=
  let (die, ix, write) := x
  let t := (s.dieOf die).tile ix ctx
  if t.heldBy (key / 32) ctx then s
  else (s.enqueueTile die ix (.regrant key write)).serveTile die ix (t.queue.length + 2)

/-- The tenures to grant again: each group's holds that are not revoked, with what the tile records. -/
def State.regrants (s : State) (ctx : Nat) (keys : List Nat) : List (Nat × Nat × Nat × Bool) :=
  keys.flatMap (fun k => match s.group? k with
    | none => []
    | some g => (g.holds.filter (fun h => decide (h.count ≠ 0) && !h.revoked)).map (fun h =>
        (k, h.die, h.index, ((s.dieOf h.die).tile h.index ctx).holders.any (fun q => decide (q.ctx = ctx) && q.write))))

/-- The records of saved tenures of a context go once its groups are back. -/
def State.dropSaved (s : State) (ctx : Nat) : State :=
  s.dies.foldl (fun s p => p.2.tiles.foldl (fun s q =>
    if q.2.holders.any (fun h => decide (h.core = noCore) && decide (h.ctx = ctx)) then
      let t := (s.dieOf p.1).tile q.1 ctx
      s.setTile p.1 q.1 { t with holders := t.holders.filter (fun h => !(decide (h.core = noCore) && decide (h.ctx = ctx))) }
    else s) s) s

/-- The tenures that a context's groups kept are granted again, to the cores on which they stand (R379, R385). -/
def State.regrantAll (s : State) (ctx : Nat) (keys : List Nat) : State :=
  (s.regrants ctx keys).foldl (fun s x => s.regrant ctx x.1 x.2) (s.dropSaved ctx)

/-- A program goes on at its saved word on the core that receives its group, or waits for that core's sequencer (R385). -/
def State.restoreSeq (s : State) (mv : List (Nat × Nat)) (x : Nat × Eng × Seq) : State :=
  let (old, e, q) := x
  let q : Seq := { q with group := moved mv q.group, waiting := if q.waiting = .fault then .fault else .none }
  let core := q.group / 32
  let s : State := match q.region with
    | none => s
    | some r =>
      let its : Pin := ⟨q.ctx, r.buf, r.backing, r.edition, .sequencer old e⟩
      { s with pins := mapFirst (fun (p : Pin) => decide (p = its)) (fun _ => { its with owner := .sequencer core e }) s.pins }
  match s.seqOf core e with
  | none => (s.putSeq core e (some q)).push (.sequencerStep core e)
  | some _ => { s with seqWaits := s.seqWaits ++ [(core, e, q)] }

/-- Put an image on the cores where its blocks were placed (R385). -/
def State.putOn (s : State) (m : Image) (l : List (Nat × Placed)) : State :=
  let ctx := m.ctx
  let mv := m.moves l
  let s := l.foldl (fun (s : State) x => match s.grid? x.1 with
    | some g => s.setGrid x.1 { g with members := x.2.bound }
    | none => s) s
  let cores := (l.flatMap (fun x => x.2.places.map (fun p => p.core))).eraseDups
  let s := l.foldl (fun s x => x.2.places.foldl (fun s p => match Table.find m.blocks (blockKey x.1 p.block) with
    | some b => s.setBlock (blockKey x.1 p.block) { b with core := p.core }
    | none => s) s) s
  let s := (s.moveNames ctx mv).putBack ctx
  let stay := s.pins.filter (fun p => !(decide (p.ctx = ctx) && p.owner.kept))
  let s : State := { s with pins := stay ++ m.pins.map (fun (p : Pin) => { p with owner := p.owner.move mv }) }
  let s := m.groups.foldl (fun (s : State) p =>
    s.setGroup (moved mv p.1) { p.2 with holds := p.2.holds.map (s.restoreHold ctx), left := none }) s
  let s := m.matrices.foldl (fun (s : State) p =>
    let k := s.coreOf (moved mv p.1 / 32)
    s.setCore (moved mv p.1 / 32) { k with matrix := { p.2 with holder := some (moved mv p.1) } }) s
  let s := cores.foldl (fun (s : State) c =>
    let k := s.coreOf c
    let l1 := (m.blocks.filter (fun p => match s.block? p.1 with | some b => decide (b.core = c) | none => false)).head?.bind
      (fun p => (s.grid? p.2.grid).map (fun g => g.l1))
    (s.resizeL1 c (l1.getD k.l1cfg)).raiseTo c (match m.clocks with
      | [] => none
      | t :: rest => some (maxAll t rest))) s
  let s : State := { s with barriers := s.barriers.filter (fun b => !(m.grids.contains b.grid)) ++ m.barriers.map (fun (b : Barrier) =>
    { b with arrived := b.arrived.map (movedThread mv) }) }
  let s := m.seqs.foldl (fun s x => s.restoreSeq mv x) s
  let s := s.regrantAll ctx (mv.map (fun p => p.2))
  let s := mv.foldl (fun s p => match s.group? p.2 with
    | some g => if g.threads.all (fun q => decide (q.2.status = .retired)) then s.pushOnce (.drainComplete (p.2 / 32) (p.2 % 32)) else s
    | none => s) s
  let s := m.grids.foldl (fun s g => s.lookBarriers g) s
  match s.context? ctx with
  | none => s
  | some c =>
    let dies := (m.faults.map (fun p => p.1) ++ c.faults.map (fun p => p.1)).eraseDups
    let fs := dies.foldl (fun (t : Table FaultQueue) d =>
      Table.set t d ((c.faultQueue d).restored mv (Table.getD m.faults d FaultQueue.init))) ([] : Table FaultQueue)
    let s := s.setContext ctx { c with phase := .running, restoredAt := some s.fabric, faults := fs }
    let s := s.pushAll (dies.flatMap (fun d => [.faultQueueSlotFreed d ctx, .replayReexecution d ctx]))
    let s := s.pushAll ((s.grids.filter (fun p => decide (p.2.ctx = ctx))).map (fun p => .gridEnd p.1))
    (s.lookQueues).lookYards

/-- A context stops, so that its cut can come about (R378). -/
def State.stopContext (s : State) (ctx : Nat) : State :=
  match s.context? ctx with
  | none => s
  | some c => if c.phase = .running then s.setContext ctx { c with phase := .stopping } else s

/-- A context that was stopping goes on, its programs with their next words (R379). -/
def State.goOn (s : State) (ctx : Nat) : State :=
  match s.context? ctx with
  | none => s
  | some c =>
    if c.phase = .stopping then
      (((s.setContext ctx { c with phase := .running }).pushAll ((s.seqsOf ctx).map (fun x => .sequencerStep x.1 x.2.1))).lookQueues).lookYards
    else s

/-- The latest clock of a cut, on every core of it; and the marks of the tenures that were taken from a context since it was cut (R385). -/
def State.cutKept (s : State) (ctx : Nat) : State :=
  let cores := s.coresWith ctx
  let top := match cores.map (fun c => (s.coreOf c).clock) with
    | [] => none
    | t :: rest => some (maxAll t rest)
  let s := cores.foldl (fun (s : State) c => s.raiseTo c top) s
  { s with groups := s.groups.map (fun (p : Nat × Group) =>
      if p.2.ctx = ctx then (p.1, { p.2 with holds := p.2.holds.map (s.restoreHold ctx) }) else p) }

/-- A context whose image is not written goes on from its cut as if it had been restored at once: its clocks are raised, and its tenures are
granted again to the same cores, those not revoked (R379, R385, R436). -/
def State.resumeCut (s : State) (ctx : Nat) : State :=
  match s.context? ctx with
  | none => s
  | some c =>
    if c.phase = .stopping then
      let s := s.cutKept ctx
      (s.regrantAll ctx ((s.groups.filter (fun p => decide (p.2.ctx = ctx))).map (fun p => p.1))).goOn ctx
    else s

end Sys2Proof.Machine
end

