-- ==== Sys2Proof/Machine/Preempt.lean ====
section
/-!
DEFINITION. A yard's round and its pre-emption of a context (R336, R337).
-/
namespace Sys2Proof.Machine

/-- Keep an image of a context and take it off the cores; a protected context's counter is raised (R383). -/
def State.saveImage (s : State) (ctx : Nat) (phase : CtxPhase) : State :=
  match s.context? ctx with
  | none => s
  | some c =>
    let s := s.parkTenures ctx
    let m := s.imageOf ctx
    let counter := if c.isProtected then c.counter + 1 else c.counter
    let m := { m with header := m.headerBytes c.isProtected counter }
    let s := (s.setContext ctx { c with counter := counter, imageSize := m.size }).takeOff ctx phase
    { s with images := s.images ++ [m] }

/-- The last image of a context. -/
def State.lastImage (s : State) (ctx : Nat) : Option Image := (s.images.filter (fun m => decide (m.ctx = ctx) && !m.erased)).getLast?

/-- The base priority of a context: the highest of its grids that have blocks (log entry 33). -/
def State.basePriority (s : State) (grids : List Nat) : Nat :=
  grids.foldl (fun n t => match s.grid? t with | some g => Nat.max n g.priority | none => n) 0

def State.runningGrids (s : State) (ctx : Nat) : List Nat :=
  ((s.blocks.filter (fun p => decide (p.2.ctx = ctx))).map (fun p => p.2.grid)).eraseDups

/-- The highest base priority of a grid that waits for room. -/
def State.waitingPriority (s : State) : Nat :=
  s.grids.foldl (fun n p => if s.runnable p.2.ctx ∧ !p.2.pendingBlocks.isEmpty then Nat.max n (p.2.priority + 1) else n) 0

/-- A pre-empted context returns to the cores when its blocks fit, and no waiting grid of higher base priority would lack
the room (log entry 33). -/
def State.returnPreempted (s : State) (ctx : Nat) : State :=
  match s.lastImage ctx with
  | none => s
  | some m =>
    if s.basePriority m.grids + 1 < s.waitingPriority then s
    else match s.placeImage m with
      | none => s
      | some l => s.putOn m l

def State.preempted (s : State) : List Nat :=
  (s.contexts.filter (fun p => decide (p.2.phase = .preempted) && p.2.failure.isNone)).map (fun p => p.1)

/-- The blocks that have waited 2^20 fabric cycles, those that are relaunched among them (R336, R394). -/
def State.overdue (s : State) : List (Nat × Nat) :=
  s.grids.flatMap (fun p => if s.runnable p.2.ctx then
      (if p.2.started + 1048576 ≤ s.fabric then p.2.pendingBlocks.map (fun b => (p.1, b)) else []) ++
        (p.2.relaunch.filter (fun r => decide (r.since + 1048576 ≤ s.fabric))).map (fun r => (p.1, r.block)) else [])

/-- YARD_ADMISSION: one round of a die's yard (R336). While blocks wait, the yard goes on to its next round. -/
def execYardAdmission (die : Nat) (s : State) : Host.Outcome State Fault Refusal :=
  let s := s.admitRound die
  let s := s.preempted.foldl (fun s c => s.returnPreempted c) s
  let waiting := s.grids.filter (fun p => s.runnable p.2.ctx && !p.2.pendingBlocks.isEmpty)
  let s := s.overdue.foldl (fun s x => s.pushOnce (.blockReservation x.1 x.2)) s
  let s := if waiting.isEmpty then s
    else if Config.preempts s.free then
      waiting.foldl (fun s p => s.pushOnce (.yardPreemption p.1 (p.2.pendingBlocks.headD 0))) s.tick
    else s.tick
  .next (if waiting.isEmpty && s.preempted.isEmpty && !(s.grids.any (fun p => s.runnable p.2.ctx && !p.2.relaunch.isEmpty)) then s else s.pushOnce (.yardAdmission die))

/-- The cores without the blocks of a context. -/
def State.roomsWithout (s : State) (ctx : Nat) : List Room :=
  let mine := (s.groups.filter (fun p => decide (p.2.ctx = ctx))).map (fun p => p.1)
  ({ s with groups := s.groups.filter (fun p => p.2.ctx ≠ ctx), blocks := s.blocks.filter (fun p => p.2.ctx ≠ ctx),
            cores := s.cores.map (fun (p : Nat × Core) => (p.1, match p.2.matrix.holder with
              | some g => if mine.contains g then { p.2 with matrix := Matrix.init } else p.2
              | none => p.2)) } : State).rooms

/-- The other contexts that run on the cores. -/
def State.othersRunning (s : State) (g : Grid) : List (Nat × Context) :=
  s.contexts.filter (fun p => decide (p.1 ≠ g.ctx) && (decide (p.2.phase = .running) || decide (p.2.phase = .stopping)) &&
    p.2.failure.isNone && !(s.runningGrids p.1).isEmpty)

/-- The context that the yard may pre-empt for a unit: the running one of the lowest base priority, if that is below the block's, it was not
restored within 2^20 fabric cycles, and it is in the way (R337). -/
def State.victim (s : State) (tag : Nat) (g : Grid) (unit : Nat) : Option Nat :=
  let base := fun (p : Nat × Context) => s.basePriority (s.runningGrids p.1)
  let others := s.othersRunning g
  let lowest := others.filter (fun p => others.all (fun q => decide (base p ≤ base q)))
  (lowest.find? (fun p => decide (base p < g.priority) &&
      (match p.2.restoredAt with | some t => decide (t + 1048576 ≤ s.fabric) | none => true) &&
      (g.place tag unit (s.roomsWithout p.1)).isSome)).map (fun p => p.1)

/-- Contexts that stop for no firmware command go on. -/
def State.releaseStopped (s : State) : State :=
  s.contexts.foldl (fun s p =>
    if p.2.phase = .stopping ∧ !(s.doorbells.any (fun m => decide ((s.mailboxOf m).ctx = p.1))) then s.goOn p.1 else s) s

/-- YARD_PREEMPTION: for a block that fits on no core, a context of lower base priority leaves the cores whole (R337). -/
def execYardPreemption (grid block : Nat) (s : State) : Host.Outcome State Fault Refusal :=
  .next (match s.grid? grid with
    | none => s.releaseStopped
    | some g =>
      let unit := g.memberAt block (g.unitLevel - 2)
      if !(g.pendingBlocks.contains block) || !(s.runnable g.ctx) || (g.place grid unit s.rooms).isSome then s.releaseStopped
      else match s.victim grid g unit with
        | none => s.releaseStopped
        | some c =>
          if s.cutDone c then s.saveImage c .preempted
          else (s.stopContext c).push (.yardPreemption grid block))

end Sys2Proof.Machine
end

