-- ==== Sys2Proof/Machine/Faults.lean ====
section
/-!
DEFINITION. The fault queues' own steps (R368 to R371, R377, R385): waiting faults, replay and cancel.
-/
namespace Sys2Proof.Machine

/-! ## Entries -/

/-- An entry that stopped an engine's or a media engine's command (flag bit 1), or an engine's program. -/
def FaultEntry.ofCommand (e : FaultEntry) : Bool := decide (e.flags / 2 % 2 = 1)
def FaultEntry.ofThread (e : FaultEntry) : Bool := e.engine.isNone && !e.ofCommand
/-- The threads that an entry parked (R367): the whole group with flag bit 0. -/
def FaultEntry.threads (e : FaultEntry) : List Nat :=
  if e.flags % 2 = 1 then (List.range 32).map (fun l => e.thread / 32 * 32 + l) else [e.thread]
def FaultEntry.group (e : FaultEntry) : Nat := e.thread / 32

def State.faultQueueOf (s : State) (ctx die : Nat) : FaultQueue :=
  match s.context? ctx with
  | some c => c.faultQueue die
  | none => FaultQueue.init

def State.setFaultQueue (s : State) (ctx die : Nat) (q : FaultQueue) : State :=
  match s.context? ctx with
  | some c => s.setContext ctx { c with faults := Table.set c.faults die q }
  | none => s

/-- An entry leaves its queue. -/
def State.dropFault (s : State) (ctx die seq : Nat) : State :=
  let q := s.faultQueueOf ctx die
  s.setFaultQueue ctx die { q with entries := q.entries.filter (fun e => e.seq ≠ seq) }

/-- Whether a context's threads are on the cores. -/
def State.present (s : State) (ctx : Nat) : Bool :=
  match s.context? ctx with
  | some c => decide (c.phase = .running) || decide (c.phase = .stopping)
  | none => false

/-! ## Faults that found the queue full (R368) -/

/-- The threads of a fault that is written at last are parked on its entry. -/
def State.parkOn (s : State) (e : FaultEntry) (die seq : Nat) : State :=
  if !e.ofThread then s
  else e.threads.foldl (fun s t => match s.thread? t with
    | some th => if th.status = .parkFull then s.setThread t { th with status := .park die seq } else s
    | none => s) s

/-- Write waiting faults while there is room, in the order in which they came. -/
def State.writeWaiting (s : State) (ctx die : Nat) : Nat → State
  | 0 => s
  | fuel + 1 =>
    match s.context? ctx with
    | none => s
    | some c =>
      let q := c.faultQueue die
      match q.waiting with
      | [] => s
      | e :: rest =>
        match q.write e with
        | none => s
        | some q' =>
          let s := ((s.setFaultQueue ctx die { q' with waiting := rest }).writeFault ctx die c.area { e with seq := q.next }).startTime
            (.entry ctx die q.next)
          let s := if q.empty then s.interrupt 16 die ctx else s
          (s.parkOn e die q.next).writeWaiting ctx die fuel

/-- FAULT_QUEUE_SLOT_FREED: the faults that waited for a slot are written (R368). -/
def execFaultQueueSlotFreed (die ctx : Nat) (s : State) : Host.Outcome State Fault Refusal :=
  .next (if s.present ctx then s.writeWaiting ctx die (s.faultQueueOf ctx die).waiting.length else s)

/-! ## Engines (R99) -/

/-- The engine's command that stopped on a fault: the head of its queue, or a collective one behind a head that waits (R102). -/
def State.faultedEngine (s : State) (x : FaultEntry) : Option (Nat × Eng × Cmd) :=
  firstSome (s.cores.flatMap (fun p => engines.map (fun e =>
    if x.engine = some e then
      ((p.2.engine e).queue.find? (fun c => decide (c.phase = .faulted) && decide (c.num.toNat = x.cmd) && decide (c.thread = x.thread))).map
        (fun c => (p.1, e, c))
    else none)))

def State.faultedMedia (s : State) (x : FaultEntry) : Option (Nat × MediaCmd) :=
  firstSome (s.media.map (fun p => match p.2.queue with
    | c :: _ => if c.phase = .faulted ∧ c.num.toNat = x.cmd ∧ c.thread = x.thread then some (p.1, c) else none
    | [] => none))

/-- The core and engine of a program that waits for an answer. -/
def State.faultedSeq (s : State) (x : FaultEntry) : Option (Nat × Eng) :=
  firstSome (s.cores.flatMap (fun p => engines.map (fun e =>
    match (p.2.engine e).seq with
    | some q => if x.engine = some e ∧ q.group = x.group ∧ q.waiting = .fault then some (p.1, e) else none
    | none => none)))

/-- A command, or a program, goes on where it stopped. -/
def State.resumeEngine (s : State) (x : FaultEntry) : State :=
  if x.ofCommand then
    match x.engine with
    | some _ => (match s.faultedEngine x with
      | some (core, e, c) => (s.setPhase core e c.num .queued).push (.engineCommandStart core e)
      | none => s)
    | none => (match s.faultedMedia x with
      | some (m, c) => (s.setMediaHead m { c with phase := .queued }).push (.mediaCommandStart (mediaNum m))
      | none => s)
  else match s.faultedSeq x with
    | some (core, e) => (match s.seqOf core e with
      | some q => (s.putSeq core e (some { q with waiting := .none })).push (.sequencerStep core e)
      | none => s)
    | none =>
      { s with seqWaits := s.seqWaits.map (fun w =>
          if x.engine = some w.2.1 ∧ w.2.2.group = x.group ∧ w.2.2.waiting = .fault then (w.1, w.2.1, { w.2.2 with waiting := .none }) else w) }

/-- A cancelled command, or program, ends with status 4 (R99, R371). -/
def State.cancelEngine (s : State) (x : FaultEntry) : State :=
  if x.ofCommand then
    match x.engine with
    | some _ => (match s.faultedEngine x with
      | some (core, e, c) => (s.setPhase core e c.num .cancelled).push (.engineCommandComplete core e)
      | none => s)
    | none => (match s.faultedMedia x with
      | some (m, c) => (s.setMediaHead m { c with phase := .cancelled }).push (.mediaCommandComplete (mediaNum m))
      | none => s)
  else match s.faultedSeq x with
    | some (core, e) => s.endSeq core e 4
    | none =>
      match s.seqWaits.find? (fun w => decide (x.engine = some w.2.1 ∧ w.2.2.group = x.group ∧ w.2.2.waiting = .fault)) with
      | none => s
      | some w =>
        let s : State := { s with seqWaits := removeFirst (fun y => decide (y = w)) s.seqWaits }
        ((s.seqLeave w.1 w.2.1 w.2.2).noteFork w.2.2.group w.2.2.fork w.2.1 4).forkEnded w.2.2.group w.2.2.fork w.2.1

/-! ## Cancel (R371, R377) -/

/-- A bank's queue takes what collectors hold for it while it has room (R90). -/
def State.admitRoom (s : State) (core bank : Nat) : Nat → State
  | 0 => s
  | n + 1 => if 8 ≤ (Table.getD (s.coreOf core).banks bank []).length then s else (s.admitHeld core bank).admitRoom core bank n

/-- An LDS leaves its bank, its collector or the core's list with no effect, and counts no more; its place in the bank's queue goes to what
collectors hold (R90, R92, R94). -/
def State.dropLds (s : State) (tid : Nat) : State :=
  let core := coreOfThread tid
  let k := s.coreOf core
  let mine := fun (r : SpadReq) => match r with
    | .read w => decide (w.who = .thread tid)
    | _ => false
  let n := (k.waiters.filter (fun w => decide (w.who = .thread tid))).length + (k.banks.flatMap (fun p => p.2.filter mine)).length
  let s := s.setCore core { k with
    waiters := k.waiters.filter (fun w => w.who ≠ .thread tid),
    banks := k.banks.map (fun (p : Nat × List SpadReq) => (p.1, p.2.filter (fun r => !(mine r)))),
    held := k.held.filter (fun h => !(mine h.req)) }
  let s := (List.range n).foldl (fun s _ => s.countDown (some (tid / 32))) s
  ((s.coreOf core).held.map (fun h => h.bank)).eraseDups.foldl (fun s b => s.admitRoom core b 8) s

/-- A request for tenure leaves its tile's queue; what waits behind it is looked at. -/
def State.dropTacq (s : State) (group die index : Nat) : State :=
  let d := s.dieOf die
  (s.setDie die { d with tiles := d.tiles.map (fun (q : Nat × Tile) =>
    if q.1 = index then (q.1, { q.2 with queue := q.2.queue.filter (fun r => match r.req with
      | .tacq g _ => decide (g ≠ group)
      | _ => true) }) else q) }).wakeTiles die

/-- A record that waits for room in its siding is not pushed after all; a JOIN's counter is given back (R377; log entry 67). -/
def State.dropDeferred (s : State) (tid siding : Nat) : State :=
  match s.deferred.find? (fun d => decide (d.thread = tid)) with
  | none => s
  | some d =>
    let s : State := { s with deferred := removeFirst (fun x => decide (x = d)) s.deferred }
    let s := s.lookSiding siding
    match d.undo with
    | none => s
    | some u =>
      let core := coreOfThread tid
      let (s, id) := s.takeId core
      let k := s.coreOf core
      (s.setCore core { k with pendAtomics := k.pendAtomics ++ [{ u with id := id, issuedAt := k.clock }] }).push (.pocAtomic core)

/-- A thread's wait ends with no effect of its word (R377). -/
def State.endWait (s : State) (tid : Nat) (t : Thread) : State :=
  match t.status with
  | .run => s.unqueue (.thread tid)
  | .wait .ldsWait => s.dropLds tid
  | .wait (.semw pa _) =>
    (({ s with semWaits := s.semWaits.filter (fun w => w.who ≠ .thread tid) } : State).unqueue (.thread tid)).pushOnce (.semwRelease pa)
  | .wait (.tacq die ix _) => s.dropTacq (tid / 32) die ix
  | .wait (.barrier g l m _ (.bar _ _)) =>
    s.setBarrier { s.barrier g l m with arrived := (s.barrier g l m).arrived.filter (fun x => x ≠ tid) }
  | .wait (.pub _ _) => { s with publications := s.publications.filter (fun p => p.thread ≠ tid) }
  | .wait (.siding id _) => s.dropDeferred tid id
  | .wait (.joinPush id _) => s.dropDeferred tid id
  | _ => s

/-- Whether a thread's word has had an effect already, so that it completes: an atomic whose answer is on its way or there, or a store whose
accesses a full bank holds back (R90, R232). -/
def Thread.begun (t : Thread) : Bool :=
  t.answer.isSome || (match t.status with
    | .wait (.atomic _) => true
    | .wait .bank => true
    | _ => false)

/-- Whether a thread stands parked at its word. -/
def Thread.standsParked (t : Thread) : Bool :=
  match t.status with
  | .park _ _ => true
  | .parkFull => true
  | _ => false

/-- A live thread of a cancelled entry's group traps: at the word it stands at; one whose word has begun, at its next word, but for a parked one,
which takes the trap at its parked word whatever that has done before (R377). -/
def State.cancelThread (s : State) (tid : Nat) (addr : Word) : State :=
  match s.thread? tid with
  | none => s
  | some t =>
    if t.status = .retired then s
    else if t.begun && !t.standsParked then s.setThread tid { t with cancel := some addr, yieldAt := none, replay := none }
    else
      let s := s.endWait tid t
      (s.setThread tid { t with status := .run, yieldAt := none, replay := none, answer := none }).trap tid ⟨0x0D, addr⟩

/-- Apply a cancel. A thread's entry: the group's other entries go (a command they stopped starts again, as a thread whose entry is
withdrawn re-executes its word, R377), and every live thread of the group traps. A command's or program's entry: it alone ends. -/
def State.applyCancel (s : State) (ctx die : Nat) (x : FaultEntry) : State :=
  if x.ofThread then
    let all : List FaultEntry := match s.context? ctx with
      | some c => c.faults.flatMap (fun p => p.2.entries ++ p.2.waiting)
      | none => []
    let others := all.filter (fun e => decide (e.group = x.group) && !e.ofThread)
    let s := s.withdraw ctx (fun e => decide (e.group ≠ x.group))
    let s := others.foldl (fun s e => s.resumeEngine e) s
    (List.range 32).foldl (fun s l => s.cancelThread (x.group * 32 + l) x.addr) s
  else (s.cancelEngine x).dropFault ctx die x.seq

/-! ## Replay (R369, R370) -/

/-- Whether a group waits for a tenure that a restore grants again (R385). -/
def State.awaitsTenure (s : State) (key : Nat) : Bool :=
  s.dies.any (fun p => p.2.tiles.any (fun q => q.2.queue.any (fun r => match r.req with
    | .regrant g _ => decide (g = key)
    | _ => false)))

/-- A group's first replayable entry: its parked threads go on at their word; once none is re-executing it, the entry has
gone. -/
def State.replayFirst (s : State) (ctx die key : Nat) : State :=
  match (s.faultQueueOf ctx die).entries.find? (fun e => decide (e.group = key) && decide (e.state = .replayable)) with
  | none => s
  | some x =>
    if !x.ofThread then (s.resumeEngine x).dropFault ctx die x.seq
    else
      let parked := x.threads.filter (fun t => match s.thread? t with
        | some th => decide (th.status = .park die x.seq)
        | none => false)
      let running := x.threads.any (fun t => match s.thread? t with
        | some th => decide (th.replay = some (die, x.seq))
        | none => false)
      if !parked.isEmpty then
        parked.foldl (fun s t => match s.thread? t with
          | some th => s.setThread t { th with status := .run, replay := some (die, x.seq) }
          | none => s) s
      else if running then s
      else s.dropFault ctx die x.seq

/-- REPLAY_REEXECUTION: the entries of a queue that have been answered are acted on, group by group in ascending order (R370). -/
def execReplayReexecution (die ctx : Nat) (s : State) : Host.Outcome State Fault Refusal :=
  .next (match s.context? ctx with
    | none => s
    | some c =>
      if c.phase = .stopping then s.push (.replayReexecution die ctx)
      else if c.phase ≠ .running then s
      else
        let s := ((c.faultQueue die).entries.filter (fun e => decide (e.state = .cancelled))).foldl (fun s e => s.applyCancel ctx die e) s
        let ready := fun (s : State) => (s.faultQueueOf ctx die).entries.filter (fun e => decide (e.state = .replayable))
        let s := ((ready s).map (fun e => e.group)).eraseDups.foldl (fun s g => s.replayFirst ctx die g) s
        if (ready s).isEmpty then s else s.pushOnce (.replayReexecution die ctx))

/-- The numbers up to s: the half of the number circle that ends there (R368, R369). -/
def upTo (s seq : Nat) : Bool := decide ((s + 2 ^ 32 - seq % 2 ^ 32) % 2 ^ 32 < 2 ^ 31)

/-- An entry is answered: the time since it was written is a sample (R400). -/
def State.answered (s : State) (ctx die seq : Nat) : State := s.observeEnd (.entry ctx die seq) true die 9

/-- FAULT_REPLAY (R369): every unanswered entry with a number up to s becomes replayable. -/
def State.answerReplay (s : State) (ctx die n : Nat) : State :=
  let q := s.faultQueueOf ctx die
  let s := q.entries.foldl (fun s e => if e.state = .unanswered ∧ upTo n e.seq then s.answered ctx die e.seq else s) s
  let s := s.setFaultQueue ctx die { q with entries := q.entries.map (fun (e : FaultEntry) =>
    if e.state = .unanswered ∧ upTo n e.seq then { e with state := .replayable } else e) }
  s.pushAll [.faultQueueSlotFreed die ctx, .replayReexecution die ctx]

/-- FAULT_CANCEL (R369, R371): one unanswered entry is cancelled; while its context is saved or pre-empted the cancel waits for the restore
(R385). -/
def State.answerCancel (s : State) (ctx die n : Nat) : State :=
  let q := s.faultQueueOf ctx die
  match q.entries.find? (fun e => decide (e.seq = n % 2 ^ 32) && decide (e.state = .unanswered)) with
  | none => s
  | some x =>
    let s := s.answered ctx die x.seq
    let s :=
      if s.present ctx then s.applyCancel ctx die x
      else
        let s := if x.ofThread then s.withdraw ctx (fun e => decide (e.group ≠ x.group) || decide (e.state ≠ .unanswered)) else s
        let q := s.faultQueueOf ctx die
        s.setFaultQueue ctx die { q with entries := q.entries.filter (fun e => e.seq ≠ x.seq) ++ [{ x with state := .cancelled }] }
    s.push (.faultQueueSlotFreed die ctx)

end Sys2Proof.Machine
end

