-- ==== Sys2Proof/Machine/Errors.lean ====
section
/-!
DEFINITION. Errors, failing units and links (R388 to R390, R396, R397), lost requests (R372), power (R411) and the bring-up (R412).
-/
namespace Sys2Proof.Machine

/-! ## Counting corrected errors (R396, R397) -/

/-- Unit classes (R425): 0 GDDR7 channel, 1 core, 2 Stacks way, 3 die-to-die lane, 4 UCIe lane, 5 Kweusha lane. -/
def defaultThreshold (cls : Nat) : Nat := if cls ≤ 1 then 16 else if cls = 2 then 64 else 256

def State.threshold (s : State) (cls : Nat) : Nat := Table.getD s.thresholds cls (defaultThreshold cls)

/-- What is done about a failing unit: a core is withdrawn, a Stacks way disabled, a link lane retired; a channel is only
reported (R397). -/
def State.actOn (s : State) (cls die unit : Nat) : State :=
  if cls = 1 then s.push (.coreWithdrawal (die * 40 + unit))
  else if cls = 2 then
    let d := s.dieOf die
    s.setDie die { d with waysOff := d.waysOff ++ [unit] }
  else if 3 ≤ cls then { s with linkLanesOff := s.linkLanesOff ++ [(cls * 16 + die, unit)] }
  else s

/-- The corrected errors within the window (R396). -/
def State.errorsWithin (s : State) : List (Nat × Nat × Nat × Nat) :=
  s.errorTimes.filter (fun x => decide (s.fabric < x.2.2.2 + 2 ^ s.errorWindow))

/-- A unit whose count within the window has reached its threshold is marked failing, with interrupt 17 (R396). -/
def State.judgeUnit (s : State) (cls die unit : Nat) : State :=
  let n := (s.errorsWithin.filter (fun x => decide (x.1 = cls) && decide (x.2.1 = die) && decide (x.2.2.1 = unit))).length
  if s.failing.contains (cls, die, unit) ∨ n < s.threshold cls then s
  else ({ s with failing := s.failing ++ [(cls, die, unit)] }.interrupt 17 die 0).actOn cls die unit

/-- Every unit that has had an error within the window is judged anew, after the window or a threshold has changed (R396). -/
def State.judgeUnits (s : State) : State :=
  ((s.errorsWithin.map (fun x => (x.1, x.2.1, x.2.2.1))).eraseDups).foldl (fun s x => s.judgeUnit x.1 x.2.1 x.2.2) s

/-- A corrected error of a unit is counted over the window. -/
def State.countError (s : State) (cls die unit : Nat) : State :=
  ({ s with errorTimes := s.errorsWithin ++ [(cls, die, unit, s.fabric)] } : State).judgeUnit cls die unit

/-! ## ERROR_DETECTED (R388 to R390) -/

/-- An uncorrectable error of a lane register, or with a number from 128 on of a group register. -/
def State.poisonRegister (s : State) (key lane reg : Nat) : State :=
  match s.group? key with
  | none => s
  | some g =>
    if 128 ≤ reg then s.setGroup key { g with poisoned := g.poisoned ++ [reg - 128] }
    else match Table.find g.threads lane with
      | some t => if (Table.find t.v reg).isSome then s.setThread (key * 32 + lane) { t with poisoned := t.poisoned ++ [reg] } else s
      | none => s

/-- An uncorrectable error of a queue's entry. -/
def State.poisonQueue (s : State) (key lane q i : Nat) : State :=
  match s.thread? (key * 32 + lane) with
  | some t =>
    if i < (t.queueOf q).entries.length then
      s.setThread (key * 32 + lane) { t with poisoned := t.poisoned.filter (fun m => m ≠ markQ q i) ++ [markQ q i] }
    else s
  | none => s

/-- An uncorrectable error of a block's store buffer, barrier state or full/empty bits contains it; of a block that is committing, no
group is left to contain: the context fails, and what is left of the buffer goes (R393; log entry 34). -/
def State.blockError (s : State) (k : Nat) : State :=
  match s.block? k with
  | none => s
  | some b =>
    if s.committing k b then
      (s.failContext b.ctx { cause := 0x18, tval := 0, tepc := 0, grid := b.grid, block := b.index, die := dieOfCore b.core,
                             core := b.core % 40 }).blockGone k b.grid
    else s.stopBlock k 0x18 0 0

/-- ERROR_DETECTED: a corrected error only counts; an uncorrectable one poisons its data, or contains a block. -/
def execErrorDetected (e : ErrKind) (s : State) : Host.Outcome State Fault Refusal :=
  .next (match e with
    | .corrected cls die unit => s.countError cls die unit
    | .memory pa => { s with poison := (s.poison.filter (fun w => w ≠ pa / 8)) ++ [pa / 8] }
    | .line pa =>
      { s with poison := s.poison.filter (fun w => w / 16 ≠ pa / 128) ++ (List.range 16).map (fun i => pa / 128 * 16 + i) }
    | .queue core slot lane q i => s.poisonQueue (core * 32 + slot) lane q i
    | .register core slot lane reg => s.poisonRegister (core * 32 + slot) lane reg
    | .scratchpad grid block off =>
      (match s.block? (blockKey grid block) with
        | some b => s.setBlock (blockKey grid block) { b with spadPoison := b.spadPoison.filter (fun w => w ≠ off / 8) ++ [off / 8] }
        | none => s)
    | .blockState grid block => s.blockError (blockKey grid block)
    | .sequencer core e =>
      (match s.seqOf core e with
        | some q => (match s.group? q.group with
          | some g => s.stopBlock g.blockKey 0x18 0 q.pc
          | none => s)
        | none => s))

/-! ## CORE_WITHDRAWAL (R397) -/

/-- The contexts with groups on a core. -/
def State.contextsOn (s : State) (core : Nat) : List Nat :=
  ((s.groups.filter (fun p => decide (p.1 / 32 = core))).map (fun p => p.2.ctx)).eraseDups

/-- CORE_WITHDRAWAL: the contexts on the core are saved, the core is withdrawn from its yard, and the contexts are put back on
others, where they fit. -/
def execCoreWithdrawal (core : Nat) (s : State) : Host.Outcome State Fault Refusal :=
  let cs := s.contextsOn core
  .next (if !(s.coreOf core).inService then s
    else if cs.all (fun c => s.cutDone c && !(s.runnable c)) then
      let s := cs.foldl (fun s c => s.saveImage c .preempted) s
      let s := s.setCore core { s.coreOf core with inService := false, reserved := none }
      (cs.foldl (fun s c => s.returnPreempted c) s).lookYards
    else (cs.foldl (fun s c => s.stopContext c) s).push (.coreWithdrawal core))

/-! ## Links (R388, R372) -/

def linkClass : LinkKind → Nat
  | .dieToDie => 3
  | .ucie => 4
  | .kweusha => 5

/-- The lower die of a boundary (R10): boundaries 0 to 5 lie within the two rows, 6 to 9 between the columns (log entry 35). -/
def lowerDie (boundary : Nat) : Nat :=
  if boundary < 3 then boundary else if boundary < 6 then boundary + 1 else boundary - 6

/-- A corrected error of a link's lane (R388, R397, R425). -/
def State.linkError (s : State) (k : LinkKind) (link lane : Nat) : State :=
  s.countError (linkClass k) (if k = .dieToDie then lowerDie link else hub) (link * 16 + lane)

/-- LINK_REPLAY: a flit is sent again, which changes only timing; the replay counts as a corrected error of its lane. -/
def execLinkReplay (k : LinkKind) (link lane : Nat) (s : State) : Host.Outcome State Fault Refusal :=
  .next (s.linkError k link lane)

/-! ## The route of a request (R10, R372) -/

/-- The boundary between two neighbouring dies. -/
def boundaryOf (a b : Nat) : Nat :=
  let low := Nat.min a b
  if a / 4 = b / 4 then low / 4 * 3 + low % 4 else 6 + low

/-- The dies from one to another: along the row to the other's column first, then across the column boundary (R10). -/
def routeDies (a b : Nat) : List Nat :=
  let from_ := a % 4
  let to_ := b % 4
  let cols := if from_ ≤ to_ then (List.range (to_ - from_ + 1)).map (fun i => from_ + i) else (List.range (from_ - to_ + 1)).map (fun i => from_ - i)
  cols.map (fun c => a / 4 * 4 + c) ++ (if a / 4 = b / 4 then [] else [b])

/-- The boundaries that traffic from a die to another crosses. -/
def boundaries (a b : Nat) : List (LinkKind × Nat) :=
  let l := routeDies a b
  (l.zip l.tail).map (fun p => (.dieToDie, boundaryOf p.1 p.2))

/-- The boundaries to the hub, which attaches to dies 0 and 4: along the row to column 0. -/
def toHub (die : Nat) : List (LinkKind × Nat) := boundaries die (die / 4 * 4)

/-- The links that a request from a die to an address may cross: to its home; to the hub; from there to the host over one of the four UCIe
modules, or to a peer over one of the twelve Kweusha ports (R9, R10; which one is free, log entry 68). -/
def linksTo (die pa : Nat) : List (LinkKind × Nat) :=
  if isAperture pa then toHub die ++ (List.range 12).map (fun n => (.kweusha, n))
  else if isControl pa then toHub die
  else if isHost pa then toHub die ++ (List.range 4).map (fun n => (.ucie, n))
  else boundaries die (homeOf pa)

/-- The links that a core's request of an identifier crosses; none where the core has no such request. -/
def State.requestLinks (s : State) (core id : Nat) : List (LinkKind × Nat) :=
  let k := s.coreOf core
  let die := dieOfCore core
  let box := fun (ctx pa : Nat) (repl : Bool) => if repl then boundaries die (s.signalBox ctx) else linksTo die pa
  match k.pend.find? (fun p => decide (p.id.toNat = id)), k.pendAtomics.find? (fun p => decide (p.id.toNat = id)) with
  | some p, _ => box p.ctx p.pa p.replicated
  | none, some p => box p.ctx p.pa p.replicated
  | none, none =>
    match s.replicated.find? (fun u => decide (u.core = core) && decide (u.id.toNat = id)),
        s.peerSent.find? (fun m => decide (m.core = core) && decide (m.id.toNat = id)),
        s.reqRecords.find? (fun r => decide (r.core = core) && decide (r.id.toNat = id)) with
    | some u, _, _ => boundaries die u.sbox
    | none, some _, _ => toHub die ++ (List.range 12).map (fun n => (.kweusha, n))
    | none, none, some r => if r.home < 8 then boundaries die r.home else toHub die
    | none, none, none => []

/-- The link and the lane on which a request or its response was lost: one of those on its route, free which (log entry 68). -/
def State.lostOn (s : State) (core id : Nat) : Option (LinkKind × Nat × Nat) :=
  let l := s.requestLinks core id
  let p := Config.lostOn s.free
  (l[p.1 % l.length]?).map (fun x => (x.1, x.2, p.2.2 % 16))

/-- REQUEST_REISSUE: a request whose identifier the home has on record has been performed, and is not performed again; one that it does
not have is still to be performed (R372). Either way it counts as a corrected error of the link on which it was lost (R374). One that crosses
no link is never lost. -/
def execRequestReissue (core id : Nat) (s : State) : Host.Outcome State Fault Refusal :=
  .next (match s.lostOn core id with
    | none => s
    | some (k, link, lane) =>
      let done := s.reqRecords.any (fun r => decide (r.core = core) && decide (r.id.toNat = id))
      let s := s.tick.linkError k link lane
      if done then s else (s.pushOnce (.pocStore core)).pushOnce (.pocAtomic core))

/-! ## The loss of a peer (R398) -/

/-- The commands of the collectives whose level is bound to the system domain, which spans packages (R319, R102). -/
def State.spanning (s : State) : List CollEntry :=
  s.colls.filter (fun c => match s.grid? c.grid with
    | some g => decide (2 ≤ c.level) && decide (g.domain c.level = 6)
    | none => false)

/-- A command ends with status 4, wherever it stands. -/
def State.endFour (s : State) (c : CollEntry) : State :=
  let s := (s.setPhase c.core .coll c.num .cancelled).push (.engineCommandComplete c.core .coll)
  { s with aside := s.aside.map (fun x => if x.1 = c.core ∧ x.2.1 = .coll ∧ x.2.2.num = c.num then
      (x.1, x.2.1, { x.2.2 with phase := .cancelled }) else x) }

/-- PEER_LOSS: the outstanding requests of the lost peer are dropped, and every COLL that spans it, any of the system domain (log entry 74),
ends with status 4. -/
def execPeerLoss (_port peer : Nat) (s : State) : Host.Outcome State Fault Refusal :=
  let s := s.loosePeer peer
  .next (s.spanning.foldl State.endFour s)

/-! ## Power and bring-up (R411, R412) -/

/-- POWER_CLOCK_STEP: the arithmetic clock is lowered by 100 MHz (R411). -/
def execPowerClockStep (s : State) : Host.Outcome State Fault Refusal := .next { s with armMHz := s.armMHz - 100 }

/-- ARITHMETIC_CLOCK_RAISE: it is raised towards 3.3 GHz. -/
def execArithmeticClockRaise (s : State) : Host.Outcome State Fault Refusal :=
  .next { s with armMHz := Nat.min 3300 (s.armMHz + 100) }

/-- DEVICE_RESET: the firmware's bring-up (R412): ECC initialised, the Stacks cleared, and the ready bit set in every mailbox. -/
def execDeviceReset (s : State) : Host.Outcome State Fault Refusal :=
  let s : State := { s with poison := [] }
  .next ((List.range Config.numMailboxes).foldl (fun s n =>
    let m := s.mailboxOf n
    s.setMailbox n { m with status := m.status ||| 0x8000000000000000 }) s)

end Sys2Proof.Machine
end

