-- ==== Sys2Proof/Machine/Mapping.lean ====
section
/-!
DEFINITION. The firmware's commands as such (R402, R405, R425 to R427), page tables and the pool (R70 to R72, R404), MAP and UNMAP (R18,
R28, R29, R73, R77, R107, R403, R421), and the acknowledgements of R68 and R77.
-/
namespace Sys2Proof.Machine

/-! ## Commands (R402, R405) -/

/-- Whether an earlier command of the same context is not over (R405). -/
def State.behind (s : State) (mb : Nat) : Bool :=
  let ctx := (s.mailboxOf mb).ctx
  decide (ctx ≠ 0) && (s.doorbells.takeWhile (fun m => decide (m ≠ mb))).any (fun m => decide ((s.mailboxOf m).ctx = ctx))

/-- The mailboxes whose command is this event and waits for no acknowledgement, in doorbell order. -/
def State.commandsFor (s : State) (ev : Instr) : List Nat :=
  s.doorbells.filter (fun m => decide ((s.mailboxOf m).event = ev) && !(s.acks.any (fun a => decide (a.mb = m))))

/-- A command completes: its response, its status register and its interrupt (R401, R402, R427). -/
def State.reply (s : State) (mb status : Nat) (ws : List Nat) : State :=
  let m := s.mailboxOf mb
  let seq := bits m.doorbell 31 0
  let resp := ((List.range 7).zip (ws ++ List.replicate 7 0)).foldl (fun (t : Table Word) x => Table.put t (x.1 + 1) (word x.2) 0)
    (Table.put ([] : Table Word) 0 (word (status + seq * 2 ^ 32)) 0)
  let st := (m.status &&& 0xFFFFFFFE00000000) ||| word seq
  ({ s with doorbells := s.doorbells.filter (fun n => n ≠ mb) }.setMailbox mb { m with status := st, resp := resp }).interrupt mb hub m.ctx

/-- The bits of command word 0 other than the code and the context are zero (R402). -/
def Mailbox.formed (m : Mailbox) : Bool := decide (m.w 0 &&& 0xFFFFFFFF0000FF00 = 0)

/-- The meaning of a command: the first mailbox that carries it acts, one that stands behind another command of its context waits; a
command word with a reserved bit set is malformed (R402, R405). -/
def command (ev : Instr) (s : State) (f : Nat → Mailbox → State → State) : Host.Outcome State Fault Refusal :=
  .next (match s.commandsFor ev with
    | [] => s
    | m :: rest =>
      match (m :: rest).find? (fun n => !(s.behind n)) with
      | some n => if (s.mailboxOf n).formed then f n (s.mailboxOf n) s else s.reply n 1 []
      | none => s.push ev)

/-- A command that names a context in a state in which it may act: status 2 where there is none (R405). -/
def withContext (mb : Nat) (m : Mailbox) (ok : Context → Bool) (s : State) (f : Context → State) : State :=
  match s.context? m.ctx with
  | some c => if m.ctx = 0 ∨ !(ok c) then s.reply mb 2 [] else f c
  | none => s.reply mb 2 []

def Mailbox.n (m : Mailbox) (i : Nat) : Nat := (m.w i).toNat

def Context.usable (c : Context) : Bool := decide (c.phase ≠ .ending)

/-! ## Acknowledgements (R68, R77) -/

/-- The number of a die's walker among those that acknowledge; a core has its own. -/
def walkerOf (die : Nat) : Nat := Config.numCores + die

/-- The command waits until every core that runs the context has acknowledged. For a translation every die's walker comes first, so that no
core fills an entry from before (R68, R77); `spans` are the ranges of virtual addresses changed. -/
def State.startAcks (s : State) (mb ctx key : Nat) (spans : List (Nat × Nat)) (isBounds : Bool) (w1 : Nat) : State :=
  let first := if isBounds then s.coresOf ctx else (List.range 8).map walkerOf
  if first.isEmpty then s.reply mb 0 [w1]
  else { s with acks := s.acks ++ [AckWait.mk mb ctx key spans isBounds first w1] }.push (if isBounds then .boundsInvalidationAck else .shootdownAck)

def apart (a n b k : Nat) : Bool := decide (a + n ≤ b) || decide (b + k ≤ a)

/-- Whether a range of a pointer was checked under the entry that a command changed. -/
def AckWait.covers (a : AckWait) (p : Word) (va n : Nat) : Bool :=
  if a.isBounds then decide (tagOf p = a.key) else a.spans.any (fun r => !(apart va n r.1 r.2))

/-- Whether an access that has passed its check under the entry still waits in a core: at its thread's word, as a SEMW on its semaphore, or in a
restartable block's buffer (R252, R392). -/
def State.passedWaits (s : State) (core : Nat) (a : AckWait) : Bool :=
  s.waiting core a.ctx (fun x => if a.isBounds then decide (tagOf x.ptr = a.key) else x.xs.any (fun y => a.covers x.ptr y.va y.n)) ||
    s.semWaits.any (fun w => match w.who with
      | .thread t => decide (coreOfThread t = core) && (match s.group? (t / 32) with | some g => decide (g.ctx = a.ctx) | none => false) &&
          a.covers w.ptr (vaOf w.ptr) 8
      | _ => false) ||
    s.blocks.any (fun p => decide (p.2.core = core) && decide (p.2.ctx = a.ctx) && p.2.store.any (fun x => a.covers x.ptr (vaOf x.ptr) x.range.2))

/-- Whether a core has performed every access that it checked under an entry; of those that are on their way it waits for all of the context's,
its replicated updates and its accesses to peers included (log entry 39). A walker has none. -/
def State.performedAll (s : State) (core : Nat) (a : AckWait) : Bool :=
  let k := s.coreOf core
  !(k.pend.any (fun p => decide (p.ctx = a.ctx))) && !(k.pendAtomics.any (fun p => decide (p.ctx = a.ctx))) &&
    !(s.replicated.any (fun u => decide (u.core = core))) && !(s.peerSent.any (fun m => decide (m.core = core))) && !(s.passedWaits core a)

/-- What a core drops when it acknowledges: the tag's bounds entry, or its translations; what a walker drops: its entries of the context. -/
def State.dropFor (s : State) (core : Nat) (a : AckWait) : State :=
  let k := s.coreOf core
  if Config.numCores ≤ core then
    let d := s.dieOf (core - Config.numCores)
    s.setDie (core - Config.numCores) { d with walker := d.walker.filter (fun e => e.ctx ≠ a.ctx) }
  else if a.isBounds then s.setCore core { k with bounds := k.bounds.filter (fun b => !(decide (b.ctx = a.ctx) && decide (b.tag = a.key))) }
  else s.setCore core { k with tlb := k.tlb.filter (fun t => t.ctx ≠ a.ctx) }

/-- The first outstanding core or walker of the first waiting command acknowledges, once its accesses are performed. After the last walker come
the cores that run the context then. -/
def State.acknowledge (s : State) (isBounds : Bool) (ev : Instr) : State :=
  match s.acks.find? (fun a => decide (a.isBounds = isBounds)) with
  | none => s
  | some a =>
    match a.cores with
    | [] => ({ s with acks := removeFirst (fun b => decide (b = a)) s.acks } : State).reply a.mb 0 [a.w1]
    | c :: rest =>
      if !(s.performedAll c a) then s.push ev
      else
        let s := s.dropFor c a
        let rest := if rest.isEmpty ∧ Config.numCores ≤ c then s.coresOf a.ctx else rest
        let left := removeFirst (fun b => decide (b = a)) s.acks
        if rest.isEmpty then ({ s with acks := left } : State).reply a.mb 0 [a.w1]
        else ({ s with acks := { a with cores := rest } :: left } : State).push ev

/-- BOUNDS_INVALIDATION_ACK (R68). -/
def execBoundsInvalidationAck (s : State) : Host.Outcome State Fault Refusal := .next (s.acknowledge true .boundsInvalidationAck)
/-- SHOOTDOWN_ACK (R77). -/
def execShootdownAck (s : State) : Host.Outcome State Fault Refusal := .next (s.acknowledge false .shootdownAck)

/-! ## Page tables and the pool (R70 to R72, R404) -/

def alignUp (a n : Nat) : Nat := (a + n - 1) / n * n

/-- Memory without its bytes in a range: they read as zero. -/
def Memory.clear (m : Memory) (a n : Nat) : Memory := m.filter (fun c => !(decide (a ≤ c.1) && decide (c.1 < a + n)))

def Context.poolBase (c : Context) : Nat := rootAt c.area

/-- The end of what the pool can give for tables: above it lie 32 KiB for each group on the cores (R120, R404). -/
def State.poolEnd (s : State) (ctx : Nat) (c : Context) : Nat :=
  c.area + c.areaSize - 32768 * (s.groups.filter (fun p => decide (p.2.ctx = ctx))).length

/-- Take a table of a size from the pool, zeroed, at the lowest free place. -/
def State.allocTable (s : State) (ctx size : Nat) : Option (State × Nat) :=
  match s.context? ctx with
  | none => none
  | some c =>
    let fits := fun (a : Nat) => decide (a + size ≤ s.poolEnd ctx c) && c.tables.all (fun t => apart a size t.1 t.2)
    match (((c.poolBase :: c.tables.map (fun t => t.1 + t.2)).map (fun a => alignUp a size)).filter fits).min? with
    | none => none
    | some a =>
      let s := s.setContext ctx { c with tables := c.tables ++ [(a, size)] }
      some ({ s with mem := Memory.clear s.mem a size }, a)

def State.freeTable (s : State) (ctx base : Nat) : State :=
  match s.context? ctx with
  | none => s
  | some c => s.setContext ctx { c with tables := c.tables.filter (fun t => t.1 ≠ base) }

def State.entry (s : State) (a : Nat) : Word := word (Memory.read s.mem a 8)
def State.putEntry (s : State) (a v : Nat) : State := { s with mem := Memory.write s.mem a 8 v }
/-- The table that an entry points to (R71). -/
def tableOf (e : Word) : Nat := bits e 51 15 * 32768

def slot2 (c : Context) (va : Nat) : Nat := rootAt c.area + 8 * (va / 2 ^ 41 % 8192)
def slot1 (t va : Nat) : Nat := t + 8 * (va / 2 ^ 28 % 8192)
def slot0 (t va : Nat) : Nat := t + 8 * (va / 2 ^ 16 % 4096)

/-- The level-1 table of an address, made if there is none. -/
def State.table1 (s : State) (ctx va : Nat) : Option (State × Nat) :=
  match s.context? ctx with
  | none => none
  | some c =>
    let e := s.entry (slot2 c va)
    if bit e 0 then some (s, tableOf e)
    else match s.allocTable ctx 65536 with
      | none => none
      | some (s, t) => some (s.putEntry (slot2 c va) (t + 1), t)

/-- A level-0 table whose 4,096 leaves map what a 256 MiB leaf maps, with the same bits (R421). -/
def State.fillSplit (s : State) (t : Nat) (e : Word) : State :=
  { s with mem := (List.range 4096).foldl (fun m i => Memory.write m (t + 8 * i) 8 (e.toNat + 65536 * i)) s.mem }

/-- The level-0 table of an address, made if there is none; a 256 MiB leaf is split. -/
def State.table0 (s : State) (ctx va : Nat) : Option (State × Nat) :=
  match s.table1 ctx va with
  | none => none
  | some (s, t1) =>
    let e := s.entry (slot1 t1 va)
    if bit e 0 && !(bit e 1) then some (s, tableOf e)
    else match s.allocTable ctx 32768 with
      | none => none
      | some (s, t) =>
        let s := if bit e 0 then s.fillSplit t e else s
        some (s.putEntry (slot1 t1 va) (t + 1), t)

/-- Write one leaf. A 256 MiB leaf over a level-0 table replaces the table and frees it (R421). -/
def State.putLeaf (s : State) (ctx va leaf : Nat) (big : Bool) : Option State :=
  if big then
    match s.table1 ctx va with
    | none => none
    | some (s, t1) =>
      let e := s.entry (slot1 t1 va)
      let s := if bit e 0 && !(bit e 1) then s.freeTable ctx (tableOf e) else s
      some (s.putEntry (slot1 t1 va) leaf)
  else
    match s.table0 ctx va with
    | none => none
    | some (s, t0) => some (s.putEntry (slot0 t0 va) leaf)

/-- Write a run of leaves, each with the next page or frame. -/
def State.putLeaves (s : State) (ctx va leaf inc : Nat) (big : Bool) : Nat → Option State
  | 0 => some s
  | n + 1 =>
    match s.putLeaf ctx va leaf big with
    | none => none
    | some s => s.putLeaves ctx (va + (if big then 2 ^ 28 else 65536)) (leaf + inc) inc big n

/-- Clear the entries of a run of 64 KiB pages; a 256 MiB leaf that the run does not cover is split first (R421). -/
def State.clearLeaves (s : State) (ctx va : Nat) : Nat → Option State
  | 0 => some s
  | n + 1 =>
    match s.context? ctx with
    | none => none
    | some c =>
      let e2 := s.entry (slot2 c va)
      let t1 := tableOf e2
      let e1 := s.entry (slot1 t1 va)
      if !(bit e2 0) || !(bit e1 0) then s.clearLeaves ctx (va + 65536) n
      else if bit e1 1 && decide (va % 2 ^ 28 = 0) && decide (4096 ≤ n + 1) then
        (s.putEntry (slot1 t1 va) 0).clearLeaves ctx (va + 65536) n
      else match s.table0 ctx va with
        | none => none
        | some (s, t0) => (s.putEntry (slot0 t0 va) 0).clearLeaves ctx (va + 65536) n

/-! ## What is mapped (R28, R29, R34) -/

/-- A mapped physical range, and whether its leaf is replicated. -/
structure Frame where
  pa : Nat
  n : Nat
  repl : Bool
  deriving DecidableEq, Repr

/-- The valid leaves in the tables of a context, and whether each maps 256 MiB. -/
def State.leavesOf (s : State) (c : Context) : List (Word × Bool) :=
  s.mem.filterMap (fun (x : Host.Cell) =>
    if x.1 % 8 = 0 ∧ bit (s.entry x.1) 0 then
      match c.tables.find? (fun t => decide (t.1 ≤ x.1) && decide (x.1 < t.1 + t.2)) with
      | none => none
      | some t =>
        if t.2 = 32768 then some (s.entry x.1, false)
        else if t.1 ≠ c.poolBase ∧ bit (s.entry x.1) 1 then some (s.entry x.1, true)
        else none
    else none)

/-- What a leaf maps: an edition leaf, its page in both backings. -/
def State.leafFrames (s : State) (ctx : Nat) (x : Word × Bool) : List Frame :=
  if leafE x.1 then
    match s.desc? ctx (leafBuf x.1) with
    | none => []
    | some d => [⟨d.back0 + leafPage x.1 * 65536, 65536, false⟩, ⟨d.back1 + leafPage x.1 * 65536, 65536, false⟩]
  else [⟨bits x.1 51 16 * 65536, if x.2 then 2 ^ 28 else 65536, leafRepl x.1⟩]

def State.framesOf (s : State) (ctx : Nat) : List Frame :=
  match s.context? ctx with
  | none => []
  | some c => (s.leavesOf c).flatMap (s.leafFrames ctx)

def State.mappedFrames (s : State) : List Frame := s.contexts.flatMap (fun p => s.framesOf p.1)

/-- The backings of every context's edition buffers (R107). -/
def State.backings (s : State) : List Frame :=
  s.contexts.flatMap (fun p => (List.range 4096).flatMap (fun b => match s.desc? p.1 b with
    | none => []
    | some d => [⟨d.back0, d.pages * 65536, false⟩, ⟨d.back1, d.pages * 65536, false⟩]))

/-- Whether two ranges share a frame; a replicated page has a copy on every die, at one die offset (R29). -/
def Frame.meets (a b : Frame) : Bool :=
  if a.repl || b.repl then isDevice a.pa && isDevice b.pa && !(apart (a.pa % 2 ^ 35) a.n (b.pa % 2 ^ 35) b.n)
  else !(apart a.pa a.n b.pa b.n)

/-- A range of frames that lies in no context-memory area (R404). -/
def State.outsideAreas (s : State) (pa n : Nat) : Bool := s.contexts.all (fun p => apart pa n p.2.area p.2.areaSize)

/-- The refusals of R18, R28, R29, R404 and R410 for a run of frames under a leaf. R29 does not say when a frame is in use: for a
replicated mapping the model counts mappings that are not replicated, context areas and the backings of edition buffers, not launch
rings or image buffers, and takes a further replicated mapping of the same frames (log entry 64). -/
def State.framesRefused (s : State) (pa n : Nat) (leaf : Word) : Bool :=
  let pol := leafPolicy leaf
  let here : Frame := ⟨pa, n, leafRepl leaf⟩
  let control := isControl pa && isControl (pa + n - 1)
  let host := isHost pa && isHost (pa + n - 1)
  !(s.populatedRange pa n || control || host) || !(s.outsideAreas pa n) || (control && decide (pol ≠ polUncached)) ||
    (host && decide (pol < polUncached)) ||
    (control && isAperture (pa + n - 1) && !(bit leaf 2 && bit leaf 3)) ||
    (leafRepl leaf && !(isDevice pa && (List.range 8).all (fun d => s.populatedRange (replPa (pa % 2 ^ 35) d) n && s.outsideAreas (replPa (pa % 2 ^ 35) d) n))) ||
    s.mappedFrames.any (fun f => here.meets f && decide (f.repl ≠ here.repl)) ||
    (leafRepl leaf && s.backings.any here.meets)

/-- Whether a context maps the page of a device address host-coherent (R26, R401). -/
def State.hostCoherent (s : State) (pa : Nat) : Bool :=
  s.contexts.any (fun p => (s.leavesOf p.2).any (fun x =>
    !(leafE x.1) && decide (leafPolicy x.1 = 3) && (s.leafFrames p.1 x).any (fun f => f.meets ⟨pa, 1, false⟩)))

/-- HOST_ACCESS: the host's uncached reads and writes of device memory and control space, and the sectors it caches under
the mem protocol, of pages that are mapped host-coherent; of any other page it gets the bytes uncached (R401, R45). Host memory it takes back from the agent, sector by sector, with what the Annexes had modified. -/
def execHostAccess (op : HostOp) (s : State) : Host.Outcome State Fault Refusal :=
  let retry := fun (r : State × Bool) => if r.2 then r.1.unqueue .host else r.1.push (.hostAccess op)
  .next (match op with
    | .read pa n => if s.populatedRange pa n then retry (s.hostLoad pa (chunks pa n)) else s
    | .write pa n v =>
      if isControl pa then s.regWrite pa n v true
      else if s.populatedRange pa n then retry (s.hostStore pa v (chunks pa n)) else s
    | .own pa =>
      if isHost pa then
        let s := s.homeTake (lineOf pa)
        { s with hostHeld := s.hostHeld.filter (fun x => x ≠ sectorOf pa) }
      else if !(s.populated pa) then s
      else if !(s.hostCoherent pa) then retry (s.hostLoad (pa / 64 * 64) (chunks (pa / 64 * 64) 64))
      else
        retry (match s.gate .host none 0 pa 1 false true true with
          | (s, false) => (s, false)
          | (s, true) =>
            let s := s.homeTake (lineOf pa)
            let data := BitVec.ofNat 512 (LineData.read (s.homeLine (lineOf pa)) (pa / 64 * 64 % 128) 64)
            ({ s with hostSectors := Table.set s.hostSectors (sectorOf pa) ⟨data, 0, false⟩ }, true))
    | .modify pa n v =>
      (match Table.find s.hostSectors (sectorOf pa) with
        | none => s
        | some _ =>
          let s := s.homeTake (lineOf pa)
          (match Table.find s.hostSectors (sectorOf pa) with
            | none => s
            | some x =>
              let n := Nat.min n (64 - pa % 64)
              let x' := { x with data := BitVec.ofNat 512 (spliceBytes x.data.toNat (pa % 64) n v),
                                 dirty := x.dirty ||| BitVec.ofNat 64 ((2 ^ n - 1) * 2 ^ (pa % 64)) }
              { s with hostSectors := Table.set s.hostSectors (sectorOf pa) x' })))

/-! ## MAP and UNMAP (R421) -/

/-- The operands of MAP's page function. -/
def mapPageOk (w1 va frame leaf count : Nat) : Bool :=
  let unit := if w1 / 512 % 2 = 1 then 2 ^ 28 else 65536
  decide (w1 % 512 = 0) && decide (w1 / 1024 % 2 ^ 44 = 0) && decide (va % unit = 0) && decide (frame % unit = 0) && decide (1 ≤ count) &&
    decide (va + count * unit ≤ 2 ^ 54) && decide (frame + count * unit ≤ 2 ^ 52) && decide (leaf / 256 % 2 ^ 46 = 0) &&
    !(decide (leaf / 8 % 4 = 3))

/-- MAP, page function (R421). -/
def execMapPage (s : State) : Host.Outcome State Fault Refusal :=
  command .mapPage s (fun mb m s => withContext mb m Context.usable s (fun c =>
    let big : Bool := bit (m.w 1) 9
    let n := m.n 5 * (if big then 2 ^ 28 else 65536)
    let leaf := m.n 4 / 4 * 4 + m.n 3 + 3
    if !(mapPageOk (m.n 1) (m.n 2) (m.n 3) (m.n 4) (m.n 5)) || s.framesRefused (m.n 3) n (m.w 4) then s.reply mb 1 []
    else if isControl (m.n 3) && decide (m.n 3 < 0x4080000000) && !c.service then s.reply mb 2 []
    else match s.putLeaves m.ctx (m.n 2) leaf (if big then 2 ^ 28 else 65536) big (m.n 5) with
      | none => s.reply mb 3 []
      | some s => s.startAcks mb m.ctx 0 [(m.n 2, n)] false 0))

/-- Physical memory that nothing has written since: its bytes read zero everywhere (R107, R404). -/
def State.clearRange (s : State) (pa n : Nat) : State :=
  let inside := fun (a : Nat) => decide (pa ≤ a) && decide (a < pa + n)
  { s with mem := Memory.clear s.mem pa n, poison := s.poison.filter (fun w => !(inside (8 * w))),
           hostSectors := s.hostSectors.filter (fun p => !(inside (64 * p.1))),
           cores := s.cores.map (fun (p : Nat × Core) => (p.1, { p.2 with l1 := p.2.l1.filter (fun q => !(inside (128 * q.1))) })),
           dies := s.dies.map (fun (p : Nat × Die) => (p.1, { p.2 with annex := p.2.annex.filter (fun q => !(inside (128 * q.1))) })) }

/-- The leaf of a view (R421): the page number and the buffer's index, cached and not replicated. -/
def viewLeaf (owner buf : Nat) (code author : Bool) : Nat :=
  owner * 2 ^ 54 + buf * 65536 + (if author then 0x30F else if code then 0x117 else 0x10F)

/-- The operands of MAP's edition function. -/
def mapEditionOk (m : Mailbox) : Bool :=
  let n := m.n 5 * 65536
  decide (m.n 1 % 256 = 1) && !(bit (m.w 1) 9) && decide (m.n 1 / 1024 % 2 ^ 44 = 0) && decide (m.n 2 ≤ 4095) && decide (1 ≤ m.n 5) &&
    decide (m.n 5 ≤ 16384) && [3, 4].all (fun i => decide (m.n i % 65536 = 0) && decide (m.n i + n ≤ 2 ^ 54))

/-- The backings of a new buffer (R18, R28, R107, R404). -/
def State.backingsOk (s : State) (m : Mailbox) : Bool :=
  let n := m.n 5 * 65536
  [6, 7].all (fun i => decide (m.n i % 65536 = 0) && s.populatedRange (m.n i) n && s.outsideAreas (m.n i) n &&
    !(s.mappedFrames.any (fun f => f.repl && f.meets ⟨m.n i, n, false⟩))) && apart (m.n 6) n (m.n 7) n

/-- Map the views that w3 and w4 name. -/
def State.mapViews (s : State) (m : Mailbox) (pub : Bool) : Option State :=
  let owner := bits (m.w 1) 63 54
  let code := bit (m.w 1) 8
  let one := fun (s : State) (va : Nat) (author : Bool) => s.putLeaves m.ctx va (viewLeaf owner (m.n 2) code author) (2 ^ 28) false (m.n 5)
  match (if pub then one s (m.n 3) false else some s) with
  | none => none
  | some s => if m.n 4 = 0 then some s else one s (m.n 4) true

/-- The ranges of the views that w3 and w4 name. -/
def Mailbox.viewSpans (m : Mailbox) : List (Nat × Nat) := (m.n 3, m.n 5 * 65536) :: (if m.n 4 = 0 then [] else [(m.n 4, m.n 5 * 65536)])

/-- MAP, edition function (R107, R421). -/
def execMapEdition (s : State) : Host.Outcome State Fault Refusal :=
  command .mapEdition s (fun mb m s => withContext mb m Context.usable s (fun _ =>
    let code : Bool := bit (m.w 1) 8
    if !(mapEditionOk m) then s.reply mb 1 []
    else match s.desc? m.ctx (m.n 2) with
      | some d =>
        if m.n 5 ≠ d.pages ∨ m.n 6 ≠ 0 ∨ m.n 7 ≠ 0 ∨ code ≠ d.code then s.reply mb 1 []
        else (match s.mapViews m (decide (m.n 3 ≠ 0)) with
          | none => s.reply mb 3 []
          | some s => s.startAcks mb m.ctx 0 m.viewSpans false 0)
      | none =>
        if !(s.backingsOk m) then s.reply mb 1 []
        else match s.mapViews m true with
          | none => s.reply mb 3 []
          | some s =>
            let n := m.n 5 * 65536
            let s := (s.clearRange (m.n 6) n).clearRange (m.n 7) n
            let s := s.setDesc m.ctx (m.n 2) { back0 := m.n 6, back1 := m.n 7, pages := m.n 5, num := 1, pins0 := 0, pins1 := 0, cur := 0,
                                               retracted := false, code := code, withdrawn := 0 }
            s.startAcks mb m.ctx 0 m.viewSpans false 0))

/-- UNMAP (R77, R421). -/
def execUnmap (s : State) : Host.Outcome State Fault Refusal :=
  command .unmap s (fun mb m s => withContext mb m Context.usable s (fun _ =>
    if m.n 2 % 65536 ≠ 0 ∨ 2 ^ 54 < m.n 2 + m.n 3 * 65536 then s.reply mb 1 []
    else match s.clearLeaves m.ctx (m.n 2) (m.n 3) with
      | none => s.reply mb 3 []
      | some s => s.startAcks mb m.ctx 0 [(m.n 2, m.n 3 * 65536)] false 0))

end Sys2Proof.Machine
end

