-- ==== Sys2Proof/Machine/Contexts.lean ====
section
/-!
DEFINITION. The firmware's commands on contexts: CREATE_CTX and DESTROY_CTX (R403, R404, R426), SET_POLICY (R406, R430), QUERY (R425),
LAUNCH, FAULT_REPLAY and FAULT_CANCEL (R369, R405, R430), MEDIA_RESET (R419), and codes that the tables do not list.
-/
namespace Sys2Proof.Machine

/-! ## CREATE_CTX (R403, R404, R426) -/

/-- The lowest number from n on that sorted numbers leave free. -/
def lowestFree : List Nat → Nat → Nat
  | [], n => n
  | k :: rest, n => if k = n then lowestFree rest (n + 1) else if k < n then lowestFree rest n else n

/-- A context as CREATE_CTX makes it. -/
def Context.new (isProtected service : Bool) (area size : Nat) (key : Option (BitVec 256)) : Context :=
  { isProtected := isProtected, service := service, failure := none, phase := .running, restoredAt := none, area := area, areaSize := size,
    tables := [(rootAt area, 65536)], tvec := 0, svec := 0, signalBox := 0, codePolicy := 0, keys := [], chain := 0, events := [], omitted := 0,
    aesKey := key, counter := 0, imageSize := 0, queues := [], faults := [], withdrawn := [], loaded := [] }

/-- Whether a context maps, or an edition buffer has, a frame of a range. -/
def State.inUse (s : State) (pa n : Nat) : Bool := (s.mappedFrames ++ s.backings).any (fun f => f.meets ⟨pa, n, false⟩)

/-- CREATE_CTX. The area's tables start empty. No context may map an area (R64, R70, R404): one over frames that a context maps is refused
as one that overlaps an area (log entry 69). -/
def execCreateCtx (s : State) : Host.Outcome State Fault Refusal :=
  command .createCtx s (fun mb m s =>
    let n := lowestFree (s.contexts.map (fun p => p.1)) 1
    if m.n 1 / 4 ≠ 0 then s.reply mb 1 []
    else if bit (m.w 1) 1 && !m.fromHost then s.reply mb 2 []
    else if m.n 3 < 0x4000000 then s.reply mb 3 []
    else if m.n 2 % 65536 ≠ 0 ∨ m.n 3 % 65536 ≠ 0 ∨ !(s.populatedRange (m.n 2) (m.n 3)) ∨ !(s.outsideAreas (m.n 2) (m.n 3)) ∨
        s.inUse (m.n 2) (m.n 3) then s.reply mb 1 []
    else if 65535 < n then s.reply mb 3 []
    else
      let key := if bit (m.w 1) 0 then some (Config.contextKey s.free) else none
      let c := Context.new (bit (m.w 1) 0) (bit (m.w 1) 1) (m.n 2) (m.n 3) key
      ((s.tick.clearRange (m.n 2) (m.n 3)).setContext n c).reply mb 0 [n])

/-! ## DESTROY_CTX (R426) -/

/-- Commands of a context that is being destroyed, which stopped on a fault, wait for participants that no longer run, or wait for a row that no
group will filter, end (log entry 39). The others complete (R391, R426). -/
def State.endCommands (s : State) (ctx : Nat) : State :=
  let s := s.cores.foldl (fun s p => engines.foldl (fun s e => (p.2.engine e).queue.foldl (fun s c =>
    if c.ctx = ctx ∧ (c.phase = .faulted ∨ (c.phase = .collWait ∧ !(s.collAlive p.1 c.num))) then
      (s.setPhase p.1 e c.num .cancelled).push (.engineCommandComplete p.1 e)
    else s) s) s) s
  s.media.foldl (fun s p => match p.2.queue with
    | c :: _ =>
      if c.ctx = ctx ∧ (c.phase = .faulted ∨ c.phase = .filtered) then
        s.cancelMedia p.1 c
      else s
    | [] => s) s

/-- Step 1: nothing more is admitted, running blocks are contained, but for those that are committing (R393), and a saved context's blocks
are discarded. -/
def State.beginDestroy (s : State) (ctx : Nat) (c : Context) : State :=
  let s := s.setContext ctx { c with phase := .ending }
  let s : State := { s with
    grids := s.grids.map (fun (p : Nat × Grid) => if p.2.ctx = ctx then (p.1, { p.2 with pendingBlocks := [], relaunch := [] }) else p),
    seqWaits := s.seqWaits.filter (fun w => w.2.2.ctx ≠ ctx) }
  let s := (s.blocks.filter (fun p => decide (p.2.ctx = ctx))).foldl (fun s p => s.stopBlock p.1 0 0 0) s
  (s.grids.filter (fun p => decide (p.2.ctx = ctx))).foldl (fun s p => s.pushOnce (.gridEnd p.1)) ((s.putBack ctx).endCommands ctx)

/-- Whether anything of a context still runs. -/
def State.stillRuns (s : State) (ctx : Nat) : Bool :=
  s.blocks.any (fun p => decide (p.2.ctx = ctx)) || s.groups.any (fun p => decide (p.2.ctx = ctx)) ||
    s.grids.any (fun p => decide (p.2.ctx = ctx)) ||
    s.cores.any (fun p => engines.any (fun e => (p.2.engine e).queue.any (fun c => decide (c.ctx = ctx))) ||
      p.2.pend.any (fun q => decide (q.ctx = ctx)) || p.2.pendAtomics.any (fun q => decide (q.ctx = ctx))) ||
    s.media.any (fun p => p.2.queue.any (fun c => decide (c.ctx = ctx)))

/-- Step 2: the first packet that waits in a queue ends with status 4. -/
def State.endPacket (s : State) (ctx : Nat) (q : Nat) (lq : LaunchQueue) (seq : Nat) : State :=
  match s.yardRead ctx (physParts (lq.slot seq) 64 0) with
  | (s, none) => s
  | (s, some p) =>
    match s.complete? ctx (word (field p 24 8)) 4 0 with
    | (s, false) => s
    | (s, true) => s.setQueue ctx q { lq with waiting := lq.waiting.drop 1 }

def Context.packet? (c : Context) : Option (Nat × LaunchQueue × Nat) :=
  firstSome (c.queues.map (fun q => match q.2.waiting with
    | seq :: _ => some (q.1, q.2, seq)
    | [] => none))

/-- A tenure ends with its context: what the core's L1 keeps under it, dirty lines included, is dropped (R61). -/
def State.endTile (s : State) (t : Tile) : State :=
  t.holders.foldl (fun s h => if h.core < Config.numCores then (s.l1Lines h.core t).foldl (fun s line => s.dropL1 h.core line) s else s) s

/-- The tenures of a context end, and every descriptor index that it was the last to use is free, one that it freed itself or that was
retired too (R51, R61); what waited for them is looked at. -/
def State.endTiles (s : State) (ctx : Nat) : State :=
  let s := s.dies.foldl (fun s p => (p.2.tiles.filter (fun q => decide (q.2.ctx = ctx))).foldl (fun s q => s.endTile q.2) s) s
  let s : State := { s with dies := s.dies.map (fun (p : Nat × Die) => (p.1, { p.2 with
    tiles := p.2.tiles.map (fun (q : Nat × Tile) => if q.2.ctx = ctx then (q.1, q.2.outlive) else q),
    walker := p.2.walker.filter (fun e => e.ctx ≠ ctx) })) }
  s.dies.foldl (fun s p => s.wakeTiles p.1) s

/-- Steps 3 and 4: tenures end, descriptor indexes are freed and pins released; then the context is gone, and with its key the images that it
protects (R383). -/
def State.eraseContext (s : State) (ctx : Nat) : State :=
  let s := (s.dropCached ctx).endTiles ctx
  { s with
    pins := s.pins.filter (fun p => p.ctx ≠ ctx), sidings := s.sidings.filter (fun p => p.1 / 1024 ≠ ctx),
    deferred := s.deferred.filter (fun d => d.siding / 1024 ≠ ctx), publications := s.publications.filter (fun p => p.ctx ≠ ctx),
    commits := s.commits.filter (fun p => p.1 ≠ ctx), images := s.images.map (fun (m : Image) => if m.ctx = ctx then { m with erased := true } else m),
    contexts := Table.erase s.contexts ctx, timed := s.timed.filter (fun p => p.1.ctx ≠ ctx) }

/-- DESTROY_CTX: the steps of R426 in their order; the command completes when all are done. -/
def execDestroyCtx (s : State) : Host.Outcome State Fault Refusal :=
  command .destroyCtx s (fun mb m s => withContext mb m (fun _ => true) s (fun c =>
    if c.phase ≠ .ending then (s.beginDestroy m.ctx c).push .destroyCtx
    else if s.stillRuns m.ctx then (s.endCommands m.ctx).push .destroyCtx
    else match c.packet? with
      | some (q, lq, seq) => (s.endPacket m.ctx q lq seq).push .destroyCtx
      | none => ((s.eraseContext m.ctx).lookQueues.lookYards).reply mb 0 []))

/-! ## SET_POLICY (R406, R430) -/

/-- Function 0 (R64, R65, R68, R430): the entry is rewritten, with its generation raised, and every core that runs the context
acknowledges. -/
def execSetPolicyBoundsEntry (s : State) : Host.Outcome State Fault Refusal :=
  command .setPolicyBoundsEntry s (fun mb m s => withContext mb m Context.usable s (fun c =>
    if m.n 2 = 0 ∨ 1023 < m.n 2 ∨ 2 ^ 54 ≤ m.n 3 ∨ 2 ^ 54 < m.n 4 ∨ 64 ≤ m.n 5 then s.reply mb 1 []
    else
      let at_ := boundsAt c.area (m.n 2)
      let gen := Memory.read s.mem (at_ + 20) 4
      let mem := Memory.write (Memory.write (Memory.write (Memory.write s.mem at_ 8 (m.n 3)) (at_ + 8) 8 (m.n 4)) (at_ + 16) 2 (m.n 5))
        (at_ + 20) 4 ((gen + 1) % 2 ^ 32)
      ({ s with mem := mem } : State).startAcks mb m.ctx (m.n 2) [] true 0))

/-- Function 1 (R220). -/
def execSetPolicyVectors (s : State) : Host.Outcome State Fault Refusal :=
  command .setPolicyVectors s (fun mb m s => withContext mb m Context.usable s (fun c =>
    (s.setContext m.ctx { c with tvec := m.w 2, svec := m.w 3 }).reply mb 0 []))

/-- Function 2 (R30). -/
def execSetPolicySignalBox (s : State) : Host.Outcome State Fault Refusal :=
  command .setPolicySignalBox s (fun mb m s => withContext mb m Context.usable s (fun c =>
    if 7 < m.n 2 then s.reply mb 1 [] else (s.setContext m.ctx { c with signalBox := m.n 2 }).reply mb 0 []))

/-- Function 3 (R39). -/
def execSetPolicyQuietInterval (s : State) : Host.Outcome State Fault Refusal :=
  command .setPolicyQuietInterval s (fun mb m s =>
    if 7 < m.n 2 ∨ m.n 3 < 16 ∨ 24 < m.n 3 then s.reply mb 1 []
    else (s.setDie (m.n 2) { s.dieOf (m.n 2) with quiet := m.n 3 }).reply mb 0 [])

/-- Function 4 (R351). -/
def execSetPolicyCodePublication (s : State) : Host.Outcome State Fault Refusal :=
  command .setPolicyCodePublication s (fun mb m s => withContext mb m Context.usable s (fun c =>
    if 2 < m.n 2 then s.reply mb 1 [] else (s.setContext m.ctx { c with codePolicy := m.n 2 }).reply mb 0 []))

/-- Function 5 (R327, R430): numbering goes on where it stood. -/
def execSetPolicyLaunchQueue (s : State) : Host.Outcome State Fault Refusal :=
  command .setPolicyLaunchQueue s (fun mb m s => withContext mb m Context.usable s (fun c =>
    let old : LaunchQueue := Table.getD c.queues (m.n 2) ⟨0, 0, 0, []⟩
    if 63 < m.n 2 ∨ m.n 3 % 64 ≠ 0 ∨ !(s.populatedRange (m.n 3) (Nat.max 64 (64 * m.n 4))) ∨ (m.n 4 ≠ 0 ∧ m.n 4 < 16) ∨ 65536 < m.n 4 then
      s.reply mb 1 []
    else if !old.waiting.isEmpty then s.reply mb 2 []
    else (s.setQueue m.ctx (m.n 2) { old with base := m.n 3, depth := m.n 4 }).reply mb 0 []))

/-- Memory that a command may read or write at a physical address: populated device memory, or host memory. -/
def State.memoryAt (s : State) (pa n : Nat) : Bool := s.populatedRange pa n || (isHost pa && isHost (pa + n - 1))

/-- Whether a command can read ranges of memory now: their homes have what owners, holders of tenure and the host wrote there. -/
def State.firmReady (s : State) (ctx : Nat) (l : List (Nat × Nat)) : State × Bool :=
  s.partsReady ctx (l.flatMap (fun p => physParts p.1 p.2 0))

/-- Function 6 (R407): the key's digest is installed, or the slot cleared. -/
def execSetPolicyKeySlot (s : State) : Host.Outcome State Fault Refusal :=
  command .setPolicyKeySlot s (fun mb m s => withContext mb m Context.usable s (fun c =>
    if 7 < m.n 2 then s.reply mb 1 []
    else if m.n 3 = 0 then (s.setContext m.ctx { c with keys := Table.erase c.keys (m.n 2) }).reply mb 0 []
    else if !(s.memoryAt (m.n 3) 1952) then s.reply mb 1 []
    else match s.firmReady m.ctx [(m.n 3, 1952)] with
      | (s, false) => s.push .setPolicyKeySlot
      | (s, true) =>
        (s.setContext m.ctx { c with keys := Table.set c.keys (m.n 2) (Config.shake256 (s.byteList (m.n 3) 1952)) }).reply mb 0 []))

/-- Function 7 (R396, R397): units whose counts reach the new threshold within the new window are failing. -/
def execSetPolicyErrorWindow (s : State) : Host.Outcome State Fault Refusal :=
  command .setPolicyErrorWindow s (fun mb m s =>
    if m.n 2 < 28 ∨ 36 < m.n 2 ∨ 5 < m.n 3 ∨ m.n 4 < 1 ∨ 65535 < m.n 4 then s.reply mb 1 []
    else ({ s with errorWindow := m.n 2, thresholds := Table.set s.thresholds (m.n 3) (m.n 4) } : State).judgeUnits.reply mb 0 [])

/-- Function 8 (R410). -/
def execSetPolicyPeerBase (s : State) : Host.Outcome State Fault Refusal :=
  command .setPolicyPeerBase s (fun mb m s =>
    if 255 < m.n 2 ∨ m.n 3 % 0x800000 ≠ 0 ∨ !(isDevice (m.n 3)) then s.reply mb 1 []
    else ({ s with peerBases := Table.set s.peerBases (m.n 2) (m.n 3) } : State).reply mb 0 [])

/-! ## QUERY (R425) -/

def execQueryRevision (s : State) : Host.Outcome State Fault Refusal :=
  command .queryRevision s (fun mb _ s => s.reply mb 0 [Config.revision])
def execQueryFeatures (s : State) : Host.Outcome State Fault Refusal :=
  command .queryFeatures s (fun mb _ s => s.reply mb 0 [Config.features])
def execQueryCapacity (s : State) : Host.Outcome State Fault Refusal :=
  command .queryCapacity s (fun mb _ s => s.reply mb 0 [leNat ((List.range 8).map (fun d => BitVec.ofNat 8 (s.dieOf d).capacity))])

def execQueryFailureRecord (s : State) : Host.Outcome State Fault Refusal :=
  command .queryFailureRecord s (fun mb m s => withContext mb m (fun _ => true) s (fun c =>
    match c.failure with
    | none => s.reply mb 0 []
    | some f => s.reply mb 0 [256 + f.cause, f.tval.toNat, f.tepc.toNat, f.grid, f.block, f.die, f.core]))

/-- The word that names a failing unit. -/
def unitWord (x : Nat × Nat × Nat) : Nat := x.1 + 256 * x.2.1 + 65536 * x.2.2
/-- The order of failing units: by class, die and number. -/
def unitKey (x : Nat × Nat × Nat) : Nat := x.1 * 2 ^ 40 + x.2.1 * 2 ^ 32 + x.2.2
def insertUnit (x : Nat × Nat × Nat) : List (Nat × Nat × Nat) → List (Nat × Nat × Nat)
  | [] => [x]
  | y :: l => if unitKey x ≤ unitKey y then x :: y :: l else y :: insertUnit x l
def sortUnits (l : List (Nat × Nat × Nat)) : List (Nat × Nat × Nat) := l.foldr insertUnit []

def execQueryFailingUnits (s : State) : Host.Outcome State Fault Refusal :=
  command .queryFailingUnits s (fun mb m s =>
    let cores := ((List.range Config.numCores).filter (fun c => (s.coreOf c).inService)).length
    s.reply mb 0 ((cores + s.failing.length * 2 ^ 32) :: (((sortUnits s.failing).drop (m.n 2)).take 6).map unitWord))

def execQueryIdentityKeyHash (s : State) : Host.Outcome State Fault Refusal :=
  command .queryIdentityKeyHash s (fun mb m s =>
    let d := Config.identityDigest
    if m.n 2 = 0 then s.reply mb 0 ((List.range 7).map (fun i => d / 2 ^ (64 * i) % 2 ^ 64))
    else if m.n 2 = 1 then s.reply mb 0 [d / 2 ^ 448 % 2 ^ 64]
    else s.reply mb 1 [])

def execQueryImageSize (s : State) : Host.Outcome State Fault Refusal :=
  command .queryImageSize s (fun mb m s => withContext mb m Context.usable s (fun c =>
    s.reply mb 0 [if c.phase = .saved ∨ c.phase = .preempted then c.imageSize else (s.imageOf m.ctx).size]))

/-! ## LAUNCH, FAULT_REPLAY, FAULT_CANCEL, MEDIA_RESET (R369, R405, R419, R430) -/

/-- LAUNCH: the packet is enqueued as by LAUNCH with parent 0. -/
def execLaunchCommand (s : State) : Host.Outcome State Fault Refusal :=
  command .launchCommand s (fun mb m s => withContext mb m (fun c => c.usable && c.failure.isNone) s (fun _ =>
    if 63 < m.n 1 then s.reply mb 1 []
    else match s.queue? m.ctx (m.n 1) with
      | none => s.reply mb 1 []
      | some lq =>
        if !(s.memoryAt (m.n 2) 64) then s.reply mb 1 []
        else if !lq.room then s.reply mb 3 []
        else match s.firmReady m.ctx [(m.n 2, 64)] with
          | (s, false) => s.push .launchCommand
          | (s, true) =>
            match s.enqueue .host m.ctx (m.n 1) lq (leNat (s.byteList (m.n 2) 64)) 0 with
            | (s, false) => s.push .launchCommand
            | (s, true) => (s.unqueue .host).reply mb 0 [lq.next.toNat]))

def execFaultReplay (s : State) : Host.Outcome State Fault Refusal :=
  command .faultReplay s (fun mb m s => withContext mb m Context.usable s (fun _ =>
    if 7 < m.n 1 then s.reply mb 1 [] else (s.answerReplay m.ctx (m.n 1) (m.n 2)).reply mb 0 []))

def execFaultCancel (s : State) : Host.Outcome State Fault Refusal :=
  command .faultCancel s (fun mb m s => withContext mb m Context.usable s (fun _ =>
    if 7 < m.n 1 then s.reply mb 1 [] else (s.answerCancel m.ctx (m.n 1) (m.n 2)).reply mb 0 []))

def execMediaReset (s : State) : Host.Outcome State Fault Refusal :=
  command .mediaReset s (fun mb m s =>
    if 15 < m.n 1 then s.reply mb 1 []
    else match s.resetMedia (m.n 1) 8 with
      | (s, true) => s.reply mb 0 []
      | (s, false) => s.push .mediaReset)

/-- UNKNOWN_COMMAND: a SET_POLICY function or a QUERY selector that the tables do not list is malformed; another code is unknown (R405,
R406). -/
def execUnknownCommand (s : State) : Host.Outcome State Fault Refusal :=
  command .unknownCommand s (fun mb m s => s.reply mb (if m.code = 0x0C ∨ m.code = 0x0D then 1 else 0xFF) [])

end Sys2Proof.Machine
end

