-- ==== Sys2Proof/Machine/Issue.lean ====
section
/-!
DEFINITION. Issue: selection (R338, R339, R341), the end of a YIELD interval (R216), CONV's release (R215), and what happens between an
address's selection and the execution of its word: fetch, decode traps, probe mode (R63, R192 to R195, R340, R344).
-/
namespace Sys2Proof.Machine

/-! ## Ready threads (R338) -/

/-- Whether a group's threads may issue at all: its context is on the cores, its block is not stopped, and no tenure of it is
still to be granted again (R378, R385, R391). -/
def State.mayIssue (s : State) (key : Nat) (g : Group) : Bool :=
  (match s.context? g.ctx with | some c => decide (c.phase = .running) | none => false) &&
    (match s.block? g.blockKey with | some b => b.stopped.isNone | none => false) && !(s.awaitsTenure key)

/-- Whether a group's context is stopping: only threads whose word has begun, or that have a trap to take, go on (R378). -/
def State.finishing (s : State) (key : Nat) (g : Group) : Bool :=
  (match s.context? g.ctx with | some c => decide (c.phase = .stopping) | none => false) &&
    (match s.block? g.blockKey with | some b => b.stopped.isNone | none => false) && !(s.awaitsTenure key)

def Thread.ready (t : Thread) : Bool := decide (t.status = .run) && t.yieldAt.isNone

/-- Whether a thread of a group may issue. -/
def State.goes (s : State) (key : Nat) (g : Group) (t : Thread) : Bool :=
  t.ready && (s.mayIssue key g || (s.finishing key g && (t.answer.isSome || t.cancel.isSome)))

/-- A ready thread of a lane. -/
structure Pick where
  lane : Nat
  slot : Nat
  ctx : Nat
  pc : Word
  waited : Nat
  deriving DecidableEq, Repr

/-- The groups of a lane-set, by slot within the lane-set. -/
def State.laneSetGroups (s : State) (core laneSet : Nat) : List (Nat × Group) :=
  (List.range 8).filterMap (fun k => (s.group? (core * 32 + laneSet * 8 + k)).map (fun g => (k, g)))

/-- The ready threads of a lane, by slot. -/
def State.readyIn (s : State) (core laneSet lane : Nat) : List Pick :=
  (s.laneSetGroups core laneSet).filterMap (fun p => match Table.find p.2.threads lane with
    | some t => if s.goes (core * 32 + laneSet * 8 + p.1) p.2 t then some ⟨lane, p.1, p.2.ctx, t.pc, t.waited⟩ else none
    | none => none)

/-! ## Selection (R338, R339) -/

/-- The first of several by a measure, the largest, the first on a tie. -/
def largest (f : Pick → Nat) (l : List Pick) : Option Pick := bestBy f l

/-- A lane's pick, and whether the round-robin fallback made it: the pick it had while that is ready, else a thread that has
waited 64 cycles or more leads to the next slot after rr, else the largest wait, lowest slot on a tie. -/
def pickOf (r : List Pick) (old : Option Nat) (rr : Nat) : Option (Pick × Bool) :=
  match old.bind (fun k => r.find? (fun p => decide (p.slot = k))) with
  | some p => some (p, false)
  | none =>
    if r.any (fun p => decide (64 ≤ p.waited)) then
      (bestBy (fun (p : Pick) => 8 - (p.slot + 7 - rr) % 8) r).map (fun p => (p, true))
    else (largest (fun p => p.waited) r).map (fun p => (p, false))

def Pick.at_ (p : Pick) : Nat × Word := (p.ctx, p.pc)

/-- The addresses that the lane-set decodes: that of the pick with the largest wait, lowest lane on a tie, and the one that
most other picks share, lowest address on a tie. -/
def decodedAt (ps : List Pick) : List (Nat × Word) :=
  match largest (fun p => p.waited) ps with
  | none => []
  | some f =>
    let rest := ps.filter (fun p => decide (p.at_ ≠ f.at_))
    let count := fun (p : Pick) => (rest.filter (fun q => decide (q.at_ = p.at_))).length
    match rest with
    | [] => [f.at_]
    | p :: more =>
      let best := more.foldl (fun (b : Pick) q =>
        if count b < count q ∨ (count q = count b ∧ (q.pc.toNat < b.pc.toNat ∨ (q.pc = b.pc ∧ q.ctx < b.ctx))) then q else b) p
      [f.at_, best.at_]

/-- The threads that issue: every pick at a decoded address. -/
def issuing (ps : List Pick) : List Pick := ps.filter (fun p => (decodedAt ps).contains p.at_)

/-- The issues of a cycle: one for each slot at each decoded address. -/
def issuesOf (core laneSet : Nat) (ps : List Pick) : List Issue :=
  (decodedAt ps).flatMap (fun x => (List.range 8).filterMap (fun k =>
    match ps.filter (fun p => decide (p.slot = k) && decide (p.at_ = x)) with
    | [] => none
    | p :: l => some { core := core, slot := laneSet * 8 + k, pc := p.pc, lanes := (p :: l).map (fun q => q.lane), word := 0, conv := false }))

/-- A thread after a cycle: an issued one waits no longer, a ready one that did not issue has waited one cycle more, and one in a
YIELD interval no longer waits for those of its lane that issued (R216, R339). -/
def afterCycle (iss : List Pick) (goes : Bool) (slot lane : Nat) (t : Thread) : Thread :=
  let out := iss.filter (fun p => decide (p.lane = lane))
  let t := { t with yieldAt := t.yieldAt.map (fun (y : Nat × List Nat) => (y.1, y.2.filter (fun k => !(out.any (fun p => decide (p.slot = k)))))) }
  if out.any (fun p => decide (p.slot = slot)) then { t with waited := 0 }
  else if goes then { t with waited := t.waited + 1 } else t

/-- A group at the start of an issue cycle: CSRR sees gstat as the earlier cycles left it (R195). -/
def Group.newCycle (g : Group) : Group := { g with gseen := g.gstat, gsets := 0 }

/-- ISSUE_SELECTION: one cycle of a lane-set. -/
def execIssueSelection (core laneSet : Nat) (s : State) : Host.Outcome State Fault Refusal :=
  let gs := s.laneSetGroups core laneSet
  let k := s.coreOf core
  let chosen := (List.range 32).filterMap (fun l =>
    (pickOf (s.readyIn core laneSet l) (Table.find k.picks (laneSet * 32 + l)) (Table.getD k.rr (laneSet * 32 + l) 7)))
  let ps := chosen.map (fun p => p.1)
  let out := issuing ps
  let rr := (chosen.filter (fun p => p.2)).foldl (fun (t : Table Nat) p => Table.set t (laneSet * 32 + p.1.lane) p.1.slot) k.rr
  let picks := (List.range 32).foldl (fun (t : Table Nat) l =>
    match ps.find? (fun p => decide (p.lane = l)) with
    | some p => if out.contains p then Table.erase t (laneSet * 32 + l) else Table.set t (laneSet * 32 + l) p.slot
    | none => Table.erase t (laneSet * 32 + l)) k.picks
  let s := s.setCore core { k with rr := rr, picks := picks }
  let s := gs.foldl (fun (s : State) p =>
    let key := core * 32 + laneSet * 8 + p.1
    s.setGroup key { p.2.newCycle with threads := p.2.threads.map (fun (q : Nat × Thread) =>
      (q.1, afterCycle out (s.goes key p.2 q.2) p.1 q.1 q.2)) }) s
  .next { s with issue := s.issue ++ issuesOf core laneSet ps }

/-! ## YIELD_EXPIRY and CONV_RELEASE (R215, R216) -/

/-- YIELD_EXPIRY: the interval ends when every other ready thread of the lane has issued once or is ready no more, or after 64
cycles. -/
def execYieldExpiry (core slot lane : Nat) (s : State) : Host.Outcome State Fault Refusal :=
  let tid := (core * 32 + slot) * 32 + lane
  .next (match s.thread? tid with
    | none => s
    | some t =>
      match t.yieldAt with
      | none => s
      | some (since, peers) =>
        let left := peers.filter (fun k => match s.thread? ((core * 32 + slot / 8 * 8 + k) * 32 + lane) with
          | some p => p.ready
          | none => false)
        if left.isEmpty ∨ since + 64 ≤ s.cycle then s.setThread tid { t with yieldAt := none }
        else (s.setThread tid { t with yieldAt := some (since, left) }).push (.yieldExpiry core slot lane))

/-- The live threads of a group. -/
def Group.liveThreads (g : Group) : List (Nat × Thread) := g.threads.filter (fun p => decide (p.2.status ≠ .retired))

/-- CONV_RELEASE: once every live thread waits at CONV, all of them go on together, their next word in one convergent issue, or
take trap 0x06 where they wait at different addresses. While the group may not issue, they wait on (R215). -/
def execConvRelease (core slot : Nat) (s : State) : Host.Outcome State Fault Refusal :=
  let key := core * 32 + slot
  .next (match s.group? key with
    | none => s
    | some g =>
      match g.liveThreads with
      | [] => s
      | (l, t) :: rest =>
        if !(((l, t) :: rest).all (fun p => decide (p.2.status = .wait .conv))) then s
        else if !(s.mayIssue key g) then s.push (.convRelease core slot)
        else match rest.find? (fun p => decide (p.2.pc ≠ t.pc)) with
          | some (odd, _) =>
            ((l, t) :: rest).foldl (fun s p =>
              (s.setThread (key * 32 + p.1) { p.2 with status := .run }).trap (key * 32 + p.1) ⟨0x06, word odd⟩) s
          | none =>
            let lanes := ((l, t) :: rest).map (fun p => p.1)
            let s1 := s.setGroup key { g.newCycle with threads := g.threads.map (fun (p : Nat × Thread) =>
              if lanes.contains p.1 then (p.1, { p.2 with status := .run, pc := nextPc p.2.pc, waited := 0 }) else p) }
            { s1 with issue := s1.issue ++ [⟨core, slot, nextPc t.pc, lanes, 0, true⟩] })

/-! ## From an address to its word -/

/-- Words that R225, R257 and R284 make group-collective (R340). -/
def isCollective : Instr → Bool
  | .bnmov .. => true
  | .bnset .. => true
  | .ckacc .. => true
  | .ckchk .. => true
  | .ckclr .. => true
  | .dqbp .. => true
  | .fork .. => true
  | .kadd .. => true
  | .kclr .. => true
  | .kmac .. => true
  | .krnd .. => true
  | .kscan .. => true
  | .marb .. => true
  | .mbld .. => true
  | .mbswp .. => true
  | .mdrain .. => true
  | .mma .. => true
  | .mrd .. => true
  | .mwr .. => true
  | .mzero .. => true
  | .qbp .. => true
  | .rdv .. => true
  | .tacq .. => true
  | .tdef .. => true
  | .tfree .. => true
  | .trel .. => true
  | .tsplit .. => true
  | .vote .. => true
  | _ => false

/-- Words after which a thread may stand at the same address though it has executed. -/
def mayJump : Instr → Bool
  | .bra .. => true
  | .brx .. => true
  | .call .. => true
  | .callx .. => true
  | .rtn .. => true
  | .eret .. => true
  | _ => false

/-- Threads that have executed, parked again, or come to wait: one that a replay let go on is done with it (R370), and none waits with an
access of the word any more (R68). -/
def State.settle (s : State) (i : Issue) (jumped : Bool) : State :=
  i.lanes.foldl (fun s l => match s.thread? (i.group * 32 + l) with
    | none => s
    | some t =>
      if (t.replay.isSome ∨ t.passed ≠ []) ∧ (jumped ∨ t.pc ≠ i.pc ∨ t.status ≠ .run) then
        s.setThread (i.group * 32 + l) { t with replay := none, passed := [] }
      else s) s

/-- The first issue of the list is over. -/
def State.dropIssue (s : State) (i : Issue) (jumped : Bool) : State := ({ s with issue := s.issue.drop 1 } : State).settle i jumped

/-- A word that traps at decode, in one thread; in probe mode it is a no-operation that sets PRB (R192 to R194). -/
def State.decodeTrapAt (s : State) (i : Issue) (cause : Nat) (w : Word) (l : Nat) : State := s.trap (i.group * 32 + l) ⟨cause, w⟩

/-- The lanes of an issue, each with the current region that its fetch keeps (R344). -/
def State.regionsAt (s : State) (i : Issue) (ctx : Nat) (lanes : List Nat) : List (Nat × Option RegionPin) :=
  lanes.map (fun l => (l, match s.thread? (i.group * 32 + l) with
    | some t => s.regionAt i.core ctx t.region i.pc
    | none => none))

/-- The fetches of an issue: one for all lanes with the same current region (R339), made for the first of them. -/
def State.fetches (s : State) (i : Issue) (ctx : Nat) :
    List (Nat × Option RegionPin) → List (Option RegionPin × Fetched) → State × List (Option RegionPin × Fetched)
  | [], acc => (s, acc)
  | (l, r) :: rest, acc =>
    if acc.any (fun x => decide (x.1 = r)) then s.fetches i ctx rest acc
    else
      match s.fetchWord (.thread (i.group * 32 + l)) i.core ctx r i.pc with
      | (s, .blocked) => s.fetches i ctx rest (acc ++ [(r, .blocked)])
      | (s, f) => (s.unqueue (.thread (i.group * 32 + l))).fetches i ctx rest (acc ++ [(r, f)])

/-- What the fetch of each lane comes to. -/
def State.fetchLanes (s : State) (i : Issue) (ctx : Nat) (lanes : List Nat) : State × List (Nat × Fetched) :=
  let rs := s.regionsAt i ctx lanes
  match s.fetches i ctx rs [] with
  | (s, fs) => (s, rs.map (fun p => (p.1, match fs.find? (fun x => decide (x.1 = p.2)) with
      | some x => x.2
      | none => .blocked)))

/-- A thread takes what its fetch came to: a trap or a fault at its word; a wait at a region's boundary for its next edition (R344, R346);
or its word, in the region that it entered. -/
def State.fetched (s : State) (i : Issue) (ctx : Nat) (p : Nat × Fetched) : State :=
  let tid := i.group * 32 + p.1
  let out := s.leaveAt tid i.core ctx i.pc
  match p.2 with
  | .blocked => s
  | .trap t => out.trap tid t
  | .park a leaf => out.park tid 3 a leaf
  | .await_ buf =>
    (match out.thread? tid with
      | some t => out.setThread tid { t with status := .wait (.edition buf) }
      | none => out)
  | .got _ enter => out.enterAt tid ctx enter

/-- The threads that a cancel met while their last word went on take its trap before the next (R377). -/
def State.takeCancels (s : State) (i : Issue) (lanes : List Nat) : State :=
  lanes.foldl (fun s l => match s.thread? (i.group * 32 + l) with
    | none => s
    | some t =>
      match t.cancel with
      | none => s
      | some a =>
        if t.answer.isSome || decide (t.status ≠ .run) then s
        else (s.setThread (i.group * 32 + l) { t with cancel := none }).trap (i.group * 32 + l) ⟨0x0D, a⟩) s

/-- The threads of an issue that execute the word: they still stand at it, may issue, and have no trap to take before it. -/
def State.stillAt (s : State) (i : Issue) (g : Group) : List Nat :=
  i.lanes.filter (fun l => match Table.find g.threads l with
    | some t => (g.lanesAt i.pc).contains l && s.goes i.group g t && (t.cancel.isNone || t.answer.isSome)
    | none => false)

/-- The word that a fetch got. -/
def Fetched.word? : Fetched → Option Word
  | .got w _ => some w
  | _ => none

/-- A convergent issue whose fetch has to wait: its threads stand at their CONV as if it had not released them yet, so that they still issue
the next word together (R215). -/
def State.backToConv (s : State) (i : Issue) (lanes : List Nat) : State :=
  (lanes.foldl (fun s l => match s.thread? (i.group * 32 + l) with
    | none => s
    | some t => s.setThread (i.group * 32 + l) { t with status := .wait .conv, pc := ptrAdd i.pc (-8) }) s).push (.convRelease i.core i.slot)

/-- At group issue the threads at the word that no lane had picked come to it too (R340): they fetch, and wait no longer. A thread that
fetches another edition's word there is not at this one. `false` where a fetch has to wait. -/
def State.gather (s : State) (i : Issue) (ctx : Nat) (g : Group) : State × Bool :=
  let others := (g.lanesAt i.pc).filter (fun l => !(i.lanes.contains l))
  let cancelled := others.filter (fun l => match Table.find g.threads l with
    | some t => t.cancel.isSome
    | none => false)
  match (s.takeCancels i cancelled).fetchLanes i ctx (others.filter (fun l => !(cancelled.contains l))) with
  | (s, fs) =>
    if fs.any (fun p => decide (p.2 = .blocked)) then (s, false)
    else
      let s := (fs.foldl (fun s p => s.fetched i ctx p) s).settle { i with lanes := fs.map (fun p => p.1) } false
      let more := (fs.filter (fun p => decide (p.2.word? = some i.word))).map (fun p => p.1)
      match s.group? i.group with
      | none => (s, false)
      | some g =>
        let all := (g.lanesAt i.pc).filter (fun l => i.lanes.contains l || more.contains l)
        let s := s.setGroup i.group { g with threads := g.threads.map (fun (p : Nat × Thread) =>
          if all.contains p.1 then (p.1, { p.2 with waited := 0 }) else p) }
        ({ s with issue := { i with lanes := all } :: s.issue.drop 1 }, true)

/-- Decode a fetched word: the instruction that executes, or none where it traps at decode. -/
def State.decodeFor (s : State) (i : Issue) (g : Group) : State × Option Instr :=
  let top := match s.grid? g.grid with
    | some gr => gr.top
    | none => 7
  match decodeWord top i.word with
  | .error t => ((i.lanes.foldl (fun s l => s.decodeTrapAt i t.cause.toNat i.word l) s).dropIssue i false, none)
  | .ok ins =>
    if isCollective ins then
      match s.group? i.group with
      | none => (s.dropIssue i false, none)
      | some g =>
        match s.gather i g.ctx g with
        | (s, true) => (s, some ins)
        | (s, false) => (s.dropIssue i false, none)
    else (s, some ins)

/-- Fetch and decode the first issue: the instruction that executes, or none where its threads trapped, parked, wait, or stay at
the word. Every lane takes what its fetch came to, in ascending order (R376); lanes that fetch another edition's word issue it apart. -/
def State.prepare (s : State) (i : Issue) (rest : List Issue) : State × Option Instr :=
  match s.group? i.group with
  | none => ({ s with issue := rest }, none)
  | some g =>
    let here := s.stillAt i g
    let s := s.takeCancels i i.lanes
    if here.isEmpty then ({ s with issue := rest }, none)
    else
      match s.fetchLanes i g.ctx here with
      | (s, fs) =>
        if i.conv && fs.any (fun p => decide (p.2 = .blocked)) then (({ s with issue := rest } : State).backToConv i here, none)
        else
          let s := (fs.foldl (fun s p => s.fetched i g.ctx p) s).settle { i with lanes := here } false
          match firstSome (fs.map (fun p => p.2.word?)) with
          | none => ({ s with issue := rest }, none)
          | some w =>
            let same := (fs.filter (fun p => decide (p.2.word? = some w))).map (fun p => p.1)
            let other := (fs.filter (fun p => p.2.word?.isSome && decide (p.2.word? ≠ some w))).map (fun p => p.1)
            let s := s.observeEnd (.launch g.grid g.ctx) false (dieOfCore i.core) 5
            let i := { i with lanes := same, word := w }
            let more := if other.isEmpty then rest else { i with lanes := other, word := 0, conv := false } :: rest
            ({ s with issue := i :: more } : State).decodeFor i g

/-- After a word has executed, its issue is over. -/
def State.finish (s : State) (ins : Instr) : State :=
  match s.issue with
  | [] => s
  | i :: _ => s.dropIssue i (mayJump ins)

/-! ## What comes next when nothing is being issued -/

/-- The lane-sets with a resident group, in order. -/
def State.laneSets (s : State) : List Nat := (s.groups.map (fun p => p.1 / 8)).eraseDups

/-- Each cycle, how many accesses stand in each bank queue of a core that hosts groups is a sample of source 10 (R400), under the context of
the first of them (log entry 70). -/
def State.sampleQueues (s : State) : State :=
  (s.groups.map (fun p => coreOfGroup p.1)).eraseDups.foldl (fun (s : State) core =>
    match s.groups.find? (fun p => decide (coreOfGroup p.1 = core)) with
    | none => s
    | some p =>
      if s.recording (dieOfCore core) 10 p.2.ctx then
        (List.range 64).foldl (fun s b => s.sampled (dieOfCore core) 10 (Table.getD (s.coreOf core).banks b []).length p.2.ctx) s
      else s) s

/-- One cycle has passed: every 64 the clocks advance (R80), and every 2^10 fabric cycles the references are exchanged (R88). -/
def State.passCycle (s : State) : State :=
  let s := ({ s with cycle := s.cycle + 1 } : State).sampleQueues
  let s := if s.cycle % 64 = 0 then s.push .clockSelfAdvance else s
  if s.cycle % 1536 = 0 then s.push .referenceExchange else s

/-- The lane-set whose cycle comes next: each in its turn, and a cycle has passed once all have had one. -/
def State.nextLaneSet (s : State) : State × Nat :=
  match s.laneSets.find? (fun k => decide (s.issueAt ≤ k)) with
  | some k => ({ s with issueAt := k + 1 }, k)
  | none =>
    let s := s.passCycle
    match s.laneSets with
    | [] => ({ s with issueAt := 0 }, 0)
    | k :: _ => ({ s with issueAt := k + 1 }, k)

/-- Events that come in their time, before anything else: the clocks' advance, the exchange of references and the scrubbers' visits, without
which logical time would fall behind what R88 allows. -/
def isTimely : Instr → Bool
  | .clockSelfAdvance => true
  | .referenceExchange => true
  | .pocScrub _ _ => true
  | .l1Scrub _ _ => true
  | _ => false

/-- The next lane-set's cycle. -/
def State.nextIssue (s : State) : State × Instr :=
  let (s, k) := s.nextLaneSet
  (({ s with eventRun := 0, issueRun := s.issueRun + 1 } : State), .issueSelection (k / 4) (k % 4))

/-- Whether the first pending event comes before the next cycle of a lane-set. That is free, but neither goes on for ever without the other:
after so many of one in a row the other comes, so that every thread that stays ready issues and every store is performed (R341; log
entry 3). -/
def State.eventNext (s : State) : Bool :=
  if Config.fairBound < s.eventRun then false
  else if Config.fairBound < s.issueRun then true
  else Config.eventFirst s.free

/-- What happens next when no word is being issued: an event whose time has come, the first pending event, or a lane-set's cycle. -/
def State.nextEvent (s : State) : State × Instr :=
  match s.agenda.find? isTimely, s.agenda with
  | some e, l => ({ s with agenda := l.erase e }, e)
  | none, [] => s.nextIssue
  | none, e :: rest =>
    if s.eventNext then (({ s with agenda := rest, eventRun := s.eventRun + 1, issueRun := 0 } : State).tick, e)
    else s.tick.nextIssue

/-! ## A program in place (log entry 2) -/

/-- Where the loaded word stands: the pointer of tag 1, and its physical address. -/
def loadPc : Word := ptr 1 0x1000
def loadPa : Nat := 0x10001000

/-- Page tables and a bounds entry of a context whose area starts at physical 0: tag 1 may do everything within the first 256 MiB,
which map to physical 256 MiB up, readable and executable. -/
def loadTables (m : Memory) : Memory :=
  let m := Memory.write m (boundsAt 0 1 + 8) 8 0x10000000
  let m := Memory.write m (boundsAt 0 1 + 16) 2 0x3F
  let m := Memory.write m (rootAt 0) 8 0x3A60001
  Memory.write m 0x3A60000 8 0x10000017

/-- A context with that area. -/
def loadContext : Context :=
  { isProtected := false, service := false, failure := none, phase := .running, restoredAt := none, area := 0, areaSize := 0x4000000,
    tables := [(rootAt 0, 65536), (0x3A60000, 65536)], tvec := 0, svec := 0, signalBox := 0, codePolicy := 0, keys := [], chain := 0,
    events := [], omitted := 0, aesKey := none, counter := 0, imageSize := 0, queues := [], faults := [], withdrawn := [], loaded := [] }

/-- A grid of one block of one group with every level declared, and that block on core 0. -/
def loadGrid : Grid :=
  { ctx := 1, queue := 0, seq := 0, entry := loadPc, top := 7, l1 := 1, regs := 128, scratch := 65536, lease := 10, tiles := 0, priority := 0,
    restartable := false, gang := 2, domains := [1, 2, 3, 4, 5, 6], counts := [1, 1, 1, 1, 1, 1], completion := 0, parent := 0,
    pendingBlocks := [], members := [], started := 0, since := 0, relaunch := [], clock := none, order := 0 }
def loadBlock : Block :=
  { ctx := 1, grid := 1, index := 0, core := 0, scratch := 65536, spad := [], full := [], spadPoison := [], store := [], restartable := false,
    contained := 0, stopped := none }
def loadGroup : Group := Group.start 1 1 0 0 ((List.range 32).map (fun l => (l, Thread.start loadPc l)))

/-- A state with one word loaded, and a group about to issue it. -/
def State.loadWord (s : State) (w : Word) : State :=
  { s with mem := Memory.write (loadTables s.mem) loadPa 8 w.toNat, contexts := Table.set s.contexts 1 loadContext,
           grids := Table.set s.grids 1 loadGrid, blocks := Table.set s.blocks (blockKey 1 0) loadBlock,
           groups := Table.set s.groups 0 loadGroup, issue := [⟨0, 0, loadPc, List.range 32, 0, false⟩] }

end Sys2Proof.Machine
end

