-- ==== Sys2Proof/Machine/PForm.lean ====
section
/-!
DEFINITION. P-form words: two halves that are one instruction (R182 to R185, R189).
-/
namespace Sys2Proof.Machine

/-- Whether a half has one source (R183). -/
def HalfOp.unary : HalfOp → Bool
  | .mov | .neg | .abs => true
  | _ => false

/-- The result of a class A half: the paired F-form instruction with modifier zero (R183, R189). -/
def HalfOp.eval (op : HalfOp) (t : IType) (a b : Word) : Word :=
  match op with
  | .add => addW t false a b
  | .sub => subW t false a b
  | .mul => mulW t false a b
  | .and => a &&& b
  | .or => a ||| b
  | .xor => a ^^^ b
  | .andn => a &&& ~~~b
  | .shl => shlW t a b
  | .shr => shrW t a b
  | .sar => sarW t a b
  | .min => minW t a b
  | .max => maxW t a b
  | .mov => a
  | .neg => negW t false a
  | .abs => absW t false a

/-- Collect the operands of a half: a binary half reads its dst as srcA and its src as srcB, with the pattern and the
mark; a unary half reads its src as srcA (R183). -/
def halfCollect (e : Env) (l : Nat) (t : Thread) (unary : Bool) (f : Form) (d : Operand) (s : Src) (p : LanePat) :
    Except Trap Got :=
  let r := if unary then collect e l t (some d) (srcP p f s) none none
    else collect e l t (some d) (srcO f d) (srcP p f s) none
  match r with
  | .error tr => .error tr
  | .ok g => if g.poisoned then .error poisonTrap else .ok g

/-- One lane of a pair (R185): both halves collect before either writes; the trap taken is half 0's if it raises one;
the flags are set even then. DESIGN CHOICE (log entry 64): where half 0's indirect destination resolves to the register that half 1 writes, half
1's write is the last. -/
def pairLane (unary0 : Bool) (f0 : Form) (d0 : Operand) (s0 : Src) (p0 : LanePat) (eval0 : Word → Word → Word × Flags)
    (h1 : Half1) : LaneFn := fun e l t =>
  let r0 := halfCollect e l t unary0 f0 d0 s0 p0
  let r1 := halfCollect e l t (HalfOp.unary h1.op) (.int h1.h.ty) h1.h.d h1.h.s h1.h.pat
  match r0, r1 with
  | .error tr, _ => trapLane e t tr
  | .ok g0, .error tr => trapLane e (t.setFlags (eval0 g0.a g0.b).2) ((flagTrap t.astat (eval0 g0.a g0.b).2 0).getD tr)
  | .ok g0, .ok g1 =>
    let (w0, fl) := eval0 g0.a g0.b
    match flagTrap t.astat fl 0 with
    | some tr => trapLane e (t.setFlags fl) tr
    | none =>
      let w1 := HalfOp.eval h1.op h1.h.ty g1.a g1.b
      let t' := (releaseOf (srcP h1.h.pat (.int h1.h.ty) h1.h.s)).foldl Thread.freeV g0.t
      ⟨(((t'.put g0.d w0).put g1.d w1).setFlags fl).advance, none⟩

/-- A half has no predicate: both halves execute for every thread that issues the word (R182). -/
def always : Guard := ⟨0, false⟩

/-- A pair whose half 0 is of class A. -/
def pairA (op : HalfOp) (h0 : Half IType) (h1 : Half1) (s : State) : Host.Outcome State Fault Refusal :=
  lanewise always (pairLane (HalfOp.unary op) (.int h0.ty) h0.d h0.s h0.pat
    (fun a b => (HalfOp.eval op h0.ty a b, 0)) h1) s

/-- A pair whose half 0 is of class F: rn, and .num for the minimum and maximum (R259). -/
def pairF (f : FType → Word → Word → Word × Flags) (h0 : Half FType) (h1 : Half1) (s : State) :
    Host.Outcome State Fault Refusal :=
  lanewise always (pairLane false (.flt h0.ty) h0.d h0.s h0.pat (f h0.ty) h1) s

def execAddHalf (h0 : Half IType) (h1 : Half1) (s : State) := pairA .add h0 h1 s
def execSubHalf (h0 : Half IType) (h1 : Half1) (s : State) := pairA .sub h0 h1 s
def execMulHalf (h0 : Half IType) (h1 : Half1) (s : State) := pairA .mul h0 h1 s
def execAndHalf (h0 : Half IType) (h1 : Half1) (s : State) := pairA .and h0 h1 s
def execOrHalf (h0 : Half IType) (h1 : Half1) (s : State) := pairA .or h0 h1 s
def execXorHalf (h0 : Half IType) (h1 : Half1) (s : State) := pairA .xor h0 h1 s
def execAndnHalf (h0 : Half IType) (h1 : Half1) (s : State) := pairA .andn h0 h1 s
def execShlHalf (h0 : Half IType) (h1 : Half1) (s : State) := pairA .shl h0 h1 s
def execShrHalf (h0 : Half IType) (h1 : Half1) (s : State) := pairA .shr h0 h1 s
def execSarHalf (h0 : Half IType) (h1 : Half1) (s : State) := pairA .sar h0 h1 s
def execMinHalf (h0 : Half IType) (h1 : Half1) (s : State) := pairA .min h0 h1 s
def execMaxHalf (h0 : Half IType) (h1 : Half1) (s : State) := pairA .max h0 h1 s
def execMovHalf (h0 : Half IType) (h1 : Half1) (s : State) := pairA .mov h0 h1 s
def execNegHalf (h0 : Half IType) (h1 : Half1) (s : State) := pairA .neg h0 h1 s
def execAbsHalf (h0 : Half IType) (h1 : Half1) (s : State) := pairA .abs h0 h1 s
def execFaddHalf (h0 : Half FType) (h1 : Half1) (s : State) := pairF (fun t => faddW t .rn) h0 h1 s
def execFsubHalf (h0 : Half FType) (h1 : Half1) (s : State) := pairF (fun t => fsubW t .rn) h0 h1 s
def execFmulHalf (h0 : Half FType) (h1 : Half1) (s : State) := pairF (fun t => fmulW t .rn) h0 h1 s
def execFminHalf (h0 : Half FType) (h1 : Half1) (s : State) := pairF (fun t => fminW t false) h0 h1 s
def execFmaxHalf (h0 : Half FType) (h1 : Half1) (s : State) := pairF (fun t => fmaxW t false) h0 h1 s

end Sys2Proof.Machine
end

