-- ==== Sys2Proof/Machine/Saves.lean ====
section
/-!
DEFINITION. The firmware's commands SAVE_CTX and RESTORE_CTX (R378 to R386, R429, R436), DROP_CHANNEL (R34), LOAD_SEGMENT (R352 to R354,
R407) and ATTEST (R408, R409).
-/
/-- The state that the body of an unprotected image holds, of the whole image: none where a section offset or a count lies out of its range. The
body's layout is not given (R380, R384, R429; log entry 7). -/
opaque Sys2Proof.Config.imageState : List Sys2Proof.Byte → Option Sys2Proof.Machine.Image

namespace Sys2Proof.Machine

/-! ## SAVE_CTX (R378, R379, R383, R436) -/

/-- A buffer for an image (R436). -/
def State.imageBufferOk (s : State) (pa size : Nat) : Bool := decide (pa % 64 = 0) && s.memoryAt pa size && s.outsideAreas pa size

/-- The image that a save would write; of a pre-empted context, that of its pre-emption under the number of this save. -/
def State.imageFor (s : State) (ctx : Nat) (c : Context) : Image :=
  let m := match (if c.phase = .preempted then s.lastImage ctx else none) with
    | some m => { m with save := s.images.length }
    | none => s.imageOf ctx
  { m with header := m.headerBytes c.isProtected (if c.isProtected then c.counter + 1 else 0) }

/-- A save whose image is in its buffer: the context leaves the cores. -/
def State.saved (s : State) (ctx : Nat) (c : Context) (m : Image) : State :=
  let s := s.setContext ctx { c with counter := if c.isProtected then c.counter + 1 else c.counter, imageSize := m.size }
  let s := if c.phase = .preempted then s.setContext ctx { c with counter := if c.isProtected then c.counter + 1 else c.counter,
                                                                    imageSize := m.size, phase := .saved }
    else s.takeOff ctx .saved
  { s with images := s.images ++ [m] }

/-- SAVE_CTX: the context stops; at its cut its tenures are parked, the buffer is checked, and the image written (R378, R379, R436). -/
def execSaveCtx (s : State) : Host.Outcome State Fault Refusal :=
  command .saveCtx s (fun mb m s =>
    withContext mb m (fun c => c.failure.isNone && (decide (c.phase = .running) || decide (c.phase = .stopping) || decide (c.phase = .preempted)))
      s (fun c =>
    if c.phase = .running then (s.stopContext m.ctx).push .saveCtx
    else if c.phase = .stopping && !(s.cutDone m.ctx) then s.push .saveCtx
    else
      let s := if c.phase = .stopping then s.parkTenures m.ctx else s
      let im := s.imageFor m.ctx c
      if !(s.imageBufferOk (m.n 1) (Nat.max 1 (m.n 2))) then (s.resumeCut m.ctx).reply mb 1 []
      else if m.n 2 < im.size then (s.resumeCut m.ctx).reply mb 3 [im.size]
      else
        let parts := physParts (m.n 1) im.size (leNat im.bytes)
        match s.partsGate .host m.ctx true parts with
        | (s, false) => s.push .saveCtx
        | (s, true) =>
          let s := s.unqueue .host
          if Config.imageWriteFails s.free then
            let s := { s.tick with reports := s.reports ++ [(2, m.ctx)] }
            let s := s.setContext m.ctx { c with counter := if c.isProtected then c.counter + 1 else c.counter }
            (s.resumeCut m.ctx).reply mb 1 []
          else ((s.tick.putParts parts).saved m.ctx c im).reply mb 0 [im.size]))

/-! ## RESTORE_CTX (R384 to R386, R429) -/

/-- The header's part of check 1. -/
def headerOk (v : Nat) : Bool :=
  decide (field v 0 4 = 0x49435641) && decide (field v 4 2 = 1) && decide (128 ≤ field v 40 8) && decide (field v 40 8 % 64 = 0) &&
    decide (field v 26 1 < 2) && decide (field v 27 5 = 0) && decide (field v 60 4 = 0) && decide (field v 16 8 < 128)

/-- How many pins stand on a backing, and how many holds on a tile. -/
def pinCount (l : List Pin) (p : Pin) : Nat := (l.filter (fun q => decide (q.buf = p.buf) && decide (q.backing = p.backing))).length
def Image.holdCount (m : Image) (h : Hold) : Nat :=
  m.groups.foldl (fun n g => n + (g.2.holds.filter (fun k => decide (k.die = h.die) && decide (k.index = h.index))).foldl (fun n k => n + k.count) 0) 0

/-- Hold counts and pins equal the records that the Catalogue and the edition descriptors keep (R384 check 1, R385): those of the last
save. -/
def State.recordsAgree (s : State) (m : Image) : Bool :=
  let now := s.pins.filter (fun p => decide (p.ctx = m.ctx) && p.owner.kept)
  decide (now.length = m.pins.length) && now.all (fun p => decide (pinCount now p = pinCount m.pins p)) &&
    (match s.lastImage m.ctx with
      | none => false
      | some last => (last.groups ++ m.groups).all (fun g => g.2.holds.all (fun h => decide (last.holdCount h = m.holdCount h))))

/-- The values that an image may hold of a thread (R220, R378): it is retired or parked, or stands at its word. -/
def Thread.inRange (t : Thread) : Bool :=
  decide (t.tctl &&& 1 = t.tctl) && decide (t.astat &&& 0x3F3F = t.astat) && decide (t.tmode &&& 1 = t.tmode) && decide (t.atCut = t)

/-- A block of an image is one of a grid of its context, and its groups are the block's, each once (R321, R384). -/
def State.blockInRange (s : State) (m : Image) (x : Nat × Block) : Bool :=
  let b := x.2
  let gs := (m.groups.filter (fun p => decide (p.2.grid = b.grid) && decide (p.2.block = b.index))).map (fun p => p.2.lidx1)
  decide (x.1 = blockKey b.grid b.index) && decide (b.index < 2 ^ 24) && decide (b.ctx = m.ctx) && b.stopped.isNone && decide gs.Nodup &&
    (match s.grid? b.grid with
      | some g => decide (g.ctx = m.ctx) && gs.all (fun l => decide (l < g.lcnt 1)) && decide (b.scratch = g.scratch) && decide (b.restartable = g.restartable)
      | none => true)

/-- A group of an image: it belongs to a block of the image, and its threads have lane numbers and hold what threads may hold. -/
def Image.groupInRange (m : Image) (g : Group) : Bool :=
  decide (g.ctx = m.ctx) && (m.blocks.any (fun b => decide (b.2.grid = g.grid) && decide (b.2.index = g.block))) && decide (g.spadCount = 0) &&
    g.left.isNone && Table.sorted g.threads && g.threads.all (fun p => decide (p.1 < 32) && p.2.inRange)

/-- Counts and field values within their ranges: all that an image holds is of its context (R384 check 1). -/
def State.inRange (s : State) (m : Image) : Bool :=
  let keys := m.groups.map (fun p => p.1)
  m.blocks.all (s.blockInRange m) && Table.sorted m.blocks && Table.sorted m.groups && m.groups.all (fun p => m.groupInRange p.2) &&
    m.matrices.all (fun p => keys.contains p.1) && m.seqs.all (fun x => decide (x.2.2.ctx = m.ctx) && keys.contains x.2.2.group) &&
    m.barriers.all (fun b => match s.grid? b.grid with | some g => decide (g.ctx = m.ctx) | none => true) &&
    m.pins.all (fun p => decide (p.ctx = m.ctx) && p.owner.kept)

/-- The saved image whose body stands in memory, protected or not. -/
def State.imageAt (s : State) (prot : Bool) (ctx pa size v : Nat) : Option Image :=
  (s.images.filter (fun m => decide (m.ctx = ctx) && decide (m.size = size) && decide (field v 80 48 = (Config.imageSections m.save).toNat) &&
    decide (decide (field (leNat m.header) 26 1 % 2 = 1) = prot) && !(prot && m.erased) &&
    (List.range (size - 128)).all (fun i => decide (s.bytesNow (pa + 128 + i) 1 = (Config.imageByte m.save i).toNat)))).getLast?

/-- What the image in memory holds: a body that a save has written holds what was saved; an unprotected one that was edited holds what its bytes
say (R429). A protected one of a context that has been destroyed opens under no key (R383). -/
def State.imageHeld (s : State) (prot : Bool) (ctx pa size v : Nat) : Option Image :=
  match s.imageAt prot ctx pa size v with
  | some m => some m
  | none =>
    if prot then none
    else (Config.imageState (s.byteList pa size)).filter (fun m => decide (m.ctx = ctx) && decide (m.size = size))

/-- What RESTORE_CTX comes to: a refusal status, or the image with its places. -/
def State.restoreCheck (s : State) (ctx : Nat) (c : Context) (pa : Nat) : Except Nat (Image × List (Nat × Placed)) :=
  if pa % 64 ≠ 0 ∨ !(s.memoryAt pa 128) then .error 1
  else
    let v := leNat (s.byteList pa 128)
    let prot := decide (field v 26 1 % 2 = 1)
    let size := field v 40 8
    if !(headerOk v) || !(s.memoryAt pa size) then .error 1
    else
      let im := s.imageHeld prot (field v 24 2) pa size v
      let body := match im with
        | some m => s.inRange m && s.recordsAgree m
        | none => false
      let sealed := match im with
        | some m => decide (leNat m.header = v)
        | none => false
      if !prot && !body then .error 1
      else if field v 24 2 ≠ ctx ∨ prot ≠ c.isProtected then .error 2
      else if prot && decide (field v 32 8 ≠ c.counter) then .error 3
      else if prot && !sealed then .error 4
      else if prot && !body then .error 1
      else if field v 16 8 &&& Config.features ≠ field v 16 8 then .error 5
      else match im with
        | none => .error 1
        | some m => match s.placeImage m with
          | none => .error 6
          | some l => .ok (m, l)

/-- Whether the firmware can read the image at an address now: its header, and with it the rest (R436). -/
def State.imageReady (s : State) (ctx pa : Nat) : State × Bool :=
  if !(s.memoryAt pa 128) then (s, true)
  else s.andThen (fun s => s.firmReady ctx [(pa, 128)]) (fun s =>
    let size := field (leNat (s.byteList pa 128)) 40 8
    if s.memoryAt pa size then s.firmReady ctx [(pa, size)] else (s, true))

/-- RESTORE_CTX: refused whole at the first check that fails, else the context goes on from the image. -/
def execRestoreCtx (s : State) : Host.Outcome State Fault Refusal :=
  command .restoreCtx s (fun mb m s => withContext mb m (fun c => decide (c.phase = .saved)) s (fun c =>
    match s.imageReady m.ctx (m.n 1) with
    | (s, false) => s.push .restoreCtx
    | (s, true) =>
      match s.restoreCheck m.ctx c (m.n 1) with
      | .error n => s.reply mb n []
      | .ok (im, l) => (s.putOn im l).reply mb 0 []))

/-! ## DROP_CHANNEL (R34) -/

/-- Whether a mapped range lies, in one of its copies, on a die. -/
def Frame.onDie (f : Frame) (die : Nat) : Bool := isDevice f.pa && (f.repl || decide (homeDie f.pa = die))

/-- The contexts on the cores that map memory on a die. -/
def State.mappersOf (s : State) (die : Nat) : List Nat :=
  (s.contexts.filter (fun p => (decide (p.2.phase = .running) || decide (p.2.phase = .stopping)) && (s.framesOf p.1).any (fun f => f.onDie die))).map
    (fun p => p.1)

/-- The firmware's refusals: a mapping at or above the capacity after the drop, or fewer than 16 channels left. -/
def State.dropRefused (s : State) (die : Nat) : Bool :=
  let d := s.dieOf die
  decide (d.live.length ≤ 16) ||
    s.mappedFrames.any (fun f => f.onDie die && decide ((d.capacity - 1) * 2 ^ 30 < f.pa % 2 ^ 35 + f.n))

/-- Annex lines homed on a die are written back and dropped. -/
def State.flushAnnexOf (s : State) (die : Nat) : State :=
  ((s.dies.flatMap (fun p => p.2.annex.map (fun q => q.1))).filter (fun l => decide (homeOfLine l = die))).foldl (fun s l => s.homeTake l) s

/-- The die's L2 and Stacks hold no line any more; its lines' stamps are bounded by the latest that the L2 held. -/
def Die.invalidate (d : Die) : Die :=
  { d with l2 := [], inL2 := [], inStacks := [], lost := some (d.l2.foldl (fun st p => st.max p.2) d.unlisted) }

/-- Where the die's memory holds a device address: the channel, and the line's position within it (R20). -/
def State.storedAt (s : State) (pa : Nat) : Option (Nat × Nat) := placeLine (s.dieOf (homeDie pa)).live (pa % 2 ^ 35)

/-- Steps 2 to 4 of R34: the caches of the die's memory are written back and invalidated, the channel leaves the interleave, under which every
line below the new capacity has a new place (R20) and the contents it had, and the die's capacity falls by 1 GB. DESIGN CHOICE (log entry 64): the
refusal names only mappings, so a context-memory area, a launch ring or an image buffer above the new capacity refuses nothing, and its bytes
are gone with that gigabyte. -/
def State.dropChannel (s : State) (die ch : Nat) : State :=
  let s := s.flushAnnexOf die
  let d := (s.dieOf die).invalidate
  let top := die * 2 ^ 35 + (d.capacity - 1) * 2 ^ 30
  ({ s with mem := Memory.clear s.mem top (2 ^ 30) } : State).setDie die { d with live := d.live.filter (fun n => n ≠ ch), capacity := d.capacity - 1 }

/-- DROP_CHANNEL: the contexts that map memory on the die are saved, the channel is dropped, and they are restored. -/
def execDropChannel (s : State) : Host.Outcome State Fault Refusal :=
  command .dropChannel s (fun mb m s =>
    if 7 < m.n 1 ∨ !((s.dieOf (m.n 1)).live.contains (m.n 2)) then s.reply mb 1 []
    else if s.dropRefused (m.n 1) then s.reply mb 3 []
    else
      let cs := s.mappersOf (m.n 1)
      if cs.all (fun c => s.cutDone c && !(s.runnable c)) then
        let s := cs.foldl (fun s c => s.saveImage c .preempted) s
        let s := s.dropChannel (m.n 1) (m.n 2)
        ((cs.foldl (fun s c => s.returnPreempted c) s).lookYards).reply mb 0 [(s.dieOf (m.n 1)).capacity]
      else (cs.foldl (fun s c => s.stopContext c) s).push .dropChannel)

/-! ## LOAD_SEGMENT (R352 to R354, R407) -/

/-- A code object's header (R352): none where it breaks its table. -/
def objectOk (v : Nat) : Bool :=
  decide (field v 0 4 = 0x4F435641) && decide (field v 4 2 = 1) && decide (1 ≤ field v 6 2) && decide (field v 6 2 ≤ 64) &&
    decide (field v 8 4 ≤ 2 ^ 20) && decide (field v 12 4 ≤ 2 ^ 20) && decide (field v 16 8 % 8 = 0) && decide (field v 24 8 % 8 = 0) &&
    decide (field v 32 8 % 8 = 0) && decide (field v 60 4 = 0)

/-- A segment's entry (R353). -/
def segmentOk (e : Nat) : Bool :=
  decide (field e 0 1 ≤ 2) && decide (field e 1 1 < 4) && decide (field e 4 4 = 0) && decide (field e 2 2 ≤ 4095) &&
    (decide (field e 1 1 % 2 = 1) || decide (field e 2 2 = 0)) && (decide (field e 1 1 % 2 = 0) || decide (field e 0 1 = 0)) &&
    (decide (field e 1 1 < 2) || decide (field e 0 1 = 1))

/-- The event of a segment (R408). -/
def segmentEvent (digest measurement index base : Nat) : List Byte :=
  (1 : Byte) :: (leBytes digest 64 ++ leBytes measurement 64 ++ leBytes index 2 ++ leBytes base 8)

/-- The latest load of each segment, with one more (R407). -/
def Context.load (c : Context) (x : Loaded) : Context :=
  { c with loaded := c.loaded.filter (fun y => !(decide (y.obj = x.obj) && decide (y.index = x.index))) ++ [x] }

/-- The pointer of an offset in a segment of an object: with the region tag and from the virtual base of its load (R159); free before it has
been loaded (log entry 9). -/
def Context.symbol (c : Context) (obj index off : Nat) : Word :=
  match c.loaded.find? (fun x => decide (x.obj = obj) && decide (x.index = index)) with
  | some x => ptr x.tag (x.base + off)
  | none => Config.unplaced index off

/-- Entry i of a table of 16-byte entries at an offset of an object (R354). -/
def State.tableEntry (s : State) (obj at_ i : Nat) : Nat := leNat (s.byteList (obj + at_ + 16 * i) 16)

/-- A name of an object's string table, up to its zero byte. -/
def nameFrom : List Byte → List Byte
  | [] => []
  | b :: l => if b = 0 then [] else b :: nameFrom l
def State.nameAt (s : State) (obj v off : Nat) : List Byte := nameFrom (s.byteList (obj + field v 40 8 + off) (2 ^ 16))

/-- The pointer of an object's export (R354). -/
def State.exportAt (s : State) (c : Context) (obj v k : Nat) : Word :=
  let x := s.tableEntry obj (field v 24 8) k
  c.symbol obj (field x 4 2) (field x 8 8)

/-- The export that an object has under a name. -/
def State.exportOf (s : State) (c : Context) (name : List Byte) (obj : Nat) : Option Word :=
  let v := leNat (s.byteList obj 64)
  ((List.range (field v 8 4)).find? (fun k => decide (s.nameAt obj v (field (s.tableEntry obj (field v 24 8) k) 0 4) = name))).map
    (fun k => s.exportAt c obj v k)

/-- Linkage entry i (R354): the pointer of the resolver's export; for an eager import its target, the export of that name of an object that
the context has loaded, the first one loaded where several have it (log entry 9). -/
def State.linkWord (s : State) (c : Context) (obj v i : Nat) : Word :=
  let x := s.tableEntry obj (field v 32 8) i
  if field x 4 4 % 2 = 1 then
    match firstSome (((c.loaded.map (fun y => y.obj)).eraseDups).map (s.exportOf c (s.nameAt obj v (field x 0 4)))) with
    | some w => w
    | none => Config.unplaced obj i
  else s.exportAt c obj v (field v 56 4)

/-- A number with w bits from bit p on replaced. -/
def spliceBits (v p w x : Nat) : Nat := v - v / 2 ^ p % 2 ^ w * 2 ^ p + x % 2 ^ w * 2 ^ p

/-- A segment's contents with each use of a symbol relocated (R159); every other bit stays. -/
def Context.relocate (c : Context) (obj : Nat) (uses : List Config.SymUse) (raw : List Byte) : List Byte :=
  leBytes (uses.foldl (fun v u => if u.at_ + u.width ≤ 8 * raw.length then
    spliceBits v u.at_ u.width ((c.symbol obj u.segment u.offset).toNat / 2 ^ u.low) else v) (leNat raw)) raw.length

/-- What the loader writes (R407 step 4): the contents, relocated, and in the segment that holds it the linkage table. -/
def State.segmentBytes (s : State) (c : Context) (obj v e index : Nat) : List Byte :=
  let size := field e 8 8
  let raw := s.byteList (obj + field e 16 8) size
  let rel := c.relocate obj (Config.symbolUses (s.byteList obj 64) index raw) raw
  let table : List Byte :=
    if field e 1 1 / 2 = 1 then (List.range (field v 12 4)).flatMap (fun i => leBytes (s.linkWord c obj v i).toNat 8) else []
  table ++ rel.drop table.length

/-- Where the pages of a segment lie: the frames that the context has mapped at its virtual base (log entry 37). -/
def State.segmentPages (s : State) (ctx va : Nat) : Nat → Option (List (Nat × Nat))
  | 0 => some []
  | n + 1 =>
    match s.leafFor noCore ctx va with
    | .error _ => none
    | .ok (l, big) =>
      let pa := if big then bits l 51 28 * 2 ^ 28 + va % 2 ^ 28 else bits l 51 16 * 65536 + va % 65536
      if leafE l || leafRepl l || !(s.populated pa) then none
      else (s.segmentPages ctx ((va / 65536 + 1) * 65536) n).map (fun rest => (va, pa) :: rest)

/-- The line parts of bytes that go to pages. -/
def pageParts (va : Nat) (bytes : List Byte) (pages : List (Nat × Nat)) : List (Nat × Nat × Nat) :=
  pages.flatMap (fun p => physParts p.2 (Nat.min (va + bytes.length) ((p.1 / 65536 + 1) * 65536) - p.1)
    (leNat ((bytes.drop (p.1 - va)).take 65536)))

/-- The pages of a code segment become executable and no longer writable. DESIGN CHOICE (log entry 37): those of a data or const segment keep the
rights that MAP gave them. -/
def State.makeCode (s : State) (ctx : Nat) : List (Nat × Nat) → Option State
  | [] => some s
  | (va, _) :: rest =>
    match s.table0 ctx va with
    | none => none
    | some (s, t) =>
      let l := s.entry (slot0 t va)
      (s.putEntry (slot0 t va) ((l ||| 0x14) &&& ~~~0x8).toNat).makeCode ctx rest

/-- The resolver field (R352): an export, or 0xFFFF_FFFF where every import is eager. -/
def State.resolverOk (s : State) (obj v : Nat) : Bool :=
  decide (field v 56 4 < field v 8 4) || (decide (field v 56 4 = 0xFFFFFFFF) &&
    (List.range (field v 12 4)).all (fun i => decide (field (s.tableEntry obj (field v 32 8) i) 4 4 % 2 = 1)))

/-- The ranges of an object that its header names, but for the segments: its export and import tables. -/
def tableRanges (obj v : Nat) : List (Nat × Nat) :=
  [(obj + field v 24 8, 16 * field v 8 4), (obj + field v 32 8, 16 * field v 12 4)]

/-- The checks of the key's digest and of step 1. -/
def State.loadFormed (s : State) (c : Context) (m : Mailbox) (v e digest : Nat) : Option Nat :=
  let obj := m.n 1
  let at_ := obj + field v 16 8 + 96 * m.n 2
  if !(s.memoryAt (m.n 5) 1952) then some 1
  else if !(c.keys.any (fun k => decide (k.2 = digest))) then some 4
  else if !(s.memoryAt obj 64) || !(objectOk v) || !((tableRanges obj v).all (fun r => decide (r.2 = 0) || s.memoryAt r.1 r.2)) ||
      !(s.resolverOk obj v) || decide (field v 6 2 ≤ m.n 2) || !(s.memoryAt at_ 96) then some 1
  else if field v 48 8 &&& Config.features ≠ field v 48 8 then some 5
  else if !(segmentOk e) || (decide (field e 8 8 ≠ 0) && !(s.memoryAt (obj + field e 16 8) (field e 8 8))) ||
      !(s.memoryAt (obj + field e 24 8) 3309) || decide (2 ^ 54 < m.n 3 + field e 8 8) || decide (1023 < m.n 4) ||
      (decide (field e 1 1 / 2 = 1) && decide (field e 8 8 < 8 * field v 12 4)) then some 1
  else none

/-- The checks of step 2: the measurement, and the signature over the entry. -/
def State.loadTrusted (s : State) (m : Mailbox) (v e : Nat) : Bool :=
  let obj := m.n 1
  let at_ := obj + field v 16 8 + 96 * m.n 2
  decide (Config.shake256 (s.byteList (obj + field e 16 8) (field e 8 8)) = field e 32 64) &&
    Config.sigVerify (s.byteList (m.n 5) 1952) (s.byteList at_ 96) (s.byteList (obj + field e 24 8) 3309)

/-- Whether the firmware can read ranges, those of them that are memory. -/
def State.rangesReady (s : State) (ctx : Nat) (l : List (Nat × Nat)) : State × Bool := s.firmReady ctx (l.filter (fun r => s.memoryAt r.1 r.2))

/-- Whether the loader can read what it needs: the key, the header and the tables; then the segment's entry; then its contents and its
signature. -/
def State.objectReady (s : State) (m : Mailbox) : State × Bool :=
  let obj := m.n 1
  s.andThen (fun s => s.rangesReady m.ctx [(m.n 5, 1952), (obj, 64)]) (fun s =>
    let v := leNat (s.byteList obj 64)
    let at_ := obj + field v 16 8 + 96 * m.n 2
    s.andThen (fun s => s.rangesReady m.ctx ((at_, 96) :: tableRanges obj v)) (fun s =>
      let e := leNat (s.byteList at_ 96)
      s.rangesReady m.ctx [(obj + field e 16 8, field e 8 8), (obj + field e 24 8, 3309)]))

/-- One after the other. -/
def State.eachReady (s : State) (f : State → Nat → State × Bool) : List Nat → State × Bool
  | [] => (s, true)
  | a :: rest => s.andThen (fun s => f s a) (fun s => s.eachReady f rest)

/-- A name, sector by sector up to its zero byte. -/
def State.nameReady (s : State) (ctx a : Nat) : Nat → State × Bool
  | 0 => (s, true)
  | fuel + 1 =>
    let n := 64 - a % 64
    s.andThen (fun s => s.rangesReady ctx [(a, n)]) (fun s =>
      if !(s.memoryAt a n) || (s.byteList a n).contains 0 then (s, true) else s.nameReady ctx (a + n) fuel)

/-- The names of an object that the n entries of one of its tables name (R354). -/
def State.namesReady (s : State) (ctx obj table n : Nat) : State × Bool :=
  let v := leNat (s.byteList obj 64)
  s.eachReady (fun s k => s.nameReady ctx (obj + field v 40 8 + field (s.tableEntry obj table k) 0 4) 1024) (List.range n)

/-- An object's export table with its names. -/
def State.exportsReady (s : State) (ctx obj : Nat) : State × Bool :=
  s.andThen (fun s => s.rangesReady ctx [(obj, 64)]) (fun s =>
    let v := leNat (s.byteList obj 64)
    s.andThen (fun s => s.rangesReady ctx [(obj + field v 24 8, 16 * field v 8 4)]) (fun s =>
      s.namesReady ctx obj (field v 24 8) (field v 8 4)))

/-- Whether the loader can read what the linkage table needs: the names of the imports, and the exports of what the context has loaded (R354). -/
def State.linkReady (s : State) (ctx : Nat) (c : Context) (obj v e : Nat) : State × Bool :=
  if field e 1 1 / 2 = 0 then (s, true)
  else s.andThen (fun s => s.namesReady ctx obj (field v 32 8) (field v 12 4)) (fun s =>
    s.eachReady (fun s o => s.exportsReady ctx o) (c.loaded.map (fun y => y.obj)).eraseDups)

/-- The loader has placed a segment. -/
def State.placed (s : State) (ctx : Nat) (x : Loaded) : State :=
  match s.context? ctx with
  | none => s
  | some c => s.setContext ctx (c.load x)

/-- Steps 3 to 5 for a segment of an edition buffer: its draft is written and published (R350). A failure leaves what step 3 did; `keep` are the
host's answers so far, which a wait keeps. -/
def State.loadEdition (s : State) (mb : Nat) (m : Mailbox) (e : Nat) (x : Loaded) (event bytes : List Byte) (keep : List (Nat × Nat)) : State :=
  let buf := field e 2 2
  match s.desc? m.ctx buf with
  | none => (s.logEvent m.ctx event).reply mb 1 []
  | some d =>
    if !d.code || decide (d.pages * 65536 < bytes.length) then (s.logEvent m.ctx event).reply mb 1 []
    else if d.pinsOn d.draft ≠ 0 then (s.logEvent m.ctx event).reply mb 2 []
    else
      let parts := physParts (d.backing d.draft) bytes.length (leNat bytes)
      let busy := s.publications.any (fun p => decide (p.ctx = m.ctx) && decide (p.buf = buf)) ||
        s.cores.any (fun p => p.2.pend.any (fun q => decide (q.ctx = m.ctx)) || p.2.pendAtomics.any (fun q => decide (q.ctx = m.ctx))) ||
        s.engineOpen m.ctx buf || (s.draftTiles m.ctx buf d.draft).any (fun x => !x.2.2.holders.isEmpty || x.2.2.recalling)
      match s.partsGate .host m.ctx true parts with
      | (s, false) => ({ s with hostReads := keep } : State).push .loadSegment
      | (s, true) =>
        if busy then (({ s with hostReads := keep } : State).recallDraft m.ctx buf d.draft).push .loadSegment
        else
          let s := (((s.unqueue .host).logEvent m.ctx event).placed m.ctx x).putParts parts
          (s.commitEdition none m.ctx buf d).reply mb 0 [(d.num + 1) % 2 ^ 32]

/-- Steps 3 to 5 for any other segment. -/
def State.loadPlain (s : State) (mb : Nat) (m : Mailbox) (e : Nat) (x : Loaded) (event bytes : List Byte) (keep : List (Nat × Nat)) : State :=
  let va := m.n 3
  let isCode := decide (field e 0 1 = 0)
  match s.segmentPages m.ctx va (if bytes.isEmpty then 0 else (va + bytes.length + 65535) / 65536 - va / 65536) with
  | none => (s.logEvent m.ctx event).reply mb 1 []
  | some pages =>
    let parts := pageParts va bytes pages
    match s.partsGate .host m.ctx true parts with
    | (s, false) => ({ s with hostReads := keep } : State).push .loadSegment
    | (s, true) =>
      let s := (((s.unqueue .host).logEvent m.ctx event).placed m.ctx x).putParts parts
      if !isCode then s.reply mb 0 [0]
      else match s.makeCode m.ctx pages with
        | none => s.reply mb 3 []
        | some s => s.startAcks mb m.ctx 0 [(va, bytes.length)] false 0

/-- LOAD_SEGMENT. -/
def execLoadSegment (s : State) : Host.Outcome State Fault Refusal :=
  command .loadSegment s (fun mb m s => withContext mb m Context.usable s (fun c =>
    let keep := s.hostReads
    match s.objectReady m with
    | (s, false) => s.push .loadSegment
    | (s, true) =>
      let obj := m.n 1
      let v := leNat (s.byteList obj 64)
      let e := leNat (s.byteList (obj + field v 16 8 + 96 * m.n 2) 96)
      let digest := Config.shake256 (s.byteList (m.n 5) 1952)
      match s.loadFormed c m v e digest with
      | some n => s.reply mb n []
      | none =>
        if !(s.loadTrusted m v e) then s.reply mb 4 []
        else
          let x : Loaded := ⟨obj, m.n 2, m.n 4, m.n 3⟩
          match ({ s with hostReads := keep } : State).linkReady m.ctx (c.load x) obj v e with
          | (s, false) => s.push .loadSegment
          | (t, true) =>
            let s : State := { t with hostReads := t.hostReads.filter s.hostReads.contains }
            let bytes := s.segmentBytes (c.load x) obj v e (m.n 2)
            let event := segmentEvent digest (field e 32 64) (m.n 2) (m.n 3)
            if field e 1 1 % 2 = 1 then s.loadEdition mb m e x event bytes keep else s.loadPlain mb m e x event bytes keep))

/-! ## ATTEST (R408, R409) -/

/-- The report, its signature and the event log. -/
def State.attestation (s : State) (ctx : Nat) (c : Context) (nonce : Nat) : List Byte :=
  let r := Config.reportBytes [Config.revision, Config.romDigest, ctx, if c.isProtected then 1 else 0,
    c.events.length, c.omitted, c.chain, leNat (s.byteList nonce 32)]
  r ++ Config.sigBytes r ++ c.events.flatten

/-- ATTEST. -/
def execAttest (s : State) : Host.Outcome State Fault Refusal :=
  command .attest s (fun mb m s => withContext mb m Context.usable s (fun c =>
    let keep := s.hostReads
    if !(s.memoryAt (m.n 1) 32) then s.reply mb 1 []
    else match s.firmReady m.ctx [(m.n 1, 32)] with
    | (s, false) => s.push .attest
    | (s, true) =>
      let out := s.attestation m.ctx c (m.n 1)
      if m.n 3 < out.length then s.reply mb 3 []
      else if !(s.memoryAt (m.n 2) out.length) then s.reply mb 1 []
      else
        let parts := physParts (m.n 2) out.length (leNat out)
        match s.partsGate .host m.ctx true parts with
        | (s, false) => ({ s with hostReads := keep } : State).push .attest
        | (s, true) => ((s.unqueue .host).putParts parts).reply mb 0 [out.length]))

end Sys2Proof.Machine
end

