-- ==== Sys2Proof/Machine/Vector.lean ====
section
/-!
DEFINITION. Moves between lanes, exact sums, check residues and random numbers (R271 to R279).
-/
namespace Sys2Proof.Machine

/-! ## SHFL (R271) -/

/-- The register that SHFL names. -/
def shflReg (a : Src) : Nat := match a.op with | .reg n => n.val | _ => 0

/-- One sub-element of SHFL: lane and sub-element come from B's. -/
def shflSub (e : Env) (l : Nat) (t : Thread) (ty : IType) (n j : Nat) : Nat :=
  if subCount ty.width ≤ j / 32 then 0 else sub (e.g.vAt l t (j % 32) n) ty.width (j / 32)

/-- Whether a SHFL reads a poisoned register of another lane (R389). -/
def shflPoison (e : Env) (l : Nat) (t : Thread) (ty : IType) (n : Nat) (b : Word) : Bool :=
  (List.range (subCount ty.width)).any (fun i =>
    let j := sub b ty.width i
    decide (j / 32 < subCount ty.width) && e.g.vPoisoned l t (j % 32) n)

def execShfl (o : Bin IType) (s : State) : Host.Outcome State Fault Refusal :=
  lanewise o.g (fun e l t =>
    lane (some o.d) (srcN (.int o.ty) o.a) (srcN (.int o.ty) o.b) none (fun r =>
      let n := shflReg o.a
      if shflPoison e l t o.ty n r.b then .error (poisonTrap, 0)
      else .ok (r.t.put r.d (mapSub o.ty.width (fun i => shflSub e l t o.ty n (sub r.b o.ty.width i))))) e l t) s

/-! ## VOTE (R274) -/

def voteWord (fn : VoteFn) (as : List Word) : Word :=
  match fn with
  | .any => if as.any (fun a => decide (a ≠ 0)) then 1 else 0
  | .all => if as.all (fun a => decide (a ≠ 0)) then 1 else 0
  | .ballot => pack 1 (as.map (fun a => if a = 0 then 0 else 1))
  | .uni => if as.all (fun a => decide (as.head? = some a)) then 1 else 0

/-- The A operands of lanes 0 to 31. -/
def allA (gs : List (Nat × Thread × Got)) : List Word := (List.range 32).map (gotA gs)
def allB (gs : List (Nat × Thread × Got)) : List Word := (List.range 32).map (gotB gs)

def execVote (g : Guard) (pat : LanePat) (fn : VoteFn) (d : Operand) (a : Src) (s : State) :
    Host.Outcome State Fault Refusal :=
  collWord g (some d) (srcP pat .whole a) none none
    (fun _ gs => .ok (fun _ => voteWord fn (allA gs), fun _ => 0, fun g => g)) s

/-! ## The Benes sets (R272, R273) -/

def granWidth : Gran → Nat
  | .b64 => 64 | .b32 => 32 | .b16 => 16 | .b8 => 8 | .b4 => 4 | .b6 => 6

/-- The positions of a granularity (R272). -/
def positions (g : Gran) : Nat := 32 * subCount (granWidth g)

/-- The lowest destination position whose entry is out of range or repeats an earlier one. -/
def firstBad (p : Nat) : List Nat → List Nat → Nat → Option Nat
  | [], _, _ => none
  | x :: l, seen, d => if p ≤ x || seen.contains x then some d else firstBad p l (x :: seen) (d + 1)

/-- The state once the scratchpad accesses of the issuing core's groups have completed (R92, R272, R286). -/
def State.spadSettled (s : State) : State :=
  match s.issue with
  | [] => s
  | i :: _ => s.spadDrain i.core

/-- BNSET's own read of the scratchpad, once the completion counter is zero. -/
def bnsetSettled (g : Guard) (pat : LanePat) (gran : Gran) (d : Operand) (a : Src) (n : Fin 4) (s : State) :
    Host.Outcome State Fault Refusal :=
  collWord g (some d) (srcP pat .whole a) none none (fun e gs =>
    let at_ := (gotA gs 0).toNat
    let p := positions gran
    match s.blockOf e.g with
    | none => .error ⟨0x0A, word at_⟩
    | some b =>
      match spadCheck b at_ (2 * p) 2 with
      | some c => .error ⟨c, word at_⟩
      | none =>
        match b.poisonIn at_ (2 * p) with
        | some w => .error ⟨0x18, word (8 * w)⟩
        | none =>
          let entries := (List.range p).map (fun i => Memory.read b.spad (at_ + 2 * i) 2)
          match firstBad p entries [] 0 with
          | some bad => .ok (fun _ => word (1 + bad), fun _ => 0, fun gr => gr)
          | none => .ok (fun _ => 0, fun _ => 0, fun gr => { gr with
              n := Table.set gr.n n.val ⟨gran, entries⟩, poisoned := gr.poisoned.filter (fun m => m ≠ markN n) })) s

def execBnset (g : Guard) (pat : LanePat) (gran : Gran) (d : Operand) (a : Src) (n : Fin 4) (s : State) :
    Host.Outcome State Fault Refusal := bnsetSettled g pat gran d a n s.spadSettled

def Group.benes (g : Group) (n : Nat) : Benes := Table.getD g.n n Benes.init

/-- The word that BNMOV gives a lane: each element comes from the position that the set maps its own to (R273). -/
def bnmovWord (b : Benes) (gs : List (Nat × Thread × Got)) (l : Nat) : Word :=
  let w := granWidth b.gran
  let n := subCount w
  mapSub w (fun i =>
    let src := b.perm.getD (l * n + i) 0
    sub (gotA gs (src / n)) w (src % n))

def execBnmov (g : Guard) (pat : LanePat) (d : Operand) (a : Src) (n : Fin 4) (s : State) :
    Host.Outcome State Fault Refusal :=
  collWord g (some d) (srcP pat .whole a) none none (fun e gs =>
    unpoisoned e [markN n] (.ok (fun l => bnmovWord (e.g.benes n.val) gs l, fun _ => 0, fun g => g))) s

/-! ## The Kulisch accumulator (R154, R155, R275 to R277) -/

/-- k with its sticky bits. -/
structure Kul where
  k : BitVec 2176
  kp : Bool
  kn : Bool
  kq : Bool
  ko : Bool
  deriving DecidableEq, Repr

def Group.kul (g : Group) : Kul := ⟨g.k, g.kp, g.kn, g.kq, g.ko⟩
def Group.setKul (g : Group) (k : Kul) : Group :=
  { g with k := k.k, kp := k.kp, kn := k.kn, kq := k.kq, ko := k.ko, poisoned := g.poisoned.filter (fun m => m ≠ markK) }

/-- A finite term as a multiple of 2^-1074. Every term that KADD and KMAC accept is one (R154). -/
def kulTerm (n : Bool) (m : Nat) (e : Int) : Int :=
  let sh := e + 1074
  signedM n (if 0 ≤ sh then m * 2 ^ sh.toNat else m / 2 ^ (-sh).toNat)

/-- The exact sum of the finite terms of a list. -/
def kulSum (vs : List FV) : Int :=
  vs.foldl (fun acc v => match v with
    | .fin n m e => acc + kulTerm n m e
    | _ => acc) 0

/-- Add terms to k (R275): KO is set if the exact sum leaves the range, and the sum wraps. -/
def Kul.add (k : Kul) (vs : List FV) : Kul :=
  let r := k.k.toInt + kulSum vs
  { k := BitVec.ofInt 2176 r
    kp := k.kp || vs.any (fun v => decide (v = .inf false))
    kn := k.kn || vs.any (fun v => decide (v = .inf true))
    kq := k.kq || vs.any isNan
    ko := k.ko || decide (r < -(2 ^ 2175)) || decide (2 ^ 2175 ≤ r) }

/-- k rounded once into a format (R155). -/
def Kul.round (k : Kul) (t : FType) (r : Rnd) : Nat × Flags :=
  if k.kq || k.ko || (k.kp && k.kn) then (nanCode t, flagNV)
  else if k.kp then finishF t r (.inf false) 0
  else if k.kn then finishF t r (.inf true) 0
  else
    let v := k.k.toInt
    if v = 0 then (zeroCode t (decide (r = .rd)), 0) else roundF t r (decide (v < 0)) v.natAbs (-1074)

/-- The values of all sub-elements of A over the group, by position. -/
def groupVals (t : FType) (gs : List (Nat × Thread × Got)) : List FV :=
  let n := subCount t.width
  (List.range (32 * n)).map (fun p => fval t (gotA gs (p / n)) (p % n))
/-- The products of A and B over the group. A product 0 x ∞ is a NaN (R275). -/
def groupProducts (t : FType) (gs : List (Nat × Thread × Got)) : List FV :=
  let n := subCount t.width
  (List.range (32 * n)).map (fun p => (mulF (fval t (gotA gs (p / n)) (p % n)) (fval t (gotB gs (p / n)) (p % n))).1)

def noWord : Nat → Word := fun _ => 0
def noFlags : Nat → Flags := fun _ => 0

def execKclr (g : Guard) (s : State) : Host.Outcome State Fault Refusal :=
  collWord g none none none none (fun _ _ =>
    .ok (noWord, noFlags, fun gr => gr.setKul ⟨0, false, false, false, false⟩)) s
def execKadd (g : Guard) (pat : LanePat) (ty : FType) (a : Src) (s : State) : Host.Outcome State Fault Refusal :=
  collWord g none (srcP pat (.flt ty) a) none none (fun e gs =>
    unpoisoned e [markK] (.ok (noWord, noFlags, fun gr => gr.setKul (e.g.kul.add (groupVals ty gs))))) s
def execKmac (g : Guard) (pat : Pat) (ty : FType) (a b : Src) (s : State) : Host.Outcome State Fault Refusal :=
  collWord g none (srcA pat (.flt ty) a) (srcB pat (.flt ty) b) none (fun e gs =>
    unpoisoned e [markK] (.ok (noWord, noFlags, fun gr => gr.setKul (e.g.kul.add (groupProducts ty gs))))) s
def execKrnd (g : Guard) (ty : FType) (r : Rnd) (d : Operand) (s : State) : Host.Outcome State Fault Refusal :=
  collWord g (some d) none none none (fun e _ =>
    let (c, fl) := e.g.kul.round ty r
    unpoisoned e [markK] (.ok (fun _ => mapSub ty.width (fun _ => c), fun _ => fl, fun gr => gr))) s

/-- k after an exact running sum v, with the sticky bits of k0 and of the terms so far (R277). -/
def Kul.at (k0 : Kul) (v : Int) (kp kn kq : Bool) : Kul :=
  ⟨BitVec.ofInt 2176 v, kp, kn, kq, k0.ko || decide (v < -(2 ^ 2175)) || decide (2 ^ 2175 ≤ v)⟩

/-- The roundings of the running sums over positions, and k at the end. -/
def kscanGo (t : FType) (r : Rnd) (k0 : Kul) (v : Int) (kp kn kq : Bool) : List FV → List (Nat × Flags) × Kul
  | [] => ([], k0.at v kp kn kq)
  | x :: xs =>
    let v' := v + kulSum [x]
    let kp' := kp || decide (x = .inf false)
    let kn' := kn || decide (x = .inf true)
    let kq' := kq || isNan x
    let (l, kEnd) := kscanGo t r k0 v' kp' kn' kq' xs
    ((k0.at v' kp' kn' kq').round t r :: l, kEnd)

def execKscan (o : Un FType) (r : Rnd) (s : State) : Host.Outcome State Fault Refusal :=
  collWord o.g (some o.d) (srcA o.pat (.flt o.ty) o.a) none none (fun e gs =>
    let n := subCount o.ty.width
    let k0 := e.g.kul
    let (l, k) := kscanGo o.ty r k0 k0.k.toInt k0.kp k0.kn k0.kq (groupVals o.ty gs)
    let mine := fun i => (l.drop (i * n)).take n
    unpoisoned e [markK] (.ok (fun i => pack o.ty.width ((mine i).map (fun p => p.1)),
      fun i => orFlags ((mine i).map (fun p => p.2)), fun gr => gr.setKul k))) s

/-! ## Check residues (R156, R278) -/

def resM : Nat := 2 ^ 61 - 1
def Group.cval (g : Group) (n : Nat) : Word := Table.getD g.c n 0
def Group.setC (g : Group) (n : Fin 4) (w : Word) : Group :=
  { g with c := Table.set g.c n.val w, poisoned := g.poisoned.filter (fun m => m ≠ markC n) }

/-- The residue of an integer, never negative (R156). -/
def residue (v : Int) : Nat := (v % (resM : Int)).toNat

def execCkclr (g : Guard) (c : Fin 4) (arg : CkclrArg) (s : State) : Host.Outcome State Fault Refusal :=
  match arg with
  | .clear => collWord g none none none none (fun _ _ => .ok (noWord, noFlags, fun gr => gr.setC c 0)) s
  | .set a pat => collWord g none (srcP pat .whole a) none none (fun _ gs =>
      .ok (noWord, noFlags, fun gr => gr.setC c (word (residue (gotA gs 0).toNat)))) s

/-- The sum of the residues of all sub-elements of the group. -/
def ckSum (t : IType) (gs : List (Nat × Thread × Got)) : Nat :=
  let n := subCount t.width
  ((List.range (32 * n)).map (fun p => residue (subI t (gotA gs (p / n)) (p % n)))).foldl (· + ·) 0

def execCkacc (g : Guard) (pat : LanePat) (ty : IType) (c : Fin 4) (a : Src) (sub : Bool) (s : State) :
    Host.Outcome State Fault Refusal :=
  collWord g none (srcP pat (.int ty) a) none none (fun e gs =>
    let old : Int := (e.g.cval c.val).toNat
    let x : Int := ckSum ty gs
    unpoisoned e [markC c] (.ok (noWord, noFlags, fun gr =>
      gr.setC c (word (residue (if sub then old - x else old + x)))))) s

/-- The check of two residues: trap 0x12 in every thread if they differ, with both c fields in tval (R278, R364). -/
def execCkchk (g : Guard) (arg : CkchkArg) (s : State) : Host.Outcome State Fault Refusal :=
  match arg with
  | .check ca cb => collWord g none none none none (fun e _ =>
      unpoisoned e [markC ca, markC cb]
        (if e.g.cval ca.val ≠ e.g.cval cb.val then .error ⟨0x12, word (ca.val + cb.val * 256)⟩
         else .ok (noWord, noFlags, fun gr => gr))) s
  | .get d ca => collWord g (some d) none none none (fun e _ =>
      unpoisoned e [markC ca] (.ok (fun _ => e.g.cval ca.val, noFlags, fun gr => gr))) s

/-! ## Random numbers (R279) -/

def rngNext (g : Word) : Word := g + 0x9E3779B97F4A7C15
def rngMix (g : Word) : Word :=
  let z := (g ^^^ (g >>> 30)) * 0xBF58476D1CE4E5B9
  let z := (z ^^^ (z >>> 27)) * 0x94D049BB133111EB
  z ^^^ (z >>> 31)

/-- n x 2^-k in a format that holds it exactly. -/
def unif (t : FType) (n k : Nat) : Nat := (roundF t .rn false n (-(k : Int))).1

/-- A draw: the state advances and the value goes to dst. -/
def rngDraw (g : Guard) (d : Operand) (f : Word → Word) (s : State) : Host.Outcome State Fault Refusal :=
  lanewise g (lane (some d) none none none (fun r =>
    let g' := rngNext r.t.rng
    .ok ({ r.t with rng := g' }.put r.d (f (rngMix g'))))) s

def execRng (g : Guard) (arg : RngArg) (s : State) : Host.Outcome State Fault Refusal :=
  match arg with
  | .raw d => rngDraw g d (fun z => z) s
  | .unifF32 d => rngDraw g d (fun z => mapSub 32 (fun i => unif .f32 (bits z (32 * i + 31) (32 * i + 8)) 24)) s
  | .unifF16 d => rngDraw g d (fun z => mapSub 16 (fun i => unif .f16 (bits z (16 * i + 15) (16 * i + 5)) 11)) s
  | .seed a pat => lanewise g (lane none (srcP pat .whole a) none none (fun r => .ok { r.t with rng := r.a })) s

end Sys2Proof.Machine
end

