-- ==== Sys2Proof/Machine/Dispatch.lean ====
section
/-!
DEFINITION. The one dispatch: an arm per constructor of `Instr`, each a direct call of that constructor's meaning.
-/
namespace Sys2Proof.Machine

def exec (i : Instr) (s : State) : Host.Outcome State Fault Refusal :=
  match i with
  | .add o sat => Sys2Proof.Machine.execAdd o sat s
  | .sub o sat => Sys2Proof.Machine.execSub o sat s
  | .mul o sat => Sys2Proof.Machine.execMul o sat s
  | .mulhi o => Sys2Proof.Machine.execMulhi o s
  | .mad o sat => Sys2Proof.Machine.execMad o sat s
  | .div o => Sys2Proof.Machine.execDiv o s
  | .rem o => Sys2Proof.Machine.execRem o s
  | .min o => Sys2Proof.Machine.execMin o s
  | .max o => Sys2Proof.Machine.execMax o s
  | .abs o sat => Sys2Proof.Machine.execAbs o sat s
  | .neg o sat => Sys2Proof.Machine.execNeg o sat s
  | .and o => Sys2Proof.Machine.execAnd o s
  | .or o => Sys2Proof.Machine.execOr o s
  | .xor o => Sys2Proof.Machine.execXor o s
  | .andn o => Sys2Proof.Machine.execAndn o s
  | .not o => Sys2Proof.Machine.execNot o s
  | .shl o => Sys2Proof.Machine.execShl o s
  | .shr o => Sys2Proof.Machine.execShr o s
  | .sar o => Sys2Proof.Machine.execSar o s
  | .rotl o => Sys2Proof.Machine.execRotl o s
  | .clz o => Sys2Proof.Machine.execClz o s
  | .popc o => Sys2Proof.Machine.execPopc o s
  | .brev o => Sys2Proof.Machine.execBrev o s
  | .bfx o => Sys2Proof.Machine.execBfx o s
  | .bfi o => Sys2Proof.Machine.execBfi o s
  | .sel o pq neg => Sys2Proof.Machine.execSel o pq neg s
  | .mov o => Sys2Proof.Machine.execMov o s
  | .cvti o from_ start sat => Sys2Proof.Machine.execCvti o from_ start sat s
  | .lea o scale => Sys2Proof.Machine.execLea o scale s
  | .ptag o => Sys2Proof.Machine.execPtag o s
  | .pchk o kind => Sys2Proof.Machine.execPchk o kind s
  | .cmp g pat ty pd a b cond any => Sys2Proof.Machine.execCmp g pat ty pd a b cond any s
  | .pand g pd pa pb => Sys2Proof.Machine.execPand g pd pa pb s
  | .por g pd pa pb => Sys2Proof.Machine.execPor g pd pa pb s
  | .pxor g pd pa pb => Sys2Proof.Machine.execPxor g pd pa pb s
  | .pnot g pd pa => Sys2Proof.Machine.execPnot g pd pa s
  | .pmov g arg => Sys2Proof.Machine.execPmov g arg s
  | .ixset g pat x a => Sys2Proof.Machine.execIxset g pat x a s
  | .ixcur g pat x a add => Sys2Proof.Machine.execIxcur g pat x a add s
  | .ixget g d x => Sys2Proof.Machine.execIxget g d x s
  | .qcfg g q depth => Sys2Proof.Machine.execQcfg g q depth s
  | .qocc g d q => Sys2Proof.Machine.execQocc g d q s
  | .free g n count1 => Sys2Proof.Machine.execFree g n count1 s
  | .fadd o r => Sys2Proof.Machine.execFadd o r s
  | .fsub o r => Sys2Proof.Machine.execFsub o r s
  | .fmul o r => Sys2Proof.Machine.execFmul o r s
  | .fma o r => Sys2Proof.Machine.execFma o r s
  | .fmin o nan => Sys2Proof.Machine.execFmin o nan s
  | .fmax o nan => Sys2Proof.Machine.execFmax o nan s
  | .fcmp g pat ty pd a b cond any => Sys2Proof.Machine.execFcmp g pat ty pd a b cond any s
  | .fdiv o r => Sys2Proof.Machine.execFdiv o r s
  | .fsqrt o r => Sys2Proof.Machine.execFsqrt o r s
  | .frcp o r => Sys2Proof.Machine.execFrcp o r s
  | .frsq o r => Sys2Proof.Machine.execFrsq o r s
  | .fexp2 o r => Sys2Proof.Machine.execFexp2 o r s
  | .flog2 o r => Sys2Proof.Machine.execFlog2 o r s
  | .fsin o r => Sys2Proof.Machine.execFsin o r s
  | .fcos o r => Sys2Proof.Machine.execFcos o r s
  | .ftanh o r => Sys2Proof.Machine.execFtanh o r s
  | .frnd o exact r => Sys2Proof.Machine.execFrnd o exact r s
  | .fclass o => Sys2Proof.Machine.execFclass o s
  | .fcvt o from_ start r => Sys2Proof.Machine.execFcvt o from_ start r s
  | .ftoi o from_ start r => Sys2Proof.Machine.execFtoi o from_ start r s
  | .itof o from_ start r => Sys2Proof.Machine.execItof o from_ start r s
  | .fscale o sel r => Sys2Proof.Machine.execFscale o sel r s
  | .qbp o planes sel => Sys2Proof.Machine.execQbp o planes sel s
  | .dqbp o planes sel r => Sys2Proof.Machine.execDqbp o planes sel r s
  | .fdot4 o r => Sys2Proof.Machine.execFdot4 o r s
  | .idot4 o sat => Sys2Proof.Machine.execIdot4 o sat s
  | .shfl o => Sys2Proof.Machine.execShfl o s
  | .bnset g pat gran d a n => Sys2Proof.Machine.execBnset g pat gran d a n s
  | .bnmov g pat d a n => Sys2Proof.Machine.execBnmov g pat d a n s
  | .vote g pat fn d a => Sys2Proof.Machine.execVote g pat fn d a s
  | .kclr g => Sys2Proof.Machine.execKclr g s
  | .kadd g pat ty a => Sys2Proof.Machine.execKadd g pat ty a s
  | .kmac g pat ty a b => Sys2Proof.Machine.execKmac g pat ty a b s
  | .krnd g ty r d => Sys2Proof.Machine.execKrnd g ty r d s
  | .kscan o r => Sys2Proof.Machine.execKscan o r s
  | .ckclr g c arg => Sys2Proof.Machine.execCkclr g c arg s
  | .ckacc g pat ty c a sub => Sys2Proof.Machine.execCkacc g pat ty c a sub s
  | .ckchk g arg => Sys2Proof.Machine.execCkchk g arg s
  | .rng g arg => Sys2Proof.Machine.execRng g arg s
  | .ld g pat ty ord sc d a => Sys2Proof.Machine.execLd g pat ty ord sc d a s
  | .st g pat ty ord sc a b => Sys2Proof.Machine.execSt g pat ty ord sc a b s
  | .lds g pat ty x16 fn d a off => Sys2Proof.Machine.execLds g pat ty x16 fn d a off s
  | .sts g pat ty x16 fill a b off => Sys2Proof.Machine.execSts g pat ty x16 fill a b off s
  | .ldp g pat ord sc n a count => Sys2Proof.Machine.execLdp g pat ord sc n a count s
  | .stp g pat ord sc a n lastB count => Sys2Proof.Machine.execStp g pat ord sc a n lastB count s
  | .pref g pat a poc => Sys2Proof.Machine.execPref g pat a poc s
  | .atom g pat ty op ord sc n a b => Sys2Proof.Machine.execAtom g pat ty op ord sc n a b s
  | .red g pat ty op ord sc a b => Sys2Proof.Machine.execRed g pat ty op ord sc a b s
  | .fence g ord sc => Sys2Proof.Machine.execFence g ord sc s
  | .feop g pat set a b => Sys2Proof.Machine.execFeop g pat set a b s
  | .tdef g pat d a => Sys2Proof.Machine.execTdef g pat d a s
  | .tacq g pat write a => Sys2Proof.Machine.execTacq g pat write a s
  | .trel g pat d a => Sys2Proof.Machine.execTrel g pat d a s
  | .tsplit g pat n a b dim => Sys2Proof.Machine.execTsplit g pat n a b dim s
  | .tfree g pat a => Sys2Proof.Machine.execTfree g pat a s
  | .tqry g pat d a => Sys2Proof.Machine.execTqry g pat d a s
  | .edq g pat fn d a b => Sys2Proof.Machine.execEdq g pat fn d a b s
  | .edcopy g pat d a => Sys2Proof.Machine.execEdcopy g pat d a s
  | .pub g pat sc d a => Sys2Proof.Machine.execPub g pat sc d a s
  | .adopt g => Sys2Proof.Machine.execAdopt g s
  | .retract g pat d a => Sys2Proof.Machine.execRetract g pat d a s
  | .rwait g pat d a => Sys2Proof.Machine.execRwait g pat d a s
  | .cpy o dstSpad srcSpad => Sys2Proof.Machine.execCpy o dstSpad srcSpad s
  | .cpyt o => Sys2Proof.Machine.execCpyt o s
  | .gath o dstSpad idxSpad => Sys2Proof.Machine.execGath o dstSpad idxSpad s
  | .coll g pat d a lvl => Sys2Proof.Machine.execColl g pat d a lvl s
  | .vcmd g pat d a eng => Sys2Proof.Machine.execVcmd g pat d a eng s
  | .engq g pat wait d a kind media => Sys2Proof.Machine.execEngq g pat wait d a kind media s
  | .fork g pat a b c => Sys2Proof.Machine.execFork g pat a b c s
  | .rdv g d => Sys2Proof.Machine.execRdv g d s
  | .bar g lvl => Sys2Proof.Machine.execBar g lvl s
  | .arrv g d lvl => Sys2Proof.Machine.execArrv g d lvl s
  | .bwait g pat a lvl => Sys2Proof.Machine.execBwait g pat a lvl s
  | .semw g pat sc take d a b => Sys2Proof.Machine.execSemw g pat sc take d a b s
  | .sems g pat sc a b => Sys2Proof.Machine.execSems g pat sc a b s
  | .spush g pat n last die => Sys2Proof.Machine.execSpush g pat n last die s
  | .spop g n sel => Sys2Proof.Machine.execSpop g n sel s
  | .join g pat sc d a die => Sys2Proof.Machine.execJoin g pat sc d a die s
  | .launch o => Sys2Proof.Machine.execLaunch o s
  | .mbld g pat glob a planes => Sys2Proof.Machine.execMbld g pat glob a planes s
  | .mbswp g => Sys2Proof.Machine.execMbswp g s
  | .marb g pat glob a b rows1 => Sys2Proof.Machine.execMarb g pat glob a b rows1 s
  | .mma g tile planes => Sys2Proof.Machine.execMma g tile planes s
  | .mzero g pat tile a count1 => Sys2Proof.Machine.execMzero g pat tile a count1 s
  | .mrd g pat n tile b => Sys2Proof.Machine.execMrd g pat n tile b s
  | .mwr g pat tile n lastA b => Sys2Proof.Machine.execMwr g pat tile n lastA b s
  | .mdrain g pat d tile a n lastB m lastC sel add clr => Sys2Proof.Machine.execMdrain g pat d tile a n lastB m lastC sel add clr s
  | .csrr g d csr => Sys2Proof.Machine.execCsrr g d csr s
  | .csrw g pat d csr a => Sys2Proof.Machine.execCsrw g pat d csr a s
  | .csrs g pat d csr a => Sys2Proof.Machine.execCsrs g pat d csr a s
  | .csrc g pat d csr a => Sys2Proof.Machine.execCsrc g pat d csr a s
  | .sysc g fn => Sys2Proof.Machine.execSysc g fn s
  | .eret g => Sys2Proof.Machine.execEret g s
  | .movi g d z imm => Sys2Proof.Machine.execMovi g d z imm s
  | .movhi o => Sys2Proof.Machine.execMovhi o s
  | .addi o sat => Sys2Proof.Machine.execAddi o sat s
  | .andi o sg => Sys2Proof.Machine.execAndi o sg s
  | .ori o sg => Sys2Proof.Machine.execOri o sg s
  | .xori o sg => Sys2Proof.Machine.execXori o sg s
  | .cmpi g pd a cond uns imm => Sys2Proof.Machine.execCmpi g pd a cond uns imm s
  | .ldo o size ord => Sys2Proof.Machine.execLdo o size ord s
  | .sto o size ord => Sys2Proof.Machine.execSto o size ord s
  | .bra g hint off => Sys2Proof.Machine.execBra g hint off s
  | .brx g hint a => Sys2Proof.Machine.execBrx g hint a s
  | .call g hint l off => Sys2Proof.Machine.execCall g hint l off s
  | .callx g hint l a => Sys2Proof.Machine.execCallx g hint l a s
  | .rtn g hint a => Sys2Proof.Machine.execRtn g hint a s
  | .yield g => Sys2Proof.Machine.execYield g s
  | .tail g => Sys2Proof.Machine.execTail g s
  | .exit g => Sys2Proof.Machine.execExit g s
  | .trap g imm => Sys2Proof.Machine.execTrap g imm s
  | .bpt g imm => Sys2Proof.Machine.execBpt g imm s
  | .nop g => Sys2Proof.Machine.execNop g s
  | .addHalf h0 h1 => Sys2Proof.Machine.execAddHalf h0 h1 s
  | .subHalf h0 h1 => Sys2Proof.Machine.execSubHalf h0 h1 s
  | .mulHalf h0 h1 => Sys2Proof.Machine.execMulHalf h0 h1 s
  | .andHalf h0 h1 => Sys2Proof.Machine.execAndHalf h0 h1 s
  | .orHalf h0 h1 => Sys2Proof.Machine.execOrHalf h0 h1 s
  | .xorHalf h0 h1 => Sys2Proof.Machine.execXorHalf h0 h1 s
  | .andnHalf h0 h1 => Sys2Proof.Machine.execAndnHalf h0 h1 s
  | .shlHalf h0 h1 => Sys2Proof.Machine.execShlHalf h0 h1 s
  | .shrHalf h0 h1 => Sys2Proof.Machine.execShrHalf h0 h1 s
  | .sarHalf h0 h1 => Sys2Proof.Machine.execSarHalf h0 h1 s
  | .minHalf h0 h1 => Sys2Proof.Machine.execMinHalf h0 h1 s
  | .maxHalf h0 h1 => Sys2Proof.Machine.execMaxHalf h0 h1 s
  | .movHalf h0 h1 => Sys2Proof.Machine.execMovHalf h0 h1 s
  | .negHalf h0 h1 => Sys2Proof.Machine.execNegHalf h0 h1 s
  | .absHalf h0 h1 => Sys2Proof.Machine.execAbsHalf h0 h1 s
  | .faddHalf h0 h1 => Sys2Proof.Machine.execFaddHalf h0 h1 s
  | .fsubHalf h0 h1 => Sys2Proof.Machine.execFsubHalf h0 h1 s
  | .fmulHalf h0 h1 => Sys2Proof.Machine.execFmulHalf h0 h1 s
  | .fminHalf h0 h1 => Sys2Proof.Machine.execFminHalf h0 h1 s
  | .fmaxHalf h0 h1 => Sys2Proof.Machine.execFmaxHalf h0 h1 s
  | .faultQueueSlotFreed die ctx => Sys2Proof.Machine.execFaultQueueSlotFreed die ctx s
  | .replayReexecution die ctx => Sys2Proof.Machine.execReplayReexecution die ctx s
  | .issueSelection core laneSet => Sys2Proof.Machine.execIssueSelection core laneSet s
  | .editionAwaitRelease ctx buf => Sys2Proof.Machine.execEditionAwaitRelease ctx buf s
  | .yieldExpiry core slot lane => Sys2Proof.Machine.execYieldExpiry core slot lane s
  | .convRelease core slot => Sys2Proof.Machine.execConvRelease core slot s
  | .barrierPhaseComplete grid level member => Sys2Proof.Machine.execBarrierPhaseComplete grid level member s
  | .semwRelease pa => Sys2Proof.Machine.execSemwRelease pa s
  | .bankAccess core bank => Sys2Proof.Machine.execBankAccess core bank s
  | .drainComplete core slot => Sys2Proof.Machine.execDrainComplete core slot s
  | .engineSlotFreed core e => Sys2Proof.Machine.execEngineSlotFreed core e s
  | .engineCommandStart core e => Sys2Proof.Machine.execEngineCommandStart core e s
  | .engineCommandComplete core e => Sys2Proof.Machine.execEngineCommandComplete core e s
  | .sequencerStep core e => Sys2Proof.Machine.execSequencerStep core e s
  | .collectiveComplete grid level member seq => Sys2Proof.Machine.execCollectiveComplete grid level member seq s
  | .mbldComplete core => Sys2Proof.Machine.execMbldComplete core s
  | .mmaComplete core => Sys2Proof.Machine.execMmaComplete core s
  | .drainingEnd core => Sys2Proof.Machine.execDrainingEnd core s
  | .pubFirstPhaseAck core ctx buf => Sys2Proof.Machine.execPubFirstPhaseAck core ctx buf s
  | .pubCommit ctx buf => Sys2Proof.Machine.execPubCommit ctx buf s
  | .pocLoad core r => Sys2Proof.Machine.execPocLoad core r s
  | .pocStore core => Sys2Proof.Machine.execPocStore core s
  | .pocAtomic core => Sys2Proof.Machine.execPocAtomic core s
  | .loadReply core => Sys2Proof.Machine.execLoadReply core s
  | .translationWalk core ctx va => Sys2Proof.Machine.execTranslationWalk core ctx va s
  | .pocScrub die line => Sys2Proof.Machine.execPocScrub die line s
  | .l1Scrub core line => Sys2Proof.Machine.execL1Scrub core line s
  | .annexReadRequest die line => Sys2Proof.Machine.execAnnexReadRequest die line s
  | .annexStoreRequest die line => Sys2Proof.Machine.execAnnexStoreRequest die line s
  | .homeCoreAccess line store => Sys2Proof.Machine.execHomeCoreAccess line store s
  | .regionMerge die base => Sys2Proof.Machine.execRegionMerge die base s
  | .snoopReceived die line => Sys2Proof.Machine.execSnoopReceived die line s
  | .invalidationAck die line => Sys2Proof.Machine.execInvalidationAck die line s
  | .dirtyWriteBack die line => Sys2Proof.Machine.execDirtyWriteBack die line s
  | .requestRetry die line => Sys2Proof.Machine.execRequestRetry die line s
  | .replicatedUpdate sbox => Sys2Proof.Machine.execReplicatedUpdate sbox s
  | .replicatedBufferAck die u => Sys2Proof.Machine.execReplicatedBufferAck die u s
  | .replicatedCommit sbox seq => Sys2Proof.Machine.execReplicatedCommit sbox seq s
  | .replicatedApply die => Sys2Proof.Machine.execReplicatedApply die s
  | .recall die index => Sys2Proof.Machine.execRecall die index s
  | .recallLimitExpiry die index => Sys2Proof.Machine.execRecallLimitExpiry die index s
  | .recallAck die index => Sys2Proof.Machine.execRecallAck die index s
  | .tenureGrant die index => Sys2Proof.Machine.execTenureGrant die index s
  | .spushRoom siding => Sys2Proof.Machine.execSpushRoom siding s
  | .joinDeferredPush siding => Sys2Proof.Machine.execJoinDeferredPush siding s
  | .gridStart ctx queue => Sys2Proof.Machine.execGridStart ctx queue s
  | .yardAdmission die => Sys2Proof.Machine.execYardAdmission die s
  | .blockReservation grid block => Sys2Proof.Machine.execBlockReservation grid block s
  | .yardPreemption grid block => Sys2Proof.Machine.execYardPreemption grid block s
  | .gridEnd grid => Sys2Proof.Machine.execGridEnd grid s
  | .blockContainment grid block => Sys2Proof.Machine.execBlockContainment grid block s
  | .blockCommit grid block => Sys2Proof.Machine.execBlockCommit grid block s
  | .blockRelaunch grid block => Sys2Proof.Machine.execBlockRelaunch grid block s
  | .errorDetected e => Sys2Proof.Machine.execErrorDetected e s
  | .coreWithdrawal core => Sys2Proof.Machine.execCoreWithdrawal core s
  | .linkReplay k link lane => Sys2Proof.Machine.execLinkReplay k link lane s
  | .requestReissue core id => Sys2Proof.Machine.execRequestReissue core id s
  | .peerLoss port peer => Sys2Proof.Machine.execPeerLoss port peer s
  | .peerAccess core => Sys2Proof.Machine.execPeerAccess core s
  | .hostAccess op => Sys2Proof.Machine.execHostAccess op s
  | .captureSample die source value ctx => Sys2Proof.Machine.execCaptureSample die source value ctx s
  | .captureClear die unit => Sys2Proof.Machine.execCaptureClear die unit s
  | .registerWrite pa n v => Sys2Proof.Machine.execRegisterWrite pa n v s
  | .mediaCommandStart eng => Sys2Proof.Machine.execMediaCommandStart eng s
  | .mediaRow eng => Sys2Proof.Machine.execMediaRow eng s
  | .mediaFilteredWait eng => Sys2Proof.Machine.execMediaFilteredWait eng s
  | .mediaCommandComplete eng => Sys2Proof.Machine.execMediaCommandComplete eng s
  | .mediaStreamError eng => Sys2Proof.Machine.execMediaStreamError eng s
  | .conv => Sys2Proof.Machine.execConv s
  | .clockSelfAdvance => Sys2Proof.Machine.execClockSelfAdvance s
  | .referenceExchange => Sys2Proof.Machine.execReferenceExchange s
  | .boundsInvalidationAck => Sys2Proof.Machine.execBoundsInvalidationAck s
  | .shootdownAck => Sys2Proof.Machine.execShootdownAck s
  | .hostSectorRelease => Sys2Proof.Machine.execHostSectorRelease s
  | .hostMemoryResponse => Sys2Proof.Machine.execHostMemoryResponse s
  | .powerClockStep => Sys2Proof.Machine.execPowerClockStep s
  | .arithmeticClockRaise => Sys2Proof.Machine.execArithmeticClockRaise s
  | .deviceReset => Sys2Proof.Machine.execDeviceReset s
  | .createCtx => Sys2Proof.Machine.execCreateCtx s
  | .destroyCtx => Sys2Proof.Machine.execDestroyCtx s
  | .mapPage => Sys2Proof.Machine.execMapPage s
  | .mapEdition => Sys2Proof.Machine.execMapEdition s
  | .unmap => Sys2Proof.Machine.execUnmap s
  | .loadSegment => Sys2Proof.Machine.execLoadSegment s
  | .launchCommand => Sys2Proof.Machine.execLaunchCommand s
  | .saveCtx => Sys2Proof.Machine.execSaveCtx s
  | .restoreCtx => Sys2Proof.Machine.execRestoreCtx s
  | .faultReplay => Sys2Proof.Machine.execFaultReplay s
  | .faultCancel => Sys2Proof.Machine.execFaultCancel s
  | .dropChannel => Sys2Proof.Machine.execDropChannel s
  | .setPolicyBoundsEntry => Sys2Proof.Machine.execSetPolicyBoundsEntry s
  | .setPolicyVectors => Sys2Proof.Machine.execSetPolicyVectors s
  | .setPolicySignalBox => Sys2Proof.Machine.execSetPolicySignalBox s
  | .setPolicyQuietInterval => Sys2Proof.Machine.execSetPolicyQuietInterval s
  | .setPolicyCodePublication => Sys2Proof.Machine.execSetPolicyCodePublication s
  | .setPolicyLaunchQueue => Sys2Proof.Machine.execSetPolicyLaunchQueue s
  | .setPolicyKeySlot => Sys2Proof.Machine.execSetPolicyKeySlot s
  | .setPolicyErrorWindow => Sys2Proof.Machine.execSetPolicyErrorWindow s
  | .setPolicyPeerBase => Sys2Proof.Machine.execSetPolicyPeerBase s
  | .queryRevision => Sys2Proof.Machine.execQueryRevision s
  | .queryFeatures => Sys2Proof.Machine.execQueryFeatures s
  | .queryCapacity => Sys2Proof.Machine.execQueryCapacity s
  | .queryFailureRecord => Sys2Proof.Machine.execQueryFailureRecord s
  | .queryFailingUnits => Sys2Proof.Machine.execQueryFailingUnits s
  | .queryIdentityKeyHash => Sys2Proof.Machine.execQueryIdentityKeyHash s
  | .queryImageSize => Sys2Proof.Machine.execQueryImageSize s
  | .attest => Sys2Proof.Machine.execAttest s
  | .mediaReset => Sys2Proof.Machine.execMediaReset s
  | .unknownCommand => Sys2Proof.Machine.execUnknownCommand s
  | .doorbellOverrun => Sys2Proof.Machine.execDoorbellOverrun s

end Sys2Proof.Machine
end

