-- ==== Sys2Proof/Machine/Step.lean ====
section
/-!
DEFINITION. One step: the first issue of the cycle fetches, decodes and executes its word, or, when nothing is being issued, the next
event of the agenda or the next cycle of a lane-set takes place. Everything is done by the operations that this file calls.
-/
namespace Sys2Proof.Machine

/-- One step of the machine. -/
def step (s : State) : Host.Outcome State Fault Refusal :=
  match s.issue with
  | [] => exec s.nextEvent.2 s.nextEvent.1
  | i :: rest =>
    match s.prepare i rest with
    | (t, none) => .next t
    | (t, some ins) =>
      match exec ins t with
      | .next u => .next (u.finish ins)
      | .fault f => .fault f
      | .refused r => .refused r

/-- The state with an instruction placed so that the next step fetches and executes it: a context, a grid and a group stand ready at its
word, as the loader and the yard leave them (log entry 2). -/
def State.withFetchWord (s : State) (nbits w : Nat) : State := s.loadWord (word (w % 2 ^ nbits))

end Sys2Proof.Machine
end

