-- ==== Sys2Proof/Safety.lean ====
section
/-!
DEFINITION. The terms that statements use: the invariants of a state, the spec's arithmetic on sub-elements written without the machine's own
operations, and what it means that a word of each shape completes with a given effect.
-/
namespace Sys2Proof.Machine

/-- A thread whose status registers hold only what R220 lets them hold, tctl bit 0, astat bits 13:8 and 5:0, tmode bit 0, and whose index
registers have a bound of 1 to 128 (R122). -/
def Thread.legal (t : Thread) : Prop :=
  t.tctl &&& 1 = t.tctl ∧ t.astat &&& 0x3F3F = t.astat ∧ t.tmode &&& 1 = t.tmode ∧
  ∀ p ∈ t.x, 1 ≤ p.2.bound.toNat ∧ p.2.bound.toNat ≤ 128

/-- The memory of a state is in its canonical form: equal memories are equal data. -/
def State.memOk (s : State) : Prop := Memory.wf s.mem = true

end Sys2Proof.Machine

namespace Sys2Proof.Claims

open Sys2Proof.Machine

/-! ## Sub-elements (R136, R137) -/

/-- Sub-element i of width w of a word, as a number. -/
def elemN (w : Nat) (a : Word) (i : Nat) : Nat := a.toNat / 2 ^ (w * i) % 2 ^ w

/-- Sub-element i of a word under an integer type: two's complement under i types (R137). -/
def elemI (t : IType) (a : Word) (i : Nat) : Int :=
  if t.signed = true ∧ 2 ^ (t.width - 1) ≤ elemN t.width a i then (elemN t.width a i : Int) - 2 ^ t.width else elemN t.width a i

/-- The word whose sub-elements of width w are given; the bits above the last one are zero. -/
def assemble (w : Nat) (f : Nat → Nat) : Word := BitVec.ofNat 64 (((List.range (64 / w)).map (fun i => f i * 2 ^ (w * i))).sum)

/-- The least and the greatest value of an integer type (R137). -/
def leastI (t : IType) : Int := if t.signed then -(2 ^ (t.width - 1)) else 0
def greatestI (t : IType) : Int := if t.signed then 2 ^ (t.width - 1) - 1 else 2 ^ t.width - 1

/-- An exact integer result as it is stored: modulo 2^w, or clamped first under .sat (R137, R198). -/
def stored (t : IType) (sat : Bool) (r : Int) : Nat :=
  ((if sat = true ∧ r < leastI t then leastI t else if sat = true ∧ greatestI t < r then greatestI t else r) % 2 ^ t.width).toNat

/-- The word of exact integer results, one for each sub-element. -/
def intWord (t : IType) (sat : Bool) (f : Nat → Int) : Word := assemble t.width (fun i => stored t sat (f i))

/-- A division case of R138 in sub-element i: a divisor of 0, or under an i type the least dividend and the divisor -1. -/
def divisionCase (t : IType) (a b : Word) (i : Nat) : Bool :=
  decide (elemI t b i = 0) || (t.signed && decide (elemI t a i = leastI t) && decide (elemI t b i = -1))

/-- The quotient rounded toward zero and the remainder, with R138's results where the divisor is 0. -/
def quotient (t : IType) (a b : Word) (i : Nat) : Int :=
  if elemI t b i = 0 then (if t.signed then -1 else 2 ^ t.width - 1) else (elemI t a i).tdiv (elemI t b i)
def remainder (t : IType) (a b : Word) (i : Nat) : Int :=
  if elemI t b i = 0 then elemI t a i else (elemI t a i).tmod (elemI t b i)

/-- DZ where a division case arises in some sub-element (R138, R139). -/
def divisionFlags (t : IType) (a b : Word) : Nat := if (List.range (64 / t.width)).any (divisionCase t a b) then 0x20 else 0

/-- A word from the bits of each sub-element, taken modulo 2^w. -/
def bitsWord (w : Nat) (f : Nat → Nat) : Word := assemble w (fun i => f i % 2 ^ w)

/-- Bit j of a number. -/
def bitOf (n j : Nat) : Nat := n / 2 ^ j % 2

/-- Bit w - 1 of an element tells the sign that SAR copies (R199). -/
def signValue (w n : Nat) : Int := if 2 ^ (w - 1) ≤ n then (n : Int) - 2 ^ w else n

/-- Number of leading zero bits of an element of width w (R199). -/
def leadingZeros (w n : Nat) : Nat := if n = 0 then w else w - 1 - Nat.log2 n

/-- The shifts of R199 on a word of elements of width w, the count an element of B taken as unsigned. -/
def shlWord (w : Nat) (a b : Word) : Word := bitsWord w (fun i => if w ≤ elemN w b i then 0 else elemN w a i * 2 ^ elemN w b i)
def shrWord (w : Nat) (a b : Word) : Word := bitsWord w (fun i => if w ≤ elemN w b i then 0 else elemN w a i / 2 ^ elemN w b i)
def sarWord (w : Nat) (a b : Word) : Word :=
  bitsWord w (fun i => (signValue w (elemN w a i) / 2 ^ elemN w b i % 2 ^ w).toNat)

/-- The minimum and the maximum of R198. -/
def minWord (t : IType) (a b : Word) : Word := intWord t false (fun i => if elemI t a i ≤ elemI t b i then elemI t a i else elemI t b i)
def maxWord (t : IType) (a b : Word) : Word := intWord t false (fun i => if elemI t a i ≤ elemI t b i then elemI t b i else elemI t a i)

/-- What a class A half computes (R183, R189): the F-form instruction of its name with modifier zero. -/
def halfWord (op : HalfOp) (t : IType) (a b : Word) : Word :=
  match op with
  | .add => intWord t false (fun i => elemI t a i + elemI t b i)
  | .sub => intWord t false (fun i => elemI t a i - elemI t b i)
  | .mul => intWord t false (fun i => elemI t a i * elemI t b i)
  | .and => a &&& b
  | .or => a ||| b
  | .xor => a ^^^ b
  | .andn => a &&& ~~~b
  | .shl => shlWord t.width a b
  | .shr => shrWord t.width a b
  | .sar => sarWord t.width a b
  | .min => minWord t a b
  | .max => maxWord t a b
  | .mov => a
  | .neg => intWord t false (fun i => -(elemI t a i))
  | .abs => intWord t false (fun i => (elemI t a i).natAbs)

/-- The word whose half 0 is a class A half, by its operation. -/
def pairOf (op : HalfOp) (h0 : Half IType) (h1 : Half1) : Instr :=
  match op with
  | .add => .addHalf h0 h1
  | .sub => .subHalf h0 h1
  | .mul => .mulHalf h0 h1
  | .and => .andHalf h0 h1
  | .or => .orHalf h0 h1
  | .xor => .xorHalf h0 h1
  | .andn => .andnHalf h0 h1
  | .shl => .shlHalf h0 h1
  | .shr => .shrHalf h0 h1
  | .sar => .sarHalf h0 h1
  | .min => .minHalf h0 h1
  | .max => .maxHalf h0 h1
  | .mov => .movHalf h0 h1
  | .neg => .negHalf h0 h1
  | .abs => .absHalf h0 h1

/-- A field control (R200): its position, and its length clipped to the element; none where the length is 0 or the position outside. -/
def control (w c : Nat) : Option (Nat × Nat) :=
  let pos := c % 2 ^ (w / 2)
  let len := c / 2 ^ (w / 2)
  if len = 0 ∨ w ≤ pos then none else some (pos, if len ≤ w - pos then len else w - pos)

/-- The element that BFX extracts under a control, and the one that BFI makes (R200). -/
def extracted (t : IType) (a c : Nat) : Nat :=
  match control t.width c with
  | none => 0
  | some (pos, len) =>
    let f := a / 2 ^ pos % 2 ^ len
    if t.signed = true ∧ 2 ^ (len - 1) ≤ f then f + 2 ^ t.width - 2 ^ len else f
def inserted (w a b c : Nat) : Nat :=
  match control w c with
  | none => a
  | some (pos, len) => a / 2 ^ (pos + len) * 2 ^ (pos + len) + b % 2 ^ len * 2 ^ pos + a % 2 ^ pos

/-- Whether an integer condition holds (R205). -/
def holds (c : Cond) (a b : Int) : Prop :=
  match c with
  | .eq => a = b
  | .ne => a ≠ b
  | .lt => a < b
  | .le => a ≤ b
  | .gt => a > b
  | .ge => a ≥ b

/-- All of the sub-elements of a width satisfy a condition, or with .any at least one does (R205). -/
def combined (any : Bool) (w : Nat) (P : Nat → Prop) : Prop :=
  if any then ∃ i, i < 64 / w ∧ P i else ∀ i, i < 64 / w → P i

/-- A pointer from its tag and a number taken modulo 2^54 (R62). -/
def pointer (tag : Nat) (va : Int) : Word := BitVec.ofNat 64 (tag % 1024 * 2 ^ 54 + (va % 2 ^ 54).toNat)

/-- The image of an index register (R124), and the index register that an image describes. -/
def image (x : IndexReg) : Word :=
  BitVec.ofNat 64 (x.base.toNat + x.bound.toNat * 2 ^ 16 + x.step.toNat * 2 ^ 24 + x.cursor.toNat * 2 ^ 28)
def imaged (a : Word) : IndexReg :=
  { base := BitVec.ofNat 7 a.toNat, bound := BitVec.ofNat 8 (a.toNat / 2 ^ 16), step := BitVec.ofNat 4 (a.toNat / 2 ^ 24),
    cursor := BitVec.ofNat 16 (a.toNat / 2 ^ 28) }
/-- An image that IXSET accepts: the bound from 1 to 128, the reserved bits zero (R124, R207). -/
def goodImage (a : Word) : Prop :=
  1 ≤ a.toNat / 2 ^ 16 % 256 ∧ a.toNat / 2 ^ 16 % 256 ≤ 128 ∧ a.toNat / 2 ^ 7 % 2 ^ 9 = 0 ∧ a.toNat / 2 ^ 44 = 0

/-- What PCHK tests for a kind: the rights of R67 and R204 as the bits of a bounds entry (R64: read 1, write 2, execute 4, engine 8, atomic
16, publish 32), and the bits of the leaf that such an access needs (R75); writes resolve to the draft of an edition buffer (R73). -/
def kindNeed : AccessKind → Need
  | .load => { rights := 1, r := true, w := false, x := false, draft := false, kind := 0 }
  | .store => { rights := 2, r := false, w := true, x := false, draft := true, kind := 1 }
  | .atomic => { rights := 1 + 2 + 16, r := true, w := true, x := false, draft := true, kind := 2 }
  | .fetch => { rights := 4, r := false, w := false, x := true, draft := false, kind := 3 }
  | .engRead => { rights := 1 + 8, r := true, w := false, x := false, draft := false, kind := 4 }
  | .engWrite => { rights := 2 + 8, r := false, w := true, x := false, draft := true, kind := 5 }
  | .engAdd => { rights := 1 + 2 + 8 + 16, r := true, w := true, x := false, draft := true, kind := 6 }
  | .publish => { rights := 32, r := false, w := false, x := false, draft := false, kind := 0 }
  | .writeTenure => { rights := 1 + 2, r := true, w := true, x := false, draft := true, kind := 1 }
/-- The alignment that PCHK checks for a kind and a size (R204). -/
def kindAlign (k : AccessKind) (n : Nat) : Nat :=
  match k with
  | .load | .store | .atomic => if n ∈ [1, 2, 4, 8, 16] then n else 1
  | .fetch => 8
  | _ => 1

/-! ## Floating-point values as rationals (R141 to R148) -/

/-- The rational that a finite value stands for; a NaN and an infinity stand for none, and are given 0. -/
def ratOf : FV → ℚ
  | .fin neg m e => (if neg then -1 else 1) * (m : ℚ) * (2 : ℚ) ^ e
  | _ => 0

/-- A rational rounded to an integer in a mode (R142). -/
def roundQ (r : Rnd) (x : ℚ) : Int :=
  match r with
  | .rd => ⌊x⌋
  | .ru => ⌈x⌉
  | .rz => if 0 ≤ x then ⌊x⌋ else ⌈x⌉
  | .rn => if x - ⌊x⌋ < 1 / 2 then ⌊x⌋ else if 1 / 2 < x - ⌊x⌋ then ⌊x⌋ + 1 else if ⌊x⌋ % 2 = 0 then ⌊x⌋ else ⌊x⌋ + 1

/-- The least exponent of a unit in the last place of a format: subnormals have it in an IEEE format (R141), and the lowest exponent field
in a narrow one (R144). -/
def leastUnit (t : FType) : Int := (if isNarrow t then 0 else 1) - (bias t : Int) - fracBits t

/-- The unit in the last place of the format for a number whose leading bit has weight 2^lead. -/
def unitAt (t : FType) (lead : Int) : Int := max (lead - fracBits t) (leastUnit t)

/-- The largest finite magnitude of a format (R141, R144), and the smallest of a narrow one (R144). -/
def largestQ (t : FType) : ℚ := ratOf (Machine.decodeF t (largestMag t))
def smallestQ (t : FType) : ℚ := ratOf (Machine.decodeF t 1)

/-- Whether an integer is what a real number rounds to in a mode (R142). -/
def roundsTo (r : Rnd) (x : ℝ) (k : Int) : Prop :=
  match r with
  | .rd => (k : ℝ) ≤ x ∧ x < k + 1
  | .ru => (k : ℝ) - 1 < x ∧ x ≤ k
  | .rz => |(k : ℝ)| ≤ |x| ∧ |x| < |(k : ℝ)| + 1 ∧ 0 ≤ (k : ℝ) * x
  | .rn => |x - k| < 1 / 2 ∨ |x - k| = 1 / 2 ∧ k % 2 = 0

/-- A code stands for a real number with its sign. -/
def standsFor (t : FType) (c : Nat) (neg : Prop) (y : ℝ) : Prop :=
  ∃ b m e, Machine.decodeF t c = .fin b m e ∧ (b = true ↔ neg) ∧ ((ratOf (.fin b m e) : ℚ) : ℝ) = y

/-- A code with its flags is a real number other than zero, rounded once into an IEEE format (R142): tininess is detected after rounding. -/
def RoundedTo (t : FType) (r : Rnd) (x : ℝ) (out : Nat × Flags) : Prop :=
  ∀ lead k f : Int, (2 : ℝ) ^ lead ≤ |x| → |x| < (2 : ℝ) ^ (lead + 1) → roundsTo r (x / (2 : ℝ) ^ unitAt t lead) k →
    roundsTo r (x / (2 : ℝ) ^ (lead - fracBits t)) f →
    let y : ℝ := (k : ℝ) * (2 : ℝ) ^ unitAt t lead
    (|y| ≤ ((largestQ t : ℚ) : ℝ) → standsFor t out.1 (x < 0) y ∧ (out.2 &&& flagNX = 0 ↔ y = x) ∧ out.2 &&& flagOF = 0 ∧
      (out.2 &&& flagUF ≠ 0 ↔ y ≠ x ∧ |(f : ℝ) * (2 : ℝ) ^ (lead - fracBits t)| < (2 : ℝ) ^ (1 - (bias t : Int)))) ∧
    (((largestQ t : ℚ) : ℝ) < |y| → out.2 = flagOF ||| flagNX ∧
      if r = .rn ∨ (r = .ru ∧ 0 < x) ∨ (r = .rd ∧ x < 0) then ∃ n, Machine.decodeF t out.1 = .inf n ∧ (n = true ↔ x < 0)
      else standsFor t out.1 (x < 0) (if x < 0 then -((largestQ t : ℚ) : ℝ) else ((largestQ t : ℚ) : ℝ)))

/-- A bound of the special functions encloses a real number at each precision, and some precision settles how it rounds. -/
def precisions : List Nat := [128, 256, 512, 1024]
def Encloses (f : Nat → Approx) (sh : Int) (v : ℝ) : Prop :=
  ∀ p ∈ precisions, |((f p).v : ℝ) - v * (2 : ℝ) ^ ((p : Int) - sh)| < ((f p).err : ℝ)
def Settles (t : FType) (r : Rnd) (f : Nat → Approx) (sh : Int) : Prop :=
  ∃ p ∈ precisions, roundSigned t r ((f p).v - (f p).err) (sh - p) = roundSigned t r ((f p).v + (f p).err) (sh - p)

/-- Numeric order and equality of two values that are not NaN, and the order of R260 with -0 below +0. -/
def below : FV → FV → Prop
  | .inf n, .inf k => n = true ∧ k = false
  | .inf n, .fin _ _ _ => n = true
  | .fin _ _ _, .inf k => k = false
  | .fin n m e, .fin k q f => ratOf (.fin n m e) < ratOf (.fin k q f)
  | _, _ => False
def same : FV → FV → Prop
  | .inf n, .inf k => n = k
  | .fin n m e, .fin k q f => ratOf (.fin n m e) = ratOf (.fin k q f)
  | _, _ => False
def precedes (a b : FV) : Prop :=
  below a b ∨ match a, b with
    | .fin n m _, .fin k q _ => m = 0 ∧ q = 0 ∧ n = true ∧ k = false
    | _, _ => False

/-- Whether a float condition holds (R261). -/
def holdsF (c : FCond) (a b : FV) : Prop :=
  let un := isNan a = true ∨ isNan b = true
  match c with
  | .eq => ¬un ∧ same a b
  | .ne => un ∨ ¬same a b
  | .lt => ¬un ∧ below a b
  | .le => ¬un ∧ (below a b ∨ same a b)
  | .gt => ¬un ∧ below b a
  | .ge => ¬un ∧ (below b a ∨ same a b)
  | .un => un
/-- NV of a comparison (R261): for a signalling NaN, and for any NaN under the ordered conditions. -/
def flagsF (c : FCond) (a b : FV) : Nat :=
  let any := isNan a || isNan b
  let signalling := decide (a = .nan true) || decide (b = .nan true)
  match c with
  | .eq | .ne | .un => if signalling then 0x10 else 0
  | .lt | .le | .gt | .ge => if any then 0x10 else 0

/-- The class of a code (R264). -/
def classOf (t : FType) (c : Nat) : Nat :=
  match Machine.decodeF t c with
  | .nan s => if s then 0 else 1
  | .inf n => if n then 2 else 9
  | .fin n m _ =>
    let subnormal := !isNarrow t && decide (c / 2 ^ fracBits t % 2 ^ (t.width - 1 - fracBits t) = 0)
    if m = 0 then (if n then 5 else 6) else if subnormal then (if n then 4 else 7) else if n then 3 else 8

/-- FTOI of one value (R153): rounded first, then judged against the range. -/
def toInt (dst : IType) (r : Rnd) : FV → Nat × Nat
  | .nan _ => (0, 0x10)
  | .inf n => (((if n then leastI dst else greatestI dst) % 2 ^ dst.width).toNat, 0x10)
  | .fin n m e =>
    let x := ratOf (.fin n m e)
    let v := roundQ r x
    if v < leastI dst then ((leastI dst % 2 ^ dst.width).toNat, 0x10)
    else if greatestI dst < v then ((greatestI dst % 2 ^ dst.width).toNat, 0x10)
    else ((v % 2 ^ dst.width).toNat, if (v : ℚ) = x then 0 else 1)

/-- Quantisation of one element with scale code c (R267): the value and the flags. -/
def quantised (x : FV) (c : Nat) : Int × Nat :=
  if c = 0 ∨ c = 255 ∨ isNan x = true then (0, 0x10)
  else match x with
    | .inf n => (if n then -128 else 127, 0x05)
    | v =>
      let y := ratOf v * (2 : ℚ) ^ (127 - (c : Int))
      let q := roundQ .rn y
      if q < -128 then (-128, 0x05) else if 127 < q then (127, 0x05) else (q, if (q : ℚ) = y then 0 else 1)

/-- A word of float results and the OR of their flags (R140): one code and its flags for each sub-element. -/
def floatWord (w : Nat) (f : Nat → Nat × Nat) : Word × Nat :=
  (assemble w (fun i => (f i).1 % 2 ^ w), ((List.range (64 / w)).map (fun i => (f i).2)).foldl (· ||| ·) 0)

/-- A sub-element as a value of a float format. -/
def valueAt (t : FType) (a : Word) (i : Nat) : FV := Machine.decodeF t (elemN t.width a i)

/-- A code with its flags as numbers. -/
def coded (x : Nat × Flags) : Nat × Nat := (x.1, x.2.toNat)

/-! ## Words that act on each thread alone -/

/-- A group whose threads are replaced lane by lane: in the issued lanes, a thread that the predicate selects becomes what is given, and one
that it does not select only goes on to the next word (R171, R196). -/
def lanesAfter (e : Env) (lanes : List Nat) (g : Guard) (new : Nat → Thread → Thread) : Group :=
  { e.g with threads := e.g.threads.map (fun p =>
      (p.1, if p.1 ∈ lanes then (if p.2.selected g then new p.1 p.2 else p.2.advance) else p.2)) }

/-- A word completes in every lane: whenever every issued and selected lane can collect its operands, no poisoned register among them, and
meets the word's own condition, the next state is the state before with the threads of the issuing group changed as given, and nothing
else changed at all: no other group, no block, no core, no byte of memory. -/
def LanesComplete (ins : Instr) (g : Guard) (d : Option Operand) (a b c : Option SrcSpec)
    (ok : Env → Nat → Thread → Got → Prop) (new : Env → Nat → Thread → Got → Thread) : Prop :=
  ∀ (s : State) (i : Issue) (rest : List Issue) (e : Env) (got : Nat → Got),
    s.issue = i :: rest → s.env? i = some e →
    (∀ p ∈ e.g.threads, p.1 ∈ i.lanes → p.2.selected g = true →
      collect e p.1 p.2 d a b c = .ok (got p.1) ∧ (got p.1).poisoned = false ∧ ok e p.1 p.2 (got p.1)) →
    exec ins s = .next (s.setGroup i.group (lanesAfter e i.lanes g (fun l t => new e l t (got l))))

/-- No condition of its own. -/
def noCondition (_ : Env) (_ : Nat) (_ : Thread) (_ : Got) : Prop := True

/-- A lane that writes one result to its destination and goes on. -/
def writes (f : Env → Nat → Thread → Got → Word) : Env → Nat → Thread → Got → Thread :=
  fun e l t r => (r.t.put r.d (f e l t r)).advance

/-- A lane that sets a predicate and goes on. -/
def setsPred (pd : Fin 8) (f : Thread → Got → Bool) : Env → Nat → Thread → Got → Thread :=
  fun _ _ t r => (r.t.setP pd (f t r)).advance

/-- An integer word of one, two or three value sources that writes one result (R196, R197). -/
def UnCompletes {τ : Type} (ins : Instr) (o : Un τ) (f : Form) (r : Word → Word) : Prop :=
  LanesComplete ins o.g (some o.d) (srcA o.pat f o.a) none none noCondition (writes (fun _ _ _ x => r x.a))
def BinCompletes {τ : Type} (ins : Instr) (o : Bin τ) (f : Form) (r : Word → Word → Word) : Prop :=
  LanesComplete ins o.g (some o.d) (srcA o.pat f o.a) (srcB o.pat f o.b) none noCondition (writes (fun _ _ _ x => r x.a x.b))
def TerCompletes {τ : Type} (ins : Instr) (o : Ter τ) (f fc : Form) (r : Word → Word → Word → Word) : Prop :=
  LanesComplete ins o.g (some o.d) (srcA o.pat f o.a) (srcB o.pat f o.b) (srcN fc o.c) noCondition (writes (fun _ _ _ x => r x.a x.b x.c))

/-- Flags that a thread does not trap on: none of them is enabled in bits 13:8 of astat (R139, R140). -/
def quiet (t : Thread) (fl : Nat) : Prop := fl &&& (t.astat.toNat / 256) % 64 = 0

/-- A thread with flags set in astat (R140). -/
def flagged (t : Thread) (fl : Nat) : Thread := { t with astat := t.astat ||| BitVec.ofNat 64 fl }

/-- A lane that writes a result with its flags and goes on. -/
def writesFlags (f : Got → Word × Nat) : Env → Nat → Thread → Got → Thread :=
  fun _ _ _ r => (flagged (r.t.put r.d (f r).1) (f r).2).advance

/-- A word that writes one result and sets flags of which none is enabled. -/
def FlagsComplete (ins : Instr) (g : Guard) (d : Operand) (a b c : Option SrcSpec) (f : Got → Word × Nat) : Prop :=
  LanesComplete ins g (some d) a b c (fun _ _ t r => quiet t (f r).2) (writesFlags f)

/-- Whether a thread runs a handler: bit 0 of tmode (R220). -/
def inHandler (t : Thread) : Prop := t.tmode.getLsbD 0 = true

/-- Handler entry (R222): what the six registers hold, and the thread runs at the vector; every other field is as it was. -/
def entered (t : Thread) (cause : Nat) (val resume vec : Word) : Thread :=
  { t with tepc := resume, tcause := BitVec.ofNat 64 cause, tval := val, tmode := 1, pc := vec, status := .run }

/-- A float word of which a raised flag is enabled sets its flags, writes nothing and takes trap 0x14 (R140, R364). -/
def FlagsTrap (ins : Instr) (g : Guard) (d : Operand) (a b c : Option SrcSpec) (f : Got → Word × Nat) : Prop :=
  LanesComplete ins g (some d) a b c (fun _ _ t r => ¬quiet t (f r).2 ∧ ¬inHandler t)
    (fun e _ t r => entered (flagged t (f r).2) 0x14 (BitVec.ofNat 64 (256 * ((f r).2 &&& (t.astat.toNat / 256) % 64))) t.pc e.tvec)

/-- A float word completes where no raised flag is enabled, and traps where one is. -/
def FloatComplete (ins : Instr) (g : Guard) (d : Operand) (a b c : Option SrcSpec) (f : Got → Word × Nat) : Prop :=
  FlagsComplete ins g d a b c f ∧ FlagsTrap ins g d a b c f

/-- A float word of one, two or three value sources. -/
def UnFlags (ins : Instr) (o : Un FType) (f : Word → Word × Nat) : Prop :=
  FloatComplete ins o.g o.d (srcA o.pat (.flt o.ty) o.a) none none (fun x => f x.a)
def BinFlags (ins : Instr) (o : Bin FType) (f : Word → Word → Word × Nat) : Prop :=
  FloatComplete ins o.g o.d (srcA o.pat (.flt o.ty) o.a) (srcB o.pat (.flt o.ty) o.b) none (fun x => f x.a x.b)
def TerFlags (ins : Instr) (o : Ter FType) (tc : FType) (f : Word → Word → Word → Word × Nat) : Prop :=
  FloatComplete ins o.g o.d (srcA o.pat (.flt o.ty) o.a) (srcB o.pat (.flt o.ty) o.b) (srcN (.flt tc) o.c) (fun x => f x.a x.b x.c)

/-! ## Program counters, traps and control registers -/

/-- A trap of a thread enters its handler: it runs none (R366), and in probe mode the code is none of 0x01 to 0x05 (R193, R222). -/
def entersOn (t : Thread) (cause : Nat) : Prop := ¬inHandler t ∧ (t.tctl.getLsbD 0 = true → cause = 0 ∨ 5 < cause)

/-- A program counter moved within its 54-bit address, with its tag kept (R62, R63). -/
def pcPlus (pc : Word) (d : Int) : Word := pointer (pc.toNat / 2 ^ 54) ((pc.toNat % 2 ^ 54 : Nat) + d)

/-- The index of a group's block at a level (R323): blocks are numbered with level 2 fastest. -/
def levelCount (s : State) (g : Group) (n : Nat) : Nat :=
  match Table.find s.grids g.grid with
  | none => if n = 0 then 32 else 1
  | some gr => if n = 0 then 32 else if n < gr.top then gr.counts.getD (n - 1) 1 else 1
def levelIndex (s : State) (g : Group) (lane n : Nat) : Nat :=
  if n = 0 then lane
  else if n = 1 then g.lidx1
  else match Table.find s.grids g.grid with
    | none => 0
    | some gr => if gr.top ≤ n then 0
      else g.block / ((List.range (n - 2)).map (fun k => levelCount s g (k + 2))).prod % levelCount s g n

/-- What a read of a control register gives (R220), and the number of each. -/
def registerValue (s : State) (e : Env) (l : Nat) (t : Thread) : Csr → Word
  | .tctl => t.tctl
  | .astat => t.astat
  | .gstat => e.g.gseen
  | .lclock => e.clock.setWidth 64
  | .tvec => s.tvecOf e.ctx
  | .svec => s.svecOf e.ctx
  | .tmode => t.tmode
  | .tepc => t.tepc
  | .tcause => t.tcause
  | .tval => t.tval
  | .tsave => t.tsave
  | .lidx n => BitVec.ofNat 64 (levelIndex s e.g l n.val)
  | .lcnt n => BitVec.ofNat 64 (levelCount s e.g n.val)
def registerNumber : Csr → Nat
  | .tctl => 0
  | .astat => 1
  | .gstat => 2
  | .lclock => 3
  | .tvec => 8
  | .svec => 9
  | .tmode => 10
  | .tepc => 11
  | .tcause => 12
  | .tval => 13
  | .tsave => 14
  | .lidx n => 16 + n.val
  | .lcnt n => 24 + n.val

/-- Registers of a thread that instructions may write, with the bits that hold (R220, R221); handler registers only in a handler. -/
def mayWrite (t : Thread) (c : Csr) : Prop :=
  c = .tctl ∨ c = .astat ∨ inHandler t ∧ (c = .tepc ∨ c = .tcause ∨ c = .tval ∨ c = .tsave)
def writtenReg (t : Thread) (c : Csr) (w : Word) : Thread :=
  match c with
  | .tctl => { t with tctl := w &&& 1 }
  | .astat => { t with astat := w &&& 0x3F3F }
  | .tepc => { t with tepc := w }
  | .tcause => { t with tcause := w &&& 0xFF }
  | .tval => { t with tval := w }
  | .tsave => { t with tsave := w }
  | _ => t
/-- Registers whose write is a privilege violation (R221). -/
def forbidden (t : Thread) : Csr → Prop
  | .tvec | .svec | .tmode | .lidx _ | .lcnt _ => True
  | .tepc | .tcause | .tval | .tsave => ¬inHandler t
  | .tctl | .astat | .gstat | .lclock => False

/-- The operands of the issued lanes that a word selects, in lane order. -/
def selectedValues (e : Env) (i : Issue) (g : Guard) (f : Nat → Word) : List Word :=
  (e.g.threads.filter (fun p => decide (p.1 ∈ i.lanes) && p.2.selected g)).map (fun p => f p.1)
def joined (l : List Word) : Word := l.foldl (fun x y => x ||| y) 0

/-- As LanesComplete, for a word whose condition and effect on a thread depend on the state. -/
def LanesCompleteIn (ins : Instr) (g : Guard) (d : Option Operand) (a b c : Option SrcSpec)
    (ok : State → Env → Nat → Thread → Got → Prop) (new : State → Env → Nat → Thread → Got → Thread) : Prop :=
  ∀ (s : State) (i : Issue) (rest : List Issue) (e : Env) (got : Nat → Got),
    s.issue = i :: rest → s.env? i = some e →
    (∀ p ∈ e.g.threads, p.1 ∈ i.lanes → p.2.selected g = true →
      collect e p.1 p.2 d a b c = .ok (got p.1) ∧ (got p.1).poisoned = false ∧ ok s e p.1 p.2 (got p.1)) →
    exec ins s = .next (s.setGroup i.group (lanesAfter e i.lanes g (fun l t => new s e l t (got l))))

/-! ## P-form words (R182 to R185) -/

/-- The sources of a half: a unary one reads src as its one operand, a binary one reads dst and then src (R183). -/
def halfA {τ : Type} (unary : Bool) (f : Form) (h : Half τ) : Option SrcSpec := if unary then srcP h.pat f h.s else srcO f h.d
def halfB {τ : Type} (unary : Bool) (f : Form) (h : Half τ) : Option SrcSpec := if unary then none else srcP h.pat f h.s
def isUnary (op : HalfOp) : Bool := decide (op = .mov) || decide (op = .neg) || decide (op = .abs)

/-- A thread after the last read of a source register (R119). -/
def lastRead (s : Src) (t : Thread) : Thread :=
  match s.op with
  | .reg n => if s.last then { t with v := Table.erase t.v n.val, poisoned := t.poisoned.filter (fun m => m ≠ n.val) } else t
  | _ => t

/-- A pair completes (R182, R185): both halves collect before either writes, half 0 writes and then half 1, with half 0's flags. -/
def PairCompletes {τ : Type} (ins : Instr) (f0 : Form) (unary0 : Bool) (h0 : Half τ) (h1 : Half1) (r0 : Word → Word → Word × Nat) : Prop :=
  ∀ (s : State) (i : Issue) (rest : List Issue) (e : Env) (x y : Nat → Got),
    s.issue = i :: rest → s.env? i = some e →
    (∀ p ∈ e.g.threads, p.1 ∈ i.lanes →
      collect e p.1 p.2 (some h0.d) (halfA unary0 f0 h0) (halfB unary0 f0 h0) none = .ok (x p.1) ∧ (x p.1).poisoned = false ∧
      collect e p.1 p.2 (some h1.h.d) (halfA (isUnary h1.op) (.int h1.h.ty) h1.h) (halfB (isUnary h1.op) (.int h1.h.ty) h1.h) none =
        .ok (y p.1) ∧ (y p.1).poisoned = false ∧
      quiet p.2 (r0 (x p.1).a (x p.1).b).2) →
    exec ins s = .next (s.setGroup i.group (lanesAfter e i.lanes ⟨0, false⟩ (fun l _ =>
      (flagged (((lastRead h1.h.s (x l).t).put (x l).d (r0 (x l).a (x l).b).1).put (y l).d
        (halfWord h1.op h1.h.ty (y l).a (y l).b)) (r0 (x l).a (x l).b).2).advance)))

/-! ## Group-collective words (R257, R340) -/

/-- The predicate field of a group-collective word (R225, R257, R284); BNSET's stands apart, for it first waits for the scratchpad. -/
def collectiveGuard : Instr → Option Guard
  | .qbp o _ _ => some o.g
  | .dqbp o _ _ _ => some o.g
  | .bnmov g _ _ _ _ => some g
  | .vote g _ _ _ _ => some g
  | .kclr g => some g
  | .kadd g _ _ _ => some g
  | .kmac g _ _ _ _ => some g
  | .krnd g _ _ _ => some g
  | .kscan o _ => some o.g
  | .ckclr g _ _ => some g
  | .ckacc g _ _ _ _ _ => some g
  | .ckchk g _ => some g
  | .tdef g _ _ _ => some g
  | .tacq g _ _ _ => some g
  | .trel g _ _ _ => some g
  | .tsplit g _ _ _ _ _ => some g
  | .tfree g _ _ => some g
  | .fork g _ _ _ _ => some g
  | .rdv g _ => some g
  | .mbld g _ _ _ _ => some g
  | .mbswp g => some g
  | .marb g _ _ _ _ _ => some g
  | .mma g _ _ => some g
  | .mzero g _ _ _ _ => some g
  | .mrd g _ _ _ _ => some g
  | .mwr g _ _ _ _ _ => some g
  | .mdrain g _ _ _ _ _ _ _ _ _ _ _ => some g
  | _ => none

/-- All 32 threads of a group stand at the word of an issue, which takes them all, and the word's predicate selects each. -/
def AllPresent (e : Env) (i : Issue) (g : Guard) : Prop :=
  e.g.threads.map (fun p => p.1) = List.range 32 ∧
  ∀ p ∈ e.g.threads, p.1 ∈ i.lanes ∧ p.2.status = .run ∧ p.2.pc = i.pc ∧ p.2.selected g = true

/-- A collective word completes: whenever all 32 threads are present and selected, each collects its operands, no poisoned register among
them, and the word's own condition holds, every thread becomes what is given, the group's own registers change as given, and nothing else
changes. -/
def GroupCompletes (ins : Instr) (g : Guard) (d : Option Operand) (a b c : Option SrcSpec) (ok : State → Env → (Nat → Got) → Prop)
    (new : Env → (Nat → Got) → Nat → Thread) (upd : Env → (Nat → Got) → Group → Group) : Prop :=
  ∀ (s : State) (i : Issue) (rest : List Issue) (e : Env) (got : Nat → Got),
    s.issue = i :: rest → s.env? i = some e → AllPresent e i g →
    (∀ p ∈ e.g.threads, collect e p.1 p.2 d a b c = .ok (got p.1) ∧ (got p.1).poisoned = false) → ok s e got →
    exec ins s = .next (s.setGroup i.group (upd e got { e.g with threads := e.g.threads.map (fun p => (p.1, new e got p.1)) }))

/-- Every thread goes on with a result, with flags, or with nothing written. -/
def groupWrites (f : Env → (Nat → Got) → Nat → Word) : Env → (Nat → Got) → Nat → Thread :=
  fun e got l => ((got l).t.put (got l).d (f e got l)).advance
def groupFlags (f : Env → (Nat → Got) → Nat → Word × Nat) : Env → (Nat → Got) → Nat → Thread :=
  fun e got l => (flagged ((got l).t.put (got l).d (f e got l).1) (f e got l).2).advance
def groupGoesOn : Env → (Nat → Got) → Nat → Thread := fun _ got l => (got l).t.advance
/-- No thread has a raised flag enabled. -/
def groupQuiet (f : Env → (Nat → Got) → Nat → Word × Nat) (e : Env) (got : Nat → Got) : Prop :=
  ∀ p ∈ e.g.threads, quiet p.2 (f e got p.1).2

/-- A group register is written, and its poison mark cleared; marks are numbered as the machine numbers them. -/
def cleared (marks : List Nat) (n : Nat) : List Nat := marks.filter (fun m => m ≠ n)

/-- The register n of the thread in lane k as the thread in lane l reads it: its own, or another's that is neither parked nor retired, and
zero else (R134). -/
def laneReg (e : Env) (l : Nat) (t : Thread) (k n : Nat) : Word :=
  if k = l then Table.getD t.v n 0
  else match Table.find e.g.threads k with
    | none => 0
    | some u => match u.status with
      | .park _ _ | .parkFull | .retired => 0
      | .run | .wait _ => Table.getD u.v n 0

/-- The width of an element of a Benes set, and the elements of a group's 32 words under it (R272). -/
def granBits : Gran → Nat
  | .b64 => 64
  | .b32 => 32
  | .b16 => 16
  | .b8 => 8
  | .b4 => 4
  | .b6 => 6
def granPositions (x : Gran) : Nat := 32 * (64 / granBits x)
/-- An entry of a control set that BNSET refuses: out of range, or one that an earlier entry gives already. -/
def badEntry (p : Nat) (f : Nat → Nat) (d : Nat) : Prop := p ≤ f d ∨ ∃ k, k < d ∧ f k = f d

/-- The exact sum of finite terms in units of 2^-1074 (R154), and k after terms are added to it (R275). -/
def termSum (vs : List FV) : ℚ := (vs.map (fun v => ratOf v * (2 : ℚ) ^ (1074 : Nat))).sum
def kAfter (k : Kul) (vs : List FV) (r : Int) : Kul :=
  { k := BitVec.ofInt 2176 r
    kp := k.kp || decide (.inf false ∈ vs)
    kn := k.kn || decide (.inf true ∈ vs)
    kq := k.kq || decide (.nan true ∈ vs) || decide (.nan false ∈ vs)
    ko := k.ko || decide (r < -2 ^ 2175) || decide (2 ^ 2175 ≤ r) }
def withK (g : Group) (k : Kul) : Group :=
  { g with k := k.k, kp := k.kp, kn := k.kn, kq := k.kq, ko := k.ko, poisoned := cleared g.poisoned 0 }
/-- The values of a group's elements by position, lane 0 first. -/
def positionsOf (t : FType) (f : Nat → Word) : List FV :=
  (List.range (32 * (64 / t.width))).map (fun p => valueAt t (f (p / (64 / t.width))) (p % (64 / t.width)))
/-- k rounded once (R155): the code and the flags. -/
def kRounded (k : Kul) (t : FType) (r : Rnd) : Nat × Nat :=
  if k.kq = true ∨ k.ko = true ∨ (k.kp = true ∧ k.kn = true) then (nanCode t, 0x10)
  else if k.kp = true then coded (finishF t r (.inf false) 0)
  else if k.kn = true then coded (finishF t r (.inf true) 0)
  else if k.k.toInt = 0 then (if r = .rd ∧ isNarrow t = false then 2 ^ (t.width - 1) else 0, 0)
  else coded (roundF t r (decide (k.k.toInt < 0)) k.k.toInt.natAbs (-1074))

/-- The draw of R279 from a state. -/
def drawn (g : Word) : Word :=
  let z := (g ^^^ (g >>> 30)) * 0xBF58476D1CE4E5B9
  let z := (z ^^^ (z >>> 27)) * 0x94D049BB133111EB
  z ^^^ (z >>> 31)

/-! ## Words whose lanes reach outside their threads -/

/-- A word over its issued lanes in ascending order, from one state to another: a selected lane as R says, an unselected one goes on with
nothing else changed (R171, R196). -/
def Along (e : Env) (g : Guard) (R : Nat → Thread → State → State → Prop) : List Nat → State → State → Prop
  | [], s, t => t = s
  | l :: ls, s, t => ∃ u, (match Table.find e.g.threads l with
      | none => u = s
      | some th => if th.selected g = true then R l th s u else u = s.setThread (e.group * 32 + l) th.advance) ∧ Along e g R ls u t

/-- A word answers a next state, and each selected lane that can collect its operands has the effect R on the state that the lanes before
it left. -/
def ReachesNext (ins : Instr) (g : Guard) (d : Option Operand) (a b c : Option SrcSpec)
    (R : Env → Nat → Thread → Got → State → State → Prop) : Prop :=
  ∀ (s : State) (i : Issue) (rest : List Issue) (e : Env), s.issue = i :: rest → s.env? i = some e →
    ∃ t, exec ins s = .next t ∧ Along e g (fun l th u v => ∀ r, collect e l th d a b c = .ok r → R e l th r u v) i.lanes s t

/-- A loaded value in 64 bits: sign-extended under i types, zero-extended under u types (R228). -/
def extended (ty : IType) (x : Nat) : Word :=
  if ty.signed = true ∧ 2 ^ (ty.width - 1) ≤ x then BitVec.ofInt 64 ((x : Int) - 2 ^ ty.width) else BitVec.ofNat 64 x

/-- The thread of lane l goes on as given, takes a trap at its own word, or waits. -/
def goesOn (e : Env) (l : Nat) (t : Thread) (u : State) : State := u.setThread (e.group * 32 + l) t.advance
def trapsAt (e : Env) (l : Nat) (th : Thread) (cause : Nat) (val : Word) (u : State) : State :=
  u.setThread (e.group * 32 + l) (entered th cause val th.pc e.tvec)
def waitsAt (e : Env) (l : Nat) (th : Thread) (w : Wait) (u : State) : State := u.setThread (e.group * 32 + l) { th with status := .wait w }

/-- The thread of lane l goes on once its scratchpad accesses have entered their banks: it waits while the collector holds one (R90). -/
def collected (e : Env) (l : Nat) (t : Thread) (u : State) : State :=
  goesOn e l (if (u.coreOf e.core).holding (.thread (e.group * 32 + l)) = true then { t with status := .wait .bank } else t) u

/-- An access to a block's scratchpad goes on: aligned and within the allocation (R89). -/
def spadFits (b : Block) (at_ n : Nat) : Prop := at_ % n = 0 ∧ at_ + n ≤ b.scratch

/-! ## Memory -/

/-- A lane's access is over: the thread's queued requests go with it. -/
def settled (e : Env) (l : Nat) (u : State) : State := u.unqueue (.thread (e.group * 32 + l))

/-- No access of the group's threads has passed its check in an earlier issue of its word and waits (R68). -/
def fresh (e : Env) : Prop := ∀ p ∈ e.g.threads, p.2.passed = []

/-- How an access that fails its check ends (R66, R74, R75, R367): a trap with the pointer in tval, where one of code 0x0D may come with a
report of a malformed entry; or a parked thread. -/
def CheckFails (e : Env) (l : Nat) (th : Thread) (p : Word) (n align : Nat) (k : AccessKind) (u v : State) : Prop :=
  fresh e → (∀ c, u.check e.core e.ctx p n align (kindNeed k) = .error (.trap c) → entersOn th c → ∃ new : List (Nat × Nat),
    v = settled e l (trapsAt e l th c p { u with reports := u.reports ++ new }) ∧ (c ≠ 0x0D → new = []) ∧ ∀ x ∈ new, x.1 = 3) ∧
  (∀ a leaf, u.check e.core e.ctx p n align (kindNeed k) = .error (.park a leaf) →
    v = settled e l (u.park (e.group * 32 + l) (kindNeed k).kind a leaf))

/-- An access, the first of its word to be checked, passes its check with the pages xs, and no PUB holds it back; the core then holds what it used (R68, R76). -/
def Passes (e : Env) (p : Word) (n align : Nat) (k : AccessKind) (xs : List Xlat) (u w : State) : Prop :=
  fresh e ∧ u.check e.core e.ctx p n align (kindNeed k) = .ok xs ∧ u.heldBack e.core e.ctx xs = false ∧ w = u.fillCaches e.core e.ctx (p.toNat / 2 ^ 54) xs

/-- A load of a lane (R66, R75, R84, R86, R228): with its pages checked, no poison met, none of the thread's own stores still to be performed,
and an SC load past its thread's earlier accesses, it reads the range and goes on. -/
def LoadEffect (e : Env) (l : Nat) (th : Thread) (r : Got) (p : Word) (n align : Nat) (o : Order) (sc : Scope) (fin : Nat → Thread)
    (u v : State) : Prop :=
  CheckFails e l th p n align .load u v ∧
  ∀ xs w0, Passes e p n align .load xs u w0 → (∀ x ∈ xs, isAperture x.pa = false) → r.poisoned = false →
    w0.poisonVa e.core xs (p.toNat % 2 ^ 54) n = none → ∀ w, w0.beforeLoad e l o sc = some w → w.restartable e = false →
    (w.coreOf e.core).pendingOf (e.group * 32 + l) = false →
    ∀ x val, w.loadRange (.thread (e.group * 32 + l)) e.core e.ctx (w.leaseOf e.g.grid) xs (p.toNat % 2 ^ 54) n = (x, some val) →
      v = settled e l (goesOn e l (fin val) x)

/-- The bytes of a store's words as one number. -/
def storedNumber (ws : StoreWords) : Nat := (ws.map (fun w => w.2.2.toNat % 2 ^ (8 * w.2.1) * 2 ^ (8 * w.1))).sum
/-- The places of a store's bytes, one for each line that it reaches: thread, physical address, size, value, policy of the page, and whether
the page is replicated. -/
def placed (e : Env) (l : Nat) (p : Word) (n : Nat) (xs : List Xlat) (ws : StoreWords) : List (Nat × Nat × Nat × Nat × Nat × Bool) :=
  (chunks (p.toNat % 2 ^ 54) n).map (fun c => let x := xlatAt xs (p.toNat % 2 ^ 54 + c.1)
    (e.group * 32 + l, paAt xs (p.toNat % 2 ^ 54 + c.1), c.2, storedNumber ws / 2 ^ (8 * c.1) % 2 ^ (8 * c.2),
      (x.map (fun x => x.policy)).getD 0, (x.map (fun x => x.repl)).getD false))

/-- Where a block's store buffer holds a byte of a checked range (R392): the model's expression for the location. -/
def bufferPlace (e : Env) (xs : List Xlat) (va : Nat) (u : State) : Nat :=
  match xlatAt xs va with
  | some x => u.sbLoc e.ctx x va
  | none => paAt xs va

/-- A store of a lane (R66, R84, R110, R53, R303, R372, R392): trap 0x11 on a pinned draft, trap 0x10 where the core holds read tenure; in a
restartable block its words enter the block's store buffer in their order, each at its location; else, once its release part is done and there are request identifiers for its
lines, one store for each line is issued, to be performed later. -/
def StoreEffect (e : Env) (l : Nat) (th : Thread) (r : Got) (p : Word) (n align : Nat) (o : Order) (sc : Scope) (ws : StoreWords)
    (u v : State) : Prop :=
  CheckFails e l th p n align .store u v ∧
  ∀ xs w, Passes e p n align .store xs u w →
    let lines := (chunks (p.toNat % 2 ^ 54) n).map (fun c => lineOf (paAt xs (p.toNat % 2 ^ 54 + c.1)))
    (w.draftPinned e.ctx xs = true → ¬inHandler th → v = settled e l (trapsAt e l th 0x11 p w)) ∧
    (w.draftPinned e.ctx xs = false → (∃ x ∈ lines, w.tenureOf e.core e.ctx x = .read) → ¬inHandler th →
      v = settled e l (trapsAt e l th 0x10 p w)) ∧
    (w.draftPinned e.ctx xs = false → (∀ x ∈ lines, w.tenureOf e.core e.ctx x ≠ .read) → r.poisoned = false →
      (w.restartable e = true → v = settled e l (goesOn e l r.t (w.buffer e (ws.map (fun q =>
        SbEntry.store (e.group * 32 + l) p (bufferPlace e xs (p.toNat % 2 ^ 54 + q.1) w) q.2.1 q.2.2))))) ∧
      (w.restartable e = false → (∀ q ∈ (w.coreOf e.core).pendAtomics, q.thread ≠ e.group * 32 + l) →
        w.idsBusy e.core (chunks (p.toNat % 2 ^ 54) n).length = false → ∀ x, w.before e l o sc = some x → let k := x.coreOf e.core
        ∃ new : List PendStore, new.map (fun q => (q.thread, q.pa, q.size, q.v, q.policy, q.replicated)) = placed e l p n xs ws ∧
          new.map (fun q => q.id) = (List.range new.length).map (fun i => k.reqNext + BitVec.ofNat 10 i) ∧
          (∀ q ∈ new, q.ctx = e.ctx ∧ q.sent = false ∧ q.issuedAt = k.clock ∧ q.lease = x.leaseOf e.g.grid) ∧
          v = settled e l (goesOn e l r.t ((x.setCore e.core { k with
            reqNext := k.reqNext + BitVec.ofNat 10 new.length, pend := k.pend ++ new }).pushAll (new.map (fun _ => .pocStore e.core))))))

/-- How the operand of an atomic is supplied (R116, R231): as sub-elements of its type. -/
def atomSource : AtomTy → Form
  | .int t => .int t
  | .flt t => .flt t

/-- The old value as ATOM gives it (R231): extended as a load is. -/
def atomGiven (ty : AtomTy) (old : Nat) : Word :=
  match ty with
  | .int t => extended t (old % 2 ^ atomWidth ty)
  | .flt _ => BitVec.ofNat 64 old

/-- The new value of an atomic (R231) on operands of its width. -/
def atomicValue (ty : AtomTy) (op : AtomOp) (old b cmp : Nat) : Nat :=
  let m := 2 ^ atomWidth ty
  let o := old % m
  let x := b % m
  let least := match ty with
    | .int t => if t.signed then decide (signValue (atomWidth ty) o < signValue (atomWidth ty) x) else decide (o < x)
    | .flt _ => false
  match op with
  | .swap => x
  | .cas => if o = cmp % m then x else o
  | .add => (o + x) % m
  | .and => o &&& x
  | .or => o ||| x
  | .xor => o ^^^ x
  | .min => if least then o else x
  | .max => if least then x else o
  | .fadd => match ty with
    | .flt t => let y := addF .rn (Machine.decodeF t o) (Machine.decodeF t x)
      (finishF t .rn y.1 y.2).1
    | .int _ => o

/-- An atomic access of a lane passes every check of R231 on the page x that holds it. -/
def AtomPasses (e : Env) (l : Nat) (r : Got) (p : Word) (n : Nat) (xs : List Xlat) (x : Xlat) (u w : State) : Prop :=
  Passes e p n n .atomic xs u w ∧ xlatAt xs (p.toNat % 2 ^ 54) = some x ∧ w.draftPinned e.ctx xs = false ∧
  w.tenureOf e.core e.ctx (lineOf (x.pa + (p.toNat % 2 ^ 54 - x.va))) ≠ .read ∧ isAperture (x.pa + (p.toNat % 2 ^ 54 - x.va)) = false ∧
  r.poisoned = false ∧ w.poisonVa e.core xs (p.toNat % 2 ^ 54) n = none ∧ (w.coreOf e.core).pendingOf (e.group * 32 + l) = false ∧
  w.idsBusy e.core 1 = false

/-- Nothing stands in the way of an access to a line at its home: no request on it, no tenure, no host sector, no copy in an Annex. -/
def lineIdle (s : State) (line : Nat) : Prop :=
  (∀ r ∈ (s.dieOf (homeOfLine line)).requests, r.line ≠ line) ∧ s.tenured line = [] ∧ Table.find s.hostSectors (2 * line) = none ∧
  Table.find s.hostSectors (2 * line + 1) = none ∧ ∀ r, (s.dieOf (homeOfLine line)).entry? line = some r → r.sharers = []

/-- No request of an accessor stands at any Catalogue. -/
def unasked (s : State) (who : Accessor) : Prop := ∀ p ∈ s.dies, ∀ r ∈ p.2.requests, r.who ≠ .access who

/-- Nothing that a core's L1 holds is dirty: what gives way to a new line is written back nowhere. -/
def l1Clean (s : State) (core : Nat) : Prop := ∀ p ∈ (s.coreOf core).l1, p.2.dirty = 0

/-- An address of device memory whose home is a die of a core. -/
def atHomeOf (core pa n : Nat) : Prop := pa < 2 ^ 38 ∧ 0 < n ∧ pa % 128 + n ≤ 128 ∧ homeOfLine (pa / 128) = core / 40

/-! ## Collective words with the operands of lane 0 (R225, R284) -/

/-- Every thread of the word's group is written one result and goes on, takes a trap at the word, or waits at it. -/
def allWrite (e : Env) (got : Nat → Got) (w : Word) (u : State) : State :=
  match Table.find u.groups e.group with
  | none => u
  | some g => u.setGroup e.group { g with threads := e.g.threads.map (fun p => (p.1, ((got p.1).t.put (got p.1).d w).advance)) }
def allGo (e : Env) (got : Nat → Got) (u : State) : State :=
  match Table.find u.groups e.group with
  | none => u
  | some g => u.setGroup e.group { g with threads := e.g.threads.map (fun p => (p.1, (got p.1).t.advance)) }
def allTrap (e : Env) (cause : Nat) (val : Word) (u : State) : State :=
  u.setGroup e.group { e.g with threads := e.g.threads.map (fun p => (p.1, entered p.2 cause val p.2.pc e.tvec)) }
def allWait (e : Env) (w : Wait) (u : State) : State :=
  match Table.find u.groups e.group with
  | none => u
  | some g => u.setGroup e.group { g with threads := g.threads.map (fun p => (p.1, { p.2 with status := .wait w })) }
/-- The requests of lane 0, on whose behalf a collective word accesses memory, leave the tile entries. -/
def settled0 (e : Env) (u : State) : State := u.unqueue (.thread (e.group * 32))

/-- A collective word answers a next state: whenever all 32 threads of a group in one of a core's 32 slots are present and selected and
collect their operands, no poisoned register among them, that state is as R says. -/
def GroupReaches (ins : Instr) (g : Guard) (d : Option Operand) (a b c : Option SrcSpec)
    (R : State → Env → (Nat → Got) → State → Prop) : Prop :=
  ∀ (s : State) (i : Issue) (rest : List Issue) (e : Env) (got : Nat → Got),
    s.issue = i :: rest → i.slot < 32 → s.env? i = some e → AllPresent e i g →
    (∀ p ∈ e.g.threads, collect e p.1 p.2 d a b c = .ok (got p.1) ∧ (got p.1).poisoned = false) →
    ∃ t, exec ins s = .next t ∧ R s e got t
/-- No thread of the group runs a handler, where a trap would contain the block (R366). -/
def outsideHandlers (e : Env) : Prop := ∀ p ∈ e.g.threads, ¬inHandler p.2

/-- No thread of the group runs a handler, nor is in probe mode where it would not take the cause (R193, R366). -/
def allEnter (e : Env) (cause : Nat) : Prop := ∀ p ∈ e.g.threads, entersOn p.2 cause

/-! ## Tiles (R47 to R52) -/

/-- A field of a record of bytes, little-endian. -/
def fieldAt (v off n : Nat) : Nat := v / 2 ^ (8 * off) % 2 ^ (8 * n)
/-- A tile descriptor of 64 bytes is well formed (R47, R50), and its span (R48). -/
def tileRank (v : Nat) : Nat := fieldAt v 8 1
def tileExtent (v d : Nat) : Nat := fieldAt v (16 + 4 * d) 4
def tileStride (v d : Nat) : Nat := fieldAt v (32 + 8 * d) 8
def tileGood (v : Nat) : Prop :=
  1 ≤ tileRank v ∧ tileRank v ≤ 4 ∧ fieldAt v 9 1 ≤ 3 ∧ fieldAt v 10 6 = 0 ∧ v % 2 ^ 54 % 2 ^ fieldAt v 9 1 = 0 ∧
  ∀ d, d < 4 → (d < tileRank v → 1 ≤ tileExtent v d ∧ tileExtent v d ≤ 2 ^ 24) ∧
    (tileRank v ≤ d → tileExtent v d = 0 ∧ tileStride v d = 0)
def tileSpan (v : Nat) : Nat :=
  2 ^ fieldAt v 9 1 + ((List.range (tileRank v)).map (fun d => (tileExtent v d - 1) * tileStride v d)).sum
/-- An index of a die's tile table that no tile uses and none has retired, the lowest but for one already taken. -/
def indexUsed (s : State) (die i : Nat) : Prop := ∃ p ∈ (s.dieOf die).tiles, p.1 = i ∧ (p.2.defined = true ∨ p.2.retired = true)
def lowestFree (s : State) (die : Nat) (taken : Option Nat) (i : Nat) : Prop :=
  i < 131072 ∧ ¬indexUsed s die i ∧ some i ≠ taken ∧ ∀ j, j < i → indexUsed s die j ∨ some j = taken
/-- The handle of a tile (R49), and the tile that a handle names for a context unless it is stale (R51). -/
def handleOf (gen : BitVec 16) (die ix : Nat) : Word := BitVec.ofNat 64 (gen.toNat * 2 ^ 48 + die * 2 ^ 45 + ix * 2 ^ 28)
def handleDieOf (h : Word) : Nat := h.toNat / 2 ^ 45 % 8
def handleIndexOf (h : Word) : Nat := h.toNat / 2 ^ 28 % 2 ^ 17
def NamesTile (s : State) (ctx : Nat) (h : Word) (x : Tile) : Prop :=
  Table.find (s.dieOf (handleDieOf h)).tiles (handleIndexOf h) = some x ∧ h.toNat % 2 ^ 28 = 0 ∧ x.gen.toNat = h.toNat / 2 ^ 48 ∧
  h.toNat / 2 ^ 48 ≠ 0 ∧ x.defined = true ∧ x.ctx = ctx
/-- A tile's index after it is freed (R51). -/
def freed (x : Tile) : Tile := if x.gen = 0xFFFF then { Tile.free x.gen x.ctx with retired := true } else Tile.free (x.gen + 1) x.ctx
/-- A group's holds on a tile: how many, and whether they are revoked; 0 and not where it has none (R239). -/
def holdsOn (g : Group) (die ix : Nat) : Nat × Bool :=
  match g.holds.find? (fun h => decide (h.die = die) && decide (h.index = ix)) with
  | some h => (h.count, h.revoked)
  | none => (0, false)
def hasHold (g : Group) (die ix : Nat) : Prop := ∃ h ∈ g.holds, h.die = die ∧ h.index = ix
/-- A tile's holders among the cores (R52). -/
def holdsTenure (x : Tile) (core ctx : Nat) (write : Bool) : Prop := ∃ h ∈ x.holders, h.core = core ∧ h.ctx = ctx ∧ (write = true → h.write = true)
/-- Two tiles share a line (R53). -/
def shareLine (x y : Tile) : Prop := ∃ r ∈ x.footprint, ∃ q ∈ y.footprint, r.1 / 128 ≤ (q.1 + q.2 - 1) / 128 ∧ q.1 / 128 ≤ (r.1 + r.2 - 1) / 128
/-- No request is queued at a tile of the die that shares a line with this one, this one itself among them (R58). -/
def noneQueued (s : State) (die : Nat) (x : Tile) : Prop := ∀ p ∈ (s.dieOf die).tiles, shareLine p.2 x → p.2.queue = []
/-- Nothing keeps a core from tenure on a tile: no conflicting tenure of another core, no store request in progress on a line of it (R42, R53). -/
def tenureFree (s : State) (die : Nat) (x : Tile) (core : Nat) (write : Bool) : Prop :=
  (∀ p ∈ (s.dieOf die).tiles, shareLine p.2 x → ∀ h ∈ p.2.holders, h.core ≠ core → write = false ∧ h.write = false) ∧
  (∀ r ∈ (s.dieOf die).requests, r.who = .store → x.hasLine r.line = false)

/-! ## Barriers and semaphores (R250 to R252, R431) -/

/-- Whether phase p of a barrier whose open phase is c has completed (R431). -/
def phaseOver (c p : BitVec 32) : Prop := 1 ≤ (c.toNat + 2 ^ 32 - p.toNat) % 2 ^ 32 ∧ (c.toNat + 2 ^ 32 - p.toNat) % 2 ^ 32 ≤ 2 ^ 31
/-- The barrier of the group's member of a level. -/
def barrierOf (u : State) (e : Env) (level : Nat) : Barrier := u.barrier e.g.grid level (u.memberOf e.g level)
/-- A level at which a word of a barrier is refused: above the gang, or above the block in a restartable one (R335, R392). -/
def levelRefused (u : State) (e : Env) (level : Nat) : Prop :=
  ∃ gr, Table.find u.grids e.g.grid = some gr ∧ ((3 ≤ level ∧ gr.gang < level) ∨ (u.restartable e = true ∧ 2 < level))
/-- A thread arrives: the barrier lists it, keeps the latest clock of an arriver, and is looked at. -/
def arrived (e : Env) (l : Nat) (b : Barrier) (u : State) : State :=
  (u.setBarrier { b with arrived := b.arrived ++ [e.group * 32 + l], clock :=
    if b.phase = 0 ∧ b.arrived = [] then (u.coreOf e.core).clock else maxT b.clock (u.coreOf e.core).clock }).pushOnce
      (.barrierPhaseComplete b.grid b.level b.member)
/-- A semaphore word (R251): poisoned, or its count reaches n; and the word after a signal and after a take (R252). -/
def semFull (w n : Nat) : Prop := w / 2 ^ 63 % 2 = 1 ∨ n ≤ w % 2 ^ 48
def signalled (w n : Nat) : Nat :=
  if w / 2 ^ 63 % 2 = 1 then w else w - w % 2 ^ 48 + (if w % 2 ^ 48 + n < 2 ^ 48 then w % 2 ^ 48 + n else 2 ^ 48 - 1)
def afterTake (w n : Nat) : Nat := if w / 2 ^ 63 % 2 = 1 then w else w - n

/-! ## Edition buffers (R107, R240) -/

/-- A pointer of an edition instruction leads to a buffer: its check passes, the leaf is one of a view, and the buffer has been created; w is
the state in which the core holds what the check used. -/
def ToBuffer (e : Env) (p : Word) (k : AccessKind) (buf : Nat) (d : Desc) (u w : State) : Prop :=
  ∃ x xs, Passes e p 1 1 k (x :: xs) u w ∧ x.leaf.getLsbD 8 = true ∧ x.leaf.toNat / 2 ^ 16 % 2 ^ 12 = buf ∧ w.desc? e.ctx buf = some d
/-- The pin count of a backing, and a descriptor with one changed (R108). -/
def pinCount (d : Desc) (b : Nat) : Nat := if b = 0 then d.pins0 else d.pins1
def withPins (d : Desc) (b n : Nat) : Desc := if b = 0 then { d with pins0 := n } else { d with pins1 := n }
/-- A lane's word is done with a result. -/
def givesResult (e : Env) (l : Nat) (r : Got) (w : Word) (u : State) : State := settled e l (goesOn e l (r.t.put r.d w) u)

/-! ## Engines (R96 to R104, R245 to R249) -/

/-- An engine accepts a command: the next number, a place in its queue, and its start to come (R97). -/
def accepted (core : Nat) (en : Eng) (ctx thread block : Nat) (op : CmdOp) (fork : Option Nat) (u : State) : State :=
  let g := u.engineOf core en
  (u.setEngine core en { g with
    next := g.next + 1, wrapped := g.wrapped || decide (g.next = 0xFFFFFFFF), queue := g.queue ++ [⟨g.next, ctx, thread, block, op, .queued, fork, [], []⟩] }).push (.engineCommandStart core en)
/-- A word of an engine completes in each lane: aligned pointers and no poisoned register give the command's number, unless the engine has 16
commands of the core, when the thread waits; a misaligned record is trap 0x0E. -/
def EngineWord (ins : Instr) (g : Guard) (d : Operand) (a b c : Option SrcSpec) (en : Eng) (records : Got → List Word) (op : Got → CmdOp) : Prop :=
  ReachesNext ins g (some d) a b c (fun e l th r u v =>
    (∀ p rest, records r = p :: rest → p.toNat % 64 ≠ 0 → ¬inHandler th → v = trapsAt e l th 0x0E p u) ∧
    ((∀ p ∈ records r, p.toNat % 64 = 0) → r.poisoned = false →
      ((u.engineOf e.core en).queue.length < 16 →
        v = goesOn e l (r.t.put r.d (BitVec.ofNat 64 (u.engineOf e.core en).next.toNat)) (accepted e.core en e.ctx (e.group * 32 + l) (e.g.grid * 2 ^ 24 + e.g.block) (op r) none u)) ∧
      (16 ≤ (u.engineOf e.core en).queue.length → v = waitsAt e l th (.engine en) u)))
/-- What ENGQ reads of a command (R248): pending, its status and length, expired, or unknown. -/
def queryWord : CmdKnown → Word
  | .pending => 0x100
  | .status st => BitVec.ofNat 64 (st.status + st.len * 2 ^ 32)
  | .expired => 0x200
  | .unknown => 0x400
/-- What an engine knows of a command of its core: the statuses of the 64 most recently accepted ones (R97, R248). -/
def knownOf (g : Engine) (n : BitVec 32) (k : CmdKnown) : Prop :=
  let queued := ∃ c ∈ g.queue, c.num = n
  let kept := g.done.find? (fun st => decide (st.num = n))
  let recent := (g.next - 1 - n).toNat < 64
  (queued → k = .pending) ∧ (¬queued → recent → ∀ st, kept = some st → k = .status st) ∧
  (¬queued → (kept = none ∨ ¬recent) → k = if g.wrapped = true ∨ n.toNat < g.next.toNat then .expired else .unknown)
/-- What a media engine knows of a command of a core. -/
def knownMedia (m : Media) (core : Nat) (n : BitVec 32) (k : CmdKnown) : Prop :=
  let queued := ∃ c ∈ m.queue, c.core = core ∧ c.num = n
  let kept := m.done.find? (fun d => decide (d.1 = core ∧ d.2.num = n))
  let next := Table.getD m.next core 0
  let recent := (next - 1 - n).toNat < 64
  (queued → k = .pending) ∧ (¬queued → recent → ∀ d, kept = some d → k = .status d.2) ∧
  (¬queued → ¬recent → kept ≠ none → k = .expired) ∧
  (¬queued → kept = none → k = if core ∈ m.wrapped ∨ n.toNat < next.toNat then .expired else .unknown)
/-- The trap code that a wait takes at each status that traps (R100, R364), where bounds failures keep the code of R66. -/
def waitTraps (kind : Nat) (st : CmdStatus) : Prop := st.status ≠ 0 ∧ ¬(kind = 3 ∧ 7 ≤ st.status ∧ st.status ≤ 9)
/-- The status of the first engine, in engine order, whose program failed (R104). -/
def firstFailed (f : Fork) : Nat :=
  match Table.find f.statuses 0, Table.find f.statuses 1, Table.find f.statuses 2 with
  | some n, _, _ => n
  | none, some n, _ => n
  | none, none, some n => n
  | none, none, none => 0
/-- The words that a program of an engine may hold (R103, R297): the commands of its own engine, the matrix words for the bulk copy engine, and
for each the words that compute, branch and reach the scratchpad. -/
def listedWord (e : Eng) : Instr → Bool
  | .cpy _ _ _ | .cpyt _ | .edcopy _ _ _ _ | .mbld _ _ _ _ _ | .mbswp _ | .marb _ _ _ _ _ _ | .mma _ _ _ | .mzero _ _ _ _ _
  | .mdrain _ _ _ _ _ _ _ _ _ _ _ _ => decide (e = .bulk)
  | .gath _ _ _ => decide (e = .gather)
  | .coll _ _ _ _ _ => decide (e = .coll)
  | .add _ _ | .sub _ _ | .and _ | .or _ | .mov _ | .cmp _ _ _ _ _ _ _ _ | .movi _ _ _ _ | .addi _ _ | .cmpi _ _ _ _ _ _
  | .lds _ _ _ _ _ _ _ _ | .sts _ _ _ _ _ _ _ _ | .feop _ _ _ _ _ | .bra _ _ _ | .exit _ => true
  | _ => false
/-- A sequencer stands at a program, and goes on with its next word. -/
def seqStands (core : Nat) (e : Eng) (q : Seq) (u : State) : State := (u.setEngine core e { u.engineOf core e with seq := some q })
def seqGoesOn (core : Nat) (e : Eng) (q : Seq) (u : State) : State :=
  ((seqStands core e { q with waiting := .none } u)).push (.sequencerStep core e)

/-! ## The matrix path (R280 to R299) -/

/-- Lane words by position (R292): element c of a row is sub-element (c / 32) % 2 of register c / 64 of lane c % 32. -/
def rowElement (word_ : Nat → Nat → Word) (c : Nat) : BitVec 32 := BitVec.ofNat 32 (elemN 32 (word_ (c % 32) (c / 64)) (c / 32 % 2))
/-- The byte of an element of a bit-plane tensor of n elements read at its S top planes, plane 7 stored first (R282). -/
def topPlanes (v n S e : Nat) : Byte := BitVec.ofNat 8 (((List.range S).map (fun j => Claims.bitOf v (j * n + e) * 2 ^ (7 - j))).sum)
/-- The product sum of one element (R283, R291), and its clamp. -/
def productSum (m : Matrix) (tile k r c : Nat) : Int :=
  (m.acc tile r c).toInt + ((List.range 256).map (fun j =>
    ((Table.getD m.rows (256 * r + j) 0).toInt / 2 ^ (8 - k)) * 2 ^ (8 - k) *
      (Table.getD (if m.active then m.bank1 else m.bank0) (256 * j + c) 0).toInt)).sum
def clamped31 (v : Int) : Int := if 2 ^ 31 - 1 < v then 2 ^ 31 - 1 else if v < -(2 ^ 31 - 1) then -(2 ^ 31 - 1) else v
/-- A core with its matrix path changed. -/
def withMatrix (core : Nat) (m : Matrix) (u : State) : State := u.setCore core { u.coreOf core with matrix := m }
/-- What a word of the path asks of its group (R280, R364 code 0x1A): that it holds the path, and where it names a tile, that it was granted. -/
def holdsPath (s : State) (e : Env) (tile : Option Nat) : Prop :=
  (s.coreOf e.core).matrix.holder = some e.group ∧ ∀ n, tile = some n → n < (s.coreOf e.core).matrix.granted
/-- A word of the path: without its hold every thread takes trap 0x1A; with it, R. -/
def PathWord (ins : Instr) (g : Guard) (tile : Option Nat) (d : Option Operand) (a b c : Option SrcSpec)
    (R : Matrix → State → Env → (Nat → Got) → State → Prop) : Prop :=
  GroupReaches ins g d a b c (fun s e got t =>
    (¬holdsPath s e tile → outsideHandlers e → t = allTrap e 0x1A (BitVec.ofNat 64 (tile.getD 0)) s) ∧
    (holdsPath s e tile → R (s.coreOf e.core).matrix s e got t))

/-! ## Sidings (R253, R254, R331 to R333) -/

/-- The last word of a record that may be pushed: a level of the grid that is not 1, and no reserved bit (R253, R331). -/
def flagsGood (u : State) (e : Env) (flags : Word) : Prop :=
  flags.toNat % 8 ≠ 1 ∧ flags.toNat % 8 ≤ u.topOf e.g ∧ flags.toNat / 8 % 32 = 0
/-- The record as it is pushed (R331): the hardware writes bits 63:16 of its last word. -/
def recordOf (u : State) (e : Env) (code frame join flags : Word) : Rec :=
  { code := code, frame := frame, join := join,
    flags := BitVec.ofNat 64 (flags.toNat % 2 ^ 16 + e.g.grid % 2 ^ 32 * 2 ^ 16 + e.g.block % 2 ^ 16 * 2 ^ 48),
    grid := e.g.grid, block := e.g.block, clock := (u.coreOf e.core).clock, slot := 0 }
/-- The key of a core's or a die's siding for a context, how many records it has room for, the lowest place of it that holds no record, and a
state with a record pushed to its newest end and into that place of the context's area (R332, R404; which place is log entry 52). -/
def sidingFor (ctx id : Nat) : Nat := ctx * 1024 + id
def ownSiding (e : Env) (die : Bool) : Nat := sidingFor e.ctx (if die then 320 + e.core / 40 else e.core)
def roomIn (u : State) (key : Nat) : Prop := (Table.getD u.sidings key []).length < if key % 1024 < 320 then 4096 else 65536
def FreeSlot (u : State) (key i : Nat) : Prop :=
  (∀ x ∈ Table.getD u.sidings key [], x.slot ≠ i) ∧ ∀ j, j < i → ∃ x ∈ Table.getD u.sidings key [], x.slot = j
def slotAt (c : Context) (key i : Nat) : Nat :=
  c.area + 32 * i + if key % 1024 < 320 then 0x1250000 + key % 1024 * 0x20000 else 0x250000 + (key % 1024 - 320) * 0x200000
def recordNumber (r : Rec) : Nat := r.code.toNat + r.frame.toNat * 2 ^ 64 + r.join.toNat * 2 ^ 128 + r.flags.toNat * 2 ^ 192
def pushedTo (key : Nat) (r : Rec) (i : Nat) (u : State) : State :=
  { u with
    sidings := Table.set u.sidings key (Table.getD u.sidings key [] ++ [{ r with slot := i }])
    mem := match Table.find u.contexts (key / 1024) with
      | none => u.mem
      | some c => Memory.write u.mem (slotAt c key i) 32 (recordNumber r) }
/-- The newest, or the oldest, record of a siding that is eligible, and the others in order (R332). -/
def newestOf (u : State) (g : Group) (l : List Rec) (r : Rec) (rest : List Rec) : Prop :=
  ∃ a b, l = a ++ r :: b ∧ rest = a ++ b ∧ u.eligible g r = true ∧ ∀ x ∈ b, u.eligible g x = false
def oldestOf (u : State) (g : Group) (l : List Rec) (r : Rec) (rest : List Rec) : Prop :=
  ∃ a b, l = a ++ r :: b ∧ rest = a ++ b ∧ u.eligible g r = true ∧ ∀ x ∈ a, u.eligible g x = false
def noneIn (u : State) (g : Group) (key : Nat) : Prop := ∀ x ∈ Table.getD u.sidings key [], u.eligible g x = false
/-- Four registers from n up. -/
def fourRegs (t : Thread) (n : Nat) (a b c d : Word) : Thread := (((t.setV n a).setV (n + 1) b).setV (n + 2) c).setV (n + 3) d
/-- A pop that found a record: the siding without it, the clock that the acquire takes over, and the record in the registers. -/
def popped (e : Env) (l n key : Nat) (rest : List Rec) (x : Rec) (t : Thread) (u : State) (clock : State → State) : State :=
  goesOn e l (fourRegs t n x.code x.frame x.join x.flags) ((clock { u with sidings := Table.put u.sidings key rest [] }).lookSiding key)
/-- What follows the decrement of a JOIN that found `old` (R254, R435): all ones where it was 0, and else the count that is left; where none is,
the record is read and pushed, with a release at its siding's scope, or waits for room, in the state that keeps the value found meanwhile. -/
def JoinRest (e : Env) (l : Nat) (th : Thread) (r : Got) (p : Word) (old : Nat) (die : Bool) (ins : Instr) (u v : State) : Prop :=
  (old = 0 → v = givesResult e l r (BitVec.allOnes 64) u) ∧
  (2 ≤ old → v = givesResult e l r (BitVec.ofNat 64 (old - 1)) u) ∧
  (old = 1 → ∀ xs w, Passes e p 40 8 .atomic xs (u.setThread (e.group * 32 + l) { th with answer := some (1, p) }) w →
    w.poisonVa e.core xs (p.toNat % 2 ^ 54 + 8) 32 = none → ∀ x val, w.loadOwn e l xs (p.toNat % 2 ^ 54 + 8) 32 = (x, some val) →
      let f := fun (i : Nat) => BitVec.ofNat 64 (val / 2 ^ (64 * i))
      (¬flagsGood x e (f 3) → entersOn th 0x02 → v = settled e l (trapsAt e l th 0x02 e.word x)) ∧
      (flagsGood x e (f 3) → (f 0).toNat % 8 ≠ 0 → entersOn th 0x0E → v = settled e l (trapsAt e l th 0x0E (f 0) x)) ∧
      (flagsGood x e (f 3) → (f 0).toNat % 8 = 0 → ∀ y, x.release e.core (e.group * 32 + l) (if die then .die else .core) = some y →
        let key := ownSiding e die
        let new := recordOf y e (f 0) (f 1) (f 2) (f 3)
        (roomIn y key → y.idsBusy e.core 1 = false →
          ∃ i, FreeSlot y key i ∧ v = givesResult e l r 0 ((pushedTo key new i y).requested (e.core / 40) e.core 0)) ∧
        (¬roomIn y key → ∃ undo, v = settled e l (waitsAt e l th (.joinPush key ins)
          { y with deferred := y.deferred ++ [⟨key, e.group * 32 + l, new, undo⟩] }))))


/-! ## Issue, faults and the yard (R215, R216, R338, R368, R329 to R336) -/

/-- A ready thread (R338). -/
def isReady (t : Thread) : Prop := t.status = .run ∧ t.yieldAt = none
/-- A ready thread of a lane of a lane-set, by slot within it, of a group that may issue; while its context stops, one whose word has begun or
that has a trap to take (R338, R377, R378). -/
def ReadyAt (s : State) (core laneSet k lane : Nat) (th : Thread) : Prop :=
  k < 8 ∧ lane < 32 ∧ ∃ g, Table.find s.groups (core * 32 + (laneSet * 8 + k)) = some g ∧
    Table.find g.threads lane = some th ∧ isReady th ∧ (s.mayIssue (core * 32 + (laneSet * 8 + k)) g = true ∨
      s.finishing (core * 32 + (laneSet * 8 + k)) g = true ∧ (th.answer ≠ none ∨ th.cancel ≠ none))
/-- The fault queue of a die for a context, and the room in its ring of 4,096 (R368). -/
def queueOf (c : Context) (die : Nat) : FaultQueue := Table.getD c.faults die FaultQueue.init
def ringFull (q : FaultQueue) : Prop := ∃ e ∈ q.entries, (e.seq + 4096) % 2 ^ 32 = q.next ∧ e.state = .unanswered
/-- The 32 bytes of an entry (R368): little-endian fields at bytes 0, 8, 12, 14, 15, 16, 20, 24, 27 and 28. -/
def entryBytes (addr : Word) (seq ctx kind flags thread grid block lidx1 cmd : Nat) : Nat :=
  let core := thread / 1024
  let named := thread % 32 + thread / 256 % 4 * 2 ^ 5 + thread / 32 % 8 * 2 ^ 7 + core % 40 * 2 ^ 10 + core / 40 * 2 ^ 16
  addr.toNat + seq % 2 ^ 32 * 2 ^ 64 + ctx % 2 ^ 16 * 2 ^ 96 + kind % 2 ^ 8 * 2 ^ 112 + flags % 2 ^ 8 * 2 ^ 120 + named * 2 ^ 128 +
    grid % 2 ^ 32 * 2 ^ 160 + block % 2 ^ 24 * 2 ^ 192 + lidx1 % 32 * 2 ^ 216 + cmd % 2 ^ 32 * 2 ^ 224
/-- Where the ring of a die holds an entry, in the context's memory area (R404). -/
def ringAt (c : Context) (die seq : Nat) : Nat := c.area + 0x50000 + die * 0x20000 + 32 * (seq % 4096)
/-- A context whose blocks run (R378, R395). -/
def runs (s : State) (ctx : Nat) : Prop := ∃ c, Table.find s.contexts ctx = some c ∧ c.phase = .running ∧ c.failure = none
/-- The key of a block. -/
def keyOf (grid block : Nat) : Nat := grid * 2 ^ 24 + block
/-- Nothing of an engine, a program or a core's posted accesses is under way anywhere. -/
def allQuiet (s : State) : Prop :=
  (∀ p ∈ s.cores, p.2.pend = [] ∧ p.2.pendAtomics = [] ∧ p.2.bulk.queue = [] ∧ p.2.gather.queue = [] ∧ p.2.coll.queue = [] ∧
    p.2.bulk.seq = none ∧ p.2.gather.seq = none ∧ p.2.coll.seq = none) ∧ (∀ p ∈ s.media, p.2.queue = []) ∧ s.seqWaits = []
/-- Registers free on a core: 128 for each lane of each lane-set and bank pool, less those of its groups (R118). -/
def freeRegisters (s : State) (core : Nat) : Nat := (((s.room core).regs).map (fun n => 128 - n)).sum

/-! ## The device and the firmware (R88, R396, R399, R402) -/

/-- How often a unit has had a corrected error within the window, this one included (R396). -/
def errorsNow (s : State) (cls die unit : Nat) : List (Nat × Nat × Nat × Nat) :=
  s.errorTimes.filter (fun x => decide (s.fabric < x.2.2.2 + 2 ^ s.errorWindow)) ++ [(cls, die, unit, s.fabric)]
def countOf (s : State) (cls die unit : Nat) : Nat :=
  ((errorsNow s cls die unit).filter (fun x => decide (x.1 = cls ∧ x.2.1 = die ∧ x.2.2.1 = unit))).length
/-- The threshold of a unit class: what SET_POLICY set, else the default of R397. -/
def thresholdOf (s : State) (cls : Nat) : Nat :=
  Table.getD s.thresholds cls (if cls = 0 ∨ cls = 1 then 16 else if cls = 2 then 64 else 256)
/-- A restartable block whose groups have all gone commits its buffered stores (R393). -/
def commits (s : State) (k : Nat) (b : Block) : Prop := b.restartable = true ∧ ∀ p ∈ s.groups, keyOf p.2.grid p.2.block ≠ k
/-- A block is asked to be contained (R390, R391): it is stopped with a failure, and its containment is to come. -/
def Stopped (s t : State) (grid block : Nat) (b : Block) (cause : Nat) (val pc : Word) : Prop :=
  t = (s.setBlock (keyOf grid block) { b with
    stopped := some ⟨cause, val, pc, b.grid, b.index, b.core / 40, b.core % 40⟩ }).push (.blockContainment b.grid b.index)
/-- Whether a capture unit records a sample (R399, R400), and the unit with it. -/
def captures (c : Capture) (source ctx : Nat) : Prop :=
  c.control.toNat / 2 ^ 8 % 2 = 1 ∧ c.control.toNat % 2 ^ 8 = source ∧ 1 ≤ source ∧ source ≤ 10 ∧
  (c.control.toNat / 2 ^ 16 % 2 ^ 16 = 0xFFFF ∨ c.control.toNat / 2 ^ 16 % 2 ^ 16 = ctx)
def SampledTo (c d : Capture) (v : Nat) : Prop :=
  let bin := if v ≤ 1 then 0 else min 31 (Nat.log2 v)
  d.control = c.control ∧ d.min.toNat = min c.min.toNat v ∧ d.max.toNat = max c.max.toNat v ∧ d.samples = c.samples + 1 ∧
  ∀ i, Table.getD d.bins i 0 = if i = bin then Table.getD c.bins i 0 + 1 else Table.getD c.bins i 0
/-- A word of a mailbox's command slot, as a number; the bits of its status. -/
def cmdWord (m : Mailbox) (i : Nat) : Nat := (Table.getD m.cmd i 0).toNat
def isReadyBox (m : Mailbox) : Prop := m.status.getLsbD 63 = true
def isBusyBox (m : Mailbox) : Prop := m.status.getLsbD 32 = true
/-- The first doorbell that rang is this mailbox's, its command waits for no acknowledgement, and names a code and a context, every other bit
of word 0 zero (R402, R405). -/
def Rings (s : State) (mb code ctx : Nat) : Prop :=
  (∃ rest, s.doorbells = mb :: rest) ∧ (∀ a ∈ s.acks, a.mb ≠ mb) ∧ cmdWord (s.mailboxOf mb) 0 = code + ctx * 2 ^ 16 ∧ code < 2 ^ 8 ∧ ctx < 2 ^ 16
/-- The operands of a command. -/
def operand (s : State) (mb i : Nat) : Nat := cmdWord (s.mailboxOf mb) i
/-- A core has performed every access of a command's context, every update of its own on its way to a signal box or to a peer, and every
access that it checked under the entry which the command changed and that waited since (R68, R77; log entry 39). -/
def performed (s : State) (core : Nat) (a : AckWait) : Prop :=
  (∀ p ∈ (s.coreOf core).pend, p.ctx ≠ a.ctx) ∧ (∀ p ∈ (s.coreOf core).pendAtomics, p.ctx ≠ a.ctx) ∧ (∀ u ∈ s.replicated, u.core ≠ core) ∧
  (∀ m ∈ s.peerSent, m.core ≠ core) ∧ s.passedWaits core a = false

/-! ## Media commands (R414 to R419) -/

/-- A command of 64 bytes within the limits of R414. -/
def mediaGood (v : Nat) : Prop :=
  fieldAt v 0 1 ≤ 1 ∧ fieldAt v 1 1 ≤ 1 ∧ fieldAt v 2 1 ≤ 3 ∧ fieldAt v 3 1 = 0 ∧ 1 ≤ fieldAt v 4 4 ∧ fieldAt v 4 4 ≤ 2 ^ 28 ∧
  (fieldAt v 2 1 % 2 = 0 → fieldAt v 40 8 = 0) ∧ 16 ≤ fieldAt v 48 2 ∧ fieldAt v 48 2 ≤ 7680 ∧ 16 ≤ fieldAt v 50 2 ∧ fieldAt v 50 2 ≤ 4320 ∧
  fieldAt v 52 12 = 0
/-- A media engine with its first command changed. -/
def mediaHead (eng : Nat) (c : MediaCmd) (rest : List MediaCmd) (u : State) : State := u.setMedia eng { u.mediaOf eng with queue := c :: rest }
/-- The statuses that an engine keeps of a core once one more command has ended (R248). -/
def keptWith (m : Media) (c : MediaCmd) (n cause len : Nat) : List (Nat × CmdStatus) :=
  (m.done ++ [(c.core, (⟨c.num, n, cause, len⟩ : CmdStatus))]).filter (fun d => decide (d.1 ≠ c.core ∨ (Table.getD m.next c.core 0 - 1 - d.2.num).toNat < 64))
/-- Threads that wait at a media engine go on. -/
def wokenAt (eng : Nat) (th : Thread) : Thread := if th.status = .wait (.media eng) then { th with status := .run } else th
/-- Memory after byte ranges are written. -/
def writtenParts (m : Memory) (parts : List (Nat × Nat × Nat)) : Memory := parts.foldl (fun m q => Memory.write m q.1 q.2.1 q.2.2) m
/-- Parts that can be written now: each within one idle line of device memory. -/
def partsIdle (s : State) (parts : List (Nat × Nat × Nat)) : Prop :=
  ∀ q ∈ parts, 0 < q.2.1 ∧ q.1 < 2 ^ 38 ∧ q.1 % 128 + q.2.1 ≤ 128 ∧ lineIdle s (q.1 / 128)

/-- A command that names a usable context has been rung. -/
def RingsFor (s : State) (mb code ctx : Nat) (c : Context) : Prop :=
  Rings s mb code ctx ∧ ctx ≠ 0 ∧ Table.find s.contexts ctx = some c ∧ c.phase ≠ .ending
/-- A context that has just been created (R403, R404). -/
def isNewContext (c : Context) (flags area size : Nat) : Prop :=
  (c.isProtected = true ↔ flags % 2 = 1) ∧ (c.service = true ↔ flags / 2 % 2 = 1) ∧ c.failure = none ∧ c.phase = .running ∧ c.area = area ∧
  c.areaSize = size ∧ c.tvec = 0 ∧ c.svec = 0 ∧ c.signalBox = 0 ∧ c.codePolicy = 0 ∧ c.keys = [] ∧ c.chain = 0 ∧ c.events = [] ∧ c.omitted = 0 ∧
  c.counter = 0 ∧ c.queues = [] ∧ c.faults = [] ∧ c.withdrawn = [] ∧ c.loaded = []
/-- Nothing of a context runs or waits any more (R426). -/
def nothingOf (s : State) (ctx : Nat) : Prop :=
  (∀ p ∈ s.blocks, p.2.ctx ≠ ctx) ∧ (∀ p ∈ s.groups, p.2.ctx ≠ ctx) ∧ (∀ p ∈ s.grids, p.2.ctx ≠ ctx) ∧
  (∀ p ∈ s.cores, (∀ e : Eng, ∀ c ∈ (p.2.engine e).queue, c.ctx ≠ ctx) ∧ (∀ q ∈ p.2.pend, q.ctx ≠ ctx) ∧ ∀ q ∈ p.2.pendAtomics, q.ctx ≠ ctx) ∧
  (∀ p ∈ s.media, ∀ c ∈ p.2.queue, c.ctx ≠ ctx)

/-! ## Operands (R115 to R134) -/

/-- The lane that supplies a source through a pattern (R176). -/
def supplier (p : LanePat) (l : Nat) : Nat :=
  match p with
  | .ident | .subrev => l
  | .rot1 => (l + 32 - 1) % 32
  | .rot2 => (l + 32 - 2) % 32
  | .rot4 => (l + 32 - 4) % 32
  | .rot8 => (l + 32 - 8) % 32
  | .rot16 => (l + 32 - 16) % 32
  | .rotm1 => (l + 1) % 32
  | .rev => 31 - l
  | .rev8 => 8 * (l / 8) + (7 - l % 8)
  | .xor1 => 2 * (l / 2) + (1 - l % 2)
  | .xor2 => 4 * (l / 4) + (l + 2) % 4
  | .xor4 => 8 * (l / 8) + (l + 4) % 8
  | .bc0 => 0
  | .bc8 => 8 * (l / 8)
/-- A word with its sub-elements of a width reversed (R176). -/
def reversed (w : Nat) (v : Word) : Word := assemble w (fun i => elemN w v (64 / w - 1 - i))
/-- An index register that an operand may use, and the register that it names (R125). -/
def inWindow (x : IndexReg) : Prop := x.base.toNat + x.bound.toNat ≤ 128 ∧ 0 ≤ x.cursor.toInt ∧ x.cursor.toInt < x.bound.toNat
def named (x : IndexReg) : Nat := x.base.toNat + x.cursor.toNat
/-- An operand that goes through an index register that it may not use. -/
def badIndex (t : Thread) (o : Option Operand) : Prop := ∃ x, (o = some (.ind x) ∨ o = some (.indInc x)) ∧ ¬inWindow (t.xreg x.val)
/-- The operands of an instruction. -/
def operandOf (s : Option SrcSpec) : Option Operand := s.map (fun s => s.src.op)
/-- A source that is not marked, of one operand. -/
def plain (o : Operand) (f : Form) : Option SrcSpec := some ⟨⟨o, false⟩, .ident, f⟩
/-- A queue of a thread replaced. -/
def withQueue (t : Thread) (q : Nat) (d : Nat) (l : List Word) : Thread := { t with q := Table.set t.q q ⟨d, l⟩ }
/-- A cursor stepped once, the step sign-extended and the sum taken in 16 bits (R125). -/
def stepped (x : IndexReg) : IndexReg := { x with cursor := BitVec.ofInt 16 (x.cursor.toInt + x.step.toInt) }

/-! ## From an address to its word (R63, R192 to R194, R344) -/

/-- The lanes of the first issue, all running at its word in a group that may issue, in no code region, with no trap to take first. -/
def Standing (s : State) (i : Issue) (g : Group) : Prop :=
  Table.find s.groups i.group = some g ∧ s.mayIssue i.group g = true ∧ i.lanes ≠ [] ∧ i.lanes.Nodup ∧
  ∀ l ∈ i.lanes, l < 32 ∧ ∃ th, Table.find g.threads l = some th ∧ isReady th ∧ th.pc = i.pc ∧ th.region = none ∧ th.cancel = none ∧ th.passed = []
/-- The fetch at the issue's word passes its check, with the page x outside every code region, and nothing else touches the line. -/
def Fetches (s : State) (i : Issue) (g : Group) (x : Xlat) : Prop :=
  s.check i.core g.ctx i.pc 8 8 (kindNeed .fetch) = .ok [x] ∧ x.ed = none ∧ x.pa + 8 ≤ 2 ^ 38 ∧ x.pa % 128 + 8 ≤ 128 ∧ lineIdle s (x.pa / 128) ∧
  ∀ w ∈ s.poison, 8 * w + 8 ≤ x.pa ∨ x.pa + 8 ≤ 8 * w
/-- The word at a physical address, and the state in which the issue executes it: the core and its die's walker hold what the fetch used, the
first lane's queued requests go, the launch's first issue is over (R400), and the issue carries its word. -/
def wordAt (s : State) (x : Xlat) : Word := BitVec.ofNat 64 (Memory.read s.mem x.pa 8)
def fetchedState (s : State) (i : Issue) (rest : List Issue) (g : Group) (x : Xlat) : State :=
  { ((s.fillCaches i.core g.ctx (i.pc.toNat / 2 ^ 54) [x]).unqueue (.thread (i.group * 32 + i.lanes.headD 0))).observeEnd (.launch g.grid g.ctx) false
      (i.core / 40) 5 with
    issue := { i with word := wordAt s x } :: rest }
/-- The level at which a group's launch ends (R169), or the highest where its grid is gone. -/
def launchTop (s : State) (g : Group) : Nat := match Table.find s.grids g.grid with
  | some gr => gr.top
  | none => 7
/-- What a step makes of a word's execution: its issue is over. -/
def finished (ins : Instr) : Host.Outcome State Fault Refusal → Host.Outcome State Fault Refusal
  | .next u => .next (u.finish ins)
  | .fault f => .fault f
  | .refused r => .refused r
/-- Every issued lane enters its handler at the word, but for the mark of a replay that is over (R370); nothing else of the group changes,
nothing of memory, and the issue is over. -/
def LanesEnter (s t : State) (i : Issue) (rest : List Issue) (g : Group) (cause : Nat) (val : Word) : Prop :=
  t.issue = rest ∧ t.mem = s.mem ∧ t.blocks = s.blocks ∧ t.contexts = s.contexts ∧ ∃ g', Table.find t.groups i.group = some g' ∧
    g' = { g with threads := g'.threads } ∧ ∀ l th, Table.find g.threads l = some th →
      (l ∉ i.lanes → Table.find g'.threads l = some th) ∧
      (l ∈ i.lanes → ∃ m, Table.find g'.threads l = some { entered th cause val i.pc (s.tvecOf g.ctx) with replay := m })
end Sys2Proof.Claims
end

