-- ==== Sys2Proof/WellFormed.lean ====
section
/-!
DEFINITION. Which instruction terms the encoding can hold: operand kinds (R197), last-read marks (R117), lane patterns
(R176, R177), types (R172), modifier values (R173 to R175) and the ranges each entry gives. The machine's own events are
no words: every term of one is well formed.
-/
namespace Sys2Proof

def Operand.isReg : Operand → Bool
  | .reg _ => true
  | _ => false
/-- A value destination (R197): a register, an indirect name, a queue or the zero register. -/
def Operand.isDest : Operand → Bool
  | .special _ | .const _ => false
  | _ => true
/-- A last-read mark stands on a direct register alone (R117). -/
def Src.wf (s : Src) : Bool := !s.last || s.op.isReg
/-- A pattern applies to a direct register (R177); pattern 0xE needs a type (R176). -/
def LanePat.wf (p : LanePat) (reg typed : Bool) : Bool :=
  decide (p = .ident) || (reg && (typed || decide (p ≠ .subrev)))
def Pat.wf (p : Pat) (a b typed : Bool) : Bool :=
  if p.onB then decide (p.pat ≠ .ident) && p.pat.wf b typed else p.pat.wf a typed
/-- A pattern and the one source it may apply to. -/
def Src.wfP (s : Src) (p : LanePat) (typed : Bool) : Bool := s.wf && p.wf s.op.isReg typed
/-- Two sources and a pattern on one of them. -/
def wfAB (p : Pat) (a b : Src) (typed : Bool) : Bool := a.wf && b.wf && p.wf a.op.isReg b.op.isReg typed

def Un.wf {τ : Type} (o : Un τ) (typed : Bool) : Bool :=
  o.d.isDest && o.a.wf && o.pat.wf o.a.op.isReg false typed
def Bin.wf {τ : Type} (o : Bin τ) (typed : Bool) : Bool := o.d.isDest && wfAB o.pat o.a o.b typed
def Ter.wf {τ : Type} (o : Ter τ) (typed : Bool) : Bool := o.d.isDest && wfAB o.pat o.a o.b typed && o.c.wf

def itypeSubs : IType → Nat
  | .i64 | .u64 => 1
  | .i32 | .u32 => 2
  | .i16 | .u16 => 4
  | .i8 | .u8 => 8
def ftypeSubs : FType → Nat
  | .f64 => 1
  | .f32 => 2
  | .f16 | .b16 => 4
  | .f8 => 8
  | .f6 => 10
  | .f4 => 16
/-- The IEEE types of FDIV, FSQRT and FRCP (R260), of the special functions (R262), of QBP and DQBP (R267), and the
types of FDOT4 and IDOT4 (R268). -/
def FType.ieee (t : FType) : Bool := t matches .f64 | .f32 | .f16 | .b16
def FType.special (t : FType) : Bool := t matches .f32 | .f16 | .b16
def FType.quant (t : FType) : Bool := t matches .f32 | .f16 | .b16 | .f8
def FType.dot (t : FType) : Bool := !(t matches .f64 | .f32)
def IType.dot (t : IType) : Bool := t matches .i8 | .u8 | .i16 | .u16

/-- With the relaxed order the scope is group (R226). -/
def ordScope (o : Order) (s : Scope) : Bool := decide (o ≠ .rlx) || decide (s = .group)
def Scope.named : Scope → Bool
  | .lvl _ => false
  | _ => true
def Order.ld (o : Order) : Bool := o matches .rlx | .acq | .sc
def Order.st (o : Order) : Bool := o matches .rlx | .rel | .sc

/-- The operations and types of ATOM and RED (R231). -/
def atomWf (op : AtomOp) : AtomTy → Bool
  | .flt t => decide (op = .fadd) && (t matches .f64 | .f32)
  | .int t => decide (op ≠ .fadd) && (t matches .i64 | .i32 | .u64 | .u32)

def Csr.writable (c : Csr) : Bool := decide (c ≠ .tmode)
def Csr.modifiable (c : Csr) : Bool := decide (c ≠ .lclock)

/-- A 16-byte scratchpad access names a direct register below 127 and the type u64 (R235). -/
def x16Wf (x16 : Bool) (ty : IType) (o : Operand) : Bool :=
  !x16 || (decide (ty = .u64) && match o with
    | .reg n => decide (n.val ≤ 126)
    | _ => false)
def packedWf (n : Fin 128) (count : Fin 9) : Bool :=
  (count.val = 2 || count.val = 4 || count.val = 8) && decide (n.val + count.val ≤ 128)

def Half.wf {τ : Type} (h : Half τ) : Bool := h.d.isDest && h.s.wfP h.pat true
/-- A binary half also reads its destination (R183). -/
def HalfOp.readsDst : HalfOp → Bool
  | .mov | .neg | .abs => false
  | _ => true
def Operand.bank : Operand → List Nat
  | .reg n => [n.val % 4]
  | _ => []
def Operand.ordinary : Operand → Bool
  | .ind _ | .indInc _ | .queue _ => false
  | _ => true
/-- The pairing rules (R184). -/
def pairWf {τ : Type} (h0 : Half τ) (reads0 : Bool) (h1 : Half1) : Bool :=
  h0.wf && h1.h.wf &&
  !(h0.d.isReg && h1.h.d.isReg && decide (h0.d.bank = h1.h.d.bank)) &&
  decide ((h0.s.op.bank ++ (if reads0 then h0.d.bank else []) ++ h1.h.s.op.bank ++
    (if h1.op.readsDst then h1.h.d.bank else [])).eraseDups.length ≤ 3) &&
  !(h0.d.isReg && (decide (h1.h.s.op = h0.d) || (h1.op.readsDst && decide (h1.h.d = h0.d)))) &&
  h1.h.d.ordinary && h1.h.s.op.ordinary

def Instr.wf : Instr → Bool
  | .add o _ | .sub o _ | .mul o _ | .mulhi o | .div o | .rem o | .min o | .max o => o.wf true
  | .mad o _ | .bfi o => o.wf true
  | .abs o _ | .neg o _ | .not o | .clz o | .popc o | .brev o | .mov o => o.wf true
  | .and o | .or o | .xor o | .andn o | .shl o | .shr o | .sar o | .rotl o | .bfx o | .sel o _ _ => o.wf true
  | .cvti o f s _ => o.wf true && decide (s.val < itypeSubs f)
  | .lea o _ | .ptag o | .pchk o _ => o.wf false
  | .cmp _ p _ _ a b _ _ | .fcmp _ p _ _ a b _ _ => wfAB p a b true
  | .pand _ _ _ _ | .por _ _ _ _ | .pxor _ _ _ _ | .pnot _ _ _ => true
  | .pmov _ (.copy _ _) => true
  | .pmov _ (.get d) | .ixget _ d _ | .qocc _ d _ => d.isDest
  | .pmov _ (.set a p) | .ixset _ p _ a | .ixcur _ p _ a _ => a.wfP p false
  | .qcfg _ _ _ => true
  | .free _ n c => decide (n.val + c.val + 1 ≤ 128)
  | .fadd o _ | .fsub o _ | .fmul o _ | .fmin o _ | .fmax o _ | .fscale o _ _ => o.wf true
  | .fma o _ => o.wf true
  | .fdiv o _ => o.wf true && o.ty.ieee
  | .fsqrt o _ | .frcp o _ => o.wf true && o.ty.ieee
  | .frsq o _ | .fexp2 o _ | .flog2 o _ | .fsin o _ | .fcos o _ | .ftanh o _ => o.wf true && o.ty.special
  | .frnd o _ _ | .fclass o | .kscan o _ => o.wf true
  | .fcvt o f s _ => o.wf true && decide (s.val < ftypeSubs f)
  | .ftoi o f s _ => o.wf true && decide (s.val < ftypeSubs f)
  | .itof o f s _ => o.wf true && decide (s.val < itypeSubs f)
  | .qbp o k _ | .dqbp o k _ _ => o.wf true && o.ty.quant && decide (2 ≤ k.val)
  | .fdot4 o _ => o.wf true && o.ty.dot
  | .idot4 o _ => o.wf true && o.ty.dot
  | .shfl o => o.d.isDest && o.a.op.isReg && o.b.wf && decide (o.pat = ⟨.ident, false⟩)
  | .bnset _ p _ d a _ | .vote _ p _ d a => d.isDest && a.wfP p false
  | .bnmov _ p d a _ => d.isDest && a.op.isReg && a.wfP p false
  | .kclr _ => true
  | .kadd _ p _ a | .ckacc _ p _ _ a _ => a.wfP p true
  | .kmac _ p t a b => wfAB p a b true && decide (t ≠ .f64)
  | .krnd _ _ _ d => d.isDest
  | .ckclr _ _ .clear | .ckchk _ (.check _ _) => true
  | .ckclr _ _ (.set a p) => a.wfP p false
  | .rng _ (.seed a p) => a.wfP p true
  | .ckchk _ (.get d _) | .rng _ (.raw d) | .rng _ (.unifF32 d) | .rng _ (.unifF16 d) => d.isDest
  | .ld _ p _ o s d a => d.isDest && a.wfP p true && o.ld && ordScope o s
  | .st _ p _ o s a b => wfAB p a b true && o.st && ordScope o s
  | .lds _ p t x _ d a _ => d.isDest && a.wfP p true && x16Wf x t d
  | .sts _ p t x _ a b _ => wfAB p a b true && x16Wf x t b.op
  | .ldp _ p o s n a c => a.wfP p false && packedWf n c && (o matches .rlx | .acq) && ordScope o s && s.named
  | .stp _ p o s a n l c => wfAB p a ⟨.reg n, l⟩ false && packedWf n c && (o matches .rlx | .rel) && ordScope o s && s.named
  | .pref _ p a _ | .tacq _ p _ a | .tfree _ p a => a.wfP p false
  | .atom _ p t op o s _ a b => wfAB p a b true && atomWf op t && ordScope o s && s.named
  | .red _ p t op o s a b => wfAB p a b true && atomWf op t && decide (op ≠ .swap) && decide (op ≠ .cas) && (o matches .rlx | .rel) && ordScope o s &&
      s.named
  | .fence _ o _ => decide (o ≠ .rlx)
  | .feop _ p _ a b => wfAB p a b false
  | .tdef _ p d a | .trel _ p d a | .tqry _ p d a | .edcopy _ p d a | .retract _ p d a | .rwait _ p d a =>
      d.isDest && a.wfP p false
  | .pub _ p _ d a | .vcmd _ p d a _ => d.isDest && a.wfP p false
  | .tsplit _ p n a b _ => decide (n.val ≤ 126) && wfAB p a b false
  | .edq _ p f d a b => d.isDest && (if f = .unpin then wfAB p a b false
      else a.wf && decide (b = ⟨.reg 0, false⟩) && p.wf a.op.isReg false false)
  | .adopt _ => true
  | .cpy o _ _ | .gath o _ _ => o.wf false
  | .cpyt o | .launch o => o.wf false
  | .coll _ p d a l => d.isDest && a.wfP p false && decide (2 ≤ l.val)
  | .engq _ p _ d a k m => d.isDest && a.wfP p false && (decide (k.val = 3) || decide (m.val = 0))
  | .fork _ p a b c => wfAB p a b false && c.wf
  | .rdv _ d => d.isDest
  | .bar _ l => decide (l.val ≠ 0)
  | .arrv _ d l => d.isDest && decide (l.val ≠ 0)
  | .bwait _ p a l => a.wfP p false && decide (l.val ≠ 0)
  | .semw _ p s _ d a b => d.isDest && wfAB p a b false && s.named
  | .sems _ p _ a b => wfAB p a b false
  | .spush _ p n _ _ => decide (n.val ≤ 124) && decide (p ≠ .subrev)
  | .spop _ n _ => decide (n.val ≤ 124)
  | .join _ p s d a _ => d.isDest && a.wfP p false && s.named
  | .mbld _ p _ a k => a.wfP p false && decide (2 ≤ k.val)
  | .mbswp _ => true
  | .marb _ p _ a b _ => wfAB p a b false
  | .mma _ _ k => decide (2 ≤ k.val)
  | .mzero _ p _ a _ => a.wfP p false
  | .mrd _ p n _ b => decide (n.val ≤ 124) && b.wfP p false
  | .mwr _ p _ n l b => decide (n.val ≤ 124) && wfAB p ⟨.reg n, l⟩ b false
  | .mdrain _ p d _ a n lb m _ _ _ _ =>
      d.isDest && decide (n.val ≤ 124) && decide (m.val ≤ 124) && wfAB p a ⟨.reg n, lb⟩ false
  | .csrr _ d _ => d.isDest
  | .csrw _ p d c a => d.isDest && a.wfP p false && c.writable
  | .csrs _ p d c a | .csrc _ p d c a => d.isDest && a.wfP p false && c.modifiable
  | .sysc _ _ | .eret _ => true
  | .movi _ d _ _ => d.isDest
  | .movhi o | .addi o _ | .andi o _ | .ori o _ | .xori o _ | .ldo o _ _ => o.d.isDest
  | .cmpi _ _ _ _ _ _ | .sto _ _ _ => true
  | .bra _ _ _ | .brx _ _ _ | .call _ _ _ _ | .callx _ _ _ _ | .rtn _ _ _ | .conv | .yield _ | .tail _ | .exit _ => true
  | .trap _ _ | .bpt _ _ | .nop _ => true
  | .addHalf h k | .subHalf h k | .mulHalf h k | .andHalf h k | .orHalf h k | .xorHalf h k | .andnHalf h k | .shlHalf h k
  | .shrHalf h k | .sarHalf h k | .minHalf h k | .maxHalf h k => pairWf h true k
  | .movHalf h k | .negHalf h k | .absHalf h k => pairWf h false k
  | .faddHalf h k | .fsubHalf h k | .fmulHalf h k | .fminHalf h k | .fmaxHalf h k => h.ty.ieee && pairWf h true k
  | .faultQueueSlotFreed _ _ | .replayReexecution _ _ | .issueSelection _ _ | .editionAwaitRelease _ _ |
    .yieldExpiry _ _ _ | .convRelease _ _ | .barrierPhaseComplete _ _ _ | .semwRelease _ | .bankAccess _ _ |
    .drainComplete _ _ | .engineSlotFreed _ _ | .engineCommandStart _ _ | .engineCommandComplete _ _ |
    .sequencerStep _ _ | .collectiveComplete _ _ _ _ | .mbldComplete _ | .mmaComplete _ | .drainingEnd _ |
    .pubFirstPhaseAck _ _ _ | .pubCommit _ _ | .pocLoad _ _ | .pocStore _ | .pocAtomic _ | .loadReply _ |
    .translationWalk _ _ _ | .pocScrub _ _ | .l1Scrub _ _ | .annexReadRequest _ _ | .annexStoreRequest _ _ |
    .homeCoreAccess _ _ | .regionMerge _ _ | .snoopReceived _ _ | .invalidationAck _ _ | .dirtyWriteBack _ _ |
    .requestRetry _ _ | .replicatedUpdate _ | .replicatedBufferAck _ _ | .replicatedCommit _ _ | .replicatedApply _ |
    .recall _ _ | .recallLimitExpiry _ _ | .recallAck _ _ | .tenureGrant _ _ | .spushRoom _ | .joinDeferredPush _ |
    .gridStart _ _ | .yardAdmission _ | .blockReservation _ _ | .yardPreemption _ _ | .gridEnd _ |
    .blockContainment _ _ | .blockCommit _ _ | .blockRelaunch _ _ | .errorDetected _ | .coreWithdrawal _ |
    .linkReplay _ _ _ | .requestReissue _ _ | .peerLoss _ _ | .peerAccess _ | .hostAccess _ | .captureSample _ _ _ _ |
    .captureClear _ _ | .registerWrite _ _ _ | .mediaCommandStart _ | .mediaRow _ | .mediaFilteredWait _ |
    .mediaCommandComplete _ | .mediaStreamError _ | .clockSelfAdvance | .referenceExchange | .boundsInvalidationAck |
    .shootdownAck | .hostSectorRelease | .hostMemoryResponse | .powerClockStep | .arithmeticClockRaise |
    .deviceReset | .createCtx | .destroyCtx | .mapPage | .mapEdition | .unmap | .loadSegment | .launchCommand |
    .saveCtx | .restoreCtx | .faultReplay | .faultCancel | .dropChannel | .setPolicyBoundsEntry | .setPolicyVectors |
    .setPolicySignalBox | .setPolicyQuietInterval | .setPolicyCodePublication | .setPolicyLaunchQueue |
    .setPolicyKeySlot | .setPolicyErrorWindow | .setPolicyPeerBase | .queryRevision | .queryFeatures |
    .queryCapacity | .queryFailureRecord | .queryFailingUnits | .queryIdentityKeyHash | .queryImageSize | .attest |
    .mediaReset | .unknownCommand | .doorbellOverrun => true

end Sys2Proof
end

