-- ==== Sys2Proof/Certificates/Slice0/Obligations.lean ====
section
/-!
DEFINITION. The statements about the machine, each a proposition of its own.
-/
open Sys2Proof Sys2Proof.Machine Sys2Proof.Claims

/-! ## Integer words -/

/-- R198, with the types of R136 and the wrapping and clamping of R137: ADD, SUB, MUL, MULHI, MAD, MIN, MAX, ABS and NEG complete whenever
their operands can be collected; each sub-element of the result is the exact integer result modulo 2^w, or clamped under .sat; the next
state differs from the state before in the issuing group's threads alone, and each of them only in what collecting, writing and going on
change. R138 to R140: DIV and REM, the quotient rounded toward zero, the remainder zero or with the dividend's sign, and the results of the two
cases: a thread in which no case arises, or whose DZ trap is not enabled (astat bit 13), writes its result, and sets DZ where a case arises; one whose DZ trap is enabled
sets DZ, writes nothing and takes trap 0x13. -/
def Obligations.IntegerArithmetic : Prop :=
  (∀ o sat, BinCompletes (.add o sat) o (.int o.ty) (fun a b => intWord o.ty sat (fun i => elemI o.ty a i + elemI o.ty b i))) ∧
  (∀ o sat, BinCompletes (.sub o sat) o (.int o.ty) (fun a b => intWord o.ty sat (fun i => elemI o.ty a i - elemI o.ty b i))) ∧
  (∀ o sat, BinCompletes (.mul o sat) o (.int o.ty) (fun a b => intWord o.ty sat (fun i => elemI o.ty a i * elemI o.ty b i))) ∧
  (∀ o, BinCompletes (.mulhi o) o (.int o.ty)
    (fun a b => intWord o.ty false (fun i => (elemI o.ty a i * elemI o.ty b i) / 2 ^ o.ty.width))) ∧
  (∀ o sat, TerCompletes (.mad o sat) o (.int o.ty) (.int o.ty)
    (fun a b c => intWord o.ty sat (fun i => elemI o.ty a i * elemI o.ty b i + elemI o.ty c i))) ∧
  (∀ o, BinCompletes (.min o) o (.int o.ty) (minWord o.ty)) ∧
  (∀ o, BinCompletes (.max o) o (.int o.ty) (maxWord o.ty)) ∧
  (∀ o sat, UnCompletes (.abs o sat) o (.int o.ty) (fun a => intWord o.ty sat (fun i => (elemI o.ty a i).natAbs))) ∧
  (∀ o sat, UnCompletes (.neg o sat) o (.int o.ty) (fun a => intWord o.ty sat (fun i => -(elemI o.ty a i)))) ∧
  (∀ o : Bin IType,
    FlagsComplete (.div o) o.g o.d (srcA o.pat (.int o.ty) o.a) (srcB o.pat (.int o.ty) o.b) none
      (fun x => (intWord o.ty false (quotient o.ty x.a x.b), divisionFlags o.ty x.a x.b)) ∧
    FlagsComplete (.rem o) o.g o.d (srcA o.pat (.int o.ty) o.a) (srcB o.pat (.int o.ty) o.b) none
      (fun x => (intWord o.ty false (remainder o.ty x.a x.b), divisionFlags o.ty x.a x.b))) ∧
  (∀ o : Bin IType, ∀ p ∈ [(.div o : Instr), .rem o], LanesComplete p o.g (some o.d) (srcA o.pat (.int o.ty) o.a) (srcB o.pat (.int o.ty) o.b) none
    (fun _ _ t r => divisionFlags o.ty r.a r.b = 0x20 ∧ t.astat.getLsbD 13 = true ∧ ¬inHandler t)
    (fun e _ t _ => entered (flagged t 0x20) 0x13 0 t.pc e.tvec))
/-- R199: AND, OR, XOR, ANDN, NOT, SHL, SHR, SAR, ROTL, CLZ, POPC and BREV complete whenever their operands can be collected, with the
table's result in every sub-element and nothing else changed. A shift count is the sub-element of B taken as unsigned; SAR fills with bit
w - 1 under every type. R200: BFX and BFI complete with the field that each control gives, sign-extended by BFX under i types. -/
def Obligations.LogicAndShifts : Prop :=
  (∀ o, BinCompletes (.and o) o (.int o.ty) (fun a b => a &&& b)) ∧
  (∀ o, BinCompletes (.or o) o (.int o.ty) (fun a b => a ||| b)) ∧
  (∀ o, BinCompletes (.xor o) o (.int o.ty) (fun a b => a ^^^ b)) ∧
  (∀ o, BinCompletes (.andn o) o (.int o.ty) (fun a b => a &&& ~~~b)) ∧
  (∀ o, UnCompletes (.not o) o (.int o.ty) (fun a => ~~~a)) ∧
  (∀ o, BinCompletes (.shl o) o (.int o.ty) (shlWord o.ty.width)) ∧
  (∀ o, BinCompletes (.shr o) o (.int o.ty) (shrWord o.ty.width)) ∧
  (∀ o, BinCompletes (.sar o) o (.int o.ty) (sarWord o.ty.width)) ∧
  (∀ o, BinCompletes (.rotl o) o (.int o.ty) (fun a b => bitsWord o.ty.width (fun i =>
    elemN o.ty.width a i * 2 ^ (elemN o.ty.width b i % o.ty.width) +
      elemN o.ty.width a i / 2 ^ (o.ty.width - elemN o.ty.width b i % o.ty.width)))) ∧
  (∀ o, UnCompletes (.clz o) o (.int o.ty) (fun a => bitsWord o.ty.width (fun i => leadingZeros o.ty.width (elemN o.ty.width a i)))) ∧
  (∀ o, UnCompletes (.popc o) o (.int o.ty) (fun a => bitsWord o.ty.width (fun i =>
    ((List.range o.ty.width).map (Claims.bitOf (elemN o.ty.width a i))).sum))) ∧
  (∀ o, UnCompletes (.brev o) o (.int o.ty) (fun a => bitsWord o.ty.width (fun i =>
    ((List.range o.ty.width).map (fun j => Claims.bitOf (elemN o.ty.width a i) (o.ty.width - 1 - j) * 2 ^ j)).sum))) ∧
  (∀ o, BinCompletes (.bfx o) o (.int o.ty) (fun a b => bitsWord o.ty.width (fun i =>
    extracted o.ty (elemN o.ty.width a i) (elemN o.ty.width b i)))) ∧
  (∀ o, TerCompletes (.bfi o) o (.int o.ty) (.int o.ty) (fun a b c => bitsWord o.ty.width (fun i =>
    inserted o.ty.width (elemN o.ty.width a i) (elemN o.ty.width b i) (elemN o.ty.width c i))))

/-- R201 to R204: SEL, MOV, CVTI, LEA, PTAG and PCHK complete whenever their operands can be collected. SEL picks whole registers by its
predicate; CVTI reads sub-elements s + i of the source type and gives zero where there is none; LEA and PTAG keep and replace the tag; PCHK
writes the outcome of the check of R66 with the kind's rights and alignment, 0x0D for a recoverable fault, and 0x0A for a size of 0 or above
2^32. That CVTI supplies an inline constant in its source type, where pattern 0xE reverses the sub-elements of its type field, is the model's reading
(log entry 15), and so are the rights that PCHK asks for a publication and for write tenure (log entry 64). -/
def Obligations.MovesAndAddresses : Prop :=
  (∀ (o : Bin IType) (pq : Fin 8) (neg : Bool), LanesComplete (.sel o pq neg) o.g (some o.d) (srcA o.pat (.int o.ty) o.a)
    (srcB o.pat (.int o.ty) o.b) none noCondition
    (writes (fun _ _ t r => if (t.pred pq = true ∧ neg = false) ∨ (t.pred pq = false ∧ neg = true) then r.a else r.b))) ∧
  (∀ o, UnCompletes (.mov o) o (.int o.ty) (fun a => a)) ∧
  (∀ (o : Un IType) (src : IType) (start : Fin 8) (sat : Bool), UnCompletes (.cvti o src start sat) o (.intFrom src o.ty.width)
    (fun a => assemble o.ty.width (fun i => if start.val + i < 64 / src.width then stored o.ty sat (elemI src a (start.val + i)) else 0))) ∧
  (∀ (o : Bin Unit) (scale : Fin 8), BinCompletes (.lea o scale) o .whole
    (fun a b => pointer (a.toNat / 2 ^ 54) ((a.toNat % 2 ^ 54 : Nat) + b.toInt * 2 ^ scale.val))) ∧
  (∀ o : Bin Unit, BinCompletes (.ptag o) o .whole (fun a b => pointer (b.toNat % 1024) (a.toNat : Int))) ∧
  (∀ (o : Bin Unit) (k : AccessKind) (s : State) (i : Issue) (rest : List Issue) (e : Env) (got : Nat → Got),
    s.issue = i :: rest → s.env? i = some e →
    (∀ p ∈ e.g.threads, p.1 ∈ i.lanes → p.2.selected o.g = true →
      collect e p.1 p.2 (some o.d) (srcA o.pat .whole o.a) (srcB o.pat .whole o.b) none = .ok (got p.1) ∧ (got p.1).poisoned = false) →
    exec (.pchk o k) s = .next (s.setGroup i.group (lanesAfter e i.lanes o.g (fun l _ => ((got l).t.put (got l).d
        (if (got l).b = 0 ∨ 2 ^ 32 < (got l).b.toNat then 0x0A
         else match s.check e.core e.ctx (got l).a (got l).b.toNat (kindAlign k (got l).b.toNat) (kindNeed k) with
          | .ok _ => 0
          | .error (.trap c) => BitVec.ofNat 64 c
          | .error (.park _ _) => 0x0D)).advance))))

/-- R205, R206, R210: CMP, CMPI and the predicate words complete, a write to p0 discarded (R130); MOVI, MOVHI, ADDI, ANDI, ORI and XORI complete,
with the immediate extended as each entry says. -/
def Obligations.ComparesAndImmediates : Prop :=
  (∀ (g : Guard) (pat : Pat) (ty : IType) (pd : Fin 8) (a b : Src) (c : Cond) (any : Bool) (t : Thread → Got → Bool),
    (∀ u x, t u x = true ↔ combined any ty.width (fun i => holds c (elemI ty x.a i) (elemI ty x.b i))) →
    LanesComplete (.cmp g pat ty pd a b c any) g none (srcA pat (.int ty) a) (srcB pat (.int ty) b) none noCondition (setsPred pd t)) ∧
  (∀ (g : Guard) (pd : Fin 8) (a : Operand) (c : Cond) (uns : Bool) (imm : BitVec 32) (t : Thread → Got → Bool),
    (∀ u x, t u x = true ↔ if uns then holds c x.a.toNat imm.toNat else holds c x.a.toInt imm.toInt) →
    LanesComplete (.cmpi g pd a c uns imm) g none (srcO .whole a) none none noCondition (setsPred pd t)) ∧
  (∀ (g : Guard) (pd pa pb : Fin 8),
    LanesComplete (.pand g pd pa pb) g none none none none noCondition (setsPred pd (fun t _ => t.pred pa && t.pred pb)) ∧
    LanesComplete (.por g pd pa pb) g none none none none noCondition (setsPred pd (fun t _ => t.pred pa || t.pred pb)) ∧
    LanesComplete (.pxor g pd pa pb) g none none none none noCondition (setsPred pd (fun t _ => t.pred pa ^^ t.pred pb)) ∧
    LanesComplete (.pnot g pd pa) g none none none none noCondition (setsPred pd (fun t _ => !t.pred pa)) ∧
    LanesComplete (.pmov g (.copy pd pa)) g none none none none noCondition (setsPred pd (fun t _ => t.pred pa))) ∧
  (∀ (g : Guard) (d : Operand), LanesComplete (.pmov g (.get d)) g (some d) none none none noCondition
    (writes (fun _ _ t _ => BitVec.ofNat 64 (t.p.toNat / 2 * 2)))) ∧
  (∀ (g : Guard) (a : Src) (pat : LanePat), LanesComplete (.pmov g (.set a pat)) g none (srcP pat .whole a) none none noCondition
    (fun _ _ _ r => ({ r.t with p := BitVec.ofNat 8 (r.a.toNat / 2 * 2) } : Thread).advance)) ∧
  (∀ (t : Thread) (n m : Fin 8) (b : Bool), (t.setP n b).pred m = if m = n ∧ n ≠ 0 then b else t.pred m) ∧
  (∀ (g : Guard) (d : Operand) (z : Bool) (imm : BitVec 32), LanesComplete (.movi g d z imm) g (some d) none none none noCondition
    (writes (fun _ _ _ _ => if z then imm.setWidth 64 else imm.signExtend 64))) ∧
  (∀ (o : Imm), LanesComplete (.movhi o) o.g (some o.d) (srcO .whole o.a) none none noCondition
    (writes (fun _ _ _ r => (o.imm ++ r.a.setWidth 32 : BitVec 64)))) ∧
  (∀ (o : Imm) (sat : Bool), LanesComplete (.addi o sat) o.g (some o.d) (srcO .whole o.a) none none noCondition
    (writes (fun _ _ _ r => intWord .i64 sat (fun _ => r.a.toInt + o.imm.toInt)))) ∧
  (∀ (o : Imm) (sx : Bool), LanesComplete (.andi o sx) o.g (some o.d) (srcO .whole o.a) none none noCondition
    (writes (fun _ _ _ r => r.a &&& (if sx then o.imm.signExtend 64 else o.imm.setWidth 64)))) ∧
  (∀ (o : Imm) (sx : Bool), LanesComplete (.ori o sx) o.g (some o.d) (srcO .whole o.a) none none noCondition
    (writes (fun _ _ _ r => r.a ||| (if sx then o.imm.signExtend 64 else o.imm.setWidth 64)))) ∧
  (∀ (o : Imm) (sx : Bool), LanesComplete (.xori o sx) o.g (some o.d) (srcO .whole o.a) none none noCondition
    (writes (fun _ _ _ r => r.a ^^^ (if sx then o.imm.signExtend 64 else o.imm.setWidth 64))))

/-- R207 to R209, R124, R125, R129: IXSET, IXCUR, IXGET, QCFG, QOCC and FREE complete; IXSET for every image that it accepts. Where the source
is v[xN+] of the register that IXSET or IXCUR writes, the register is stepped after it has been written; IXGET reads an index register, and
QOCC a queue, as it stands before the word. -/
def Obligations.IndexQueueAndFree : Prop :=
  (∀ (g : Guard) (pat : LanePat) (x : Fin 8) (a : Src), LanesComplete (.ixset g pat x a) g none (srcP pat .whole a) none none
    (fun _ _ _ r => goodImage r.a) (fun _ _ _ r => ({ r.t with
      x := Table.set r.t.x x.val (if a.op = .indInc x then stepped (imaged r.a) else imaged r.a) } : Thread).advance)) ∧
  (∀ (g : Guard) (pat : LanePat) (x : Fin 8) (a : Src) (add : Bool), LanesComplete (.ixcur g pat x a add) g none (srcP pat .whole a) none
    none noCondition (fun _ _ t r =>
      let old := t.xreg x.val
      let new : IndexReg := { old with cursor := if add then old.cursor + r.a.setWidth 16 else r.a.setWidth 16 }
      ({ r.t with x := Table.set r.t.x x.val (if a.op = .indInc x then stepped new else new) } : Thread).advance)) ∧
  (∀ (g : Guard) (d : Operand) (x : Fin 8), LanesComplete (.ixget g d x) g (some d) none none none noCondition
    (writes (fun _ _ t _ => image (t.xreg x.val)))) ∧
  (∀ (g : Guard) (q : Fin 8) (n : Fin 17), LanesComplete (.qcfg g q n) g none none none none noCondition
    (fun _ _ t _ => ({ t with q := Table.set t.q q.val { depth := n.val, entries := [] },
                              poisoned := t.poisoned.filter (fun m => decide (m < 128 + 16 * q.val ∨ 144 + 16 * q.val ≤ m)) } : Thread).advance)) ∧
  (∀ (g : Guard) (d : Operand) (q : Fin 8), LanesComplete (.qocc g d q) g (some d) none none none noCondition
    (writes (fun _ _ t _ => BitVec.ofNat 64 (t.queueOf q.val).entries.length))) ∧
  (∀ (g : Guard) (n count1 : Fin 128), LanesComplete (.free g n count1) g none none none none noCondition
    (fun _ _ t _ => ((List.range (count1.val + 1)).foldl (fun (u : Thread) j =>
      { u with v := Table.erase u.v (n.val + j), poisoned := u.poisoned.filter (fun m => m ≠ n.val + j) }) t).advance))
/-! ## Floating point -/

/-- R142, R148: rounding a finite non-zero number x = ±m·2^e into a format. In an IEEE format the result is x rounded to a multiple of the
unit in the last place that x has in the format, unless its magnitude would pass the largest finite one: then it is ±∞ or the largest, by
mode and sign, with OF and NX. UF is raised exactly where the result is inexact and tiny, which is judged after rounding with an exponent that has
no least value. In a narrow format a magnitude above the largest saturates with OF and NX, one below the smallest becomes the
smallest or zero with UF and NX, and any other is rounded to a multiple of its unit. NX tells an inexact result. -/
def Obligations.RoundingIsCorrect : Prop :=
  ∀ (t : FType) (r : Rnd) (neg : Bool) (m : Nat) (e lead : Int), m ≠ 0 →
    (2 : ℚ) ^ lead ≤ (m : ℚ) * (2 : ℚ) ^ e → (m : ℚ) * (2 : ℚ) ^ e < (2 : ℚ) ^ (lead + 1) →
    let x := ratOf (.fin neg m e)
    let u := unitAt t lead
    let y := (roundQ r (x / (2 : ℚ) ^ u) : ℚ) * (2 : ℚ) ^ u
    let out := roundF t r neg m e
    let isExact := ∃ k f, Machine.decodeF t out.1 = .fin neg k f ∧ ratOf (.fin neg k f) = y
    let z := (roundQ r (x / (2 : ℚ) ^ (lead - fracBits t)) : ℚ) * (2 : ℚ) ^ (lead - fracBits t)
    (isNarrow t = false → |y| ≤ largestQ t → isExact ∧ (out.2 &&& flagNX = 0 ↔ y = x) ∧ out.2 &&& flagOF = 0 ∧
      (out.2 &&& flagUF ≠ 0 ↔ y ≠ x ∧ |z| < (2 : ℚ) ^ (1 - (bias t : Int)))) ∧
    (isNarrow t = false → largestQ t < |y| → out.2 = flagOF ||| flagNX ∧
      Machine.decodeF t out.1 = (match r with
        | .rn => .inf neg
        | .rz => Machine.decodeF t (signCode t neg (largestMag t))
        | .rd => if neg then .inf true else Machine.decodeF t (largestMag t)
        | .ru => if neg then Machine.decodeF t (signCode t true (largestMag t)) else .inf false)) ∧
    (isNarrow t = true → largestQ t < |x| → out = (signCode t neg (largestMag t), flagOF ||| flagNX)) ∧
    (isNarrow t = true → smallestQ t ≤ |x| → |x| ≤ largestQ t → isExact ∧ out.2 = if y = x then 0 else flagNX) ∧
    (isNarrow t = true → |x| < smallestQ t → out.2 = flagUF ||| flagNX ∧
      out.1 = if (r = .rn ∧ smallestQ t < 2 * |x|) ∨ (r = .ru ∧ neg = false) ∨ (r = .rd ∧ neg = true) then signCode t neg 1 else 0)

/-- R259, R262: the exact sum, product and fused product and sum of finite values, with the signs of exact zeros; rounding to an integer in every
mode (R153, R263); what a finite value and an infinity become in a format (R142, R145, R148); and the quotient, the square root, the reciprocal
and the reciprocal square root, each the exact real number rounded once, FEXP2 of an integer and FLOG2 of a power of two among them. -/
def Obligations.ExactFloatResults : Prop :=
  (∀ (r : Rnd) (n k : Bool) (m q : Nat) (e f : Int), ∃ s v g, addF r (.fin n m e) (.fin k q f) = (.fin s v g, 0) ∧
    ratOf (.fin s v g) = ratOf (.fin n m e) + ratOf (.fin k q f) ∧
    (v = 0 → s = if m = 0 ∧ q = 0 ∧ n = k then n else decide (r = .rd))) ∧
  (∀ (n k : Bool) (m q : Nat) (e f : Int), ∃ s v g, mulF (.fin n m e) (.fin k q f) = (.fin s v g, 0) ∧
    ratOf (.fin s v g) = ratOf (.fin n m e) * ratOf (.fin k q f) ∧ s = (n ^^ k)) ∧
  (∀ (r : Rnd) (n k j : Bool) (m q p : Nat) (e f h : Int), ∃ s v g,
    fmaF r (.fin n m e) (.fin k q f) (.fin j p h) = (.fin s v g, 0) ∧
    ratOf (.fin s v g) = ratOf (.fin n m e) * ratOf (.fin k q f) + ratOf (.fin j p h) ∧
    (v = 0 → s = if (m = 0 ∨ q = 0) ∧ p = 0 ∧ (n ^^ k) = j then j else decide (r = .rd))) ∧
  (∀ (t : FType) (r : Rnd) (n : Bool) (m : Nat) (e : Int) (fl : Flags),
    finishF t r (.fin n m e) fl = ((roundF t r n m e).1, (roundF t r n m e).2 ||| fl) ∧
    roundF t r n 0 e = (if isNarrow t = true ∨ n = false then 0 else 2 ^ (t.width - 1), 0) ∧
    (isNarrow t = false → Machine.decodeF t (finishF t r (.inf n) fl).1 = .inf n ∧ (finishF t r (.inf n) fl).2 = fl) ∧
    (isNarrow t = true → finishF t r (.inf n) fl = (signCode t n (largestMag t), fl ||| (flagOF ||| flagNX)))) ∧
  (∀ (t : FType) (r : Rnd) (n k : Bool) (m q : Nat) (e f : Int), isNarrow t = false → m ≠ 0 → q ≠ 0 →
    let x : ℝ := ((ratOf (.fin n m e) : ℚ) : ℝ)
    (divF (.fin n m e) (.fin k q f)).2 = 0 ∧
    RoundedTo t r (x / ((ratOf (.fin k q f) : ℚ) : ℝ)) (finishF t r (divF (.fin n m e) (.fin k q f)).1 0) ∧
    RoundedTo t r (1 / x) (frcp t r (.fin n m e)) ∧
    (n = false → RoundedTo t r (Real.sqrt x) (fsqrt t r (.fin n m e)) ∧ RoundedTo t r (1 / Real.sqrt x) (frsq t r (.fin n m e))) ∧
    (∀ i : Int, x = i → RoundedTo t r ((2 : ℝ) ^ i) (fexp2 t r (.fin n m e))) ∧
    (∀ i : Int, x = (2 : ℝ) ^ i → flog2 t r (.fin n m e) = roundF t r (decide (i < 0)) i.natAbs 0)) ∧
  (∀ (r : Rnd) (neg : Bool) (m : Nat) (e : Int),
    (signedM neg (roundInt r neg m e).1 = roundQ r (ratOf (.fin neg m e))) ∧
    ((roundInt r neg m e).2 = false ↔ ((roundQ r (ratOf (.fin neg m e)) : ℚ) = ratOf (.fin neg m e))))

/-- R143, R259: NaNs and invalid operations. A sum, product, quotient or fused product and sum is a NaN exactly where an operand is one or the
operation is invalid; NV is raised for a signalling operand and for an invalid operation; every NaN result has its format's canonical code (R141,
R144). R262: the special inputs of FSQRT, FRCP, FRSQ, FEXP2, FLOG2, FSIN, FCOS and FTANH: zeros, infinities, numbers below zero, and NaNs. -/
def Obligations.InvalidOperations : Prop :=
  (∀ (r : Rnd) (a b : FV), isNan a = true ∨ isNan b = true →
    (addF r a b) = (.nan false, if a = .nan true ∨ b = .nan true then flagNV else 0) ∧
    (mulF a b) = (.nan false, if a = .nan true ∨ b = .nan true then flagNV else 0) ∧
    (divF a b) = (.nan false, if a = .nan true ∨ b = .nan true then flagNV else 0)) ∧
  (∀ (r : Rnd) (n k : Bool), addF r (.inf n) (.inf k) = if n = k then (.inf n, 0) else (.nan false, flagNV)) ∧
  (∀ (n k : Bool) (m : Nat) (e : Int),
    mulF (.inf n) (.fin k m e) = (if m = 0 then (.nan false, flagNV) else (.inf (n ^^ k), 0)) ∧
    mulF (.fin k m e) (.inf n) = (if m = 0 then (.nan false, flagNV) else (.inf (k ^^ n), 0))) ∧
  (∀ (r : Rnd) (n k : Bool) (e : Int) (c : FV), c ≠ .nan true →
    fmaF r (.inf n) (.fin k 0 e) c = (.nan false, flagNV) ∧ fmaF r (.fin k 0 e) (.inf n) c = (.nan false, flagNV)) ∧
  (∀ (n k : Bool) (m : Nat) (e f : Int),
    divF (.inf n) (.inf k) = (.nan false, flagNV) ∧ divF (.fin n 0 e) (.fin k 0 f) = (.nan false, flagNV) ∧
    divF (.fin n (m + 1) e) (.fin k 0 f) = (.inf (n ^^ k), flagDV) ∧ divF (.inf n) (.fin k m f) = (.inf (n ^^ k), 0)) ∧
  (∀ (r : Rnd) (n k : Bool) (m : Nat) (e : Int), addF r (.inf n) (.fin k m e) = (.inf n, 0) ∧ addF r (.fin k m e) (.inf n) = (.inf n, 0) ∧
    mulF (.inf n) (.inf k) = (.inf (n ^^ k), 0) ∧ (∃ f, divF (.fin k m e) (.inf n) = (.fin (k ^^ n) 0 f, 0))) ∧
  (∀ (n k : Bool) (m q : Nat) (e f : Int), q ≠ 0 → ∃ v g, divF (.fin n m e) (.fin k q f) = (.fin (n ^^ k) v g, 0) ∧ (v = 0 ↔ m = 0)) ∧
  (∀ (r : Rnd) (a b c : FV),
    let invalid := (∃ n k e, (a = .inf n ∧ b = .fin k 0 e) ∨ (a = .fin k 0 e ∧ b = .inf n))
    (¬invalid → isNan a = true ∨ isNan b = true ∨ isNan c = true →
      fmaF r a b c = (.nan false, if a = .nan true ∨ b = .nan true ∨ c = .nan true then flagNV else 0)) ∧
    (invalid → fmaF r a b c = (.nan false, flagNV)) ∧
    (∀ s, mulF a b = (.inf s, 0) → (∀ j, c = .inf j → fmaF r a b c = if s = j then (.inf s, 0) else (.nan false, flagNV)) ∧
      (∀ j p h, c = .fin j p h → fmaF r a b c = (.inf s, 0))) ∧
    (∀ s v g j, mulF a b = (.fin s v g, 0) → c = .inf j → fmaF r a b c = (.inf j, 0))) ∧
  (∀ (t : FType) (r : Rnd) (s : Bool) (fl : Flags), finishF t r (.nan s) fl = (match t with
    | .f64 => 0x7FF8000000000000
    | .f32 => 0x7FC00000
    | .f16 => 0x7E00
    | .b16 => 0x7FC0
    | .f8 => 0x80
    | .f6 => 0x20
    | .f4 => 0x8, fl)) ∧
  (∀ (t : FType) (r : Rnd), isNarrow t = false →
    (∀ f ∈ [fsqrt, frsq, fexp2, flog2, fsin, fcos, ftanh], ∀ s, f t r (.nan s) = (nanCode t, if s then flagNV else 0)) ∧
    (∀ s, frcp t r (.nan s) = (nanCode t, if s then flagNV else 0)) ∧
    (∀ n e, fsqrt t r (.fin n 0 e) = (zeroCode t n, 0) ∧ frcp t r (.fin n 0 e) = (infCode t n, flagDV) ∧
      frsq t r (.fin n 0 e) = (infCode t n, flagDV) ∧ flog2 t r (.fin n 0 e) = (infCode t true, flagDV) ∧
      fsin t r (.fin n 0 e) = (zeroCode t n, 0) ∧ ftanh t r (.fin n 0 e) = (zeroCode t n, 0) ∧
      fcos t r (.fin n 0 e) = roundF t r false 1 0 ∧ fexp2 t r (.fin n 0 e) = roundF t r false 1 0) ∧
    (∀ n, frcp t r (.inf n) = (zeroCode t n, 0) ∧ fsin t r (.inf n) = (nanCode t, flagNV) ∧ fcos t r (.inf n) = (nanCode t, flagNV) ∧
      ftanh t r (.inf n) = roundF t r n 1 0) ∧
    fsqrt t r (.inf false) = (infCode t false, 0) ∧ frsq t r (.inf false) = (zeroCode t false, 0) ∧
    fexp2 t r (.inf true) = (zeroCode t false, 0) ∧ fexp2 t r (.inf false) = (infCode t false, 0) ∧ flog2 t r (.inf false) = (infCode t false, 0) ∧
    (∀ m e, fsqrt t r (.fin true (m + 1) e) = (nanCode t, flagNV) ∧ frsq t r (.fin true (m + 1) e) = (nanCode t, flagNV) ∧
      flog2 t r (.fin true (m + 1) e) = (nanCode t, flagNV)) ∧
    (∀ f ∈ [fsqrt, frsq, flog2], f t r (.inf true) = (nanCode t, flagNV)) ∧ flog2 t r (.fin false 1 0) = (zeroCode t false, 0))

/-- R256 to R259, R262, R263: FADD, FSUB, FMUL, FMA, FDIV, the special functions and FRND complete whenever their operands can be collected and
no raised flag is enabled: one result for each sub-element, rounded once into the format, the OR of the flags in astat, and nothing else
changed. Where a raised flag is enabled the thread sets its flags, writes nothing and takes trap 0x14 (R139, R140, R364). The value and the rounding of an element are those of the functions named here, which statements of their own describe. -/
def Obligations.FloatArithmetic : Prop :=
  (∀ o r, BinFlags (.fadd o r) o (fun a b => floatWord o.ty.width (fun i =>
    let v := addF r (valueAt o.ty a i) (valueAt o.ty b i)
    coded (finishF o.ty r v.1 v.2)))) ∧
  (∀ o r, BinFlags (.fsub o r) o (fun a b => floatWord o.ty.width (fun i =>
    let v := addF r (valueAt o.ty a i) (negF (valueAt o.ty b i))
    coded (finishF o.ty r v.1 v.2)))) ∧
  (∀ o r, BinFlags (.fmul o r) o (fun a b => floatWord o.ty.width (fun i =>
    let v := mulF (valueAt o.ty a i) (valueAt o.ty b i)
    coded (finishF o.ty r v.1 v.2)))) ∧
  (∀ o r, TerFlags (.fma o r) o o.ty (fun a b c => floatWord o.ty.width (fun i =>
    let v := fmaF r (valueAt o.ty a i) (valueAt o.ty b i) (valueAt o.ty c i)
    coded (finishF o.ty r v.1 v.2)))) ∧
  (∀ o r, BinFlags (.fdiv o r) o (fun a b => floatWord o.ty.width (fun i =>
    let v := divF (valueAt o.ty a i) (valueAt o.ty b i)
    coded (finishF o.ty r v.1 v.2)))) ∧
  (∀ o r, UnFlags (.fsqrt o r) o (fun a => floatWord o.ty.width (fun i => coded (fsqrt o.ty r (valueAt o.ty a i))))) ∧
  (∀ o r, UnFlags (.frcp o r) o (fun a => floatWord o.ty.width (fun i => coded (frcp o.ty r (valueAt o.ty a i))))) ∧
  (∀ o r, UnFlags (.frsq o r) o (fun a => floatWord o.ty.width (fun i => coded (frsq o.ty r (valueAt o.ty a i))))) ∧
  (∀ o r, UnFlags (.fexp2 o r) o (fun a => floatWord o.ty.width (fun i => coded (fexp2 o.ty r (valueAt o.ty a i))))) ∧
  (∀ o r, UnFlags (.flog2 o r) o (fun a => floatWord o.ty.width (fun i => coded (flog2 o.ty r (valueAt o.ty a i))))) ∧
  (∀ o r, UnFlags (.fsin o r) o (fun a => floatWord o.ty.width (fun i => coded (fsin o.ty r (valueAt o.ty a i))))) ∧
  (∀ o r, UnFlags (.fcos o r) o (fun a => floatWord o.ty.width (fun i => coded (fcos o.ty r (valueAt o.ty a i))))) ∧
  (∀ o r, UnFlags (.ftanh o r) o (fun a => floatWord o.ty.width (fun i => coded (ftanh o.ty r (valueAt o.ty a i))))) ∧
  (∀ o exact r, UnFlags (.frnd o exact r) o (fun a => floatWord o.ty.width (fun i => coded (frndN o.ty exact r (elemN o.ty.width a i)))))

/-- R262: the values of FEXP2, FLOG2, FSIN, FCOS and FTANH on all inputs but the zeros, infinities and NaNs, which stand with the invalid
operations. Between the smallest and the largest arguments each takes a bound in
integers, which encloses the real function; the real number is rounded once from it, wherever a precision settles how it rounds and the number
is no dyadic fraction; outside them the result is that of the real function, rounded once. -/
def Obligations.SpecialFunctionInputs : Prop :=
  (∀ (t : FType) (r : Rnd) (f : Nat → Approx) (sh : Int) (v : ℝ), isNarrow t = false → Encloses f sh v → (∀ k e : Int, v ≠ (k : ℝ) * (2 : ℝ) ^ e) →
    Settles t r f sh → RoundedTo t r v (ziv t r f sh)) ∧
  (∀ (t : FType) (r : Rnd) (n : Bool) (m : Nat) (e : Int), t ∈ [FType.f32, .f16, .b16] → m ≠ 0 → m < 2 ^ (fracBits t + 1) →
    let x : ℝ := ((ratOf (.fin n m e) : ℚ) : ℝ)
    (leadExp m e < -40 → RoundedTo t r ((2 : ℝ) ^ x) (fexp2 t r (.fin n m e)) ∧ RoundedTo t r (Real.sin x) (fsin t r (.fin n m e)) ∧
      RoundedTo t r (Real.cos x) (fcos t r (.fin n m e)) ∧ RoundedTo t r (Real.tanh x) (ftanh t r (.fin n m e))) ∧
    (12 < leadExp m e → RoundedTo t r ((2 : ℝ) ^ x) (fexp2 t r (.fin n m e))) ∧
    (5 < leadExp m e → RoundedTo t r (Real.tanh x) (ftanh t r (.fin n m e))) ∧
    (-40 ≤ leadExp m e →
      fsin t r (.fin n m e) = ziv t r (fun p => trigVal p false n m e) 0 ∧ Encloses (fun p => trigVal p false n m e) 0 (Real.sin x) ∧
      fcos t r (.fin n m e) = ziv t r (fun p => trigVal p true n m e) 0 ∧ Encloses (fun p => trigVal p true n m e) 0 (Real.cos x)) ∧
    (-40 ≤ leadExp m e → leadExp m e ≤ 5 → ∃ f, ftanh t r (.fin n m e) = ziv t r f 0 ∧ Encloses f 0 (Real.tanh x)) ∧
    (-40 ≤ leadExp m e → leadExp m e ≤ 12 → (∀ k : Int, x ≠ k) → ∃ f sh, fexp2 t r (.fin n m e) = ziv t r f sh ∧ Encloses f sh ((2 : ℝ) ^ x)) ∧
    (n = false → (∀ k : Int, x ≠ (2 : ℝ) ^ k) → ∃ f, flog2 t r (.fin n m e) = ziv t r f 0 ∧ Encloses f 0 (Real.logb 2 x)))

/-- R260, R261, R264: FMIN, FMAX, FCMP and FCLASS complete. FMIN and FMAX write the selected operand's code unchanged, with -0 below +0 and the
NaN rules of .num and .nan; FCMP compares numerically; FCLASS gives each element's class. A raised flag that is enabled sets the flags and is
trap 0x14 (R139, R140, R364). -/
def Obligations.FloatSelection : Prop :=
  (∀ (o : Bin FType) (nan : Bool) (min max : Word → Word → Word × Nat),
    (∀ a b, ∃ f g : Nat → Nat × Nat, min a b = floatWord o.ty.width f ∧ max a b = floatWord o.ty.width g ∧ ∀ i,
      let x := valueAt o.ty a i
      let y := valueAt o.ty b i
      let nv := if x = .nan true ∨ y = .nan true then 0x10 else 0
      (isNan x = true ∧ isNan y = true → f i = (nanCode o.ty, nv) ∧ g i = (nanCode o.ty, nv)) ∧
      (isNan x = true ∧ isNan y = false → f i = (if nan then nanCode o.ty else elemN o.ty.width b i, nv) ∧ g i = f i) ∧
      (isNan x = false ∧ isNan y = true → f i = (if nan then nanCode o.ty else elemN o.ty.width a i, nv) ∧ g i = f i) ∧
      (isNan x = false → isNan y = false → (precedes y x → f i = (elemN o.ty.width b i, 0) ∧ g i = (elemN o.ty.width a i, 0)) ∧
        (¬precedes y x → f i = (elemN o.ty.width a i, 0) ∧ g i = (elemN o.ty.width b i, 0)))) →
    BinFlags (.fmin o nan) o min ∧ BinFlags (.fmax o nan) o max) ∧
  (∀ (g : Guard) (pat : Pat) (ty : FType) (pd : Fin 8) (a b : Src) (c : FCond) (any : Bool) (t : Got → Bool),
    (∀ x, t x = true ↔ combined any ty.width (fun i => holdsF c (valueAt ty x.a i) (valueAt ty x.b i))) →
    let fl := fun (x : Got) => (floatWord ty.width (fun i => (0, flagsF c (valueAt ty x.a i) (valueAt ty x.b i)))).2
    LanesComplete (.fcmp g pat ty pd a b c any) g none (srcA pat (.flt ty) a) (srcB pat (.flt ty) b) none
      (fun _ _ th x => quiet th (fl x)) (fun _ _ _ x => (flagged (x.t.setP pd (t x)) (fl x)).advance) ∧
    LanesComplete (.fcmp g pat ty pd a b c any) g none (srcA pat (.flt ty) a) (srcB pat (.flt ty) b) none
      (fun _ _ th x => ¬quiet th (fl x) ∧ ¬inHandler th) (fun e _ th x => entered (flagged th (fl x)) 0x14
        (BitVec.ofNat 64 (256 * (fl x &&& (th.astat.toNat / 256) % 64))) th.pc e.tvec)) ∧
  (∀ o, UnFlags (.fclass o) o (fun a => floatWord o.ty.width (fun i => (classOf o.ty (elemN o.ty.width a i), 0))))

/-- R153, R265, R266, R269, R270: FCVT, FTOI, ITOF, FSCALE, FDOT4 and IDOT4 complete. The conversions read sub-elements s + i of the source
type and give zero where there is none; FTOI rounds to an integer before it judges the range; a NaN becomes the canonical NaN, and a conversion
of one format to itself copies every other code. A raised flag that is enabled sets the flags and is trap 0x14 (R139, R140, R364). That an
inline constant as FSCALE's scale operand is its whole 64 bits is log entry 64. That the conversions supply inline constants in their source type, where pattern 0xE reverses
the sub-elements of their type field, is the model's reading (log entry 15). -/
def Obligations.Conversions : Prop :=
  (∀ (o : Un FType) (src : FType) (start : Fin 16) (r : Rnd),
    FloatComplete (.fcvt o src start r) o.g o.d (srcA o.pat (.fltFrom src o.ty.width) o.a) none none (fun x => floatWord o.ty.width (fun i =>
      if start.val + i < 64 / src.width then
        let c := elemN src.width x.a (start.val + i)
        match Machine.decodeF src c with
        | .nan s => (nanCode o.ty, if s then 0x10 else 0)
        | v => if o.ty = src then (c, 0) else coded (finishF o.ty r v 0)
      else (0, 0)))) ∧
  (∀ (o : Un IType) (src : FType) (start : Fin 16) (r : Rnd),
    FloatComplete (.ftoi o src start r) o.g o.d (srcA o.pat (.fltFrom src o.ty.width) o.a) none none (fun x => floatWord o.ty.width (fun i =>
      if start.val + i < 64 / src.width then toInt o.ty r (valueAt src x.a (start.val + i)) else (0, 0)))) ∧
  (∀ (o : Un FType) (src : IType) (start : Fin 8) (r : Rnd),
    FloatComplete (.itof o src start r) o.g o.d (srcA o.pat (.intFrom src o.ty.width) o.a) none none (fun x => floatWord o.ty.width (fun i =>
      if start.val + i < 64 / src.width then
        let v := elemI src x.a (start.val + i)
        coded (roundF o.ty r (decide (v < 0)) v.natAbs 0)
      else (0, 0)))) ∧
  (∀ (o : Bin FType) (sel : Fin 8) (r : Rnd),
    FloatComplete (.fscale o sel r) o.g o.d (srcA o.pat (.flt o.ty) o.a) (srcB o.pat (.cell o.ty.width) o.b) none (fun x =>
      floatWord o.ty.width (fun i =>
        let v := scaleF (valueAt o.ty x.a i) [elemN 8 x.b sel.val]
        coded (finishF o.ty r v.1 v.2)))) ∧
  (∀ (o : Ter FType) (r : Rnd), TerFlags (.fdot4 o r) o .f32 (fun a b c => floatWord 32 (fun j =>
    let n := 64 / o.ty.width / 2
    coded (dotSum r (valueAt .f32 c j) ((List.range n).map (fun i => mulF (valueAt o.ty a (j * n + i)) (valueAt o.ty b (j * n + i)))))))) ∧
  (∀ (o : Ter IType) (sat : Bool) (acc : IType), acc = (if o.ty.signed then .i32 else .u32) →
    LanesComplete (.idot4 o sat) o.g (some o.d) (srcA o.pat (.int o.ty) o.a) (srcB o.pat (.int o.ty) o.b) (srcN (.int acc) o.c)
      noCondition (writes (fun _ _ _ x => intWord acc sat (fun j =>
        let n := 64 / o.ty.width / 2
        elemI acc x.c j + ((List.range n).map (fun i => elemI o.ty x.a (j * n + i) * elemI o.ty x.b (j * n + i))).sum))))
/-! ## P-form words -/

/-- R182 to R185, R189: a P-form word is one instruction of two halves, executed whenever both halves can collect their operands and no flag
of half 0 is enabled. Both halves read before either writes; half 0's result is written first, so that half 1's stands where both name one
register, one that half 0's indirect destination resolves to among them (log entry 64); a thread changes in nothing else. A class A half computes what the F-form instruction of its name computes with modifier zero; a
class F half computes it under rn, and with .num. -/
def Obligations.PairWords : Prop :=
  (∀ (op : HalfOp) (h0 : Half IType) (h1 : Half1),
    PairCompletes (pairOf op h0 h1) (.int h0.ty) (isUnary op) h0 h1 (fun a b => (halfWord op h0.ty a b, 0))) ∧
  (∀ (h0 : Half FType) (h1 : Half1),
    PairCompletes (.faddHalf h0 h1) (.flt h0.ty) false h0 h1 (fun a b => floatWord h0.ty.width (fun i =>
      let v := addF .rn (valueAt h0.ty a i) (valueAt h0.ty b i)
      coded (finishF h0.ty .rn v.1 v.2))) ∧
    PairCompletes (.fsubHalf h0 h1) (.flt h0.ty) false h0 h1 (fun a b => floatWord h0.ty.width (fun i =>
      let v := addF .rn (valueAt h0.ty a i) (negF (valueAt h0.ty b i))
      coded (finishF h0.ty .rn v.1 v.2))) ∧
    PairCompletes (.fmulHalf h0 h1) (.flt h0.ty) false h0 h1 (fun a b => floatWord h0.ty.width (fun i =>
      let v := mulF (valueAt h0.ty a i) (valueAt h0.ty b i)
      coded (finishF h0.ty .rn v.1 v.2)))) ∧
  (∀ (h0 : Half FType) (h1 : Half1) (min max : Word → Word → Word × Nat),
    (∀ a b, ∃ f g : Nat → Nat × Nat, min a b = floatWord h0.ty.width f ∧ max a b = floatWord h0.ty.width g ∧ ∀ i,
      let x := valueAt h0.ty a i
      let y := valueAt h0.ty b i
      let nv := if x = .nan true ∨ y = .nan true then 0x10 else 0
      (isNan x = true ∧ isNan y = true → f i = (nanCode h0.ty, nv) ∧ g i = (nanCode h0.ty, nv)) ∧
      (isNan x = true ∧ isNan y = false → f i = (elemN h0.ty.width b i, nv) ∧ g i = f i) ∧
      (isNan x = false ∧ isNan y = true → f i = (elemN h0.ty.width a i, nv) ∧ g i = f i) ∧
      (isNan x = false → isNan y = false → (precedes y x → f i = (elemN h0.ty.width b i, 0) ∧ g i = (elemN h0.ty.width a i, 0)) ∧
        (¬precedes y x → f i = (elemN h0.ty.width a i, 0) ∧ g i = (elemN h0.ty.width b i, 0)))) →
    PairCompletes (.fminHalf h0 h1) (.flt h0.ty) false h0 h1 min ∧ PairCompletes (.fmaxHalf h0 h1) (.flt h0.ty) false h0 h1 max)
/-! ## Control, traps and control registers -/

/-- R180, R212, R213: BRA, BRX, CALL, CALLX and RTN. A relative target counts in words from the branch, within the address and
with the tag kept; a register target is taken whole where its bits 2:0 are zero, and raises trap 0x0E where they are not; the return pointer
is the next word's. -/
def Obligations.BranchesAndCalls : Prop :=
  (∀ (g : Guard) (h : Hint) (off : BitVec 30), LanesComplete (.bra g h off) g none none none none noCondition
    (fun _ _ t _ => { t with pc := pcPlus t.pc (8 * off.toInt) })) ∧
  (∀ (g : Guard) (h : Hint) (l : Fin 128) (off : BitVec 30), LanesComplete (.call g h l off) g none none none none noCondition
    (fun _ _ t _ => { t.setV l.val (pcPlus t.pc 8) with pc := pcPlus t.pc (8 * off.toInt) })) ∧
  (∀ (g : Guard) (h : Hint) (l : Fin 128) (a : Operand),
    LanesComplete (.brx g h a) g none (srcO .whole a) none none (fun _ _ _ r => r.a.toNat % 8 = 0) (fun _ _ _ r => { r.t with pc := r.a }) ∧
    LanesComplete (.rtn g h a) g none (srcO .whole a) none none (fun _ _ _ r => r.a.toNat % 8 = 0) (fun _ _ _ r => { r.t with pc := r.a }) ∧
    LanesComplete (.callx g h l a) g none (srcO .whole a) none none (fun _ _ _ r => r.a.toNat % 8 = 0)
      (fun _ _ t r => { r.t.setV l.val (pcPlus t.pc 8) with pc := r.a }) ∧
    (∀ ins ∈ [.brx g h a, .rtn g h a, .callx g h l a], LanesComplete ins g none (srcO .whole a) none none
      (fun _ _ t r => r.a.toNat % 8 ≠ 0 ∧ ¬inHandler t) (fun e _ t r => entered t 0x0E r.a t.pc e.tvec))) ∧
  (∀ t : Thread, t.advance = { t with pc := pcPlus t.pc 8 })

/-- R219, R222, R223: TRAP, BPT, SYSC and ERET. Outside a handler TRAP enters with cause 0x17 and resumes at the next word, BPT with cause
0x16 at its own, SYSC with cause 0 at the next word through svec; ERET in a handler returns to tepc, and raises trap 0x0E where that is
misaligned; outside one it raises trap 0x19. In a handler a trap is not entered: the block is stopped, to be contained (R366). An arithmetic
word whose raised flags are enabled sets them, writes nothing and traps: with 0x14 for a float's (R140), stated here for the arithmetic of two
operands and for the other float words with their results. NOP only goes on. -/
def Obligations.SoftwareTraps : Prop :=
  (∀ (g : Guard) (imm : BitVec 8) (fn : BitVec 6),
    LanesComplete (.nop g) g none none none none noCondition (fun _ _ t _ => { t with pc := pcPlus t.pc 8 }) ∧
    LanesComplete (.trap g imm) g none none none none (fun _ _ t _ => ¬inHandler t)
      (fun e _ t _ => entered t 0x17 (imm.setWidth 64) (pcPlus t.pc 8) e.tvec) ∧
    LanesComplete (.bpt g imm) g none none none none (fun _ _ t _ => ¬inHandler t)
      (fun e _ t _ => entered t 0x16 (imm.setWidth 64) t.pc e.tvec) ∧
    LanesComplete (.sysc g fn) g none none none none (fun _ _ t _ => ¬inHandler t)
      (fun e _ t _ => entered t 0 (fn.setWidth 64) (pcPlus t.pc 8) e.svec) ∧
    LanesComplete (.eret g) g none none none none (fun _ _ t _ => inHandler t ∧ t.tepc.toNat % 8 = 0)
      (fun _ _ t _ => { t with tmode := 0, pc := t.tepc }) ∧
    LanesComplete (.eret g) g none none none none (fun _ _ t _ => ¬inHandler t)
      (fun e _ t _ => entered t 0x19 0 t.pc e.tvec) ∧
    (∀ (s : State) (i : Issue) (rest : List Issue) (e : Env) (l : Nat) (th : Thread) (more : List (Nat × Thread)) (b : Block),
      s.issue = i :: rest → s.env? i = some e → e.g.threads.filter (fun p => decide (p.1 ∈ i.lanes)) = (l, th) :: more →
      (∀ p ∈ (l, th) :: more, p.2.selected g = true ∧ inHandler p.2) → Table.find s.blocks (keyOf e.g.grid e.g.block) = some b → b.stopped = none →
      (∀ x ∈ ([(.trap g imm, 0x17, imm.setWidth 64, pcPlus th.pc 8), (.bpt g imm, 0x16, imm.setWidth 64, th.pc), (.sysc g fn, 0x19, 0, th.pc)] :
          List (Instr × Nat × Word × Word)),
        ∃ t, exec x.1 s = .next t ∧ Stopped (s.setGroup i.group e.g) t e.g.grid e.g.block b x.2.1 x.2.2.1 x.2.2.2) ∧
      ((∀ p ∈ (l, th) :: more, p.2.tepc.toNat % 8 ≠ 0) →
        ∃ t, exec (.eret g) s = .next t ∧ Stopped (s.setGroup i.group e.g) t e.g.grid e.g.block b 0x0E th.tepc th.pc))) ∧
  (∀ (o : Bin FType) (r : Rnd), ∀ p ∈ ([(.fadd o r, fun x y => addF r x y), (.fsub o r, fun x y => addF r x (negF y)), (.fmul o r, fun x y => mulF x y),
      (.fdiv o r, fun x y => divF x y)] : List (Instr × (FV → FV → FV × Flags))),
    let fl := fun (x : Got) => (floatWord o.ty.width (fun i =>
      let v := p.2 (valueAt o.ty x.a i) (valueAt o.ty x.b i)
      coded (finishF o.ty r v.1 v.2))).2
    LanesComplete p.1 o.g (some o.d) (srcA o.pat (.flt o.ty) o.a) (srcB o.pat (.flt o.ty) o.b) none
      (fun _ _ t x => ¬quiet t (fl x) ∧ ¬inHandler t)
      (fun e _ t x => entered (flagged t (fl x)) 0x14 (BitVec.ofNat 64 (256 * (fl x &&& (t.astat.toNat / 256) % 64))) t.pc e.tvec))

/-- R220, R221, R194, R195, R80: CSRR gives each register's value; CSRW, CSRS and CSRC give the old value and write, set or clear what the
register lets them. gstat takes the clears of a word before its sets and those of its issue cycle; a word that reads or writes it stays while an
MMA of its group that may set MSAT is in progress (R291; log entry 73). A write of lclock raises the clock by fewer than 2^13 ticks at most, in
lane order, as every jump does, with the reference of the core's die; it stays at its word while the lead limit holds it back (R88, log entry 21). A write
of a register that a thread may not write raises trap 0x19 with its number. Every such write, a handler's entry and its return, and the flags
of a result leave a thread's status registers within the bits that R220 gives them, and IXSET an index register within R122. -/
def Obligations.ControlRegisters : Prop :=
  (∀ (g : Guard) (d : Operand) (c : Csr), c ≠ .gstat → LanesCompleteIn (.csrr g d c) g (some d) none none none (fun _ _ _ _ _ => True)
    (fun s e l t r => (r.t.put r.d (registerValue s e l t c)).advance)) ∧
  (∀ (g : Guard) (d : Operand) (s : State) (i : Issue) (rest : List Issue) (e : Env) (got : Nat → Got),
    s.issue = i :: rest → s.env? i = some e → s.satPending i.group = false →
    (∀ p ∈ e.g.threads, p.1 ∈ i.lanes → p.2.selected g = true →
      collect e p.1 p.2 (some d) none none none = .ok (got p.1) ∧ (got p.1).poisoned = false) →
    exec (.csrr g d .gstat) s =
      .next (s.setGroup i.group (lanesAfter e i.lanes g (fun l _ => ((got l).t.put (got l).d e.g.gseen).advance)))) ∧
  (∀ (g : Guard) (pat : LanePat) (d : Operand) (c : Csr) (a : Src), c ≠ .gstat → ∀ x ∈
    ([(.csrw g pat d c a, fun _ w => w), (.csrs g pat d c a, fun o w => o ||| w), (.csrc g pat d c a, fun o w => o &&& ~~~w)] :
      List (Instr × (Word → Word → Word))),
    LanesCompleteIn x.1 g (some d) (srcP pat .whole a) none none (fun _ _ _ t _ => mayWrite t c)
      (fun s e l t r => (writtenReg (r.t.put r.d (registerValue s e l t c)) c (x.2 (registerValue s e l t c) r.a)).advance) ∧
    LanesComplete x.1 g none none none none (fun _ _ t _ => forbidden t c ∧ ¬inHandler t)
      (fun e _ t _ => entered t 0x19 (BitVec.ofNat 64 (registerNumber c)) t.pc e.tvec)) ∧
  (∀ (g : Guard) (pat : LanePat) (d : Operand) (a : Src) (s : State) (i : Issue) (rest : List Issue) (e : Env) (got : Nat → Got),
    s.issue = i :: rest → s.env? i = some e →
    (∀ p ∈ e.g.threads, p.1 ∈ i.lanes → p.2.selected g = true →
      collect e p.1 p.2 (some d) (srcP pat .whole a) none none = .ok (got p.1) ∧ (got p.1).poisoned = false) →
    let vals := selectedValues e i g (fun l => (got l).a)
    let after := fun (old : Word) => lanesAfter e i.lanes g (fun l _ => ((got l).t.put (got l).d old).advance)
    (∀ x ∈ ([(.csrw g pat d .gstat a, joined (vals.map (fun w => ~~~w)), joined vals), (.csrs g pat d .gstat a, 0, joined vals),
        (.csrc g pat d .gstat a, joined vals, 0)] : List (Instr × Word × Word)),
      (s.satPending i.group = false → exec x.1 s = .next (s.setGroup i.group { after e.g.gseen with
        gstat := ((e.g.gstat &&& ~~~x.2.1) ||| x.2.2 ||| e.g.gsets) &&& gstatMask, gsets := (e.g.gsets ||| x.2.2) &&& gstatMask })) ∧
      (s.satPending i.group = true → exec x.1 s = .next s)) ∧
    (s.satPending i.group = true → exec (.csrr g d .gstat) s = .next s) ∧
    let raised := fun (k : BitVec 16) (w : Word) =>
      if 0 < (w.toNat + 2 ^ 16 - k.toNat) % 2 ^ 16 ∧ (w.toNat + 2 ^ 16 - k.toNat) % 2 ^ 16 < 2 ^ 13 then w.setWidth 16 else k
    let old := (s.coreOf i.core).clock
    let top := vals.foldl raised old
    let waited := s.awaitLead (i.core / 40) top 16
    (top = old ∨ waited.leads (i.core / 40) top = true → exec (.csrw g pat d .lclock a) s =
      .next (vals.foldl (fun (u : State) w => u.jumpTo i.core (raised (u.coreOf i.core).clock w)) (s.setGroup i.group (after (e.clock.setWidth 64))))) ∧
    (top ≠ old → waited.leads (i.core / 40) top = false → exec (.csrw g pat d .lclock a) s = .next waited)) ∧
  (∀ (t : Thread), t.legal → (∀ c w, (writtenReg t c w).legal) ∧ (∀ cause val resume vec, (entered t cause val resume vec).legal) ∧
    ({ t with tmode := 0, pc := t.tepc } : Thread).legal ∧ (∀ fl, fl < 64 → (flagged t fl).legal) ∧
    (∀ n a, goodImage a → ({ t with x := [(n, imaged a)] } : Thread).legal))

/-- R215 to R218: CONV, YIELD, TAIL and EXIT. CONV waits at its word; YIELD goes on and yields to its lane's other threads; TAIL retires a
thread whose commands have all passed their checks, and EXIT one whose accesses and commands are complete: the thread keeps no register and
no region pin. That the other threads are those ready when YIELD executes, and that a FORK program's commands are not the thread's, are the
model's choices (log entry 64). When a group's last thread retires, the group drains. -/
def Obligations.WaitingAndRetiring : Prop :=
  (∀ (s : State) (i : Issue) (rest : List Issue) (e : Env), s.issue = i :: rest → s.env? i = some e →
    exec .conv s = .next ((s.setGroup i.group { e.g with threads := e.g.threads.map (fun p =>
      (p.1, if p.1 ∈ i.lanes then { p.2 with status := .wait .conv } else p.2)) }).pushOnce (.convRelease i.core i.slot))) ∧
  (∀ (g : Guard) (s : State) (i : Issue) (rest : List Issue) (e : Env), s.issue = i :: rest → s.env? i = some e →
    ∃ more, exec (.yield g) s = .next { s.setGroup i.group (lanesAfter e i.lanes g (fun l t =>
        { t.advance with yieldAt := some (s.cycle, s.lanePeers i l) })) with agenda := s.agenda ++ more } ∧
      ∀ l ∈ i.lanes, ∀ t, Table.find e.g.threads l = some t → t.selected g = true → .yieldExpiry i.core i.slot l ∈ more) ∧
  (∀ (g : Guard) (s : State) (i : Issue) (rest : List Issue) (e : Env), s.issue = i :: rest → s.env? i = some e →
    ∀ x ∈ ([(.tail g, fun a n => a.unchecked n, fun a => a), (.exit g, fun a n => (a.coreOf i.core).pendingOf n || a.commandsOf n,
        fun a => a.spadDrain i.core)] : List (Instr × (State → Nat → Bool) × (State → State))),
    ∃ u more, exec x.1 s = .next { u with agenda := u.agenda ++ more } ∧
      Along e g (fun l th a b => let n := i.group * 32 + l
        x.2.1 (x.2.2 a) n = false →
          b = ((x.2.2 a).unpinAll e.ctx (.thread n)).setThread n { Thread.start th.pc 0 with status := .retired }) i.lanes s u ∧
      (∀ gr, Table.find u.groups i.group = some gr → (∃ p ∈ gr.threads, p.1 ∈ i.lanes) → (∀ p ∈ gr.threads, p.2.status = .retired) →
        .drainComplete i.core i.slot ∈ u.agenda ++ more))
/-! ## Group-collective words, lane moves and random numbers -/

/-- R225, R257, R284, R340, R364 code 0x06: group issue. With no present thread selected a collective word has no effect but that the present
threads go on; with some but not all 32 present and selected every present thread takes trap 0x06, with the lowest lane that is absent, parked,
elsewhere or not selected; the present threads are those of the word's issue. R271 to R274, R134, R279: SHFL, VOTE, BNSET, BNMOV and RNG. SHFL takes each element from the lane and the element
that its control names; VOTE gives every thread one answer; BNSET, once the core's scratchpad accesses are done, installs a control set whose
entries are distinct positions, and else tells the first that is not; BNMOV moves elements by it; RNG draws from its thread's state. -/
def Obligations.GroupIssueAndLaneMoves : Prop :=
  (∀ (ins : Instr) (gd : Guard), collectiveGuard ins = some gd →
  ∀ (s : State) (i : Issue) (rest : List Issue) (e : Env), s.issue = i :: rest → s.env? i = some e →
    let takes := fun (l : Nat) => l ∈ i.lanes ∧ ∃ t, Table.find e.g.threads l = some t ∧ t.status = .run ∧ t.pc = i.pc ∧ t.selected gd = true
    e.g.threads.map (fun p => p.1) = List.range 32 →
    ((∀ l, ¬takes l) → exec ins s = .next (s.setGroup i.group { e.g with threads := e.g.threads.map (fun p =>
      (p.1, if p.1 ∈ i.lanes then p.2.advance else p.2)) })) ∧
    (∀ low, low < 32 → ¬takes low → (∀ l, l < low → takes l) → (∃ l, takes l) → (∀ p ∈ e.g.threads, ¬inHandler p.2) →
      exec ins s = .next (s.setGroup i.group { e.g with threads := e.g.threads.map (fun p =>
        (p.1, if p.1 ∈ i.lanes then entered p.2 0x06 (BitVec.ofNat 64 low) p.2.pc e.tvec else p.2)) }))) ∧
  (∀ (o : Bin IType) (n : Fin 128), o.a.op = .reg n → LanesComplete (.shfl o) o.g (some o.d) (srcN (.int o.ty) o.a) (srcN (.int o.ty) o.b) none
    (fun e l t r => ∀ i, i < 64 / o.ty.width → elemN o.ty.width r.b i / 32 < 64 / o.ty.width →
      e.g.vPoisoned l t (elemN o.ty.width r.b i % 32) n = false)
    (writes (fun e l t r => assemble o.ty.width (fun i => let j := elemN o.ty.width r.b i
      if 64 / o.ty.width ≤ j / 32 then 0 else elemN o.ty.width (laneReg e l t (j % 32) n) (j / 32))))) ∧
  (∀ (g : Guard) (pat : LanePat) (d : Operand) (a : Src) (vote : VoteFn → (Nat → Word) → Word),
    (∀ f, ((∃ l, l < 32 ∧ f l ≠ 0) → vote .any f = 1) ∧ ((∀ l, l < 32 → f l = 0) → vote .any f = 0) ∧
      ((∀ l, l < 32 → f l ≠ 0) → vote .all f = 1) ∧ ((∃ l, l < 32 ∧ f l = 0) → vote .all f = 0) ∧
      vote .ballot f = assemble 1 (fun l => if l < 32 ∧ f l ≠ 0 then 1 else 0) ∧
      ((∀ l, l < 32 → f l = f 0) → vote .uni f = 1) ∧ ((∃ l, l < 32 ∧ f l ≠ f 0) → vote .uni f = 0)) →
    ∀ fn, GroupCompletes (.vote g pat fn d a) g (some d) (srcP pat .whole a) none none (fun _ _ _ => True)
      (groupWrites (fun _ got _ => vote fn (fun l => (got l).a))) (fun _ _ gr => gr)) ∧
  (∀ (g : Guard) (pat : LanePat) (gran : Gran) (d : Operand) (a : Src) (n : Fin 4) (s : State) (i : Issue) (rest : List Issue) (e : Env)
    (got : Nat → Got) (b : Block), s.issue = i :: rest → let u := s.spadDrain i.core
    u.env? i = some e → AllPresent e i g → u.block? e.g.blockKey = some b →
    (∀ p ∈ e.g.threads, collect e p.1 p.2 (some d) (srcP pat .whole a) none none = .ok (got p.1) ∧ (got p.1).poisoned = false) →
    let at_ := (got 0).a.toNat
    let entry := fun k => Memory.read b.spad (at_ + 2 * k) 2
    let after := fun (w : Word) => e.g.threads.map (fun p => (p.1, ((got p.1).t.put (got p.1).d w).advance))
    at_ % 2 = 0 → at_ + 2 * granPositions gran ≤ b.scratch → (∀ w ∈ b.spadPoison, 8 * w + 8 ≤ at_ ∨ at_ + 2 * granPositions gran ≤ 8 * w) →
    ((∀ k, k < granPositions gran → ¬badEntry (granPositions gran) entry k) →
      exec (.bnset g pat gran d a n) s = .next (u.setGroup i.group { e.g with
        threads := after 0, n := Table.set e.g.n n.val ⟨gran, (List.range (granPositions gran)).map entry⟩, poisoned := cleared e.g.poisoned (5 + n.val) })) ∧
    (∀ k, k < granPositions gran → badEntry (granPositions gran) entry k → (∀ j, j < k → ¬badEntry (granPositions gran) entry j) →
      exec (.bnset g pat gran d a n) s = .next (u.setGroup i.group { e.g with threads := after (BitVec.ofNat 64 (1 + k)) }))) ∧
  (∀ (g : Guard) (pat : LanePat) (d : Operand) (a : Src) (n : Fin 4), GroupCompletes (.bnmov g pat d a n) g (some d) (srcP pat .whole a) none none
    (fun _ e _ => 5 + n.val ∉ e.g.poisoned)
    (groupWrites (fun e got l => let set := Table.getD e.g.n n.val ⟨.b64, List.range 32⟩
      let w := granBits set.gran
      assemble w (fun k => let from_ := set.perm.getD (l * (64 / w) + k) 0
        if from_ / (64 / w) < 32 then elemN w (got (from_ / (64 / w))).a (from_ % (64 / w)) else 0))) (fun _ _ gr => gr)) ∧
  (∀ (g : Guard) (d : Operand), ∀ arg ∈ [RngArg.raw d, .unifF32 d, .unifF16 d], ∃ h : Word → Word,
    (∀ z, (arg = .raw d → h z = z) ∧
      (arg = .unifF32 d → ∃ c : Nat → Nat, h z = assemble 32 c ∧ ∀ i, i < 2 → c i < 2 ^ 31 ∧
        ratOf (Machine.decodeF .f32 (c i)) = ((z.toNat / 2 ^ (32 * i + 8) % 2 ^ 24 : Nat) : ℚ) * (2 : ℚ) ^ (-24 : Int)) ∧
      (arg = .unifF16 d → ∃ c : Nat → Nat, h z = assemble 16 c ∧ ∀ i, i < 4 → c i < 2 ^ 15 ∧
        ratOf (Machine.decodeF .f16 (c i)) = ((z.toNat / 2 ^ (16 * i + 5) % 2 ^ 11 : Nat) : ℚ) * (2 : ℚ) ^ (-11 : Int))) ∧
    LanesComplete (.rng g arg) g (some d) none none none noCondition (fun _ _ _ r =>
      (({ r.t with rng := r.t.rng + 0x9E3779B97F4A7C15 } : Thread).put r.d (h (drawn (r.t.rng + 0x9E3779B97F4A7C15)))).advance)) ∧
  (∀ (g : Guard) (a : Src) (pat : LanePat), LanesComplete (.rng g (.seed a pat)) g none (srcP pat .whole a) none none noCondition
    (fun _ _ _ r => ({ r.t with rng := r.a } : Thread).advance))
/-- R154 to R156, R275 to R278: the exact accumulator and the check residues. KADD and KMAC add every term exactly and record infinities, NaNs
and overflow; KRND rounds once; KSCAN gives each position its inclusive prefix, rounded once; the residues are kept modulo 2^61 - 1; CKCHK
takes trap 0x12 where two differ. -/
def Obligations.ExactSums : Prop :=
  (∀ g : Guard, GroupCompletes (.kclr g) g none none none none (fun _ _ _ => True) groupGoesOn
    (fun _ _ gr => withK gr ⟨0, false, false, false, false⟩)) ∧
  (∀ (g : Guard) (pat : LanePat) (ty : FType) (a : Src) (sum : Env → (Nat → Got) → Int),
    (∀ e got, (sum e got : ℚ) = e.g.k.toInt + termSum (positionsOf ty (fun l => (got l).a))) →
    GroupCompletes (.kadd g pat ty a) g none (srcP pat (.flt ty) a) none none (fun _ e _ => 0 ∉ e.g.poisoned) groupGoesOn
      (fun e got gr => withK gr (kAfter e.g.kul (positionsOf ty (fun l => (got l).a)) (sum e got)))) ∧
  (∀ (g : Guard) (pat : Pat) (ty : FType) (a b : Src) (sum : Env → (Nat → Got) → Int), ty ≠ .f64 →
    let terms := fun (got : Nat → Got) => List.zipWith (fun x y => (mulF x y).1) (positionsOf ty (fun l => (got l).a))
      (positionsOf ty (fun l => (got l).b))
    (∀ e got, (sum e got : ℚ) = e.g.k.toInt + termSum (terms got)) →
    GroupCompletes (.kmac g pat ty a b) g none (srcA pat (.flt ty) a) (srcB pat (.flt ty) b) none (fun _ e _ => 0 ∉ e.g.poisoned) groupGoesOn
      (fun e got gr => withK gr (kAfter e.g.kul (terms got) (sum e got)))) ∧
  (∀ (g : Guard) (ty : FType) (r : Rnd) (d : Operand),
    let res : Env → (Nat → Got) → Nat → Word × Nat := fun e _ _ =>
      (assemble ty.width (fun _ => (kRounded e.g.kul ty r).1), (kRounded e.g.kul ty r).2)
    GroupCompletes (.krnd g ty r d) g (some d) none none none (fun _ e got => 0 ∉ e.g.poisoned ∧ groupQuiet res e got) (groupFlags res)
      (fun _ _ gr => gr)) ∧
  (∀ (o : Un FType) (r : Rnd) (pre : Env → (Nat → Got) → Nat → Kul),
    (∀ e got p, ∃ v : Int, (v : ℚ) = e.g.k.toInt + termSum ((positionsOf o.ty (fun l => (got l).a)).take (p + 1)) ∧
      pre e got p = { kAfter e.g.kul ((positionsOf o.ty (fun l => (got l).a)).take (p + 1)) v with
        ko := e.g.ko || decide (v < -2 ^ 2175) || decide (2 ^ 2175 ≤ v) }) →
    let n := 64 / o.ty.width
    let res : Env → (Nat → Got) → Nat → Word × Nat := fun e got l => floatWord o.ty.width (fun i => kRounded (pre e got (l * n + i)) o.ty r)
    GroupCompletes (.kscan o r) o.g (some o.d) (srcA o.pat (.flt o.ty) o.a) none none
      (fun _ e got => 0 ∉ e.g.poisoned ∧ groupQuiet res e got) (groupFlags res) (fun e got gr => withK gr (pre e got (32 * n - 1)))) ∧
  (∀ (g : Guard) (c : Fin 4), GroupCompletes (.ckclr g c .clear) g none none none none (fun _ _ _ => True) groupGoesOn
    (fun _ _ gr => { gr with c := Table.set gr.c c.val 0, poisoned := cleared gr.poisoned (1 + c.val) })) ∧
  (∀ (g : Guard) (c : Fin 4) (a : Src) (pat : LanePat), GroupCompletes (.ckclr g c (.set a pat)) g none (srcP pat .whole a) none none
    (fun _ _ _ => True) groupGoesOn (fun _ got gr => { gr with
      c := Table.set gr.c c.val (BitVec.ofNat 64 ((got 0).a.toNat % (2 ^ 61 - 1))), poisoned := cleared gr.poisoned (1 + c.val) })) ∧
  (∀ (g : Guard) (pat : LanePat) (ty : IType) (c : Fin 4) (a : Src) (sub : Bool), GroupCompletes (.ckacc g pat ty c a sub) g none
    (srcP pat (.int ty) a) none none (fun _ e _ => 1 + c.val ∉ e.g.poisoned) groupGoesOn (fun e got gr =>
      let sum : Int := ((List.range 32).map (fun l => ((List.range (64 / ty.width)).map (fun i => elemI ty (got l).a i)).sum)).sum
      let old : Int := (Table.getD e.g.c c.val 0).toNat
      { gr with c := Table.set gr.c c.val (BitVec.ofNat 64 (((if sub then old - sum else old + sum) % (2 ^ 61 - 1)).toNat)),
                poisoned := cleared gr.poisoned (1 + c.val) })) ∧
  (∀ (g : Guard) (ca cb : Fin 4), GroupCompletes (.ckchk g (.check ca cb)) g none none none none
    (fun _ e _ => 1 + ca.val ∉ e.g.poisoned ∧ 1 + cb.val ∉ e.g.poisoned ∧ Table.getD e.g.c ca.val 0 = Table.getD e.g.c cb.val 0)
    groupGoesOn (fun _ _ gr => gr)) ∧
  (∀ (g : Guard) (d : Operand) (ca : Fin 4), GroupCompletes (.ckchk g (.get d ca)) g (some d) none none none
    (fun _ e _ => 1 + ca.val ∉ e.g.poisoned) (groupWrites (fun e _ _ => Table.getD e.g.c ca.val 0)) (fun _ _ gr => gr)) ∧
  (∀ (g : Guard) (ca cb : Fin 4), GroupCompletes (.ckchk g (.check ca cb)) g none none none none
    (fun _ e _ => 1 + ca.val ∉ e.g.poisoned ∧ 1 + cb.val ∉ e.g.poisoned ∧ Table.getD e.g.c ca.val 0 ≠ Table.getD e.g.c cb.val 0 ∧
      ∀ p ∈ e.g.threads, ¬inHandler p.2)
    (fun e got l => entered (got l).t 0x12 (BitVec.ofNat 64 (ca.val + cb.val * 256)) (got l).t.pc e.tvec) (fun _ _ gr => gr))

/-- R149 to R152, R267, R268: QBP gives lane k the word at offset k of the group's elements quantised and laid out in planes, and DQBP gives
each element its first planes' value, scaled and rounded once. That an inline constant as a scale operand or as DQBP's plane word is the whole
64-bit value is the model's choice (log entry 64). -/
def Obligations.BitPlanes : Prop :=
  (∀ (o : Bin FType) (planes : Fin 9) (sel : Fin 8), o.ty ∈ [FType.f32, .f16, .b16, .f8] →
    let n := 64 / o.ty.width
    let q := fun (got : Nat → Got) (x : Nat) => quantised (valueAt o.ty (got (x / n)).a (x % n)) (elemN 8 (got (x / n)).b sel.val)
    let res : Env → (Nat → Got) → Nat → Word × Nat := fun _ got l =>
      (if l < planes.val * (n / 2) then assemble 1 (fun j => ((q got (64 * (l % (n / 2)) + j)).1 % 256).toNat / 2 ^ (7 - l / (n / 2)) % 2) else 0,
       ((List.range n).map (fun i => (q got (l * n + i)).2)).foldl (· ||| ·) 0)
    GroupCompletes (.qbp o planes sel) o.g (some o.d) (srcA o.pat (.flt o.ty) o.a) (srcB o.pat (.cell o.ty.width) o.b) none
      (fun _ e got => groupQuiet res e got) (groupFlags res) (fun _ _ gr => gr)) ∧
  (∀ (o : Bin FType) (planes : Fin 9) (sel : Fin 8) (r : Rnd), o.ty ∈ [FType.f32, .f16, .b16, .f8] →
    let n := 64 / o.ty.width
    let bitAt := fun (got : Nat → Got) (j x : Nat) => elemN 1 (got (j * (n / 2) + x / 64)).a (x % 64)
    let raw := fun (got : Nat → Got) (x : Nat) => ((List.range planes.val).map (fun j => bitAt got j x * 2 ^ (planes.val - 1 - j))).sum
    let val := fun (got : Nat → Got) (x : Nat) => signValue planes.val (raw got x) * 2 ^ (8 - planes.val)
    let res : Env → (Nat → Got) → Nat → Word × Nat := fun _ got l => floatWord o.ty.width (fun i =>
      let v := val got (l * n + i)
      let c := elemN 8 (got l).b sel.val
      if c = 255 then (nanCode o.ty, 0x10)
      else if c = 0 ∨ v = 0 then (0, 0)
      else coded (roundF o.ty r (decide (v < 0)) v.natAbs ((c : Int) - 127)))
    planes.val * (n / 2) ≤ 32 → 0 < planes.val →
    GroupCompletes (.dqbp o planes sel r) o.g (some o.d) (srcA o.pat (.cell o.ty.width) o.a) (srcB o.pat (.cell o.ty.width) o.b) none
      (fun _ e got => groupQuiet res e got) (groupFlags res) (fun _ _ gr => gr))
/-! ## The scratchpad -/

/-- R89 to R94, R235, R236, R228: LDS, STS and FEOP, lane by lane. An access must be aligned (trap 0x0E) and within the block's allocation (trap
0x0A), with the offset in tval. STS.x16 applies its lane pattern to both registers (log entry 15). LDS, STS and FEOP queue their accesses in the banks; a thread waits for its LDS's bank step, and while the
collector holds an access of it that its bank's full queue does not take. -/
def Obligations.ScratchpadWords : Prop :=
  (∀ (g : Guard) (pat : LanePat) (ty : IType) (x16 : Bool) (fn : LdsFn) (d : Operand) (a : Src) (off : BitVec 8),
    ReachesNext (.lds g pat ty x16 fn d a off) g (some d) (srcP pat (.cell ty.width) a) none none (fun e l th r u v =>
      let n := if x16 then 16 else ty.width / 8
      let at_ := r.a.toNat + off.toNat
      ∀ b0, u.block? e.g.blockKey = some b0 →
        (at_ % n ≠ 0 → ¬inHandler th → v = trapsAt e l th 0x0E (BitVec.ofNat 64 at_) u) ∧
        (at_ % n = 0 → b0.scratch < at_ + n → ¬inHandler th → v = trapsAt e l th 0x0A (BitVec.ofNat 64 at_) u) ∧
        (spadFits b0 at_ n → r.poisoned = false → v = (waitsAt e l th .ldsWait u).bankEnqueue e.core (.thread (e.group * 32 + l)) at_
          (.read ⟨.thread (e.group * 32 + l), e.g.blockKey, at_, decide (fn = .take), .lds g pat ty x16 fn d a off⟩)))) ∧
  (∀ (g : Guard) (pat : Pat) (ty : IType) (x16 fill : Bool) (a b : Src) (off : BitVec 8),
    ReachesNext (.sts g pat ty x16 fill a b off) g none (srcA pat (.cell ty.width) a) (srcB pat (.int ty) b)
      (if x16 then nextReg pat.forB b else none) (fun e l th r u v =>
      let n := if x16 then 16 else ty.width / 8
      let at_ := r.a.toNat + off.toNat
      ∀ b0, u.block? e.g.blockKey = some b0 →
        (at_ % n ≠ 0 → ¬inHandler th → v = trapsAt e l th 0x0E (BitVec.ofNat 64 at_) u) ∧
        (at_ % n = 0 → b0.scratch < at_ + n → ¬inHandler th → v = trapsAt e l th 0x0A (BitVec.ofNat 64 at_) u) ∧
        (spadFits b0 at_ n → r.poisoned = false → v = collected e l r.t (u.bankEnqueue e.core (.thread (e.group * 32 + l)) at_
          (.write (some e.group) e.g.blockKey at_ n (if x16 then r.b.toNat + r.c.toNat * 2 ^ 64 else r.b.toNat % 2 ^ ty.width) fill))))) ∧
  (∀ (g : Guard) (pat : Pat) (set : Bool) (a b : Src), ReachesNext (.feop g pat set a b) g none (srcA pat .whole a) (srcB pat .whole b) none
    (fun e l th r u v => ∀ b0, u.block? e.g.blockKey = some b0 →
      (r.a.toNat % 16 ≠ 0 ∨ r.b.toNat % 16 ≠ 0 ∨ r.b.toNat = 0 → ¬inHandler th → v = trapsAt e l th 0x0E r.a u) ∧
      (r.a.toNat % 16 = 0 → r.b.toNat % 16 = 0 → r.b.toNat ≠ 0 → b0.scratch < r.a.toNat + r.b.toNat → ¬inHandler th →
        v = trapsAt e l th 0x0A r.a u) ∧
      (r.a.toNat % 16 = 0 → r.b.toNat % 16 = 0 → r.b.toNat ≠ 0 → r.a.toNat + r.b.toNat ≤ b0.scratch → r.poisoned = false →
        v = collected e l r.t ((List.range (r.b.toNat / 16)).foldl (fun x k => x.bankEnqueue e.core (.thread (e.group * 32 + l)) (r.a.toNat + 16 * k)
          (.setBit (some e.group) e.g.blockKey (r.a.toNat / 16 + k) set)) u))))

/-- R90 to R94: the banks. An access enters the queue of its bank, granule number modulo 64, and counts in its group's completion counter; a
bank whose queue holds eight takes none, and the collector keeps it. BANK_ACCESS performs the head of the queue and counts it out. A write
changes the bytes it covers and no other; .fill and FEOP.SET set the granule's bit and release who waits there, FEOP.CLEAR clears it; no other
granule's bit changes. The step of a thread's LDS (R235) reads the bytes at the offset that the thread collected, sign-extended under i types, or
16 bytes into two registers; .take clears the granule's bit in the same step, and the thread goes on with the word after it. An LDS.wait that
finds its granule's bit clear leaves the bank for the core's list, where it counts on. -/
def Obligations.ScratchpadBanks : Prop :=
  (∀ (s : State) (core group off : Nat) (who : SpadWho) (r : SpadReq) (gr : Group), r.group = some group → s.group? group = some gr →
    let k := s.coreOf core
    let bank := off / 16 % 64
    ((Table.getD k.banks bank []).length < 8 → s.bankEnqueue core who off r =
      ((s.setCore core { k with banks := Table.set k.banks bank (Table.getD k.banks bank [] ++ [r]) }).setGroup group { gr with
        spadCount := gr.spadCount + 1 }).push (.bankAccess core bank)) ∧
    (8 ≤ (Table.getD k.banks bank []).length → s.bankEnqueue core who off r = s.setCore core { k with held := k.held ++ [⟨bank, who, r⟩] })) ∧
  (∀ (s : State) (core bank group key off n v : Nat) (fill : Bool) (rest : List SpadReq) (gr : Group) (b : Block),
    Table.getD (s.coreOf core).banks bank [] = .write (some group) key off n v fill :: rest → s.group? group = some gr → s.block? key = some b →
    (∀ h ∈ (s.coreOf core).held, h.bank ≠ bank) → b.core = core → (fill = true → ∀ w ∈ (s.coreOf core).waiters, w.block = key → w.granule ≠ off / 16) →
    ∃ t b', exec (.bankAccess core bank) s = .next t ∧ t.block? key = some b' ∧
      (t.coreOf core).banks = Table.put (s.coreOf core).banks bank rest [] ∧
      (∃ gr', t.group? group = some gr' ∧ gr'.spadCount = gr.spadCount - 1 ∧ gr'.threads = gr.threads) ∧ t.mem = s.mem ∧
      b'.spad = Memory.write b.spad off n v ∧
      (∀ x, x ∈ b'.full ↔ x ∈ b.full ∨ (fill = true ∧ x = off / 16))) ∧
  (∀ (s : State) (core bank group key k : Nat) (set : Bool) (rest : List SpadReq) (gr : Group) (b : Block),
    Table.getD (s.coreOf core).banks bank [] = .setBit (some group) key k set :: rest → s.group? group = some gr → s.block? key = some b →
    (∀ h ∈ (s.coreOf core).held, h.bank ≠ bank) → b.core = core → (set = true → ∀ w ∈ (s.coreOf core).waiters, w.block = key → w.granule ≠ k) →
    ∃ t b', exec (.bankAccess core bank) s = .next t ∧ t.block? key = some b' ∧ b'.spad = b.spad ∧ t.mem = s.mem ∧
      (∀ x, x ∈ b'.full ↔ if x = k then set = true else x ∈ b.full)) ∧
  (∀ (s : State) (core key k : Nat), let here := (s.coreOf core).waiters.filter (fun w => decide (w.block = key) && decide (w.granule = k))
    let takes := here.filter (fun w => w.take)
    ∃ (chosen : List SpadWaiter) (n : Nat), (takes = [] → chosen = []) ∧ (takes ≠ [] → ∃ w ∈ takes, chosen = [w]) ∧
      let gone := here.filter (fun w => !w.take) ++ chosen
      s.releaseGranule core key k = gone.foldl (fun x w => x.resumeWaiter core w) { s.setCore core { s.coreOf core with
        waiters := (s.coreOf core).waiters.filter (fun w => !(gone.contains w)) } with free := n }) ∧
  (∀ (g : Guard) (pat : LanePat) (ty : IType) (x16 : Bool) (fn : LdsFn) (d : Operand) (a : Src) (off : BitVec 8) (s : State) (core bank tid at_ : Nat)
    (rest : List SpadReq) (gr : Group) (th : Thread) (b : Block),
    let w : SpadWaiter := ⟨.thread tid, gr.blockKey, at_, decide (fn = .take), .lds g pat ty x16 fn d a off⟩
    let n := if x16 then 16 else ty.width / 8
    Table.getD (s.coreOf core).banks bank [] = .read w :: rest → (∀ h ∈ (s.coreOf core).held, h.bank ≠ bank) → s.group? (tid / 32) = some gr →
    Table.find gr.threads (tid % 32) = some th → s.block? gr.blockKey = some b →
    let u := s.setCore core { s.coreOf core with banks := Table.put (s.coreOf core).banks bank rest [] }
    let x := u.setGroup (tid / 32) { gr with spadCount := gr.spadCount - 1 }
    (fn ≠ .plain → at_ / 16 ∉ b.full → exec (.bankAccess core bank) s =
      .next (u.setCore core { u.coreOf core with waiters := (u.coreOf core).waiters ++ [w] })) ∧
    (fn = .plain ∨ at_ / 16 ∈ b.full → (∀ q ∈ b.spadPoison, 8 * q + 8 ≤ at_ ∨ at_ + n ≤ 8 * q) →
      ∀ e r, x.env? ⟨tid / 1024, tid / 32 % 32, th.pc, [tid % 32], 0, false⟩ = some e →
        collect e (tid % 32) { th with status := .run } (some d) (srcP pat (.cell ty.width) a) none none = .ok r →
        let done := x.setBlock gr.blockKey (if fn = .take then { b with full := b.full.filter (fun q => q ≠ at_ / 16) } else b)
        (x16 = false → exec (.bankAccess core bank) s = .next (done.setThread tid (r.t.put r.d (extended ty (Memory.read b.spad at_ n))).advance)) ∧
        (x16 = true → ∀ m, r.d = .reg m → exec (.bankAccess core bank) s = .next (done.setThread tid
          ((r.t.setV m (BitVec.ofNat 64 (Memory.read b.spad at_ 16))).setV (m + 1) (BitVec.ofNat 64 (Memory.read b.spad at_ 16 / 2 ^ 64))).advance))))
/-! ## Global memory -/

/-- R66, R75, R228, R229, R211, R367: LD, LDP and LDO, lane by lane. The loaded bytes are extended as the type says (LDO zero-extends), or fill
consecutive registers; a failed check traps with its cause and the pointer, or parks the thread. A load of SC order waits for its thread's
earlier accesses (R86). -/
def Obligations.Loads : Prop :=
  (∀ (g : Guard) (pat : LanePat) (ty : IType) (ord : Order) (sc : Scope) (d : Operand) (a : Src),
    ReachesNext (.ld g pat ty ord sc d a) g (some d) (srcP pat (.cell ty.width) a) none none (fun e l th r u v =>
      LoadEffect e l th r r.a (ty.width / 8) (ty.width / 8) ord sc (fun x => r.t.put r.d (extended ty (x % 2 ^ ty.width))) u v)) ∧
  (∀ (g : Guard) (pat : LanePat) (ord : Order) (sc : Scope) (n : Fin 128) (a : Src) (count : Fin 9),
    ReachesNext (.ldp g pat ord sc n a count) g none (srcP pat .whole a) none none (fun e l th r u v =>
      LoadEffect e l th r r.a (8 * count.val) 8 ord sc (fun x => (List.range count.val).foldl (fun t j =>
        t.setV (n.val + j) (BitVec.ofNat 64 (x / 2 ^ (64 * j)))) r.t) u v)) ∧
  (∀ (o : Imm) (size ord : Fin 4), ReachesNext (.ldo o size ord) o.g (some o.d) (srcO .whole o.a) none none (fun e l th r u v =>
    let p := pointer (r.a.toNat / 2 ^ 54) ((r.a.toNat % 2 ^ 54 : Nat) + o.imm.toInt)
    let order := if ord = 0 then Order.rlx else .acq
    let scope := if ord = 0 then Scope.group else if ord = 1 then .core else if ord = 2 then .die else .pkg
    LoadEffect e l th r p (2 ^ size.val) (2 ^ size.val) order scope (fun x => r.t.put r.d (BitVec.ofNat 64 x)) u v))

/-- R66, R84, R110, R228, R229, R211, R303, R392: ST, STP and STO, lane by lane: each issues its words at the addresses of its checked pages, or
puts them in the store buffer of a restartable block. -/
def Obligations.Stores : Prop :=
  (∀ (g : Guard) (pat : Pat) (ty : IType) (ord : Order) (sc : Scope) (a b : Src),
    ReachesNext (.st g pat ty ord sc a b) g none (srcA pat (.cell ty.width) a) (srcB pat (.cell ty.width) b) none (fun e l th r u v =>
      (u.restartable e = true → u.bufferFull e 1 = false) →
      StoreEffect e l th r r.a (ty.width / 8) (ty.width / 8) ord sc [(0, ty.width / 8, BitVec.ofNat 64 (r.b.toNat % 2 ^ ty.width))] u v)) ∧
  (∀ (g : Guard) (pat : Pat) (ord : Order) (sc : Scope) (a : Src) (n : Fin 128) (lastB : Bool) (count : Fin 9),
    ReachesNext (.stp g pat ord sc a n lastB count) g none (srcA pat .whole a) (srcB pat .whole ⟨.reg n, lastB⟩) none (fun e l th r u v =>
      (u.restartable e = true → u.bufferFull e count.val = false) →
      (∀ j, j < count.val → e.g.vPoisoned l th (pat.forB.source l) (n.val + j) = false) → pat.forB ≠ .subrev →
      StoreEffect e l th r r.a (8 * count.val) 8 ord sc
        ((List.range count.val).map (fun j => (8 * j, 8, e.g.vAt l th (pat.forB.source l) (n.val + j)))) u v)) ∧
  (∀ (o : Imm) (size ord : Fin 4), ReachesNext (.sto o size ord) o.g none (srcO .whole o.a) (srcO .whole o.d) none (fun e l th r u v =>
    (u.restartable e = true → u.bufferFull e 1 = false) →
    let p := pointer (r.a.toNat / 2 ^ 54) ((r.a.toNat % 2 ^ 54 : Nat) + o.imm.toInt)
    let order := if ord = 0 then Order.rlx else .rel
    let scope := if ord = 0 then Scope.group else if ord = 1 then .core else if ord = 2 then .die else .pkg
    StoreEffect e l th r p (2 ^ size.val) (2 ^ size.val) order scope [(0, 2 ^ size.val, BitVec.ofNat 64 (r.b.toNat % 2 ^ (8 * 2 ^ size.val)))] u v))

/-- R231, R232, R392: ATOM and RED, lane by lane. ATOM performs its operation at once, in order with its release part, and gives the old value
extended as a load is; on a replicated page it waits for the signal box, and completes with the box's answer; one that has to wait after its check
keeps what the check gave it, and is not checked a second time (R68); RED issues its operation, or puts
it in the store buffer of a restartable block. -/
def Obligations.Atomics : Prop :=
  (∀ (g : Guard) (pat : Pat) (ty : AtomTy) (op : AtomOp) (ord : Order) (sc : Scope) (n : Fin 128) (a b : Src),
    let w := atomWidth ty
    (∀ v c old, (ReplOp.atom ty op c).new v old = atomicValue ty op old v c) ∧
    ReachesNext (.atom g pat ty op ord sc n a b) g none (srcA pat (.cell w) a) (srcB pat (atomSource ty) b)
      (if op = .cas then some ⟨⟨.reg n, false⟩, .ident, .whole⟩ else none) (fun e l th r u v =>
      (u.restartable e = true → ¬inHandler th → v = trapsAt e l th 0x15 0 u) ∧
      (u.restartable e = false → (∀ old k, th.answer = some (old, k) →
        v = settled e l (goesOn e l (({ r.t with answer := none } : Thread).setV n.val (atomGiven ty old)) u)) ∧
        (th.answer = none → CheckFails e l th r.a (w / 8) (w / 8) .atomic u v ∧
          ∀ xs x y, AtomPasses e l r r.a (w / 8) xs x u y → ∀ y1 y2 out, y.before e l ord sc = some y1 →
            y1.atomicThrough (.thread (e.group * 32 + l)) e.core e.ctx (y1.leaseOf e.g.grid) x (r.a.toNat % 2 ^ 54) (w / 8)
              (.atom ty op r.c.toNat) r.b.toNat = (y2, out) →
            (∀ old, out = .done old → v = settled e l (goesOn e l (r.t.setV n.val (atomGiven ty old)) y2)) ∧
            (out = .sent → v = settled e l (waitsAt e l th (.atomic r.a) y2)) ∧ (out = .wait → v = y2.holdPassed (e.group * 32 + l) th ⟨th.pc, r.a, 2, xs⟩))))) ∧
  (∀ (g : Guard) (pat : Pat) (ty : AtomTy) (op : AtomOp) (ord : Order) (sc : Scope) (a b : Src),
    let w := atomWidth ty
    ReachesNext (.red g pat ty op ord sc a b) g none (srcA pat (.cell w) a) (srcB pat (atomSource ty) b) none (fun e l th r u v =>
      (u.restartable e = true → u.bufferFull e 1 = false) → CheckFails e l th r.a (w / 8) (w / 8) .atomic u v ∧
        ∀ xs x y, AtomPasses e l r r.a (w / 8) xs x u y → let pa := x.pa + (r.a.toNat % 2 ^ 54 - x.va)
          (y.restartable e = true → v = settled e l (goesOn e l r.t (y.buffer e [.red (e.group * 32 + l) r.a (y.sbLoc e.ctx x (r.a.toNat % 2 ^ 54)) ty op r.b]))) ∧
          (y.restartable e = false → ∀ y1, y.before e l ord sc = some y1 → ∃ q : PendAtomic,
            (q.thread, q.pa, q.ty, q.op, q.v, q.ctx, q.policy, q.replicated, q.sent) =
              (e.group * 32 + l, pa, ty, op, r.b, e.ctx, x.policy, x.repl, false) ∧
            (q.id, q.lease, q.issuedAt) = ((y1.coreOf e.core).reqNext, y1.leaseOf e.g.grid, (y1.coreOf e.core).clock) ∧
            v = settled e l (goesOn e l r.t ((y1.setCore e.core { y1.coreOf e.core with
              reqNext := (y1.coreOf e.core).reqNext + 1, pendAtomics := (y1.coreOf e.core).pendAtomics ++ [q] }).push (.pocAtomic e.core)))))) ∧
  (∀ (s : State) (n : Nat) (th : Thread) (a : Passed), s.thread? n = some th → th.status = .run → a ∉ th.passed →
    s.holdPassed n th a = s.setThread n { th with passed := th.passed ++ [a] })

/-- R230, R234, R303, R311: PREF asks for its line, to the point of coherence or to the L1, and is dropped where its check fails; FENCE waits for
the thread's earlier stores where it has a release part, and above group scope until its group's scratchpad accesses are complete. A release
part waits while a store or a reduction of its thread is still to be performed, at package scope also while a replicated update of its core is
on its way, of whichever of its threads (R302; log entries 25, 63), and then passes the times at which dies have applied such updates; SC order
waits for them at every scope (R86; log entry 73). An acquire part alone waits for nothing, and of loads only one of SC order has a part that
waits (R86). That PREF checks the one byte that A names is log entry 64. -/
def Obligations.PrefetchAndFence : Prop :=
  (∀ (g : Guard) (pat : LanePat) (a : Src) (poc : Bool), ReachesNext (.pref g pat a poc) g none (srcP pat .whole a) none none (fun e l _ r u v =>
    (∀ x, u.check e.core e.ctx r.a 1 1 (kindNeed .load) = .error x → v = goesOn e l r.t u) ∧
    (∀ x xs, u.check e.core e.ctx r.a 1 1 (kindNeed .load) = .ok (x :: xs) → isControl (x.loadPa e.core x.va) = false → x.policy ≠ 2 →
      u.heldBack e.core e.ctx (x :: xs) = false → let pa := x.loadPa e.core x.va
      v = if poc = false then (goesOn e l r.t u).push (.pocLoad e.core ⟨pa / 128, u.leaseOf e.g.grid, decide (x.policy = 1)⟩)
        else if homeOf pa = e.core / 40 then goesOn e l r.t u else (goesOn e l r.t u).push (.annexReadRequest (e.core / 40) (pa / 128))))) ∧
  (∀ (g : Guard) (ord : Order) (sc : Scope), ReachesNext (.fence g ord sc) g none none none none (fun e l _ r u v =>
    (u.before e l ord sc = none → v = u) ∧
    (∀ x, u.before e l ord sc = some x → (x.resolve e.g sc = .group → v = goesOn e l r.t x) ∧
      (x.resolve e.g sc ≠ .group → ∀ gr, (x.spadDrain e.core).group? e.group = some gr →
        v = if gr.spadCount = 0 then goesOn e l r.t (x.spadDrain e.core) else x.spadDrain e.core)))) ∧
  (∀ (u : State) (e : Env) (l : Nat) (o : Order) (sc : Scope),
    (o = .rlx ∨ o = .acq → u.before e l o sc = some u) ∧
    (o = .rel ∨ o = .ar ∨ o = .sc → (u.coreOf e.core).pendingOf (e.group * 32 + l) = true → u.before e l o sc = none) ∧
    ((u.coreOf e.core).pendingOf (e.group * 32 + l) = false → u.replicated = [] →
      (o = .rel ∨ o = .ar → u.resolve e.g sc = .group → u.before e l o sc = some u) ∧
      (o = .rel ∨ o = .ar → u.resolve e.g sc = .pkg → u.before e l o sc = some ((u.spadDrain e.core).raisePkg e.core)) ∧
      (o = .sc → u.resolve e.g sc = .group → u.before e l o sc = some (u.raisePkg e.core))) ∧
    (o = .rel ∨ o = .ar ∨ o = .sc → o = .sc ∨ u.resolve e.g sc = .pkg → (∃ q ∈ u.replicated, q.core = e.core) → u.before e l o sc = none) ∧
    ((u.coreOf e.core).replPkg = none → ∀ t, (u.dieOf (e.core / 40)).replTop = some t → u.raisePkg e.core = u.jumpTo e.core t) ∧
    u.beforeLoad e l o sc = if o = .sc then u.before e l .sc sc else some u)

/-- R83, R84, R86, R228, R231: what reaches memory. With nothing else on its line, a load at its home reads memory's bytes and changes none; a
pending store performed there changes the bytes of its range to its value and no other byte; a pending reduction and an atomic change them to the
operation's result; none of them touches a thread, a block or a context. A load that misses the L1 is stated where nothing dirty gives way to
the new line; a pending access, where its core asks for no other line. -/
def Obligations.HomeAccesses : Prop :=
  (∀ (s : State) (core ctx lease pa n : Nat) (who : Accessor) (x : Xlat), atHomeOf core pa n → lineIdle s (pa / 128) → l1Clean s core → x.repl = false →
    x.va = 0 → x.pa = pa → s.l1Hit core (pa / 128) = none → ∃ t, s.loadChunk who core ctx lease x 0 n = (t, some (Memory.read s.mem pa n)) ∧
      t.mem = s.mem ∧ t.groups = s.groups ∧ t.blocks = s.blocks ∧ t.contexts = s.contexts) ∧
  (∀ (s : State) (core ctx lease : Nat) (who : Accessor) (x : Xlat) (va n : Nat) (l : L1Line), isControl (x.loadPa core va) = false →
    x.policy ≠ 2 → s.l1Hit core (x.loadPa core va / 128) = some l → ∃ t, s.loadChunk who core ctx lease x va n =
      (t, some (l.data.toNat / 2 ^ (8 * (x.loadPa core va % 128)) % 2 ^ (8 * n))) ∧ t.mem = s.mem ∧ t.groups = s.groups) ∧
  (∀ (s : State) (core : Nat) (p : PendStore), (s.coreOf core).pend.find? (fun q => !q.sent) = some p → p.replicated = false →
    atHomeOf core p.pa p.size → lineIdle s (p.pa / 128) → unasked s (.posted core) → ∃ t, exec (.pocStore core) s = .next t ∧
      t.mem = Memory.write s.mem p.pa p.size p.v ∧ (t.coreOf core).pend = (s.coreOf core).pend.filter (fun q => q.id ≠ p.id) ∧
      t.groups = s.groups ∧ t.blocks = s.blocks ∧ t.contexts = s.contexts) ∧
  (∀ (s : State) (core : Nat) (p : PendAtomic), (s.coreOf core).pendAtomics.find? (fun q => !q.sent) = some p → p.replicated = false →
    atHomeOf core p.pa (atomWidth p.ty / 8) → lineIdle s (p.pa / 128) → unasked s (.posted core) → ∃ t, exec (.pocAtomic core) s = .next t ∧
      t.mem = Memory.write s.mem p.pa (atomWidth p.ty / 8)
        (atomicValue p.ty p.op (Memory.read s.mem p.pa (atomWidth p.ty / 8)) p.v.toNat 0) ∧
      (t.coreOf core).pendAtomics = (s.coreOf core).pendAtomics.filter (fun q => q.id ≠ p.id) ∧
      t.groups = s.groups ∧ t.blocks = s.blocks ∧ t.contexts = s.contexts) ∧
  (∀ (s : State) (core ctx lease pa n : Nat) (who : Accessor) (policy : Nat) (f : Nat → Nat), atHomeOf core pa n → lineIdle s (pa / 128) →
    ∃ t, s.atomicAny who (some core) ctx policy pa n lease f = (t, some (Memory.read s.mem pa n)) ∧
      t.mem = Memory.write s.mem pa n (f (Memory.read s.mem pa n)) ∧ t.groups = s.groups ∧ t.blocks = s.blocks ∧ t.contexts = s.contexts)

/-- R3, and the canonical form of memory: a read after a write gives the value written, any other byte reads as before, and a write keeps the
form, in every canonical memory. -/
def Obligations.MemoryReadsBack : Prop :=
  ∀ (m : Memory), Memory.wf m = true → ∀ (a n v : Nat), Memory.wf (Memory.write m a n v) = true ∧
    Memory.read (Memory.write m a n v) a n = v % 2 ^ (8 * n) ∧
    (∀ b, (b < a ∨ a + n ≤ b) → Memory.byte (Memory.write m a n v) b = Memory.byte m b) ∧
    (∀ b, a ≤ b → b < a + n → Memory.byte (Memory.write m a n v) b = BitVec.ofNat 8 (v / 2 ^ (8 * (b - a))))
/-! ## The steps of the memory system's agents -/

/-- R76, R82, R83, R88: a prefetch's renewal at the line's home for the lease of its launch, and its reply to the L1, where nothing dirty gives
way to the line; a walk, from the entries that the die's walker holds, that fills the translation cache, and reports a malformed entry (R74); and
the scrubbers, which raise stamps and never lower one. -/
def Obligations.RenewalsAndScrubs : Prop :=
  (∀ (s : State) (core line lease : Nat) (streaming : Bool), 128 * line < 2 ^ 38 → homeOfLine line = core / 40 → lineIdle s line → s.l1Hit core line = none →
    ∃ t st, exec (.pocLoad core ⟨line, lease, streaming⟩) s = .next t ∧
      (t.coreOf core).replies = (s.coreOf core).replies ++ [⟨line, Memory.line s.mem line, st, streaming⟩] ∧
      st.rts = maxT (s.stampAt (core / 40) line).rts ((s.coreOf core).clock + BitVec.ofNat 16 lease) ∧
      st.wts = (s.stampAt (core / 40) line).wts ∧ .loadReply core ∈ t.agenda ∧ t.mem = s.mem ∧ t.groups = s.groups) ∧
  (∀ (s : State) (core : Nat) (r : Reply) (rest : List Reply), (s.coreOf core).replies = r :: rest →
    Table.find (s.coreOf core).l1 r.line = none → l1Clean s core → ∃ t, exec (.loadReply core) s = .next t ∧ (t.coreOf core).replies = rest ∧
      Table.find (t.coreOf core).l1 r.line = some ⟨r.data, r.st, 0, false, r.streaming⟩ ∧ t.mem = s.mem ∧ t.groups = s.groups) ∧
  (∀ (s : State) (core ctx va : Nat) (c : Context) (leaf : Word) (big : Bool), s.context? ctx = some c →
    (walkWith ((s.dieOf (core / 40)).held ctx) s.mem (rootAt c.area) va = .ok (leaf, big) → (∀ x ∈ (s.coreOf core).tlb, s.tlbHit ctx va x = false) →
      ∃ t ed rest, exec (.translationWalk core ctx va) s = .next t ∧
        (t.coreOf core).tlb = ⟨ctx, va / (if big then 2 ^ 28 else 2 ^ 16), big, leaf, ed⟩ :: rest ∧ (∀ x ∈ rest, x ∈ (s.coreOf core).tlb) ∧
        t.mem = s.mem ∧ t.groups = s.groups ∧ t.contexts = s.contexts) ∧
    (walkWith ((s.dieOf (core / 40)).held ctx) s.mem (rootAt c.area) va = .error .bad →
      exec (.translationWalk core ctx va) s = .next { s with reports := s.reports ++ [(3, va)] })) ∧
  (∀ (s : State) (die line : Nat), homeOfLine line = die → let r := (s.dieOf die).ref
    let old := 2 ^ 14 < (r - (s.stampAt die line).wts).toNat ∧ (r - (s.stampAt die line).wts).toNat < 2 ^ 15
    ∃ t, exec (.pocScrub die line) s = .next t ∧ (¬old → t = s) ∧
      (old → t.stampAt die line =
        ⟨r - 2 ^ 14, maxT (s.stampAt die line).rts (r - 2 ^ 14), maxT (s.stampAt die line).origin (r - 2 ^ 14)⟩ ∧ t.mem = s.mem ∧ t.cores = s.cores)) ∧
  (∀ (s : State) (core line : Nat) (l : L1Line), Table.find (s.coreOf core).l1 line = some l → l.dirty = 0 →
    2 ^ 14 < ((s.coreOf core).clock - l.st.wts).toNat → ((s.coreOf core).clock - l.st.wts).toNat < 2 ^ 15 →
    exec (.l1Scrub core line) s = .next (s.setCore core { s.coreOf core with l1 := Table.erase (s.coreOf core).l1 line }))

/-- R35 to R44: the Catalogue. A read brings a line to an Annex in state S, a store request of a die with nothing in its way makes it the owner,
one of the home leaves state U, and each stays the line's current request until its store is performed; a snooped die with no request of its own there drops its lines and acknowledges, one with a queued request marks
it and is snooped again; with the last acknowledgement the request is served, where no other die has taken a copy meanwhile; a request answered
retry is issued again; two quiet halves merge, and their parent's quiet interval starts at the merge (R39 does not say: log entry 64); a dirty line waits in the write-back buffer until the home has it. -/
def Obligations.CatalogueSteps : Prop :=
  (∀ (s : State) (die line : Nat), die < 8 → 128 * line < 2 ^ 38 → homeOfLine line ≠ die → lineIdle s line → Table.find (s.dieOf die).annex line = none →
    (∀ r, (s.dieOf (homeOfLine line)).entry? line = some r → r.state ≠ .o) → ∃ t a r, exec (.annexReadRequest die line) s = .next t ∧
      Table.find (t.dieOf die).annex line = some a ∧ a.data = Memory.line s.mem line ∧ a.dirty = 0 ∧
      (t.dieOf (homeOfLine line)).entry? line = some r ∧ r.state = .s ∧ r.sharers = [die] ∧ t.mem = s.mem) ∧
  (∀ (s : State) (die line : Nat), homeOfLine line ≠ die → lineIdle s line → ∃ t a, exec (.annexStoreRequest die line) s = .next t ∧
    t.owner? (homeOfLine line) line = some die ∧ Table.find (t.dieOf die).annex line = some a ∧ t.mem = s.mem ∧
    (t.dieOf (homeOfLine line)).requests = (s.dieOf (homeOfLine line)).requests ++ [⟨die, line, .store, 0, .queued, false, [], 0, true⟩]) ∧
  (∀ (s : State) (line : Nat), lineIdle s line →
    exec (.homeCoreAccess line false) s = .next (s.homeRead line) ∧
    ∃ t, exec (.homeCoreAccess line true) s = .next t ∧ t.mem = s.mem ∧
      (∀ r, (t.dieOf (homeOfLine line)).entry? line = some r → r.state = .u ∧ r.sharers = []) ∧
      (t.dieOf (homeOfLine line)).requests =
        (s.dieOf (homeOfLine line)).requests ++ [⟨homeOfLine line, line, .store, 0, .queued, false, [], 0, true⟩]) ∧
  (∀ (s : State) (die base : Nat) (r q : Region), (s.dieOf die).regions.find? (fun x => decide (x.base = base)) = some r →
    (s.dieOf die).regions.find? (fun x => decide (x.base = base + r.size) && decide (x.size = r.size)) = some q → 0 < r.size → r.size < 65536 →
    base % (2 * r.size) = 0 → r.state = q.state → r.sharers = q.sharers → r.quietSince + 2 ^ (s.dieOf die).quiet ≤ s.fabric →
    q.quietSince + 2 ^ (s.dieOf die).quiet ≤ s.fabric → ∃ t, exec (.regionMerge die base) s = .next t ∧
      { r with size := 2 * r.size, quietSince := s.fabric } ∈ (t.dieOf die).regions ∧ q ∉ (t.dieOf die).regions ∧ t.mem = s.mem) ∧
  (∀ (s : State) (die line : Nat) (r : CatReq), (s.dieOf (homeOfLine line)).current line = some r → die ∈ r.awaiting →
    let own := fun (q : CatReq) => q.die = die ∧ q.line = line
    ((∀ q ∈ (s.dieOf (homeOfLine line)).requests, own q → q.phase ≠ .queued) →
      ∃ t, exec (.snoopReceived die line) s = .next t ∧ .invalidationAck die line ∈ t.agenda ∧
        ∀ k, ((s.dieOf (homeOfLine line)).entry line s.fabric).covers (128 * k) = true → Table.find (t.dieOf die).annex k = none) ∧
    ((∃ q ∈ (s.dieOf (homeOfLine line)).requests, own q ∧ q.phase = .queued) →
      (∀ q ∈ (s.dieOf (homeOfLine line)).requests, own q → q.phase ≠ .marked) →
      exec (.snoopReceived die line) s = .next ((s.setDie (homeOfLine line) { s.dieOf (homeOfLine line) with
        requests := (s.dieOf (homeOfLine line)).requests.map (fun q =>
          if q.die = die ∧ q.line = line ∧ q.phase = .queued then { q with phase := .marked } else q) }).push (.snoopReceived die line)))) ∧
  (∀ (s : State) (die line : Nat) (r : CatReq), let home := homeOfLine line
    (s.dieOf home).current line = some r → die ∈ r.awaiting → let left := r.awaiting.filter (fun e => decide (e ≠ die))
    (left ≠ [] → exec (.invalidationAck die line) s = .next (s.setDie home ((s.dieOf home).putReq { r with awaiting := left }))) ∧
    (left = [] → r.who = .store → r.granted = false → r.die ≠ home → s.conflicts home line (some r.die) = false →
      (∀ q ∈ (s.dieOf home).requests, q.line = line → q = r) →
      ∃ t, exec (.invalidationAck die line) s = .next t ∧ t.owner? home line = some r.die ∧
        ∀ q ∈ (t.dieOf home).requests, q.line = line → q = { r with awaiting := [], granted := true })) ∧
  (∀ (s : State) (die line : Nat) (q r : CatReq), let d := s.dieOf (homeOfLine line)
    d.requests.find? (fun x => decide (x.die = die) && decide (x.line = line) && decide (x.phase = .retrying)) = some q → d.current line = some r →
    exec (.requestRetry die line) s = .next (s.setDie (homeOfLine line) { d with
      requests := (d.dropReq q).requests ++ [{ q with phase := .queued, retries := q.retries + 1 }] })) ∧
  (∀ (s : State) (die line : Nat) (a : AnnexLine), Table.find (s.dieOf die).annex line = some a → a.dirty ≠ 0 →
    (line ∉ (s.dieOf die).writeBacks → exec (.dirtyWriteBack die line) s = .next ((s.setDie die { s.dieOf die with
      writeBacks := (s.dieOf die).writeBacks ++ [line] }).push (.dirtyWriteBack die line))) ∧
    (line ∈ (s.dieOf die).writeBacks → ∃ t, exec (.dirtyWriteBack die line) s = .next t ∧
      t.mem = Memory.writeMasked s.mem line a.data a.dirty ∧ line ∉ (t.dieOf die).writeBacks))

/-- R29 to R32, R302: a replicated update is numbered and multicast by its signal box, an atomic with the value that the box finds on its own copy,
the operation's result, and an origin time that also covers the value found (R304, R308; log entry 73); it commits with the eighth acknowledgement, and is applied on each die in sequence order, on that die's own copy. Once
it is applied on the issuing die, a thread that waits for its answer has it. -/
def Obligations.ReplicatedUpdates : Prop :=
  (∀ (s : State) (sbox : Nat) (u : ReplUpdate) (rest : List ReplUpdate), s.replicated = u :: rest → u.sbox = sbox → u.seq = none →
    let n := Table.getD s.sboxSeq sbox 0
    let old := s.bytesNow (u.off % 2 ^ 35 + sbox * 2 ^ 35) u.size
    let numbered := fun (v : Nat) (o : BitVec 16) => Host.Outcome.next { s with
      sboxSeq := Table.set s.sboxSeq sbox (n + 1), replicated := { u with seq := some n, v := v, old := old, origin := o } :: rest,
      agenda := s.agenda ++ (List.range 8).map (fun d => .replicatedBufferAck d ⟨sbox, n⟩) }
    (u.op = .store → exec (.replicatedUpdate sbox) s = numbered u.v u.origin) ∧
    (∀ ty op c, u.op = .atom ty op c → (∀ q ∈ rest, q.sbox = sbox → q.seq = none) →
      (∀ w ∈ s.poison, 8 * w + 8 ≤ u.off % 2 ^ 35 + sbox * 2 ^ 35 ∨ u.off % 2 ^ 35 + sbox * 2 ^ 35 + u.size ≤ 8 * w) →
      exec (.replicatedUpdate sbox) s = numbered (atomicValue ty op old u.v c)
        (maxT u.origin (s.stampAt sbox ((u.off % 2 ^ 35 + sbox * 2 ^ 35) / 128)).origin))) ∧
  (∀ (s : State) (die seq : Nat) (u : ReplUpdate) (rest : List ReplUpdate), s.replicated = u :: rest → u.seq = some seq → u.committed = false →
    die ∉ u.acks → exec (.replicatedBufferAck die ⟨u.sbox, seq⟩) s = .next { s with
      replicated := { u with acks := u.acks ++ [die] } :: rest,
      agenda := s.agenda ++ (if u.acks.length = 7 then [.replicatedCommit u.sbox seq] else []) }) ∧
  (∀ (s : State) (sbox seq : Nat) (u : ReplUpdate) (rest : List ReplUpdate), s.replicated = u :: rest → u.sbox = sbox → u.seq = some seq →
    u.acks.length = 8 → exec (.replicatedCommit sbox seq) s = .next { s with
      replicated := { u with committed := true } :: rest, agenda := s.agenda ++ (List.range 8).map (fun d => .replicatedApply d) }) ∧
  (∀ (s : State) (die : Nat) (l : List ReplUpdate) (u : ReplUpdate) (rest : List ReplUpdate), s.replicated = l ++ u :: rest →
    let due := fun (q : ReplUpdate) => q.committed = true ∧ die ∉ q.applied ∧ ∀ p ∈ s.replicated, p.sbox = q.sbox → die ∉ p.applied →
      ∀ a b, p.seq = some a → q.seq = some b → b ≤ a
    due u → (∀ q ∈ l, ¬due q) → die < 8 → u.off < 2 ^ 35 →
    0 < u.size → u.off % 128 + u.size ≤ 128 → ∃ t top, exec (.replicatedApply die) s = .next t ∧
      t.mem = Memory.write s.mem (u.off + die * 2 ^ 35) u.size u.v ∧
      t.replicated = l ++ (if u.applied.length = 7 then [] else [{ u with applied := u.applied ++ [die], top := top }]) ++ rest ∧
      (u.waiter = none ∨ u.core / 40 ≠ die → t.groups = s.groups) ∧
      (∀ tid th p, u.waiter = some (.thread tid) → u.core / 40 = die → s.thread? tid = some th → th.status = .wait (.atomic p) →
        t.groups = (s.setThread tid { th with status := .run, answer := some (u.old, p) }).groups))

/-- R33, R45, R46, R398, R401, R410: the host and the peers. An uncached write of the host changes its bytes alone; a read and an answered access
go on; a sector that the host takes holds memory's bytes, and what the host modifies stays in its cache until it is asked for; a sector of host
memory holds what the host answers, a free value, and the hub's agent owns it from then on where it asked for that. The host caches a device
sector only of a page mapped host-coherent; one that it gives up brings home the bytes that it modified and no other, so that what a core stored
beside them stays (R46). A peer's acknowledgement ends the store or reduction sent to it, or answers the thread that waits, with a free value; its
loss drops them, with trap 0x0D in a thread that waits, and ends every COLL of a level bound to the system domain (R398; which collectives span
a peer is log entry 74); a peer's own store or atomic is performed at its line's home. -/
def Obligations.HostAndPeers : Prop :=
  (∀ (s : State) (pa n v : Nat), pa < 2 ^ 38 → 0 < n → pa % 128 + n ≤ 128 → lineIdle s (pa / 128) → unasked s .host → s.populatedRange pa n = true →
    (∃ t, exec (.hostAccess (.write pa n v)) s = .next t ∧ t.mem = Memory.write s.mem pa n v ∧ t.groups = s.groups ∧ t.contexts = s.contexts) ∧
    (∃ t, exec (.hostAccess (.read pa n)) s = .next t ∧ t.mem = s.mem ∧ t.groups = s.groups ∧ t.contexts = s.contexts)) ∧
  (∀ (s : State) (pa : Nat), pa < 2 ^ 38 → lineIdle s (pa / 128) → unasked s .host → s.populated pa = true → ∃ t, exec (.hostAccess (.own pa)) s = .next t ∧ t.mem = s.mem ∧
    (s.hostCoherent pa = true →
      Table.find t.hostSectors (pa / 64) = some ⟨BitVec.ofNat 512 (Memory.read s.mem (pa / 64 * 64) 64), 0, false⟩) ∧
    (s.hostCoherent pa = false → t.hostSectors = s.hostSectors)) ∧
  (∀ (s : State) (pa n v : Nat) (x : HostSector), Table.find s.hostSectors (pa / 64) = some x → (∀ p ∈ s.hostSectors, p.2.dirty = 0) →
    s.conflicts (homeOfLine (pa / 128)) (pa / 128) none = false → pa % 64 + n ≤ 64 → ∃ t y, exec (.hostAccess (.modify pa n v)) s = .next t ∧
      Table.find t.hostSectors (pa / 64) = some y ∧ t.mem = s.mem ∧ ∀ i, i < 64 →
        y.data.toNat / 2 ^ (8 * i) % 256 = (if pa % 64 ≤ i ∧ i < pa % 64 + n then v / 2 ^ (8 * (i - pa % 64)) % 256
          else x.data.toNat / 2 ^ (8 * i) % 256)) ∧
  (∀ (s : State) (k : Nat) (x : HostSector) (rest : List (Nat × HostSector)), s.hostSectors = (k, x) :: rest → x.wanted = true →
    (∀ p ∈ rest, p.1 ≠ k ∧ p.2.wanted = false ∧ (p.1 / 2 = k / 2 → p.2.dirty = 0)) →
    (x.dirty = 0 → exec .hostSectorRelease s = .next { s with hostSectors := rest }) ∧
    (Memory.wf s.mem = true → ∃ t, exec .hostSectorRelease s = .next t ∧ t.hostSectors = rest ∧ t.groups = s.groups ∧
      ∀ a, Memory.byte t.mem a = if a / 64 = k ∧ x.dirty.getLsbD (a % 64) = true then BitVec.ofNat 8 (x.data.toNat / 2 ^ (8 * (a % 64)))
        else Memory.byte s.mem a)) ∧
  (∀ (s : State) (r : HostRequest) (rest : List HostRequest), s.hostRequests = r :: rest →
    (r.sector ∈ s.hostHeld → exec .hostMemoryResponse s = .next { s with hostRequests := rest }) ∧
    (r.sector ∉ s.hostHeld → ∃ held, (∀ x, x ∈ held ↔ x = r.sector ∨ x ∈ s.hostHeld) ∧ exec .hostMemoryResponse s = .next { s with
      hostRequests := rest, mem := Memory.write s.mem (64 * r.sector) 64 (Config.hostLine s.free), free := s.free + 1,
      hostHeld := (if r.own then held else s.hostHeld), hostReads := (if r.own then s.hostReads else s.hostReads ++ [(r.sector, r.die)]) })) ∧
  (∀ (s : State) (core : Nat) (l : List PeerMsg) (m : PeerMsg) (rest : List PeerMsg), s.peerSent = l ++ m :: rest → m.core = core → core < 320 →
    (∀ q ∈ l, q.core ≠ core) → m.op ≠ .semTake →
    ∃ t old, exec (.peerAccess (.ack core)) s = .next t ∧ t.peerSent = l ++ rest ∧ t.mem = s.mem ∧
      (t.coreOf core).pend = (s.coreOf core).pend.filter (fun q => q.id ≠ m.id) ∧
      (t.coreOf core).pendAtomics = (s.coreOf core).pendAtomics.filter (fun q => q.id ≠ m.id) ∧ (m.waiter = none → t.groups = s.groups) ∧
      ∀ tid th p, m.waiter = some (.thread tid) → s.thread? tid = some th → th.status = .wait (.atomic p) →
        t.groups = (s.setThread tid { th with status := .run, answer := some (old, p) }).groups) ∧
  (∀ (s : State) (pa n v : Nat), pa < 2 ^ 38 → 0 < n → pa % 128 + n ≤ 128 → lineIdle s (pa / 128) → unasked s .host → s.populatedRange pa n = true →
    ∃ t, exec (.peerAccess (.store pa n v)) s = .next t ∧ t.mem = Memory.write s.mem pa n v ∧ t.groups = s.groups ∧ t.contexts = s.contexts) ∧
  (∀ (s : State) (pa v c : Nat) (ty : AtomTy) (op : AtomOp), let n := atomWidth ty / 8
    pa < 2 ^ 38 → pa % n = 0 → lineIdle s (pa / 128) → unasked s .host → s.populatedRange pa n = true →
    ∃ t, exec (.peerAccess (.atom pa ty op v c)) s = .next t ∧ t.groups = s.groups ∧ t.contexts = s.contexts ∧
      t.mem = Memory.write s.mem pa n (atomicValue ty op (Memory.read s.mem pa n) v c)) ∧
  (∀ (s : State) (port peer : Nat), ∃ t, exec (.peerLoss port peer) s = .next t ∧ peer ∈ t.peersLost ∧ (∀ x ∈ s.peersLost, x ∈ t.peersLost) ∧
    (∀ m ∈ t.peerSent, m.peer ≠ peer) ∧ (∀ w ∈ t.semWaits, ¬(isAperture w.pa = true ∧ (w.pa - 0x4080000000) / 2 ^ 23 = peer)) ∧ t.mem = s.mem ∧
    (∀ m ∈ s.peerSent, m.peer = peer → m.waiter = none → m.core < 320 → (∀ q ∈ (t.coreOf m.core).pend, q.id ≠ m.id) ∧
      ∀ q ∈ (t.coreOf m.core).pendAtomics, q.id ≠ m.id) ∧
    (∀ c ∈ s.colls, ∀ g, Table.find s.grids c.grid = some g → 2 ≤ c.level → g.domains.getD (c.level - 2) 0 = 6 →
      .engineCommandComplete c.core .coll ∈ t.agenda ∧ ∀ q ∈ (t.coreOf c.core).coll.queue, q.num = c.num → q.phase = .cancelled) ∧
    let sems := s.semWaits.filter (fun w => isAperture w.pa && decide ((w.pa - 0x4080000000) / 2 ^ 23 = peer))
    let sent := s.peerSent.filter (fun m => decide (m.peer = peer))
    (sems = [] → (∀ m ∈ sent, m.waiter = none) → t.groups = s.groups) ∧
    (∀ tid th p g m, sems = [] → sent = [m] → m.waiter = some (.thread tid) → s.thread? tid = some th → Table.find s.groups (tid / 32) = some g →
      th.status = .wait (.atomic p) → entersOn th 0x0D →
      t.groups = (s.setThread tid (entered th 0x0D p th.pc (s.tvecOf g.ctx))).groups))
/-! ## Tiles and tenure -/

/-- R47 to R51, R59, R60, R225, R237, R238, R319, R433: TDEF reads its descriptor and answers a refusal reason or the handle of a new tile, at the
lowest free index (the model's choice, see the assumption log); TSPLIT makes two tiles of one along a dimension, with the holds on both; TFREE
frees an index and steps its generation; TQRY tells a group's holds. A handle that names no tile of the context is stale. -/
def Obligations.TileDescriptors : Prop :=
  (∀ (g : Guard) (pat : LanePat) (d : Operand) (a : Src), GroupReaches (.tdef g pat d a) g (some d) (srcP pat .whole a) none none
    (fun s e got t => let p := (got 0).a
      fresh e → (∀ c, s.check e.core e.ctx p 64 64 (kindNeed .load) = .error (.trap c) → allEnter e c → ∃ new : List (Nat × Nat),
        t = settled0 e (allTrap e c p { s with reports := s.reports ++ new }) ∧ (c ≠ 0x0D → new = []) ∧ ∀ x ∈ new, x.1 = 3) ∧
      ∀ xs v u, s.check e.core e.ctx p 64 64 (kindNeed .load) = .ok xs → s.poisonVa e.core xs (p.toNat % 2 ^ 54) 64 = none →
        (∀ x ∈ xs, isAperture x.pa = false) → s.heldBack e.core e.ctx xs = false → s.restartable e = false →
        (∀ l, l < 32 → (s.coreOf e.core).pendingOf (e.group * 32 + l) = false) →
        s.loadRange (.thread (e.group * 32)) e.core e.ctx (s.leaseOf e.g.grid) xs (p.toNat % 2 ^ 54) 64 = (u, some v) →
        let ends := fun (w : Word) (u : State) => settled0 e (allWrite e got w u)
        let base := BitVec.ofNat 64 (fieldAt v 0 8)
        (¬tileGood v → t = ends 2 u) ∧
        (tileGood v → 2 ^ 26 < tileSpan v → t = ends 5 u) ∧
        (tileGood v → tileSpan v ≤ 2 ^ 26 → ∀ y ys,
          u.check e.core e.ctx base (tileSpan v) 1 { kindNeed .load with draft := true, kind := 8 } = .ok (y :: ys) →
          let w := u.fillCaches e.core e.ctx (base.toNat / 2 ^ 54) (y :: ys)
          let odd := ∃ z ∈ y :: ys, z.repl = true ∨ z.policy ≠ 0 ∨ w.populated z.pa = false
          let spread := ∃ z ∈ ys, homeDie z.pa ≠ homeDie y.pa
          (odd → t = ends 4 w) ∧ (¬odd → spread → t = ends 3 w) ∧
          (¬odd → ¬spread → ∀ ix, lowestFree w (homeDie y.pa) none ix → let gen := ((w.dieOf (homeDie y.pa)).tile ix e.ctx).gen
            t = ends (handleOf gen (homeDie y.pa) ix) (w.setTile (homeDie y.pa) ix { Tile.free gen e.ctx with
              defined := true, base := base, rank := tileRank v, esize := fieldAt v 9 1,
              extents := (List.range 4).map (tileExtent v), strides := (List.range 4).map (tileStride v),
              footprint := (y :: ys).map (fun z => (z.pa, z.n)), eds := (y :: ys).map (fun z => z.ed) })))) ) ∧
  (∀ (g : Guard) (pat : Pat) (n : Fin 128) (a b : Src) (dim : Fin 4),
    GroupReaches (.tsplit g pat n a b dim) g none (srcA pat .whole a) (srcB pat .whole b) none
    (fun s e got t => ∀ x, NamesTile s e.ctx (got 0).a x → let k := (got 0).b.toNat
      let die := handleDieOf (got 0).a
      let ix := handleIndexOf (got 0).a
      let ext := x.extents.getD dim.val 0
      let st := x.strides.getD dim.val 0
      ((x.rank ≤ dim.val ∨ k = 0 ∨ ext ≤ k) → allEnter e 0x02 → t = settled0 e (allTrap e 0x02 e.word s)) ∧
      (dim.val < x.rank → 0 < k → k < ext → x.published = false → x.recalling = false → x.queue = [] →
        (∀ p ∈ s.groups, ∀ h ∈ p.2.holds, h.die = die → h.index = ix → h.revoked = false) →
        (∀ h ∈ x.holders, h.core = e.core ∧ h.ctx = e.ctx) → ∀ i j, lowestFree s die none i → lowestFree s die (some i) j →
        let gi := ((s.dieOf die).tile i e.ctx).gen
        let gj := ((s.dieOf die).tile j e.ctx).gen
        let first := { x with gen := gi, extents := setAt x.extents dim.val k }
        let second := { x with gen := gj, extents := setAt x.extents dim.val (ext - k), base := pointer (x.base.toNat / 2 ^ 54) ((x.base.toNat % 2 ^ 54 : Nat) + (k * st : Nat)) }
        let size := fun (y : Tile) => 2 ^ y.esize + ((List.range y.rank).map (fun q => (y.extents.getD q 0 - 1) * y.strides.getD q 0)).sum
        let u := ((s.setTile die i { first with footprint := subFootprint x.footprint 0 (size first), eds := subEds x.footprint x.eds 0 (size first) }).setTile die j
          { second with footprint := subFootprint x.footprint (k * st) (size second), eds := subEds x.footprint x.eds (k * st) (size second) }).setTile die ix (freed x)
        t = { u with groups := Table.set (s.groups.map (fun p => (p.1, p.2.splitHolds die ix i j))) e.group { e.g.splitHolds die ix i j with
          threads := e.g.threads.map (fun p => (p.1,
            (((got p.1).t.setV n.val (handleOf gi die i)).setV (n.val + 1) (handleOf gj die j)).advance)) } }))) ∧
  (∀ (gr : Group) (die ix i j : Nat), i ≠ ix → j ≠ ix → i ≠ j → ¬hasHold gr die i → ¬hasHold gr die j →
    holdsOn (gr.splitHolds die ix i j) die i = holdsOn gr die ix ∧ holdsOn (gr.splitHolds die ix i j) die j = holdsOn gr die ix ∧
    holdsOn (gr.splitHolds die ix i j) die ix = (0, false)) ∧
  (∀ (g : Guard) (pat : LanePat) (a : Src), GroupReaches (.tfree g pat a) g none (srcP pat .whole a) none none
    (fun s e got t => let h := (got 0).a
      let free := fun (x : Tile) => x.holders = [] ∧ x.recalling = false ∧ x.queue = [] ∧ ∀ p ∈ s.groups, ¬hasHold p.2 (handleDieOf h) (handleIndexOf h)
      ((∀ x, ¬NamesTile s e.ctx h x) → outsideHandlers e → t = settled0 e (allTrap e 0x0F h s)) ∧
      ∀ x, NamesTile s e.ctx h x → (¬free x → outsideHandlers e → t = settled0 e (allTrap e 0x10 h s)) ∧
        (free x → t = allGo e got (s.setTile (handleDieOf h) (handleIndexOf h) (freed x))))) ∧
  (∀ (g : Guard) (pat : LanePat) (d : Operand) (a : Src) (s : State) (i : Issue) (rest : List Issue) (e : Env) (got : Nat → Got) (x : Nat → Tile),
    s.issue = i :: rest → s.env? i = some e →
    (∀ p ∈ e.g.threads, p.1 ∈ i.lanes → p.2.selected g = true →
      collect e p.1 p.2 (some d) (srcP pat .whole a) none none = .ok (got p.1) ∧ (got p.1).poisoned = false ∧ NamesTile s e.ctx (got p.1).a (x p.1)) →
    exec (.tqry g pat d a) s = .next (s.setGroup i.group (lanesAfter e i.lanes g (fun l _ =>
      let h := holdsOn e.g (handleDieOf (got l).a) (handleIndexOf (got l).a)
      let y := x l
      ((got l).t.put (got l).d (BitVec.ofNat 64 (h.1 * 2 ^ 16 + (if h.2 then 4 else 0) +
        (if y.recalling ∧ y.recalled.contains e.core ∧ y.heldBy e.core e.ctx then 3 else if y.writtenBy e.core e.ctx then 2
          else if y.heldBy e.core e.ctx then 1 else 0)))).advance))))

/-- R52 to R59, R237, R239, R320: TACQ and TREL, and the steps of a tile entry. A tenure is granted at once where nothing keeps the core from it
and no request is queued before it, and else asked for while the group waits; a release lets one hold go and ends the tenure with the last; a recall asks the holders, and takes their
tenure after 2^16 fabric cycles; a tile entry serves its queue in order: what it has not served stays as it stood, and behind a request that has
to wait nothing is served. -/
def Obligations.Tenure : Prop :=
  (∀ (g : Guard) (pat : LanePat) (write : Bool) (a : Src), GroupReaches (.tacq g pat write a) g none (srcP pat .whole a) none none
    (fun s e got t => let h := (got 0).a
      let die := handleDieOf h
      let ix := handleIndexOf h
      s.restartable e = false → ((∀ x, ¬NamesTile s e.ctx h x) → outsideHandlers e → t = settled0 e (allTrap e 0x0F h s)) ∧
      ∀ x, NamesTile s e.ctx h x →
        let refused := x.published = true ∨ (holdsOn e.g die ix).2 = true ∨ 16 ≤ (holdsOn e.g die ix).1 ∨
          (¬hasHold e.g die ix ∧ 16 ≤ e.g.holds.length)
        (refused → outsideHandlers e → t = settled0 e (allTrap e 0x10 h s)) ∧
        (¬refused → (write = true → (s.boundsEntry e.core e.ctx (x.base.toNat / 2 ^ 54)).rights.toNat &&& 3 = 3) →
          (x.recalling = false → x.queue = [] → noneQueued s die x → tenureFree s die x e.core write → ∃ u, t = allGo e got u ∧
            holdsTenure ((u.dieOf die).tile ix e.ctx) e.core e.ctx write ∧ (∀ k, k ≠ e.group → Table.find u.groups k = Table.find s.groups k) ∧
            (∃ gr, Table.find u.groups e.group = some gr ∧ holdsOn gr die ix = ((holdsOn e.g die ix).1 + 1, false)) ∧
            u.blocks = s.blocks ∧ u.contexts = s.contexts) ∧
          ((x.recalling = true ∨ x.queue ≠ [] ∨ ¬tenureFree s die x e.core write) →
            ∃ u y n, t = allWait e (.tacq die ix (.tacq g pat write a)) u ∧
            (u.dieOf die).tile ix e.ctx = y ∧ y.queue = x.queue ++ [⟨n, .tacq e.group write⟩] ∧ y.holders = x.holders ∧
            u.groups = s.groups ∧ u.mem = s.mem)))) ∧
  (∀ (g : Guard) (pat : LanePat) (d : Operand) (a : Src), GroupReaches (.trel g pat d a) g (some d) (srcP pat .whole a) none none
    (fun s e got t => let die := handleDieOf (got 0).a
      let ix := handleIndexOf (got 0).a
      ∀ x, NamesTile s e.ctx (got 0).a x →
        (¬hasHold e.g die ix → outsideHandlers e → t = settled0 e (allTrap e 0x10 (got 0).a s)) ∧
        (hasHold e.g die ix → (∀ l, l < 32 → (s.coreOf e.core).pendingOf (e.group * 32 + l) = false) → (∀ u ∈ s.replicated, u.core ≠ e.core ∧ e.core / 40 ∉ u.applied) →
          let h := holdsOn e.g die ix
          ∃ u gr, t = allWrite e got (if h.2 then 1 else 0) u ∧ Table.find u.groups e.group = some gr ∧
            holdsOn gr die ix = (if h.1 ≤ 1 then (0, false) else (h.1 - 1, h.2)) ∧
            (h.2 = false → (∀ p ∈ t.groups, coreOfGroup p.1 = e.core → p.2.ctx = e.ctx → hasHold p.2 die ix → (holdsOn p.2 die ix).2 = true) →
              ¬holdsTenure ((t.dieOf die).tile ix e.ctx) e.core e.ctx false)))) ∧
  (∀ (s : State) (die ix : Nat) (x : Tile), Table.find (s.dieOf die).tiles ix = some x →
    (x.recalling = true → exec (.recall die ix) s = .next s) ∧
    (∀ asked, asked = (if x.recalled = [] then (x.holders.map (fun h => h.core)).eraseDups else x.recalled) →
      x.recalling = false → (∀ h ∈ x.holders, h.core < 320) → (∃ h ∈ x.holders, h.core ∈ asked) →
      exec (.recall die ix) s = .next ((s.setTile die ix { x with recalled := asked, recalling := true, recallAt := s.fabric }).push
        (.recallLimitExpiry die ix)))) ∧
  (∀ (s : State) (die ix : Nat) (x : Tile), Table.find (s.dieOf die).tiles ix = some x → x.recalling = true →
    (∃ h ∈ x.holders, h.core ∈ x.recalled) →
    (s.fabric < x.recallAt + 65536 → exec (.recallLimitExpiry die ix) s = .next (s.push (.recallLimitExpiry die ix))) ∧
    (x.recallAt + 65536 ≤ s.fabric → ∃ t, exec (.recallLimitExpiry die ix) s = .next t ∧ .recallAck die ix ∈ t.agenda ∧
      ∀ h ∈ x.holders, h.core ∈ x.recalled → ¬holdsTenure ((t.dieOf die).tile ix 0) h.core h.ctx false ∧
        ∀ p ∈ t.groups, coreOfGroup p.1 = h.core → p.2.ctx = h.ctx → hasHold p.2 die ix → (holdsOn p.2 die ix).2 = true)) ∧
  (∀ (s : State) (die ix : Nat) (x : Tile), Table.find (s.dieOf die).tiles ix = some x → x.recalling = true →
    (∀ h ∈ x.holders, h.core ∉ x.recalled) → let u := (s.observe die 7 (s.fabric - x.recallAt) x.ctx).setTile die ix { x with recalling := false, recalled := [] }
    exec (.recallAck die ix) s = .next { u with agenda := u.agenda ++
      ((u.dieOf die).tiles.filter (fun p => !p.2.queue.isEmpty)).map (fun p => .tenureGrant die p.1) }) ∧
  (∀ (s : State) (die ix group n : Nat) (x : Tile) (gr : Group) (th : Thread) (write : Bool) (more : List Queued) (ins : Instr),
    Table.find (s.dieOf die).tiles ix = some x → x.queue = ⟨n, .tacq group write⟩ :: more → x.published = false → x.recalling = true →
    Table.find s.groups group = some gr → s.thread? (group * 32) = some th → th.status = .wait (.tacq die ix ins) →
    exec (.tenureGrant die ix) s = .next s) ∧
  (∀ (s : State) (die ix group n : Nat) (x : Tile) (more : List Queued) (gr : Group) (g : Guard) (pat : LanePat) (write : Bool) (a : Src) (got : Nat → Got),
    Table.find (s.dieOf die).tiles ix = some x → x.recalling = false → x.published = false →
    x.queue = ⟨n, .tacq group write⟩ :: more → (∀ p ∈ (s.dieOf die).tiles, p.1 ≠ ix → shareLine p.2 x → p.2.queue = []) → tenureFree s die x (group / 32) write → Table.find s.groups group = some gr → gr.threads.map (fun p => p.1) = List.range 32 →
    (∀ p ∈ gr.threads, p.2.status = .wait (.tacq die ix (.tacq g pat write a))) →
    (∀ e : Env, e.group = group → e.g.threads = gr.threads.map (fun p => (p.1, { p.2 with status := .run })) → ∀ p ∈ e.g.threads,
      collect e p.1 p.2 none (srcP pat .whole a) none none = .ok (got p.1) ∧ (got p.1).poisoned = false) →
    ∃ t after, exec (.tenureGrant die ix) s = .next t ∧ holdsTenure ((t.dieOf die).tile ix gr.ctx) (group / 32) gr.ctx write ∧
      (∃ served, more = served ++ ((t.dieOf die).tile ix gr.ctx).queue) ∧ Table.find t.groups group = some after ∧
      (holdsOn after die ix).1 = (holdsOn gr die ix).1 + 1 ∧ after.threads = gr.threads.map (fun p => (p.1, (got p.1).t.advance)))
/-! ## Barriers and semaphores -/

/-- R250, R335, R365, R392, R431: BAR, ARRV and BWAIT, and the end of a phase. An arrival is a release and is listed once; BAR waits for the phase
it arrived at, ARRV goes on with that phase's number; BWAIT sees a completed phase at once, and takes over the latest clock of an arriver that the
barrier keeps (the model's reading of R303 to R306, R317: log entry 47); a refused level is trap 0x15, and so is a poisoned barrier, for BWAIT
where its phase is not over. A phase completes once every participant has arrived, and those that wait for it, at BAR or at BWAIT, go on. -/
def Obligations.Barriers : Prop :=
  (∀ (g : Guard) (lvl : Fin 8), ReachesNext (.bar g lvl) g none none none none (fun e l th _ u v =>
    let b := barrierOf u e lvl.val
    (levelRefused u e lvl.val ∨ b.poisoned = true → ¬inHandler th → v = trapsAt e l th 0x15 (BitVec.ofNat 64 lvl.val) u) ∧
    (¬levelRefused u e lvl.val → b.poisoned = false → e.group * 32 + l ∉ b.arrived →
      ∀ x, u.before e l .rel (u.levelScope e.g lvl.val) = some x →
        v = waitsAt e l th (.barrier b.grid b.level b.member b.phase.toNat (.bar g lvl)) (arrived e l b x)))) ∧
  (∀ (g : Guard) (d : Operand) (lvl : Fin 8), ReachesNext (.arrv g d lvl) g (some d) none none none (fun e l th r u v =>
    let b := barrierOf u e lvl.val
    (levelRefused u e lvl.val ∨ b.poisoned = true → ¬inHandler th → v = trapsAt e l th 0x15 (BitVec.ofNat 64 lvl.val) u) ∧
    (¬levelRefused u e lvl.val → b.poisoned = false → e.group * 32 + l ∉ b.arrived →
      ∀ x, u.before e l .rel (u.levelScope e.g lvl.val) = some x →
        v = goesOn e l (r.t.put r.d (BitVec.ofNat 64 b.phase.toNat)) (arrived e l b x)))) ∧
  (∀ (g : Guard) (pat : LanePat) (a : Src) (lvl : Fin 8), ReachesNext (.bwait g pat a lvl) g none (srcP pat .whole a) none none
    (fun e l th r u v => let b := barrierOf u e lvl.val
      let p := r.a.setWidth 32
      (levelRefused u e lvl.val ∨ (b.poisoned = true ∧ ¬phaseOver b.phase p) → ¬inHandler th →
        v = trapsAt e l th 0x15 (BitVec.ofNat 64 lvl.val) u) ∧
      (¬levelRefused u e lvl.val → r.poisoned = false →
        (phaseOver b.phase p → v = goesOn e l r.t (u.jumpTo e.core b.clock)) ∧
        (¬phaseOver b.phase p → b.poisoned = false →
          v = waitsAt e l th (.barrier b.grid b.level b.member p.toNat (.bwait g pat a lvl)) u)))) ∧
  (∀ (s : State) (grid level member : Nat), let b := s.barrier grid level member
    let ps := s.participants grid level member
    (b.poisoned = true ∨ ps = [] ∨ (∃ n ∈ ps, n ∉ b.arrived) → exec (.barrierPhaseComplete grid level member) s = .next s) ∧
    (b.poisoned = false → ps ≠ [] → (∀ n ∈ ps, n ∈ b.arrived) → ∃ t, exec (.barrierPhaseComplete grid level member) s = .next t ∧
      (∃ c, t.barrier grid level member = { b with phase := b.phase + 1, arrived := [], clock := c }) ∧ t.mem = s.mem ∧
      ∀ n th g lvl, s.thread? n = some th →
        (n ∈ ps → th.status = .wait (.barrier grid level member b.phase.toNat (.bar g lvl)) →
          t.thread? n = some { th with status := .run }.advance) ∧
        (∀ p pat a got, n ∈ ps → th.status = .wait (.barrier grid level member p (.bwait g pat a lvl)) →
          (phaseOver (b.phase + 1) (BitVec.ofNat 32 p) → (∀ e : Env, e.group = n / 32 →
            collect e (n % 32) { th with status := .run } none (srcP pat .whole a) none none = .ok got) → t.thread? n = some got.t.advance) ∧
          (¬phaseOver (b.phase + 1) (BitVec.ofNat 32 p) → t.thread? n = some th)) ∧
        (n ∉ ps → t.thread? n = some th)))

/-- R251, R252: SEMS adds to a semaphore that is not poisoned, up to its greatest count; SEMW goes on with the word as found once the count is
there or the semaphore is poisoned, and takes from it under .take; else it waits; behind one that waits already it waits even where its count is there (log entry 46); a count of 0 or above 2^32 is
trap 0x02; the waiting ones of a word are served in arrival order, none before one that came earlier. On a replicated page a signal, or a take whose count is there, waits for the signal box,
and completes with its answer. -/
def Obligations.Semaphores : Prop :=
  (∀ (g : Guard) (pat : Pat) (sc : Scope) (a b : Src), ReachesNext (.sems g pat sc a b) g none (srcA pat .whole a) (srcB pat .whole b) none
    (fun e l th r u v => (u.restartable e = true → u.bufferFull e 1 = false) →
      (th.answer ≠ none → v = settled e l (goesOn e l { r.t with answer := none } u)) ∧
      (th.answer = none → r.b = 0 ∨ 2 ^ 32 < r.b.toNat → entersOn th 0x02 → v = settled e l (trapsAt e l th 0x02 e.word u)) ∧
      (th.answer = none → r.b ≠ 0 → r.b.toNat ≤ 2 ^ 32 → CheckFails e l th r.a 8 8 .atomic u v ∧
        ∀ xs x y, AtomPasses e l r r.a 8 xs x u y → let pa := x.pa + (r.a.toNat % 2 ^ 54 - x.va)
          (y.restartable e = true → v = settled e l (goesOn e l r.t ((y.buffer e [.sems (e.group * 32 + l) r.a
            (y.sbLoc e.ctx x (r.a.toNat % 2 ^ 54)) r.b.toNat]).pushOnce (.semwRelease (if x.repl then pa % 2 ^ 35 else pa))))) ∧
          (y.restartable e = false → ∀ y1 y2 out, y.before e l .rel sc = some y1 →
          y1.atomicThrough (.thread (e.group * 32 + l)) e.core e.ctx (y1.leaseOf e.g.grid) x (r.a.toNat % 2 ^ 54) 8 .sems r.b.toNat = (y2, out) →
          (∀ old, out = .done old → v = settled e l (goesOn e l r.t y2)) ∧
          (out = .sent → v = settled e l (waitsAt e l th (.atomic r.a) y2)) ∧
          (out = .wait → v = y2.holdPassed (e.group * 32 + l) th ⟨th.pc, r.a, 2, xs⟩))))) ∧
  (∀ w n, ReplOp.sems.new n w = signalled w n) ∧ (∀ w n, ReplOp.semTake.new n w = afterTake w n) ∧
  (∀ (g : Guard) (pat : Pat) (sc : Scope) (take : Bool) (d : Operand) (a b : Src),
    ReachesNext (.semw g pat sc take d a b) g (some d) (srcA pat .whole a) (srcB pat .whole b) none (fun e l th r u v =>
      (take = true → u.restartable e = true → ¬inHandler th → v = trapsAt e l th 0x15 0 u) ∧
      ((take = true → u.restartable e = false) → (∀ n k, th.answer = some (n, k) →
          v = settled e l (goesOn e l (({ r.t with answer := none } : Thread).put r.d (BitVec.ofNat 64 n)) u)) ∧
        (th.answer = none → r.b = 0 ∨ 2 ^ 32 < r.b.toNat → entersOn th 0x02 → v = settled e l (trapsAt e l th 0x02 e.word u)) ∧
        (th.answer = none → r.b ≠ 0 → r.b.toNat ≤ 2 ^ 32 → CheckFails e l th r.a 8 8 .atomic u v ∧
          ∀ xs x y, AtomPasses e l r r.a 8 xs x u y → let pa := x.pa + (r.a.toNat % 2 ^ 54 - x.va)
            let word_ := if x.repl then pa % 2 ^ 35 else pa
            let wait : SemWait := ⟨r.a, word_, x, .thread (e.group * 32 + l), r.b.toNat, take, y.leaseOf e.g.grid⟩
            let queued := fun (w : State) => settled e l (waitsAt e l th (.semw word_ (.semw g pat sc take d a b))
              (({ w with semWaits := w.semWaits ++ [wait] } : State).pushOnce (.semwRelease word_)))
            ((∀ w ∈ y.semWaits, w.pa ≠ word_) → ∀ w out, y.semTry wait e.core e.ctx (y.blockOfEnv e) = (w, out) →
              (∀ n, out = .found n → v = settled e l (goesOn e l (r.t.put r.d (BitVec.ofNat 64 n)) w)) ∧ (out = .short → v = queued w) ∧
              (out = .sent → v = settled e l (waitsAt e l th (.atomic r.a) w)) ∧
              (out = .poisoned → entersOn th 0x18 → v = settled e l (trapsAt e l th 0x18 r.a w)) ∧
              (out = .blocked → v = w.holdPassed (e.group * 32 + l) th ⟨th.pc, r.a, 2, xs⟩)) ∧
            ((∃ w ∈ y.semWaits, w.pa = word_) → y.semWord e.core e.ctx (y.blockOfEnv e) x word_ / 2 ^ 63 % 2 = 0 → v = queued y))))) ∧
  (∀ (s : State) (w : SemWait) (core ctx : Nat), atHomeOf core w.pa 8 → lineIdle s (w.pa / 128) → w.page.repl = false →
    (w.take = true → s.idsBusy core 1 = false) → (∀ x ∈ s.poison, 8 * x + 8 ≤ w.pa ∨ w.pa + 8 ≤ 8 * x) →
    let word_ := Memory.read s.mem w.pa 8
    (¬semFull word_ w.n → ∃ t, s.semTry w core ctx none = (t, .short) ∧ t.mem = s.mem ∧ t.groups = s.groups) ∧
    (semFull word_ w.n → ∃ t, s.semTry w core ctx none = (t, .found word_) ∧ t.groups = s.groups ∧
      t.mem = if w.take then Memory.write s.mem w.pa 8 (afterTake word_ w.n) else s.mem)) ∧
  (∀ (s u : State) (pa tid : Nat) (before : List SemWait) (w : SemWait) (behind : List SemWait) (gr : Group) (th : Thread) (r : SemTry),
    s.semWaits = before ++ w :: behind → (∀ q ∈ before, q.pa ≠ pa) → w.pa = pa → w.who = .thread tid →
    Table.find s.groups (tid / 32) = some gr → Table.find gr.threads (tid % 32) = some th →
    ∀ g pat sc take d a b, th.status = .wait (.semw pa (.semw g pat sc take d a b)) →
    s.semTry w (tid / 1024) gr.ctx (s.blockOf gr) = (u, r) →
    (r = .short → isControl pa = false → exec (.semwRelease pa) s = .next u ∧ u.semWaits = s.semWaits) ∧
    (r = .blocked → exec (.semwRelease pa) s = .next (u.push (.semwRelease pa)) ∧ u.semWaits = s.semWaits) ∧
    (∀ n got, r = .found n → unasked u w.who →
      (∀ e : Env, e.group = tid / 32 → collect e (tid % 32) { th with status := .run } (some d) (srcA pat .whole a) (srcB pat .whole b) none =
        .ok got) →
      ∃ t served, exec (.semwRelease pa) s = .next t ∧
        behind.filter (fun q => decide (q.pa = pa)) = served ++ t.semWaits.filter (fun q => decide (q.pa = pa)) ∧
        t.semWaits.filter (fun q => decide (q.pa ≠ pa)) = (before ++ behind).filter (fun q => decide (q.pa ≠ pa)) ∧
        ((∀ q ∈ behind, q.pa ≠ pa) → t.mem = u.mem) ∧ t.thread? tid = some (got.t.put got.d (BitVec.ofNat 64 n)).advance))
/-! ## Edition buffers -/

/-- R107 to R112, R240 to R244, R346, R348: EDQ, PUB, ADOPT, RETRACT and RWAIT. A pointer into no view is trap 0x11, and so is a PUB on an index
that the context has not created. EDQ tells the edition, takes
and releases pins, its own kind alone (log entry 74), and tells the draft's pins; PUB, after its release, tells every core of its context and waits for the commit; ADOPT leaves the
edition that its thread fetches from for the newest, or waits for one; RETRACT withdraws the current edition of a code region; RWAIT waits until
no pin taken on the withdrawn edition is held, and keeps its check's pages while it waits (R68). That PUB, RETRACT and RWAIT are checked with no bit
of the leaf, fault kind 0, is the model's choice (log entry 64). -/
def Obligations.EditionWords : Prop :=
  (∀ (u : State) (e : Env) (l : Nat) (th : Thread) (r : Got) (f : Nat → Desc → State → State) (k : AccessKind) (need : Need) (x : Xlat)
      (xs : List Xlat) (w : State), need = kindNeed k → th.passed = [] → Passes e r.a 1 1 k (x :: xs) u w →
    (x.leaf.getLsbD 8 = false → ¬inHandler th → u.bufferAt e l th r need f = settled e l (trapsAt e l th 0x11 r.a w)) ∧
    (x.leaf.getLsbD 8 = true → w.desc? e.ctx (x.leaf.toNat / 2 ^ 16 % 2 ^ 12) = none → ¬inHandler th →
      u.bufferAt e l th r need f = settled e l (trapsAt e l th 0x11 r.a w))) ∧
  (∀ (g : Guard) (pat : Pat) (fn : EdqFn) (d : Operand) (a b : Src),
    ReachesNext (.edq g pat fn d a b) g (some d) (srcA pat .whole a) (if fn = .unpin then srcB pat .whole b else none) none
    (fun e l th r u v => r.poisoned = false → CheckFails e l th r.a 1 1 .load u v ∧ ∀ buf ds w, ToBuffer e r.a .load buf ds u w →
      match fn with
      | .num => v = givesResult e l r (BitVec.ofNat 64 (ds.num + ds.cur * 2 ^ 32 + (if ds.retracted then 2 ^ 33 else 0) +
          (if ds.code then 2 ^ 34 else 0))) w
      | .pin => (ds.code = true → ¬inHandler th → v = settled e l (trapsAt e l th 0x11 r.a w)) ∧
          (ds.code = false → v = givesResult e l r (BitVec.ofNat 64 (ds.num + ds.cur * 2 ^ 32))
            { w.setDesc e.ctx buf (withPins ds ds.cur (pinCount ds ds.cur + 1)) with
              pins := w.pins ++ [⟨e.ctx, buf, ds.cur, ds.num, .edq (some (e.group * 32 + l))⟩] })
      | .unpin => let back := r.b.toNat / 2 ^ 32 % 2
          (pinCount ds back = 0 → ¬inHandler th → v = settled e l (trapsAt e l th 0x11 r.a w)) ∧
          let own := fun (p : Pin) => p.ctx = e.ctx ∧ p.buf = buf ∧ p.backing = back ∧ ∃ o, p.owner = .edq o
          (pinCount ds back ≠ 0 → (∀ p ∈ w.pins, ¬own p) → v = givesResult e l r 0 w) ∧
          (pinCount ds back ≠ 0 → ∀ before p after, w.pins = before ++ p :: after → own p → (∀ q ∈ before, ¬own q) →
            v = givesResult e l r 0 { w.setDesc e.ctx buf (withPins ds back (pinCount ds back - 1)) with pins := before ++ after })
      | .dpins => v = givesResult e l r (BitVec.ofNat 64 (pinCount ds (1 - ds.cur))) w)) ∧
  (∀ (g : Guard) (pat : LanePat) (d : Operand) (a : Src), ReachesNext (.retract g pat d a) g (some d) (srcP pat .whole a) none none
    (fun e l th r u v => u.restartable e = false → r.poisoned = false → CheckFails e l th r.a 1 1 .publish u v ∧
      ∀ buf ds w, ToBuffer e r.a .publish buf ds u w →
        (ds.code = false → ¬inHandler th → v = settled e l (trapsAt e l th 0x11 r.a w)) ∧
        (ds.code = true → ds.retracted = false → v = givesResult e l r (BitVec.ofNat 64 ds.num)
          ((w.setDesc e.ctx buf { ds with retracted := true, withdrawn := ds.num }).noteWithdrawn e.ctx buf)) ∧
        (ds.code = true → ds.retracted = true → v = givesResult e l r (BitVec.ofNat 64 ds.withdrawn) w))) ∧
  (∀ (g : Guard) (pat : LanePat) (d : Operand) (a : Src), ReachesNext (.rwait g pat d a) g (some d) (srcP pat .whole a) none none
    (fun e l th r u v => r.poisoned = false → ∀ buf ds w, ToBuffer e r.a .publish buf ds u w →
      (w.everWithdrawn e.ctx buf = false → v = givesResult e l r 0 w) ∧
      (w.everWithdrawn e.ctx buf = true → (∃ p, th.region = some p ∧ p.buf = buf ∧ p.edition = ds.withdrawn) → ¬inHandler th →
        v = settled e l (trapsAt e l th 0x11 r.a w)) ∧
      (w.everWithdrawn e.ctx buf = true → (∀ p, th.region = some p → ¬(p.buf = buf ∧ p.edition = ds.withdrawn)) →
        let open_ := ∃ p ∈ w.pins, p.ctx = e.ctx ∧ p.buf = buf ∧ p.edition = ds.withdrawn
        (open_ → ∃ xs, v = w.holdPassed (e.group * 32 + l) th ⟨th.pc, r.a, 0, xs⟩) ∧ (¬open_ → v = givesResult e l r (BitVec.ofNat 64 ds.withdrawn) w)))) ∧
  (∀ (u : State) (c : Context) (ctx buf other : Nat), u.context? ctx = some c → (u.noteWithdrawn ctx buf).everWithdrawn ctx buf = true ∧
    (other ≠ buf → (u.noteWithdrawn ctx buf).everWithdrawn ctx other = u.everWithdrawn ctx other) ∧
    (u.noteWithdrawn ctx buf).mem = u.mem ∧ (u.noteWithdrawn ctx buf).groups = u.groups) ∧
  (∀ (g : Guard), ReachesNext (.adopt g) g none none none none (fun e l th _ u v => let tid := e.group * 32 + l
    (th.region = none → v = goesOn e l th u) ∧
    ∀ p d, th.region = some p → u.desc? e.ctx p.buf = some d →
      (d.retracted = false → p.edition = d.num → p.backing = d.cur → v = goesOn e l th u) ∧
      (u.thread? tid = some th → u.memOk → (d.retracted = true → v.thread? tid = some { th with region := none, status := .wait (.adopt p.buf) }) ∧
        (d.retracted = false → ¬(p.edition = d.num ∧ p.backing = d.cur) →
          v.thread? tid = some { th.advance with region := some ⟨p.buf, d.cur, d.num⟩ } ∧ ⟨e.ctx, p.buf, d.cur, d.num, .thread tid⟩ ∈ v.pins)))) ∧
  (∀ (g : Guard) (pat : LanePat) (sc : Scope) (d : Operand) (a : Src), ReachesNext (.pub g pat sc d a) g (some d) (srcP pat .whole a) none none
    (fun e l th r u v => (u.restartable e = true → ¬inHandler th → v = trapsAt e l th 0x15 0 u) ∧
      (u.restartable e = false → u.uncreated e.core e.ctx (r.a.toNat % 2 ^ 54) = true →
        u.check e.core e.ctx r.a 1 1 (kindNeed .publish) = .error (.trap 0x0D) → ¬inHandler th →
        ∃ new : List (Nat × Nat), v = settled e l (trapsAt e l th 0x11 r.a { u with reports := u.reports ++ new })) ∧
      (u.restartable e = false → r.poisoned = false → u.uncreated e.core e.ctx (r.a.toNat % 2 ^ 54) = false → CheckFails e l th r.a 1 1 .publish u v ∧
        ∀ buf ds w, ToBuffer e r.a .publish buf ds u w → (∀ p ∈ w.publications, ¬(p.ctx = e.ctx ∧ p.buf = buf)) →
          ∀ x, w.before e l .rel sc = some x →
            (∀ p ∈ x.dies, ∀ q ∈ p.2.tiles, q.2.ctx = e.ctx → some (buf, 1 - ds.cur) ∈ q.2.eds → q.2.holders = []) →
            v = waitsAt e l th (.pub buf (.pub g pat sc d a)) { x.startTime (.pub e.ctx buf) with
              publications := x.publications ++ [⟨e.ctx, buf, e.group * 32 + l, []⟩],
              agenda := x.agenda ++ (x.coresOf e.ctx).map (fun c => .pubFirstPhaseAck c e.ctx buf) })))

/-- R111, R112, R242, R320, R346, R350, R351: the steps of a PUB. A core acknowledges once no access of it that an older edition resolved is still to
be performed, a thread's that waits after its check among them, and no engine's (log entry 60); it drops its leaves of the buffer. With every core's
acknowledgement the edition commits as one event: the draft becomes current, the number steps, a retraction ends, no copy in an L1 is taken out
(R85, log entry 65), and the publishing thread gets the number; every thread that waits for the edition enters it and pins it with the commit, and goes on after
it. The event of a code publication extends the chain and stands in the log of the context's area (R404, R408). -/
def Obligations.EditionCommits : Prop :=
  (∀ (s : State) (core ctx buf : Nat), let k := s.coreOf core
    let resolved := fun (b : Option (Nat × Nat)) => ∃ back, b = some (buf, back)
    let open_ := (∃ p ∈ k.pend, p.ctx = ctx ∧ resolved p.buf) ∨ (∃ p ∈ k.pendAtomics, p.ctx = ctx ∧ resolved p.buf) ∨
      (∃ g ∈ s.groups, coreOfGroup g.1 = core ∧ g.2.ctx = ctx ∧ ∃ x ∈ g.2.threads, x.2.status = .run ∧
        ∃ a ∈ x.2.passed, a.pc = x.2.pc ∧ ∃ y ∈ a.xs, resolved y.ed) ∨ s.engineOpen ctx buf = true
    (∃ p ∈ s.publications, p.ctx = ctx ∧ p.buf = buf ∧ core ∉ p.acks) →
    (open_ → exec (.pubFirstPhaseAck core ctx buf) s = .next (s.push (.pubFirstPhaseAck core ctx buf))) ∧
    (¬open_ → ∃ t, exec (.pubFirstPhaseAck core ctx buf) s = .next t ∧ .pubCommit ctx buf ∈ t.agenda ∧ t.mem = s.mem ∧ t.groups = s.groups ∧
      (∀ p ∈ t.publications, p.ctx = ctx → p.buf = buf → core ∈ p.acks) ∧
      (∀ x ∈ (t.coreOf core).tlb, x ∈ k.tlb ∧ ¬(x.ctx = ctx ∧ x.leaf.getLsbD 8 = true ∧ x.leaf.toNat / 2 ^ 16 % 2 ^ 12 = buf)))) ∧
  (∀ (s : State) (ctx buf : Nat) (p : Publication) (d : Desc) (c : Context) (th : Thread) (g : Guard) (pat : LanePat) (sc : Scope)
      (dst : Operand) (a : Src) (got : Got),
    s.memOk → s.publications = [p] → p.ctx = ctx → p.buf = buf → s.context? ctx = some c → s.desc? ctx buf = some d →
    s.thread? p.thread = some th → th.status = .wait (.pub buf (.pub g pat sc dst a)) → (∀ k ∈ s.coresOf ctx, k ∈ p.acks) →
    (∀ q ∈ s.dies, ∀ x ∈ q.2.tiles, x.2.ctx = ctx → some (buf, 1 - d.cur) ∈ x.2.eds → x.2.holders = [] ∧ x.2.recalling = false) →
    (∀ e : Env, e.group = p.thread / 32 →
      collect e (p.thread % 32) { th with status := .run } (some dst) (srcP pat .whole a) none none = .ok got) →
    ∃ t, exec (.pubCommit ctx buf) s = .next t ∧ t.publications = [] ∧ t.memOk ∧
      (∃ d', t.desc? ctx buf = some d' ∧ d'.cur = 1 - d.cur ∧ d'.num = (d.num + 1) % 2 ^ 32 ∧ d'.retracted = false ∧
        d'.code = d.code ∧ d'.pages = d.pages ∧ d'.withdrawn = d.withdrawn ∧ pinCount d' d.cur = pinCount d d.cur) ∧
      ((∀ q ∈ s.groups, q.2.ctx = ctx → ∀ x ∈ q.2.threads, x.2.status ≠ .wait (.edition buf) ∧ x.2.status ≠ .wait (.adopt buf)) →
        (∀ core e q, (s.engineOf core e).seq = some q → q.waiting ≠ .edition buf) →
        t.desc? ctx buf = some { d with cur := 1 - d.cur, num := (d.num + 1) % 2 ^ 32, retracted := false } ∧ t.pins = s.pins) ∧
      (∀ tid x gr, s.thread? tid = some x → Table.find s.groups (tid / 32) = some gr → gr.ctx = ctx →
        x.status = .wait (.edition buf) ∨ x.status = .wait (.adopt buf) →
        t.thread? tid = some { x with region := some ⟨buf, 1 - d.cur, (d.num + 1) % 2 ^ 32⟩ } ∧
        ⟨ctx, buf, 1 - d.cur, (d.num + 1) % 2 ^ 32, .thread tid⟩ ∈ t.pins) ∧
      (∀ core, (t.coreOf core).l1 = (s.coreOf core).l1) ∧
      t.thread? p.thread = some (got.t.put got.d (BitVec.ofNat 64 ((d.num + 1) % 2 ^ 32))).advance ∧
      .editionAwaitRelease ctx buf ∈ t.agenda ∧
      ((d.code = false ∨ c.codePolicy = 0) → t.contexts = s.contexts) ∧
      (d.code = true → c.codePolicy = 1 → t.context? ctx = some (c.extend (publicationEvent buf ((d.num + 1) % 2 ^ 32) 0)))) ∧
  (∀ (s : State) (ctx : Nat) (c : Context) (ev : List Byte), s.memOk → s.context? ctx = some c → let t := s.logEvent ctx ev
    t.context? ctx = some (c.extend ev) ∧
    (c.logged + ev.length ≤ 0x100000 →
      (∀ i, i < ev.length → Memory.byte t.mem (c.area + 0x150000 + c.logged + i) = ev.getD i 0) ∧
      ∀ a, ¬(c.area + 0x150000 + c.logged ≤ a ∧ a < c.area + 0x150000 + c.logged + ev.length) → Memory.byte t.mem a = Memory.byte s.mem a) ∧
    (¬c.logged + ev.length ≤ 0x100000 → t.mem = s.mem)) ∧
  (∀ (s : State) (ctx buf : Nat) (d : Desc), s.memOk → s.desc? ctx buf = some d → ∀ tid th gr, s.thread? tid = some th →
    Table.find s.groups (tid / 32) = some gr → gr.ctx = ctx → th.status = .wait (.edition buf) ∨ th.status = .wait (.adopt buf) →
    (s.enterWaiters ctx buf).thread? tid = some { th with region := some ⟨buf, d.cur, d.num⟩ } ∧
    ⟨ctx, buf, d.cur, d.num, .thread tid⟩ ∈ (s.enterWaiters ctx buf).pins) ∧
  (∀ (s : State) (ctx buf : Nat), ∃ t, exec (.editionAwaitRelease ctx buf) s = .next t ∧ t.mem = s.mem ∧
    ∀ tid th gr, s.thread? tid = some th → Table.find s.groups (tid / 32) = some gr → gr.ctx = ctx →
      let inside := ∃ p, th.region = some p ∧ p.buf = buf
      (inside → th.status = .wait (.edition buf) → t.thread? tid = some { th with status := .run }) ∧
      (inside → th.status = .wait (.adopt buf) → t.thread? tid = some ({ th with status := .run } : Thread).advance) ∧
      (¬inside → t.thread? tid = some th))
/-! ## Engines and their programs -/

/-- R97, R99, R100, R240, R245, R247, R248: CPY, CPYT, GATH, COLL, EDCOPY, VCMD and ENGQ. A command is accepted with the next number while the core
has fewer than 16 incomplete, and else its thread waits; a COLL is also its participant's next collective at its level; ENGQ answers what the engine
knows of a command, of a status only among the 64 most recently accepted, and .wait waits for a pending one and takes the trap of one that failed.
Model's choices: GATH's modifier bit 0 says nothing (log entry 14), EDCOPY's pointer is checked at issue (log entry 48) and with no bit of the leaf
(log entry 64). -/
def Obligations.EngineWords : Prop :=
  (∀ (o : Ter Unit) (dstSpad srcSpad : Bool), EngineWord (.cpy o dstSpad srcSpad) o.g o.d (srcA o.pat .whole o.a) (srcB o.pat .whole o.b)
    (srcN .whole o.c) .bulk (fun _ => []) (fun r => .cpy r.a r.b r.c dstSpad srcSpad)) ∧
  (∀ (o : Bin Unit), EngineWord (.cpyt o) o.g o.d (srcA o.pat .whole o.a) (srcB o.pat .whole o.b) none .bulk (fun r => [r.a, r.b])
    (fun r => .cpyt r.a r.b)) ∧
  (∀ (o : Ter Unit) (dstSpad idxSpad : Bool), EngineWord (.gath o dstSpad idxSpad) o.g o.d (srcA o.pat .whole o.a) (srcB o.pat .whole o.b)
    (srcN .whole o.c) .gather (fun r => [r.a, r.b]) (fun r => .gath r.a r.b r.c idxSpad)) ∧
  (∀ (g : Guard) (pat : LanePat) (d : Operand) (a : Src) (lvl : Fin 8), ReachesNext (.coll g pat d a lvl) g (some d) (srcP pat .whole a) none none
    (fun e l th r u v => let n := (u.engineOf e.core .coll).next
      (r.a.toNat % 8 ≠ 0 → ¬inHandler th → v = trapsAt e l th 0x0E r.a u) ∧
      (r.a.toNat % 8 = 0 → r.poisoned = false →
        (16 ≤ (u.engineOf e.core .coll).queue.length → v = waitsAt e l th (.engine .coll) u) ∧
        ((u.engineOf e.core .coll).queue.length < 16 → ∃ k counts,
          v = goesOn e l (r.t.put r.d (BitVec.ofNat 64 n.toNat)) { accepted e.core .coll e.ctx (e.group * 32 + l) (e.g.grid * 2 ^ 24 + e.g.block)
            (.coll r.a lvl.val) none u with
            colls := u.colls ++ [k], collCounts := counts } ∧
          k.core = e.core ∧ k.num = n ∧ k.grid = e.g.grid ∧ k.level = lvl.val ∧ k.desc = [] ∧
          ⟨k.grid, k.level, k.member, k.part, k.seq + 1⟩ ∈ counts ∧
          (∀ c ∈ u.collCounts, c.grid = k.grid → c.level = k.level → c.member = k.member → c.part = k.part →
            ∃ c0 ∈ u.collCounts, c0.grid = k.grid ∧ c0.level = k.level ∧ c0.member = k.member ∧ c0.part = k.part ∧ k.seq = c0.next))))) ∧
  (∀ (g : Guard) (pat : LanePat) (d : Operand) (a : Src), ReachesNext (.edcopy g pat d a) g (some d) (srcP pat .whole a) none none
    (fun e l th r u v => u.restartable e = false → r.poisoned = false → CheckFails e l th r.a 1 1 .publish u v ∧
      ∀ buf ds w, ToBuffer e r.a .publish buf ds u w →
        ((w.engineOf e.core .bulk).queue.length < 16 → v = goesOn e l (r.t.put r.d (BitVec.ofNat 64 (w.engineOf e.core .bulk).next.toNat))
          (accepted e.core .bulk e.ctx (e.group * 32 + l) (e.g.grid * 2 ^ 24 + e.g.block) (.edcopy buf) none w)) ∧
        (16 ≤ (w.engineOf e.core .bulk).queue.length → v = waitsAt e l th (.engine .bulk) w))) ∧
  (∀ (g : Guard) (pat : LanePat) (d : Operand) (a : Src) (eng : Fin 16), ReachesNext (.vcmd g pat d a eng) g (some d) (srcP pat .whole a) none none
    (fun e l th r u v => let m := u.mediaOf eng.val
      let n := Table.getD m.next e.core 0
      let mine := (m.queue.filter (fun c => decide (c.core = e.core))).length
      (r.a.toNat % 64 ≠ 0 → ¬inHandler th → v = trapsAt e l th 0x0E r.a u) ∧
      (r.a.toNat % 64 = 0 → r.poisoned = false →
        (16 ≤ mine → v = waitsAt e l th (.media eng.val) u) ∧
        (mine < 16 → ∃ c wr, v = goesOn e l (r.t.put r.d (BitVec.ofNat 64 n.toNat)) ((u.setMedia eng.val { m with
            next := Table.set m.next e.core (n + 1), wrapped := wr, queue := m.queue ++ [c] }).push (.mediaCommandStart eng)) ∧
          c.num = n ∧ c.core = e.core ∧ c.ctx = e.ctx ∧ c.thread = e.group * 32 + l ∧
          c.block = e.g.grid * 2 ^ 24 + e.g.block ∧ c.ptr = r.a ∧ c.phase = .queued ∧ c.fetched = [])))) ∧
  (∀ (g : Guard) (pat : LanePat) (wait : Bool) (d : Operand) (a : Src) (kind : Fin 4) (media : Fin 16),
    ReachesNext (.engq g pat wait d a kind media) g (some d) (srcP pat .whole a) none none (fun e l th r u v =>
      ∀ k w, (∃ en, (kind.val = 0 ∧ en = Eng.bulk ∨ kind.val = 1 ∧ en = Eng.gather ∨ kind.val = 2 ∧ en = Eng.coll) ∧ w = Wait.engine en ∧
          knownOf (u.engineOf e.core en) (r.a.setWidth 32) k) ∨
        (kind.val = 3 ∧ w = Wait.media media.val ∧ knownMedia (u.mediaOf media.val) e.core (r.a.setWidth 32) k) → r.poisoned = false →
        (wait = true → k = .pending → v = waitsAt e l th w u) ∧
        (∀ st, wait = true → k = .status st → waitTraps kind.val st → ¬inHandler th →
          v = trapsAt e l th st.cause (BitVec.ofNat 64 (r.a.toNat % 2 ^ 32 + st.status * 2 ^ 32 + kind.val * 2 ^ 40)) u) ∧
        ((wait = false ∨ k ≠ .pending ∧ ∀ st, k = .status st → ¬waitTraps kind.val st) → v = goesOn e l (r.t.put r.d (queryWord k)) u)))

/-- R97 to R100, R102, R108, R246: the steps of a command. A CPY of no bytes ends at once, one of more than 2^32 is malformed, and one within a
scratchpad moves its bytes; a command that has ended leaves its queue, its status is kept, its pins go, and a place frees; who waits on the engine
goes on. A collective completes when all its participants have contributed: with descriptors that differ every one ends with status 1; an integer
sum is the sum of all sources; with one participant its destination gets its source. -/
def Obligations.EngineSteps : Prop :=
  (∀ (s : State) (core : Nat) (e : Eng) (c : Cmd) (rest : List Cmd) (dst src len : Word) (ds ss : Bool),
    (s.engineOf core e).queue = c :: rest → c.phase = .queued → c.op = .cpy dst src len ds ss →
    let ends := fun (status cause : Nat) => (((s.setEngine core e { s.engineOf core e with
      queue := (c :: rest).map (fun q => if q.num = c.num then { q with phase := .done status cause } else q) }).unqueue (.engine core e)).push
        (.engineCommandComplete core e))
    (len = 0 → exec (.engineCommandStart core e) s = .next (ends 0 0)) ∧
    (2 ^ 32 < len.toNat → exec (.engineCommandStart core e) s = .next (ends 1 0x02)) ∧
    (∀ b, 0 < len.toNat → len.toNat ≤ 2 ^ 32 → ds = true → ss = true → c.ranges = [] → Table.find s.blocks c.block = some b →
      src.toNat + len.toNat ≤ b.scratch → dst.toNat + len.toNat ≤ b.scratch → b.core = core → b.spadPoison = [] →
      (s.coreOf core).banks = [] → (s.coreOf core).held = [] → (s.coreOf core).waiters = [] →
      ∃ t b', exec (.engineCommandStart core e) s = .next t ∧ Table.find t.blocks c.block = some b' ∧
        b'.spad = Memory.write b.spad dst.toNat len.toNat (Memory.read b.spad src.toNat len.toNat) ∧ t.mem = s.mem ∧
        (t.engineOf core e).queue = (c :: rest).map (fun q => if q.num = c.num then
          { q with phase := .done 0 0, ranges := q.ranges ++ [[], []] } else q) ∧
        .engineCommandComplete core e ∈ t.agenda)) ∧
  (∀ (s : State) (core : Nat) (e : Eng) (c : Cmd) (rest : List Cmd) (n cause : Nat), let g := s.engineOf core e
    g.queue = c :: rest → c.phase = .done n cause → c.fork = none →
    let u := (s.setEngine core e { g with
      queue := rest, done := (g.done ++ [(⟨c.num, n, cause, 0⟩ : CmdStatus)]).filter (fun d => decide ((g.next - 1 - d.num).toNat < 64)) }).unpinAll c.ctx (.command core e c.num.toNat)
    exec (.engineCommandComplete core e) s = .next { u with
      colls := u.colls.filter (fun x => !(decide (x.core = core) && decide (x.num = c.num))),
      agenda := u.agenda ++ [.engineSlotFreed core e] ++ (if rest = [] then [] else [.engineCommandStart core e]) }) ∧
  (∀ (s : State) (core : Nat) (e : Eng), let u := { s with groups := s.groups.map (fun p => (p.1, if p.1 / 32 = core then
      { p.2 with threads := p.2.threads.map (fun q => (q.1, if q.2.status = .wait (.engine e) then { q.2 with status := .run } else q.2)) } else p.2)) }
    ((s.engineOf core e).seq = none → exec (.engineSlotFreed core e) s = .next u) ∧
    (∀ q, (s.engineOf core e).seq = some q → q.waiting = .slot → .sequencerStep core e ∉ s.agenda →
      exec (.engineSlotFreed core e) s = .next { u with agenda := u.agenda ++ [.sequencerStep core e] })) ∧
  (∀ (s : State) (grid level member seq : Nat), let here := s.colls.filter (fun c => decide (c.grid = grid) && decide (c.level = level) &&
      decide (c.member = member) && decide (c.seq = seq) && !c.desc.isEmpty)
    (∀ c ∈ here, ∃ i, i < c.parts ∧ ∀ x ∈ here, x.part ≠ i) → exec (.collectiveComplete grid level member seq) s = .next s) ∧
  (∀ (s : State) (c x : CollEntry) (mine other : Cmd), s.colls = [c, x] → c.grid = x.grid → c.level = x.level → c.member = x.member →
    c.seq = x.seq → c.parts = 2 → c.part = 0 → x.part = 1 → c.core ≠ x.core →
    (s.engineOf c.core .coll).queue = [mine] → mine.num = c.num → (s.engineOf x.core .coll).queue = [other] → other.num = x.num →
    (∃ v w, c.desc = [v] ∧ x.desc = [w] ∧ (fieldAt v 16 6 ≠ fieldAt w 16 6 ∨ fieldAt v 24 4 ≠ fieldAt w 24 4)) →
    ∃ t, exec (.collectiveComplete c.grid c.level c.member c.seq) s = .next t ∧ t.mem = s.mem ∧
      (t.engineOf c.core .coll).queue = [{ mine with phase := .done 1 0x02 }] ∧ (t.engineOf x.core .coll).queue = [{ other with phase := .done 1 0x02 }] ∧
      .engineCommandComplete c.core .coll ∈ t.agenda ∧ .engineCommandComplete x.core .coll ∈ t.agenda) ∧
  (∀ (s : State) (c : CollEntry) (mine : Cmd) (v : Nat) (b : Block), s.colls = [c] → c.parts = 1 → c.part = 0 → c.desc = [v] →
    c.src = [] → c.dst = [] → (s.engineOf c.core .coll).queue = [mine] → mine.num = c.num → Table.find s.blocks mine.block = some b →
    b.core = c.core → b.spadPoison = [] → (s.coreOf c.core).banks = [] → (s.coreOf c.core).held = [] → (s.coreOf c.core).waiters = [] →
    ∀ d, parseColl v 1 = some d → d.dstSpad = true → d.srcSpad = true → let n := d.count * collBytes d.elem
    d.src.toNat + n ≤ b.scratch → d.dst.toNat + n ≤ b.scratch → ∃ t b', exec (.collectiveComplete c.grid c.level c.member c.seq) s = .next t ∧
      Table.find t.blocks mine.block = some b' ∧ b'.spad = Memory.write b.spad d.dst.toNat n (Memory.read b.spad d.src.toNat n) ∧
      (t.engineOf c.core .coll).queue = [{ mine with phase := .done 0 0 }]) ∧
  (∀ (d : CollDesc) (part : Nat) (srcs : List Nat), d.op = 0 → d.elem < 8 → srcs ≠ [] → ∀ i, i < d.count →
    elemAt (collResult d part srcs) (collBytes d.elem) i =
      (srcs.map (fun v => elemAt v (collBytes d.elem) i)).sum % 2 ^ (8 * collBytes d.elem))

/-- R103, R104, R249, R347: engine programs. FORK starts a program on each engine whose pointer is not 0, with lane 0's v0 to v15 as e0 to e15; RDV
answers 0 with no FORK outstanding, waits while a program of the latest FORK runs or a command of one is not complete, and else answers the first
failed status in engine order. That FORK consumes v0 to v15 of lane 0, so that a poisoned one takes trap 0x18, is the model's reading (log entry
72). A sequencer's word writes e registers and predicates, branches, issues commands, or ends the program; a word that R103 does not list
ends it with status 1. -/
def Obligations.EnginePrograms : Prop :=
  (∀ (g : Guard) (pat : Pat) (a b c : Src), GroupReaches (.fork g pat a b c) g none (srcA pat .whole a) (srcB pat .whole b) (srcN .whole c)
    (fun s e got t => let starts := [(Eng.bulk, (got 0).a, 0), (Eng.gather, (got 0).b, 1), (Eng.coll, (got 0).c, 2)]
      let busy := (∃ f, e.g.fork = some f ∧ f.running ≠ []) ∨ ∃ x ∈ starts, x.2.1 ≠ 0 ∧ (s.engineOf e.core x.1).seq ≠ none
      let bad := fun (th : Thread) => (∃ x ∈ starts, x.2.1 ≠ 0) ∧ ∃ n, n < 16 ∧ n ∈ th.poisoned
      ∀ th, Table.find e.g.threads 0 = some th →
      (bad th → outsideHandlers e → t = settled0 e (allTrap e 0x18 0 s)) ∧ (¬bad th → busy → t = s) ∧
      (¬bad th → ¬busy →
        (∀ x ∈ starts, (t.engineOf e.core x.1).seq = (if x.2.1 = 0 then (s.engineOf e.core x.1).seq else some
            { pc := x.2.1, ctx := e.ctx, group := e.group, fork := e.g.forks, e := (List.range 16).map (fun i => (i, Table.getD th.v i 0)), p := 0, region := none,
              waiting := .none }) ∧ (x.2.1 ≠ 0 → .sequencerStep e.core x.1 ∈ t.agenda)) ∧
        Table.find t.groups e.group = some { e.g with
          threads := e.g.threads.map (fun p => (p.1, (got p.1).t.advance)), forks := e.g.forks + 1,
          fork := some ⟨e.g.forks, (starts.filter (fun x => decide (x.2.1 ≠ 0))).map (fun x => x.2.2), []⟩ } ∧ t.mem = s.mem ∧ t.blocks = s.blocks))) ∧
  (∀ (g : Guard) (d : Operand), GroupReaches (.rdv g d) g (some d) none none none (fun s e got t =>
    (e.g.fork = none → t = allWrite e got 0 s) ∧
    ∀ f, e.g.fork = some f →
      let left := f.running ≠ [] ∨ ∃ p ∈ s.cores, ∃ en, ∃ c ∈ (p.2.engine en).queue, c.fork = some f.num ∧ c.thread / 32 = e.group
      (left → t = allWait e .rdv s) ∧
      (¬left → t = s.setGroup e.group { e.g with fork := none, threads := e.g.threads.map (fun p =>
        (p.1, ((got p.1).t.put (got p.1).d (BitVec.ofNat 64 (firstFailed f))).advance)) }))) ∧
  (∀ (s u : State) (core : Nat) (e : Eng) (q : Seq) (x : Context) (w : Word) (gr : Group) (gd : Grid) (ins : Instr) (g : Guard),
    (s.engineOf core e).seq = some q → q.waiting = .none ∨ q.waiting = .slot →
    Table.find s.contexts q.ctx = some x → x.phase = .running → q.region = none →
    s.fetchWord (.engine core e) core q.ctx none q.pc = (u, .got w none) → let base := u.unqueue (.engine core e)
    Table.find base.groups q.group = some gr → Table.find base.grids gr.grid = some gd → decodeWord gd.top w = .ok ins →
    let goes := fun (q' : Seq) => exec (.sequencerStep core e) s = .next (seqGoesOn core e { q' with pc := pcPlus q.pc 8 } base)
    let ends := fun (n : Nat) => exec (.sequencerStep core e) s = .next (base.endSeq core e n)
    let reg := fun (n : Nat) => Table.getD q.e n 0
    (listedWord e ins = false → ends 1) ∧ (seqForm e ins = none → ends 1) ∧ (seqForm e ins = some g → g.p.val < 4) ∧
    (seqForm e ins = some g → (decide (g.p = 0) || q.p.getLsbD g.p.val) = g.neg → goes q) ∧
    (seqForm e ins = some g → (decide (g.p = 0) || q.p.getLsbD g.p.val) ≠ g.neg →
      (ins = .exit g → ends 0) ∧
      (∀ df off, ins = .bra g df off → exec (.sequencerStep core e) s = .next (seqGoesOn core e { q with pc := pcPlus q.pc (8 * off.toInt) } base)) ∧
      (∀ n z imm, n < 16 → ins = .movi g (.reg n) z imm →
        goes { q with e := Table.set q.e n.val (if z then imm.setWidth 64 else imm.signExtend 64) }) ∧
      (∀ n m imm, n < 16 → m < 16 → ins = .addi ⟨g, .reg n, .reg m, imm⟩ false →
        goes { q with e := Table.set q.e n.val (reg m.val + imm.signExtend 64) }) ∧
      (∀ n m k la lb, n < 16 → m < 16 → k < 16 → ins = .add ⟨g, ⟨.ident, false⟩, .i64, .reg n, ⟨.reg m, la⟩, ⟨.reg k, lb⟩⟩ false →
        goes { q with e := Table.set q.e n.val (reg m.val + reg k.val) }) ∧
      (∀ n m k c la lb lc dst src, n < 16 → m < 16 → k < 16 → c < 16 → e = .bulk → (base.engineOf core .bulk).queue.length < 16 →
        ins = .cpy ⟨g, ⟨.ident, false⟩, (), .reg n, ⟨.reg m, la⟩, ⟨.reg k, lb⟩, ⟨.reg c, lc⟩⟩ dst src →
        exec (.sequencerStep core e) s = .next (seqGoesOn core e { q with
          e := Table.set q.e n.val (BitVec.ofNat 64 (base.engineOf core .bulk).next.toNat), pc := pcPlus q.pc 8 }
          (accepted core .bulk q.ctx (q.group * 32) (gr.grid * 2 ^ 24 + gr.block) (.cpy (reg m.val) (reg k.val) (reg c.val) dst src)
            (some q.fork) base)))))
/-! ## The matrix path -/

/-- R280 to R299: the eight words of the matrix path, which take trap 0x1A in a group that does not hold it. MBLD and MARB read bit-plane tensors; a
word waits for what is under way; a bad k, row or range is trap 0x02; MMA, MBLD and MDRAIN end later; MZERO clears rows, MRD and MWR move a row
between a tile and four registers of every lane. That MWR's lane pattern applies to each of the four registers is the model's reading (log entry
15). -/
def Obligations.MatrixWords : Prop :=
  (∀ (g : Guard) (pat : LanePat) (glob : Bool) (a : Src) (planes : Fin 9),
    PathWord (.mbld g pat glob a planes) g none none (srcP pat .whole a) none none (fun m s e got t =>
      (m.loads ≠ [] → t = s) ∧
      (m.loads = [] → ∀ u v, s.matRead (e.mat s false) glob (got 0).a (planes.val * 8192) = (u, .ok v) → t = settled0 e (allGo e got
        ((withMatrix e.core { (u.coreOf e.core).matrix with
          loads := (u.coreOf e.core).matrix.loads ++ [⟨planeTable v 65536 planes.val⟩] } u).push (.mbldComplete e.core)))))) ∧
  (∀ (v n S i : Nat), i < n → S ≤ 8 → Table.getD (planeTable v n S) i 0 = topPlanes v n S i) ∧
  (∀ (g : Guard), PathWord (.mbswp g) g none none none none none (fun m s e got t =>
    ((m.loads ≠ [] ∨ m.mmas ≠ []) → t = s) ∧
    (m.loads = [] → m.mmas = [] → t = settled0 e (allGo e got (withMatrix e.core { m with active := !m.active } s))))) ∧
  (∀ (g : Guard) (pat : Pat) (glob : Bool) (a b : Src) (rows1 : Fin 64),
    PathWord (.marb g pat glob a b rows1) g none none (srcA pat .whole a) (srcB pat .whole b) none (fun m s e got t =>
      let k := (got 0).b.toNat
      (k < 2 ∨ 8 < k → allEnter e 0x02 → t = settled0 e (allTrap e 0x02 e.word s)) ∧
      (2 ≤ k → k ≤ 8 → m.mmas ≠ [] → t = s) ∧
      (2 ≤ k → k ≤ 8 → m.mmas = [] → ∀ u v, s.matRead (e.mat s false) glob (got 0).a (32 * k * (rows1.val + 1)) = (u, .ok v) →
        t = settled0 e (allGo e got ((withMatrix e.core { (u.coreOf e.core).matrix with
          rows := planeTable v (256 * (rows1.val + 1)) k, kload := k } u).unmark e.group 11))))) ∧
  (∀ (s : State) (c : MatCtx) (p : Word) (n : Nat) (b : Block), let u := s.spadDrain c.core
    p.toNat % 16 = 0 → c.poisoned = false → Table.find s.blocks c.block = some b → p.toNat + n ≤ b.scratch →
    (∀ g, Table.find u.groups c.group = some g → g.spadCount = 0) → ∀ b', Table.find u.blocks c.block = some b' →
    (∀ w ∈ b'.spadPoison, 8 * w + 8 ≤ p.toNat ∨ p.toNat + n ≤ 8 * w) → s.matRead c false p n = (u, .ok (Memory.read b'.spad p.toNat n))) ∧
  (∀ (g : Guard) (tile : Fin 2) (planes : Fin 9), PathWord (.mma g tile planes) g (some tile.val) none none none none (fun m s e got t =>
    ((∃ j ∈ m.drains, j.tile = tile.val) → t = s) ∧
    ((∀ j ∈ m.drains, j.tile ≠ tile.val) → (∀ n ∈ [11, (if m.active then 13 else 12), 9 + tile.val], n ∉ e.g.poisoned) →
      t = settled0 e (allGo e got ((withMatrix e.core { m with mmas := m.mmas ++ [⟨tile.val, planes.val⟩] } s).push (.mmaComplete e.core)))))) ∧
  (∀ (g : Guard) (pat : LanePat) (tile : Fin 2) (a : Src) (count1 : Fin 64),
    PathWord (.mzero g pat tile a count1) g (some tile.val) none (srcP pat .whole a) none none (fun m s e got t =>
      let first := (got 0).a.toNat
      let idle := (∀ j ∈ m.drains, j.tile ≠ tile.val) ∧ ∀ j ∈ m.mmas, j.tile ≠ tile.val
      (64 < first + count1.val + 1 → allEnter e 0x02 → t = settled0 e (allTrap e 0x02 e.word s)) ∧
      (first + count1.val + 1 ≤ 64 → ¬idle → t = s) ∧
      (first + count1.val + 1 ≤ 64 → idle → ∃ m', t = settled0 e (allGo e got (if count1.val = 63 then (withMatrix e.core m' s).unmark e.group (9 + tile.val)
          else withMatrix e.core m' s)) ∧ m' = m.setTile tile.val (m'.tile tile.val) ∧
        ∀ r c, c < 256 → m'.acc tile.val r c = if first ≤ r ∧ r < first + count1.val + 1 then 0 else m.acc tile.val r c))) ∧
  (∀ (g : Guard) (pat : LanePat) (n : Fin 128) (tile : Fin 2) (b : Src),
    PathWord (.mrd g pat n tile b) g (some tile.val) none none (srcP pat .whole b) none (fun m s e got t => let r := (got 0).b.toNat
      (64 ≤ r → allEnter e 0x02 → t = settled0 e (allTrap e 0x02 e.word s)) ∧
      (r < 64 → (∃ j ∈ m.mmas, j.tile = tile.val) → t = s) ∧
      (r < 64 → (∀ j ∈ m.mmas, j.tile ≠ tile.val) → 9 + tile.val ∉ e.g.poisoned →
        let row := fun (l j : Nat) => BitVec.ofNat 64 ((m.acc tile.val r (64 * j + l)).toNat + 2 ^ 32 * (m.acc tile.val r (64 * j + 32 + l)).toNat)
        t = s.setGroup e.group { e.g with threads := e.g.threads.map (fun p => (p.1,
          ((((((got p.1).t.setV n.val (row p.1 0)).setV (n.val + 1) (row p.1 1)).setV (n.val + 2) (row p.1 2)).setV (n.val + 3)
            (row p.1 3))).advance)) }))) ∧
  (∀ (g : Guard) (pat : Pat) (tile : Fin 2) (n : Fin 128) (lastA : Bool) (b : Src),
    PathWord (.mwr g pat tile n lastA b) g (some tile.val) none (srcA pat .whole ⟨.reg n, lastA⟩) (srcB pat .whole b) none (fun m s e got t =>
      let r := (got 0).b.toNat
      let value := fun (l j : Nat) => match Table.find e.g.threads l with
        | some th => readV e l th pat.forA .whole (n.val + j)
        | none => 0
      let whole := ∀ p ∈ e.g.threads, ∀ j, j < 4 → e.g.vPoisoned p.1 p.2 (pat.forA.source p.1) (n.val + j) = false
      let idle := (∀ j ∈ m.drains, j.tile ≠ tile.val) ∧ ∀ j ∈ m.mmas, j.tile ≠ tile.val
      (64 ≤ r → allEnter e 0x02 → t = settled0 e (allTrap e 0x02 e.word s)) ∧
      (r < 64 → whole → ¬idle → t = s) ∧
      (r < 64 → whole → idle → t = allGo e got (withMatrix e.core (m.setTile tile.val ((List.range 256).foldl (fun x c =>
        Table.put x (256 * r + c) (rowElement value c) 0) (m.tile tile.val))) s)))) ∧
  (∀ (g : Guard) (pat : Pat) (d : Operand) (tile : Fin 2) (a : Src) (n : Fin 128) (lastB : Bool) (k : Fin 128) (lastC : Bool) (sel : Fin 7)
      (add clr : Bool), PathWord (.mdrain g pat d tile a n lastB k lastC sel add clr) g (some tile.val) (some d) (srcA pat .whole a)
    (srcB pat .whole ⟨.reg n, lastB⟩) (srcN .whole ⟨.reg k, lastC⟩) (fun m s e got t =>
      let byte := fun (w : Word) (i : Nat) => BitVec.ofNat 8 (elemN 8 w i)
      let rows := (List.range 64).map (fun r => byte (got (r % 32)).b (sel.val + r / 32))
      let cols := (List.range 256).map (fun c => byte (got (c % 32)).c (c / 32))
      let rec_ := (got 0).a
      (rec_.toNat % 64 ≠ 0 → outsideHandlers e → t = settled0 e (allTrap e 0x0E rec_ s)) ∧
      (rec_.toNat % 64 = 0 → (∃ j ∈ m.drains, j.tile = tile.val) → t = s) ∧
      (rec_.toNat % 64 = 0 → (∀ j ∈ m.drains, j.tile ≠ tile.val) → 16 ≤ (s.engineOf e.core .bulk).queue.length → t = allWait e (.engine .bulk) s) ∧
      (rec_.toNat % 64 = 0 → (∀ j ∈ m.drains, j.tile ≠ tile.val) → (s.engineOf e.core .bulk).queue.length < 16 →
        t = allWrite e got (BitVec.ofNat 64 (s.engineOf e.core .bulk).next.toNat) (withMatrix e.core { m with drains := m.drains ++ [⟨tile.val, clr, false⟩] }
          (accepted e.core .bulk e.ctx (e.group * 32) (e.g.grid * 2 ^ 24 + e.g.block) (.mdrain tile.val rec_ rows cols add clr) none s)))))

/-- R288, R291, R295, R296: what ends in the background. A load reaches the bank that is not active; an MMA adds the products of the row buffer and
the active bank to each element of its tile, clamped, with MSAT where the clamp acted, whatever a mask of this cycle clears (R195); a tile that the engine has read is no longer draining, and is
zero under .clr. The drained value of an element is rounded once from the exact scaled sum. -/
def Obligations.MatrixSteps : Prop :=
  (∀ (s : State) (core : Nat) (l : BankLoad) (rest : List BankLoad), let m := (s.coreOf core).matrix
    m.loads = l :: rest → ∃ t, exec (.mbldComplete core) s = .next t ∧ (t.coreOf core).matrix =
      (if m.active then { m with loads := rest, bank0 := l.data } else { m with loads := rest, bank1 := l.data }) ∧ t.mem = s.mem ∧
      (m.holder = none → t.groups = s.groups) ∧
      ∀ g gr, m.holder = some g → Table.find s.groups g = some gr → Table.find t.groups g =
        some { gr with poisoned := gr.poisoned.filter (fun n => n ≠ if m.active then 12 else 13) }) ∧
  (∀ (s : State) (core : Nat) (j : MmaJob) (rest : List MmaJob), let m := (s.coreOf core).matrix
    m.mmas = j :: rest → j.tile < 2 → ∃ t m', exec (.mmaComplete core) s = .next t ∧ (t.coreOf core).matrix = m' ∧
      m' = { m with mmas := rest, a0 := m'.a0, a1 := m'.a1 } ∧ m'.tile (1 - j.tile) = m.tile (1 - j.tile) ∧
      (∀ r c, r < 64 → c < 256 → m'.acc j.tile r c = BitVec.ofInt 32 (clamped31 (productSum m j.tile j.planes r c))) ∧
      (∀ sat : Prop, (sat ↔ ∃ r c, r < 64 ∧ c < 256 ∧ clamped31 (productSum m j.tile j.planes r c) ≠ productSum m j.tile j.planes r c) →
        (¬sat → t.groups = s.groups) ∧ ∀ g gr, sat → m.holder = some g → Table.find s.groups g = some gr →
          Table.find t.groups g = some { gr with gstat := gr.gstat ||| gstatMSAT, gseen := gr.gseen ||| gstatMSAT }) ∧ t.mem = s.mem) ∧
  (∀ (s : State) (core : Nat), let m := (s.coreOf core).matrix
    (∀ j ∈ m.drains, j.tile < 2) → ∃ t m', exec (.drainingEnd core) s = .next t ∧ (t.coreOf core).matrix = m' ∧
      m'.drains = m.drains.filter (fun j => !j.read) ∧ (∀ n, n < 2 → m'.tile n =
        if m.drains.any (fun j => j.read && j.clr && decide (j.tile = n)) then [] else m.tile n) ∧ t.mem = s.mem ∧ t.blocks = s.blocks) ∧
  (∀ (t : FType) (v : BitVec 32) (er ec : Nat), v.toInt ≠ 0 → 0 < er → er < 255 → 0 < ec → ec < 255 →
    drainValue t v er ec = (roundF t .rn (decide (v.toInt < 0)) v.toInt.natAbs ((er : Int) + ec - 254)).1)
/-! ## Sidings, joins and launches -/

/-- R253, R315, R317, R331 to R333, R435: SPUSH pushes its record once its release is done and the siding has room, and else waits; SPOP takes the newest
eligible record of its core's siding, the oldest of its die's, or the oldest of the first core in the steal's order that has one, and four zeros
where there is none; a record that waited is pushed when there is room, one at a time, in order. A record takes a place in the context's area
(R404), the lowest that is free (log entry 52), and a push is a request of its own, which waits for an identifier (R372). Model's readings: SPUSH's
lane pattern applies to each register of its range (log entry 15), and a pop from the die's siding takes over the clock kept with the record (log
entry 47). -/
def Obligations.Sidings : Prop :=
  (∀ (g : Guard) (pat : LanePat) (n : Fin 128) (last die : Bool),
    ReachesNext (.spush g pat n last die) g none (srcP pat .whole ⟨.reg n, last⟩) none none (fun e l th r u v =>
      let w := fun (j : Nat) => readV e l th pat .whole (n.val + j)
      let key := ownSiding e die
      (u.restartable e = true → ¬inHandler th → v = trapsAt e l th 0x15 0 u) ∧
      (u.restartable e = false → ¬flagsGood u e (w 3) → entersOn th 0x02 → v = trapsAt e l th 0x02 e.word u) ∧
      (u.restartable e = false → flagsGood u e (w 3) → (w 0).toNat % 8 ≠ 0 → entersOn th 0x0E → v = trapsAt e l th 0x0E (w 0) u) ∧
      (u.restartable e = false → flagsGood u e (w 3) → (w 0).toNat % 8 = 0 → r.poisoned = false →
        (∀ j, j < 4 → e.g.vPoisoned l th (pat.source l) (n.val + j) = false) → ∀ x, u.before e l .rel (if die then .die else .core) = some x →
        (¬roomIn x key → v = waitsAt e l th (.siding key (.spush g pat n last die))
          { x with deferred := x.deferred ++ [⟨key, e.group * 32 + l, recordOf x e (w 0) (w 1) (w 2) (w 3), none⟩] }) ∧
        (roomIn x key → x.idsBusy e.core 1 = false → ∃ i, FreeSlot x key i ∧
          v = goesOn e l r.t ((pushedTo key (recordOf x e (w 0) (w 1) (w 2) (w 3)) i x).requested (e.core / 40) e.core 0)) ∧
        (roomIn x key → x.idsBusy e.core 1 = true → v = x)))) ∧
  (∀ (g : Guard) (n : Fin 128) (sel : Fin 3), ReachesNext (.spop g n sel) g none none none none (fun e l _ r u v =>
    let own := ownSiding e false
    let mine := ownSiding e true
    let at_ := fun (k : Nat) => Table.getD u.sidings k []
    let nothing := v = goesOn e l (fourRegs r.t n.val 0 0 0 0) u
    u.restartable e = false →
      (∀ x rest, sel ≠ 1 → newestOf u e.g (at_ own) x rest → v = popped e l n.val own rest x r.t u (fun a => a)) ∧
      (∀ x rest, sel = 1 ∨ sel = 2 ∧ noneIn u e.g own → oldestOf u e.g (at_ mine) x rest →
        v = popped e l n.val mine rest x r.t u (fun a => a.jumpTo e.core x.clock)) ∧
      (∀ before c after x rest, sel = 2 → noneIn u e.g own → noneIn u e.g mine → stealOrder e.core = before ++ c :: after →
        (∀ b ∈ before, noneIn u e.g (sidingFor e.ctx b)) → oldestOf u e.g (at_ (sidingFor e.ctx c)) x rest →
        v = popped e l n.val (sidingFor e.ctx c) rest x r.t u (fun a => a.jumpTo e.core (a.coreOf c).clock)) ∧
      (sel = 0 → noneIn u e.g own → nothing) ∧ (sel = 1 → noneIn u e.g mine → nothing) ∧
      (sel = 2 → noneIn u e.g own → noneIn u e.g mine → (∀ c ∈ stealOrder e.core, noneIn u e.g (sidingFor e.ctx c)) → nothing))) ∧
  (∀ c, c < 320 → let die := c / 40
    (∀ i j, i < 40 → stealOrder c = (stealOrder c).eraseDups ∧ (die * 40 + i ∈ stealOrder c ↔ die * 40 + i ≠ c) ∧
      (j < 3 → (stealOrder c).getD j 0 = die * 40 + (c % 40 ^^^ (j + 1))))) ∧
  (∀ (s : State) (key : Nat), ¬roomIn s key → exec (.spushRoom key) s = .next s ∧ exec (.joinDeferredPush key) s = .next s) ∧
  (∀ (s : State) (key i : Nat) (before after : List Deferred) (d : Deferred), s.deferred = before ++ d :: after → (∀ x ∈ before, x.siding ≠ key) →
    d.siding = key → d.undo = none → roomIn s key → FreeSlot s key i → s.idsBusy (d.thread / 1024) 1 = false →
    ∃ t, exec (.spushRoom key) s = .next t ∧ t.deferred = before ++ after ∧ t.mem = (pushedTo key d.r i s).mem ∧
      t.sidings = (pushedTo key d.r i s).sidings ∧
      ∀ g pat n last die th gr got, s.thread? d.thread = some th → Table.find s.groups (d.thread / 32) = some gr →
        th.status = .wait (.siding key (.spush g pat n last die)) →
        (∀ e : Env, e.group = d.thread / 32 →
          collect e (d.thread % 32) { th with status := .run } none (srcP pat .whole ⟨.reg n, last⟩) none none = .ok got) →
        t.thread? d.thread = some got.t.advance) ∧
  (∀ (s : State) (key i : Nat) (before after : List Deferred) (d : Deferred), s.deferred = before ++ d :: after → (∀ x ∈ before, x.siding ≠ key) →
    d.siding = key → d.undo ≠ none → roomIn s key → FreeSlot s key i → s.idsBusy (d.thread / 1024) 1 = false →
    ∃ t, exec (.joinDeferredPush key) s = .next t ∧ t.deferred = before ++ after ∧ t.mem = (pushedTo key d.r i s).mem ∧
      t.sidings = (pushedTo key d.r i s).sidings ∧
      ∀ g pat sc dst a die th gr got, s.thread? d.thread = some th → Table.find s.groups (d.thread / 32) = some gr →
        th.status = .wait (.joinPush key (.join g pat sc dst a die)) →
        (∀ e : Env, e.group = d.thread / 32 →
          collect e (d.thread % 32) { th with status := .run } (some dst) (srcP pat .whole a) none none = .ok got) →
        t.thread? d.thread = some (got.t.put got.d 0).advance)

/-- R254, R255, R327, R328, R435: JOIN counts its block down once and tells the count, all ones where it was 0; the decrement to 0 pushes the record,
or waits for room with the decrement done. LAUNCH copies a packet to its queue's next slot and tells its number, or bit 63 where the queue is full. Model's choices: JOIN checks all 40 bytes
with the rights of an atomic access (log entry 51), and a queue number above 63 is one that is not configured, with the number in tval (log entry
64). -/
def Obligations.JoinsAndLaunches : Prop :=
  (∀ (g : Guard) (pat : LanePat) (sc : Scope) (d : Operand) (a : Src) (die : Bool),
    ReachesNext (.join g pat sc d a die) g (some d) (srcP pat .whole a) none none (fun e l th r u v =>
      u.restartable e = false → (∀ old p, th.answer = some (old, p) →
        JoinRest e l { th with answer := none } { r with t := { r.t with answer := none } } p old die (.join g pat sc d a die) u v) ∧
      (th.answer = none → CheckFails e l th r.a 40 8 .atomic u v ∧
      ∀ xs x w, Passes e r.a 40 8 .atomic xs u w → xlatAt xs (r.a.toNat % 2 ^ 54) = some x → w.draftPinned e.ctx xs = false →
        let pa := x.pa + (r.a.toNat % 2 ^ 54 - x.va)
        w.tenureOf e.core e.ctx (lineOf pa) ≠ .read → (∀ y ∈ xs, isAperture y.pa = false) → r.poisoned = false →
        w.poisonVa e.core xs (r.a.toNat % 2 ^ 54) 8 = none → (w.coreOf e.core).pendingOf (e.group * 32 + l) = false →
        ∀ y y1 out, w.before e l .ar sc = some y →
          y.atomicThrough (.thread (e.group * 32 + l)) e.core e.ctx (y.leaseOf e.g.grid) x (r.a.toNat % 2 ^ 54) 8 .join 0 = (y1, out) →
          (∀ old, out = .done old → JoinRest e l th r r.a old die (.join g pat sc d a die) y1 v) ∧
          (out = .sent → v = settled e l (waitsAt e l th (.atomic r.a) y1)) ∧ (out = .wait → v = y1.holdPassed (e.group * 32 + l) th ⟨th.pc, r.a, 2, xs⟩)))) ∧
  (∀ n b : Nat, ReplOp.new .join b n = if n = 0 then 0 else n - 1) ∧
  (∀ (o : Bin Unit), ReachesNext (.launch o) o.g (some o.d) (srcA o.pat .whole o.a) (srcB o.pat .whole o.b) none (fun e l th r u v =>
    u.restartable e = false →
      (r.b.toNat % 64 ≠ 0 → ¬inHandler th → v = settled e l (trapsAt e l th 0x0E r.b u)) ∧
      (r.b.toNat % 64 = 0 → u.queue? e.ctx r.a.toNat = none → ¬inHandler th → v = settled e l (trapsAt e l th 0x0A r.a u)) ∧
      ∀ q, r.b.toNat % 64 = 0 → u.queue? e.ctx r.a.toNat = some q → CheckFails e l th r.b 64 64 .load u v ∧
        ∀ xs w, Passes e r.b 64 64 .load xs u w → (∀ y ∈ xs, isAperture y.pa = false) → r.poisoned = false →
          w.poisonVa e.core xs (r.b.toNat % 2 ^ 54) 64 = none → ∀ y y1 packet, w.before e l .rel .pkg = some y →
          y.loadOwn e l xs (r.b.toNat % 2 ^ 54) 64 = (y1, some packet) →
          (q.depth ≤ q.waiting.length → v = givesResult e l r (BitVec.ofNat 64 (2 ^ 63)) y1) ∧
          (q.waiting.length < q.depth → y1.idsBusy e.core 1 = false → ∀ z, y1.enqueue (.thread (e.group * 32 + l)) e.ctx r.a.toNat q packet e.g.grid = (z, true) →
            v = givesResult e l r (BitVec.ofNat 64 q.next.toNat) (z.requested 8 e.core q.next.toNat)))) ∧
  (∀ (s : State) (who : Accessor) (ctx q packet parent : Nat) (lq : LaunchQueue) (c : Context), s.context? ctx = some c → lq.depth ≠ 0 →
    let slot := lq.base + 64 * (lq.next.toNat % lq.depth)
    slot % 64 = 0 → slot + 64 ≤ 2 ^ 38 → lineIdle s (slot / 128) → ∃ t, s.enqueue who ctx q lq packet parent = (t, true) ∧
      t.context? ctx = some { c with queues := Table.set c.queues q { lq with next := lq.next + 1, waiting := lq.waiting ++ [lq.next.toNat] } } ∧
      .gridStart ctx q ∈ t.agenda ∧ t.groups = s.groups ∧
      t.mem = Memory.write s.mem slot 64 (packet % 2 ^ 128 + lq.next.toNat * 2 ^ 128 + fieldAt packet 20 12 * 2 ^ 160 + parent % 2 ^ 64 * 2 ^ 256 +
        fieldAt packet 40 24 * 2 ^ 320))
/-! ## Issue, faults and the yard -/

/-- R195, R215, R216, R338, R339: one cycle of a lane-set. What issues is ready threads of groups that may issue, at their own program counters,
at most one thread of each lane, at two addresses at most, in a new cycle of the group status register where CONV releases; something issues if any thread is ready, and, while no pick stands and none has
waited 64 cycles, the thread that has waited longest issues. An issued thread has waited 0 cycles, a ready one that did not issue one more. A
YIELD interval ends when no other thread of the lane is owed an issue, or after 64 cycles; CONV releases a group whose live threads all wait at
one CONV, once it may issue, and raises trap 0x06 where they wait at several. -/
def Obligations.Scheduling : Prop :=
  (∀ (s : State) (core laneSet : Nat), ∃ t new, exec (.issueSelection core laneSet) s = .next t ∧ t.issue = s.issue ++ new ∧ t.mem = s.mem ∧
    t.agenda = s.agenda ∧
    (∀ i ∈ new, i.core = core ∧ i.slot / 8 = laneSet ∧ i.lanes ≠ [] ∧
      ∀ l ∈ i.lanes, ∃ th, ReadyAt s core laneSet (i.slot % 8) l th ∧ th.pc = i.pc) ∧
    (∀ i ∈ new, ∀ j ∈ new, ∀ l, l ∈ i.lanes → l ∈ j.lanes → i = j) ∧
    (∃ x y : Word, ∀ i ∈ new, i.pc = x ∨ i.pc = y) ∧
    ((∃ k l th, ReadyAt s core laneSet k l th) → new ≠ []) ∧
    (∀ k l th, (∀ n, Table.find (s.coreOf core).picks n = none) → ReadyAt s core laneSet k l th → th.waited < 64 →
      (∀ k' l' th', ReadyAt s core laneSet k' l' th' → (k', l') ≠ (k, l) → th'.waited < th.waited) →
      ∃ i ∈ new, i.slot = laneSet * 8 + k ∧ l ∈ i.lanes) ∧
    (∀ k l th, ReadyAt s core laneSet k l th → ∃ g' th', Table.find t.groups (core * 32 + (laneSet * 8 + k)) = some g' ∧
      Table.find g'.threads l = some th' ∧ th' = { th with waited := th'.waited } ∧
      ((∃ i ∈ new, i.slot = laneSet * 8 + k ∧ l ∈ i.lanes) → th'.waited = 0) ∧
      ((∀ i ∈ new, i.slot = laneSet * 8 + k → l ∉ i.lanes) → th'.waited = th.waited + 1))) ∧
  (∀ (s : State) (core slot lane since : Nat) (peers : List Nat) (th : Thread), let id := (core * 32 + slot) * 32 + lane
    let owed := fun (k : Nat) => ∃ p, s.thread? ((core * 32 + slot / 8 * 8 + k) * 32 + lane) = some p ∧ isReady p
    s.thread? id = some th → th.yieldAt = some (since, peers) →
    ((since + 64 ≤ s.cycle ∨ ∀ k ∈ peers, ¬owed k) → exec (.yieldExpiry core slot lane) s = .next (s.setThread id { th with yieldAt := none })) ∧
    (s.cycle < since + 64 → (∃ k ∈ peers, owed k) → ∃ left, exec (.yieldExpiry core slot lane) s =
      .next ((s.setThread id { th with yieldAt := some (since, left) }).push (.yieldExpiry core slot lane)) ∧
      ∀ k, k ∈ left ↔ k ∈ peers ∧ owed k)) ∧
  (∀ (s : State) (core slot : Nat) (g : Group), let key := core * 32 + slot
    let live := g.threads.filter (fun p => decide (p.2.status ≠ .retired))
    Table.find s.groups key = some g → Table.sorted g.threads = true → (∀ p ∈ g.threads, p.1 < 32) →
    ((∃ p ∈ live, p.2.status ≠ .wait .conv) → exec (.convRelease core slot) s = .next s) ∧
    (live ≠ [] → (∀ p ∈ live, p.2.status = .wait .conv) → s.mayIssue key g = false →
      exec (.convRelease core slot) s = .next (s.push (.convRelease core slot))) ∧
    (∀ pc, live ≠ [] → (∀ p ∈ live, p.2.status = .wait .conv ∧ p.2.pc = pc) → s.mayIssue key g = true →
      exec (.convRelease core slot) s = .next { s.setGroup key { g with gseen := g.gstat, gsets := 0, threads := g.threads.map (fun p =>
          (p.1, if p.2.status = .retired then p.2 else { p.2 with status := .run, pc := pcPlus p.2.pc 8, waited := 0 })) } with
        issue := s.issue ++ [⟨core, slot, pcPlus pc 8, live.map (fun p => p.1), 0, true⟩] }) ∧
    ((∀ p ∈ live, p.2.status = .wait .conv ∧ ¬inHandler p.2) → (∃ p ∈ live, ∃ q ∈ live, p.2.pc ≠ q.2.pc) → s.mayIssue key g = true →
      ∃ odd t g', exec (.convRelease core slot) s = .next t ∧ Table.find t.groups key = some g' ∧ ∀ p ∈ g.threads,
        Table.find g'.threads p.1 = some (if p.2.status = .retired then p.2
          else entered p.2 0x06 (BitVec.ofNat 64 odd) p.2.pc (s.tvecOf g.ctx))))

/-- R367 to R371, R377, R405: recoverable faults. A thread's fault is written to its die's ring with the next number, and interrupt 16 raised if
every earlier entry had been answered; where the ring is full, it waits until a slot frees. FAULT_REPLAY makes the entries up to a number
replayable: their threads go on at their word, and an entry leaves once none does. FAULT_CANCEL of a thread's entry raises trap 0x0D in every
live thread of its group whose word has had no effect yet or that is parked, at that word. The entry of a thread whose group stands in a drain
tracker's entry names the slot that the group left (log entry 75). -/
def Obligations.FaultQueues : Prop :=
  (∀ (s : State) (tid kind : Nat) (addr : Word) (leaf : Bool) (g : Group) (th : Thread) (c : Context), let die := tid / 1024 / 40
    let q := queueOf c die
    Table.find s.groups (tid / 32) = some g → s.thread? tid = some th → Table.find s.contexts g.ctx = some c → q.waiting = [] →
    (¬ringFull q → let t := s.park tid kind addr leaf
      t.thread? tid = some { th with status := .park die q.next } ∧
      t.mem = Memory.write s.mem (ringAt c die q.next) 32 (entryBytes addr q.next g.ctx kind (if leaf then 4 else 0) (g.left.elim tid (fun k => k * 32 + tid % 32)) g.grid g.block g.lidx1 0) ∧
      t.interrupts = s.interrupts ++ (if q.entries.all (fun e => decide (e.state ≠ .unanswered)) then [⟨16, die, g.ctx⟩] else []) ∧
      ∃ c' e, Table.find t.contexts g.ctx = some c' ∧ queueOf c' die = { q with next := (q.next + 1) % 2 ^ 32, entries := q.entries ++ [e] } ∧
        e.seq = q.next ∧ e.addr = addr ∧ e.thread = tid ∧ e.state = .unanswered) ∧
    (ringFull q → let t := s.park tid kind addr leaf
      t.thread? tid = some { th with status := .parkFull } ∧ t.mem = s.mem ∧ t.interrupts = s.interrupts ∧
      ∃ c' e, Table.find t.contexts g.ctx = some c' ∧ queueOf c' die = { q with waiting := [e] } ∧ e.addr = addr ∧ e.thread = tid)) ∧
  (∀ (s : State) (die ctx : Nat) (c : Context) (e : FaultEntry) (th : Thread) (g : Group), let q := queueOf c die
    Table.find s.contexts ctx = some c → c.phase = .running → q.waiting = [e] → e.engine = none → e.flags / 2 % 2 = 0 → e.flags % 2 = 0 →
    Table.find s.groups (e.thread / 32) = some g → s.thread? e.thread = some th → th.status = .parkFull → ¬ringFull q → ∃ t, exec (.faultQueueSlotFreed die ctx) s = .next t ∧
      t.thread? e.thread = some { th with status := .park die q.next } ∧
      t.mem = Memory.write s.mem (ringAt c die q.next) 32 (entryBytes e.addr q.next ctx e.kind e.flags (g.left.elim e.thread (fun k => k * 32 + e.thread % 32)) e.grid e.block e.lidx1 e.cmd) ∧
      t.interrupts = s.interrupts ++ (if q.entries.all (fun x => decide (x.state ≠ .unanswered)) then [⟨16, die, ctx⟩] else []) ∧
      ∃ c', Table.find t.contexts ctx = some c' ∧
        queueOf c' die = { next := (q.next + 1) % 2 ^ 32, entries := q.entries ++ [{ e with seq := q.next }], waiting := [] }) ∧
  (∀ (s : State) (ctx die n : Nat) (c : Context), Table.find s.contexts ctx = some c → let t := s.answerReplay ctx die n
    .replayReexecution die ctx ∈ t.agenda ∧ .faultQueueSlotFreed die ctx ∈ t.agenda ∧ t.groups = s.groups ∧
    ∃ c', Table.find t.contexts ctx = some c' ∧ (queueOf c' die).entries = (queueOf c die).entries.map (fun e =>
      if e.state = .unanswered ∧ (n + 2 ^ 32 - e.seq % 2 ^ 32) % 2 ^ 32 < 2 ^ 31 then { e with state := .replayable } else e)) ∧
  (∀ (s : State) (die ctx : Nat) (c : Context) (e : FaultEntry) (th : Thread), Table.find s.contexts ctx = some c → c.phase = .running →
    (queueOf c die).entries = [e] → e.state = .replayable → e.engine = none → e.flags / 2 % 2 = 0 → e.flags % 2 = 0 →
    s.thread? e.thread = some th → ∃ t, exec (.replayReexecution die ctx) s = .next t ∧
      (th.status = .park die e.seq → t.thread? e.thread = some { th with status := .run, replay := some (die, e.seq) } ∧
        .replayReexecution die ctx ∈ t.agenda ∧ t.mem = s.mem) ∧
      (th.status ≠ .park die e.seq → th.replay ≠ some (die, e.seq) → t.groups = s.groups ∧
        ∃ c', Table.find t.contexts ctx = some c' ∧ (queueOf c' die).entries = [])) ∧
  (∀ (s : State) (ctx die n : Nat) (c : Context) (e : FaultEntry) (g : Group), Table.find s.contexts ctx = some c → c.phase = .running →
    (queueOf c die).entries = [e] → (∀ p ∈ c.faults, p.1 ≠ die → p.2.entries = [] ∧ p.2.waiting = []) → (queueOf c die).waiting = [] →
    Table.sorted c.faults = true → e.seq = n → n < 2 ^ 32 → e.state = .unanswered → e.engine = none → e.flags / 2 % 2 = 0 →
    Table.find s.groups (e.thread / 32) = some g → g.ctx = ctx → Table.sorted g.threads = true → (∀ p ∈ g.threads, p.1 < 32 ∧ ¬inHandler p.2 ∧ (p.2.begun = false ∨ p.2.status = .parkFull ∨ ∃ n, p.2.status = .park die n)) →
    let t := s.answerCancel ctx die n
    (∃ c', Table.find t.contexts ctx = some c' ∧ (queueOf c' die).entries = []) ∧ t.mem = s.mem ∧
    ∃ g', Table.find t.groups (e.thread / 32) = some g' ∧ ∀ p ∈ g.threads, Table.find g'.threads p.1 = some
      (if p.2.status = .retired then p.2 else entered { p.2 with yieldAt := none, replay := none, answer := none } 0x0D e.addr p.2.pc c.tvec))
/-- R322 to R330, R334 to R337: grids and the yard. A launch packet that breaks R328 ends without a grid, one whose parent runs waits, and one that
fits starts its grid under a tag that is not 0 and that no running grid has. A round of a die's yard admits a waiting block where it is placed:
its groups start with every thread at the grid's entry. A block that has waited 2^20 fabric cycles, also one to be relaunched, reserves a core, the one with the most free
registers, unless another block holds it; for one that fits nowhere the running context of the lowest base priority, which is the highest of its
grids' that have blocks (log entry 33), is pre-empted whole. A grid with nothing left to run ends, once every replicated update that some die has
applied has reached all, whether it has a completion word or not (log entries 25 and 63). -/
def Obligations.GridsAndBlocks : Prop :=
  (∀ (s u : State) (ctx queue seq : Nat) (rest : List Nat) (lq : LaunchQueue) (p : Nat),
    s.queue? ctx queue = some lq → lq.waiting = seq :: rest → runs s ctx → runs u ctx →
    s.yardRead ctx (physParts (lq.base + 64 * (seq % lq.depth)) 64 0) = (u, some p) → u.grids.length < 256 →
    let freed := fun (x : State) => ((x.endTime (.packet ctx queue seq)).setQueue ctx queue { lq with waiting := rest }).pushOnce (.gridStart ctx queue)
    (∀ g, Table.find u.grids (fieldAt p 32 8) = some g → exec (.gridStart ctx queue) s = .next u) ∧
    (Table.find u.grids (fieldAt p 32 8) = none →
      (fieldAt p 24 8 = 0 → (fieldAt p 21 3 ≠ 0 ∨ fieldAt p 40 24 ≠ 0 ∨ fieldAt p 8 8 % 8 ≠ 0 ∨ fieldAt p 0 8 % 64 ≠ 0 ∨
          (7 < fieldAt p 20 1 ∧ fieldAt p 20 1 ≠ 0xFF)) →
        exec (.gridStart ctx queue) s = .next (freed u)) ∧
      (∀ x, u.readRecord ctx p = (x, .wait) → exec (.gridStart ctx queue) s = .next (x.push (.gridStart ctx queue))) ∧
      (∀ x, fieldAt p 24 8 = 0 → u.readRecord ctx p = (x, .bad) → exec (.gridStart ctx queue) s = .next (freed x)) ∧
      (∀ x v, u.readRecord ctx p = (x, .got v) → x.grids = u.grids →
        (fieldAt v 8 1 = 1 ∧ 2 ≤ fieldAt v 9 1 ∧ fieldAt v 9 1 ≤ 7 ∧ 1 ≤ fieldAt v 10 1 ∧ fieldAt v 10 1 ≤ 4 ∧ 1 ≤ fieldAt v 11 1 ∧
          fieldAt v 11 1 ≤ 128 ∧ fieldAt v 12 4 % 4096 = 0 ∧ fieldAt v 12 4 + 131072 * fieldAt v 10 1 ≤ 2 ^ 20) ∧
        ((∀ now clock, x.cannotFit (gridOf ctx queue seq p v now clock) = false) →
          ∃ t tag g, exec (.gridStart ctx queue) s = .next t ∧ tag ≠ 0 ∧ tag < 2 ^ 32 ∧ Table.find x.grids tag = none ∧
            Table.find t.grids tag = some g ∧ g.ctx = ctx ∧ g.queue = queue ∧ g.seq = seq ∧
            g.entry = BitVec.ofNat 64 (if fieldAt p 8 8 = 0 then fieldAt v 0 8 else fieldAt p 8 8) ∧ g.top = fieldAt v 9 1 ∧ g.l1 = fieldAt v 10 1 ∧
            g.regs = fieldAt v 11 1 ∧ g.scratch = fieldAt v 12 4 ∧ g.lease = fieldAt v 16 1 ∧ g.tiles = fieldAt v 17 1 ∧
            g.priority = (if fieldAt p 20 1 = 0xFF then fieldAt v 18 1 else fieldAt p 20 1) ∧
            (g.restartable = true ↔ fieldAt v 19 1 = 1) ∧ g.completion = BitVec.ofNat 64 (fieldAt p 24 8) ∧ g.parent = fieldAt p 32 8 ∧
            g.counts = (List.range (fieldAt v 9 1 - 1)).map (fun k => fieldAt v (36 + 8 * k) 4) ∧ (∀ q ∈ x.grids, q.2.order < g.order) ∧
            g.pendingBlocks = List.range (((List.range (fieldAt v 9 1 - 2)).map (fun k => fieldAt v (44 + 8 * k) 4)).prod) ∧
            (∀ d, d < 8 → .yardAdmission d ∈ t.agenda) ∧ t.mem = x.mem)))) ∧
  (∀ (s : State) (ctx pa : Nat), pa % 64 = 0 → pa + 64 ≤ 2 ^ 38 → lineIdle s (pa / 128) → unasked s .host → ∃ u,
    s.yardRead ctx (physParts pa 64 0) = (u, some (Memory.read s.mem pa 64)) ∧ u.mem = s.mem ∧ u.grids = s.grids ∧ u.contexts = s.contexts) ∧
  (∀ (s : State) (die tag : Nat) (g : Grid) (bound : Table Nat) (rooms : List Room) (p : Place), s.grids = [(tag, g)] → runs s g.ctx →
    g.pendingBlocks = [p.block] → (∀ c ∈ s.contexts, c.2.phase ≠ .preempted) →
    s.poolRoom g.ctx p.slots.length = true →
    g.place tag (g.memberAt p.block (g.unitLevel - 2)) s.rooms = some ⟨rooms, bound, [p]⟩ → p.core / 40 = die → p.slots.Nodup →
    ∃ t, exec (.yardAdmission die) s = .next t ∧ Table.find t.grids tag = some { g with members := bound, since := s.fabric, pendingBlocks := [] } ∧
      Table.find t.blocks (keyOf tag p.block) = some
        (⟨g.ctx, tag, p.block, p.core, g.scratch, [], [], [], [], g.restartable, 0, none⟩ : Block) ∧
      (∀ i n, p.slots[i]? = some n → Table.find t.groups (p.core * 32 + n) = some (Group.start g.ctx tag p.block i
        ((List.range 32).map (fun l => (l, Thread.start g.entry (32 * (i + g.lcnt 1 * p.block) + l)))))) ∧
      (t.coreOf p.core).l1cfg = g.l1 ∧ (l1Clean s p.core → t.mem = s.mem)) ∧
  (∀ (s : State) (grid block since : Nat) (g : Grid) (may : Nat → Bool), Table.find s.grids grid = some g → runs s g.ctx → g.members = [] →
    (block ∈ g.pendingBlocks ∧ since = g.started ∧ (∀ c, may c = true)) ∨ (block ∉ g.pendingBlocks ∧
      ∃ r, g.relaunch.find? (fun x => decide (x.block = block)) = some r ∧ since = r.since ∧ may = relaunchAllowed g r) →
    (s.fabric < since + 2 ^ 20 → exec (.blockReservation grid block) s = .next s) ∧
    (since + 2 ^ 20 ≤ s.fabric → (∀ c, (s.coreOf c).reserved ≠ some (keyOf grid block)) →
      let open_ := fun (c : Nat) => c < 320 ∧ (s.coreOf c).inService = true ∧ may c = true
      (∃ c, open_ c) → ∃ c, open_ c ∧ (∀ d, open_ d → freeRegisters s d ≤ freeRegisters s c) ∧
        ((s.coreOf c).reserved ≠ none → exec (.blockReservation grid block) s = .next s) ∧
        ((s.coreOf c).reserved = none →
          exec (.blockReservation grid block) s = .next (s.setCore c { s.coreOf c with reserved := some (keyOf grid block) })))) ∧
  (∀ (s : State) (grid block c : Nat) (g : Grid), let unit := g.memberAt block (g.unitLevel - 2)
    Table.find s.grids grid = some g → block ∈ g.pendingBlocks → runs s g.ctx → g.place grid unit s.rooms = none → s.victim grid g unit = some c →
    (∃ x, (c, x) ∈ s.contexts ∧ c ≠ g.ctx ∧ (x.phase = .running ∨ x.phase = .stopping) ∧ x.failure = none ∧
      s.basePriority (s.runningGrids c) < g.priority ∧ (∀ r, x.restoredAt = some r → r + 2 ^ 20 ≤ s.fabric) ∧
      ∀ d y, (d, y) ∈ s.contexts → d ≠ g.ctx → y.phase = .running ∨ y.phase = .stopping → y.failure = none → s.runningGrids d ≠ [] →
        s.basePriority (s.runningGrids c) ≤ s.basePriority (s.runningGrids d)) ∧
    (s.cutDone c = false → exec (.yardPreemption grid block) s = .next ((s.stopContext c).push (.yardPreemption grid block))) ∧
    (s.cutDone c = true → ∀ x, Table.find s.contexts c = some x → Table.sorted s.groups = true → ∃ t y m, exec (.yardPreemption grid block) s = .next t ∧
      Table.find t.contexts c = some y ∧ y.phase = .preempted ∧ t.images = s.images ++ [m] ∧ m.ctx = c ∧ (∀ b ∈ t.blocks, b.2.ctx ≠ c) ∧
      ∀ k q, Table.find t.groups k = some q → q.ctx ≠ c)) ∧
  (∀ (s : State) (grid : Nat) (g : Grid), Table.find s.grids grid = some g →
    let over_ := g.pendingBlocks = [] ∧ g.relaunch = [] ∧ (∀ b ∈ s.blocks, b.2.grid ≠ grid) ∧
      ∀ c, Table.find s.contexts g.ctx = some c → c.phase ≠ .saved ∧ c.phase ≠ .preempted
    (¬over_ → exec (.gridEnd grid) s = .next s) ∧
    let underWay := ∃ u ∈ s.replicated, u.applied ≠ []
    (over_ → underWay → exec (.gridEnd grid) s = .next (s.push (.gridEnd grid))) ∧
    (over_ → ¬underWay → g.completion = 0 → Table.sorted s.grids = true → ∃ t, exec (.gridEnd grid) s = .next t ∧ Table.find t.grids grid = none ∧
      (∀ b ∈ t.barriers, b.grid ≠ grid) ∧ (∀ p ∈ t.sidings, ∀ r ∈ p.2, r.grid ≠ grid) ∧ (∀ d, d < 8 → .yardAdmission d ∈ t.agenda) ∧
      t.mem = s.mem) ∧
    (over_ → ¬underWay → g.completion ≠ 0 → ∀ x u, s.check 320 g.ctx g.completion 8 8 (kindNeed .store) = .ok [x] → u = x.pa → u < 2 ^ 38 → u % 8 = 0 →
      lineIdle s (u / 128) → unasked s .host → x.repl = false → s.draftPinned g.ctx [x] = false → ∃ t, exec (.gridEnd grid) s = .next t ∧
      t.mem = Memory.write s.mem u 8 (2 ^ 63 + (s.sidings.map (fun p => (p.2.filter (fun r => decide (r.grid = grid))).length)).sum % 2 ^ 32 * 2 ^ 8 +
        (if ∃ c, Table.find s.contexts g.ctx = some c ∧ c.failure = none ∧ c.phase ≠ .ending then 1 else 4))))

/-- R217, R390 to R395: the ends of blocks. A retired group with nothing left under way frees its slot, and one that drains leaves it for the lowest free drain
tracker entry, the matrix path with it while a tile is being drained (log entry 75); with its block's last group the block goes, or a restartable one commits: its buffered stores are performed in order, each at its home. A stopped block is contained: its groups go;
one that is not restartable fails its context, whose other blocks stop, with interrupt 18; a restartable one waits for its relaunch on another core,
its barriers and its counts of collectives as at a start (R431), until its fourth containment. -/
def Obligations.BlockEnds : Prop :=
  (∀ (s : State) (core slot : Nat) (g : Group) (b : Block), let key := core * 32 + slot
    core < 320 → slot < 32 → (s.coreOf core).banks = [] → (∀ l, l < 32 → unasked s (.thread (key * 32 + l))) →
    Table.find s.groups key = some g → Table.find s.blocks (keyOf g.grid g.block) = some b → b.stopped = none →
    ((∃ p ∈ g.threads, p.2.status ≠ .retired) → exec (.drainComplete core slot) s = .next s) ∧
    ((∀ p ∈ g.threads, p.2.status = .retired) → s.drains key = true →
      ((∀ n, n < 16 → Table.find s.groups (trackKey core n) ≠ none) →
        exec (.drainComplete core slot) s = .next (s.push (.drainComplete core slot))) ∧
      (∀ n, n < 16 → Table.find s.groups (trackKey core n) = none → (∀ m, m < n → Table.find s.groups (trackKey core m) ≠ none) →
        Table.sorted s.groups = true → ∃ t, exec (.drainComplete core slot) s = .next t ∧ Table.find t.groups key = none ∧
        Table.find t.groups (trackKey core n) = some { g with left := some key } ∧ .drainComplete core (32 + n) ∈ t.agenda ∧ (∀ d, d < 8 → .yardAdmission d ∈ t.agenda) ∧
        (t.coreOf core).matrix.holder ≠ some key ∧ t.mem = s.mem ∧
        ((s.coreOf core).matrix.holder = some key → (t.coreOf core).matrix = if (s.coreOf core).matrix.drains = [] then Matrix.init
          else { (s.coreOf core).matrix with holder := some (trackKey core n) }))) ∧
    ((∀ p ∈ g.threads, p.2.status = .retired) → s.drains key = false → Table.sorted s.groups = true → Table.sorted s.blocks = true →
      g.holds = [] → ∃ t, exec (.drainComplete core slot) s = .next t ∧ Table.find t.groups key = none ∧ t.mem = s.mem ∧
        (t.coreOf core).matrix.holder ≠ some key ∧
        ((∃ p ∈ s.groups, p.1 ≠ key ∧ p.2.grid = g.grid ∧ p.2.block = g.block) →
          ∃ b', Table.find t.blocks (keyOf g.grid g.block) = some b' ∧ b'.store = b.store) ∧
        ((∀ p ∈ s.groups, p.1 ≠ key → keyOf p.2.grid p.2.block ≠ keyOf g.grid g.block) →
          (b.restartable = true → .blockCommit g.grid g.block ∈ t.agenda) ∧
          (b.restartable = false → Table.find t.blocks (keyOf g.grid g.block) = none ∧ .gridEnd g.grid ∈ t.agenda)))) ∧
  (∀ (s : State) (core n : Nat) (g : Group) (b : Block), let key := trackKey core n
    (s.coreOf core).banks = [] → Table.find s.groups key = some g → Table.find s.blocks (keyOf g.grid g.block) = some b → b.stopped = none →
    (∀ p ∈ g.threads, p.2.status = .retired) → s.drains key = true →
    exec (.drainComplete core (32 + n)) s = .next (s.push (.drainComplete core (32 + n)))) ∧
  (∀ (s : State) (grid block : Nat) (b : Block), Table.find s.blocks (keyOf grid block) = some b → b.restartable = true →
    (∀ u ∈ s.replicated, u.core ≠ b.core) → (∀ m ∈ s.peerSent, m.core ≠ b.core) → unasked s (.posted b.core) →
    (∀ p ∈ s.groups, keyOf p.2.grid p.2.block ≠ keyOf grid block) → Table.sorted s.blocks = true →
    (b.store = [] → ∃ t, exec (.blockCommit grid block) s = .next t ∧ t.blocks = Table.erase s.blocks (keyOf grid block) ∧
      .gridEnd grid ∈ t.agenda ∧ t.mem = s.mem) ∧
    ((∀ x ∈ b.store, ∃ th p loc n v, x = .store th p loc n v ∧ 0 < n ∧ loc + n ≤ 2 ^ 38 ∧ loc % 128 + n ≤ 128 ∧ lineIdle s (loc / 128)) →
      (s.coreOf b.core).pend = [] → (s.coreOf b.core).pendAtomics = [] →
      ∃ t, exec (.blockCommit grid block) s = .next t ∧ t.mem = b.store.foldl (fun m x => match x with
          | .store _ _ loc n v => Memory.write m loc n v.toNat
          | _ => m) s.mem ∧
        Table.find t.blocks (keyOf grid block) = none ∧ .gridEnd grid ∈ t.agenda)) ∧
  (∀ (s : State) (grid block : Nat) (b : Block) (f : Failure) (c : Context), Table.find s.blocks (keyOf grid block) = some b → b.grid = grid →
    b.index = block → b.stopped = some f → allQuiet s → Table.sorted s.groups = true → Table.sorted s.blocks = true →
    Table.find s.contexts b.ctx = some c → c.failure = none → c.phase = .running →
    ∃ t, exec (.blockContainment grid block) s = .next t ∧ Table.find t.blocks (keyOf grid block) = none ∧
      (∀ k g, Table.find t.groups k = some g → keyOf g.grid g.block ≠ keyOf grid block) ∧
      (b.restartable = false ∨ 3 ≤ b.contained → (∃ c', Table.find t.contexts b.ctx = some c' ∧ c'.failure = some f) ∧
        ⟨18, f.die, b.ctx⟩ ∈ t.interrupts ∧ (∀ k x, Table.find t.blocks k = some x → x.ctx = b.ctx → x.stopped ≠ none ∨ commits t k x) ∧
        (∀ p ∈ t.grids, p.2.ctx = b.ctx → p.2.pendingBlocks = [] ∧ p.2.relaunch = [])) ∧
      (b.restartable = true → b.contained < 3 → ∀ g, Table.find s.grids grid = some g → ∃ since g', Table.find t.grids grid = some g' ∧
        g'.relaunch = g.relaunch ++ [⟨block, b.core, b.contained + 1, since⟩] ∧ .blockRelaunch grid block ∈ t.agenda ∧
        let within := fun (level member : Nat) => (level = 1 ∧ member / g.lcnt 1 = block) ∨ (level = 2 ∧ member = g.member block 2)
        (∀ x ∈ t.barriers, x.grid = grid → ¬within x.level x.member) ∧ ∀ x ∈ t.collCounts, x.grid = grid → ¬within x.level x.member)) ∧
  (∀ (s : State) (grid block : Nat) (g : Grid) (r : Relaunch), Table.find s.grids grid = some g → runs s g.ctx →
    g.relaunch.find? (fun x => decide (x.block = block)) = some r →
    (placeBlock g grid block (relaunchAllowed g r) ⟨s.rooms, g.members, []⟩ = none →
      exec (.blockRelaunch grid block) s = .next (s.push (.blockRelaunch grid block))) ∧
    (∀ x, placeBlock g grid block (relaunchAllowed g r) ⟨s.rooms, g.members, []⟩ = some x → s.poolRoom g.ctx (groupsPlaced x.places) = false →
      exec (.blockRelaunch grid block) s = .next (s.push (.blockRelaunch grid block))) ∧
    (∀ x, placeBlock g grid block (relaunchAllowed g r) ⟨s.rooms, g.members, []⟩ = some x → s.poolRoom g.ctx (groupsPlaced x.places) = true →
      ∃ p t g' b, x.places = [p] ∧ p.core ≠ r.core ∧
      (if 2 ∈ g.domains then p.core / 4 = r.core / 4 else p.core / 4 ≠ r.core / 4) ∧ exec (.blockRelaunch grid block) s = .next t ∧
      Table.find t.grids grid = some g' ∧ (∀ y ∈ g'.relaunch, y.block ≠ block) ∧ Table.find t.blocks (keyOf grid block) = some b ∧
      b.core = p.core ∧ b.contained = r.contained ∧ b.store = [] ∧ b.stopped = none ∧ (l1Clean s p.core → t.mem = s.mem)))
/-! ## The device: errors, monitors, clocks and mailboxes -/

/-- R10, R388 to R390, R396, R397, R372, R374: errors. A corrected error is counted over the window, and marks its unit failing at the threshold, with interrupt
17: a core is then withdrawn. An uncorrectable one poisons the word or register that it met, or stops a block, and one of a block that is committing fails its context; a withdrawn core serves no more once
its contexts have left it. A link's replay counts as a corrected error, and so does the loss of a request on a link of its route, row first and to the hub by die 0 or 4 (which of
them is free, log entry 68); a request on record at its home is not performed again. That an error of a committing block's state fails its context
is the model's reading (log entry 34). -/
def Obligations.Errors : Prop :=
  (∀ (s : State) (cls die unit : Nat), let u := { s with errorTimes := errorsNow s cls die unit }
    ((cls, die, unit) ∈ s.failing ∨ countOf s cls die unit < thresholdOf s cls →
      exec (.errorDetected (.corrected cls die unit)) s = .next u) ∧
    ((cls, die, unit) ∉ s.failing → thresholdOf s cls ≤ countOf s cls die unit →
      let v := { u with failing := s.failing ++ [(cls, die, unit)], interrupts := s.interrupts ++ [⟨17, die, 0⟩] }
      exec (.errorDetected (.corrected cls die unit)) s = .next (
        if cls = 0 then v else if cls = 1 then v.push (.coreWithdrawal (die * 40 + unit))
        else if cls = 2 then v.setDie die { s.dieOf die with waysOff := (s.dieOf die).waysOff ++ [unit] }
        else { v with linkLanesOff := s.linkLanesOff ++ [(cls * 16 + die, unit)] }))) ∧
  (∀ (s : State) (pa : Nat), ∃ l, exec (.errorDetected (.memory pa)) s = .next { s with poison := l } ∧ ∀ w, w ∈ l ↔ w ∈ s.poison ∨ w = pa / 8) ∧
  (∀ (s : State) (core slot lane reg : Nat) (g : Group), slot < 32 → lane < 32 → Table.find s.groups (core * 32 + slot) = some g →
    (128 ≤ reg → exec (.errorDetected (.register core slot lane reg)) s =
      .next (s.setGroup (core * 32 + slot) { g with poisoned := g.poisoned ++ [reg - 128] })) ∧
    (∀ th w, reg < 128 → Table.find g.threads lane = some th → Table.find th.v reg = some w →
      exec (.errorDetected (.register core slot lane reg)) s =
        .next (s.setThread ((core * 32 + slot) * 32 + lane) { th with poisoned := th.poisoned ++ [reg] }))) ∧
  (∀ (s : State) (grid block off : Nat) (b : Block), Table.find s.blocks (keyOf grid block) = some b →
    (∃ l, exec (.errorDetected (.scratchpad grid block off)) s = .next (s.setBlock (keyOf grid block) { b with spadPoison := l }) ∧
      ∀ w, w ∈ l ↔ w ∈ b.spadPoison ∨ w = off / 8) ∧
    (b.stopped = none → (∃ p ∈ s.groups, keyOf p.2.grid p.2.block = keyOf grid block) → ∃ t,
      exec (.errorDetected (.blockState grid block)) s = .next t ∧ Stopped s t grid block b 0x18 0 0) ∧
    (∀ c, commits s (keyOf grid block) b → Table.sorted s.blocks = true → Table.find s.contexts b.ctx = some c → c.failure = none → ∃ t c',
      exec (.errorDetected (.blockState grid block)) s = .next t ∧ Table.find t.blocks (keyOf grid block) = none ∧
      Table.find t.contexts b.ctx = some c' ∧ c'.failure = some ⟨0x18, 0, 0, b.grid, b.index, b.core / 40, b.core % 40⟩ ∧
      .gridEnd grid ∈ t.agenda)) ∧
  (∀ (s : State) (core : Nat) (e : Eng) (q : Seq) (g : Group) (b : Block), (s.engineOf core e).seq = some q →
    Table.find s.groups q.group = some g → Table.find s.blocks (keyOf g.grid g.block) = some b → b.stopped = none → ∃ t,
      exec (.errorDetected (.sequencer core e)) s = .next t ∧ Stopped s t g.grid g.block b 0x18 0 q.pc) ∧
  (∀ (s : State) (core : Nat), let here := fun (c : Nat) => ∃ p ∈ s.groups, p.1 / 32 = core ∧ p.2.ctx = c
    ((s.coreOf core).inService = false → exec (.coreWithdrawal core) s = .next s) ∧
    ((s.coreOf core).inService = true → (∀ c, here c → s.cutDone c = true ∧ ¬runs s c) → ∃ t, exec (.coreWithdrawal core) s = .next t ∧
      (t.coreOf core).inService = false ∧ ∀ d, d < 8 → .yardAdmission d ∈ t.agenda) ∧
    ((s.coreOf core).inService = true → (∃ c, here c ∧ (s.cutDone c = false ∨ runs s c)) → ∃ t, exec (.coreWithdrawal core) s = .next t ∧
      .coreWithdrawal core ∈ t.agenda ∧ ∀ c x, here c → Table.find s.contexts c = some x → Table.find t.contexts c =
        some (if x.phase = .running then { x with phase := .stopping } else x))) ∧
  (∀ (s : State) (link lane : Nat), link < 12 → ∀ x ∈ ([(.dieToDie, 3), (.ucie, 4), (.kweusha, 5)] : List (LinkKind × Nat)), ∃ die, die ≤ 8 ∧
    exec (.linkReplay x.1 link lane) s = exec (.errorDetected (.corrected x.2 die (link * 16 + lane))) s) ∧
  (∀ a b, a < 8 → b < 8 → let l := routeDies a b
    l.head? = some a ∧ l.getLast? = some b ∧ l.Nodup ∧ (∀ d ∈ l, d / 4 = a / 4 ∨ d = b) ∧ (∀ i d e, l[i]? = some d → l[i + 1]? = some e → e ∈ neighbours d) ∧
      l.length = (max (a % 4) (b % 4) - min (a % 4) (b % 4)) + (if a / 4 = b / 4 then 1 else 2) ∧
      (boundaries a b).length + 1 = l.length ∧ ∀ x ∈ boundaries a b, x.1 = .dieToDie ∧ x.2 < 10) ∧
  (∀ (s : State) (core id : Nat) (p : PendStore), (s.coreOf core).pend.find? (fun q => decide (q.id.toNat = id)) = some p → p.replicated = false →
    s.requestLinks core id = if isAperture p.pa then toHub (core / 40) ++ (List.range 12).map (fun n => (.kweusha, n))
      else if isControl p.pa then toHub (core / 40) else if isHost p.pa then toHub (core / 40) ++ (List.range 4).map (fun n => (.ucie, n))
      else boundaries (core / 40) (homeOf p.pa)) ∧
  (∀ (s : State) (core id : Nat), s.requestLinks core id = [] → exec (.requestReissue core id) s = .next s) ∧
  (∀ (s : State) (core id : Nat), s.requestLinks core id ≠ [] → ∃ k link lane u, (k, link) ∈ s.requestLinks core id ∧ lane < 16 ∧
    exec (.linkReplay k link lane) { s with free := s.free + 1 } = .next u ∧
    ((∃ r ∈ s.reqRecords, r.core = core ∧ r.id.toNat = id) → exec (.requestReissue core id) s = .next u) ∧
    ((∀ r ∈ s.reqRecords, r.core = core → r.id.toNat ≠ id) → ∃ l, exec (.requestReissue core id) s = .next { u with agenda := u.agenda ++ l } ∧
      .pocStore core ∈ u.agenda ++ l ∧ .pocAtomic core ∈ u.agenda ++ l))

/-- R68, R77, R80, R88, R399, R400, R402, R411, R412, R427: clocks, capture units and mailboxes. Every core's clock advances by one where the lead limit allows
it; an exchange raises each die's reference to the latest of its neighbours' and its own, and a core far behind it. A capture unit that is enabled
for a sample's source and context counts it. A doorbell before ready is ignored, while busy it sets overrun, and else it starts its command; the
command slot takes writes while not busy. The arithmetic clock steps by 100 MHz; the bring-up sets ready in all 16 mailboxes. BOUNDS_INVALIDATION_ACK
and SHOOTDOWN_ACK: a core acknowledges once it has performed what it checked under the entry, and drops that entry, or all of the context's
translations; the walkers of the dies come first, and after them the cores that run the context then; the last one's acknowledgement answers the
command. How much a core waits for and drops is the model's choice (log entry 39). -/
def Obligations.DeviceSteps : Prop :=
  (∀ s : State, (∀ c, c < 320 → ∀ n ∈ neighbours (c / 40),
      leT ((s.coreOf c).clock + 1) (Table.getD (s.dieOf (c / 40)).heard n 0 + 1024) = true) →
    ∃ t, exec .clockSelfAdvance s = .next t ∧ (∀ c, c < 320 → t.coreOf c = { s.coreOf c with clock := (s.coreOf c).clock + 1 }) ∧ t.mem = s.mem) ∧
  (∀ s : State, Table.sorted s.cores = true → ∃ t, exec .referenceExchange s = .next t ∧ t.mem = s.mem ∧
    (∀ d, d < 8 → (t.dieOf d).ref = (neighbours d).foldl (fun x e => maxT x (s.dieOf e).ref) (s.dieOf d).ref) ∧
    (∀ d, d < 8 → ∀ n ∈ neighbours d, Table.getD (t.dieOf d).heard n 0 = (s.dieOf n).ref) ∧
    (∀ c k, c < 320 → Table.find s.cores c = some k → let floor := (t.dieOf (c / 40)).ref - 8192
      (t.coreOf c).clock = if 0 < (floor - k.clock).toNat ∧ (floor - k.clock).toNat < 2 ^ 15 then floor else k.clock)) ∧
  (∀ (s : State) (die source value ctx : Nat), value < 2 ^ 64 → ∃ l, exec (.captureSample die source value ctx) s =
      .next (s.setDie die { s.dieOf die with capture := l }) ∧
    (∀ u, Table.find (s.dieOf die).capture u = none → Table.find l u = none) ∧
    ∀ u c, Table.find (s.dieOf die).capture u = some c → ∃ d, Table.find l u = some d ∧ (captures c source ctx → SampledTo c d value) ∧
      (¬captures c source ctx → d = c)) ∧
  (∀ (s : State) (die unit : Nat), exec (.captureClear die unit) s = .next (s.setDie die { s.dieOf die with
    capture := Table.set (s.dieOf die).capture unit { Capture.init with control := (Table.getD (s.dieOf die).capture unit Capture.init).control } })) ∧
  (∀ (s : State) (m v : Nat), m < 16 → v < 2 ^ 64 → let bell := 0x4000000000 + m * 0x1000
    let x := s.mailboxOf m
    (¬isReadyBox x → exec (.registerWrite bell 8 v) s = .next s) ∧
    (isReadyBox x → isBusyBox x → exec (.registerWrite bell 8 v) s =
      .next { s with overruns := s.overruns ++ [m], agenda := s.agenda ++ [.doorbellOverrun] }) ∧
    (isReadyBox x → ¬isBusyBox x → ∃ y ev, exec (.registerWrite bell 8 v) s = .next { s with
        mailboxes := Table.set s.mailboxes m y, doorbells := s.doorbells ++ [m], agenda := s.agenda ++ [ev] } ∧
      y = { x with doorbell := BitVec.ofNat 64 (v % 2 ^ 32), fromHost := false, status := x.status ||| 0x100000000 } ∧ ev = y.event) ∧
    (∀ i, i < 8 → Table.sorted x.cmd = true → ∃ t, exec (.registerWrite (bell + 0x40 + 8 * i) 8 v) s = .next t ∧ t.mem = s.mem ∧ t.agenda = s.agenda ∧
      ∀ k, cmdWord (t.mailboxOf m) k = if k = i ∧ x.status.getLsbD 32 = false then v else cmdWord x k)) ∧
  (∀ (s : State) (n : Nat) (rest : List Nat), s.overruns = n :: rest → exec .doorbellOverrun s = .next { s with
    overruns := rest, mailboxes := Table.set s.mailboxes n { s.mailboxOf n with status := (s.mailboxOf n).status ||| 0x200000000 } }) ∧
  (∀ s : State, exec .powerClockStep s = .next { s with armMHz := s.armMHz - 100 } ∧
    exec .arithmeticClockRaise s = .next { s with armMHz := min 3300 (s.armMHz + 100) }) ∧
  (∀ s : State, ∃ l, exec .deviceReset s = .next { s with poison := [], mailboxes := l } ∧
    ∀ n, Table.getD l n Mailbox.init = if n < 16 then { s.mailboxOf n with status := (s.mailboxOf n).status ||| 0x8000000000000000 }
      else s.mailboxOf n) ∧
  (∀ (s : State) (a : AckWait) (c : Nat) (rest : List Nat), s.acks = [a] → a.cores = c :: rest →
    let ev : Instr := if a.isBounds = true then .boundsInvalidationAck else .shootdownAck
    let u := if c < 320 then s.setCore c (if a.isBounds = true then
        { s.coreOf c with bounds := (s.coreOf c).bounds.filter (fun b => !(decide (b.ctx = a.ctx) && decide (b.tag = a.key))) }
        else { s.coreOf c with tlb := (s.coreOf c).tlb.filter (fun e => e.ctx ≠ a.ctx) })
      else s.setDie (c - 320) { s.dieOf (c - 320) with walker := (s.dieOf (c - 320)).walker.filter (fun e => e.ctx ≠ a.ctx) }
    (¬performed s c a → exec ev s = .next (s.push ev)) ∧
    let left := if rest = [] ∧ 320 ≤ c then u.coresOf a.ctx else rest
    (performed s c a → left ≠ [] → exec ev s = .next ({ u with acks := [{ a with cores := left }] }.push ev)) ∧
    (performed s c a → left = [] → exec ev s = .next ({ u with acks := [] }.reply a.mb 0 [a.w1])))
/-- R97, R99, R248, R401, R414, R416 to R419: a media command. One outside the limits of R414 ends with status 1; one whose operands are checked
begins its rows. A row, made from the stream, the reference frames and the filtered rows that the engine has taken back, writes its
lines, and is then signalled on the row semaphore and counted, on a replicated page once the signal box has answered; a broken stream stops the
engine; after the last row, none of them owed, the command has its state written and ends with status 0. An encode writes at most its limit of bytes, and ends with status 9 if there were more. A filtered row is
taken from its semaphore. An ended command leaves its queue, its status is kept, its interrupt is raised if it asks for one, and who waits goes on;
a stream error poisons the command's semaphores, ends it with status 7 and empties the queue, with the engine's interrupt. What a codec
reconstructs, and which rows it uses, is uninterpreted (log entry 8). -/
def Obligations.MediaSteps : Prop :=
  (∀ (s : State) (eng : Fin 16) (c : MediaCmd) (rest : List MediaCmd), (s.mediaOf eng.val).queue = c :: rest → c.phase = .queued →
    (∀ x, c.fetched = [] → s.check c.core c.ctx c.ptr 64 1 (kindNeed .engRead) = .ok [x] → x.va = c.ptr.toNat % 2 ^ 54 → x.n = 64 →
      x.ed = none → x.repl = false → x.pa + 64 ≤ 2 ^ 38 → x.pa % 128 + 64 ≤ 128 → lineIdle s (x.pa / 128) → unasked s (.media eng.val) →
      s.poison = [] → c.ptr.toNat % 2 ^ 54 + 64 ≤ 2 ^ 54 → ¬mediaGood (Memory.read s.mem x.pa 64) →
      ∃ t d, exec (.mediaCommandStart eng) s = .next t ∧ (t.mediaOf eng.val).queue = d :: rest ∧ d = { c with
        fetched := d.fetched, desc := 0, phase := .done 1 0x02 } ∧ d.fetched.length = 1 ∧ .mediaCommandComplete eng ∈ t.agenda ∧ t.mem = s.mem) ∧
    (∀ u, s.startMedia eng.val c = (u, .contributed) → ∃ t d, exec (.mediaCommandStart eng) s = .next t ∧ (t.mediaOf eng.val).queue = d :: rest ∧
      d.phase = .rows ∧ d.num = c.num ∧ d.core = c.core ∧ d.row = c.row ∧ mediaGood d.desc ∧ .mediaRow eng ∈ t.agenda)) ∧
  (∀ (s : State) (eng : Fin 16) (c : MediaCmd) (rest : List MediaCmd), (s.mediaOf eng.val).queue = c :: rest → c.phase = .rows → c.op = 0 →
    unasked s (.media eng.val) → let fine := Config.mediaBroken c.params c.stream c.row = false
    let used := c.usedSpans.flatMap (fun p => s.mediaBytes c.core c.outX p.1 p.2)
    let goes := fine ∧ (c.external = false ∨ c.row ≤ c.taken) ∧ s.poison = [] ∧
      partsIdle s (c.usedSpans.flatMap (fun p => sourceParts c.core c.outX p.1 p.2))
    (¬fine → exec (.mediaRow eng) s = .next ((mediaHead eng.val { c with phase := .broken } rest s).push (.mediaStreamError eng))) ∧
    (fine → c.external = true → c.taken < c.row → (c.rows ≤ c.row ∨ c.taken < c.needs) → exec (.mediaRow eng) s =
      .next ((mediaHead eng.val { c with phase := .filtered } rest { s with free := s.free + 1 }).push (.mediaFilteredWait eng))) ∧
    (c.external = false → 16 ≤ c.height → used = []) ∧
    (goes → c.row < c.rows → ∀ parts, parts = mediaParts c.outX (c.rowWrites used) →
      partsIdle s parts → ∃ t, exec (.mediaRow eng) s = .next t ∧ (t.mediaOf eng.val).queue = { c with phase := .signal } :: rest ∧
        .mediaRow eng ∈ t.agenda ∧ t.mem = writtenParts s.mem parts) ∧
    (goes → c.rows ≤ c.row → ∀ parts, parts = mediaParts c.stateX
        [(c.statePtr.toNat % 2 ^ 54, c.stateLen, leNat (Config.mediaState c.params c.stream c.refs used))] →
      partsIdle s parts → ∃ t, exec (.mediaRow eng) s = .next t ∧ (t.mediaOf eng.val).queue = { c with phase := .done 0 0 } :: rest ∧
        .mediaCommandComplete eng ∈ t.agenda ∧ t.mem = writtenParts s.mem parts)) ∧
  (∀ (s : State) (eng : Fin 16) (c : MediaCmd) (rest : List MediaCmd), (s.mediaOf eng.val).queue = c :: rest → c.phase = .rows → c.op ≠ 0 →
    unasked s (.media eng.val) → let out := Config.mediaEncode c.params c.stream c.refs
    let parts := mediaParts c.outX [(c.streamPtr.toNat % 2 ^ 54, min c.limit out.length, leNat (out.take c.limit))] ++ mediaParts c.stateX
      [(c.statePtr.toNat % 2 ^ 54, c.stateLen, leNat (Config.mediaState c.params c.stream c.refs []))]
    partsIdle s parts → ∃ t, exec (.mediaRow eng) s = .next t ∧ .mediaCommandComplete eng ∈ t.agenda ∧ t.mem = writtenParts s.mem parts ∧
      (t.mediaOf eng.val).queue = (if c.limit < out.length then { c with phase := .done 9 0 } else { c with phase := .done 0 0, len := out.length }) :: rest) ∧
  (∀ (s : State) (eng : Fin 16) (c : MediaCmd) (rest : List MediaCmd), (s.mediaOf eng.val).queue = c :: rest → c.phase = .signal →
    unasked s (.media eng.val) → s.poison = [] →
    ((c.rowX = [] ∨ ∃ x, c.rowX = [x] ∧ x.repl = false ∧ x.pa + 8 ≤ 2 ^ 38 ∧ x.pa % 8 = 0 ∧ lineIdle s (x.pa / 128)) →
      ∃ t, exec (.mediaRow eng) s = .next t ∧ (t.mediaOf eng.val).queue = { c with row := c.row + 1, phase := .rows } :: rest ∧
        .mediaRow eng ∈ t.agenda ∧ (c.rowX = [] → t.mem = s.mem) ∧
        ∀ x, c.rowX = [x] → t.mem = Memory.write s.mem x.pa 8 (signalled (Memory.read s.mem x.pa 8) 1)) ∧
    (∀ x, c.rowX = [x] → x.repl = true → x.pa < 2 ^ 38 → s.idsBusy c.core 1 = false → ∃ t u, exec (.mediaRow eng) s = .next t ∧ t.mem = s.mem ∧
      (t.mediaOf eng.val).queue = { c with phase := .signalling } :: rest ∧ t.replicated = s.replicated ++ [u] ∧ u.op = .sems ∧ u.v = 1 ∧
      u.off = x.pa % 2 ^ 35 ∧ u.core = c.core ∧ u.waiter = some (.media eng.val))) ∧
  (∀ (s : State) (eng : Fin 16) (c : MediaCmd) (rest : List MediaCmd) (x : Xlat), (s.mediaOf eng.val).queue = c :: rest → c.phase = .filtered →
    c.filtX = [x] → x.repl = false → s.poison = [] → unasked s (.media eng.val) → (∀ w ∈ s.semWaits, w.pa ≠ x.pa) → atHomeOf c.core x.pa 8 → x.pa % 8 = 0 → lineIdle s (x.pa / 128) →
    let w := Memory.read s.mem x.pa 8
    (¬semFull w 1 → ∃ t, exec (.mediaFilteredWait eng) s = .next t ∧ t.mem = s.mem ∧ (t.mediaOf eng.val).queue = c :: rest ∧
      t.semWaits = s.semWaits ++ [⟨c.filtPtr, x.pa, x, .media eng.val, 1, true, s.leaseOf (c.block / 2 ^ 24)⟩]) ∧
    (semFull w 1 → s.idsBusy c.core 1 = false → ∃ t, exec (.mediaFilteredWait eng) s = .next t ∧ t.mem = Memory.write s.mem x.pa 8 (afterTake w 1) ∧
      (t.mediaOf eng.val).queue = { c with taken := c.taken + 1, phase := .rows } :: rest ∧ .mediaRow eng ∈ t.agenda)) ∧
  (∀ (s : State) (eng : Fin 16) (c : MediaCmd) (rest : List MediaCmd) (n cause : Nat), let m := s.mediaOf eng.val
    m.queue = c :: rest → c.phase = .done n cause → ∃ t, exec (.mediaCommandComplete eng) s = .next t ∧
      t.mediaOf eng.val = { m with queue := rest, done := keptWith m c n cause (if n = 0 then c.len else 0) } ∧
      t.interrupts = s.interrupts ++ (if fieldAt c.desc 2 1 / 2 % 2 = 1 then [⟨19 + eng.val, eng.val / 2, c.ctx⟩] else []) ∧
      (∀ id th, s.thread? id = some th → t.thread? id = some (wokenAt eng.val th)) ∧ (rest ≠ [] → .mediaCommandStart eng ∈ t.agenda) ∧
      ∀ p ∈ t.pins, p.ctx = c.ctx → p.owner ≠ .media eng.val c.core c.num.toNat) ∧
  (∀ (s : State) (eng : Fin 16) (c : MediaCmd) (rest : List MediaCmd), let m := s.mediaOf eng.val
    m.queue = c :: rest → c.phase = .broken → unasked s (.media eng.val) → c.external = false → c.filtX = [] →
    (∀ u ∈ s.replicated, u.waiter ≠ some (.media eng.val)) → (∀ u ∈ s.peerSent, u.waiter ≠ some (.media eng.val)) →
    ((c.rowX = [] ∧ c.rowPtr = 0) ∨ ∃ x, c.rowX = [x] ∧ x.repl = false ∧ x.pa + 8 ≤ 2 ^ 38 ∧ x.pa % 8 = 0 ∧ lineIdle s (x.pa / 128)) →
    ∃ t, exec (.mediaStreamError eng) s = .next t ∧ (c.rowX = [] → t.mem = s.mem) ∧
      (∀ x, c.rowX = [x] → t.mem = Memory.write s.mem x.pa 8 (Memory.read s.mem x.pa 8 ||| 2 ^ 63)) ∧
      (t.mediaOf eng.val).queue = [] ∧ (rest = [] → (t.mediaOf eng.val).done = keptWith m c 7 0 0) ∧
      t.interrupts = s.interrupts ++ [⟨19 + eng.val, eng.val / 2, c.ctx⟩] ∧
      ∀ id th, s.thread? id = some th → t.thread? id = some (wokenAt eng.val th))
/-! ## The firmware's commands -/

/-- R77, R107, R352 to R354, R378, R379, R384 to R386, R403 to R405, R407, R421, R426, R429, R430, R436: the commands on contexts and their memory.
Which of several refusals is answered, and reserved operand bits, are the model's choice (log entry 39), and so is that CREATE_CTX answers 1 over
frames in use (log entry 69) and that LOAD_SEGMENT writes the frames mapped at its virtual base (log entry 37). A body that a save has not
written holds what its bytes say, which the spec does not lay out (log entry 7). -/
def Obligations.ContextCommands : Prop :=
  (∀ (s : State) (mb : Nat), Rings s mb 0x01 0 → Table.sorted s.contexts = true → let w := operand s mb
    (4 ≤ w 1 → exec .createCtx s = .next (s.reply mb 1 [])) ∧
    (w 1 < 4 → w 1 / 2 = 1 → (s.mailboxOf mb).fromHost = false → exec .createCtx s = .next (s.reply mb 2 [])) ∧
    (w 1 < 4 → (w 1 / 2 = 1 → (s.mailboxOf mb).fromHost = true) → w 3 < 2 ^ 26 → exec .createCtx s = .next (s.reply mb 3 [])) ∧
    (w 1 < 4 → (w 1 / 2 = 1 → (s.mailboxOf mb).fromHost = true) → 2 ^ 26 ≤ w 3 → w 2 % 65536 = 0 → w 3 % 65536 = 0 →
      s.populatedRange (w 2) (w 3) = true → s.outsideAreas (w 2) (w 3) = true → s.inUse (w 2) (w 3) = true →
      exec .createCtx s = .next (s.reply mb 1 [])) ∧
    (w 1 < 4 → (w 1 / 2 = 1 → (s.mailboxOf mb).fromHost = true) → 2 ^ 26 ≤ w 3 → w 2 % 65536 = 0 → w 3 % 65536 = 0 →
      s.populatedRange (w 2) (w 3) = true → s.outsideAreas (w 2) (w 3) = true → s.inUse (w 2) (w 3) = false → s.contexts.length < 65535 → ∃ (n : Nat) (t : State) (c : Context),
      exec .createCtx s = .next (t.reply mb 0 [n]) ∧ 1 ≤ n ∧ n ≤ 65535 ∧ Table.find s.contexts n = none ∧
      (∀ k, 1 ≤ k → k < n → Table.find s.contexts k ≠ none) ∧ Table.find t.contexts n = some c ∧ isNewContext c (w 1) (w 2) (w 3) ∧
      (∀ k, k ≠ n → Table.find t.contexts k = Table.find s.contexts k) ∧ t.groups = s.groups ∧
      ∀ a, Memory.byte t.mem a = if w 2 ≤ a ∧ a < w 2 + w 3 then 0 else Memory.byte s.mem a)) ∧
  (∀ (s : State) (mb ctx : Nat) (c : Context), Rings s mb 0x02 ctx → ctx ≠ 0 → Table.find s.contexts ctx = some c →
    (c.phase ≠ .ending → Table.sorted s.blocks = true → ∃ (t : State) (c' : Context), exec .destroyCtx s = .next t ∧ Table.find t.contexts ctx = some c' ∧ c'.phase = .ending ∧ .destroyCtx ∈ t.agenda ∧
      (∀ p ∈ t.grids, p.2.ctx = ctx → p.2.pendingBlocks = [] ∧ p.2.relaunch = []) ∧
      ∀ k b, Table.find t.blocks k = some b → b.ctx = ctx → b.stopped ≠ none ∨ commits t k b) ∧
    (c.phase = .ending → ¬nothingOf s ctx → exec .destroyCtx s = .next ((s.endCommands ctx).push .destroyCtx)) ∧
    (c.phase = .ending → nothingOf s ctx → (∀ q ∈ c.queues, q.2.waiting = []) → Table.sorted s.contexts = true → ∃ t : State,
      exec .destroyCtx s = .next (t.reply mb 0 []) ∧ Table.find t.contexts ctx = none ∧ (∀ p ∈ t.pins, p.ctx ≠ ctx) ∧
      (∀ d x, Table.find t.dies d = some x → ∀ q ∈ x.tiles, q.2.ctx = ctx → q.2.defined = false) ∧
      (∀ p ∈ t.cores, (∀ x ∈ p.2.tlb, x.ctx ≠ ctx) ∧ ∀ x ∈ p.2.bounds, x.ctx ≠ ctx) ∧ (∀ m ∈ t.images, m.ctx = ctx → m.erased = true) ∧ t.mem = s.mem)) ∧
  (∀ (s : State) (mb ctx : Nat) (c : Context), RingsFor s mb 0x03 ctx c → let w := operand s mb
    (w 1 % 256 ≠ 1 → let big : Bool := decide (w 1 / 512 % 2 = 1)
      let unit := if big then 2 ^ 28 else 65536
      let good := w 1 % 512 = 0 ∧ w 1 / 1024 % 2 ^ 44 = 0 ∧ w 2 % unit = 0 ∧ w 3 % unit = 0 ∧ 1 ≤ w 5 ∧ w 2 + w 5 * unit ≤ 2 ^ 54 ∧
        w 3 + w 5 * unit ≤ 2 ^ 52 ∧ w 4 / 256 % 2 ^ 46 = 0 ∧ w 4 / 8 % 4 ≠ 3
      (¬good → exec .mapPage s = .next (s.reply mb 1 [])) ∧
      (good → s.framesRefused (w 3) (w 5 * unit) (BitVec.ofNat 64 (w 4)) = true → exec .mapPage s = .next (s.reply mb 1 [])) ∧
      (good → s.framesRefused (w 3) (w 5 * unit) (BitVec.ofNat 64 (w 4)) = false → 2 ^ 38 ≤ w 3 → w 3 < 2 ^ 38 + 2 ^ 31 → c.service = false →
        exec .mapPage s = .next (s.reply mb 2 [])) ∧
      (good → s.framesRefused (w 3) (w 5 * unit) (BitVec.ofNat 64 (w 4)) = false → (2 ^ 38 ≤ w 3 → w 3 < 2 ^ 38 + 2 ^ 31 → c.service = true) →
        ∀ t, s.putLeaves ctx (w 2) (w 4 / 4 * 4 + w 3 + 3) unit big (w 5) = some t → exec .mapPage s = .next (t.startAcks mb ctx 0 [(w 2, w 5 * unit)] false 0)) ∧
      (good → s.framesRefused (w 3) (w 5 * unit) (BitVec.ofNat 64 (w 4)) = false → (2 ^ 38 ≤ w 3 → w 3 < 2 ^ 38 + 2 ^ 31 → c.service = true) →
        s.putLeaves ctx (w 2) (w 4 / 4 * 4 + w 3 + 3) unit big (w 5) = none → exec .mapPage s = .next (s.reply mb 3 []))) ∧
    (w 1 % 256 = 1 → s.desc? ctx (w 2) = none → mapEditionOk (s.mailboxOf mb) = true → s.backingsOk (s.mailboxOf mb) = true →
      (s.mapViews (s.mailboxOf mb) true).isSome = true → s.memOk → ∃ t : State, exec .mapEdition s =
        .next (t.startAcks mb ctx 0 ((w 3, w 5 * 65536) :: (if w 4 = 0 then [] else [(w 4, w 5 * 65536)])) false 0) ∧
        t.desc? ctx (w 2) = some ⟨w 6, w 7, w 5, 1, 0, 0, 0, false, decide (w 1 / 256 % 2 = 1), 0⟩) ∧
    (w 1 % 256 = 1 → ∀ d, s.desc? ctx (w 2) = some d → d.pages ≠ w 5 → exec .mapEdition s = .next (s.reply mb 1 []))) ∧
  (∀ (s : State) (mb ctx : Nat) (c : Context), RingsFor s mb 0x04 ctx c → let w := operand s mb
    (w 2 % 65536 ≠ 0 ∨ 2 ^ 54 < w 2 + w 3 * 65536 → exec .unmap s = .next (s.reply mb 1 [])) ∧
    (w 2 % 65536 = 0 → w 2 + w 3 * 65536 ≤ 2 ^ 54 → ∀ t, s.clearLeaves ctx (w 2) (w 3) = some t →
      exec .unmap s = .next (t.startAcks mb ctx 0 [(w 2, w 3 * 65536)] false 0))) ∧
  (∀ (s : State) (mb ctx : Nat) (c : Context), RingsFor s mb 0x05 ctx c → let w := operand s mb
    ∀ u, s.objectReady (s.mailboxOf mb) = (u, true) → Table.find u.contexts ctx = some c →
    let key := Config.shake256 (u.byteList (w 5) 1952)
    let obj := leNat (u.byteList (w 1) 64)
    let seg := leNat (u.byteList (w 1 + fieldAt obj 16 8 + 96 * w 2) 96)
    (u.memoryAt (w 5) 1952 = true → (∀ k ∈ c.keys, k.2 ≠ key) → exec .loadSegment s = .next (u.reply mb 4 [])) ∧
    (∀ n, u.loadFormed c (s.mailboxOf mb) obj seg key = some n → exec .loadSegment s = .next (u.reply mb n [])) ∧
    (u.loadFormed c (s.mailboxOf mb) obj seg key = none →
      (u.loadTrusted (s.mailboxOf mb) obj seg = false → exec .loadSegment s = .next (u.reply mb 4 [])) ∧
      (u.loadTrusted (s.mailboxOf mb) obj seg = true → fieldAt seg 1 1 % 2 = 0 → let x : Loaded := ⟨w 1, w 2, w 4, w 3⟩
        (fieldAt seg 1 1 / 2 = 0 → ({ u with hostReads := s.hostReads }.linkReady ctx (c.load x) (w 1) obj seg) = ({ u with hostReads := s.hostReads }, true)) ∧
        ∀ r, { u with hostReads := s.hostReads }.linkReady ctx (c.load x) (w 1) obj seg = (r, true) → Table.find r.contexts ctx = some c →
        let y := { r with hostReads := r.hostReads.filter u.hostReads.contains }
        let bytes := y.segmentBytes (c.load x) (w 1) obj seg (w 2)
        let event := segmentEvent key (fieldAt seg 32 64) (w 2) (w 3)
        let place := y.segmentPages ctx (w 3) (if bytes = [] then 0 else (w 3 + bytes.length + 65535) / 65536 - w 3 / 65536)
        (place = none → exec .loadSegment s = .next ((y.logEvent ctx event).reply mb 1 [])) ∧
        ∀ pages, place = some pages → fieldAt seg 0 1 ≠ 0 → partsIdle y (pageParts (w 3) bytes pages) → unasked y .host →
        ∃ (t : State) (c' : Context), exec .loadSegment s = .next (t.reply mb 0 [0]) ∧
          t.mem = writtenParts (y.logEvent ctx event).mem (pageParts (w 3) bytes pages) ∧
          Table.find t.contexts ctx = some c' ∧ c' = (c.extend event).load x ∧ x ∈ c'.loaded ∧
          c'.chain = Config.shake256 (leBytes c.chain 64 ++ event)))) ∧
  (∀ (s : State) (ctx pa n : Nat), 0 < n → partsIdle s (physParts pa n 0) → unasked s .host → ∃ u, s.firmReady ctx [(pa, n)] = (u, true) ∧
    u.mem = s.mem ∧ u.contexts = s.contexts ∧ leNat (u.byteList pa n) = Memory.read s.mem pa n) ∧
  (∀ (s : State) (mb ctx : Nat) (c : Context) (q : LaunchQueue), RingsFor s mb 0x06 ctx c → c.failure = none → let w := operand s mb
    (63 < w 1 → exec .launchCommand s = .next (s.reply mb 1 [])) ∧
    (w 1 ≤ 63 → s.queue? ctx (w 1) = some q → s.memoryAt (w 2) 64 = true →
      (q.depth ≤ q.waiting.length → exec .launchCommand s = .next (s.reply mb 3 [])) ∧
      (q.waiting.length < q.depth → ∀ u, s.firmReady ctx [(w 2, 64)] = (u, true) → ∀ t,
        u.enqueue .host ctx (w 1) q (leNat (u.byteList (w 2) 64)) 0 = (t, true) →
        exec .launchCommand s = .next ((t.unqueue .host).reply mb 0 [q.next.toNat])))) ∧
  (∀ (s : State) (mb ctx : Nat) (c : Context), RingsFor s mb 0x07 ctx c → c.failure = none → let w := operand s mb
    (c.phase = .running → exec .saveCtx s = .next ((s.setContext ctx { c with phase := .stopping }).push .saveCtx)) ∧
    (c.phase = .stopping → s.cutDone ctx = false → exec .saveCtx s = .next (s.push .saveCtx)) ∧
    (c.phase = .saved → exec .saveCtx s = .next (s.reply mb 2 [])) ∧
    (c.phase = .stopping → s.cutDone ctx = true → let parked := s.parkTenures ctx
      let im := parked.imageFor ctx c
      let parts := physParts (w 1) im.size (leNat im.bytes)
      (parked.imageBufferOk (w 1) (Nat.max 1 (w 2)) = false → exec .saveCtx s = .next ((parked.resumeCut ctx).reply mb 1 [])) ∧
      (parked.imageBufferOk (w 1) (Nat.max 1 (w 2)) = true → w 2 < im.size →
        exec .saveCtx s = .next ((parked.resumeCut ctx).reply mb 3 [im.size])) ∧
      (im.size ≤ w 2 → parked.imageBufferOk (w 1) (w 2) = true → partsIdle parked parts → unasked parked .host →
        ∃ (t : State) (c' : Context), exec .saveCtx s = .next t ∧ Table.find t.contexts ctx = some c' ∧
        (Config.imageWriteFails parked.free = false →
          c'.phase = .saved ∧ t.images = s.images ++ [im] ∧ t.interrupts = s.interrupts ++ [⟨mb, 8, ctx⟩]) ∧
        (Config.imageWriteFails parked.free = true → c'.phase = .running ∧ (2, ctx) ∈ t.reports ∧
          ((∀ p ∈ s.dies, ∀ q ∈ p.2.tiles, q.2.holders = []) → t.mem = s.mem))))) ∧
  (∀ (s : State) (mb ctx : Nat) (c : Context), RingsFor s mb 0x08 ctx c →
    (c.phase ≠ .saved → exec .restoreCtx s = .next (s.reply mb 2 [])) ∧
    (c.phase = .saved → ∀ u, s.imageReady ctx (operand s mb 1) = (u, true) →
      (∀ n, u.restoreCheck ctx c (operand s mb 1) = .error n → exec .restoreCtx s = .next (u.reply mb n [])) ∧
      ∀ im l, u.restoreCheck ctx c (operand s mb 1) = .ok (im, l) → ∃ (t : State) (c' : Context), exec .restoreCtx s = .next (t.reply mb 0 []) ∧
        Table.find t.contexts ctx = some c' ∧ c'.phase = .running ∧ im.ctx = ctx))

/-- R20, R21, R34, R64, R68, R220, R327, R351, R369, R396, R401, R402, R405 to R410, R419, R425, R427: a command's reply, SET_POLICY, QUERY, FAULT_REPLAY,
FAULT_CANCEL, DROP_CHANNEL, ATTEST, MEDIA_RESET, and codes that the tables do not list. The response holds the status, the command's sequence
number and the results; the mailbox is no longer busy, and its interrupt is raised (its die and context are the model's choice, log entry 39).
So are that DROP_CHANNEL refuses nothing for areas, rings and image buffers (log entry 64), its statuses 1 and 3, and that functions 3, 7 and 8 take any number in word 0 (log entry 39). Function 7 marks the units
failing that reach the new threshold. A die's line lies on a live channel, at its place in the interleave, and in the slice of the Stacks that
its address selects. -/
def Obligations.PolicyAndQueries : Prop :=
  (∀ (s : State) (mb status : Nat) (ws : List Nat), status < 2 ^ 8 → ws.length ≤ 7 → let m := s.mailboxOf mb
    ∃ y : Mailbox, s.reply mb status ws = { s with
        doorbells := s.doorbells.filter (fun n => decide (n ≠ mb)), mailboxes := Table.set s.mailboxes mb y, interrupts := s.interrupts ++ [⟨mb, 8, cmdWord m 0 / 2 ^ 16 % 2 ^ 16⟩] } ∧
      y = { m with status := y.status, resp := y.resp } ∧
      y.status.toNat = m.status.toNat / 2 ^ 33 * 2 ^ 33 + m.doorbell.toNat % 2 ^ 32 ∧
      (Table.getD y.resp 0 0).toNat = status + m.doorbell.toNat % 2 ^ 32 * 2 ^ 32 ∧
      ∀ i, i < 7 → Table.getD y.resp (i + 1) 0 = BitVec.ofNat 64 (ws.getD i 0)) ∧
  (∀ (s : State) (mb ctx : Nat) (c : Context), RingsFor s mb 0x0C ctx c → let w := operand s mb
    let set := fun (c' : Context) => (s.setContext ctx c').reply mb 0 []
    (w 1 = 0 → (w 2 = 0 ∨ 1023 < w 2 → exec .setPolicyBoundsEntry s = .next (s.reply mb 1 [])) ∧
      (1 ≤ w 2 → w 2 ≤ 1023 → w 3 < 2 ^ 54 → w 4 ≤ 2 ^ 54 → w 5 < 64 → s.memOk → ∃ (t : State) (at_ : Nat), at_ = c.area + 32 * w 2 ∧
        exec .setPolicyBoundsEntry s = .next (t.startAcks mb ctx (w 2) [] true 0) ∧ t = { s with mem := t.mem } ∧
        Memory.read t.mem at_ 8 = w 3 ∧ Memory.read t.mem (at_ + 8) 8 = w 4 ∧ Memory.read t.mem (at_ + 16) 2 = w 5 ∧
        Memory.read t.mem (at_ + 20) 4 = (Memory.read s.mem (at_ + 20) 4 + 1) % 2 ^ 32 ∧
        ∀ a, a < at_ ∨ at_ + 32 ≤ a → Memory.byte t.mem a = Memory.byte s.mem a)) ∧
    (w 1 = 1 → exec .setPolicyVectors s = .next (set { c with tvec := BitVec.ofNat 64 (w 2), svec := BitVec.ofNat 64 (w 3) })) ∧
    (w 1 = 2 → exec .setPolicySignalBox s = .next (if 7 < w 2 then s.reply mb 1 [] else set { c with signalBox := w 2 })) ∧
    (w 1 = 4 → exec .setPolicyCodePublication s = .next (if 2 < w 2 then s.reply mb 1 [] else set { c with codePolicy := w 2 })) ∧
    (w 1 = 5 → let old : LaunchQueue := Table.getD c.queues (w 2) ⟨0, 0, 0, []⟩
      (w 2 ≤ 63 → w 3 % 64 = 0 → 16 ≤ w 4 → w 4 ≤ 65536 → s.populatedRange (w 3) (64 * w 4) = true →
        (old.waiting ≠ [] → exec .setPolicyLaunchQueue s = .next (s.reply mb 2 [])) ∧
        (old.waiting = [] → exec .setPolicyLaunchQueue s =
          .next (set { c with queues := Table.set c.queues (w 2) { old with base := w 3, depth := w 4 } }))) ∧
      (63 < w 2 ∨ w 3 % 64 ≠ 0 ∨ 65536 < w 4 → exec .setPolicyLaunchQueue s = .next (s.reply mb 1 []))) ∧
    (w 1 = 6 → (7 < w 2 → exec .setPolicyKeySlot s = .next (s.reply mb 1 [])) ∧
      (w 2 ≤ 7 → w 3 = 0 → exec .setPolicyKeySlot s = .next (set { c with keys := Table.erase c.keys (w 2) })) ∧
      (w 2 ≤ 7 → w 3 ≠ 0 → s.memoryAt (w 3) 1952 = true → ∀ u, s.firmReady ctx [(w 3, 1952)] = (u, true) → exec .setPolicyKeySlot s =
        .next ((u.setContext ctx { c with keys := Table.set c.keys (w 2) (Config.shake256 (u.byteList (w 3) 1952)) }).reply mb 0 [])))) ∧
  (∀ (s : State) (mb ctx : Nat), Rings s mb 0x0C ctx → let w := operand s mb
    (w 1 = 3 → exec .setPolicyQuietInterval s = .next (if 7 < w 2 ∨ w 3 < 16 ∨ 24 < w 3 then s.reply mb 1 []
      else (s.setDie (w 2) { s.dieOf (w 2) with quiet := w 3 }).reply mb 0 [])) ∧
    (w 1 = 7 → exec .setPolicyErrorWindow s = .next (if w 2 < 28 ∨ 36 < w 2 ∨ 5 < w 3 ∨ w 4 < 1 ∨ 65535 < w 4 then s.reply mb 1 []
      else ({ s with errorWindow := w 2, thresholds := Table.set s.thresholds (w 3) (w 4) } : State).judgeUnits.reply mb 0 [])) ∧
    (w 1 = 8 → exec .setPolicyPeerBase s = .next (if 255 < w 2 ∨ w 3 % 0x800000 ≠ 0 ∨ 2 ^ 38 ≤ w 3 then s.reply mb 1 []
      else { s with peerBases := Table.set s.peerBases (w 2) (w 3) }.reply mb 0 [])) ∧
    (8 < w 1 → exec .unknownCommand s = .next (s.reply mb 1 []))) ∧
  (∀ (s : State), let count := fun (x : Nat × Nat × Nat) => (s.errorTimes.filter (fun y => decide (s.fabric < y.2.2.2 + 2 ^ s.errorWindow ∧
      x = (y.1, y.2.1, y.2.2.1)))).length
    s.judgeUnits.mem = s.mem ∧ ∀ x, x ∈ s.judgeUnits.failing ↔ (x ∈ s.failing ∨ (0 < count x ∧ thresholdOf s x.1 ≤ count x))) ∧
  (∀ (s : State) (mb ctx : Nat), Rings s mb 0x0D ctx → let w := operand s mb
    (w 1 = 0 → exec .queryRevision s = .next (s.reply mb 0 [0x4201])) ∧
    (w 1 = 1 → exec .queryFeatures s = .next (s.reply mb 0 [0x7F])) ∧
    (w 1 = 2 → (∀ d, d < 8 → (s.dieOf d).capacity < 256) → exec .queryCapacity s = .next (s.reply mb 0
      [((List.range 8).map (fun d => (s.dieOf d).capacity * 2 ^ (8 * d))).sum])) ∧
    (w 1 = 3 → ctx ≠ 0 → ∀ c, Table.find s.contexts ctx = some c → exec .queryFailureRecord s = .next (match c.failure with
      | none => s.reply mb 0 []
      | some f => s.reply mb 0 [256 + f.cause, f.tval.toNat, f.tepc.toNat, f.grid, f.block, f.die, f.core])) ∧
    (w 1 = 4 → s.failing = [] → exec .queryFailingUnits s =
      .next (s.reply mb 0 [((List.range 320).filter (fun c => (s.coreOf c).inService)).length])) ∧
    (w 1 = 4 → ∀ cls die n, s.failing = [(cls, die, n)] → w 2 = 0 → exec .queryFailingUnits s =
      .next (s.reply mb 0 [((List.range 320).filter (fun c => (s.coreOf c).inService)).length + 2 ^ 32, cls + die * 2 ^ 8 + n * 2 ^ 16])) ∧
    (w 1 = 5 → w 2 = 1 → exec .queryIdentityKeyHash s = .next (s.reply mb 0 [Config.identityDigest / 2 ^ 448 % 2 ^ 64])) ∧
    (w 1 = 5 → 1 < w 2 → exec .queryIdentityKeyHash s = .next (s.reply mb 1 [])) ∧
    (w 1 = 6 → ctx ≠ 0 → ∀ c, Table.find s.contexts ctx = some c → c.phase = .saved → exec .queryImageSize s = .next (s.reply mb 0 [c.imageSize])) ∧
    (w 1 = 6 → (ctx = 0 ∨ Table.find s.contexts ctx = none) → exec .queryImageSize s = .next (s.reply mb 2 [])) ∧
    (6 < w 1 → exec .unknownCommand s = .next (s.reply mb 1 []))) ∧
  (∀ (s : State) (mb code ctx : Nat), Rings s mb code ctx → code = 0 ∨ 0x0F < code → exec .unknownCommand s = .next (s.reply mb 0xFF [])) ∧
  (∀ (s : State) (mb ctx : Nat) (c : Context), let w := operand s mb
    (RingsFor s mb 0x09 ctx c → exec .faultReplay s =
      .next (if 7 < w 1 then s.reply mb 1 [] else (s.answerReplay ctx (w 1) (w 2)).reply mb 0 [])) ∧
    (RingsFor s mb 0x0A ctx c → exec .faultCancel s =
      .next (if 7 < w 1 then s.reply mb 1 [] else (s.answerCancel ctx (w 1) (w 2)).reply mb 0 []))) ∧
  (∀ (s : State) (mb ctx : Nat), Rings s mb 0x0B ctx → let w := operand s mb
    let d := s.dieOf (w 1)
    (7 < w 1 ∨ w 2 ∉ d.live → exec .dropChannel s = .next (s.reply mb 1 [])) ∧
    (w 1 ≤ 7 → w 2 ∈ d.live → d.live.length ≤ 16 → exec .dropChannel s = .next (s.reply mb 3 [])) ∧
    (w 1 ≤ 7 → w 2 ∈ d.live → s.dropRefused (w 1) = false → s.mappersOf (w 1) = [] → ∃ t : State, exec .dropChannel s = .next (t.reply mb 0 [d.capacity - 1]) ∧
      (t.dieOf (w 1)).live = d.live.filter (fun n => decide (n ≠ w 2)) ∧ (t.dieOf (w 1)).capacity = d.capacity - 1 ∧
      (t.dieOf (w 1)).l2 = [] ∧ t.groups = s.groups)) ∧
  (∀ (live : List Nat) (off : Nat), (placeLine live off = none ↔ live = []) ∧
    ∀ c k, placeLine live off = some (c, k) ↔ live[off / 128 % live.length]? = some c ∧ k = off / 128 / live.length) ∧
  (∀ pa : Nat, stacksSlice pa < 32 ∧ ∀ i, i < 5 → (stacksSlice pa).testBit i = xor (pa.testBit (7 + i)) (pa.testBit (12 + i))) ∧
  (∀ (s : State) (mb ctx : Nat) (c : Context), RingsFor s mb 0x0E ctx c → let w := operand s mb
    (s.memoryAt (w 1) 32 = false → exec .attest s = .next (s.reply mb 1 [])) ∧
    (s.memoryAt (w 1) 32 = true → ∀ u, s.firmReady ctx [(w 1, 32)] = (u, true) → let out := u.attestation ctx c (w 1)
      (w 3 < out.length → exec .attest s = .next (u.reply mb 3 [])) ∧
      (out.length ≤ w 3 → u.memoryAt (w 2) out.length = true → ∀ parts, parts = physParts (w 2) out.length (leNat out) → partsIdle u parts →
        unasked u .host → ∃ t : State, exec .attest s = .next (t.reply mb 0 [out.length]) ∧ t.mem = writtenParts u.mem parts ∧
        t.contexts = u.contexts))) ∧
  (∀ (s : State) (mb ctx : Nat), Rings s mb 0x0F ctx → let n := operand s mb 1
    (15 < n → exec .mediaReset s = .next (s.reply mb 1 [])) ∧
    (n ≤ 15 → ∀ c, (s.mediaOf n).queue = [c] → c.ended = none → c.phase ≠ .signal → c.phase ≠ .signalling → c.phase ≠ .poisoned →
      (c.rowX = [] ∧ c.rowPtr = 0) → (c.filtX = [] ∧ c.external = false) → (∀ u ∈ s.replicated, u.waiter ≠ some (.media n)) →
      (∀ u ∈ s.peerSent, u.waiter ≠ some (.media n)) → ∃ t : State, exec .mediaReset s = .next (t.reply mb 0 []) ∧
      (t.mediaOf n).queue = [] ∧ (t.mediaOf n).done = keptWith (s.mediaOf n) c 8 0 0 ∧
      t.interrupts = s.interrupts ++ [⟨19 + n, n / 2, c.ctx⟩]))
/-! ## Reset, words and the step -/

/-- What reset leaves, and what a thread and a group start with, where the spec gives it (R12, R17, R20, R80, R97, R113, R114, R220, R281, R396, R399, R402): every
clock 0, 24 GB and 24 live channels on each die, mailboxes and capture units at their reset values; no register allocated, index registers with
bound 1, queues unconfigured, only p0 set, every status and handler register 0; command numbers from 0; an idle matrix path, bank 0 active; k and c 0 and each n the identity. Registers that it gives no value for start at
the values of log entry 40. -/
def Obligations.ResetValues : Prop :=
  (∀ c, (State.reset.coreOf c).clock = 0 ∧ (∀ en, (State.reset.engineOf c en).next = 0) ∧ (let m := (State.reset.coreOf c).matrix
    m.holder = none ∧ m.active = false ∧ ∀ t r k, t < 2 → m.acc t r k = 0)) ∧ State.reset.armMHz = 3300 ∧ State.reset.errorWindow = 32 ∧
  (∀ d, (State.reset.dieOf d).capacity = 24 ∧ (State.reset.dieOf d).live = List.range 24 ∧
    (State.reset.dieOf d).l2 = [] ∧ (State.reset.dieOf d).annex = [] ∧ (State.reset.dieOf d).walker = [] ∧
    ∀ u, Table.getD (State.reset.dieOf d).capture u Capture.init = (⟨0xFFFF0000, BitVec.ofInt 64 (-1), 0, 0, []⟩ : Capture)) ∧
  (∀ pa, State.reset.populated pa = true ↔ pa < 2 ^ 38 ∧ pa % 0x800000000 ≤ 0x5FFFFFFFF) ∧
  (∀ m, (State.reset.mailboxOf m).doorbell = 0 ∧ (State.reset.mailboxOf m).status = 0 ∧
    ∀ i, Table.getD (State.reset.mailboxOf m).cmd i 0 = 0 ∧ Table.getD (State.reset.mailboxOf m).resp i 0 = 0) ∧
  State.reset.contexts = [] ∧ State.reset.grids = [] ∧ State.reset.groups = [] ∧ State.reset.blocks = [] ∧ State.reset.memOk ∧
  (∀ (pc : Word) (gid : Nat), let t := Thread.start pc gid
    t.pc = pc ∧ t.status = .run ∧ t.region = none ∧ t.astat = 0 ∧ t.tctl = 0 ∧ t.tmode = 0 ∧ t.tepc = 0 ∧
    t.tcause = 0 ∧ t.tval = 0 ∧ t.tsave = 0 ∧ t.rng = BitVec.ofNat 64 gid ∧
    (∀ n, Table.find t.v n = none ∧ t.vreg n = 0 ∧ t.xreg n = (⟨0, 1, 0, 0⟩ : IndexReg) ∧ t.queueOf n = (⟨0, []⟩ : Queue)) ∧
    ∀ p : Fin 8, t.pred p = decide (p = 0)) ∧
  (∀ (ctx grid block lidx1 : Nat) (ts : Table Thread), let g := Group.start ctx grid block lidx1 ts
    g.k = 0 ∧ g.kp = false ∧ g.kn = false ∧ g.kq = false ∧ g.ko = false ∧ g.gstat = 0 ∧ g.holds = [] ∧ g.threads = ts ∧
    ∀ n, Table.getD g.c n 0 = 0 ∧ (Table.getD g.n n Benes.init).perm = List.range 32)

/-- The memory of the machine keeps its canonical form in every step, whatever the step does: equal memories stay equal data. The form is the
model's own choice (log entry 1). -/
def Obligations.StepKeepsMemoryCanonical : Prop :=
  ∀ s t : State, s.memOk → step s = .next t → t.memOk

/-- Decoding and encoding agree, for every instruction and at every value of every operand: a well-formed instruction that has a word is read
back from it, and a word that decodes stands for a well-formed instruction whose word it is. -/
def Obligations.DecodeEncodeRoundTrip : Prop :=
  (∀ (i : Instr) (w : BitVec 64), i.wf = true → encode i = some w → decodeWord 7 w = .ok i) ∧
  (∀ (top : Nat) (w : BitVec 64) (i : Instr), decodeWord top w = .ok i → i.wf = true ∧ encode i = some w)

/-- R63, R192 to R194, R341, R367. A step runs the decoded instruction. Where the lanes of the first issue stand at a word that their fetch reads, the step executes what the
word decodes to, and then the issue is over; a collective word first takes the waiting of its threads to 0. A word that does not decode
raises its trap in every lane, with the word in tval, or sets PRB and is passed over in probe mode (R192 to R194); a fetch that fails its check
raises its trap with the pointer in tval, or parks its lanes (R63, R367). With nothing being issued, the step is the first event of the agenda
that keeps the clocks going, else the agenda's first event or a cycle of a lane-set, and of these two neither goes on for ever without the
other (R341; the order and the bound are the model's choice, log entry 3). -/
def Obligations.StepRunsDecodedInstruction : Prop :=
  (∀ (s : State) (i : Issue) (rest : List Issue) (g : Group) (x : Xlat), s.issue = i :: rest → Standing s i g → Fetches s i g x →
    let w := wordAt s x
    (∀ ins, decodeWord (launchTop s g) w = .ok ins →
      (isCollective ins = false → step s = finished ins (exec ins (fetchedState s i rest g x))) ∧
      (isCollective ins = true → i.lanes = g.lanesAt i.pc → step s = finished ins (exec ins ((fetchedState s i rest g x).setGroup i.group
        { g with threads := g.threads.map (fun p => (p.1, if p.1 ∈ i.lanes then { p.2 with waited := 0 } else p.2)) })))) ∧
    (∀ tr, decodeWord (launchTop s g) w = .error tr →
      ((∀ l ∈ i.lanes, ∀ th, Table.find g.threads l = some th → th.tctl.getLsbD 0 = false ∧ ¬inHandler th) →
        ∃ t, step s = .next t ∧ LanesEnter s t i rest g tr.cause.toNat w) ∧
      ((∀ l ∈ i.lanes, ∀ th, Table.find g.threads l = some th → th.tctl.getLsbD 0 = true) →
        ∃ t g', step s = .next t ∧ t.issue = rest ∧ t.mem = s.mem ∧ Table.find t.groups i.group = some g' ∧
          g'.gstat = (g.gstat ||| g.gsets ||| 1) &&& 3 ∧ ∀ l th, Table.find g.threads l = some th →
            (l ∉ i.lanes → Table.find g'.threads l = some th) ∧
            (l ∈ i.lanes → ∃ m, Table.find g'.threads l = some { th with pc := pcPlus th.pc 8, replay := m })))) ∧
  (∀ (s : State) (i : Issue) (rest : List Issue) (g : Group) (c : Nat), s.issue = i :: rest → Standing s i g →
    (∀ l ∈ i.lanes, ∀ th, Table.find g.threads l = some th → entersOn th c) →
    s.check i.core g.ctx i.pc 8 8 (kindNeed .fetch) = .error (.trap c) → ∃ t, step s = .next t ∧ LanesEnter s t i rest g c i.pc) ∧
  (∀ (s : State) (i : Issue) (rest : List Issue) (g : Group) (a : Word) (leaf : Bool), s.issue = i :: rest → Standing s i g →
    (∃ c, Table.find s.contexts g.ctx = some c) → s.check i.core g.ctx i.pc 8 8 (kindNeed .fetch) = .error (.park a leaf) →
    ∃ t g', step s = .next t ∧ t.issue = rest ∧ Table.find t.groups i.group = some g' ∧ ∀ l th, Table.find g.threads l = some th →
      (l ∉ i.lanes → Table.find g'.threads l = some th) ∧
      (l ∈ i.lanes → ∃ st m, Table.find g'.threads l = some { th with status := st, replay := m } ∧ (st = .parkFull ∨ ∃ die n, st = .park die n))) ∧
  (∀ (s : State) (e : Instr), s.issue = [] → s.agenda.find? isTimely = some e → step s = exec e { s with agenda := s.agenda.erase e }) ∧
  (∀ s : State, s.issue = [] → (∀ e ∈ s.agenda, isTimely e = false) →
    let event := ∃ e rest, s.agenda = e :: rest ∧
      step s = exec e { s with agenda := rest, free := s.free + 1, eventRun := s.eventRun + 1, issueRun := 0 }
    let cycle := ∃ k u, step s = exec (.issueSelection (k / 4) (k % 4)) u ∧ u.mem = s.mem ∧ u.groups = s.groups ∧ u.cores = s.cores ∧ u.issue = [] ∧
      u.eventRun = 0 ∧ u.issueRun = s.issueRun + 1
    (event ∨ cycle) ∧ (s.agenda = [] → cycle) ∧ (Config.fairBound < s.eventRun → cycle) ∧
    (Config.fairBound < s.issueRun → s.eventRun ≤ Config.fairBound → s.agenda ≠ [] → event))

/-- Words written out from the spec's own encodings decode to the instructions that they stand for (R170, R178, R180, R182 and
the opcodes of R186 to R189), and its two words that are none raise the traps that it names (R192). -/
def Obligations.SampleWordsDecode : Prop :=
  (decodeWord 7 0x106A282A2C283841 = .ok (.fma ⟨⟨2, true⟩, ⟨.rot1, true⟩, .f32, .reg 20, ⟨.reg 21, true⟩, ⟨.reg 22, false⟩, ⟨.reg 20, false⟩⟩ .rz)) ∧
  (decodeWord 7 0x400202A00C090AC0 = .ok (.addHalf ⟨.u64, .reg 4, ⟨.reg 5, false⟩, .ident⟩ ⟨.mov, ⟨.u64, .reg 9, ⟨.reg 10, true⟩, .ident⟩⟩)) ∧
  (decodeWord 7 0xC04E00003FFFFFF8 = .ok (.bra ⟨4, true⟩ .diverge (BitVec.ofInt 30 (-8)))) ∧
  (decodeWord 7 0x8000300012345678 = .ok (.movi ⟨0, false⟩ (.reg 3) false 0x12345678)) ∧
  (decodeWord 7 0x03E006080A000050 = .ok (.cmp ⟨0, false⟩ ⟨.ident, false⟩ .i32 3 ⟨.reg 4, false⟩ ⟨.reg 5, false⟩ .lt false)) ∧
  (decodeWord 7 0x0341107600000100 = .ok (.mov ⟨⟨0, false⟩, ⟨.ident, false⟩, .u64, .indInc 0, ⟨.reg 59, false⟩⟩)) ∧
  (decodeWord 7 0xC100007C00000080 = .ok (.call ⟨0, false⟩ .none 62 0x80)) ∧
  (decodeWord 7 0x3060000000080000 = .ok (.mma ⟨0, false⟩ 0 4)) ∧
  (decodeWord 7 0x1000038A040001C0 = .error .operand) ∧ (decodeWord 7 0xE000000000000000 = .error .illegal)

/-- R116 to R134, R176: operands. Whatever a word's operands are, it collects them where no index register leaves its window and none is a queue;
a window left raises trap 0x07 before anything else. A register source gives the register of the lane that its pattern names, its own or
another's; a constant, its value in the form that the word reads; a queue pops in the order A, B, C before the destination takes its place;
an indirect operand, the register at its cursor, which steps once; a last read gives the value, and the name holds none any more. -/
def Obligations.OperandSources : Prop :=
  (∀ (e : Env) (l : Nat) (t : Thread) (d : Option Operand) (a b c : Option SrcSpec),
    ((∃ o ∈ [operandOf a, operandOf b, operandOf c, d], badIndex t o) → ∃ v, collect e l t d a b c = .error ⟨0x07, v⟩) ∧
    ((∀ o ∈ [operandOf a, operandOf b, operandOf c, d], ¬badIndex t o ∧ ∀ q, o ≠ some (.queue q)) →
      ∃ r, collect e l t d a b c = .ok r ∧ r.t.q = t.q ∧ r.t.p = t.p ∧ r.t.pc = t.pc ∧ r.t.status = t.status ∧ r.t.astat = t.astat)) ∧
  (∀ (e : Env) (l : Nat) (t : Thread) (n : Fin 128) (p : LanePat) (f : Form), l < 32 → ∃ r,
    collect e l t none (some ⟨⟨.reg n, false⟩, p, f⟩) none none = .ok r ∧ r.t = t ∧ r.d = .none ∧
      r.a = (let v := laneReg e l t (supplier p l) n.val; if p = .subrev then reversed f.width v else v)) ∧
  (∀ (e : Env) (l : Nat) (t : Thread) (n : Fin 128) (f : Form), ∃ r,
    collect e l t none (some ⟨⟨.reg n, true⟩, .ident, f⟩) (plain (.reg n) f) none = .ok r ∧
      r.a = Table.getD t.v n.val 0 ∧ r.b = r.a ∧ r.t = { t with v := Table.erase t.v n.val, poisoned := t.poisoned.filter (fun m => m ≠ n.val) }) ∧
  (∀ (e : Env) (l : Nat) (t : Thread) (c : Fin 32) (ty : IType) (fl : FType), let v : Int := (c.val : Int) - 16
    (∃ r, collect e l t none (plain (.const c) .whole) (plain (.const c) (.int ty)) (plain (.const c) (.flt fl)) = .ok r ∧ r.t = t ∧
      r.a = BitVec.ofInt 64 v ∧ r.b = intWord ty false (fun _ => v) ∧
      r.c = assemble fl.width (fun _ => (roundF fl .rn (decide (v < 0)) v.natAbs 0).1)) ∧
    (∃ r, collect e l t none (plain .zero .whole) none none = .ok r ∧ r.t = t ∧ r.a = 0)) ∧
  (∀ (e : Env) (l : Nat) (t : Thread) (q : Fin 8) (f : Form), let k := t.queueOf q.val
    (k.entries = [] → ∀ d, (∀ x, d ≠ some (.ind x) ∧ d ≠ some (.indInc x)) →
      collect e l t d (plain (.queue q) f) none none = .error ⟨0x08, BitVec.ofNat 64 q.val⟩) ∧
    (∀ x y z more, k.entries = x :: y :: z :: more → (∀ m ∈ t.poisoned, m < 128) → ∃ r,
      collect e l t none (plain (.queue q) f) (plain (.queue q) f) (plain (.queue q) f) = .ok r ∧ r.a = x ∧ r.b = y ∧ r.c = z ∧
        r.t = withQueue (withQueue (withQueue t q.val k.depth (y :: z :: more)) q.val k.depth (z :: more)) q.val k.depth more) ∧
    (∀ x more, k.entries = x :: more → k.entries.length ≤ k.depth → (∀ m ∈ t.poisoned, m < 128) → ∃ r,
      collect e l t (some (.queue q)) (plain (.queue q) f) none none = .ok r ∧ r.a = x ∧
        ∀ w, r.t.put r.d w = withQueue (withQueue t q.val k.depth more) q.val k.depth (more ++ [w])) ∧
    (k.depth ≤ k.entries.length → collect e l t (some (.queue q)) none none none = .error ⟨0x09, BitVec.ofNat 64 q.val⟩)) ∧
  (∀ (e : Env) (l : Nat) (t : Thread) (x : Fin 8) (f : Form), let k := t.xreg x.val
    inWindow k → ∃ r, collect e l t (some (.indInc x)) (plain (.indInc x) f) (plain (.ind x) f) none = .ok r ∧
      r.a = Table.getD t.v (named k) 0 ∧ r.b = r.a ∧ r.t = { t with x := Table.set t.x x.val (stepped k) } ∧
      ∀ w, r.t.put r.d w = r.t.setV (named k) w) ∧
  (∀ (e : Env) (l : Nat) (t : Thread), ∀ p ∈ ([(.lane, BitVec.ofNat 64 l), (.gid, BitVec.ofNat 64 (e.gid0 + l)), (.clock, e.clock.setWidth 64),
      (.cycle, BitVec.ofNat 64 e.cycle), (.core, BitVec.ofNat 64 (e.core % 40)), (.die, BitVec.ofNat 64 (e.core / 40))] : List (Special × Word)),
    ∃ r, collect e l t none (plain (.special p.1) .whole) none none = .ok r ∧ r.t = t ∧ r.a = p.2) ∧
  (∀ (t : Thread) (n : Nat) (w : Word), (t.setV n w).vreg n = w ∧ (∀ m, m ≠ n → (t.setV n w).vreg m = t.vreg m) ∧ (t.setV n w).x = t.x)
end

