-- ==== Sys2Proof/Laws/State.lean ====
section
/-!
SUPPORT. What each update of the state, of a thread, of a group and of a core does to each field: one lemma per field per update.
-/
namespace Sys2Proof.Machine

/-! ## State.setCore -/

@[simp] theorem State.setCore_mem (s : State) (c : Nat) (v : Core) : (s.setCore c v).mem = s.mem := rfl
@[simp] theorem State.setCore_poison (s : State) (c : Nat) (v : Core) : (s.setCore c v).poison = s.poison := rfl
@[simp] theorem State.setCore_cores (s : State) (c : Nat) (v : Core) : (s.setCore c v).cores = Table.set s.cores c v := rfl
@[simp] theorem State.setCore_dies (s : State) (c : Nat) (v : Core) : (s.setCore c v).dies = s.dies := rfl
@[simp] theorem State.setCore_groups (s : State) (c : Nat) (v : Core) : (s.setCore c v).groups = s.groups := rfl
@[simp] theorem State.setCore_blocks (s : State) (c : Nat) (v : Core) : (s.setCore c v).blocks = s.blocks := rfl
@[simp] theorem State.setCore_barriers (s : State) (c : Nat) (v : Core) : (s.setCore c v).barriers = s.barriers := rfl
@[simp] theorem State.setCore_contexts (s : State) (c : Nat) (v : Core) : (s.setCore c v).contexts = s.contexts := rfl
@[simp] theorem State.setCore_grids (s : State) (c : Nat) (v : Core) : (s.setCore c v).grids = s.grids := rfl
@[simp] theorem State.setCore_nextTag (s : State) (c : Nat) (v : Core) : (s.setCore c v).nextTag = s.nextTag := rfl
@[simp] theorem State.setCore_sidings (s : State) (c : Nat) (v : Core) : (s.setCore c v).sidings = s.sidings := rfl
@[simp] theorem State.setCore_deferred (s : State) (c : Nat) (v : Core) : (s.setCore c v).deferred = s.deferred := rfl
@[simp] theorem State.setCore_pins (s : State) (c : Nat) (v : Core) : (s.setCore c v).pins = s.pins := rfl
@[simp] theorem State.setCore_publications (s : State) (c : Nat) (v : Core) : (s.setCore c v).publications = s.publications := rfl
@[simp] theorem State.setCore_commits (s : State) (c : Nat) (v : Core) : (s.setCore c v).commits = s.commits := rfl
@[simp] theorem State.setCore_semWaits (s : State) (c : Nat) (v : Core) : (s.setCore c v).semWaits = s.semWaits := rfl
@[simp] theorem State.setCore_acks (s : State) (c : Nat) (v : Core) : (s.setCore c v).acks = s.acks := rfl
@[simp] theorem State.setCore_seqWaits (s : State) (c : Nat) (v : Core) : (s.setCore c v).seqWaits = s.seqWaits := rfl
@[simp] theorem State.setCore_aside (s : State) (c : Nat) (v : Core) : (s.setCore c v).aside = s.aside := rfl
@[simp] theorem State.setCore_mediaAside (s : State) (c : Nat) (v : Core) : (s.setCore c v).mediaAside = s.mediaAside := rfl
@[simp] theorem State.setCore_colls (s : State) (c : Nat) (v : Core) : (s.setCore c v).colls = s.colls := rfl
@[simp] theorem State.setCore_collCounts (s : State) (c : Nat) (v : Core) : (s.setCore c v).collCounts = s.collCounts := rfl
@[simp] theorem State.setCore_mailboxes (s : State) (c : Nat) (v : Core) : (s.setCore c v).mailboxes = s.mailboxes := rfl
@[simp] theorem State.setCore_doorbells (s : State) (c : Nat) (v : Core) : (s.setCore c v).doorbells = s.doorbells := rfl
@[simp] theorem State.setCore_overruns (s : State) (c : Nat) (v : Core) : (s.setCore c v).overruns = s.overruns := rfl
@[simp] theorem State.setCore_media (s : State) (c : Nat) (v : Core) : (s.setCore c v).media = s.media := rfl
@[simp] theorem State.setCore_hostSectors (s : State) (c : Nat) (v : Core) : (s.setCore c v).hostSectors = s.hostSectors := rfl
@[simp] theorem State.setCore_hostHeld (s : State) (c : Nat) (v : Core) : (s.setCore c v).hostHeld = s.hostHeld := rfl
@[simp] theorem State.setCore_hostRequests (s : State) (c : Nat) (v : Core) : (s.setCore c v).hostRequests = s.hostRequests := rfl
@[simp] theorem State.setCore_hostReads (s : State) (c : Nat) (v : Core) : (s.setCore c v).hostReads = s.hostReads := rfl
@[simp] theorem State.setCore_interrupts (s : State) (c : Nat) (v : Core) : (s.setCore c v).interrupts = s.interrupts := rfl
@[simp] theorem State.setCore_reqRecords (s : State) (c : Nat) (v : Core) : (s.setCore c v).reqRecords = s.reqRecords := rfl
@[simp] theorem State.setCore_sboxSeq (s : State) (c : Nat) (v : Core) : (s.setCore c v).sboxSeq = s.sboxSeq := rfl
@[simp] theorem State.setCore_replicated (s : State) (c : Nat) (v : Core) : (s.setCore c v).replicated = s.replicated := rfl
@[simp] theorem State.setCore_peerBases (s : State) (c : Nat) (v : Core) : (s.setCore c v).peerBases = s.peerBases := rfl
@[simp] theorem State.setCore_peersLost (s : State) (c : Nat) (v : Core) : (s.setCore c v).peersLost = s.peersLost := rfl
@[simp] theorem State.setCore_peerSent (s : State) (c : Nat) (v : Core) : (s.setCore c v).peerSent = s.peerSent := rfl
@[simp] theorem State.setCore_images (s : State) (c : Nat) (v : Core) : (s.setCore c v).images = s.images := rfl
@[simp] theorem State.setCore_errorTimes (s : State) (c : Nat) (v : Core) : (s.setCore c v).errorTimes = s.errorTimes := rfl
@[simp] theorem State.setCore_errorWindow (s : State) (c : Nat) (v : Core) : (s.setCore c v).errorWindow = s.errorWindow := rfl
@[simp] theorem State.setCore_thresholds (s : State) (c : Nat) (v : Core) : (s.setCore c v).thresholds = s.thresholds := rfl
@[simp] theorem State.setCore_failing (s : State) (c : Nat) (v : Core) : (s.setCore c v).failing = s.failing := rfl
@[simp] theorem State.setCore_reports (s : State) (c : Nat) (v : Core) : (s.setCore c v).reports = s.reports := rfl
@[simp] theorem State.setCore_timed (s : State) (c : Nat) (v : Core) : (s.setCore c v).timed = s.timed := rfl
@[simp] theorem State.setCore_linkLanesOff (s : State) (c : Nat) (v : Core) : (s.setCore c v).linkLanesOff = s.linkLanesOff := rfl
@[simp] theorem State.setCore_armMHz (s : State) (c : Nat) (v : Core) : (s.setCore c v).armMHz = s.armMHz := rfl
@[simp] theorem State.setCore_cycle (s : State) (c : Nat) (v : Core) : (s.setCore c v).cycle = s.cycle := rfl
@[simp] theorem State.setCore_free (s : State) (c : Nat) (v : Core) : (s.setCore c v).free = s.free := rfl
@[simp] theorem State.setCore_eventRun (s : State) (c : Nat) (v : Core) : (s.setCore c v).eventRun = s.eventRun := rfl
@[simp] theorem State.setCore_issueRun (s : State) (c : Nat) (v : Core) : (s.setCore c v).issueRun = s.issueRun := rfl
@[simp] theorem State.setCore_issueAt (s : State) (c : Nat) (v : Core) : (s.setCore c v).issueAt = s.issueAt := rfl
@[simp] theorem State.setCore_issue (s : State) (c : Nat) (v : Core) : (s.setCore c v).issue = s.issue := rfl
@[simp] theorem State.setCore_agenda (s : State) (c : Nat) (v : Core) : (s.setCore c v).agenda = s.agenda := rfl

/-! ## State.setDie -/

@[simp] theorem State.setDie_mem (s : State) (c : Nat) (v : Die) : (s.setDie c v).mem = s.mem := rfl
@[simp] theorem State.setDie_poison (s : State) (c : Nat) (v : Die) : (s.setDie c v).poison = s.poison := rfl
@[simp] theorem State.setDie_cores (s : State) (c : Nat) (v : Die) : (s.setDie c v).cores = s.cores := rfl
@[simp] theorem State.setDie_dies (s : State) (c : Nat) (v : Die) : (s.setDie c v).dies = Table.set s.dies c v := rfl
@[simp] theorem State.setDie_groups (s : State) (c : Nat) (v : Die) : (s.setDie c v).groups = s.groups := rfl
@[simp] theorem State.setDie_blocks (s : State) (c : Nat) (v : Die) : (s.setDie c v).blocks = s.blocks := rfl
@[simp] theorem State.setDie_barriers (s : State) (c : Nat) (v : Die) : (s.setDie c v).barriers = s.barriers := rfl
@[simp] theorem State.setDie_contexts (s : State) (c : Nat) (v : Die) : (s.setDie c v).contexts = s.contexts := rfl
@[simp] theorem State.setDie_grids (s : State) (c : Nat) (v : Die) : (s.setDie c v).grids = s.grids := rfl
@[simp] theorem State.setDie_nextTag (s : State) (c : Nat) (v : Die) : (s.setDie c v).nextTag = s.nextTag := rfl
@[simp] theorem State.setDie_sidings (s : State) (c : Nat) (v : Die) : (s.setDie c v).sidings = s.sidings := rfl
@[simp] theorem State.setDie_deferred (s : State) (c : Nat) (v : Die) : (s.setDie c v).deferred = s.deferred := rfl
@[simp] theorem State.setDie_pins (s : State) (c : Nat) (v : Die) : (s.setDie c v).pins = s.pins := rfl
@[simp] theorem State.setDie_publications (s : State) (c : Nat) (v : Die) : (s.setDie c v).publications = s.publications := rfl
@[simp] theorem State.setDie_commits (s : State) (c : Nat) (v : Die) : (s.setDie c v).commits = s.commits := rfl
@[simp] theorem State.setDie_semWaits (s : State) (c : Nat) (v : Die) : (s.setDie c v).semWaits = s.semWaits := rfl
@[simp] theorem State.setDie_acks (s : State) (c : Nat) (v : Die) : (s.setDie c v).acks = s.acks := rfl
@[simp] theorem State.setDie_seqWaits (s : State) (c : Nat) (v : Die) : (s.setDie c v).seqWaits = s.seqWaits := rfl
@[simp] theorem State.setDie_aside (s : State) (c : Nat) (v : Die) : (s.setDie c v).aside = s.aside := rfl
@[simp] theorem State.setDie_mediaAside (s : State) (c : Nat) (v : Die) : (s.setDie c v).mediaAside = s.mediaAside := rfl
@[simp] theorem State.setDie_colls (s : State) (c : Nat) (v : Die) : (s.setDie c v).colls = s.colls := rfl
@[simp] theorem State.setDie_collCounts (s : State) (c : Nat) (v : Die) : (s.setDie c v).collCounts = s.collCounts := rfl
@[simp] theorem State.setDie_mailboxes (s : State) (c : Nat) (v : Die) : (s.setDie c v).mailboxes = s.mailboxes := rfl
@[simp] theorem State.setDie_doorbells (s : State) (c : Nat) (v : Die) : (s.setDie c v).doorbells = s.doorbells := rfl
@[simp] theorem State.setDie_overruns (s : State) (c : Nat) (v : Die) : (s.setDie c v).overruns = s.overruns := rfl
@[simp] theorem State.setDie_media (s : State) (c : Nat) (v : Die) : (s.setDie c v).media = s.media := rfl
@[simp] theorem State.setDie_hostSectors (s : State) (c : Nat) (v : Die) : (s.setDie c v).hostSectors = s.hostSectors := rfl
@[simp] theorem State.setDie_hostHeld (s : State) (c : Nat) (v : Die) : (s.setDie c v).hostHeld = s.hostHeld := rfl
@[simp] theorem State.setDie_hostRequests (s : State) (c : Nat) (v : Die) : (s.setDie c v).hostRequests = s.hostRequests := rfl
@[simp] theorem State.setDie_hostReads (s : State) (c : Nat) (v : Die) : (s.setDie c v).hostReads = s.hostReads := rfl
@[simp] theorem State.setDie_interrupts (s : State) (c : Nat) (v : Die) : (s.setDie c v).interrupts = s.interrupts := rfl
@[simp] theorem State.setDie_reqRecords (s : State) (c : Nat) (v : Die) : (s.setDie c v).reqRecords = s.reqRecords := rfl
@[simp] theorem State.setDie_sboxSeq (s : State) (c : Nat) (v : Die) : (s.setDie c v).sboxSeq = s.sboxSeq := rfl
@[simp] theorem State.setDie_replicated (s : State) (c : Nat) (v : Die) : (s.setDie c v).replicated = s.replicated := rfl
@[simp] theorem State.setDie_peerBases (s : State) (c : Nat) (v : Die) : (s.setDie c v).peerBases = s.peerBases := rfl
@[simp] theorem State.setDie_peersLost (s : State) (c : Nat) (v : Die) : (s.setDie c v).peersLost = s.peersLost := rfl
@[simp] theorem State.setDie_peerSent (s : State) (c : Nat) (v : Die) : (s.setDie c v).peerSent = s.peerSent := rfl
@[simp] theorem State.setDie_images (s : State) (c : Nat) (v : Die) : (s.setDie c v).images = s.images := rfl
@[simp] theorem State.setDie_errorTimes (s : State) (c : Nat) (v : Die) : (s.setDie c v).errorTimes = s.errorTimes := rfl
@[simp] theorem State.setDie_errorWindow (s : State) (c : Nat) (v : Die) : (s.setDie c v).errorWindow = s.errorWindow := rfl
@[simp] theorem State.setDie_thresholds (s : State) (c : Nat) (v : Die) : (s.setDie c v).thresholds = s.thresholds := rfl
@[simp] theorem State.setDie_failing (s : State) (c : Nat) (v : Die) : (s.setDie c v).failing = s.failing := rfl
@[simp] theorem State.setDie_reports (s : State) (c : Nat) (v : Die) : (s.setDie c v).reports = s.reports := rfl
@[simp] theorem State.setDie_timed (s : State) (c : Nat) (v : Die) : (s.setDie c v).timed = s.timed := rfl
@[simp] theorem State.setDie_linkLanesOff (s : State) (c : Nat) (v : Die) : (s.setDie c v).linkLanesOff = s.linkLanesOff := rfl
@[simp] theorem State.setDie_armMHz (s : State) (c : Nat) (v : Die) : (s.setDie c v).armMHz = s.armMHz := rfl
@[simp] theorem State.setDie_cycle (s : State) (c : Nat) (v : Die) : (s.setDie c v).cycle = s.cycle := rfl
@[simp] theorem State.setDie_free (s : State) (c : Nat) (v : Die) : (s.setDie c v).free = s.free := rfl
@[simp] theorem State.setDie_eventRun (s : State) (c : Nat) (v : Die) : (s.setDie c v).eventRun = s.eventRun := rfl
@[simp] theorem State.setDie_issueRun (s : State) (c : Nat) (v : Die) : (s.setDie c v).issueRun = s.issueRun := rfl
@[simp] theorem State.setDie_issueAt (s : State) (c : Nat) (v : Die) : (s.setDie c v).issueAt = s.issueAt := rfl
@[simp] theorem State.setDie_issue (s : State) (c : Nat) (v : Die) : (s.setDie c v).issue = s.issue := rfl
@[simp] theorem State.setDie_agenda (s : State) (c : Nat) (v : Die) : (s.setDie c v).agenda = s.agenda := rfl

/-! ## State.setGroup -/

@[simp] theorem State.setGroup_mem (s : State) (c : Nat) (v : Group) : (s.setGroup c v).mem = s.mem := rfl
@[simp] theorem State.setGroup_poison (s : State) (c : Nat) (v : Group) : (s.setGroup c v).poison = s.poison := rfl
@[simp] theorem State.setGroup_cores (s : State) (c : Nat) (v : Group) : (s.setGroup c v).cores = s.cores := rfl
@[simp] theorem State.setGroup_dies (s : State) (c : Nat) (v : Group) : (s.setGroup c v).dies = s.dies := rfl
@[simp] theorem State.setGroup_groups (s : State) (c : Nat) (v : Group) : (s.setGroup c v).groups = Table.set s.groups c v := rfl
@[simp] theorem State.setGroup_blocks (s : State) (c : Nat) (v : Group) : (s.setGroup c v).blocks = s.blocks := rfl
@[simp] theorem State.setGroup_barriers (s : State) (c : Nat) (v : Group) : (s.setGroup c v).barriers = s.barriers := rfl
@[simp] theorem State.setGroup_contexts (s : State) (c : Nat) (v : Group) : (s.setGroup c v).contexts = s.contexts := rfl
@[simp] theorem State.setGroup_grids (s : State) (c : Nat) (v : Group) : (s.setGroup c v).grids = s.grids := rfl
@[simp] theorem State.setGroup_nextTag (s : State) (c : Nat) (v : Group) : (s.setGroup c v).nextTag = s.nextTag := rfl
@[simp] theorem State.setGroup_sidings (s : State) (c : Nat) (v : Group) : (s.setGroup c v).sidings = s.sidings := rfl
@[simp] theorem State.setGroup_deferred (s : State) (c : Nat) (v : Group) : (s.setGroup c v).deferred = s.deferred := rfl
@[simp] theorem State.setGroup_pins (s : State) (c : Nat) (v : Group) : (s.setGroup c v).pins = s.pins := rfl
@[simp] theorem State.setGroup_publications (s : State) (c : Nat) (v : Group) : (s.setGroup c v).publications = s.publications := rfl
@[simp] theorem State.setGroup_commits (s : State) (c : Nat) (v : Group) : (s.setGroup c v).commits = s.commits := rfl
@[simp] theorem State.setGroup_semWaits (s : State) (c : Nat) (v : Group) : (s.setGroup c v).semWaits = s.semWaits := rfl
@[simp] theorem State.setGroup_acks (s : State) (c : Nat) (v : Group) : (s.setGroup c v).acks = s.acks := rfl
@[simp] theorem State.setGroup_seqWaits (s : State) (c : Nat) (v : Group) : (s.setGroup c v).seqWaits = s.seqWaits := rfl
@[simp] theorem State.setGroup_aside (s : State) (c : Nat) (v : Group) : (s.setGroup c v).aside = s.aside := rfl
@[simp] theorem State.setGroup_mediaAside (s : State) (c : Nat) (v : Group) : (s.setGroup c v).mediaAside = s.mediaAside := rfl
@[simp] theorem State.setGroup_colls (s : State) (c : Nat) (v : Group) : (s.setGroup c v).colls = s.colls := rfl
@[simp] theorem State.setGroup_collCounts (s : State) (c : Nat) (v : Group) : (s.setGroup c v).collCounts = s.collCounts := rfl
@[simp] theorem State.setGroup_mailboxes (s : State) (c : Nat) (v : Group) : (s.setGroup c v).mailboxes = s.mailboxes := rfl
@[simp] theorem State.setGroup_doorbells (s : State) (c : Nat) (v : Group) : (s.setGroup c v).doorbells = s.doorbells := rfl
@[simp] theorem State.setGroup_overruns (s : State) (c : Nat) (v : Group) : (s.setGroup c v).overruns = s.overruns := rfl
@[simp] theorem State.setGroup_media (s : State) (c : Nat) (v : Group) : (s.setGroup c v).media = s.media := rfl
@[simp] theorem State.setGroup_hostSectors (s : State) (c : Nat) (v : Group) : (s.setGroup c v).hostSectors = s.hostSectors := rfl
@[simp] theorem State.setGroup_hostHeld (s : State) (c : Nat) (v : Group) : (s.setGroup c v).hostHeld = s.hostHeld := rfl
@[simp] theorem State.setGroup_hostRequests (s : State) (c : Nat) (v : Group) : (s.setGroup c v).hostRequests = s.hostRequests := rfl
@[simp] theorem State.setGroup_hostReads (s : State) (c : Nat) (v : Group) : (s.setGroup c v).hostReads = s.hostReads := rfl
@[simp] theorem State.setGroup_interrupts (s : State) (c : Nat) (v : Group) : (s.setGroup c v).interrupts = s.interrupts := rfl
@[simp] theorem State.setGroup_reqRecords (s : State) (c : Nat) (v : Group) : (s.setGroup c v).reqRecords = s.reqRecords := rfl
@[simp] theorem State.setGroup_sboxSeq (s : State) (c : Nat) (v : Group) : (s.setGroup c v).sboxSeq = s.sboxSeq := rfl
@[simp] theorem State.setGroup_replicated (s : State) (c : Nat) (v : Group) : (s.setGroup c v).replicated = s.replicated := rfl
@[simp] theorem State.setGroup_peerBases (s : State) (c : Nat) (v : Group) : (s.setGroup c v).peerBases = s.peerBases := rfl
@[simp] theorem State.setGroup_peersLost (s : State) (c : Nat) (v : Group) : (s.setGroup c v).peersLost = s.peersLost := rfl
@[simp] theorem State.setGroup_peerSent (s : State) (c : Nat) (v : Group) : (s.setGroup c v).peerSent = s.peerSent := rfl
@[simp] theorem State.setGroup_images (s : State) (c : Nat) (v : Group) : (s.setGroup c v).images = s.images := rfl
@[simp] theorem State.setGroup_errorTimes (s : State) (c : Nat) (v : Group) : (s.setGroup c v).errorTimes = s.errorTimes := rfl
@[simp] theorem State.setGroup_errorWindow (s : State) (c : Nat) (v : Group) : (s.setGroup c v).errorWindow = s.errorWindow := rfl
@[simp] theorem State.setGroup_thresholds (s : State) (c : Nat) (v : Group) : (s.setGroup c v).thresholds = s.thresholds := rfl
@[simp] theorem State.setGroup_failing (s : State) (c : Nat) (v : Group) : (s.setGroup c v).failing = s.failing := rfl
@[simp] theorem State.setGroup_reports (s : State) (c : Nat) (v : Group) : (s.setGroup c v).reports = s.reports := rfl
@[simp] theorem State.setGroup_timed (s : State) (c : Nat) (v : Group) : (s.setGroup c v).timed = s.timed := rfl
@[simp] theorem State.setGroup_linkLanesOff (s : State) (c : Nat) (v : Group) : (s.setGroup c v).linkLanesOff = s.linkLanesOff := rfl
@[simp] theorem State.setGroup_armMHz (s : State) (c : Nat) (v : Group) : (s.setGroup c v).armMHz = s.armMHz := rfl
@[simp] theorem State.setGroup_cycle (s : State) (c : Nat) (v : Group) : (s.setGroup c v).cycle = s.cycle := rfl
@[simp] theorem State.setGroup_free (s : State) (c : Nat) (v : Group) : (s.setGroup c v).free = s.free := rfl
@[simp] theorem State.setGroup_eventRun (s : State) (c : Nat) (v : Group) : (s.setGroup c v).eventRun = s.eventRun := rfl
@[simp] theorem State.setGroup_issueRun (s : State) (c : Nat) (v : Group) : (s.setGroup c v).issueRun = s.issueRun := rfl
@[simp] theorem State.setGroup_issueAt (s : State) (c : Nat) (v : Group) : (s.setGroup c v).issueAt = s.issueAt := rfl
@[simp] theorem State.setGroup_issue (s : State) (c : Nat) (v : Group) : (s.setGroup c v).issue = s.issue := rfl
@[simp] theorem State.setGroup_agenda (s : State) (c : Nat) (v : Group) : (s.setGroup c v).agenda = s.agenda := rfl

/-! ## State.setContext -/

@[simp] theorem State.setContext_mem (s : State) (c : Nat) (v : Context) : (s.setContext c v).mem = s.mem := rfl
@[simp] theorem State.setContext_poison (s : State) (c : Nat) (v : Context) : (s.setContext c v).poison = s.poison := rfl
@[simp] theorem State.setContext_cores (s : State) (c : Nat) (v : Context) : (s.setContext c v).cores = s.cores := rfl
@[simp] theorem State.setContext_dies (s : State) (c : Nat) (v : Context) : (s.setContext c v).dies = s.dies := rfl
@[simp] theorem State.setContext_groups (s : State) (c : Nat) (v : Context) : (s.setContext c v).groups = s.groups := rfl
@[simp] theorem State.setContext_blocks (s : State) (c : Nat) (v : Context) : (s.setContext c v).blocks = s.blocks := rfl
@[simp] theorem State.setContext_barriers (s : State) (c : Nat) (v : Context) : (s.setContext c v).barriers = s.barriers := rfl
@[simp] theorem State.setContext_contexts (s : State) (c : Nat) (v : Context) : (s.setContext c v).contexts = Table.set s.contexts c v := rfl
@[simp] theorem State.setContext_grids (s : State) (c : Nat) (v : Context) : (s.setContext c v).grids = s.grids := rfl
@[simp] theorem State.setContext_nextTag (s : State) (c : Nat) (v : Context) : (s.setContext c v).nextTag = s.nextTag := rfl
@[simp] theorem State.setContext_sidings (s : State) (c : Nat) (v : Context) : (s.setContext c v).sidings = s.sidings := rfl
@[simp] theorem State.setContext_deferred (s : State) (c : Nat) (v : Context) : (s.setContext c v).deferred = s.deferred := rfl
@[simp] theorem State.setContext_pins (s : State) (c : Nat) (v : Context) : (s.setContext c v).pins = s.pins := rfl
@[simp] theorem State.setContext_publications (s : State) (c : Nat) (v : Context) : (s.setContext c v).publications = s.publications := rfl
@[simp] theorem State.setContext_commits (s : State) (c : Nat) (v : Context) : (s.setContext c v).commits = s.commits := rfl
@[simp] theorem State.setContext_semWaits (s : State) (c : Nat) (v : Context) : (s.setContext c v).semWaits = s.semWaits := rfl
@[simp] theorem State.setContext_acks (s : State) (c : Nat) (v : Context) : (s.setContext c v).acks = s.acks := rfl
@[simp] theorem State.setContext_seqWaits (s : State) (c : Nat) (v : Context) : (s.setContext c v).seqWaits = s.seqWaits := rfl
@[simp] theorem State.setContext_aside (s : State) (c : Nat) (v : Context) : (s.setContext c v).aside = s.aside := rfl
@[simp] theorem State.setContext_mediaAside (s : State) (c : Nat) (v : Context) : (s.setContext c v).mediaAside = s.mediaAside := rfl
@[simp] theorem State.setContext_colls (s : State) (c : Nat) (v : Context) : (s.setContext c v).colls = s.colls := rfl
@[simp] theorem State.setContext_collCounts (s : State) (c : Nat) (v : Context) : (s.setContext c v).collCounts = s.collCounts := rfl
@[simp] theorem State.setContext_mailboxes (s : State) (c : Nat) (v : Context) : (s.setContext c v).mailboxes = s.mailboxes := rfl
@[simp] theorem State.setContext_doorbells (s : State) (c : Nat) (v : Context) : (s.setContext c v).doorbells = s.doorbells := rfl
@[simp] theorem State.setContext_overruns (s : State) (c : Nat) (v : Context) : (s.setContext c v).overruns = s.overruns := rfl
@[simp] theorem State.setContext_media (s : State) (c : Nat) (v : Context) : (s.setContext c v).media = s.media := rfl
@[simp] theorem State.setContext_hostSectors (s : State) (c : Nat) (v : Context) : (s.setContext c v).hostSectors = s.hostSectors := rfl
@[simp] theorem State.setContext_hostHeld (s : State) (c : Nat) (v : Context) : (s.setContext c v).hostHeld = s.hostHeld := rfl
@[simp] theorem State.setContext_hostRequests (s : State) (c : Nat) (v : Context) : (s.setContext c v).hostRequests = s.hostRequests := rfl
@[simp] theorem State.setContext_hostReads (s : State) (c : Nat) (v : Context) : (s.setContext c v).hostReads = s.hostReads := rfl
@[simp] theorem State.setContext_interrupts (s : State) (c : Nat) (v : Context) : (s.setContext c v).interrupts = s.interrupts := rfl
@[simp] theorem State.setContext_reqRecords (s : State) (c : Nat) (v : Context) : (s.setContext c v).reqRecords = s.reqRecords := rfl
@[simp] theorem State.setContext_sboxSeq (s : State) (c : Nat) (v : Context) : (s.setContext c v).sboxSeq = s.sboxSeq := rfl
@[simp] theorem State.setContext_replicated (s : State) (c : Nat) (v : Context) : (s.setContext c v).replicated = s.replicated := rfl
@[simp] theorem State.setContext_peerBases (s : State) (c : Nat) (v : Context) : (s.setContext c v).peerBases = s.peerBases := rfl
@[simp] theorem State.setContext_peersLost (s : State) (c : Nat) (v : Context) : (s.setContext c v).peersLost = s.peersLost := rfl
@[simp] theorem State.setContext_peerSent (s : State) (c : Nat) (v : Context) : (s.setContext c v).peerSent = s.peerSent := rfl
@[simp] theorem State.setContext_images (s : State) (c : Nat) (v : Context) : (s.setContext c v).images = s.images := rfl
@[simp] theorem State.setContext_errorTimes (s : State) (c : Nat) (v : Context) : (s.setContext c v).errorTimes = s.errorTimes := rfl
@[simp] theorem State.setContext_errorWindow (s : State) (c : Nat) (v : Context) : (s.setContext c v).errorWindow = s.errorWindow := rfl
@[simp] theorem State.setContext_thresholds (s : State) (c : Nat) (v : Context) : (s.setContext c v).thresholds = s.thresholds := rfl
@[simp] theorem State.setContext_failing (s : State) (c : Nat) (v : Context) : (s.setContext c v).failing = s.failing := rfl
@[simp] theorem State.setContext_reports (s : State) (c : Nat) (v : Context) : (s.setContext c v).reports = s.reports := rfl
@[simp] theorem State.setContext_timed (s : State) (c : Nat) (v : Context) : (s.setContext c v).timed = s.timed := rfl
@[simp] theorem State.setContext_linkLanesOff (s : State) (c : Nat) (v : Context) : (s.setContext c v).linkLanesOff = s.linkLanesOff := rfl
@[simp] theorem State.setContext_armMHz (s : State) (c : Nat) (v : Context) : (s.setContext c v).armMHz = s.armMHz := rfl
@[simp] theorem State.setContext_cycle (s : State) (c : Nat) (v : Context) : (s.setContext c v).cycle = s.cycle := rfl
@[simp] theorem State.setContext_free (s : State) (c : Nat) (v : Context) : (s.setContext c v).free = s.free := rfl
@[simp] theorem State.setContext_eventRun (s : State) (c : Nat) (v : Context) : (s.setContext c v).eventRun = s.eventRun := rfl
@[simp] theorem State.setContext_issueRun (s : State) (c : Nat) (v : Context) : (s.setContext c v).issueRun = s.issueRun := rfl
@[simp] theorem State.setContext_issueAt (s : State) (c : Nat) (v : Context) : (s.setContext c v).issueAt = s.issueAt := rfl
@[simp] theorem State.setContext_issue (s : State) (c : Nat) (v : Context) : (s.setContext c v).issue = s.issue := rfl
@[simp] theorem State.setContext_agenda (s : State) (c : Nat) (v : Context) : (s.setContext c v).agenda = s.agenda := rfl

/-! ## State.setGrid -/

@[simp] theorem State.setGrid_mem (s : State) (c : Nat) (v : Grid) : (s.setGrid c v).mem = s.mem := rfl
@[simp] theorem State.setGrid_poison (s : State) (c : Nat) (v : Grid) : (s.setGrid c v).poison = s.poison := rfl
@[simp] theorem State.setGrid_cores (s : State) (c : Nat) (v : Grid) : (s.setGrid c v).cores = s.cores := rfl
@[simp] theorem State.setGrid_dies (s : State) (c : Nat) (v : Grid) : (s.setGrid c v).dies = s.dies := rfl
@[simp] theorem State.setGrid_groups (s : State) (c : Nat) (v : Grid) : (s.setGrid c v).groups = s.groups := rfl
@[simp] theorem State.setGrid_blocks (s : State) (c : Nat) (v : Grid) : (s.setGrid c v).blocks = s.blocks := rfl
@[simp] theorem State.setGrid_barriers (s : State) (c : Nat) (v : Grid) : (s.setGrid c v).barriers = s.barriers := rfl
@[simp] theorem State.setGrid_contexts (s : State) (c : Nat) (v : Grid) : (s.setGrid c v).contexts = s.contexts := rfl
@[simp] theorem State.setGrid_grids (s : State) (c : Nat) (v : Grid) : (s.setGrid c v).grids = Table.set s.grids c v := rfl
@[simp] theorem State.setGrid_nextTag (s : State) (c : Nat) (v : Grid) : (s.setGrid c v).nextTag = s.nextTag := rfl
@[simp] theorem State.setGrid_sidings (s : State) (c : Nat) (v : Grid) : (s.setGrid c v).sidings = s.sidings := rfl
@[simp] theorem State.setGrid_deferred (s : State) (c : Nat) (v : Grid) : (s.setGrid c v).deferred = s.deferred := rfl
@[simp] theorem State.setGrid_pins (s : State) (c : Nat) (v : Grid) : (s.setGrid c v).pins = s.pins := rfl
@[simp] theorem State.setGrid_publications (s : State) (c : Nat) (v : Grid) : (s.setGrid c v).publications = s.publications := rfl
@[simp] theorem State.setGrid_commits (s : State) (c : Nat) (v : Grid) : (s.setGrid c v).commits = s.commits := rfl
@[simp] theorem State.setGrid_semWaits (s : State) (c : Nat) (v : Grid) : (s.setGrid c v).semWaits = s.semWaits := rfl
@[simp] theorem State.setGrid_acks (s : State) (c : Nat) (v : Grid) : (s.setGrid c v).acks = s.acks := rfl
@[simp] theorem State.setGrid_seqWaits (s : State) (c : Nat) (v : Grid) : (s.setGrid c v).seqWaits = s.seqWaits := rfl
@[simp] theorem State.setGrid_aside (s : State) (c : Nat) (v : Grid) : (s.setGrid c v).aside = s.aside := rfl
@[simp] theorem State.setGrid_mediaAside (s : State) (c : Nat) (v : Grid) : (s.setGrid c v).mediaAside = s.mediaAside := rfl
@[simp] theorem State.setGrid_colls (s : State) (c : Nat) (v : Grid) : (s.setGrid c v).colls = s.colls := rfl
@[simp] theorem State.setGrid_collCounts (s : State) (c : Nat) (v : Grid) : (s.setGrid c v).collCounts = s.collCounts := rfl
@[simp] theorem State.setGrid_mailboxes (s : State) (c : Nat) (v : Grid) : (s.setGrid c v).mailboxes = s.mailboxes := rfl
@[simp] theorem State.setGrid_doorbells (s : State) (c : Nat) (v : Grid) : (s.setGrid c v).doorbells = s.doorbells := rfl
@[simp] theorem State.setGrid_overruns (s : State) (c : Nat) (v : Grid) : (s.setGrid c v).overruns = s.overruns := rfl
@[simp] theorem State.setGrid_media (s : State) (c : Nat) (v : Grid) : (s.setGrid c v).media = s.media := rfl
@[simp] theorem State.setGrid_hostSectors (s : State) (c : Nat) (v : Grid) : (s.setGrid c v).hostSectors = s.hostSectors := rfl
@[simp] theorem State.setGrid_hostHeld (s : State) (c : Nat) (v : Grid) : (s.setGrid c v).hostHeld = s.hostHeld := rfl
@[simp] theorem State.setGrid_hostRequests (s : State) (c : Nat) (v : Grid) : (s.setGrid c v).hostRequests = s.hostRequests := rfl
@[simp] theorem State.setGrid_hostReads (s : State) (c : Nat) (v : Grid) : (s.setGrid c v).hostReads = s.hostReads := rfl
@[simp] theorem State.setGrid_interrupts (s : State) (c : Nat) (v : Grid) : (s.setGrid c v).interrupts = s.interrupts := rfl
@[simp] theorem State.setGrid_reqRecords (s : State) (c : Nat) (v : Grid) : (s.setGrid c v).reqRecords = s.reqRecords := rfl
@[simp] theorem State.setGrid_sboxSeq (s : State) (c : Nat) (v : Grid) : (s.setGrid c v).sboxSeq = s.sboxSeq := rfl
@[simp] theorem State.setGrid_replicated (s : State) (c : Nat) (v : Grid) : (s.setGrid c v).replicated = s.replicated := rfl
@[simp] theorem State.setGrid_peerBases (s : State) (c : Nat) (v : Grid) : (s.setGrid c v).peerBases = s.peerBases := rfl
@[simp] theorem State.setGrid_peersLost (s : State) (c : Nat) (v : Grid) : (s.setGrid c v).peersLost = s.peersLost := rfl
@[simp] theorem State.setGrid_peerSent (s : State) (c : Nat) (v : Grid) : (s.setGrid c v).peerSent = s.peerSent := rfl
@[simp] theorem State.setGrid_images (s : State) (c : Nat) (v : Grid) : (s.setGrid c v).images = s.images := rfl
@[simp] theorem State.setGrid_errorTimes (s : State) (c : Nat) (v : Grid) : (s.setGrid c v).errorTimes = s.errorTimes := rfl
@[simp] theorem State.setGrid_errorWindow (s : State) (c : Nat) (v : Grid) : (s.setGrid c v).errorWindow = s.errorWindow := rfl
@[simp] theorem State.setGrid_thresholds (s : State) (c : Nat) (v : Grid) : (s.setGrid c v).thresholds = s.thresholds := rfl
@[simp] theorem State.setGrid_failing (s : State) (c : Nat) (v : Grid) : (s.setGrid c v).failing = s.failing := rfl
@[simp] theorem State.setGrid_reports (s : State) (c : Nat) (v : Grid) : (s.setGrid c v).reports = s.reports := rfl
@[simp] theorem State.setGrid_timed (s : State) (c : Nat) (v : Grid) : (s.setGrid c v).timed = s.timed := rfl
@[simp] theorem State.setGrid_linkLanesOff (s : State) (c : Nat) (v : Grid) : (s.setGrid c v).linkLanesOff = s.linkLanesOff := rfl
@[simp] theorem State.setGrid_armMHz (s : State) (c : Nat) (v : Grid) : (s.setGrid c v).armMHz = s.armMHz := rfl
@[simp] theorem State.setGrid_cycle (s : State) (c : Nat) (v : Grid) : (s.setGrid c v).cycle = s.cycle := rfl
@[simp] theorem State.setGrid_free (s : State) (c : Nat) (v : Grid) : (s.setGrid c v).free = s.free := rfl
@[simp] theorem State.setGrid_eventRun (s : State) (c : Nat) (v : Grid) : (s.setGrid c v).eventRun = s.eventRun := rfl
@[simp] theorem State.setGrid_issueRun (s : State) (c : Nat) (v : Grid) : (s.setGrid c v).issueRun = s.issueRun := rfl
@[simp] theorem State.setGrid_issueAt (s : State) (c : Nat) (v : Grid) : (s.setGrid c v).issueAt = s.issueAt := rfl
@[simp] theorem State.setGrid_issue (s : State) (c : Nat) (v : Grid) : (s.setGrid c v).issue = s.issue := rfl
@[simp] theorem State.setGrid_agenda (s : State) (c : Nat) (v : Grid) : (s.setGrid c v).agenda = s.agenda := rfl

/-! ## State.setBlock -/

@[simp] theorem State.setBlock_mem (s : State) (c : Nat) (v : Block) : (s.setBlock c v).mem = s.mem := rfl
@[simp] theorem State.setBlock_poison (s : State) (c : Nat) (v : Block) : (s.setBlock c v).poison = s.poison := rfl
@[simp] theorem State.setBlock_cores (s : State) (c : Nat) (v : Block) : (s.setBlock c v).cores = s.cores := rfl
@[simp] theorem State.setBlock_dies (s : State) (c : Nat) (v : Block) : (s.setBlock c v).dies = s.dies := rfl
@[simp] theorem State.setBlock_groups (s : State) (c : Nat) (v : Block) : (s.setBlock c v).groups = s.groups := rfl
@[simp] theorem State.setBlock_blocks (s : State) (c : Nat) (v : Block) : (s.setBlock c v).blocks = Table.set s.blocks c v := rfl
@[simp] theorem State.setBlock_barriers (s : State) (c : Nat) (v : Block) : (s.setBlock c v).barriers = s.barriers := rfl
@[simp] theorem State.setBlock_contexts (s : State) (c : Nat) (v : Block) : (s.setBlock c v).contexts = s.contexts := rfl
@[simp] theorem State.setBlock_grids (s : State) (c : Nat) (v : Block) : (s.setBlock c v).grids = s.grids := rfl
@[simp] theorem State.setBlock_nextTag (s : State) (c : Nat) (v : Block) : (s.setBlock c v).nextTag = s.nextTag := rfl
@[simp] theorem State.setBlock_sidings (s : State) (c : Nat) (v : Block) : (s.setBlock c v).sidings = s.sidings := rfl
@[simp] theorem State.setBlock_deferred (s : State) (c : Nat) (v : Block) : (s.setBlock c v).deferred = s.deferred := rfl
@[simp] theorem State.setBlock_pins (s : State) (c : Nat) (v : Block) : (s.setBlock c v).pins = s.pins := rfl
@[simp] theorem State.setBlock_publications (s : State) (c : Nat) (v : Block) : (s.setBlock c v).publications = s.publications := rfl
@[simp] theorem State.setBlock_commits (s : State) (c : Nat) (v : Block) : (s.setBlock c v).commits = s.commits := rfl
@[simp] theorem State.setBlock_semWaits (s : State) (c : Nat) (v : Block) : (s.setBlock c v).semWaits = s.semWaits := rfl
@[simp] theorem State.setBlock_acks (s : State) (c : Nat) (v : Block) : (s.setBlock c v).acks = s.acks := rfl
@[simp] theorem State.setBlock_seqWaits (s : State) (c : Nat) (v : Block) : (s.setBlock c v).seqWaits = s.seqWaits := rfl
@[simp] theorem State.setBlock_aside (s : State) (c : Nat) (v : Block) : (s.setBlock c v).aside = s.aside := rfl
@[simp] theorem State.setBlock_mediaAside (s : State) (c : Nat) (v : Block) : (s.setBlock c v).mediaAside = s.mediaAside := rfl
@[simp] theorem State.setBlock_colls (s : State) (c : Nat) (v : Block) : (s.setBlock c v).colls = s.colls := rfl
@[simp] theorem State.setBlock_collCounts (s : State) (c : Nat) (v : Block) : (s.setBlock c v).collCounts = s.collCounts := rfl
@[simp] theorem State.setBlock_mailboxes (s : State) (c : Nat) (v : Block) : (s.setBlock c v).mailboxes = s.mailboxes := rfl
@[simp] theorem State.setBlock_doorbells (s : State) (c : Nat) (v : Block) : (s.setBlock c v).doorbells = s.doorbells := rfl
@[simp] theorem State.setBlock_overruns (s : State) (c : Nat) (v : Block) : (s.setBlock c v).overruns = s.overruns := rfl
@[simp] theorem State.setBlock_media (s : State) (c : Nat) (v : Block) : (s.setBlock c v).media = s.media := rfl
@[simp] theorem State.setBlock_hostSectors (s : State) (c : Nat) (v : Block) : (s.setBlock c v).hostSectors = s.hostSectors := rfl
@[simp] theorem State.setBlock_hostHeld (s : State) (c : Nat) (v : Block) : (s.setBlock c v).hostHeld = s.hostHeld := rfl
@[simp] theorem State.setBlock_hostRequests (s : State) (c : Nat) (v : Block) : (s.setBlock c v).hostRequests = s.hostRequests := rfl
@[simp] theorem State.setBlock_hostReads (s : State) (c : Nat) (v : Block) : (s.setBlock c v).hostReads = s.hostReads := rfl
@[simp] theorem State.setBlock_interrupts (s : State) (c : Nat) (v : Block) : (s.setBlock c v).interrupts = s.interrupts := rfl
@[simp] theorem State.setBlock_reqRecords (s : State) (c : Nat) (v : Block) : (s.setBlock c v).reqRecords = s.reqRecords := rfl
@[simp] theorem State.setBlock_sboxSeq (s : State) (c : Nat) (v : Block) : (s.setBlock c v).sboxSeq = s.sboxSeq := rfl
@[simp] theorem State.setBlock_replicated (s : State) (c : Nat) (v : Block) : (s.setBlock c v).replicated = s.replicated := rfl
@[simp] theorem State.setBlock_peerBases (s : State) (c : Nat) (v : Block) : (s.setBlock c v).peerBases = s.peerBases := rfl
@[simp] theorem State.setBlock_peersLost (s : State) (c : Nat) (v : Block) : (s.setBlock c v).peersLost = s.peersLost := rfl
@[simp] theorem State.setBlock_peerSent (s : State) (c : Nat) (v : Block) : (s.setBlock c v).peerSent = s.peerSent := rfl
@[simp] theorem State.setBlock_images (s : State) (c : Nat) (v : Block) : (s.setBlock c v).images = s.images := rfl
@[simp] theorem State.setBlock_errorTimes (s : State) (c : Nat) (v : Block) : (s.setBlock c v).errorTimes = s.errorTimes := rfl
@[simp] theorem State.setBlock_errorWindow (s : State) (c : Nat) (v : Block) : (s.setBlock c v).errorWindow = s.errorWindow := rfl
@[simp] theorem State.setBlock_thresholds (s : State) (c : Nat) (v : Block) : (s.setBlock c v).thresholds = s.thresholds := rfl
@[simp] theorem State.setBlock_failing (s : State) (c : Nat) (v : Block) : (s.setBlock c v).failing = s.failing := rfl
@[simp] theorem State.setBlock_reports (s : State) (c : Nat) (v : Block) : (s.setBlock c v).reports = s.reports := rfl
@[simp] theorem State.setBlock_timed (s : State) (c : Nat) (v : Block) : (s.setBlock c v).timed = s.timed := rfl
@[simp] theorem State.setBlock_linkLanesOff (s : State) (c : Nat) (v : Block) : (s.setBlock c v).linkLanesOff = s.linkLanesOff := rfl
@[simp] theorem State.setBlock_armMHz (s : State) (c : Nat) (v : Block) : (s.setBlock c v).armMHz = s.armMHz := rfl
@[simp] theorem State.setBlock_cycle (s : State) (c : Nat) (v : Block) : (s.setBlock c v).cycle = s.cycle := rfl
@[simp] theorem State.setBlock_free (s : State) (c : Nat) (v : Block) : (s.setBlock c v).free = s.free := rfl
@[simp] theorem State.setBlock_eventRun (s : State) (c : Nat) (v : Block) : (s.setBlock c v).eventRun = s.eventRun := rfl
@[simp] theorem State.setBlock_issueRun (s : State) (c : Nat) (v : Block) : (s.setBlock c v).issueRun = s.issueRun := rfl
@[simp] theorem State.setBlock_issueAt (s : State) (c : Nat) (v : Block) : (s.setBlock c v).issueAt = s.issueAt := rfl
@[simp] theorem State.setBlock_issue (s : State) (c : Nat) (v : Block) : (s.setBlock c v).issue = s.issue := rfl
@[simp] theorem State.setBlock_agenda (s : State) (c : Nat) (v : Block) : (s.setBlock c v).agenda = s.agenda := rfl

/-! ## State.setMailbox -/

@[simp] theorem State.setMailbox_mem (s : State) (c : Nat) (v : Mailbox) : (s.setMailbox c v).mem = s.mem := rfl
@[simp] theorem State.setMailbox_poison (s : State) (c : Nat) (v : Mailbox) : (s.setMailbox c v).poison = s.poison := rfl
@[simp] theorem State.setMailbox_cores (s : State) (c : Nat) (v : Mailbox) : (s.setMailbox c v).cores = s.cores := rfl
@[simp] theorem State.setMailbox_dies (s : State) (c : Nat) (v : Mailbox) : (s.setMailbox c v).dies = s.dies := rfl
@[simp] theorem State.setMailbox_groups (s : State) (c : Nat) (v : Mailbox) : (s.setMailbox c v).groups = s.groups := rfl
@[simp] theorem State.setMailbox_blocks (s : State) (c : Nat) (v : Mailbox) : (s.setMailbox c v).blocks = s.blocks := rfl
@[simp] theorem State.setMailbox_barriers (s : State) (c : Nat) (v : Mailbox) : (s.setMailbox c v).barriers = s.barriers := rfl
@[simp] theorem State.setMailbox_contexts (s : State) (c : Nat) (v : Mailbox) : (s.setMailbox c v).contexts = s.contexts := rfl
@[simp] theorem State.setMailbox_grids (s : State) (c : Nat) (v : Mailbox) : (s.setMailbox c v).grids = s.grids := rfl
@[simp] theorem State.setMailbox_nextTag (s : State) (c : Nat) (v : Mailbox) : (s.setMailbox c v).nextTag = s.nextTag := rfl
@[simp] theorem State.setMailbox_sidings (s : State) (c : Nat) (v : Mailbox) : (s.setMailbox c v).sidings = s.sidings := rfl
@[simp] theorem State.setMailbox_deferred (s : State) (c : Nat) (v : Mailbox) : (s.setMailbox c v).deferred = s.deferred := rfl
@[simp] theorem State.setMailbox_pins (s : State) (c : Nat) (v : Mailbox) : (s.setMailbox c v).pins = s.pins := rfl
@[simp] theorem State.setMailbox_publications (s : State) (c : Nat) (v : Mailbox) : (s.setMailbox c v).publications = s.publications := rfl
@[simp] theorem State.setMailbox_commits (s : State) (c : Nat) (v : Mailbox) : (s.setMailbox c v).commits = s.commits := rfl
@[simp] theorem State.setMailbox_semWaits (s : State) (c : Nat) (v : Mailbox) : (s.setMailbox c v).semWaits = s.semWaits := rfl
@[simp] theorem State.setMailbox_acks (s : State) (c : Nat) (v : Mailbox) : (s.setMailbox c v).acks = s.acks := rfl
@[simp] theorem State.setMailbox_seqWaits (s : State) (c : Nat) (v : Mailbox) : (s.setMailbox c v).seqWaits = s.seqWaits := rfl
@[simp] theorem State.setMailbox_aside (s : State) (c : Nat) (v : Mailbox) : (s.setMailbox c v).aside = s.aside := rfl
@[simp] theorem State.setMailbox_mediaAside (s : State) (c : Nat) (v : Mailbox) : (s.setMailbox c v).mediaAside = s.mediaAside := rfl
@[simp] theorem State.setMailbox_colls (s : State) (c : Nat) (v : Mailbox) : (s.setMailbox c v).colls = s.colls := rfl
@[simp] theorem State.setMailbox_collCounts (s : State) (c : Nat) (v : Mailbox) : (s.setMailbox c v).collCounts = s.collCounts := rfl
@[simp] theorem State.setMailbox_mailboxes (s : State) (c : Nat) (v : Mailbox) : (s.setMailbox c v).mailboxes = Table.set s.mailboxes c v := rfl
@[simp] theorem State.setMailbox_doorbells (s : State) (c : Nat) (v : Mailbox) : (s.setMailbox c v).doorbells = s.doorbells := rfl
@[simp] theorem State.setMailbox_overruns (s : State) (c : Nat) (v : Mailbox) : (s.setMailbox c v).overruns = s.overruns := rfl
@[simp] theorem State.setMailbox_media (s : State) (c : Nat) (v : Mailbox) : (s.setMailbox c v).media = s.media := rfl
@[simp] theorem State.setMailbox_hostSectors (s : State) (c : Nat) (v : Mailbox) : (s.setMailbox c v).hostSectors = s.hostSectors := rfl
@[simp] theorem State.setMailbox_hostHeld (s : State) (c : Nat) (v : Mailbox) : (s.setMailbox c v).hostHeld = s.hostHeld := rfl
@[simp] theorem State.setMailbox_hostRequests (s : State) (c : Nat) (v : Mailbox) : (s.setMailbox c v).hostRequests = s.hostRequests := rfl
@[simp] theorem State.setMailbox_hostReads (s : State) (c : Nat) (v : Mailbox) : (s.setMailbox c v).hostReads = s.hostReads := rfl
@[simp] theorem State.setMailbox_interrupts (s : State) (c : Nat) (v : Mailbox) : (s.setMailbox c v).interrupts = s.interrupts := rfl
@[simp] theorem State.setMailbox_reqRecords (s : State) (c : Nat) (v : Mailbox) : (s.setMailbox c v).reqRecords = s.reqRecords := rfl
@[simp] theorem State.setMailbox_sboxSeq (s : State) (c : Nat) (v : Mailbox) : (s.setMailbox c v).sboxSeq = s.sboxSeq := rfl
@[simp] theorem State.setMailbox_replicated (s : State) (c : Nat) (v : Mailbox) : (s.setMailbox c v).replicated = s.replicated := rfl
@[simp] theorem State.setMailbox_peerBases (s : State) (c : Nat) (v : Mailbox) : (s.setMailbox c v).peerBases = s.peerBases := rfl
@[simp] theorem State.setMailbox_peersLost (s : State) (c : Nat) (v : Mailbox) : (s.setMailbox c v).peersLost = s.peersLost := rfl
@[simp] theorem State.setMailbox_peerSent (s : State) (c : Nat) (v : Mailbox) : (s.setMailbox c v).peerSent = s.peerSent := rfl
@[simp] theorem State.setMailbox_images (s : State) (c : Nat) (v : Mailbox) : (s.setMailbox c v).images = s.images := rfl
@[simp] theorem State.setMailbox_errorTimes (s : State) (c : Nat) (v : Mailbox) : (s.setMailbox c v).errorTimes = s.errorTimes := rfl
@[simp] theorem State.setMailbox_errorWindow (s : State) (c : Nat) (v : Mailbox) : (s.setMailbox c v).errorWindow = s.errorWindow := rfl
@[simp] theorem State.setMailbox_thresholds (s : State) (c : Nat) (v : Mailbox) : (s.setMailbox c v).thresholds = s.thresholds := rfl
@[simp] theorem State.setMailbox_failing (s : State) (c : Nat) (v : Mailbox) : (s.setMailbox c v).failing = s.failing := rfl
@[simp] theorem State.setMailbox_reports (s : State) (c : Nat) (v : Mailbox) : (s.setMailbox c v).reports = s.reports := rfl
@[simp] theorem State.setMailbox_timed (s : State) (c : Nat) (v : Mailbox) : (s.setMailbox c v).timed = s.timed := rfl
@[simp] theorem State.setMailbox_linkLanesOff (s : State) (c : Nat) (v : Mailbox) : (s.setMailbox c v).linkLanesOff = s.linkLanesOff := rfl
@[simp] theorem State.setMailbox_armMHz (s : State) (c : Nat) (v : Mailbox) : (s.setMailbox c v).armMHz = s.armMHz := rfl
@[simp] theorem State.setMailbox_cycle (s : State) (c : Nat) (v : Mailbox) : (s.setMailbox c v).cycle = s.cycle := rfl
@[simp] theorem State.setMailbox_free (s : State) (c : Nat) (v : Mailbox) : (s.setMailbox c v).free = s.free := rfl
@[simp] theorem State.setMailbox_eventRun (s : State) (c : Nat) (v : Mailbox) : (s.setMailbox c v).eventRun = s.eventRun := rfl
@[simp] theorem State.setMailbox_issueRun (s : State) (c : Nat) (v : Mailbox) : (s.setMailbox c v).issueRun = s.issueRun := rfl
@[simp] theorem State.setMailbox_issueAt (s : State) (c : Nat) (v : Mailbox) : (s.setMailbox c v).issueAt = s.issueAt := rfl
@[simp] theorem State.setMailbox_issue (s : State) (c : Nat) (v : Mailbox) : (s.setMailbox c v).issue = s.issue := rfl
@[simp] theorem State.setMailbox_agenda (s : State) (c : Nat) (v : Mailbox) : (s.setMailbox c v).agenda = s.agenda := rfl

/-! ## State.setMedia -/

@[simp] theorem State.setMedia_mem (s : State) (c : Nat) (v : Media) : (s.setMedia c v).mem = s.mem := rfl
@[simp] theorem State.setMedia_poison (s : State) (c : Nat) (v : Media) : (s.setMedia c v).poison = s.poison := rfl
@[simp] theorem State.setMedia_cores (s : State) (c : Nat) (v : Media) : (s.setMedia c v).cores = s.cores := rfl
@[simp] theorem State.setMedia_dies (s : State) (c : Nat) (v : Media) : (s.setMedia c v).dies = s.dies := rfl
@[simp] theorem State.setMedia_groups (s : State) (c : Nat) (v : Media) : (s.setMedia c v).groups = s.groups := rfl
@[simp] theorem State.setMedia_blocks (s : State) (c : Nat) (v : Media) : (s.setMedia c v).blocks = s.blocks := rfl
@[simp] theorem State.setMedia_barriers (s : State) (c : Nat) (v : Media) : (s.setMedia c v).barriers = s.barriers := rfl
@[simp] theorem State.setMedia_contexts (s : State) (c : Nat) (v : Media) : (s.setMedia c v).contexts = s.contexts := rfl
@[simp] theorem State.setMedia_grids (s : State) (c : Nat) (v : Media) : (s.setMedia c v).grids = s.grids := rfl
@[simp] theorem State.setMedia_nextTag (s : State) (c : Nat) (v : Media) : (s.setMedia c v).nextTag = s.nextTag := rfl
@[simp] theorem State.setMedia_sidings (s : State) (c : Nat) (v : Media) : (s.setMedia c v).sidings = s.sidings := rfl
@[simp] theorem State.setMedia_deferred (s : State) (c : Nat) (v : Media) : (s.setMedia c v).deferred = s.deferred := rfl
@[simp] theorem State.setMedia_pins (s : State) (c : Nat) (v : Media) : (s.setMedia c v).pins = s.pins := rfl
@[simp] theorem State.setMedia_publications (s : State) (c : Nat) (v : Media) : (s.setMedia c v).publications = s.publications := rfl
@[simp] theorem State.setMedia_commits (s : State) (c : Nat) (v : Media) : (s.setMedia c v).commits = s.commits := rfl
@[simp] theorem State.setMedia_semWaits (s : State) (c : Nat) (v : Media) : (s.setMedia c v).semWaits = s.semWaits := rfl
@[simp] theorem State.setMedia_acks (s : State) (c : Nat) (v : Media) : (s.setMedia c v).acks = s.acks := rfl
@[simp] theorem State.setMedia_seqWaits (s : State) (c : Nat) (v : Media) : (s.setMedia c v).seqWaits = s.seqWaits := rfl
@[simp] theorem State.setMedia_aside (s : State) (c : Nat) (v : Media) : (s.setMedia c v).aside = s.aside := rfl
@[simp] theorem State.setMedia_mediaAside (s : State) (c : Nat) (v : Media) : (s.setMedia c v).mediaAside = s.mediaAside := rfl
@[simp] theorem State.setMedia_colls (s : State) (c : Nat) (v : Media) : (s.setMedia c v).colls = s.colls := rfl
@[simp] theorem State.setMedia_collCounts (s : State) (c : Nat) (v : Media) : (s.setMedia c v).collCounts = s.collCounts := rfl
@[simp] theorem State.setMedia_mailboxes (s : State) (c : Nat) (v : Media) : (s.setMedia c v).mailboxes = s.mailboxes := rfl
@[simp] theorem State.setMedia_doorbells (s : State) (c : Nat) (v : Media) : (s.setMedia c v).doorbells = s.doorbells := rfl
@[simp] theorem State.setMedia_overruns (s : State) (c : Nat) (v : Media) : (s.setMedia c v).overruns = s.overruns := rfl
@[simp] theorem State.setMedia_media (s : State) (c : Nat) (v : Media) : (s.setMedia c v).media = Table.set s.media c v := rfl
@[simp] theorem State.setMedia_hostSectors (s : State) (c : Nat) (v : Media) : (s.setMedia c v).hostSectors = s.hostSectors := rfl
@[simp] theorem State.setMedia_hostHeld (s : State) (c : Nat) (v : Media) : (s.setMedia c v).hostHeld = s.hostHeld := rfl
@[simp] theorem State.setMedia_hostRequests (s : State) (c : Nat) (v : Media) : (s.setMedia c v).hostRequests = s.hostRequests := rfl
@[simp] theorem State.setMedia_hostReads (s : State) (c : Nat) (v : Media) : (s.setMedia c v).hostReads = s.hostReads := rfl
@[simp] theorem State.setMedia_interrupts (s : State) (c : Nat) (v : Media) : (s.setMedia c v).interrupts = s.interrupts := rfl
@[simp] theorem State.setMedia_reqRecords (s : State) (c : Nat) (v : Media) : (s.setMedia c v).reqRecords = s.reqRecords := rfl
@[simp] theorem State.setMedia_sboxSeq (s : State) (c : Nat) (v : Media) : (s.setMedia c v).sboxSeq = s.sboxSeq := rfl
@[simp] theorem State.setMedia_replicated (s : State) (c : Nat) (v : Media) : (s.setMedia c v).replicated = s.replicated := rfl
@[simp] theorem State.setMedia_peerBases (s : State) (c : Nat) (v : Media) : (s.setMedia c v).peerBases = s.peerBases := rfl
@[simp] theorem State.setMedia_peersLost (s : State) (c : Nat) (v : Media) : (s.setMedia c v).peersLost = s.peersLost := rfl
@[simp] theorem State.setMedia_peerSent (s : State) (c : Nat) (v : Media) : (s.setMedia c v).peerSent = s.peerSent := rfl
@[simp] theorem State.setMedia_images (s : State) (c : Nat) (v : Media) : (s.setMedia c v).images = s.images := rfl
@[simp] theorem State.setMedia_errorTimes (s : State) (c : Nat) (v : Media) : (s.setMedia c v).errorTimes = s.errorTimes := rfl
@[simp] theorem State.setMedia_errorWindow (s : State) (c : Nat) (v : Media) : (s.setMedia c v).errorWindow = s.errorWindow := rfl
@[simp] theorem State.setMedia_thresholds (s : State) (c : Nat) (v : Media) : (s.setMedia c v).thresholds = s.thresholds := rfl
@[simp] theorem State.setMedia_failing (s : State) (c : Nat) (v : Media) : (s.setMedia c v).failing = s.failing := rfl
@[simp] theorem State.setMedia_reports (s : State) (c : Nat) (v : Media) : (s.setMedia c v).reports = s.reports := rfl
@[simp] theorem State.setMedia_timed (s : State) (c : Nat) (v : Media) : (s.setMedia c v).timed = s.timed := rfl
@[simp] theorem State.setMedia_linkLanesOff (s : State) (c : Nat) (v : Media) : (s.setMedia c v).linkLanesOff = s.linkLanesOff := rfl
@[simp] theorem State.setMedia_armMHz (s : State) (c : Nat) (v : Media) : (s.setMedia c v).armMHz = s.armMHz := rfl
@[simp] theorem State.setMedia_cycle (s : State) (c : Nat) (v : Media) : (s.setMedia c v).cycle = s.cycle := rfl
@[simp] theorem State.setMedia_free (s : State) (c : Nat) (v : Media) : (s.setMedia c v).free = s.free := rfl
@[simp] theorem State.setMedia_eventRun (s : State) (c : Nat) (v : Media) : (s.setMedia c v).eventRun = s.eventRun := rfl
@[simp] theorem State.setMedia_issueRun (s : State) (c : Nat) (v : Media) : (s.setMedia c v).issueRun = s.issueRun := rfl
@[simp] theorem State.setMedia_issueAt (s : State) (c : Nat) (v : Media) : (s.setMedia c v).issueAt = s.issueAt := rfl
@[simp] theorem State.setMedia_issue (s : State) (c : Nat) (v : Media) : (s.setMedia c v).issue = s.issue := rfl
@[simp] theorem State.setMedia_agenda (s : State) (c : Nat) (v : Media) : (s.setMedia c v).agenda = s.agenda := rfl

/-! ## State.push -/

@[simp] theorem State.push_mem (s : State) (i : Instr) : (s.push i).mem = s.mem := rfl
@[simp] theorem State.push_poison (s : State) (i : Instr) : (s.push i).poison = s.poison := rfl
@[simp] theorem State.push_cores (s : State) (i : Instr) : (s.push i).cores = s.cores := rfl
@[simp] theorem State.push_dies (s : State) (i : Instr) : (s.push i).dies = s.dies := rfl
@[simp] theorem State.push_groups (s : State) (i : Instr) : (s.push i).groups = s.groups := rfl
@[simp] theorem State.push_blocks (s : State) (i : Instr) : (s.push i).blocks = s.blocks := rfl
@[simp] theorem State.push_barriers (s : State) (i : Instr) : (s.push i).barriers = s.barriers := rfl
@[simp] theorem State.push_contexts (s : State) (i : Instr) : (s.push i).contexts = s.contexts := rfl
@[simp] theorem State.push_grids (s : State) (i : Instr) : (s.push i).grids = s.grids := rfl
@[simp] theorem State.push_nextTag (s : State) (i : Instr) : (s.push i).nextTag = s.nextTag := rfl
@[simp] theorem State.push_sidings (s : State) (i : Instr) : (s.push i).sidings = s.sidings := rfl
@[simp] theorem State.push_deferred (s : State) (i : Instr) : (s.push i).deferred = s.deferred := rfl
@[simp] theorem State.push_pins (s : State) (i : Instr) : (s.push i).pins = s.pins := rfl
@[simp] theorem State.push_publications (s : State) (i : Instr) : (s.push i).publications = s.publications := rfl
@[simp] theorem State.push_commits (s : State) (i : Instr) : (s.push i).commits = s.commits := rfl
@[simp] theorem State.push_semWaits (s : State) (i : Instr) : (s.push i).semWaits = s.semWaits := rfl
@[simp] theorem State.push_acks (s : State) (i : Instr) : (s.push i).acks = s.acks := rfl
@[simp] theorem State.push_seqWaits (s : State) (i : Instr) : (s.push i).seqWaits = s.seqWaits := rfl
@[simp] theorem State.push_aside (s : State) (i : Instr) : (s.push i).aside = s.aside := rfl
@[simp] theorem State.push_mediaAside (s : State) (i : Instr) : (s.push i).mediaAside = s.mediaAside := rfl
@[simp] theorem State.push_colls (s : State) (i : Instr) : (s.push i).colls = s.colls := rfl
@[simp] theorem State.push_collCounts (s : State) (i : Instr) : (s.push i).collCounts = s.collCounts := rfl
@[simp] theorem State.push_mailboxes (s : State) (i : Instr) : (s.push i).mailboxes = s.mailboxes := rfl
@[simp] theorem State.push_doorbells (s : State) (i : Instr) : (s.push i).doorbells = s.doorbells := rfl
@[simp] theorem State.push_overruns (s : State) (i : Instr) : (s.push i).overruns = s.overruns := rfl
@[simp] theorem State.push_media (s : State) (i : Instr) : (s.push i).media = s.media := rfl
@[simp] theorem State.push_hostSectors (s : State) (i : Instr) : (s.push i).hostSectors = s.hostSectors := rfl
@[simp] theorem State.push_hostHeld (s : State) (i : Instr) : (s.push i).hostHeld = s.hostHeld := rfl
@[simp] theorem State.push_hostRequests (s : State) (i : Instr) : (s.push i).hostRequests = s.hostRequests := rfl
@[simp] theorem State.push_hostReads (s : State) (i : Instr) : (s.push i).hostReads = s.hostReads := rfl
@[simp] theorem State.push_interrupts (s : State) (i : Instr) : (s.push i).interrupts = s.interrupts := rfl
@[simp] theorem State.push_reqRecords (s : State) (i : Instr) : (s.push i).reqRecords = s.reqRecords := rfl
@[simp] theorem State.push_sboxSeq (s : State) (i : Instr) : (s.push i).sboxSeq = s.sboxSeq := rfl
@[simp] theorem State.push_replicated (s : State) (i : Instr) : (s.push i).replicated = s.replicated := rfl
@[simp] theorem State.push_peerBases (s : State) (i : Instr) : (s.push i).peerBases = s.peerBases := rfl
@[simp] theorem State.push_peersLost (s : State) (i : Instr) : (s.push i).peersLost = s.peersLost := rfl
@[simp] theorem State.push_peerSent (s : State) (i : Instr) : (s.push i).peerSent = s.peerSent := rfl
@[simp] theorem State.push_images (s : State) (i : Instr) : (s.push i).images = s.images := rfl
@[simp] theorem State.push_errorTimes (s : State) (i : Instr) : (s.push i).errorTimes = s.errorTimes := rfl
@[simp] theorem State.push_errorWindow (s : State) (i : Instr) : (s.push i).errorWindow = s.errorWindow := rfl
@[simp] theorem State.push_thresholds (s : State) (i : Instr) : (s.push i).thresholds = s.thresholds := rfl
@[simp] theorem State.push_failing (s : State) (i : Instr) : (s.push i).failing = s.failing := rfl
@[simp] theorem State.push_reports (s : State) (i : Instr) : (s.push i).reports = s.reports := rfl
@[simp] theorem State.push_timed (s : State) (i : Instr) : (s.push i).timed = s.timed := rfl
@[simp] theorem State.push_linkLanesOff (s : State) (i : Instr) : (s.push i).linkLanesOff = s.linkLanesOff := rfl
@[simp] theorem State.push_armMHz (s : State) (i : Instr) : (s.push i).armMHz = s.armMHz := rfl
@[simp] theorem State.push_cycle (s : State) (i : Instr) : (s.push i).cycle = s.cycle := rfl
@[simp] theorem State.push_free (s : State) (i : Instr) : (s.push i).free = s.free := rfl
@[simp] theorem State.push_eventRun (s : State) (i : Instr) : (s.push i).eventRun = s.eventRun := rfl
@[simp] theorem State.push_issueRun (s : State) (i : Instr) : (s.push i).issueRun = s.issueRun := rfl
@[simp] theorem State.push_issueAt (s : State) (i : Instr) : (s.push i).issueAt = s.issueAt := rfl
@[simp] theorem State.push_issue (s : State) (i : Instr) : (s.push i).issue = s.issue := rfl
@[simp] theorem State.push_agenda (s : State) (i : Instr) : (s.push i).agenda = s.agenda ++ [i] := rfl

/-! ## State.pushAll -/

@[simp] theorem State.pushAll_mem (s : State) (l : List Instr) : (s.pushAll l).mem = s.mem := rfl
@[simp] theorem State.pushAll_poison (s : State) (l : List Instr) : (s.pushAll l).poison = s.poison := rfl
@[simp] theorem State.pushAll_cores (s : State) (l : List Instr) : (s.pushAll l).cores = s.cores := rfl
@[simp] theorem State.pushAll_dies (s : State) (l : List Instr) : (s.pushAll l).dies = s.dies := rfl
@[simp] theorem State.pushAll_groups (s : State) (l : List Instr) : (s.pushAll l).groups = s.groups := rfl
@[simp] theorem State.pushAll_blocks (s : State) (l : List Instr) : (s.pushAll l).blocks = s.blocks := rfl
@[simp] theorem State.pushAll_barriers (s : State) (l : List Instr) : (s.pushAll l).barriers = s.barriers := rfl
@[simp] theorem State.pushAll_contexts (s : State) (l : List Instr) : (s.pushAll l).contexts = s.contexts := rfl
@[simp] theorem State.pushAll_grids (s : State) (l : List Instr) : (s.pushAll l).grids = s.grids := rfl
@[simp] theorem State.pushAll_nextTag (s : State) (l : List Instr) : (s.pushAll l).nextTag = s.nextTag := rfl
@[simp] theorem State.pushAll_sidings (s : State) (l : List Instr) : (s.pushAll l).sidings = s.sidings := rfl
@[simp] theorem State.pushAll_deferred (s : State) (l : List Instr) : (s.pushAll l).deferred = s.deferred := rfl
@[simp] theorem State.pushAll_pins (s : State) (l : List Instr) : (s.pushAll l).pins = s.pins := rfl
@[simp] theorem State.pushAll_publications (s : State) (l : List Instr) : (s.pushAll l).publications = s.publications := rfl
@[simp] theorem State.pushAll_commits (s : State) (l : List Instr) : (s.pushAll l).commits = s.commits := rfl
@[simp] theorem State.pushAll_semWaits (s : State) (l : List Instr) : (s.pushAll l).semWaits = s.semWaits := rfl
@[simp] theorem State.pushAll_acks (s : State) (l : List Instr) : (s.pushAll l).acks = s.acks := rfl
@[simp] theorem State.pushAll_seqWaits (s : State) (l : List Instr) : (s.pushAll l).seqWaits = s.seqWaits := rfl
@[simp] theorem State.pushAll_aside (s : State) (l : List Instr) : (s.pushAll l).aside = s.aside := rfl
@[simp] theorem State.pushAll_mediaAside (s : State) (l : List Instr) : (s.pushAll l).mediaAside = s.mediaAside := rfl
@[simp] theorem State.pushAll_colls (s : State) (l : List Instr) : (s.pushAll l).colls = s.colls := rfl
@[simp] theorem State.pushAll_collCounts (s : State) (l : List Instr) : (s.pushAll l).collCounts = s.collCounts := rfl
@[simp] theorem State.pushAll_mailboxes (s : State) (l : List Instr) : (s.pushAll l).mailboxes = s.mailboxes := rfl
@[simp] theorem State.pushAll_doorbells (s : State) (l : List Instr) : (s.pushAll l).doorbells = s.doorbells := rfl
@[simp] theorem State.pushAll_overruns (s : State) (l : List Instr) : (s.pushAll l).overruns = s.overruns := rfl
@[simp] theorem State.pushAll_media (s : State) (l : List Instr) : (s.pushAll l).media = s.media := rfl
@[simp] theorem State.pushAll_hostSectors (s : State) (l : List Instr) : (s.pushAll l).hostSectors = s.hostSectors := rfl
@[simp] theorem State.pushAll_hostHeld (s : State) (l : List Instr) : (s.pushAll l).hostHeld = s.hostHeld := rfl
@[simp] theorem State.pushAll_hostRequests (s : State) (l : List Instr) : (s.pushAll l).hostRequests = s.hostRequests := rfl
@[simp] theorem State.pushAll_hostReads (s : State) (l : List Instr) : (s.pushAll l).hostReads = s.hostReads := rfl
@[simp] theorem State.pushAll_interrupts (s : State) (l : List Instr) : (s.pushAll l).interrupts = s.interrupts := rfl
@[simp] theorem State.pushAll_reqRecords (s : State) (l : List Instr) : (s.pushAll l).reqRecords = s.reqRecords := rfl
@[simp] theorem State.pushAll_sboxSeq (s : State) (l : List Instr) : (s.pushAll l).sboxSeq = s.sboxSeq := rfl
@[simp] theorem State.pushAll_replicated (s : State) (l : List Instr) : (s.pushAll l).replicated = s.replicated := rfl
@[simp] theorem State.pushAll_peerBases (s : State) (l : List Instr) : (s.pushAll l).peerBases = s.peerBases := rfl
@[simp] theorem State.pushAll_peersLost (s : State) (l : List Instr) : (s.pushAll l).peersLost = s.peersLost := rfl
@[simp] theorem State.pushAll_peerSent (s : State) (l : List Instr) : (s.pushAll l).peerSent = s.peerSent := rfl
@[simp] theorem State.pushAll_images (s : State) (l : List Instr) : (s.pushAll l).images = s.images := rfl
@[simp] theorem State.pushAll_errorTimes (s : State) (l : List Instr) : (s.pushAll l).errorTimes = s.errorTimes := rfl
@[simp] theorem State.pushAll_errorWindow (s : State) (l : List Instr) : (s.pushAll l).errorWindow = s.errorWindow := rfl
@[simp] theorem State.pushAll_thresholds (s : State) (l : List Instr) : (s.pushAll l).thresholds = s.thresholds := rfl
@[simp] theorem State.pushAll_failing (s : State) (l : List Instr) : (s.pushAll l).failing = s.failing := rfl
@[simp] theorem State.pushAll_reports (s : State) (l : List Instr) : (s.pushAll l).reports = s.reports := rfl
@[simp] theorem State.pushAll_timed (s : State) (l : List Instr) : (s.pushAll l).timed = s.timed := rfl
@[simp] theorem State.pushAll_linkLanesOff (s : State) (l : List Instr) : (s.pushAll l).linkLanesOff = s.linkLanesOff := rfl
@[simp] theorem State.pushAll_armMHz (s : State) (l : List Instr) : (s.pushAll l).armMHz = s.armMHz := rfl
@[simp] theorem State.pushAll_cycle (s : State) (l : List Instr) : (s.pushAll l).cycle = s.cycle := rfl
@[simp] theorem State.pushAll_free (s : State) (l : List Instr) : (s.pushAll l).free = s.free := rfl
@[simp] theorem State.pushAll_eventRun (s : State) (l : List Instr) : (s.pushAll l).eventRun = s.eventRun := rfl
@[simp] theorem State.pushAll_issueRun (s : State) (l : List Instr) : (s.pushAll l).issueRun = s.issueRun := rfl
@[simp] theorem State.pushAll_issueAt (s : State) (l : List Instr) : (s.pushAll l).issueAt = s.issueAt := rfl
@[simp] theorem State.pushAll_issue (s : State) (l : List Instr) : (s.pushAll l).issue = s.issue := rfl
@[simp] theorem State.pushAll_agenda (s : State) (l : List Instr) : (s.pushAll l).agenda = s.agenda ++ l := rfl

/-! ## State.interrupt -/

@[simp] theorem State.interrupt_mem (s : State) (v d c : Nat) : (s.interrupt v d c).mem = s.mem := rfl
@[simp] theorem State.interrupt_poison (s : State) (v d c : Nat) : (s.interrupt v d c).poison = s.poison := rfl
@[simp] theorem State.interrupt_cores (s : State) (v d c : Nat) : (s.interrupt v d c).cores = s.cores := rfl
@[simp] theorem State.interrupt_dies (s : State) (v d c : Nat) : (s.interrupt v d c).dies = s.dies := rfl
@[simp] theorem State.interrupt_groups (s : State) (v d c : Nat) : (s.interrupt v d c).groups = s.groups := rfl
@[simp] theorem State.interrupt_blocks (s : State) (v d c : Nat) : (s.interrupt v d c).blocks = s.blocks := rfl
@[simp] theorem State.interrupt_barriers (s : State) (v d c : Nat) : (s.interrupt v d c).barriers = s.barriers := rfl
@[simp] theorem State.interrupt_contexts (s : State) (v d c : Nat) : (s.interrupt v d c).contexts = s.contexts := rfl
@[simp] theorem State.interrupt_grids (s : State) (v d c : Nat) : (s.interrupt v d c).grids = s.grids := rfl
@[simp] theorem State.interrupt_nextTag (s : State) (v d c : Nat) : (s.interrupt v d c).nextTag = s.nextTag := rfl
@[simp] theorem State.interrupt_sidings (s : State) (v d c : Nat) : (s.interrupt v d c).sidings = s.sidings := rfl
@[simp] theorem State.interrupt_deferred (s : State) (v d c : Nat) : (s.interrupt v d c).deferred = s.deferred := rfl
@[simp] theorem State.interrupt_pins (s : State) (v d c : Nat) : (s.interrupt v d c).pins = s.pins := rfl
@[simp] theorem State.interrupt_publications (s : State) (v d c : Nat) : (s.interrupt v d c).publications = s.publications := rfl
@[simp] theorem State.interrupt_commits (s : State) (v d c : Nat) : (s.interrupt v d c).commits = s.commits := rfl
@[simp] theorem State.interrupt_semWaits (s : State) (v d c : Nat) : (s.interrupt v d c).semWaits = s.semWaits := rfl
@[simp] theorem State.interrupt_acks (s : State) (v d c : Nat) : (s.interrupt v d c).acks = s.acks := rfl
@[simp] theorem State.interrupt_seqWaits (s : State) (v d c : Nat) : (s.interrupt v d c).seqWaits = s.seqWaits := rfl
@[simp] theorem State.interrupt_aside (s : State) (v d c : Nat) : (s.interrupt v d c).aside = s.aside := rfl
@[simp] theorem State.interrupt_mediaAside (s : State) (v d c : Nat) : (s.interrupt v d c).mediaAside = s.mediaAside := rfl
@[simp] theorem State.interrupt_colls (s : State) (v d c : Nat) : (s.interrupt v d c).colls = s.colls := rfl
@[simp] theorem State.interrupt_collCounts (s : State) (v d c : Nat) : (s.interrupt v d c).collCounts = s.collCounts := rfl
@[simp] theorem State.interrupt_mailboxes (s : State) (v d c : Nat) : (s.interrupt v d c).mailboxes = s.mailboxes := rfl
@[simp] theorem State.interrupt_doorbells (s : State) (v d c : Nat) : (s.interrupt v d c).doorbells = s.doorbells := rfl
@[simp] theorem State.interrupt_overruns (s : State) (v d c : Nat) : (s.interrupt v d c).overruns = s.overruns := rfl
@[simp] theorem State.interrupt_media (s : State) (v d c : Nat) : (s.interrupt v d c).media = s.media := rfl
@[simp] theorem State.interrupt_hostSectors (s : State) (v d c : Nat) : (s.interrupt v d c).hostSectors = s.hostSectors := rfl
@[simp] theorem State.interrupt_hostHeld (s : State) (v d c : Nat) : (s.interrupt v d c).hostHeld = s.hostHeld := rfl
@[simp] theorem State.interrupt_hostRequests (s : State) (v d c : Nat) : (s.interrupt v d c).hostRequests = s.hostRequests := rfl
@[simp] theorem State.interrupt_hostReads (s : State) (v d c : Nat) : (s.interrupt v d c).hostReads = s.hostReads := rfl
@[simp] theorem State.interrupt_interrupts (s : State) (v d c : Nat) : (s.interrupt v d c).interrupts = s.interrupts ++ [⟨v, d, c⟩] := rfl
@[simp] theorem State.interrupt_reqRecords (s : State) (v d c : Nat) : (s.interrupt v d c).reqRecords = s.reqRecords := rfl
@[simp] theorem State.interrupt_sboxSeq (s : State) (v d c : Nat) : (s.interrupt v d c).sboxSeq = s.sboxSeq := rfl
@[simp] theorem State.interrupt_replicated (s : State) (v d c : Nat) : (s.interrupt v d c).replicated = s.replicated := rfl
@[simp] theorem State.interrupt_peerBases (s : State) (v d c : Nat) : (s.interrupt v d c).peerBases = s.peerBases := rfl
@[simp] theorem State.interrupt_peersLost (s : State) (v d c : Nat) : (s.interrupt v d c).peersLost = s.peersLost := rfl
@[simp] theorem State.interrupt_peerSent (s : State) (v d c : Nat) : (s.interrupt v d c).peerSent = s.peerSent := rfl
@[simp] theorem State.interrupt_images (s : State) (v d c : Nat) : (s.interrupt v d c).images = s.images := rfl
@[simp] theorem State.interrupt_errorTimes (s : State) (v d c : Nat) : (s.interrupt v d c).errorTimes = s.errorTimes := rfl
@[simp] theorem State.interrupt_errorWindow (s : State) (v d c : Nat) : (s.interrupt v d c).errorWindow = s.errorWindow := rfl
@[simp] theorem State.interrupt_thresholds (s : State) (v d c : Nat) : (s.interrupt v d c).thresholds = s.thresholds := rfl
@[simp] theorem State.interrupt_failing (s : State) (v d c : Nat) : (s.interrupt v d c).failing = s.failing := rfl
@[simp] theorem State.interrupt_reports (s : State) (v d c : Nat) : (s.interrupt v d c).reports = s.reports := rfl
@[simp] theorem State.interrupt_timed (s : State) (v d c : Nat) : (s.interrupt v d c).timed = s.timed := rfl
@[simp] theorem State.interrupt_linkLanesOff (s : State) (v d c : Nat) : (s.interrupt v d c).linkLanesOff = s.linkLanesOff := rfl
@[simp] theorem State.interrupt_armMHz (s : State) (v d c : Nat) : (s.interrupt v d c).armMHz = s.armMHz := rfl
@[simp] theorem State.interrupt_cycle (s : State) (v d c : Nat) : (s.interrupt v d c).cycle = s.cycle := rfl
@[simp] theorem State.interrupt_free (s : State) (v d c : Nat) : (s.interrupt v d c).free = s.free := rfl
@[simp] theorem State.interrupt_eventRun (s : State) (v d c : Nat) : (s.interrupt v d c).eventRun = s.eventRun := rfl
@[simp] theorem State.interrupt_issueRun (s : State) (v d c : Nat) : (s.interrupt v d c).issueRun = s.issueRun := rfl
@[simp] theorem State.interrupt_issueAt (s : State) (v d c : Nat) : (s.interrupt v d c).issueAt = s.issueAt := rfl
@[simp] theorem State.interrupt_issue (s : State) (v d c : Nat) : (s.interrupt v d c).issue = s.issue := rfl
@[simp] theorem State.interrupt_agenda (s : State) (v d c : Nat) : (s.interrupt v d c).agenda = s.agenda := rfl

/-! ## State.tick -/

@[simp] theorem State.tick_mem (s : State) : (s.tick).mem = s.mem := rfl
@[simp] theorem State.tick_poison (s : State) : (s.tick).poison = s.poison := rfl
@[simp] theorem State.tick_cores (s : State) : (s.tick).cores = s.cores := rfl
@[simp] theorem State.tick_dies (s : State) : (s.tick).dies = s.dies := rfl
@[simp] theorem State.tick_groups (s : State) : (s.tick).groups = s.groups := rfl
@[simp] theorem State.tick_blocks (s : State) : (s.tick).blocks = s.blocks := rfl
@[simp] theorem State.tick_barriers (s : State) : (s.tick).barriers = s.barriers := rfl
@[simp] theorem State.tick_contexts (s : State) : (s.tick).contexts = s.contexts := rfl
@[simp] theorem State.tick_grids (s : State) : (s.tick).grids = s.grids := rfl
@[simp] theorem State.tick_nextTag (s : State) : (s.tick).nextTag = s.nextTag := rfl
@[simp] theorem State.tick_sidings (s : State) : (s.tick).sidings = s.sidings := rfl
@[simp] theorem State.tick_deferred (s : State) : (s.tick).deferred = s.deferred := rfl
@[simp] theorem State.tick_pins (s : State) : (s.tick).pins = s.pins := rfl
@[simp] theorem State.tick_publications (s : State) : (s.tick).publications = s.publications := rfl
@[simp] theorem State.tick_commits (s : State) : (s.tick).commits = s.commits := rfl
@[simp] theorem State.tick_semWaits (s : State) : (s.tick).semWaits = s.semWaits := rfl
@[simp] theorem State.tick_acks (s : State) : (s.tick).acks = s.acks := rfl
@[simp] theorem State.tick_seqWaits (s : State) : (s.tick).seqWaits = s.seqWaits := rfl
@[simp] theorem State.tick_aside (s : State) : (s.tick).aside = s.aside := rfl
@[simp] theorem State.tick_mediaAside (s : State) : (s.tick).mediaAside = s.mediaAside := rfl
@[simp] theorem State.tick_colls (s : State) : (s.tick).colls = s.colls := rfl
@[simp] theorem State.tick_collCounts (s : State) : (s.tick).collCounts = s.collCounts := rfl
@[simp] theorem State.tick_mailboxes (s : State) : (s.tick).mailboxes = s.mailboxes := rfl
@[simp] theorem State.tick_doorbells (s : State) : (s.tick).doorbells = s.doorbells := rfl
@[simp] theorem State.tick_overruns (s : State) : (s.tick).overruns = s.overruns := rfl
@[simp] theorem State.tick_media (s : State) : (s.tick).media = s.media := rfl
@[simp] theorem State.tick_hostSectors (s : State) : (s.tick).hostSectors = s.hostSectors := rfl
@[simp] theorem State.tick_hostHeld (s : State) : (s.tick).hostHeld = s.hostHeld := rfl
@[simp] theorem State.tick_hostRequests (s : State) : (s.tick).hostRequests = s.hostRequests := rfl
@[simp] theorem State.tick_hostReads (s : State) : (s.tick).hostReads = s.hostReads := rfl
@[simp] theorem State.tick_interrupts (s : State) : (s.tick).interrupts = s.interrupts := rfl
@[simp] theorem State.tick_reqRecords (s : State) : (s.tick).reqRecords = s.reqRecords := rfl
@[simp] theorem State.tick_sboxSeq (s : State) : (s.tick).sboxSeq = s.sboxSeq := rfl
@[simp] theorem State.tick_replicated (s : State) : (s.tick).replicated = s.replicated := rfl
@[simp] theorem State.tick_peerBases (s : State) : (s.tick).peerBases = s.peerBases := rfl
@[simp] theorem State.tick_peersLost (s : State) : (s.tick).peersLost = s.peersLost := rfl
@[simp] theorem State.tick_peerSent (s : State) : (s.tick).peerSent = s.peerSent := rfl
@[simp] theorem State.tick_images (s : State) : (s.tick).images = s.images := rfl
@[simp] theorem State.tick_errorTimes (s : State) : (s.tick).errorTimes = s.errorTimes := rfl
@[simp] theorem State.tick_errorWindow (s : State) : (s.tick).errorWindow = s.errorWindow := rfl
@[simp] theorem State.tick_thresholds (s : State) : (s.tick).thresholds = s.thresholds := rfl
@[simp] theorem State.tick_failing (s : State) : (s.tick).failing = s.failing := rfl
@[simp] theorem State.tick_reports (s : State) : (s.tick).reports = s.reports := rfl
@[simp] theorem State.tick_timed (s : State) : (s.tick).timed = s.timed := rfl
@[simp] theorem State.tick_linkLanesOff (s : State) : (s.tick).linkLanesOff = s.linkLanesOff := rfl
@[simp] theorem State.tick_armMHz (s : State) : (s.tick).armMHz = s.armMHz := rfl
@[simp] theorem State.tick_cycle (s : State) : (s.tick).cycle = s.cycle := rfl
@[simp] theorem State.tick_free (s : State) : (s.tick).free = s.free + 1 := rfl
@[simp] theorem State.tick_eventRun (s : State) : (s.tick).eventRun = s.eventRun := rfl
@[simp] theorem State.tick_issueRun (s : State) : (s.tick).issueRun = s.issueRun := rfl
@[simp] theorem State.tick_issueAt (s : State) : (s.tick).issueAt = s.issueAt := rfl
@[simp] theorem State.tick_issue (s : State) : (s.tick).issue = s.issue := rfl
@[simp] theorem State.tick_agenda (s : State) : (s.tick).agenda = s.agenda := rfl

/-! ## State.setThread and State.pushOnce touch one field -/

@[simp] theorem State.setThread_mem (s : State) (n : Nat) (t : Thread) : (s.setThread n t).mem = s.mem := by
  unfold State.setThread; split <;> rfl
@[simp] theorem State.setThread_poison (s : State) (n : Nat) (t : Thread) : (s.setThread n t).poison = s.poison := by
  unfold State.setThread; split <;> rfl
@[simp] theorem State.setThread_cores (s : State) (n : Nat) (t : Thread) : (s.setThread n t).cores = s.cores := by
  unfold State.setThread; split <;> rfl
@[simp] theorem State.setThread_dies (s : State) (n : Nat) (t : Thread) : (s.setThread n t).dies = s.dies := by
  unfold State.setThread; split <;> rfl
@[simp] theorem State.setThread_blocks (s : State) (n : Nat) (t : Thread) : (s.setThread n t).blocks = s.blocks := by
  unfold State.setThread; split <;> rfl
@[simp] theorem State.setThread_barriers (s : State) (n : Nat) (t : Thread) : (s.setThread n t).barriers = s.barriers := by
  unfold State.setThread; split <;> rfl
@[simp] theorem State.setThread_contexts (s : State) (n : Nat) (t : Thread) : (s.setThread n t).contexts = s.contexts := by
  unfold State.setThread; split <;> rfl
@[simp] theorem State.setThread_grids (s : State) (n : Nat) (t : Thread) : (s.setThread n t).grids = s.grids := by
  unfold State.setThread; split <;> rfl
@[simp] theorem State.setThread_nextTag (s : State) (n : Nat) (t : Thread) : (s.setThread n t).nextTag = s.nextTag := by
  unfold State.setThread; split <;> rfl
@[simp] theorem State.setThread_sidings (s : State) (n : Nat) (t : Thread) : (s.setThread n t).sidings = s.sidings := by
  unfold State.setThread; split <;> rfl
@[simp] theorem State.setThread_deferred (s : State) (n : Nat) (t : Thread) : (s.setThread n t).deferred = s.deferred := by
  unfold State.setThread; split <;> rfl
@[simp] theorem State.setThread_pins (s : State) (n : Nat) (t : Thread) : (s.setThread n t).pins = s.pins := by
  unfold State.setThread; split <;> rfl
@[simp] theorem State.setThread_publications (s : State) (n : Nat) (t : Thread) : (s.setThread n t).publications = s.publications := by
  unfold State.setThread; split <;> rfl
@[simp] theorem State.setThread_commits (s : State) (n : Nat) (t : Thread) : (s.setThread n t).commits = s.commits := by
  unfold State.setThread; split <;> rfl
@[simp] theorem State.setThread_semWaits (s : State) (n : Nat) (t : Thread) : (s.setThread n t).semWaits = s.semWaits := by
  unfold State.setThread; split <;> rfl
@[simp] theorem State.setThread_acks (s : State) (n : Nat) (t : Thread) : (s.setThread n t).acks = s.acks := by
  unfold State.setThread; split <;> rfl
@[simp] theorem State.setThread_seqWaits (s : State) (n : Nat) (t : Thread) : (s.setThread n t).seqWaits = s.seqWaits := by
  unfold State.setThread; split <;> rfl
@[simp] theorem State.setThread_aside (s : State) (n : Nat) (t : Thread) : (s.setThread n t).aside = s.aside := by
  unfold State.setThread; split <;> rfl
@[simp] theorem State.setThread_mediaAside (s : State) (n : Nat) (t : Thread) : (s.setThread n t).mediaAside = s.mediaAside := by
  unfold State.setThread; split <;> rfl
@[simp] theorem State.setThread_colls (s : State) (n : Nat) (t : Thread) : (s.setThread n t).colls = s.colls := by
  unfold State.setThread; split <;> rfl
@[simp] theorem State.setThread_collCounts (s : State) (n : Nat) (t : Thread) : (s.setThread n t).collCounts = s.collCounts := by
  unfold State.setThread; split <;> rfl
@[simp] theorem State.setThread_mailboxes (s : State) (n : Nat) (t : Thread) : (s.setThread n t).mailboxes = s.mailboxes := by
  unfold State.setThread; split <;> rfl
@[simp] theorem State.setThread_doorbells (s : State) (n : Nat) (t : Thread) : (s.setThread n t).doorbells = s.doorbells := by
  unfold State.setThread; split <;> rfl
@[simp] theorem State.setThread_overruns (s : State) (n : Nat) (t : Thread) : (s.setThread n t).overruns = s.overruns := by
  unfold State.setThread; split <;> rfl
@[simp] theorem State.setThread_media (s : State) (n : Nat) (t : Thread) : (s.setThread n t).media = s.media := by
  unfold State.setThread; split <;> rfl
@[simp] theorem State.setThread_hostSectors (s : State) (n : Nat) (t : Thread) : (s.setThread n t).hostSectors = s.hostSectors := by
  unfold State.setThread; split <;> rfl
@[simp] theorem State.setThread_hostHeld (s : State) (n : Nat) (t : Thread) : (s.setThread n t).hostHeld = s.hostHeld := by
  unfold State.setThread; split <;> rfl
@[simp] theorem State.setThread_hostRequests (s : State) (n : Nat) (t : Thread) : (s.setThread n t).hostRequests = s.hostRequests := by
  unfold State.setThread; split <;> rfl
@[simp] theorem State.setThread_hostReads (s : State) (n : Nat) (t : Thread) : (s.setThread n t).hostReads = s.hostReads := by
  unfold State.setThread; split <;> rfl
@[simp] theorem State.setThread_interrupts (s : State) (n : Nat) (t : Thread) : (s.setThread n t).interrupts = s.interrupts := by
  unfold State.setThread; split <;> rfl
@[simp] theorem State.setThread_reqRecords (s : State) (n : Nat) (t : Thread) : (s.setThread n t).reqRecords = s.reqRecords := by
  unfold State.setThread; split <;> rfl
@[simp] theorem State.setThread_sboxSeq (s : State) (n : Nat) (t : Thread) : (s.setThread n t).sboxSeq = s.sboxSeq := by
  unfold State.setThread; split <;> rfl
@[simp] theorem State.setThread_replicated (s : State) (n : Nat) (t : Thread) : (s.setThread n t).replicated = s.replicated := by
  unfold State.setThread; split <;> rfl
@[simp] theorem State.setThread_peerBases (s : State) (n : Nat) (t : Thread) : (s.setThread n t).peerBases = s.peerBases := by
  unfold State.setThread; split <;> rfl
@[simp] theorem State.setThread_peersLost (s : State) (n : Nat) (t : Thread) : (s.setThread n t).peersLost = s.peersLost := by
  unfold State.setThread; split <;> rfl
@[simp] theorem State.setThread_peerSent (s : State) (n : Nat) (t : Thread) : (s.setThread n t).peerSent = s.peerSent := by
  unfold State.setThread; split <;> rfl
@[simp] theorem State.setThread_images (s : State) (n : Nat) (t : Thread) : (s.setThread n t).images = s.images := by
  unfold State.setThread; split <;> rfl
@[simp] theorem State.setThread_errorTimes (s : State) (n : Nat) (t : Thread) : (s.setThread n t).errorTimes = s.errorTimes := by
  unfold State.setThread; split <;> rfl
@[simp] theorem State.setThread_errorWindow (s : State) (n : Nat) (t : Thread) : (s.setThread n t).errorWindow = s.errorWindow := by
  unfold State.setThread; split <;> rfl
@[simp] theorem State.setThread_thresholds (s : State) (n : Nat) (t : Thread) : (s.setThread n t).thresholds = s.thresholds := by
  unfold State.setThread; split <;> rfl
@[simp] theorem State.setThread_failing (s : State) (n : Nat) (t : Thread) : (s.setThread n t).failing = s.failing := by
  unfold State.setThread; split <;> rfl
@[simp] theorem State.setThread_reports (s : State) (n : Nat) (t : Thread) : (s.setThread n t).reports = s.reports := by
  unfold State.setThread; split <;> rfl
@[simp] theorem State.setThread_timed (s : State) (n : Nat) (t : Thread) : (s.setThread n t).timed = s.timed := by
  unfold State.setThread; split <;> rfl
@[simp] theorem State.setThread_linkLanesOff (s : State) (n : Nat) (t : Thread) : (s.setThread n t).linkLanesOff = s.linkLanesOff := by
  unfold State.setThread; split <;> rfl
@[simp] theorem State.setThread_armMHz (s : State) (n : Nat) (t : Thread) : (s.setThread n t).armMHz = s.armMHz := by
  unfold State.setThread; split <;> rfl
@[simp] theorem State.setThread_cycle (s : State) (n : Nat) (t : Thread) : (s.setThread n t).cycle = s.cycle := by
  unfold State.setThread; split <;> rfl
@[simp] theorem State.setThread_free (s : State) (n : Nat) (t : Thread) : (s.setThread n t).free = s.free := by
  unfold State.setThread; split <;> rfl
@[simp] theorem State.setThread_eventRun (s : State) (n : Nat) (t : Thread) : (s.setThread n t).eventRun = s.eventRun := by
  unfold State.setThread; split <;> rfl
@[simp] theorem State.setThread_issueRun (s : State) (n : Nat) (t : Thread) : (s.setThread n t).issueRun = s.issueRun := by
  unfold State.setThread; split <;> rfl
@[simp] theorem State.setThread_issueAt (s : State) (n : Nat) (t : Thread) : (s.setThread n t).issueAt = s.issueAt := by
  unfold State.setThread; split <;> rfl
@[simp] theorem State.setThread_issue (s : State) (n : Nat) (t : Thread) : (s.setThread n t).issue = s.issue := by
  unfold State.setThread; split <;> rfl
@[simp] theorem State.setThread_agenda (s : State) (n : Nat) (t : Thread) : (s.setThread n t).agenda = s.agenda := by
  unfold State.setThread; split <;> rfl
@[simp] theorem State.pushOnce_mem (s : State) (i : Instr) : (s.pushOnce i).mem = s.mem := by
  unfold State.pushOnce; split <;> rfl
@[simp] theorem State.pushOnce_poison (s : State) (i : Instr) : (s.pushOnce i).poison = s.poison := by
  unfold State.pushOnce; split <;> rfl
@[simp] theorem State.pushOnce_cores (s : State) (i : Instr) : (s.pushOnce i).cores = s.cores := by
  unfold State.pushOnce; split <;> rfl
@[simp] theorem State.pushOnce_dies (s : State) (i : Instr) : (s.pushOnce i).dies = s.dies := by
  unfold State.pushOnce; split <;> rfl
@[simp] theorem State.pushOnce_groups (s : State) (i : Instr) : (s.pushOnce i).groups = s.groups := by
  unfold State.pushOnce; split <;> rfl
@[simp] theorem State.pushOnce_blocks (s : State) (i : Instr) : (s.pushOnce i).blocks = s.blocks := by
  unfold State.pushOnce; split <;> rfl
@[simp] theorem State.pushOnce_barriers (s : State) (i : Instr) : (s.pushOnce i).barriers = s.barriers := by
  unfold State.pushOnce; split <;> rfl
@[simp] theorem State.pushOnce_contexts (s : State) (i : Instr) : (s.pushOnce i).contexts = s.contexts := by
  unfold State.pushOnce; split <;> rfl
@[simp] theorem State.pushOnce_grids (s : State) (i : Instr) : (s.pushOnce i).grids = s.grids := by
  unfold State.pushOnce; split <;> rfl
@[simp] theorem State.pushOnce_nextTag (s : State) (i : Instr) : (s.pushOnce i).nextTag = s.nextTag := by
  unfold State.pushOnce; split <;> rfl
@[simp] theorem State.pushOnce_sidings (s : State) (i : Instr) : (s.pushOnce i).sidings = s.sidings := by
  unfold State.pushOnce; split <;> rfl
@[simp] theorem State.pushOnce_deferred (s : State) (i : Instr) : (s.pushOnce i).deferred = s.deferred := by
  unfold State.pushOnce; split <;> rfl
@[simp] theorem State.pushOnce_pins (s : State) (i : Instr) : (s.pushOnce i).pins = s.pins := by
  unfold State.pushOnce; split <;> rfl
@[simp] theorem State.pushOnce_publications (s : State) (i : Instr) : (s.pushOnce i).publications = s.publications := by
  unfold State.pushOnce; split <;> rfl
@[simp] theorem State.pushOnce_commits (s : State) (i : Instr) : (s.pushOnce i).commits = s.commits := by
  unfold State.pushOnce; split <;> rfl
@[simp] theorem State.pushOnce_semWaits (s : State) (i : Instr) : (s.pushOnce i).semWaits = s.semWaits := by
  unfold State.pushOnce; split <;> rfl
@[simp] theorem State.pushOnce_acks (s : State) (i : Instr) : (s.pushOnce i).acks = s.acks := by
  unfold State.pushOnce; split <;> rfl
@[simp] theorem State.pushOnce_seqWaits (s : State) (i : Instr) : (s.pushOnce i).seqWaits = s.seqWaits := by
  unfold State.pushOnce; split <;> rfl
@[simp] theorem State.pushOnce_aside (s : State) (i : Instr) : (s.pushOnce i).aside = s.aside := by
  unfold State.pushOnce; split <;> rfl
@[simp] theorem State.pushOnce_mediaAside (s : State) (i : Instr) : (s.pushOnce i).mediaAside = s.mediaAside := by
  unfold State.pushOnce; split <;> rfl
@[simp] theorem State.pushOnce_colls (s : State) (i : Instr) : (s.pushOnce i).colls = s.colls := by
  unfold State.pushOnce; split <;> rfl
@[simp] theorem State.pushOnce_collCounts (s : State) (i : Instr) : (s.pushOnce i).collCounts = s.collCounts := by
  unfold State.pushOnce; split <;> rfl
@[simp] theorem State.pushOnce_mailboxes (s : State) (i : Instr) : (s.pushOnce i).mailboxes = s.mailboxes := by
  unfold State.pushOnce; split <;> rfl
@[simp] theorem State.pushOnce_doorbells (s : State) (i : Instr) : (s.pushOnce i).doorbells = s.doorbells := by
  unfold State.pushOnce; split <;> rfl
@[simp] theorem State.pushOnce_overruns (s : State) (i : Instr) : (s.pushOnce i).overruns = s.overruns := by
  unfold State.pushOnce; split <;> rfl
@[simp] theorem State.pushOnce_media (s : State) (i : Instr) : (s.pushOnce i).media = s.media := by
  unfold State.pushOnce; split <;> rfl
@[simp] theorem State.pushOnce_hostSectors (s : State) (i : Instr) : (s.pushOnce i).hostSectors = s.hostSectors := by
  unfold State.pushOnce; split <;> rfl
@[simp] theorem State.pushOnce_hostHeld (s : State) (i : Instr) : (s.pushOnce i).hostHeld = s.hostHeld := by
  unfold State.pushOnce; split <;> rfl
@[simp] theorem State.pushOnce_hostRequests (s : State) (i : Instr) : (s.pushOnce i).hostRequests = s.hostRequests := by
  unfold State.pushOnce; split <;> rfl
@[simp] theorem State.pushOnce_hostReads (s : State) (i : Instr) : (s.pushOnce i).hostReads = s.hostReads := by
  unfold State.pushOnce; split <;> rfl
@[simp] theorem State.pushOnce_interrupts (s : State) (i : Instr) : (s.pushOnce i).interrupts = s.interrupts := by
  unfold State.pushOnce; split <;> rfl
@[simp] theorem State.pushOnce_reqRecords (s : State) (i : Instr) : (s.pushOnce i).reqRecords = s.reqRecords := by
  unfold State.pushOnce; split <;> rfl
@[simp] theorem State.pushOnce_sboxSeq (s : State) (i : Instr) : (s.pushOnce i).sboxSeq = s.sboxSeq := by
  unfold State.pushOnce; split <;> rfl
@[simp] theorem State.pushOnce_replicated (s : State) (i : Instr) : (s.pushOnce i).replicated = s.replicated := by
  unfold State.pushOnce; split <;> rfl
@[simp] theorem State.pushOnce_peerBases (s : State) (i : Instr) : (s.pushOnce i).peerBases = s.peerBases := by
  unfold State.pushOnce; split <;> rfl
@[simp] theorem State.pushOnce_peersLost (s : State) (i : Instr) : (s.pushOnce i).peersLost = s.peersLost := by
  unfold State.pushOnce; split <;> rfl
@[simp] theorem State.pushOnce_peerSent (s : State) (i : Instr) : (s.pushOnce i).peerSent = s.peerSent := by
  unfold State.pushOnce; split <;> rfl
@[simp] theorem State.pushOnce_images (s : State) (i : Instr) : (s.pushOnce i).images = s.images := by
  unfold State.pushOnce; split <;> rfl
@[simp] theorem State.pushOnce_errorTimes (s : State) (i : Instr) : (s.pushOnce i).errorTimes = s.errorTimes := by
  unfold State.pushOnce; split <;> rfl
@[simp] theorem State.pushOnce_errorWindow (s : State) (i : Instr) : (s.pushOnce i).errorWindow = s.errorWindow := by
  unfold State.pushOnce; split <;> rfl
@[simp] theorem State.pushOnce_thresholds (s : State) (i : Instr) : (s.pushOnce i).thresholds = s.thresholds := by
  unfold State.pushOnce; split <;> rfl
@[simp] theorem State.pushOnce_failing (s : State) (i : Instr) : (s.pushOnce i).failing = s.failing := by
  unfold State.pushOnce; split <;> rfl
@[simp] theorem State.pushOnce_reports (s : State) (i : Instr) : (s.pushOnce i).reports = s.reports := by
  unfold State.pushOnce; split <;> rfl
@[simp] theorem State.pushOnce_timed (s : State) (i : Instr) : (s.pushOnce i).timed = s.timed := by
  unfold State.pushOnce; split <;> rfl
@[simp] theorem State.pushOnce_linkLanesOff (s : State) (i : Instr) : (s.pushOnce i).linkLanesOff = s.linkLanesOff := by
  unfold State.pushOnce; split <;> rfl
@[simp] theorem State.pushOnce_armMHz (s : State) (i : Instr) : (s.pushOnce i).armMHz = s.armMHz := by
  unfold State.pushOnce; split <;> rfl
@[simp] theorem State.pushOnce_cycle (s : State) (i : Instr) : (s.pushOnce i).cycle = s.cycle := by
  unfold State.pushOnce; split <;> rfl
@[simp] theorem State.pushOnce_free (s : State) (i : Instr) : (s.pushOnce i).free = s.free := by
  unfold State.pushOnce; split <;> rfl
@[simp] theorem State.pushOnce_eventRun (s : State) (i : Instr) : (s.pushOnce i).eventRun = s.eventRun := by
  unfold State.pushOnce; split <;> rfl
@[simp] theorem State.pushOnce_issueRun (s : State) (i : Instr) : (s.pushOnce i).issueRun = s.issueRun := by
  unfold State.pushOnce; split <;> rfl
@[simp] theorem State.pushOnce_issueAt (s : State) (i : Instr) : (s.pushOnce i).issueAt = s.issueAt := by
  unfold State.pushOnce; split <;> rfl
@[simp] theorem State.pushOnce_issue (s : State) (i : Instr) : (s.pushOnce i).issue = s.issue := by
  unfold State.pushOnce; split <;> rfl

/-! ## Thread.enter -/

@[simp] theorem Thread.enter_pc (t : Thread) (c : Nat) (w r v : Word) : (t.enter c w r v).pc = v := rfl
@[simp] theorem Thread.enter_v (t : Thread) (c : Nat) (w r v : Word) : (t.enter c w r v).v = t.v := rfl
@[simp] theorem Thread.enter_x (t : Thread) (c : Nat) (w r v : Word) : (t.enter c w r v).x = t.x := rfl
@[simp] theorem Thread.enter_q (t : Thread) (c : Nat) (w r v : Word) : (t.enter c w r v).q = t.q := rfl
@[simp] theorem Thread.enter_p (t : Thread) (c : Nat) (w r v : Word) : (t.enter c w r v).p = t.p := rfl
@[simp] theorem Thread.enter_tctl (t : Thread) (c : Nat) (w r v : Word) : (t.enter c w r v).tctl = t.tctl := rfl
@[simp] theorem Thread.enter_astat (t : Thread) (c : Nat) (w r v : Word) : (t.enter c w r v).astat = t.astat := rfl
@[simp] theorem Thread.enter_tmode (t : Thread) (c : Nat) (w r v : Word) : (t.enter c w r v).tmode = 1 := rfl
@[simp] theorem Thread.enter_tepc (t : Thread) (c : Nat) (w r v : Word) : (t.enter c w r v).tepc = r := rfl
@[simp] theorem Thread.enter_tcause (t : Thread) (c : Nat) (w r v : Word) : (t.enter c w r v).tcause = word c := rfl
@[simp] theorem Thread.enter_tval (t : Thread) (c : Nat) (w r v : Word) : (t.enter c w r v).tval = w := rfl
@[simp] theorem Thread.enter_tsave (t : Thread) (c : Nat) (w r v : Word) : (t.enter c w r v).tsave = t.tsave := rfl
@[simp] theorem Thread.enter_rng (t : Thread) (c : Nat) (w r v : Word) : (t.enter c w r v).rng = t.rng := rfl
@[simp] theorem Thread.enter_region (t : Thread) (c : Nat) (w r v : Word) : (t.enter c w r v).region = t.region := rfl
@[simp] theorem Thread.enter_status (t : Thread) (c : Nat) (w r v : Word) : (t.enter c w r v).status = .run := rfl
@[simp] theorem Thread.enter_waited (t : Thread) (c : Nat) (w r v : Word) : (t.enter c w r v).waited = t.waited := rfl
@[simp] theorem Thread.enter_yieldAt (t : Thread) (c : Nat) (w r v : Word) : (t.enter c w r v).yieldAt = t.yieldAt := rfl
@[simp] theorem Thread.enter_poisoned (t : Thread) (c : Nat) (w r v : Word) : (t.enter c w r v).poisoned = t.poisoned := rfl
@[simp] theorem Thread.enter_replay (t : Thread) (c : Nat) (w r v : Word) : (t.enter c w r v).replay = t.replay := rfl
@[simp] theorem Thread.enter_answer (t : Thread) (c : Nat) (w r v : Word) : (t.enter c w r v).answer = t.answer := rfl
@[simp] theorem Thread.enter_cancel (t : Thread) (c : Nat) (w r v : Word) : (t.enter c w r v).cancel = t.cancel := rfl
@[simp] theorem Thread.enter_passed (t : Thread) (c : Nat) (w r v : Word) : (t.enter c w r v).passed = t.passed := rfl

/-! ## Thread.advance -/

@[simp] theorem Thread.advance_pc (t : Thread) : (t.advance).pc = nextPc t.pc := rfl
theorem Thread.withPc_v (t : Thread) (p : Word) : ({ t with pc := p } : Thread).v = t.v := rfl
@[simp] theorem Thread.advance_v (t : Thread) : (t.advance).v = t.v := Thread.withPc_v t (nextPc t.pc)
theorem Thread.withPc_x (t : Thread) (p : Word) : ({ t with pc := p } : Thread).x = t.x := rfl
@[simp] theorem Thread.advance_x (t : Thread) : (t.advance).x = t.x := Thread.withPc_x t (nextPc t.pc)
theorem Thread.withPc_q (t : Thread) (p : Word) : ({ t with pc := p } : Thread).q = t.q := rfl
@[simp] theorem Thread.advance_q (t : Thread) : (t.advance).q = t.q := Thread.withPc_q t (nextPc t.pc)
theorem Thread.withPc_p (t : Thread) (p : Word) : ({ t with pc := p } : Thread).p = t.p := rfl
@[simp] theorem Thread.advance_p (t : Thread) : (t.advance).p = t.p := Thread.withPc_p t (nextPc t.pc)
theorem Thread.withPc_tctl (t : Thread) (p : Word) : ({ t with pc := p } : Thread).tctl = t.tctl := rfl
@[simp] theorem Thread.advance_tctl (t : Thread) : (t.advance).tctl = t.tctl := Thread.withPc_tctl t (nextPc t.pc)
theorem Thread.withPc_astat (t : Thread) (p : Word) : ({ t with pc := p } : Thread).astat = t.astat := rfl
@[simp] theorem Thread.advance_astat (t : Thread) : (t.advance).astat = t.astat := Thread.withPc_astat t (nextPc t.pc)
theorem Thread.withPc_tmode (t : Thread) (p : Word) : ({ t with pc := p } : Thread).tmode = t.tmode := rfl
@[simp] theorem Thread.advance_tmode (t : Thread) : (t.advance).tmode = t.tmode := Thread.withPc_tmode t (nextPc t.pc)
theorem Thread.withPc_tepc (t : Thread) (p : Word) : ({ t with pc := p } : Thread).tepc = t.tepc := rfl
@[simp] theorem Thread.advance_tepc (t : Thread) : (t.advance).tepc = t.tepc := Thread.withPc_tepc t (nextPc t.pc)
theorem Thread.withPc_tcause (t : Thread) (p : Word) : ({ t with pc := p } : Thread).tcause = t.tcause := rfl
@[simp] theorem Thread.advance_tcause (t : Thread) : (t.advance).tcause = t.tcause := Thread.withPc_tcause t (nextPc t.pc)
theorem Thread.withPc_tval (t : Thread) (p : Word) : ({ t with pc := p } : Thread).tval = t.tval := rfl
@[simp] theorem Thread.advance_tval (t : Thread) : (t.advance).tval = t.tval := Thread.withPc_tval t (nextPc t.pc)
theorem Thread.withPc_tsave (t : Thread) (p : Word) : ({ t with pc := p } : Thread).tsave = t.tsave := rfl
@[simp] theorem Thread.advance_tsave (t : Thread) : (t.advance).tsave = t.tsave := Thread.withPc_tsave t (nextPc t.pc)
theorem Thread.withPc_rng (t : Thread) (p : Word) : ({ t with pc := p } : Thread).rng = t.rng := rfl
@[simp] theorem Thread.advance_rng (t : Thread) : (t.advance).rng = t.rng := Thread.withPc_rng t (nextPc t.pc)
theorem Thread.withPc_region (t : Thread) (p : Word) : ({ t with pc := p } : Thread).region = t.region := rfl
@[simp] theorem Thread.advance_region (t : Thread) : (t.advance).region = t.region := Thread.withPc_region t (nextPc t.pc)
theorem Thread.withPc_status (t : Thread) (p : Word) : ({ t with pc := p } : Thread).status = t.status := rfl
@[simp] theorem Thread.advance_status (t : Thread) : (t.advance).status = t.status := Thread.withPc_status t (nextPc t.pc)
theorem Thread.withPc_waited (t : Thread) (p : Word) : ({ t with pc := p } : Thread).waited = t.waited := rfl
@[simp] theorem Thread.advance_waited (t : Thread) : (t.advance).waited = t.waited := Thread.withPc_waited t (nextPc t.pc)
theorem Thread.withPc_yieldAt (t : Thread) (p : Word) : ({ t with pc := p } : Thread).yieldAt = t.yieldAt := rfl
@[simp] theorem Thread.advance_yieldAt (t : Thread) : (t.advance).yieldAt = t.yieldAt := Thread.withPc_yieldAt t (nextPc t.pc)
theorem Thread.withPc_poisoned (t : Thread) (p : Word) : ({ t with pc := p } : Thread).poisoned = t.poisoned := rfl
@[simp] theorem Thread.advance_poisoned (t : Thread) : (t.advance).poisoned = t.poisoned := Thread.withPc_poisoned t (nextPc t.pc)
theorem Thread.withPc_replay (t : Thread) (p : Word) : ({ t with pc := p } : Thread).replay = t.replay := rfl
@[simp] theorem Thread.advance_replay (t : Thread) : (t.advance).replay = t.replay := Thread.withPc_replay t (nextPc t.pc)
theorem Thread.withPc_answer (t : Thread) (p : Word) : ({ t with pc := p } : Thread).answer = t.answer := rfl
@[simp] theorem Thread.advance_answer (t : Thread) : (t.advance).answer = t.answer := Thread.withPc_answer t (nextPc t.pc)
theorem Thread.withPc_cancel (t : Thread) (p : Word) : ({ t with pc := p } : Thread).cancel = t.cancel := rfl
@[simp] theorem Thread.advance_cancel (t : Thread) : (t.advance).cancel = t.cancel := Thread.withPc_cancel t (nextPc t.pc)
theorem Thread.withPc_passed (t : Thread) (p : Word) : ({ t with pc := p } : Thread).passed = t.passed := rfl
@[simp] theorem Thread.advance_passed (t : Thread) : (t.advance).passed = t.passed := Thread.withPc_passed t (nextPc t.pc)

/-! ## Thread.leave -/

@[simp] theorem Thread.leave_pc (t : Thread) : (t.leave).pc = t.tepc := rfl
@[simp] theorem Thread.leave_v (t : Thread) : (t.leave).v = t.v := rfl
@[simp] theorem Thread.leave_x (t : Thread) : (t.leave).x = t.x := rfl
@[simp] theorem Thread.leave_q (t : Thread) : (t.leave).q = t.q := rfl
@[simp] theorem Thread.leave_p (t : Thread) : (t.leave).p = t.p := rfl
@[simp] theorem Thread.leave_tctl (t : Thread) : (t.leave).tctl = t.tctl := rfl
@[simp] theorem Thread.leave_astat (t : Thread) : (t.leave).astat = t.astat := rfl
@[simp] theorem Thread.leave_tmode (t : Thread) : (t.leave).tmode = 0 := rfl
@[simp] theorem Thread.leave_tepc (t : Thread) : (t.leave).tepc = t.tepc := rfl
@[simp] theorem Thread.leave_tcause (t : Thread) : (t.leave).tcause = t.tcause := rfl
@[simp] theorem Thread.leave_tval (t : Thread) : (t.leave).tval = t.tval := rfl
@[simp] theorem Thread.leave_tsave (t : Thread) : (t.leave).tsave = t.tsave := rfl
@[simp] theorem Thread.leave_rng (t : Thread) : (t.leave).rng = t.rng := rfl
@[simp] theorem Thread.leave_region (t : Thread) : (t.leave).region = t.region := rfl
@[simp] theorem Thread.leave_status (t : Thread) : (t.leave).status = t.status := rfl
@[simp] theorem Thread.leave_waited (t : Thread) : (t.leave).waited = t.waited := rfl
@[simp] theorem Thread.leave_yieldAt (t : Thread) : (t.leave).yieldAt = t.yieldAt := rfl
@[simp] theorem Thread.leave_poisoned (t : Thread) : (t.leave).poisoned = t.poisoned := rfl
@[simp] theorem Thread.leave_replay (t : Thread) : (t.leave).replay = t.replay := rfl
@[simp] theorem Thread.leave_answer (t : Thread) : (t.leave).answer = t.answer := rfl
@[simp] theorem Thread.leave_cancel (t : Thread) : (t.leave).cancel = t.cancel := rfl
@[simp] theorem Thread.leave_passed (t : Thread) : (t.leave).passed = t.passed := rfl

/-! ## Thread.setV -/

@[simp] theorem Thread.setV_pc (t : Thread) (n : Nat) (w : Word) : (t.setV n w).pc = t.pc := rfl
@[simp] theorem Thread.setV_v (t : Thread) (n : Nat) (w : Word) : (t.setV n w).v = Table.set t.v n w := rfl
@[simp] theorem Thread.setV_x (t : Thread) (n : Nat) (w : Word) : (t.setV n w).x = t.x := rfl
@[simp] theorem Thread.setV_q (t : Thread) (n : Nat) (w : Word) : (t.setV n w).q = t.q := rfl
@[simp] theorem Thread.setV_p (t : Thread) (n : Nat) (w : Word) : (t.setV n w).p = t.p := rfl
@[simp] theorem Thread.setV_tctl (t : Thread) (n : Nat) (w : Word) : (t.setV n w).tctl = t.tctl := rfl
@[simp] theorem Thread.setV_astat (t : Thread) (n : Nat) (w : Word) : (t.setV n w).astat = t.astat := rfl
@[simp] theorem Thread.setV_tmode (t : Thread) (n : Nat) (w : Word) : (t.setV n w).tmode = t.tmode := rfl
@[simp] theorem Thread.setV_tepc (t : Thread) (n : Nat) (w : Word) : (t.setV n w).tepc = t.tepc := rfl
@[simp] theorem Thread.setV_tcause (t : Thread) (n : Nat) (w : Word) : (t.setV n w).tcause = t.tcause := rfl
@[simp] theorem Thread.setV_tval (t : Thread) (n : Nat) (w : Word) : (t.setV n w).tval = t.tval := rfl
@[simp] theorem Thread.setV_tsave (t : Thread) (n : Nat) (w : Word) : (t.setV n w).tsave = t.tsave := rfl
@[simp] theorem Thread.setV_rng (t : Thread) (n : Nat) (w : Word) : (t.setV n w).rng = t.rng := rfl
@[simp] theorem Thread.setV_region (t : Thread) (n : Nat) (w : Word) : (t.setV n w).region = t.region := rfl
@[simp] theorem Thread.setV_status (t : Thread) (n : Nat) (w : Word) : (t.setV n w).status = t.status := rfl
@[simp] theorem Thread.setV_waited (t : Thread) (n : Nat) (w : Word) : (t.setV n w).waited = t.waited := rfl
@[simp] theorem Thread.setV_yieldAt (t : Thread) (n : Nat) (w : Word) : (t.setV n w).yieldAt = t.yieldAt := rfl
@[simp] theorem Thread.setV_poisoned (t : Thread) (n : Nat) (w : Word) : (t.setV n w).poisoned = t.poisoned.filter (fun m => m ≠ n) := rfl
@[simp] theorem Thread.setV_replay (t : Thread) (n : Nat) (w : Word) : (t.setV n w).replay = t.replay := rfl
@[simp] theorem Thread.setV_answer (t : Thread) (n : Nat) (w : Word) : (t.setV n w).answer = t.answer := rfl
@[simp] theorem Thread.setV_cancel (t : Thread) (n : Nat) (w : Word) : (t.setV n w).cancel = t.cancel := rfl
@[simp] theorem Thread.setV_passed (t : Thread) (n : Nat) (w : Word) : (t.setV n w).passed = t.passed := rfl

/-! ## Thread.freeV -/

@[simp] theorem Thread.freeV_pc (t : Thread) (n : Nat) : (t.freeV n).pc = t.pc := rfl
@[simp] theorem Thread.freeV_v (t : Thread) (n : Nat) : (t.freeV n).v = Table.erase t.v n := rfl
@[simp] theorem Thread.freeV_x (t : Thread) (n : Nat) : (t.freeV n).x = t.x := rfl
@[simp] theorem Thread.freeV_q (t : Thread) (n : Nat) : (t.freeV n).q = t.q := rfl
@[simp] theorem Thread.freeV_p (t : Thread) (n : Nat) : (t.freeV n).p = t.p := rfl
@[simp] theorem Thread.freeV_tctl (t : Thread) (n : Nat) : (t.freeV n).tctl = t.tctl := rfl
@[simp] theorem Thread.freeV_astat (t : Thread) (n : Nat) : (t.freeV n).astat = t.astat := rfl
@[simp] theorem Thread.freeV_tmode (t : Thread) (n : Nat) : (t.freeV n).tmode = t.tmode := rfl
@[simp] theorem Thread.freeV_tepc (t : Thread) (n : Nat) : (t.freeV n).tepc = t.tepc := rfl
@[simp] theorem Thread.freeV_tcause (t : Thread) (n : Nat) : (t.freeV n).tcause = t.tcause := rfl
@[simp] theorem Thread.freeV_tval (t : Thread) (n : Nat) : (t.freeV n).tval = t.tval := rfl
@[simp] theorem Thread.freeV_tsave (t : Thread) (n : Nat) : (t.freeV n).tsave = t.tsave := rfl
@[simp] theorem Thread.freeV_rng (t : Thread) (n : Nat) : (t.freeV n).rng = t.rng := rfl
@[simp] theorem Thread.freeV_region (t : Thread) (n : Nat) : (t.freeV n).region = t.region := rfl
@[simp] theorem Thread.freeV_status (t : Thread) (n : Nat) : (t.freeV n).status = t.status := rfl
@[simp] theorem Thread.freeV_waited (t : Thread) (n : Nat) : (t.freeV n).waited = t.waited := rfl
@[simp] theorem Thread.freeV_yieldAt (t : Thread) (n : Nat) : (t.freeV n).yieldAt = t.yieldAt := rfl
@[simp] theorem Thread.freeV_poisoned (t : Thread) (n : Nat) : (t.freeV n).poisoned = t.poisoned.filter (fun m => m ≠ n) := rfl
@[simp] theorem Thread.freeV_replay (t : Thread) (n : Nat) : (t.freeV n).replay = t.replay := rfl
@[simp] theorem Thread.freeV_answer (t : Thread) (n : Nat) : (t.freeV n).answer = t.answer := rfl
@[simp] theorem Thread.freeV_cancel (t : Thread) (n : Nat) : (t.freeV n).cancel = t.cancel := rfl
@[simp] theorem Thread.freeV_passed (t : Thread) (n : Nat) : (t.freeV n).passed = t.passed := rfl

/-! ## Thread.setFlags -/

@[simp] theorem Thread.setFlags_pc (t : Thread) (f : Flags) : (t.setFlags f).pc = t.pc := rfl
@[simp] theorem Thread.setFlags_v (t : Thread) (f : Flags) : (t.setFlags f).v = t.v := rfl
@[simp] theorem Thread.setFlags_x (t : Thread) (f : Flags) : (t.setFlags f).x = t.x := rfl
@[simp] theorem Thread.setFlags_q (t : Thread) (f : Flags) : (t.setFlags f).q = t.q := rfl
@[simp] theorem Thread.setFlags_p (t : Thread) (f : Flags) : (t.setFlags f).p = t.p := rfl
@[simp] theorem Thread.setFlags_tctl (t : Thread) (f : Flags) : (t.setFlags f).tctl = t.tctl := rfl
@[simp] theorem Thread.setFlags_astat (t : Thread) (f : Flags) : (t.setFlags f).astat = t.astat ||| word f.toNat := rfl
@[simp] theorem Thread.setFlags_tmode (t : Thread) (f : Flags) : (t.setFlags f).tmode = t.tmode := rfl
@[simp] theorem Thread.setFlags_tepc (t : Thread) (f : Flags) : (t.setFlags f).tepc = t.tepc := rfl
@[simp] theorem Thread.setFlags_tcause (t : Thread) (f : Flags) : (t.setFlags f).tcause = t.tcause := rfl
@[simp] theorem Thread.setFlags_tval (t : Thread) (f : Flags) : (t.setFlags f).tval = t.tval := rfl
@[simp] theorem Thread.setFlags_tsave (t : Thread) (f : Flags) : (t.setFlags f).tsave = t.tsave := rfl
@[simp] theorem Thread.setFlags_rng (t : Thread) (f : Flags) : (t.setFlags f).rng = t.rng := rfl
@[simp] theorem Thread.setFlags_region (t : Thread) (f : Flags) : (t.setFlags f).region = t.region := rfl
@[simp] theorem Thread.setFlags_status (t : Thread) (f : Flags) : (t.setFlags f).status = t.status := rfl
@[simp] theorem Thread.setFlags_waited (t : Thread) (f : Flags) : (t.setFlags f).waited = t.waited := rfl
@[simp] theorem Thread.setFlags_yieldAt (t : Thread) (f : Flags) : (t.setFlags f).yieldAt = t.yieldAt := rfl
@[simp] theorem Thread.setFlags_poisoned (t : Thread) (f : Flags) : (t.setFlags f).poisoned = t.poisoned := rfl
@[simp] theorem Thread.setFlags_replay (t : Thread) (f : Flags) : (t.setFlags f).replay = t.replay := rfl
@[simp] theorem Thread.setFlags_answer (t : Thread) (f : Flags) : (t.setFlags f).answer = t.answer := rfl
@[simp] theorem Thread.setFlags_cancel (t : Thread) (f : Flags) : (t.setFlags f).cancel = t.cancel := rfl
@[simp] theorem Thread.setFlags_passed (t : Thread) (f : Flags) : (t.setFlags f).passed = t.passed := rfl

/-! ## Thread.bump -/

@[simp] theorem Thread.bump_pc (t : Thread) (n : Nat) : (t.bump n).pc = t.pc := rfl
@[simp] theorem Thread.bump_v (t : Thread) (n : Nat) : (t.bump n).v = t.v := rfl
@[simp] theorem Thread.bump_x (t : Thread) (n : Nat) : (t.bump n).x = Table.set t.x n (t.xreg n).bump := rfl
@[simp] theorem Thread.bump_q (t : Thread) (n : Nat) : (t.bump n).q = t.q := rfl
@[simp] theorem Thread.bump_p (t : Thread) (n : Nat) : (t.bump n).p = t.p := rfl
@[simp] theorem Thread.bump_tctl (t : Thread) (n : Nat) : (t.bump n).tctl = t.tctl := rfl
@[simp] theorem Thread.bump_astat (t : Thread) (n : Nat) : (t.bump n).astat = t.astat := rfl
@[simp] theorem Thread.bump_tmode (t : Thread) (n : Nat) : (t.bump n).tmode = t.tmode := rfl
@[simp] theorem Thread.bump_tepc (t : Thread) (n : Nat) : (t.bump n).tepc = t.tepc := rfl
@[simp] theorem Thread.bump_tcause (t : Thread) (n : Nat) : (t.bump n).tcause = t.tcause := rfl
@[simp] theorem Thread.bump_tval (t : Thread) (n : Nat) : (t.bump n).tval = t.tval := rfl
@[simp] theorem Thread.bump_tsave (t : Thread) (n : Nat) : (t.bump n).tsave = t.tsave := rfl
@[simp] theorem Thread.bump_rng (t : Thread) (n : Nat) : (t.bump n).rng = t.rng := rfl
@[simp] theorem Thread.bump_region (t : Thread) (n : Nat) : (t.bump n).region = t.region := rfl
@[simp] theorem Thread.bump_status (t : Thread) (n : Nat) : (t.bump n).status = t.status := rfl
@[simp] theorem Thread.bump_waited (t : Thread) (n : Nat) : (t.bump n).waited = t.waited := rfl
@[simp] theorem Thread.bump_yieldAt (t : Thread) (n : Nat) : (t.bump n).yieldAt = t.yieldAt := rfl
@[simp] theorem Thread.bump_poisoned (t : Thread) (n : Nat) : (t.bump n).poisoned = t.poisoned := rfl
@[simp] theorem Thread.bump_replay (t : Thread) (n : Nat) : (t.bump n).replay = t.replay := rfl
@[simp] theorem Thread.bump_answer (t : Thread) (n : Nat) : (t.bump n).answer = t.answer := rfl
@[simp] theorem Thread.bump_cancel (t : Thread) (n : Nat) : (t.bump n).cancel = t.cancel := rfl
@[simp] theorem Thread.bump_passed (t : Thread) (n : Nat) : (t.bump n).passed = t.passed := rfl

/-! ## Thread.setP and Thread.put -/

@[simp] theorem Thread.setP_pc (t : Thread) (n : Fin 8) (b : Bool) : (t.setP n b).pc = t.pc := by
  by_cases h : n = 0 <;> simp [Thread.setP, h]
@[simp] theorem Thread.setP_v (t : Thread) (n : Fin 8) (b : Bool) : (t.setP n b).v = t.v := by
  by_cases h : n = 0 <;> simp [Thread.setP, h]
@[simp] theorem Thread.setP_x (t : Thread) (n : Fin 8) (b : Bool) : (t.setP n b).x = t.x := by
  by_cases h : n = 0 <;> simp [Thread.setP, h]
@[simp] theorem Thread.setP_q (t : Thread) (n : Fin 8) (b : Bool) : (t.setP n b).q = t.q := by
  by_cases h : n = 0 <;> simp [Thread.setP, h]
@[simp] theorem Thread.setP_tctl (t : Thread) (n : Fin 8) (b : Bool) : (t.setP n b).tctl = t.tctl := by
  by_cases h : n = 0 <;> simp [Thread.setP, h]
@[simp] theorem Thread.setP_astat (t : Thread) (n : Fin 8) (b : Bool) : (t.setP n b).astat = t.astat := by
  by_cases h : n = 0 <;> simp [Thread.setP, h]
@[simp] theorem Thread.setP_tmode (t : Thread) (n : Fin 8) (b : Bool) : (t.setP n b).tmode = t.tmode := by
  by_cases h : n = 0 <;> simp [Thread.setP, h]
@[simp] theorem Thread.setP_tepc (t : Thread) (n : Fin 8) (b : Bool) : (t.setP n b).tepc = t.tepc := by
  by_cases h : n = 0 <;> simp [Thread.setP, h]
@[simp] theorem Thread.setP_tcause (t : Thread) (n : Fin 8) (b : Bool) : (t.setP n b).tcause = t.tcause := by
  by_cases h : n = 0 <;> simp [Thread.setP, h]
@[simp] theorem Thread.setP_tval (t : Thread) (n : Fin 8) (b : Bool) : (t.setP n b).tval = t.tval := by
  by_cases h : n = 0 <;> simp [Thread.setP, h]
@[simp] theorem Thread.setP_tsave (t : Thread) (n : Fin 8) (b : Bool) : (t.setP n b).tsave = t.tsave := by
  by_cases h : n = 0 <;> simp [Thread.setP, h]
@[simp] theorem Thread.setP_rng (t : Thread) (n : Fin 8) (b : Bool) : (t.setP n b).rng = t.rng := by
  by_cases h : n = 0 <;> simp [Thread.setP, h]
@[simp] theorem Thread.setP_region (t : Thread) (n : Fin 8) (b : Bool) : (t.setP n b).region = t.region := by
  by_cases h : n = 0 <;> simp [Thread.setP, h]
@[simp] theorem Thread.setP_status (t : Thread) (n : Fin 8) (b : Bool) : (t.setP n b).status = t.status := by
  by_cases h : n = 0 <;> simp [Thread.setP, h]
@[simp] theorem Thread.setP_waited (t : Thread) (n : Fin 8) (b : Bool) : (t.setP n b).waited = t.waited := by
  by_cases h : n = 0 <;> simp [Thread.setP, h]
@[simp] theorem Thread.setP_yieldAt (t : Thread) (n : Fin 8) (b : Bool) : (t.setP n b).yieldAt = t.yieldAt := by
  by_cases h : n = 0 <;> simp [Thread.setP, h]
@[simp] theorem Thread.setP_poisoned (t : Thread) (n : Fin 8) (b : Bool) : (t.setP n b).poisoned = t.poisoned := by
  by_cases h : n = 0 <;> simp [Thread.setP, h]
@[simp] theorem Thread.setP_replay (t : Thread) (n : Fin 8) (b : Bool) : (t.setP n b).replay = t.replay := by
  by_cases h : n = 0 <;> simp [Thread.setP, h]
@[simp] theorem Thread.setP_answer (t : Thread) (n : Fin 8) (b : Bool) : (t.setP n b).answer = t.answer := by
  by_cases h : n = 0 <;> simp [Thread.setP, h]
@[simp] theorem Thread.setP_cancel (t : Thread) (n : Fin 8) (b : Bool) : (t.setP n b).cancel = t.cancel := by
  by_cases h : n = 0 <;> simp [Thread.setP, h]
@[simp] theorem Thread.setP_passed (t : Thread) (n : Fin 8) (b : Bool) : (t.setP n b).passed = t.passed := by
  by_cases h : n = 0 <;> simp [Thread.setP, h]
@[simp] theorem Thread.put_pc (t : Thread) (d : Dest) (w : Word) : (t.put d w).pc = t.pc := by
  cases d <;> rfl
@[simp] theorem Thread.put_x (t : Thread) (d : Dest) (w : Word) : (t.put d w).x = t.x := by
  cases d <;> rfl
@[simp] theorem Thread.put_p (t : Thread) (d : Dest) (w : Word) : (t.put d w).p = t.p := by
  cases d <;> rfl
@[simp] theorem Thread.put_tctl (t : Thread) (d : Dest) (w : Word) : (t.put d w).tctl = t.tctl := by
  cases d <;> rfl
@[simp] theorem Thread.put_astat (t : Thread) (d : Dest) (w : Word) : (t.put d w).astat = t.astat := by
  cases d <;> rfl
@[simp] theorem Thread.put_tmode (t : Thread) (d : Dest) (w : Word) : (t.put d w).tmode = t.tmode := by
  cases d <;> rfl
@[simp] theorem Thread.put_tepc (t : Thread) (d : Dest) (w : Word) : (t.put d w).tepc = t.tepc := by
  cases d <;> rfl
@[simp] theorem Thread.put_tcause (t : Thread) (d : Dest) (w : Word) : (t.put d w).tcause = t.tcause := by
  cases d <;> rfl
@[simp] theorem Thread.put_tval (t : Thread) (d : Dest) (w : Word) : (t.put d w).tval = t.tval := by
  cases d <;> rfl
@[simp] theorem Thread.put_tsave (t : Thread) (d : Dest) (w : Word) : (t.put d w).tsave = t.tsave := by
  cases d <;> rfl
@[simp] theorem Thread.put_rng (t : Thread) (d : Dest) (w : Word) : (t.put d w).rng = t.rng := by
  cases d <;> rfl
@[simp] theorem Thread.put_region (t : Thread) (d : Dest) (w : Word) : (t.put d w).region = t.region := by
  cases d <;> rfl
@[simp] theorem Thread.put_status (t : Thread) (d : Dest) (w : Word) : (t.put d w).status = t.status := by
  cases d <;> rfl
@[simp] theorem Thread.put_waited (t : Thread) (d : Dest) (w : Word) : (t.put d w).waited = t.waited := by
  cases d <;> rfl
@[simp] theorem Thread.put_yieldAt (t : Thread) (d : Dest) (w : Word) : (t.put d w).yieldAt = t.yieldAt := by
  cases d <;> rfl
@[simp] theorem Thread.put_replay (t : Thread) (d : Dest) (w : Word) : (t.put d w).replay = t.replay := by
  cases d <;> rfl
@[simp] theorem Thread.put_answer (t : Thread) (d : Dest) (w : Word) : (t.put d w).answer = t.answer := by
  cases d <;> rfl
@[simp] theorem Thread.put_cancel (t : Thread) (d : Dest) (w : Word) : (t.put d w).cancel = t.cancel := by
  cases d <;> rfl
@[simp] theorem Thread.put_passed (t : Thread) (d : Dest) (w : Word) : (t.put d w).passed = t.passed := by
  cases d <;> rfl

/-! ## Group -/

@[simp] theorem Group.newCycle_ctx (g : Group) : g.newCycle.ctx = g.ctx := rfl
@[simp] theorem Group.mapLanes_ctx (g : Group) (l : List Nat) (f : Nat → Thread → LaneOut) : (g.mapLanes l f).ctx = g.ctx := rfl
@[simp] theorem Group.newCycle_grid (g : Group) : g.newCycle.grid = g.grid := rfl
@[simp] theorem Group.mapLanes_grid (g : Group) (l : List Nat) (f : Nat → Thread → LaneOut) : (g.mapLanes l f).grid = g.grid := rfl
@[simp] theorem Group.newCycle_block (g : Group) : g.newCycle.block = g.block := rfl
@[simp] theorem Group.mapLanes_block (g : Group) (l : List Nat) (f : Nat → Thread → LaneOut) : (g.mapLanes l f).block = g.block := rfl
@[simp] theorem Group.newCycle_lidx1 (g : Group) : g.newCycle.lidx1 = g.lidx1 := rfl
@[simp] theorem Group.mapLanes_lidx1 (g : Group) (l : List Nat) (f : Nat → Thread → LaneOut) : (g.mapLanes l f).lidx1 = g.lidx1 := rfl
@[simp] theorem Group.newCycle_threads (g : Group) : g.newCycle.threads = g.threads := rfl
@[simp] theorem Group.newCycle_k (g : Group) : g.newCycle.k = g.k := rfl
@[simp] theorem Group.mapLanes_k (g : Group) (l : List Nat) (f : Nat → Thread → LaneOut) : (g.mapLanes l f).k = g.k := rfl
@[simp] theorem Group.newCycle_kp (g : Group) : g.newCycle.kp = g.kp := rfl
@[simp] theorem Group.mapLanes_kp (g : Group) (l : List Nat) (f : Nat → Thread → LaneOut) : (g.mapLanes l f).kp = g.kp := rfl
@[simp] theorem Group.newCycle_kn (g : Group) : g.newCycle.kn = g.kn := rfl
@[simp] theorem Group.mapLanes_kn (g : Group) (l : List Nat) (f : Nat → Thread → LaneOut) : (g.mapLanes l f).kn = g.kn := rfl
@[simp] theorem Group.newCycle_kq (g : Group) : g.newCycle.kq = g.kq := rfl
@[simp] theorem Group.mapLanes_kq (g : Group) (l : List Nat) (f : Nat → Thread → LaneOut) : (g.mapLanes l f).kq = g.kq := rfl
@[simp] theorem Group.newCycle_ko (g : Group) : g.newCycle.ko = g.ko := rfl
@[simp] theorem Group.mapLanes_ko (g : Group) (l : List Nat) (f : Nat → Thread → LaneOut) : (g.mapLanes l f).ko = g.ko := rfl
@[simp] theorem Group.newCycle_c (g : Group) : g.newCycle.c = g.c := rfl
@[simp] theorem Group.mapLanes_c (g : Group) (l : List Nat) (f : Nat → Thread → LaneOut) : (g.mapLanes l f).c = g.c := rfl
@[simp] theorem Group.newCycle_n (g : Group) : g.newCycle.n = g.n := rfl
@[simp] theorem Group.mapLanes_n (g : Group) (l : List Nat) (f : Nat → Thread → LaneOut) : (g.mapLanes l f).n = g.n := rfl
@[simp] theorem Group.newCycle_gstat (g : Group) : g.newCycle.gstat = g.gstat := rfl
@[simp] theorem Group.mapLanes_gstat (g : Group) (l : List Nat) (f : Nat → Thread → LaneOut) : (g.mapLanes l f).gstat = g.gstat := rfl
@[simp] theorem Group.newCycle_gseen (g : Group) : g.newCycle.gseen = g.gstat := rfl
@[simp] theorem Group.mapLanes_gseen (g : Group) (l : List Nat) (f : Nat → Thread → LaneOut) : (g.mapLanes l f).gseen = g.gseen := rfl
@[simp] theorem Group.newCycle_gsets (g : Group) : g.newCycle.gsets = 0 := rfl
@[simp] theorem Group.mapLanes_gsets (g : Group) (l : List Nat) (f : Nat → Thread → LaneOut) : (g.mapLanes l f).gsets = g.gsets := rfl
@[simp] theorem Group.newCycle_holds (g : Group) : g.newCycle.holds = g.holds := rfl
@[simp] theorem Group.mapLanes_holds (g : Group) (l : List Nat) (f : Nat → Thread → LaneOut) : (g.mapLanes l f).holds = g.holds := rfl
@[simp] theorem Group.newCycle_spadCount (g : Group) : g.newCycle.spadCount = g.spadCount := rfl
@[simp] theorem Group.mapLanes_spadCount (g : Group) (l : List Nat) (f : Nat → Thread → LaneOut) : (g.mapLanes l f).spadCount = g.spadCount := rfl
@[simp] theorem Group.newCycle_fork (g : Group) : g.newCycle.fork = g.fork := rfl
@[simp] theorem Group.mapLanes_fork (g : Group) (l : List Nat) (f : Nat → Thread → LaneOut) : (g.mapLanes l f).fork = g.fork := rfl
@[simp] theorem Group.newCycle_forks (g : Group) : g.newCycle.forks = g.forks := rfl
@[simp] theorem Group.mapLanes_forks (g : Group) (l : List Nat) (f : Nat → Thread → LaneOut) : (g.mapLanes l f).forks = g.forks := rfl
@[simp] theorem Group.newCycle_poisoned (g : Group) : g.newCycle.poisoned = g.poisoned := rfl
@[simp] theorem Group.mapLanes_poisoned (g : Group) (l : List Nat) (f : Nat → Thread → LaneOut) : (g.mapLanes l f).poisoned = g.poisoned := rfl
@[simp] theorem Group.newCycle_left (g : Group) : g.newCycle.left = g.left := rfl
@[simp] theorem Group.mapLanes_left (g : Group) (l : List Nat) (f : Nat → Thread → LaneOut) : (g.mapLanes l f).left = g.left := rfl

/-! ## Core.setEngine -/

@[simp] theorem Core.setEngine_clock (k : Core) (e : Eng) (v : Engine) : (k.setEngine e v).clock = k.clock := by
  cases e <;> rfl
@[simp] theorem Core.setEngine_l1cfg (k : Core) (e : Eng) (v : Engine) : (k.setEngine e v).l1cfg = k.l1cfg := by
  cases e <;> rfl
@[simp] theorem Core.setEngine_l1 (k : Core) (e : Eng) (v : Engine) : (k.setEngine e v).l1 = k.l1 := by
  cases e <;> rfl
@[simp] theorem Core.setEngine_tlb (k : Core) (e : Eng) (v : Engine) : (k.setEngine e v).tlb = k.tlb := by
  cases e <;> rfl
@[simp] theorem Core.setEngine_bounds (k : Core) (e : Eng) (v : Engine) : (k.setEngine e v).bounds = k.bounds := by
  cases e <;> rfl
@[simp] theorem Core.setEngine_pend (k : Core) (e : Eng) (v : Engine) : (k.setEngine e v).pend = k.pend := by
  cases e <;> rfl
@[simp] theorem Core.setEngine_pendAtomics (k : Core) (e : Eng) (v : Engine) : (k.setEngine e v).pendAtomics = k.pendAtomics := by
  cases e <;> rfl
@[simp] theorem Core.setEngine_replies (k : Core) (e : Eng) (v : Engine) : (k.setEngine e v).replies = k.replies := by
  cases e <;> rfl
@[simp] theorem Core.setEngine_banks (k : Core) (e : Eng) (v : Engine) : (k.setEngine e v).banks = k.banks := by
  cases e <;> rfl
@[simp] theorem Core.setEngine_held (k : Core) (e : Eng) (v : Engine) : (k.setEngine e v).held = k.held := by
  cases e <;> rfl
@[simp] theorem Core.setEngine_waiters (k : Core) (e : Eng) (v : Engine) : (k.setEngine e v).waiters = k.waiters := by
  cases e <;> rfl
@[simp] theorem Core.setEngine_matrix (k : Core) (e : Eng) (v : Engine) : (k.setEngine e v).matrix = k.matrix := by
  cases e <;> rfl
@[simp] theorem Core.setEngine_inService (k : Core) (e : Eng) (v : Engine) : (k.setEngine e v).inService = k.inService := by
  cases e <;> rfl
@[simp] theorem Core.setEngine_reserved (k : Core) (e : Eng) (v : Engine) : (k.setEngine e v).reserved = k.reserved := by
  cases e <;> rfl
@[simp] theorem Core.setEngine_rr (k : Core) (e : Eng) (v : Engine) : (k.setEngine e v).rr = k.rr := by
  cases e <;> rfl
@[simp] theorem Core.setEngine_picks (k : Core) (e : Eng) (v : Engine) : (k.setEngine e v).picks = k.picks := by
  cases e <;> rfl
@[simp] theorem Core.setEngine_reqNext (k : Core) (e : Eng) (v : Engine) : (k.setEngine e v).reqNext = k.reqNext := by
  cases e <;> rfl
@[simp] theorem Core.setEngine_replDie (k : Core) (e : Eng) (v : Engine) : (k.setEngine e v).replDie = k.replDie := by
  cases e <;> rfl
@[simp] theorem Core.setEngine_replPkg (k : Core) (e : Eng) (v : Engine) : (k.setEngine e v).replPkg = k.replPkg := by
  cases e <;> rfl
@[simp] theorem Core.engine_setEngine (k : Core) (e : Eng) (v : Engine) : (k.setEngine e v).engine e = v := by
  cases e <;> rfl

end Sys2Proof.Machine
end

