-- ==== Sys2Proof/Laws/Lanes.lean ====
section
/-!
SUPPORT. What the shared shapes of an instruction word do: the issue they act on, the lanes they run on, what a lane comes to, and what
they leave alone.
-/
namespace Sys2Proof.Machine

/-! ## The issue a word acts on -/

theorem issued_cons {s : State} {i : Issue} {rest : List Issue} (h : s.issue = i :: rest) (f : Issue → State) :
    issued s f = .next (f i) := by
  simp [issued, h]

theorem issued_nil {s : State} (h : s.issue = []) (f : Issue → State) : issued s f = .fault .noIssue := by
  simp [issued, h]

/-- All that a word can do: act on the first issue, or stop because nothing is being issued. -/
theorem issued_cases (s : State) (f : Issue → State) :
    (s.issue = [] ∧ issued s f = .fault .noIssue) ∨ ∃ i rest, s.issue = i :: rest ∧ issued s f = .next (f i) := by
  cases h : s.issue with
  | nil => exact .inl ⟨rfl, issued_nil h f⟩
  | cons i rest => exact .inr ⟨i, rest, rfl, issued_cons h f⟩

/-! ## Containment requests -/

/-- A containment request touches the block and the agenda. -/
theorem State.stopBlock_cases (s : State) (k c : Nat) (v p : Word) :
    s.stopBlock k c v p = s ∨ ∃ b f, s.block? k = some b ∧ b.stopped = none ∧
      s.stopBlock k c v p = (s.setBlock k { b with stopped := some f }).push (.blockContainment b.grid b.index) := by
  unfold State.stopBlock
  cases h : s.block? k with
  | none => exact .inl rfl
  | some b =>
    cases hs : b.stopped with
    | some f => exact .inl (by simp [hs])
    | none =>
      cases hc : s.committing k b with
      | true => exact .inl (by simp [hs, hc])
      | false => exact .inr ⟨b, _, rfl, hs, by simp only [hs, hc]; rfl⟩

@[simp] theorem State.stopBlock_mem (s : State) (k c : Nat) (v p : Word) : (s.stopBlock k c v p).mem = s.mem := by
  rcases s.stopBlock_cases k c v p with h | ⟨b, f, -, -, h⟩ <;> rw [h] <;> rfl
@[simp] theorem State.stopBlock_cores (s : State) (k c : Nat) (v p : Word) : (s.stopBlock k c v p).cores = s.cores := by
  rcases s.stopBlock_cases k c v p with h | ⟨b, f, -, -, h⟩ <;> rw [h] <;> rfl
@[simp] theorem State.stopBlock_dies (s : State) (k c : Nat) (v p : Word) : (s.stopBlock k c v p).dies = s.dies := by
  rcases s.stopBlock_cases k c v p with h | ⟨b, f, -, -, h⟩ <;> rw [h] <;> rfl
@[simp] theorem State.stopBlock_groups (s : State) (k c : Nat) (v p : Word) : (s.stopBlock k c v p).groups = s.groups := by
  rcases s.stopBlock_cases k c v p with h | ⟨b, f, -, -, h⟩ <;> rw [h] <;> rfl
@[simp] theorem State.stopBlock_contexts (s : State) (k c : Nat) (v p : Word) : (s.stopBlock k c v p).contexts = s.contexts := by
  rcases s.stopBlock_cases k c v p with h | ⟨b, f, -, -, h⟩ <;> rw [h] <;> rfl

/-! ## PRB (R193, R194) -/

/-- Setting PRB touches the group's gstat. -/
theorem State.setPrb_cases (s : State) (g : Nat) :
    s.setPrb g = s ∨ ∃ gr, s.group? g = some gr ∧ s.setPrb g = s.setGroup g (gr.updateGstat 0 1) := by
  unfold State.setPrb
  cases h : s.group? g with
  | none => exact .inl rfl
  | some gr => exact .inr ⟨gr, rfl, rfl⟩

@[simp] theorem State.setPrb_mem (s : State) (g : Nat) : (s.setPrb g).mem = s.mem := by
  rcases s.setPrb_cases g with h | ⟨gr, -, h⟩ <;> rw [h] <;> rfl
@[simp] theorem State.setPrb_cores (s : State) (g : Nat) : (s.setPrb g).cores = s.cores := by
  rcases s.setPrb_cases g with h | ⟨gr, -, h⟩ <;> rw [h] <;> rfl
@[simp] theorem State.setPrb_dies (s : State) (g : Nat) : (s.setPrb g).dies = s.dies := by
  rcases s.setPrb_cases g with h | ⟨gr, -, h⟩ <;> rw [h] <;> rfl
@[simp] theorem State.setPrb_contexts (s : State) (g : Nat) : (s.setPrb g).contexts = s.contexts := by
  rcases s.setPrb_cases g with h | ⟨gr, -, h⟩ <;> rw [h] <;> rfl
@[simp] theorem State.setPrb_blocks (s : State) (g : Nat) : (s.setPrb g).blocks = s.blocks := by
  rcases s.setPrb_cases g with h | ⟨gr, -, h⟩ <;> rw [h] <;> rfl

/-! ## A word that acts on each thread alone -/

/-- All that such a word does: it replaces the group's threads, and where lanes did something beside their threads, it may set PRB and
request one containment. -/
theorem State.runLanes_keeps {P : State → Prop} {s : State} {i : Issue} {f : LaneFn} (h0 : P s)
    (hg : ∀ (s : State) g v, P s → P (s.setGroup g v)) (hp : ∀ (s : State) g, P s → P (s.setPrb g))
    (hb : ∀ (s : State) k c v p, P s → P (s.stopBlock k c v p)) : P (s.runLanes i f) := by
  unfold State.runLanes
  split
  · exact h0
  · simp only
    split
    · exact hg _ _ _ h0
    · split
      · split
        · exact hp _ _ (hg _ _ _ h0)
        · exact hg _ _ _ h0
      · apply hb
        split
        · exact hp _ _ (hg _ _ _ h0)
        · exact hg _ _ _ h0

@[simp] theorem State.runLanes_mem (s : State) (i : Issue) (f : LaneFn) : (s.runLanes i f).mem = s.mem :=
  State.runLanes_keeps (P := fun t => t.mem = s.mem) rfl (by simp) (by simp) (by simp)
@[simp] theorem State.runLanes_cores (s : State) (i : Issue) (f : LaneFn) : (s.runLanes i f).cores = s.cores :=
  State.runLanes_keeps (P := fun t => t.cores = s.cores) rfl (by simp) (by simp) (by simp)
@[simp] theorem State.runLanes_dies (s : State) (i : Issue) (f : LaneFn) : (s.runLanes i f).dies = s.dies :=
  State.runLanes_keeps (P := fun t => t.dies = s.dies) rfl (by simp) (by simp) (by simp)
@[simp] theorem State.runLanes_contexts (s : State) (i : Issue) (f : LaneFn) : (s.runLanes i f).contexts = s.contexts :=
  State.runLanes_keeps (P := fun t => t.contexts = s.contexts) rfl (by simp) (by simp) (by simp)

/-- The first of several options is none when every one is. -/
theorem firstSome_none {α : Type} {l : List (Option α)} (h : ∀ x ∈ l, x = none) : firstSome l = none := by
  induction l with
  | nil => rfl
  | cons a l ih =>
    have ha := h a (by simp)
    subst ha
    exact ih (fun x hx => h x (List.mem_cons_of_mem _ hx))

/-- No lane does anything beside its thread. -/
theorem Group.asides_nil {g : Group} {lanes : List Nat} {f : Nat → Thread → LaneOut}
    (h : ∀ p ∈ g.threads, p.1 ∈ lanes → (f p.1 p.2).aside = none) : g.asides lanes f = [] := by
  unfold Group.asides
  rw [List.filterMap_eq_nil_iff]
  intro p hp
  by_cases hl : p.1 ∈ lanes
  · simp [hl, h p hp hl]
  · simp [hl]

/-- Where no issued lane traps in handler mode or skips a word in probe mode, the word changes the threads of its group and nothing else. -/
theorem State.runLanes_plain {s : State} {i : Issue} {f : LaneFn} {e : Env} (he : s.env? i = some e)
    (h : ∀ p ∈ e.g.threads, p.1 ∈ i.lanes → (f e p.1 p.2).aside = none) :
    s.runLanes i f = s.setGroup i.group (e.g.mapLanes i.lanes (f e)) := by
  unfold State.runLanes
  rw [he]
  simp [Group.asides_nil h]

/-- A lane that the predicate does not select goes on (R171, R196). -/
theorem runLane_skip {g : Guard} {f : LaneFn} {e : Env} {l : Nat} {t : Thread} (h : t.selected g = false) :
    runLane g f e l t = ⟨t.advance, none⟩ := by
  simp [runLane, h]
theorem runLane_run {g : Guard} {f : LaneFn} {e : Env} {l : Nat} {t : Thread} (h : t.selected g = true) :
    runLane g f e l t = f e l t := by
  simp [runLane, h]

/-- All that a trap comes to: in probe mode a decode trap is a no-operation that sets PRB (R193); else, outside a handler, the handler is
entered (R222); inside one, containment is asked for and nothing changes (R366). -/
theorem Thread.takeTrap_cases (t : Thread) (vec resume : Word) (tr : Trap) :
    (t.probing = true ∧ tr.isDecode = true ∧ t.takeTrap vec resume tr = ⟨t.advance, some .probe⟩) ∨
    ((t.probing && tr.isDecode) = false ∧ t.inHandler = false ∧
      t.takeTrap vec resume tr = ⟨t.enter tr.cause tr.val resume vec, none⟩) ∨
    ((t.probing && tr.isDecode) = false ∧ t.inHandler = true ∧ t.takeTrap vec resume tr = ⟨t, some (.contain tr resume)⟩) := by
  unfold Thread.takeTrap
  cases t.probing <;> cases tr.isDecode <;> cases t.inHandler <;> simp

/-- All that a lane of an ordinary word can come to: it traps on its operands, in the body, or on a poisoned register, or the body
gives its thread, which goes on. A poisoned register comes before the traps of the result alone (R365). -/
theorem lane_cases (d : Option Operand) (a b c : Option SrcSpec) (f : Got → Except Raise Thread) (e : Env) (l : Nat) (t : Thread) :
    (∃ tr, collect e l t d a b c = .error tr ∧ lane d a b c f e l t = trapLane e t tr) ∨
    (∃ r, collect e l t d a b c = .ok r ∧
      ((r.poisoned = true ∧ lane d a b c f e l t = trapLane e t poisonTrap) ∨
       (∃ tr fl, f r = .error (tr, fl) ∧ (r.poisoned && tr.isResult) = false ∧
          lane d a b c f e l t = trapLane e { t with astat := t.astat ||| fl } tr) ∨
       (r.poisoned = false ∧ ∃ u, f r = .ok u ∧ lane d a b c f e l t = ⟨u.advance, none⟩))) := by
  unfold lane
  cases hc : collect e l t d a b c with
  | error tr => exact .inl ⟨tr, rfl, rfl⟩
  | ok r =>
    refine .inr ⟨r, rfl, ?_⟩
    cases hf : f r with
    | error x =>
      obtain ⟨tr, fl⟩ := x
      cases hp : (r.poisoned && tr.isResult) with
      | true => exact .inl ⟨((Bool.and_eq_true _ _).mp hp).1, by simp [hf, hp]⟩
      | false => exact .inr (.inl ⟨tr, fl, rfl, hp, by simp [hf, hp]⟩)
    | ok u =>
      cases hp : r.poisoned with
      | true => exact .inl ⟨rfl, by simp [hf, hp]⟩
      | false => exact .inr (.inr ⟨rfl, u, rfl, by simp [hf, hp]⟩)

theorem lane_ok {d : Option Operand} {a b c : Option SrcSpec} {f : Got → Except Raise Thread} {e : Env} {l : Nat} {t : Thread}
    {r : Got} {u : Thread} (hc : collect e l t d a b c = .ok r) (hp : r.poisoned = false) (hf : f r = .ok u) :
    lane d a b c f e l t = ⟨u.advance, none⟩ := by
  simp [lane, hc, hp, hf]

/-! ## A word whose lanes reach outside their threads -/

/-- What holds before such a word and is kept by each lane's body and by a thread's update holds after it. -/
theorem State.foldLanes_keeps {P : State → Prop} {s : State} {i : Issue} {g : Guard} {body : StateLane} (h0 : P s)
    (hb : ∀ e l t s, P s → P (body e l t s)) (ht : ∀ (s : State) n t, P s → P (s.setThread n t)) : P (s.foldLanes i g body) := by
  unfold State.foldLanes
  split
  · exact h0
  · rename_i e he
    clear he
    generalize i.lanes = ls
    induction ls generalizing s with
    | nil => exact h0
    | cons l ls ih =>
      rw [List.foldl_cons]
      apply ih
      split
      · exact h0
      · split
        · exact hb _ _ _ _ h0
        · exact ht _ _ _ h0

/-- A trap of one lane touches its thread, and in handler mode its block and the agenda. -/
@[simp] theorem State.putLane_mem (s : State) (t : Nat) (o : LaneOut) : (s.putLane t o).mem = s.mem := by
  unfold State.putLane
  simp only
  split
  · simp
  · simp
  · split <;> simp
@[simp] theorem State.putLane_cores (s : State) (t : Nat) (o : LaneOut) : (s.putLane t o).cores = s.cores := by
  unfold State.putLane
  simp only
  split
  · simp
  · simp
  · split <;> simp
@[simp] theorem State.trapAt_mem (s : State) (e : Env) (l : Nat) (t : Thread) (tr : Trap) : (s.trapAt e l t tr).mem = s.mem := by
  simp [State.trapAt]
@[simp] theorem State.complete_mem (s : State) (e : Env) (l : Nat) (t : Thread) : (s.complete e l t).mem = s.mem := by
  simp [State.complete]
@[simp] theorem State.waitAt_mem (s : State) (e : Env) (l : Nat) (t : Thread) (w : Wait) : (s.waitAt e l t w).mem = s.mem := by
  simp [State.waitAt]

/-! ## Predicates (R113, R130, R171) -/

@[simp] theorem Thread.pred_zero (t : Thread) : t.pred 0 = true := by simp [Thread.pred]
@[simp] theorem Thread.setP_zero (t : Thread) (b : Bool) : t.setP 0 b = t := by simp [Thread.setP]

theorem Thread.pred_setP (t : Thread) (n m : Fin 8) (b : Bool) :
    (t.setP n b).pred m = if m = n ∧ n ≠ 0 then b else t.pred m := by
  unfold Thread.setP Thread.pred
  by_cases hn : n = 0
  · simp [hn]
  · simp only [if_neg hn]
    have h8 := m.isLt
    by_cases hm : m = n
    · subst hm
      cases b <;> simp [hn]
    · have hv : m.val ≠ n.val := fun h => hm (Fin.ext h)
      by_cases hlt : m.val < n.val
      · cases b <;> simp [hm, hlt]
      · have h0 : m.val - n.val ≠ 0 := by omega
        cases b <;> simp [hm, hlt, h0]

end Sys2Proof.Machine
end

