-- ==== Sys2Proof/Laws/Memory.lean ====
section
/-!
SUPPORT. Sparse tables and memory: reading what was written, leaving the rest alone, and the canonical form that every memory operation
keeps.
-/
namespace Sys2Proof

variable {α : Type}

/-! ## Tables -/

@[simp] theorem Table.find_nil (n : Nat) : Table.find ([] : Table α) n = none := rfl

theorem Table.find_set (t : Table α) (n m : Nat) (v : α) :
    Table.find (Table.set t n v) m = if m = n then some v else Table.find t m := by
  induction t with
  | nil =>
    by_cases h : n = m <;> simp [Table.set, Table.find, h, eq_comm]
  | cons p t ih =>
    obtain ⟨k, w⟩ := p
    unfold Table.set
    split
    · by_cases h : n = m
      · simp [Table.find, h]
      · simp [Table.find, h, Ne.symm h]
    · split
      · rename_i h1 h2
        subst h2
        by_cases h : n = m
        · simp [Table.find, h]
        · simp [Table.find, h, Ne.symm h]
      · rename_i h1 h2
        by_cases h : k = m
        · subst h
          simp [Table.find, Ne.symm h2]
        · simp [Table.find, h, ih]

@[simp] theorem Table.find_set_same (t : Table α) (n : Nat) (v : α) : Table.find (Table.set t n v) n = some v := by
  simp [Table.find_set]

theorem Table.find_set_other (t : Table α) {n m : Nat} (v : α) (h : m ≠ n) :
    Table.find (Table.set t n v) m = Table.find t m := by
  simp [Table.find_set, h]

@[simp] theorem Table.getD_set_same (t : Table α) (n : Nat) (v d : α) : Table.getD (Table.set t n v) n d = v := by
  simp [Table.getD]

theorem Table.getD_set_other (t : Table α) {n m : Nat} (v d : α) (h : m ≠ n) :
    Table.getD (Table.set t n v) m d = Table.getD t m d := by
  simp [Table.getD, Table.find_set, h]

/-- Every key of a table is above a number. -/
def Table.above (n : Nat) (t : Table α) : Prop := ∀ p ∈ t, n < p.1

theorem Table.sorted_cons (k : Nat) (v : α) (t : Table α) :
    Table.sorted ((k, v) :: t) = true ↔ Table.above k t ∧ Table.sorted t = true := by
  induction t generalizing k v with
  | nil => simp [Table.sorted, Table.above]
  | cons p t ih =>
    obtain ⟨l, w⟩ := p
    simp only [Table.sorted, Bool.and_eq_true, decide_eq_true_eq]
    constructor
    · rintro ⟨h, hs⟩
      refine ⟨?_, hs⟩
      intro q hq
      rcases List.mem_cons.mp hq with rfl | hq
      · exact h
      · exact Nat.lt_trans h ((ih l w).mp hs |>.1 q hq)
    · rintro ⟨h, hs⟩
      exact ⟨h (l, w) (by simp), hs⟩

theorem Table.above_set {n k : Nat} {v : α} {t : Table α} (ht : Table.above n t) (h : n < k) :
    Table.above n (Table.set t k v) := by
  induction t with
  | nil => intro p hp; simp [Table.set] at hp; subst hp; exact h
  | cons p t ih =>
    obtain ⟨l, w⟩ := p
    unfold Table.set
    have hl : n < l := ht (l, w) (by simp)
    have ht' : Table.above n t := fun q hq => ht q (List.mem_cons_of_mem _ hq)
    split
    · intro q hq
      rcases List.mem_cons.mp hq with rfl | hq
      · exact h
      · exact ht q hq
    · split
      · intro q hq
        rcases List.mem_cons.mp hq with rfl | hq
        · exact h
        · exact ht' q hq
      · intro q hq
        rcases List.mem_cons.mp hq with rfl | hq
        · exact hl
        · exact ih ht' q hq

theorem Table.sorted_set (t : Table α) (n : Nat) (v : α) (h : Table.sorted t = true) : Table.sorted (Table.set t n v) = true := by
  induction t with
  | nil => rfl
  | cons p t ih =>
    obtain ⟨k, w⟩ := p
    have hk := (Table.sorted_cons k w t).mp h
    unfold Table.set
    split
    · rename_i hlt
      refine (Table.sorted_cons _ _ _).mpr ⟨?_, h⟩
      intro q hq
      rcases List.mem_cons.mp hq with rfl | hq
      · exact hlt
      · exact Nat.lt_trans hlt (hk.1 q hq)
    · split
      · rename_i _ he
        subst he
        exact (Table.sorted_cons _ _ _).mpr hk
      · rename_i h1 h2
        exact (Table.sorted_cons _ _ _).mpr ⟨Table.above_set hk.1 (by omega), ih hk.2⟩

theorem Table.mem_erase {t : Table α} {n : Nat} {p : Nat × α} (h : p ∈ Table.erase t n) : p ∈ t := by
  induction t with
  | nil => exact h
  | cons q t ih =>
    obtain ⟨k, w⟩ := q
    unfold Table.erase at h
    split at h
    · exact List.mem_cons_of_mem _ h
    · rcases List.mem_cons.mp h with rfl | h
      · simp
      · exact List.mem_cons_of_mem _ (ih h)

theorem Table.sorted_erase (t : Table α) (n : Nat) (h : Table.sorted t = true) : Table.sorted (Table.erase t n) = true := by
  induction t with
  | nil => rfl
  | cons p t ih =>
    obtain ⟨k, w⟩ := p
    have hk := (Table.sorted_cons k w t).mp h
    unfold Table.erase
    split
    · exact hk.2
    · exact (Table.sorted_cons _ _ _).mpr ⟨fun q hq => hk.1 q (Table.mem_erase hq), ih hk.2⟩

theorem Table.find_above {n : Nat} {t : Table α} (h : Table.above n t) : Table.find t n = none := by
  induction t with
  | nil => rfl
  | cons p t ih =>
    obtain ⟨k, w⟩ := p
    have : n < k := h (k, w) (by simp)
    simp [Table.find, Nat.ne_of_gt this, ih (fun q hq => h q (List.mem_cons_of_mem _ hq))]

theorem Table.find_erase (t : Table α) (n m : Nat) (h : Table.sorted t = true) :
    Table.find (Table.erase t n) m = if m = n then none else Table.find t m := by
  induction t with
  | nil => simp [Table.erase]
  | cons p t ih =>
    obtain ⟨k, w⟩ := p
    have hk := (Table.sorted_cons k w t).mp h
    unfold Table.erase
    split
    · rename_i he
      subst he
      by_cases hm : m = k
      · subst hm; simp [Table.find_above hk.1]
      · simp [Table.find, hm, Ne.symm hm]
    · rename_i he
      by_cases hm : k = m
      · subst hm; simp [Table.find, he]
      · simp [Table.find, hm, ih hk.2]

end Sys2Proof

namespace Sys2Proof.Machine

/-! ## The canonical form of memory -/

theorem Memory.mem_set {m : Memory} {a : Nat} {b : Byte} {p : Nat × Byte} (h : p ∈ Table.set m a b) : p = (a, b) ∨ p ∈ m := by
  induction m with
  | nil => simpa [Table.set] using h
  | cons q m ih =>
    obtain ⟨k, w⟩ := q
    unfold Table.set at h
    split at h
    · simpa using h
    · split at h
      · rcases List.mem_cons.mp h with h | h
        · exact .inl h
        · exact .inr (List.mem_cons_of_mem _ h)
      · rcases List.mem_cons.mp h with h | h
        · exact .inr (h ▸ List.mem_cons_self ..)
        · exact (ih h).imp id (List.mem_cons_of_mem _)

theorem Memory.wf_iff (m : Memory) : Memory.wf m = true ↔ Table.sorted m = true ∧ ∀ p ∈ m, p.2 ≠ 0 := by
  simp [Memory.wf]

@[simp] theorem Memory.wf_nil : Memory.wf [] = true := rfl

theorem Memory.wf_putByte (m : Memory) (a : Nat) (b : Byte) (h : Memory.wf m = true) : Memory.wf (Memory.putByte m a b) = true := by
  rw [Memory.wf_iff] at h ⊢
  unfold Memory.putByte Table.put
  split
  · exact ⟨Table.sorted_erase m a h.1, fun p hp => h.2 p (Table.mem_erase hp)⟩
  · rename_i hb
    refine ⟨Table.sorted_set m a b h.1, fun p hp => ?_⟩
    rcases Memory.mem_set hp with rfl | hp
    · exact hb
    · exact h.2 p hp

theorem Memory.wf_write (m : Memory) (a n v : Nat) (h : Memory.wf m = true) : Memory.wf (Memory.write m a n v) = true := by
  induction n generalizing m a v with
  | zero => exact h
  | succ n ih => exact ih _ _ _ (Memory.wf_putByte m a _ h)

theorem Memory.wf_putLine (m : Memory) (l : Nat) (d : LineData) (h : Memory.wf m = true) : Memory.wf (Memory.putLine m l d) = true :=
  Memory.wf_write m _ _ _ h

theorem Memory.wf_writeDesc (m : Memory) (a : Nat) (d : Desc) (h : Memory.wf m = true) : Memory.wf (writeDesc m a d) = true := by
  unfold writeDesc
  repeat apply Memory.wf_write
  exact h

theorem Memory.wf_writeMasked (m : Memory) (line : Nat) (d : LineData) (mask : BitVec 128) (h : Memory.wf m = true) :
    Memory.wf (Memory.writeMasked m line d mask) = true := by
  unfold Memory.writeMasked
  generalize List.range 128 = l
  induction l generalizing m with
  | nil => exact h
  | cons i l ih =>
    refine ih _ ?_
    show Memory.wf (if mask.getLsbD i then _ else _) = true
    split
    · exact Memory.wf_putByte m _ _ h
    · exact h

theorem Table.sorted_filter (t : Table α) (f : Nat × α → Bool) (h : Table.sorted t = true) : Table.sorted (t.filter f) = true := by
  induction t with
  | nil => rfl
  | cons p t ih =>
    obtain ⟨k, w⟩ := p
    have hk := (Table.sorted_cons k w t).mp h
    rw [List.filter_cons]
    split
    · exact (Table.sorted_cons _ _ _).mpr ⟨fun q hq => hk.1 q ((List.mem_filter.mp hq).1), ih hk.2⟩
    · exact ih hk.2

theorem Memory.wf_clear (m : Memory) (a n : Nat) (h : Memory.wf m = true) : Memory.wf (Memory.clear m a n) = true := by
  rw [Memory.wf_iff] at h ⊢
  exact ⟨Table.sorted_filter m _ h.1, fun p hp => h.2 p ((List.mem_filter.mp hp).1)⟩

/-- Reset memory is canonical: it lists nothing. -/
theorem State.reset_mem_wf : Memory.wf State.reset.mem = true := rfl

/-! ## Bytes -/

theorem Memory.byte_putByte (m : Memory) (a b : Nat) (v : Byte) (h : Memory.wf m = true) :
    Memory.byte (Memory.putByte m a v) b = if b = a then v else Memory.byte m b := by
  have hs := ((Memory.wf_iff m).mp h).1
  unfold Memory.byte Memory.putByte Table.put Table.getD
  split
  · rename_i hv
    rw [Table.find_erase m a b hs]
    by_cases hb : b = a <;> simp [hb, hv]
  · rw [Table.find_set]
    by_cases hb : b = a <;> simp [hb]

/-- Byte k of a number. -/
theorem Memory.byte_write (m : Memory) (a n v b : Nat) (h : Memory.wf m = true) :
    Memory.byte (Memory.write m a n v) b =
      if a ≤ b ∧ b < a + n then BitVec.ofNat 8 (v / 256 ^ (b - a)) else Memory.byte m b := by
  induction n generalizing m a v with
  | zero =>
    rw [Memory.write]
    split
    · omega
    · rfl
  | succ n ih =>
    rw [Memory.write, ih _ _ _ (Memory.wf_putByte m a _ h), Memory.byte_putByte _ _ _ _ h]
    by_cases h1 : a + 1 ≤ b ∧ b < a + 1 + n
    · rw [if_pos h1, if_pos (by omega)]
      have : b - a = (b - (a + 1)) + 1 := by omega
      rw [this, Nat.pow_succ, Nat.mul_comm, ← Nat.div_div_eq_div_mul]
    · rw [if_neg h1]
      by_cases h2 : b = a
      · subst h2
        rw [if_pos rfl, if_pos (by omega)]
        simp
      · rw [if_neg h2, if_neg (by omega)]

theorem Memory.byte_write_other (m : Memory) (a n v b : Nat) (h : Memory.wf m = true) (hb : b < a ∨ a + n ≤ b) :
    Memory.byte (Memory.write m a n v) b = Memory.byte m b := by
  rw [Memory.byte_write m a n v b h, if_neg (by omega)]

theorem Memory.read_congr {m m' : Memory} {a n : Nat} (h : ∀ b, a ≤ b → b < a + n → Memory.byte m b = Memory.byte m' b) :
    Memory.read m a n = Memory.read m' a n := by
  induction n generalizing a with
  | zero => rfl
  | succ n ih =>
    rw [Memory.read, Memory.read, h a (Nat.le_refl a) (by omega), ih (fun b h1 h2 => h b (by omega) (by omega))]

/-- A read of what was written gives it, to the width written (R3). -/
theorem Memory.read_write_same (m : Memory) (a n v : Nat) (h : Memory.wf m = true) :
    Memory.read (Memory.write m a n v) a n = v % 256 ^ n := by
  induction n generalizing m a v with
  | zero => simp [Memory.read, Nat.mod_one]
  | succ n ih =>
    rw [Memory.read, Memory.write, ih _ _ _ (Memory.wf_putByte m a _ h),
      Memory.byte_write_other _ _ _ _ _ (Memory.wf_putByte m a _ h) (by omega), Memory.byte_putByte _ _ _ _ h, if_pos rfl,
      Nat.pow_succ, Nat.mul_comm (256 ^ n), Nat.mod_mul]
    simp [BitVec.toNat_ofNat]

theorem Memory.read_write_other (m : Memory) (a n v b k : Nat) (h : Memory.wf m = true) (hd : b + k ≤ a ∨ a + n ≤ b) :
    Memory.read (Memory.write m a n v) b k = Memory.read m b k :=
  Memory.read_congr (fun c h1 h2 => Memory.byte_write_other m a n v c h (by omega))

end Sys2Proof.Machine
end

