-- ==== Sys2Proof/Laws/Operands.lean ====
section
/-!
SUPPORT. What collecting the operands of a word can do to a thread: pops, cursor steps and releases, and nothing else.
-/
namespace Sys2Proof.Machine

/-- Two threads that differ in their registers, index registers and queues at most. -/
def Thread.sameStatus (t u : Thread) : Prop :=
  u = { t with v := u.v, x := u.x, q := u.q, poisoned := u.poisoned }

theorem Thread.sameStatus_refl (t : Thread) : t.sameStatus t := rfl

theorem Thread.sameStatus_trans {t u w : Thread} (h : t.sameStatus u) (k : u.sameStatus w) : t.sameStatus w := by
  unfold Thread.sameStatus at *
  rw [h] at k
  exact k

theorem Thread.sameStatus_bump (t : Thread) (n : Nat) : t.sameStatus (t.bump n) := rfl
theorem Thread.sameStatus_freeV (t : Thread) (n : Nat) : t.sameStatus (t.freeV n) := rfl
theorem Thread.sameStatus_setV (t : Thread) (n : Nat) (w : Word) : t.sameStatus (t.setV n w) := rfl
theorem Thread.sameStatus_put (t : Thread) (d : Dest) (w : Word) : t.sameStatus (t.put d w) := by cases d <;> rfl

theorem Thread.sameStatus_foldl {f : Thread → Nat → Thread} (hf : ∀ t n, Thread.sameStatus t (f t n)) (l : List Nat) (t : Thread) :
    t.sameStatus (l.foldl f t) := by
  induction l generalizing t with
  | nil => rfl
  | cons n l ih => exact Thread.sameStatus_trans (hf t n) (ih (f t n))

/-- A source pops its queue at most. -/
theorem readSrc_same {e : Env} {l : Nat} {t0 t u : Thread} {s : SrcSpec} {w : Word} {b : Bool} (h : readSrc e l t0 t s = .ok (w, u, b)) :
    t.sameStatus u := by
  unfold readSrc at h
  split at h
  case h_4 =>
    simp only at h
    split at h
    · cases h
    · cases h; rfl
  all_goals (cases h; rfl)

theorem readOpt_same {e : Env} {l : Nat} {t0 t u : Thread} {s : Option SrcSpec} {w : Word} {b : Bool}
    (h : readOpt e l t0 t s = .ok (w, u, b)) : t.sameStatus u := by
  cases s with
  | none => cases h; rfl
  | some s => exact readSrc_same h

/-- Collection changes registers, index registers and queues at most. -/
theorem collect_same {e : Env} {l : Nat} {t : Thread} {d : Option Operand} {a b c : Option SrcSpec} {r : Got}
    (h : collect e l t d a b c = .ok r) : t.sameStatus r.t := by
  unfold collect at h
  simp only at h
  split at h
  · cases h
  · split at h
    · cases h
    · rename_i ha
      split at h
      · cases h
      · rename_i hb
        split at h
        · cases h
        · rename_i hc
          split at h
          · cases h
          · cases h
            exact Thread.sameStatus_trans
              (Thread.sameStatus_trans (readOpt_same ha) (Thread.sameStatus_trans (readOpt_same hb) (readOpt_same hc)))
              (Thread.sameStatus_trans (Thread.sameStatus_foldl Thread.sameStatus_bump _ _)
                (Thread.sameStatus_foldl Thread.sameStatus_freeV _ _))

theorem collect_astat {e : Env} {l : Nat} {t : Thread} {d : Option Operand} {a b c : Option SrcSpec} {r : Got}
    (h : collect e l t d a b c = .ok r) : r.t.astat = t.astat := by
  have := collect_same h
  rw [this]
theorem collect_p {e : Env} {l : Nat} {t : Thread} {d : Option Operand} {a b c : Option SrcSpec} {r : Got}
    (h : collect e l t d a b c = .ok r) : r.t.p = t.p := by
  have := collect_same h
  rw [this]
theorem collect_pc {e : Env} {l : Nat} {t : Thread} {d : Option Operand} {a b c : Option SrcSpec} {r : Got}
    (h : collect e l t d a b c = .ok r) : r.t.pc = t.pc := by
  have := collect_same h
  rw [this]
theorem collect_status {e : Env} {l : Nat} {t : Thread} {d : Option Operand} {a b c : Option SrcSpec} {r : Got}
    (h : collect e l t d a b c = .ok r) : r.t.status = t.status := by
  have := collect_same h
  rw [this]
theorem collect_tmode {e : Env} {l : Nat} {t : Thread} {d : Option Operand} {a b c : Option SrcSpec} {r : Got}
    (h : collect e l t d a b c = .ok r) : r.t.tmode = t.tmode := by
  have := collect_same h
  rw [this]
theorem collect_region {e : Env} {l : Nat} {t : Thread} {d : Option Operand} {a b c : Option SrcSpec} {r : Got}
    (h : collect e l t d a b c = .ok r) : r.t.region = t.region := by
  have := collect_same h
  rw [this]

/-- A word with no operands collects nothing and always can. -/
@[simp] theorem collect_nothing (e : Env) (l : Nat) (t : Thread) :
    collect e l t none none none none = .ok ⟨0, 0, 0, t, .none, false⟩ := rfl

end Sys2Proof.Machine
end

