-- ==== Sys2Proof/Laws/Shapes.lean ====
section
/-!
SUPPORT. How the shared shapes complete: from what a lane comes to, to the next state of the whole word.
-/
namespace Sys2Proof.Claims

open Sys2Proof.Machine

/-- The lanes of a group, each replaced where it was issued, when every issued lane comes to the thread given. -/
theorem mapLanes_eq {e : Env} {lanes : List Nat} {g : Guard} {f : LaneFn} {new : Nat → Thread → Thread}
    (h : ∀ p ∈ e.g.threads, p.1 ∈ lanes → p.2.selected g = true → f e p.1 p.2 = ⟨new p.1 p.2, none⟩) :
    e.g.mapLanes lanes (runLane g f e) = lanesAfter e lanes g new := by
  unfold Group.mapLanes lanesAfter
  congr 1
  apply List.map_congr_left
  intro p hp
  by_cases hl : p.1 ∈ lanes
  · cases hs : p.2.selected g with
    | true => simp [hl, runLane_run hs, h p hp hl hs]
    | false => simp [hl, runLane_skip hs]
  · simp [hl]

/-- A word over lanes completes when its meaning is `lanewise` and every selected lane comes to the thread given. -/
theorem lanewise_completes {s : State} {i : Issue} {rest : List Issue} {e : Env} {g : Guard} {f : LaneFn}
    {new : Nat → Thread → Thread} (hi : s.issue = i :: rest) (he : s.env? i = some e)
    (h : ∀ p ∈ e.g.threads, p.1 ∈ i.lanes → p.2.selected g = true → f e p.1 p.2 = ⟨new p.1 p.2, none⟩) :
    lanewise g f s = .next (s.setGroup i.group (lanesAfter e i.lanes g new)) := by
  unfold lanewise
  rw [issued_cons hi, State.runLanes_plain he, mapLanes_eq h]
  intro p hp hl
  cases hs : p.2.selected g with
  | true => rw [runLane_run hs, h p hp hl hs]
  | false => rw [runLane_skip hs]

/-- The shape of most words: collect, compute, write, go on. -/
theorem lanesComplete_of_lane {ins : Instr} {g : Guard} {d : Option Operand} {a b c : Option SrcSpec}
    {ok : Env → Nat → Thread → Got → Prop} {new : Env → Nat → Thread → Got → Thread} {f : Env → Nat → Thread → Got → Except Raise Thread}
    (hm : ∀ s, exec ins s = lanewise g (fun e l t => lane d a b c (f e l t) e l t) s)
    (hf : ∀ e l t r, collect e l t d a b c = .ok r → ok e l t r → ∃ u, f e l t r = .ok u ∧ u.advance = new e l t r) :
    LanesComplete ins g d a b c ok new := by
  intro s i rest e got hi he hc
  rw [hm s]
  apply lanewise_completes hi he
  intro p hp hl hs
  obtain ⟨h1, h2, h3⟩ := hc p hp hl hs
  obtain ⟨u, hu, hv⟩ := hf e p.1 p.2 (got p.1) h1 h3
  rw [lane_ok h1 h2 hu, hv]

/-! ## The arithmetic of sub-elements in both spellings -/

theorem elemN_eq (w : Nat) (a : Word) (i : Nat) : elemN w a i = sub a w i := by
  simp [elemN, sub, Nat.shiftRight_eq_div_pow]

theorem elemI_eq (t : IType) (a : Word) (i : Nat) : elemI t a i = subI t a i := by
  unfold elemI subI toSigned
  rw [elemN_eq]
  cases t.signed <;> by_cases h : sub a t.width i < 2 ^ (t.width - 1)
  · simp
  · simp
  · simp [h, Nat.not_le.mpr h]
  · simp [h, Nat.not_lt.mp h]

theorem stored_eq (t : IType) (sat : Bool) (r : Int) : stored t sat r = wrapI t sat r := by
  cases sat with
  | false => simp [stored, wrapI]
  | true =>
    unfold stored wrapI clampI leastI greatestI
    have h0 : (0 : Int) < 2 ^ t.width := by positivity
    have h1 : (0 : Int) < 2 ^ (t.width - 1) := by positivity
    cases t.signed <;> simp only [true_and, if_true, Bool.false_eq_true, if_false] <;> split
    all_goals (congr 2; omega)

theorem stored_lt (t : IType) (sat : Bool) (r : Int) : stored t sat r < 2 ^ t.width := by
  have h : (0 : Int) < 2 ^ t.width := by positivity
  have := Int.emod_lt_of_pos (if sat = true ∧ r < leastI t then leastI t else if sat = true ∧ greatestI t < r then greatestI t else r) h
  unfold stored
  have h2 := Int.emod_nonneg (if sat = true ∧ r < leastI t then leastI t else if sat = true ∧ greatestI t < r then greatestI t else r)
    (ne_of_gt h)
  zify
  rw [Int.toNat_of_nonneg h2]
  exact_mod_cast this

theorem packNat_eq (w : Nat) (f : Nat → Nat) (n k : Nat) (h : ∀ i, f i < 2 ^ w) :
    packNat w ((List.range' k n).map f) * 2 ^ (w * k) = ((List.range' k n).map (fun i => f i * 2 ^ (w * i))).sum := by
  induction n generalizing k with
  | zero => simp [packNat]
  | succ n ih =>
    rw [List.range'_succ]
    simp only [List.map_cons, packNat, List.sum_cons]
    rw [← ih (k + 1), Nat.mod_eq_of_lt (h k)]
    ring

theorem assemble_eq (w : Nat) (f : Nat → Nat) (h : ∀ i, f i < 2 ^ w) : assemble w f = mapSub w f := by
  unfold assemble mapSub pack word subCount
  rw [List.range_eq_range', ← packNat_eq w f _ 0 h]
  simp

theorem intWord_eq (t : IType) (sat : Bool) (f : Nat → Int) : intWord t sat f = mapSub t.width (fun i => wrapI t sat (f i)) := by
  rw [intWord, assemble_eq _ _ (fun i => stored_lt t sat (f i))]
  simp only [stored_eq]

/-! ## Flags (R139, R140) -/

theorem enabled_toNat (a : Word) (f : Flags) : (enabledFlags a f).toNat = f.toNat &&& (a.toNat / 256) % 64 := by
  simp [enabledFlags, bits, Nat.shiftRight_eq_div_pow]

/-- No trap exactly where no raised flag is enabled. -/
theorem flagTrap_none (t : Thread) (f : Flags) (low : Nat) : flagTrap t.astat f low = none ↔ quiet t f.toNat := by
  unfold flagTrap quiet
  rw [← enabled_toNat]
  simp only
  constructor
  · intro h
    by_contra hc
    have : enabledFlags t.astat f ≠ 0 := fun h0 => hc (by rw [h0]; rfl)
    rw [if_neg this] at h
    split at h <;> cases h
  · intro h
    have : enabledFlags t.astat f = 0 := BitVec.eq_of_toNat_eq (by simpa using h)
    rw [if_pos this]

theorem setFlags_eq (t : Thread) (f : Flags) : t.setFlags f = flagged t f.toNat := rfl

/-- A word whose body ends in `finishFlags` completes where no raised flag is enabled. -/
theorem flagsComplete_of {ins : Instr} {g : Guard} {d : Operand} {a b c : Option SrcSpec} {f : Got → Word × Nat}
    {q : Got → Word × Flags} (hm : ∀ s, exec ins s = lanewise g (lane (some d) a b c (fun r => finishFlags r.t r.d (q r).1 (q r).2)) s)
    (h : ∀ r, (q r).1 = (f r).1 ∧ (q r).2.toNat = (f r).2) : FlagsComplete ins g d a b c f := by
  refine lanesComplete_of_lane (f := fun _ _ _ r => finishFlags r.t r.d (q r).1 (q r).2) (fun s => hm s) ?_
  intro e l t r hc hq
  have hn : flagTrap r.t.astat (q r).2 0 = none := by
    rw [flagTrap_none]
    unfold quiet at *
    rw [collect_astat hc, (h r).2]
    exact hq
  refine ⟨(r.t.put r.d (q r).1).setFlags (q r).2, by simp only [finishFlags, hn], ?_⟩
  simp only [writesFlags, setFlags_eq, (h r).1, (h r).2]

end Sys2Proof.Claims
end

