-- ==== Sys2Proof/Tests/Slice0.lean ====
section
/-!
SUPPORT. Tests: terms that the encoding cannot hold are refused, words written out from the spec's encodings decode to their instructions,
single steps give the spec's worked results, and every statement's hypotheses are met together by a small state.
-/
open Sys2Proof Sys2Proof.Machine Sys2Proof.Claims
namespace Sys2Proof.Tests
-- One test after another: each is evaluated by the kernel, and many at once need many threads.
set_option Elab.async false

/-! ## Ill-formed terms (R117, R172 to R177, R184 and the entries' own ranges) -/

def v (n : Fin 128) : Src := ⟨.reg n, false⟩
def always : Guard := ⟨0, false⟩
def noPat : Pat := ⟨.ident, false⟩
def bin {τ : Type} (ty : τ) : Bin τ := ⟨always, noPat, ty, .reg 1, v 2, v 3⟩
def un {τ : Type} (ty : τ) : Un τ := ⟨always, noPat, ty, .reg 1, v 2⟩
def ter {τ : Type} (ty : τ) : Ter τ := ⟨always, noPat, ty, .reg 1, v 2, v 3, v 4⟩

/-- Destinations, last-read marks, patterns, types and ranges of the INT and FLT groups. -/
theorem test_wf_refuses_1 : ([.add { bin .u64 with d := .special .lane } false, .sub { bin .u64 with d := .const 0 } false,
    .mul { bin .u64 with a := ⟨.zero, true⟩ } false, .and { bin .u64 with b := ⟨.ind 0, true⟩ }, .mov { un .u64 with pat := ⟨.xor1, true⟩ },
    .or { bin .u64 with pat := ⟨.ident, true⟩ }, .xor { bin .u64 with a := ⟨.zero, false⟩, pat := ⟨.rot1, false⟩ },
    .lea { bin () with pat := ⟨.subrev, false⟩ } 0, .mad { ter .u64 with c := ⟨.queue 0, true⟩ } false, .cvti (un .u8) .i64 1 false,
    .free always 127 1, .fdiv (bin .f8) .rn, .fsqrt (un .f4) .rn, .fsin (un .f64) .rn, .fcvt (un .f64) .f64 1 .rn, .ftoi (un .i64) .f32 2 .rn,
    .itof (un .f64) .i32 2 .rn, .qbp (bin .f64) 8 0, .qbp (bin .f32) 1 0, .fdot4 (ter .f32) .rn, .idot4 (ter .i32) false,
    .shfl { bin .u64 with a := ⟨.zero, false⟩ }, .shfl { bin .u64 with pat := ⟨.rot1, false⟩ }, .bnmov always .ident (.reg 1) ⟨.zero, false⟩ 0,
    .kmac always noPat .f64 (v 2) (v 3)] : List Instr).all (fun i => !i.wf) = true := by decide +kernel

/-- Orders, scopes, types and ranges of the MEM, MTX and SYS groups. -/
theorem test_wf_refuses_2 : ([.ld always .ident .u64 .rel .core (.reg 1) (v 2), .ld always .ident .u64 .rlx .core (.reg 1) (v 2),
    .st always noPat .u64 .acq .core (v 2) (v 3), .lds always .ident .u32 true .plain (.reg 1) (v 2) 0,
    .sts always noPat .u64 true false (v 2) (v 127) 0, .ldp always .ident .rlx .group 1 (v 2) 3, .stp always noPat .rlx .group (v 2) 125 false 4,
    .ldp always .ident .acq (.lvl 2) 1 (v 2) 2, .atom always noPat (.int .u64) .fadd .rlx .group 1 (v 2) (v 3),
    .atom always noPat (.int .u16) .add .rlx .group 1 (v 2) (v 3), .red always noPat (.int .u64) .swap .rlx .group (v 2) (v 3),
    .fence always .rlx .core, .tsplit always noPat 127 (v 2) (v 3) 0, .edq always noPat .num (.reg 1) (v 2) (v 3),
    .coll always .ident (.reg 1) (v 2) 1, .engq always .ident false (.reg 1) (v 2) 0 1, .bar always 0, .arrv always (.reg 1) 0,
    .semw always noPat (.lvl 1) false (.reg 1) (v 2) (v 3), .spush always .ident 125 false false, .spop always 125 0,
    .mbld always .ident false (v 2) 1, .mma always 0 1, .mrd always .ident 125 0 (v 2), .mwr always noPat 0 125 false (v 2),
    .mdrain always noPat (.reg 1) 0 (v 2) 6 false 126 false 0 false false, .csrw always .ident (.reg 1) .tmode (v 2),
    .csrs always .ident (.reg 1) .lclock (v 2)] : List Instr).all (fun i => !i.wf) = true := by decide +kernel

/-- The pairing rules (R184): one bank for both destinations, four banks read, half 1 reading half 0's destination, a queue in half 1, a
narrow float in half 0. -/
theorem test_wf_refuses_pairs :
    let h := fun (d s : Fin 128) => (⟨.u64, .reg d, v s, .ident⟩ : Half IType)
    ([.addHalf (h 4 5) ⟨.mov, h 8 10⟩, .addHalf (h 4 5) ⟨.add, h 6 7⟩, .addHalf (h 4 5) ⟨.mov, h 9 4⟩,
      .addHalf (h 4 5) ⟨.mov, { h 9 10 with s := ⟨.queue 0, false⟩ }⟩, .movHalf { h 4 5 with d := .special .lane } ⟨.mov, h 9 10⟩,
      .faddHalf ⟨.f8, .reg 4, v 5, .ident⟩ ⟨.mov, h 9 10⟩] : List Instr).all (fun i => !i.wf) = true := by decide +kernel

/-! ## Words -/

/-- The number of the constructor that a word decodes to, in the order of Syntax.lean. -/
def ctorOf (w : BitVec 64) : Nat := match decodeWord 7 w with
  | .ok i => i.ctorIdx
  | .error _ => 999

/-- F-form words (R170, R186) of INT: ADD, SUB, MUL, MULHI, MAD, DIV, REM, MIN, MAX, ABS, NEG, AND, OR, XOR, ANDN, NOT, SHL, SHR, SAR, ROTL, CLZ, POPC. -/
theorem test_decode_int_1 : [
    0x0000020406000100, 0x0020020406000100, 0x0040020406000100, 0x0060020406000100, 0x0080020406080100, 0x00A0020406000100,
    0x00C0020406000100, 0x00E0020406000100, 0x0100020406000100, 0x0120020400000100, 0x0140020400000100, 0x0160020406000100,
    0x0180020406000100, 0x01A0020406000100, 0x01C0020406000100, 0x01E0020400000100, 0x0200020406000100, 0x0220020406000100,
    0x0240020406000100, 0x0260020406000100, 0x0280020400000100, 0x02A0020400000100].map ctorOf = List.range' 0 22 := by decide +kernel

/-- F-form words (R170, R186) of INT: BREV, BFX, BFI, SEL, MOV, CVTI, LEA, PTAG, PCHK, CMP, PAND, POR, PXOR, PNOT, PMOV, IXSET, IXCUR, IXGET, QCFG, QOCC, FREE. -/
theorem test_decode_int_2 : [
    0x02C0020400000100, 0x02E0020406000100, 0x0300020406080100, 0x0320020406080100, 0x0340020400000100, 0x0360020400080118,
    0x0380020406080000, 0x03A0020406000000, 0x03C0020406080000, 0x03E0020406020100, 0x0400020406000000, 0x0420020406000000,
    0x0440020406000000, 0x0460020400000000, 0x0480020400000000, 0x04A0020400000000, 0x04C0020400000000, 0x04E0020400000000,
    0x0500020000080000, 0x0520020400000000, 0x0540000400080000].map ctorOf = List.range' 22 21 := by decide +kernel

/-- F-form words (R170, R186) of FLT: FADD, FSUB, FMUL, FMA, FMIN, FMAX, FCMP, FDIV, FSQRT, FRCP, FRSQ, FEXP2, FLOG2, FSIN, FCOS, FTANH, FRND, FCLASS, FCVT, FTOI. -/
theorem test_decode_flt_1 : [
    0x1000020406000100, 0x1020020406000100, 0x1040020406000100, 0x1060020406080100, 0x1080020406000100, 0x10A0020406000100,
    0x10C0020406020100, 0x10E0020406000040, 0x1100020400000040, 0x1120020400000040, 0x1140020400000040, 0x1160020400000040,
    0x1180020400000040, 0x11A0020400000040, 0x11C0020400000040, 0x11E0020400000040, 0x1200020400000100, 0x1220020400000100,
    0x1240020400080120, 0x1260020400080120].map ctorOf = List.range' 43 20 := by decide +kernel

/-- F-form words (R170, R186) of FLT: ITOF, FSCALE, QBP, DQBP, FDOT4, IDOT4, SHFL, BNSET, BNMOV, VOTE, KCLR, KADD, KMAC, KRND, KSCAN, CKCLR, CKACC, CKCHK, RNG. -/
theorem test_decode_flt_2 : [
    0x1280020400080118, 0x12A0020406080100, 0x12C014080B000040, 0x12E0020407000100, 0x1300020406080100, 0x13200204060800C0,
    0x1340020406000100, 0x1360020400040000, 0x1380020400040000, 0x13A0020400000000, 0x13C0000000000000, 0x13E0000400000100,
    0x1400000406000100, 0x1420020000000100, 0x1440020400000100, 0x1460020000000000, 0x1480020400000100, 0x14A0000406000000,
    0x14C0020000000100].map ctorOf = List.range' 63 19 := by decide +kernel

/-- F-form words (R170, R186) of MEM: LD, ST, LDS, STS, LDP, STP, PREF, ATOM, RED, FENCE, FEOP, TDEF, TACQ, TREL, TSPLIT, TFREE, TQRY, EDQ, EDCOPY, PUB. -/
theorem test_decode_mem_1 : [
    0x2000020400000100, 0x2020000406000100, 0x2040020400080100, 0x2060000406080100, 0x2080020400080000, 0x20A0000406080000,
    0x20C0000400020000, 0x20E0020406080100, 0x2100000406080100, 0x2120000000000001, 0x2140000406000000, 0x2160020400000000,
    0x2180000400000000, 0x21A0020400000000, 0x21C0020406040000, 0x21E0000400000000, 0x2200020400000000, 0x2220020406000010,
    0x2240020400000000, 0x2260020400000002].map ctorOf = List.range' 82 20 := by decide +kernel

/-- F-form words (R170, R186) of MEM: ADOPT, RETRACT, RWAIT, CPY, CPYT, GATH, COLL, VCMD, ENGQ, FORK, RDV, BAR, ARRV, BWAIT, SEMW, SEMS, SPUSH, SPOP, JOIN, LAUNCH. -/
theorem test_decode_mem_2 : [
    0x2280000000000000, 0x22A0020400000000, 0x22C0020400000000, 0x22E0020406080000, 0x2300020406000000, 0x2320020406080000,
    0x2340020400080000, 0x2360020400080000, 0x2380020400040000, 0x23A0000406080000, 0x23C0020000000000, 0x23E0000000080000,
    0x2400020000080000, 0x2420000400080000, 0x2440020406020001, 0x2460000406000002, 0x2480000400020000, 0x24A0020000040000,
    0x24C0023C0002001B, 0x24E0020406000000].map ctorOf = List.range' 102 20 := by decide +kernel

/-- F-form words (R170, R186) of MTX: MBLD, MBSWP, MARB, MMA, MZERO, MRD, MWR, MDRAIN. -/
theorem test_decode_mtx : [
    0x3000000400080000, 0x3020000000000000, 0x3040000406080000, 0x3060020000080000, 0x3080020400080000, 0x30A0020006000000,
    0x30C0020406000000, 0x30E0020406080000].map ctorOf = List.range' 122 8 := by decide +kernel

/-- F-form words (R170, R186) of SYS: CSRR, CSRW, CSRS, CSRC, SYSC, ERET. -/
theorem test_decode_sys : [
    0x3800020000000000, 0x3820020400000000, 0x3840020400000000, 0x3860020400000000, 0x3880000000000000, 0x38A0000000000000].map ctorOf = List.range' 130 6 := by decide +kernel

/-- I-form words (R178, R187): MOVI, MOVHI, ADDI, ANDI, ORI, XORI, CMPI, LDO, STO. -/
theorem test_decode_i_form : [
    0x8000100000000040, 0x8100102000000040, 0x8200102000000040, 0x8300102000000040, 0x8400102000000040, 0x8500102000000040,
    0x8600102000000040, 0x8700102000000040, 0x8800102000000040].map ctorOf = List.range' 136 9 := by decide +kernel

/-- B-form words (R180, R188) but CONV: BRA, BRX, CALL, CALLX, RTN, YIELD, TAIL, EXIT, TRAP, BPT, NOP. -/
theorem test_decode_b_form : [
    0xC000000000000008, 0xC080040000000000, 0xC100000200000008, 0xC180040200000000, 0xC200040000000000, 0xC300000000000000,
    0xC380000000000000, 0xC400000000000000, 0xC480000A00000000, 0xC500000A00000000, 0xC580000000000000].map ctorOf = List.range' 145 11 := by decide +kernel

/-- P-form words (R182, R189) by the operation of half 0, half 1 a MOV: ADD, SUB, MUL, AND, OR, XOR, ANDN, SHL, SHR, SAR, MIN, MAX, MOV, NEG, ABS, FADD, FSUB, FMUL, FMIN, FMAX. -/
theorem test_decode_p_form : [
    0x400202A00C090A40, 0x408202A00C090A40, 0x410202A00C090A40, 0x418202A00C090A40, 0x420202A00C090A40, 0x428202A00C090A40,
    0x430202A00C090A40, 0x438202A00C090A40, 0x440202A00C090A40, 0x448202A00C090A40, 0x450202A00C090A40, 0x458202A00C090A40,
    0x460202A00C090A40, 0x468202A00C090A40, 0x470202A00C090A40, 0x478202880C090A40, 0x480202880C090A40, 0x488202880C090A40,
    0x490202880C090A40, 0x498202880C090A40].map ctorOf = List.range' 156 20 := by decide +kernel

/-- CONV (R188). -/
theorem test_decode_conv : decodeWord 7 0xC280000000000000 = .ok .conv := by decide +kernel
/-! ## Small states -/

/-- A group with one thread, about to execute its word; the thread holds a few registers, an index register and a queue. -/
def someThread : Thread :=
  { Thread.start loadPc 0 with v := [(1, 0x1000), (2, 5), (3, 7), (4, 0x0040000000000100)], x := [(0, ⟨2, 2, 1, 1⟩)], q := [(0, ⟨2, [9]⟩)] }
def groupOf (th : Thread) : Group := { loadGroup with threads := [(0, th)] }
def issueOf : Issue := ⟨0, 0, loadPc, [0], 0, false⟩
def single (th : Thread) : State := { State.reset.loadWord 0 with groups := [(0, groupOf th)], issue := [issueOf] }
def envOf (th : Thread) : Env :=
  { core := 0, group := 0, clock := 0, cycle := 0, gid0 := 0, tvec := 0, svec := 0, word := 0, ctx := 1, g := groupOf th }
theorem single_env (th : Thread) : (single th).env? issueOf = some (envOf th) := rfl

/-- What a lane collects, and whether it does and meets no poisoned register. -/
def gotten (e : Env) (l : Nat) (th : Thread) (d : Option Operand) (a b c : Option SrcSpec) : Got :=
  match collect e l th d a b c with
  | .ok r => r
  | .error _ => ⟨0, 0, 0, th, .none, true⟩
def collects (e : Env) (l : Nat) (th : Thread) (d : Option Operand) (a b c : Option SrcSpec) : Bool :=
  match collect e l th d a b c with
  | .ok r => !r.poisoned
  | .error _ => false
theorem collects_spec {e l th d a b c} (h : collects e l th d a b c = true) :
    collect e l th d a b c = .ok (gotten e l th d a b c) ∧ (gotten e l th d a b c).poisoned = false := by
  unfold collects at h; unfold gotten
  split at h <;> simp_all

/-- The hypotheses of LanesComplete, met by a state. -/
def LanesMet (g : Guard) (d : Option Operand) (a b c : Option SrcSpec) (ok : Env → Nat → Thread → Got → Prop) (s : State) : Prop :=
  ∃ (i : Issue) (rest : List Issue) (e : Env) (got : Nat → Got), s.issue = i :: rest ∧ s.env? i = some e ∧
    ∀ p ∈ e.g.threads, p.1 ∈ i.lanes → p.2.selected g = true →
      collect e p.1 p.2 d a b c = .ok (got p.1) ∧ (got p.1).poisoned = false ∧ ok e p.1 p.2 (got p.1)
theorem lanesMet {th g d a b c ok} (h : collects (envOf th) 0 th d a b c = true) (hk : ok (envOf th) 0 th (gotten (envOf th) 0 th d a b c)) :
    LanesMet g d a b c ok (single th) := by
  refine ⟨issueOf, [], envOf th, fun _ => gotten (envOf th) 0 th d a b c, rfl, single_env th, ?_⟩
  intro p hp _ _
  have : p = (0, th) := by simpa [envOf, groupOf] using hp
  subst this
  exact ⟨(collects_spec h).1, (collects_spec h).2, hk⟩

/-- A full group, all of it at its word. -/
def full : State := State.reset.loadWord 0
def fullIssue : Issue := ⟨0, 0, loadPc, List.range 32, 0, false⟩
def fullEnv : Env :=
  { core := 0, group := 0, clock := 0, cycle := 0, gid0 := 0, tvec := 0, svec := 0, word := 0, ctx := 1, g := loadGroup }
theorem full_env : full.env? fullIssue = some fullEnv := rfl
theorem full_present : AllPresent fullEnv fullIssue always := by
  unfold AllPresent; constructor <;> decide +kernel
/-- The hypotheses of GroupCompletes and GroupReaches, met by the full group. -/
def GroupMet (d : Option Operand) (a b c : Option SrcSpec) (ok : State → Env → (Nat → Got) → Prop) : Prop :=
  ∃ (i : Issue) (rest : List Issue) (e : Env) (got : Nat → Got), full.issue = i :: rest ∧ i.slot < 32 ∧ full.env? i = some e ∧ AllPresent e i always ∧
    (∀ p ∈ e.g.threads, collect e p.1 p.2 d a b c = .ok (got p.1) ∧ (got p.1).poisoned = false) ∧ ok full e got
def fullGot (d : Option Operand) (a b c : Option SrcSpec) (l : Nat) : Got := gotten fullEnv l (Thread.start loadPc l) d a b c
theorem groupMet {d a b c ok} (h : (List.range 32).all (fun l => collects fullEnv l (Thread.start loadPc l) d a b c) = true)
    (hk : ok full fullEnv (fullGot d a b c)) : GroupMet d a b c ok := by
  refine ⟨fullIssue, [], fullEnv, fullGot d a b c, rfl, by decide, full_env, full_present, ?_, hk⟩
  intro p hp
  obtain ⟨l, hl, rfl⟩ : ∃ l, l ∈ List.range 32 ∧ (l, Thread.start loadPc l) = p := by
    simpa [fullEnv, loadGroup, Group.start] using hp
  exact collects_spec (List.all_eq_true.mp h l hl)

/-! ## The hypotheses of the statements are met -/

theorem witness_IntegerArithmetic : LanesMet always (some (.reg 1)) (srcA noPat (.int .u64) (v 2)) (srcB noPat (.int .u64) (v 3)) none noCondition (single someThread) ∧
    LanesMet always (some (.reg 1)) (srcA noPat (.int .u64) (v 2)) (srcB noPat (.int .u64) (v 9)) none
      (fun _ _ t r => divisionFlags .u64 r.a r.b = 0x20 ∧ t.astat.getLsbD 13 = true ∧ ¬inHandler t) (single { someThread with astat := 0x2000 }) :=
  ⟨lanesMet (by decide +kernel) trivial, lanesMet (by decide +kernel) (by unfold inHandler; decide +kernel)⟩
theorem witness_LogicAndShifts : LanesMet always (some (.reg 1)) (srcA noPat (.int .i8) (v 2)) (srcB noPat (.int .i8) (v 3)) (srcN (.int .i8) (v 4))
    noCondition (single someThread) := lanesMet (by decide +kernel) trivial
theorem witness_MovesAndAddresses : LanesMet always (some (.reg 1)) (srcA noPat .whole (v 4)) (srcB noPat .whole (v 3)) none noCondition (single someThread) :=
  lanesMet (by decide +kernel) trivial
theorem witness_ComparesAndImmediates : LanesMet always none (srcA noPat (.int .i32) (v 2)) (srcB noPat (.int .i32) (v 3)) none noCondition (single someThread) ∧
    (∀ (x : Got), (decide (elemI .u64 x.a 0 < elemI .u64 x.b 0)) = true ↔ combined true 64 (fun i => holds .lt (elemI .u64 x.a i) (elemI .u64 x.b i))) :=
  ⟨lanesMet (by decide +kernel) trivial, by intro x; simp [combined, holds]⟩
/-- Images at the ends of the bound's range, 1 and 128. -/
theorem witness_IndexQueueAndFree : LanesMet always none (srcP .ident .whole (v 2)) none none (fun _ _ _ r => goodImage r.a)
      (single { someThread with v := [(2, 0x10000)] }) ∧
    LanesMet always none (srcP .ident .whole (v 2)) none none (fun _ _ _ r => goodImage r.a) (single { someThread with v := [(2, 0x800000)] }) ∧
    LanesMet always none (srcP .ident .whole ⟨.indInc 0, false⟩) none none noCondition (single someThread) ∧
    LanesMet always (some (.reg 1)) none none none noCondition (single someThread) ∧ LanesMet always none none none none noCondition (single someThread) :=
  ⟨lanesMet (by decide +kernel) (by unfold goodImage; decide +kernel), lanesMet (by decide +kernel) (by unfold goodImage; decide +kernel),
    lanesMet (by decide +kernel) trivial, lanesMet (by decide +kernel) trivial, lanesMet (by decide +kernel) trivial⟩
/-- One, whose leading bit has weight 2^0, in every format. -/
theorem witness_RoundingIsCorrect : (1 : Nat) ≠ 0 ∧ (2 : ℚ) ^ (0 : Int) ≤ ((1 : Nat) : ℚ) * (2 : ℚ) ^ (0 : Int) ∧
    ((1 : Nat) : ℚ) * (2 : ℚ) ^ (0 : Int) < (2 : ℚ) ^ ((0 : Int) + 1) := by norm_num
theorem witness_InvalidOperations : isNan (.nan true) = true ∧ FV.inf false ≠ .nan true := by decide
theorem witness_FloatArithmetic : LanesMet always (some (.reg 1)) (srcA noPat (.flt .f32) (v 2)) (srcB noPat (.flt .f32) (v 3)) none
    (fun _ _ t r => quiet t ((fun (x : Got) => floatWord 32 (fun i => let y := addF .rn (valueAt .f32 x.a i) (valueAt .f32 x.b i)
      coded (finishF .f32 .rn y.1 y.2))) r).2) (single someThread) := lanesMet (by decide +kernel) (by simp [quiet, someThread, Thread.start])
theorem witness_SpecialFunctionInputs : isNarrow .f32 = false ∧ isNarrow .f64 = false := by decide
/-- One third: it has a bound that a precision settles, and is no dyadic fraction. -/
theorem witness_SpecialFunctionInputs_third : let f : Nat → Approx := fun p => ⟨(2 ^ p / 3 : Nat), 1⟩
    Encloses f 0 (1 / 3) ∧ Settles .f32 .rn f 0 ∧ ∀ k e : Int, (1 / 3 : ℝ) ≠ (k : ℝ) * (2 : ℝ) ^ e := by
  refine ⟨?_, ⟨128, by decide, by decide +kernel⟩, ?_⟩
  · intro p hp
    have h3 : ((2 ^ p / 3 : Nat) : ℝ) = ((2 : ℝ) ^ p - 1) / 3 := by
      have : 2 ^ p = 3 * (2 ^ p / 3) + 1 := by
        have : (2 ^ p) % 3 = 1 := by
          rcases (by simpa [precisions] using hp : p = 128 ∨ p = 256 ∨ p = 512 ∨ p = 1024) with rfl | rfl | rfl | rfl <;> decide +kernel
        omega
      have h := congrArg (fun n : Nat => (n : ℝ)) this
      push_cast at h; linarith
    have hz : (2 : ℝ) ^ ((p : Int) - 0) = (2 : ℝ) ^ p := by simp
    simp only [Int.cast_natCast, h3, hz]
    rw [show ((2 : ℝ) ^ p - 1) / 3 - 1 / 3 * 2 ^ p = -(1 / 3) by ring]
    norm_num [abs_of_pos]
  · intro k e h
    rcases Int.eq_nat_or_neg e with ⟨n, rfl | rfl⟩
    · have : (1 : ℝ) = ((3 * k * 2 ^ n : Int) : ℝ) := by push_cast; rw [zpow_natCast] at h; linarith
      have : (1 : Int) = 3 * k * 2 ^ n := by exact_mod_cast this
      have : (3 : Int) ∣ 1 := ⟨k * 2 ^ n, by linarith⟩
      omega
    · have hp : (0 : ℝ) < 2 ^ n := by positivity
      rw [zpow_neg, zpow_natCast] at h
      have : ((2 ^ n : Int) : ℝ) = ((3 * k : Int) : ℝ) := by push_cast; field_simp at h; linarith
      have h2 : (2 : Int) ^ n = 3 * k := by exact_mod_cast this
      have h3 : (3 : Int) ∣ 2 ^ n := ⟨k, h2⟩
      have := Int.prime_three.dvd_of_dvd_pow h3
      omega
/-- Arguments in every range: 3/2, which is no integer and no power of two, and the ends of the ranges of exponents. -/
theorem witness_SpecialFunctionInputs_ranges : (3 : Nat) < 2 ^ (fracBits .b16 + 1) ∧ -40 ≤ leadExp 3 (-1) ∧ leadExp 3 (-1) ≤ 5 ∧
    leadExp 1 (-41) < -40 ∧ -40 ≤ leadExp 1 (-40) ∧ 12 < leadExp 1 13 ∧ leadExp 1 12 ≤ 12 ∧ 5 < leadExp 1 6 ∧ leadExp 1 5 ≤ 5 := by decide
theorem witness_FloatSelection : LanesMet always (some (.reg 1)) (srcA noPat (.flt .f16) (v 2)) (srcB noPat (.flt .f16) (v 3)) none
    (fun _ _ t _ => quiet t 0x10) (single someThread) := lanesMet (by decide +kernel) (by simp [quiet, someThread, Thread.start])
theorem witness_Conversions : LanesMet always (some (.reg 1)) (srcA noPat (.flt .f4) (v 2)) (srcB noPat (.cell 8) (v 3)) (srcN (.flt .f32) (v 4))
    (fun _ _ t _ => quiet t 0x1F) (single someThread) := lanesMet (by decide +kernel) (by simp [quiet, someThread, Thread.start])
theorem witness_BranchesAndCalls : LanesMet always none (srcO .whole (.reg 1)) none none (fun _ _ _ r => r.a.toNat % 8 = 0) (single someThread) ∧
    LanesMet always none (srcO .whole (.reg 2)) none none (fun _ _ t r => r.a.toNat % 8 ≠ 0 ∧ ¬inHandler t) (single someThread) :=
  ⟨lanesMet (by decide +kernel) (by decide +kernel), lanesMet (by decide +kernel) (by unfold inHandler; decide +kernel)⟩
/-- The smaller and the larger of two elements as FMIN and FMAX choose them. -/
noncomputable def chosen (ty : FType) (nan : Bool) (min : Bool) (a b : Word) (i : Nat) : Nat × Nat :=
  let x := valueAt ty a i
  let y := valueAt ty b i
  let nv := if x = .nan true ∨ y = .nan true then 0x10 else 0
  open Classical in
  if isNan x = true ∧ isNan y = true then (nanCode ty, nv)
  else if isNan x = true then (if nan then nanCode ty else elemN ty.width b i, nv)
  else if isNan y = true then (if nan then nanCode ty else elemN ty.width a i, nv)
  else if precedes y x then (if min then elemN ty.width b i else elemN ty.width a i, 0)
  else (if min then elemN ty.width a i else elemN ty.width b i, 0)
/-- Functions as FMIN and FMAX need them, for every format and both NaN rules. -/
theorem witness_FloatSelection_functions (ty : FType) (nan : Bool) : ∃ min max : Word → Word → Word × Nat,
    ∀ a b, ∃ f g : Nat → Nat × Nat, min a b = floatWord ty.width f ∧ max a b = floatWord ty.width g ∧ ∀ i,
      let x := valueAt ty a i
      let y := valueAt ty b i
      let nv := if x = .nan true ∨ y = .nan true then 0x10 else 0
      (isNan x = true ∧ isNan y = true → f i = (nanCode ty, nv) ∧ g i = (nanCode ty, nv)) ∧
      (isNan x = true ∧ isNan y = false → f i = (if nan then nanCode ty else elemN ty.width b i, nv) ∧ g i = f i) ∧
      (isNan x = false ∧ isNan y = true → f i = (if nan then nanCode ty else elemN ty.width a i, nv) ∧ g i = f i) ∧
      (isNan x = false → isNan y = false → (precedes y x → f i = (elemN ty.width b i, 0) ∧ g i = (elemN ty.width a i, 0)) ∧
        (¬precedes y x → f i = (elemN ty.width a i, 0) ∧ g i = (elemN ty.width b i, 0))) := by
  refine ⟨fun a b => floatWord ty.width (chosen ty nan true a b), fun a b => floatWord ty.width (chosen ty nan false a b), fun a b =>
    ⟨chosen ty nan true a b, chosen ty nan false a b, rfl, rfl, fun i => ?_⟩⟩
  refine ⟨fun h => ?_, fun h => ?_, fun h => ?_, fun h k => ⟨fun p => ?_, fun p => ?_⟩⟩ <;> simp_all [chosen]

/-- Two halves that read before either writes. -/
theorem witness_PairWords : let h0 : Half IType := ⟨.u64, .reg 4, v 5, .ident⟩
    let h1 : Half IType := ⟨.u64, .reg 9, v 10, .ident⟩
    ∃ (i : Issue) (rest : List Issue) (e : Env) (x y : Nat → Got), (single someThread).issue = i :: rest ∧ (single someThread).env? i = some e ∧
      ∀ p ∈ e.g.threads, p.1 ∈ i.lanes →
        collect e p.1 p.2 (some h0.d) (halfA false (.int .u64) h0) (halfB false (.int .u64) h0) none = .ok (x p.1) ∧ (x p.1).poisoned = false ∧
        collect e p.1 p.2 (some h1.d) (halfA true (.int .u64) h1) (halfB true (.int .u64) h1) none = .ok (y p.1) ∧ (y p.1).poisoned = false ∧
        quiet p.2 0 := by
  intro h0 h1
  refine ⟨issueOf, [], envOf someThread, fun _ => gotten (envOf someThread) 0 someThread (some h0.d) (halfA false (.int .u64) h0) (halfB false (.int .u64) h0) none,
    fun _ => gotten (envOf someThread) 0 someThread (some h1.d) (halfA true (.int .u64) h1) (halfB true (.int .u64) h1) none, rfl, single_env _, ?_⟩
  intro p hp _
  have : p = (0, someThread) := by simpa [envOf, groupOf] using hp
  subst this
  have hx := collects_spec (e := envOf someThread) (l := 0) (th := someThread) (d := some h0.d) (a := halfA false (.int .u64) h0)
    (b := halfB false (.int .u64) h0) (c := none) (by decide +kernel)
  have hy := collects_spec (e := envOf someThread) (l := 0) (th := someThread) (d := some h1.d) (a := halfA true (.int .u64) h1)
    (b := halfB true (.int .u64) h1) (c := none) (by decide +kernel)
  exact ⟨hx.1, hx.2, hy.1, hy.2, by simp [quiet]⟩

def inHandlerThread : Thread := { someThread with tmode := 1, tepc := 0x1008 }
theorem witness_SoftwareTraps : LanesMet always none none none none (fun _ _ t _ => ¬inHandler t) (single someThread) ∧
    LanesMet always none none none none (fun _ _ t _ => inHandler t ∧ t.tepc.toNat % 8 = 0) (single inHandlerThread) ∧
    ((envOf inHandlerThread).g.threads.filter (fun p => decide (p.1 ∈ issueOf.lanes)) = [(0, inHandlerThread)] ∧ inHandlerThread.selected always = true ∧
      ∃ b, Table.find (single inHandlerThread).blocks (keyOf 1 0) = some b ∧ b.stopped = none) :=
  ⟨lanesMet (by decide +kernel) (by unfold inHandler; decide +kernel), lanesMet (by decide +kernel) (by unfold inHandler; decide +kernel),
    by decide +kernel, by decide +kernel, loadBlock, by decide +kernel, rfl⟩
/-- An enabled NX: 1 + 2^-24 in f32 does not fit. -/
theorem witness_SoftwareTraps_flags : LanesMet always (some (.reg 1)) (srcA noPat (.flt .f32) (v 2)) (srcB noPat (.flt .f32) (v 3)) none
    (fun _ _ t x => ¬quiet t (floatWord 32 (fun i => let y := addF .rn (valueAt .f32 x.a i) (valueAt .f32 x.b i)
      coded (finishF .f32 .rn y.1 y.2))).2 ∧ ¬inHandler t)
    (single { someThread with astat := 0x100, v := [(2, 0x3F800000), (3, 0x33800000)] }) :=
  lanesMet (by decide +kernel) (by unfold inHandler quiet; decide +kernel)
theorem witness_ControlRegisters : LanesMet always (some (.reg 1)) (srcP .ident .whole (v 2)) none none (fun _ _ t _ => mayWrite t .tsave) (single inHandlerThread) ∧
    LanesMet always none none none none (fun _ _ t _ => forbidden t .tvec ∧ ¬inHandler t) (single someThread) ∧
    LanesMet always none none none none (fun _ _ t _ => forbidden t .tepc ∧ ¬inHandler t) (single someThread) :=
  ⟨lanesMet (by decide +kernel) (by unfold mayWrite inHandler; decide +kernel), lanesMet (by decide +kernel) (by unfold forbidden inHandler; decide +kernel),
    lanesMet (by decide +kernel) (by unfold forbidden inHandler; decide +kernel)⟩
/-- A jump that the lead limit lets pass, and one that stays at its word; status registers as a thread starts with them. -/
theorem witness_ControlRegisters_jumps : (single someThread).leads 0 0 = true ∧ (single someThread).satPending 0 = false ∧
    ((single someThread).awaitLead 0 0x1FFF 16).leads 0 0x1FFF = false ∧ someThread.legal := by
  refine ⟨by decide +kernel, by decide +kernel, by decide +kernel, ?_⟩
  unfold Thread.legal; decide +kernel
theorem witness_WaitingAndRetiring : (single someThread).issue = [issueOf] ∧ (single someThread).env? issueOf = some (envOf someThread) ∧
    ((single someThread).spadDrain 0).commandsOf 0 = false ∧ (single someThread).unchecked 0 = false := by
  refine ⟨rfl, rfl, ?_, ?_⟩ <;> decide +kernel
/-- All lanes at the word but one whose predicate does not select it. -/
theorem witness_GroupIssueAndLaneMoves : let s := single { someThread with p := 0 }
    collectiveGuard (.kclr ⟨1, false⟩) = some ⟨1, false⟩ ∧ s.issue = [issueOf] ∧
    full.issue = [fullIssue] ∧ full.env? fullIssue = some fullEnv ∧ fullEnv.g.threads.map (fun p => p.1) = List.range 32 := by
  refine ⟨rfl, rfl, rfl, rfl, ?_⟩; decide +kernel
theorem witness_GroupIssueAndLaneMoves_lanes : LanesMet always (some (.reg 1)) (srcN (.int .u64) (v 2)) (srcN (.int .u64) (v 3)) none
      (fun e l t r => ∀ i, i < 64 / 64 → elemN 64 r.b i / 32 < 64 / 64 → e.g.vPoisoned l t (elemN 64 r.b i % 32) 2 = false) (single someThread) ∧
    GroupMet (some (.reg 1)) (srcP .ident .whole (v 2)) none none (fun _ e _ => 5 ∉ e.g.poisoned) :=
  ⟨lanesMet (by decide +kernel) (by decide +kernel), groupMet (by decide +kernel) (by decide +kernel)⟩

/-- Every finite f4 value is a whole number of units of 2^-1074, and so is a sum of them. -/
theorem f4_units : ∀ c : Fin 16, (match Machine.decodeF .f4 c.val with | .fin _ _ e => decide (-10 ≤ e) | _ => true) = true := by decide +kernel
theorem f4_whole (a : Word) (i : Nat) : ∃ z : Int, (z : ℚ) = ratOf (valueAt .f4 a i) * (2 : ℚ) ^ (1074 : Nat) := by
  have h := f4_units ⟨elemN 4 a i, Nat.mod_lt _ (by norm_num)⟩
  show ∃ z : Int, (z : ℚ) = ratOf (Machine.decodeF .f4 (elemN 4 a i)) * (2 : ℚ) ^ (1074 : Nat)
  revert h
  generalize Machine.decodeF .f4 (elemN 4 a i) = x
  intro h
  match x, h with
  | .nan _, _ => exact ⟨0, by simp [ratOf]⟩
  | .inf _, _ => exact ⟨0, by simp [ratOf]⟩
  | .fin n m e, h =>
    have he : -10 ≤ e := by simpa using h
    obtain ⟨k, hk⟩ : ∃ k : Nat, e + 1074 = k := ⟨(e + 1074).toNat, by omega⟩
    have hp : (2 : ℚ) ^ e * (2 : ℚ) ^ (1074 : Nat) = (2 : ℚ) ^ k := by
      rw [← zpow_natCast, ← zpow_add₀ (by norm_num), ← zpow_natCast]; congr 1
    refine ⟨(if n then -1 else 1) * m * 2 ^ k, ?_⟩
    cases n <;> simp only [ratOf, mul_assoc, hp] <;> push_cast <;> simp
theorem whole_sum (vs : List FV) (h : ∀ x ∈ vs, ∃ z : Int, (z : ℚ) = ratOf x * (2 : ℚ) ^ (1074 : Nat)) : ∃ z : Int, (z : ℚ) = termSum vs := by
  induction vs with
  | nil => exact ⟨0, by simp [termSum]⟩
  | cons x xs ih =>
    obtain ⟨a, ha⟩ := h x (by simp)
    obtain ⟨b, hb⟩ := ih (fun y hy => h y (by simp [hy]))
    exact ⟨a + b, by simp only [termSum, List.map_cons, List.sum_cons] at *; push_cast; rw [ha, hb]⟩
theorem witness_ExactSums : (∃ sum : Env → (Nat → Got) → Int, ∀ e got, (sum e got : ℚ) = e.g.k.toInt + termSum (positionsOf .f4 (fun l => (got l).a))) ∧
    GroupMet none (srcP .ident (.flt .f4) (v 2)) none none (fun _ e _ => 0 ∉ e.g.poisoned) := by
  refine ⟨?_, groupMet (by decide +kernel) (by decide +kernel)⟩
  have h : ∀ (e : Env) (got : Nat → Got), ∃ z : Int, (z : ℚ) = e.g.k.toInt + termSum (positionsOf .f4 (fun l => (got l).a)) := fun e got => by
    obtain ⟨z, hz⟩ := whole_sum (positionsOf .f4 (fun l => (got l).a)) (fun x hx => by
      obtain ⟨p, _, rfl⟩ := List.mem_map.mp hx
      exact f4_whole _ _)
    exact ⟨e.g.k.toInt + z, by push_cast; rw [hz]⟩
  exact ⟨fun e got => (h e got).choose, fun e got => (h e got).choose_spec⟩
theorem witness_BitPlanes : GroupMet (some (.reg 1)) (srcA noPat (.flt .f32) (v 2)) (srcB noPat (.cell 32) (v 3)) none
      (fun _ e _ => ∀ p ∈ e.g.threads, quiet p.2 0x1F) ∧ FType.f32 ∈ [FType.f32, .f16, .b16, .f8] ∧ 8 * (64 / 32 / 2) ≤ 32 :=
  ⟨groupMet (by decide +kernel) (by unfold quiet; decide +kernel), by decide, by decide⟩
/-- Lanes of the full group as GROUP ISSUE meets them: none selected, and lane 0 alone. -/
def mixed : State := { full with groups := [(0, { loadGroup with threads := loadGroup.threads.map (fun p => (p.1, if p.1 = 0 then { p.2 with p := 2 } else p.2)) })] }
theorem witness_GroupIssueAndLaneMoves_cases : (∀ p ∈ fullEnv.g.threads, p.2.selected ⟨1, false⟩ = false) ∧
    (match mixed.env? fullIssue with
      | some e => e.g.threads.all (fun p => decide (p.2.status = .run) && decide (p.2.pc = loadPc) && (p.2.selected ⟨1, false⟩ == decide (p.1 = 0)))
      | none => false) = true := by constructor <;> decide +kernel

/-! ### Memory -/

/-- Nothing stands in the way of any line where no die has changed and the host caches nothing. -/
theorem idle (s : State) (hd : s.dies = []) (hh : s.hostSectors = []) (line : Nat) : lineIdle s line := by
  refine ⟨?_, ?_, ?_, ?_, ?_⟩ <;> simp [State.dieOf, State.tenured, hd, hh, Table.getD, Table.find, Die.init, Die.entry?]
theorem noneAsks (s : State) (hd : s.dies = []) (who : Accessor) : unasked s who := by intro p h; simp [hd] at h
def pointerIn : Word := 0x0040000000000100
/-- The one-thread state with its page writable. -/
def writing : State := { single someThread with mem := Memory.write (single someThread).mem 0x3A60000 8 0x1000000F }
/-- A pointer of tag 1 into the loaded page passes every kind's check; one of tag 2 has no bounds, one above the limit is outside them. -/
theorem witness_checks : (match writing.check 0 1 pointerIn 8 8 (kindNeed .load), writing.check 0 1 pointerIn 8 8 (kindNeed .atomic) with
      | .ok [x], .ok [y] => decide (x.pa = 0x10000100) && decide (y.pa = x.pa) && !(isAperture x.pa)
      | _, _ => false) = true ∧
    full.check 0 1 0x0080000000000100 8 8 (kindNeed .load) = .error (.trap 0x0A) ∧ full.check 0 1 0x0040000010000000 8 8 (kindNeed .store) = .error (.trap 0x0A) ∧
    full.check 0 1 0x0040000000000101 8 8 (kindNeed .store) = .error (.trap 0x0E) := by
  refine ⟨?_, ?_, ?_, ?_⟩ <;> decide +kernel
theorem witness_Loads : (single someThread).issue = [issueOf] ∧ (single someThread).env? issueOf = some (envOf someThread) ∧
    collects (envOf someThread) 0 someThread (some (.reg 1)) (srcP .ident (.cell 64) (v 4)) none none = true ∧
    (match (single someThread).check 0 1 pointerIn 8 8 (kindNeed .load) with
      | .ok xs => !((single someThread).heldBack 0 1 xs) &&
        (let w := (single someThread).fillCaches 0 1 1 xs
         (w.poisonVa 0 xs 0x100 8).isNone && !(w.restartable (envOf someThread)) && !((w.coreOf 0).pendingOf 0) &&
           (w.beforeLoad (envOf someThread) 0 .sc .pkg).isSome && (w.loadRange (.thread 0) 0 1 (w.leaseOf 1) xs 0x100 8).2.isSome)
      | .error _ => false) = true := by refine ⟨rfl, rfl, ?_, ?_⟩ <;> decide +kernel
theorem witness_Stores : (match writing.check 0 1 pointerIn 8 8 (kindNeed .store) with
      | .ok xs => !(writing.heldBack 0 1 xs) &&
        (let w := writing.fillCaches 0 1 1 xs
         !(w.draftPinned 1 xs) && decide (w.tenureOf 0 1 (lineOf 0x10000100) = .none) && !(w.idsBusy 0 1) && !(w.restartable (envOf someThread)) &&
           (w.coreOf 0).pendAtomics.isEmpty && (w.before (envOf someThread) 0 .rlx .group).isSome)
      | .error _ => false) = true := by decide +kernel
theorem witness_Atomics : (match writing.check 0 1 pointerIn 8 8 (kindNeed .atomic) with
      | .ok xs => let w := writing.fillCaches 0 1 1 xs
        match xlatAt xs 0x100, w.before (envOf someThread) 0 .rlx .group with
        | some x, some y => !(x.repl) && !(w.idsBusy 0 1) &&
            decide ((y.atomicThrough (.thread 0) 0 1 (y.leaseOf 1) x 0x100 8 (.atom (.int .u64) .add 0) 5).2 = .done 0) &&
            decide ((y.atomicThrough (.thread 0) 0 1 (y.leaseOf 1) { x with repl := true } 0x100 8 (.atom (.int .u64) .add 0) 5).2 = .sent)
        | _, _ => false
      | .error _ => false) = true := by decide +kernel
theorem witness_PrefetchAndFence : (single someThread).check 0 1 0 1 1 (kindNeed .load) = .error (.trap 0x0A) ∧
    (match (single someThread).check 0 1 pointerIn 1 1 (kindNeed .load) with
      | .ok (x :: _) => !(isControl (x.loadPa 0 x.va)) && decide (x.policy ≠ 2)
      | _ => false) = true ∧
    ((single someThread).before (envOf someThread) 0 .sc .pkg).isSome = true := by refine ⟨?_, ?_, ?_⟩ <;> decide +kernel
theorem witness_Atomics_waits : (single someThread).thread? 0 = some someThread ∧ someThread.status = .run ∧ someThread.passed = [] ∧
    ((writing.setBlock (blockKey 1 0) { loadBlock with restartable := true }).restartable (envOf someThread)) = true := by
  refine ⟨?_, ?_, ?_, ?_⟩ <;> decide +kernel
/-- The first and the last bytes of a line at the home of core 0. -/
theorem witness_HomeAccesses : atHomeOf 0 0x10000100 8 ∧ atHomeOf 0 0x1000017F 1 ∧ lineIdle full (0x10000100 / 128) ∧ l1Clean full 0 ∧
    full.l1Hit 0 (0x10000100 / 128) = none := by
  refine ⟨?_, ?_, idle full rfl rfl _, fun p h => (nomatch h), ?_⟩
  · unfold atHomeOf; decide +kernel
  · unfold atHomeOf; decide +kernel
  · decide +kernel
def someStore : PendStore := ⟨0, 0, 0x10000100, 8, 5, 10, 1, 0, false, 0, false, none⟩
theorem witness_HomeAccesses_pending : let s := full.setCore 0 { Core.init with pend := [someStore] }
    (s.coreOf 0).pend.find? (fun q => !q.sent) = some someStore ∧ lineIdle s (0x10000100 / 128) ∧ unasked s (.posted 0) :=
  ⟨by decide +kernel, idle _ rfl rfl _, noneAsks _ rfl _⟩
theorem witness_MemoryReadsBack : Memory.wf [(3, 5)] = true := by decide
theorem witness_RenewalsAndScrubs : 128 * 0x200002 < 2 ^ 38 ∧ homeOfLine 0x200002 = 0 / 40 ∧ lineIdle full 0x200002 ∧ full.l1Hit 0 0x200002 = none ∧
    (∃ c, full.context? 1 = some c ∧ (match walkWith ((full.dieOf 0).held 1) full.mem (rootAt c.area) 0x100 with | .ok _ => true | .error _ => false) = true) ∧
    (match walkWith ((full.dieOf 0).held 1) (Memory.write full.mem 0x3A60000 8 0x1000041F) (rootAt loadContext.area) 0x100 with
      | .error .bad => true
      | _ => false) = true ∧
    (full.coreOf 0).tlb = [] ∧ l1Clean full 0 :=
  ⟨by decide, by decide +kernel, idle _ rfl rfl _, by decide +kernel, ⟨loadContext, rfl, by decide +kernel⟩, by decide +kernel, rfl, fun p h => (nomatch h)⟩
theorem witness_CatalogueSteps : homeOfLine 0x200002 ≠ 1 ∧ lineIdle full 0x200002 ∧ Table.find (full.dieOf 1).annex 0x200002 = none ∧
    (∀ r, (full.dieOf (homeOfLine 0x200002)).entry? 0x200002 = some r → r.state ≠ .o) :=
  ⟨by decide +kernel, idle _ rfl rfl _, rfl, by decide +kernel⟩
/-- A request of die 1 on a line that die 2 shares, waiting for its acknowledgement. -/
def someReq (phase : ReqPhase) (die : Nat) (awaiting : List Nat) : CatReq := ⟨die, 0x200002, .store, 0, phase, false, awaiting, 0, false⟩
def snooping (l : List CatReq) : State := full.setDie 0 { Die.init with requests := l }
theorem witness_CatalogueSteps_request : let r := someReq .queued 1 [2]
    ((snooping [r]).dieOf (homeOfLine 0x200002)).current 0x200002 = some r ∧ 2 ∈ r.awaiting ∧
    ((snooping [r, someReq .queued 2 []]).dieOf (homeOfLine 0x200002)).current 0x200002 = some r ∧ (someReq .queued 2 []).phase = .queued ∧
    (snooping [r]).conflicts (homeOfLine 0x200002) 0x200002 (some 1) = false ∧ r.granted = false ∧ (∀ q ∈ ((snooping [r]).dieOf (homeOfLine 0x200002)).requests, q = r) ∧
    ((snooping [r, someReq .retrying 2 []]).dieOf (homeOfLine 0x200002)).requests.find? (fun x => decide (x.die = 2) && decide (x.line = 0x200002) &&
      decide (x.phase = .retrying)) = some (someReq .retrying 2 []) := by
  refine ⟨?_, ?_, ?_, ?_, ?_, ?_, ?_, ?_⟩ <;> decide +kernel
/-- Two quiet halves of 2048 bytes. -/
theorem witness_CatalogueSteps_merge : let s := { full.setDie 0 { Die.init with regions := [⟨0, 2048, .s, [1], 0⟩, ⟨2048, 2048, .s, [1], 0⟩] } with cycle := 2 ^ 21 }
    (s.dieOf 0).regions.find? (fun x => decide (x.base = 0)) = some ⟨0, 2048, .s, [1], 0⟩ ∧
    (s.dieOf 0).regions.find? (fun x => decide (x.base = 0 + 2048) && decide (x.size = 2048)) = some ⟨2048, 2048, .s, [1], 0⟩ ∧
    0 + 2 ^ (s.dieOf 0).quiet ≤ s.fabric := by refine ⟨?_, ?_, ?_⟩ <;> decide +kernel
def someUpdate : ReplUpdate := ⟨0, some 0, 0x100, 8, 5, .store, 0, 0, [0, 1, 2, 3, 4, 5, 6], false, [], 0, none, 0, 0⟩
theorem witness_ReplicatedUpdates : ∃ s : State, s.replicated = [someUpdate] ∧ someUpdate.seq = some 0 ∧ someUpdate.committed = false ∧ 7 ∉ someUpdate.acks ∧
    someUpdate.off < 2 ^ 35 ∧ someUpdate.off % 128 + someUpdate.size ≤ 128 := ⟨{ full with replicated := [someUpdate] }, rfl, by decide⟩
/-- Of two updates the earlier in the box's sequence is due; a release waits for both. -/
theorem witness_ReplicatedUpdates_order : let u := { someUpdate with committed := true }
    let w := { u with seq := some 1 }
    let s : State := { full with replicated := [w, u] }
    let due := fun (q : ReplUpdate) => q.committed = true ∧ 0 ∉ q.applied ∧ ∀ p ∈ s.replicated, p.sbox = q.sbox → 0 ∉ p.applied →
      ∀ a b, p.seq = some a → q.seq = some b → b ≤ a
    due u ∧ ¬due w ∧ (∃ q ∈ s.replicated, q.core = 0) ∧ ((full.setDie 0 { Die.init with replTop := some 9 }).dieOf 0).replTop = some 9 ∧
    (full.coreOf 0).replPkg = none := by
  refine ⟨⟨rfl, by decide, fun p hp _ _ a b ha hb => ?_⟩, fun h => ?_, ⟨_, List.mem_cons_self, rfl⟩, by decide +kernel, rfl⟩
  · cases hb
    omega
  · exact absurd (h.2.2 { someUpdate with committed := true } (by simp) rfl (by decide) 0 1 rfl rfl) (by decide)
theorem witness_HostAndPeers : lineIdle full (0x10000100 / 128) ∧ full.populatedRange 0x10000100 8 = true ∧ full.populated 0x10000100 = true ∧
    (∃ s : State, Table.find s.hostSectors 4 = some ⟨0, 0, true⟩ ∧ (∀ p ∈ s.hostSectors, p.2.dirty = 0) ∧ s.conflicts (homeOfLine (256 / 128)) (256 / 128) none = false) ∧
    (full.dieOf hub).entry? 0 = none :=
  ⟨idle _ rfl rfl _, by decide +kernel, by decide +kernel, ⟨{ full with hostSectors := [(4, ⟨0, 0, true⟩)] }, by decide +kernel, by decide +kernel, by decide +kernel⟩,
    by decide +kernel⟩
/-- A page mapped host-coherent; a sector that the host modified in its first and its last byte. -/
theorem witness_HostAndPeers_sectors : let s : State := { single someThread with mem := Memory.write (single someThread).mem 0x3A60000 8 0x1000006F }
    let x : HostSector := ⟨7, 2 ^ 63 + 1, true⟩
    s.hostCoherent 0x10000100 = true ∧ (single someThread).hostCoherent 0x10000100 = false ∧ s.populated 0x10000100 = true ∧
    x.dirty.getLsbD 0 = true ∧ x.dirty.getLsbD 63 = true ∧ x.dirty.getLsbD 1 = false ∧
    ({ full with hostSectors := [(4, x)] } : State).hostSectors = (4, x) :: [] ∧ Memory.wf full.mem = true := by
  refine ⟨?_, ?_, ?_, ?_, ?_, ?_, ?_, ?_⟩ <;> decide +kernel
/-- A store on its way to peer 3, and an atomic for which a thread waits. -/
def peerStore : PeerMsg := ⟨0, 9, 3, 0x40, 8, .store, 5, none⟩
def peerAtom : PeerMsg := ⟨0, 10, 3, 0x40, 8, .atom (.int .u64) .add 0, 5, some (.thread 0)⟩
def atPeer (l : List PeerMsg) : State := { single { someThread with status := .wait (.atomic pointerIn) } with peerSent := l }
theorem witness_HostAndPeers_peers : (atPeer [peerStore]).peerSent = [] ++ peerStore :: [] ∧ peerStore.op ≠ .semTake ∧ peerStore.core < 320 ∧
    peerStore.waiter = none ∧ (atPeer [peerAtom]).peerSent.filter (fun m => decide (m.peer = 3)) = [peerAtom] ∧ (atPeer []).semWaits = [] ∧
    (atPeer [peerAtom]).thread? 0 = some { someThread with status := .wait (.atomic pointerIn) } ∧ entersOn { someThread with status := .wait (.atomic pointerIn) } 0x0D ∧
    full.populatedRange 0x10000100 (atomWidth (.int .u64) / 8) = true ∧
    (∃ g ∈ [{ loadGrid with domains := [6] }], g.domains.getD (2 - 2) 0 = 6) := by
  refine ⟨?_, ?_, ?_, ?_, ?_, ?_, ?_, by unfold entersOn inHandler; decide +kernel, ?_, ?_⟩ <;> decide +kernel
/-! ### Tiles, barriers, semaphores -/

/-- A full group whose threads hold a word in v2. -/
def groupWith (w : Word) : Group := { loadGroup with threads := loadGroup.threads.map (fun p => (p.1, { p.2 with v := [(2, w)] })) }
def fullWith (w : Word) : State := { full with groups := [(0, groupWith w)] }
def allCollect (w : Word) (d : Option Operand) (a b c : Option SrcSpec) : Bool :=
  match (fullWith w).env? fullIssue with
  | some e => e.g.threads.all (fun p => collects e p.1 p.2 d a b c && decide (p.2.status = .run ∧ p.2.pc = loadPc) && p.2.selected always)
  | none => false
def someTile : Tile := { Tile.free 1 1 with defined := true, base := pointerIn, rank := 1, extents := [4, 0, 0, 0], strides := [8, 0, 0, 0], footprint := [(0x10000100, 25)] }
def handle : Word := handleOf 1 0 5
def tiled : State := (fullWith handle).setDie 0 { Die.init with tiles := [(5, someTile)] }
/-- A tile descriptor of four bytes at v1's pointer, at the least extent and rank. -/
theorem witness_TileDescriptors : allCollect handle (some (.reg 1)) (srcP .ident .whole (v 2)) none none = true ∧ NamesTile tiled 1 handle someTile ∧
    tileGood (pointerIn.toNat + 1 * 2 ^ 64 + 1 * 2 ^ 128 + 4 * 2 ^ 256) ∧
    tileGood (pointerIn.toNat + 1 * 2 ^ 64 + 2 ^ 24 * 2 ^ 128 + 4 * 2 ^ 256) ∧ ¬tileGood (pointerIn.toNat + 1 * 2 ^ 64 + 4 * 2 ^ 256) := by
  unfold NamesTile tileGood; refine ⟨?_, ?_, ?_, ?_, ?_⟩ <;> decide +kernel
theorem witness_TileDescriptors_split : someTile.published = false ∧ someTile.recalling = false ∧ someTile.queue = [] ∧ someTile.holders = [] ∧
    (0 < someTile.rank) ∧ 0 < 1 ∧ 1 < someTile.extents.getD 0 0 ∧ lowestFree tiled 0 none 0 ∧ lowestFree tiled 0 (some 0) 1 := by
  have h : ∀ i, indexUsed tiled 0 i ↔ i = 5 := by
    intro i; simp [indexUsed, tiled, State.dieOf, State.setDie, fullWith, full, Table.getD, Table.find, Table.set, someTile, State.reset, State.loadWord]
    exact eq_comm
  refine ⟨rfl, rfl, rfl, rfl, by decide, by decide, by decide, ⟨by decide, by simp [h], by simp, by omega⟩, ⟨by decide, by simp [h], by simp, ?_⟩⟩
  intro j hj; right; congr 1; omega
theorem witness_Tenure : NamesTile tiled 1 handle someTile ∧ tenureFree tiled 0 someTile 0 true ∧ (holdsOn (groupWith handle) 0 5) = (0, false) ∧
    tiled.restartable { envOf someThread with g := groupWith handle } = false := by
  unfold NamesTile tenureFree
  refine ⟨by decide +kernel, ⟨?_, ?_⟩, by decide +kernel, by decide +kernel⟩
  · intro p hp _ h hh
    have : p = (5, someTile) := by simpa [tiled, State.dieOf, State.setDie, fullWith, full, Table.getD, Table.find, Table.set, State.reset, State.loadWord] using hp
    subst this; simp [someTile, Tile.free] at hh
  · decide +kernel
/-- A recall whose 2^16 fabric cycles are just over, and one that has one left. -/
theorem witness_Tenure_recall : let x := { someTile with holders := [⟨0, 1, true, 10⟩], recalling := true, recalled := [0], recallAt := 0 }
    let s := (fullWith handle).setDie 0 { Die.init with tiles := [(5, x)] }
    Table.find (s.dieOf 0).tiles 5 = some x ∧ (∃ h ∈ x.holders, h.core ∈ x.recalled) ∧ x.recallAt + 65536 ≤ ({ s with cycle := 98304 } : State).fabric ∧
    ({ s with cycle := 98302 } : State).fabric < x.recallAt + 65536 := by
  refine ⟨?_, ?_, ?_, ?_⟩ <;> decide +kernel
/-- A queue of two requests at a tile whose tenure is being recalled. -/
theorem witness_Tenure_order : let ins : Instr := .tacq always .ident true (v 2)
    let x := { someTile with recalling := true, queue := [⟨0, .tacq 0 true⟩, ⟨1, .tacq 1 true⟩] }
    let th := { Thread.start loadPc 0 with v := [(2, handle)], status := .wait (.tacq 0 5 ins) }
    let s := { (fullWith handle).setDie 0 { Die.init with tiles := [(5, x)] } with groups := [(0, { groupWith handle with threads := [(0, th)] })] }
    Table.find (s.dieOf 0).tiles 5 = some x ∧ x.published = false ∧ s.thread? (0 * 32) = some th ∧ th.status = .wait (.tacq 0 5 ins) ∧
    (∀ p ∈ (s.dieOf 0).tiles, p.1 = 5) := by refine ⟨?_, ?_, ?_, ?_, ?_⟩ <;> decide +kernel
theorem witness_Barriers : let e := envOf someThread
    let s := single someThread
    (barrierOf s e 2).poisoned = false ∧ e.group * 32 + 0 ∉ (barrierOf s e 2).arrived ∧ (s.before e 0 .rel (s.levelScope e.g 2)).isSome = true ∧
    s.participants 1 2 0 = [0] ∧ phaseOver 1 0 ∧ ¬phaseOver 0 0 ∧ phaseOver 0x80000000 0 ∧ ¬phaseOver 0x80000001 0 := by
  unfold phaseOver; refine ⟨?_, ?_, ?_, ?_, ?_, ?_, ?_, ?_⟩ <;> decide +kernel
theorem witness_Barriers_levels : ¬levelRefused (single someThread) (envOf someThread) 2 ∧ levelRefused (single someThread) (envOf someThread) 3 := by
  constructor
  · rintro ⟨gr, hg, h⟩
    have : gr = loadGrid := by simpa [single, envOf, groupOf, loadGroup, Group.start, State.reset, State.loadWord, Table.find, Table.set, eq_comm] using hg
    subst this
    rcases h with h | ⟨_, h⟩ <;> omega
  · exact ⟨loadGrid, rfl, Or.inl ⟨by decide, by decide⟩⟩
/-- A poisoned barrier, and one for whose phase a BWAIT waits, which is then over. -/
theorem witness_Barriers_waiters : let b : Barrier := { (single someThread).barrier 1 2 0 with poisoned := true }
    let th := { someThread with status := .wait (.barrier 1 2 0 0 (.bwait always .ident (v 1) 2)) }
    ({ single someThread with barriers := [b] } : State).barrier 1 2 0 = b ∧ b.poisoned = true ∧ ¬inHandler someThread ∧
    (single th).thread? 0 = some th ∧ phaseOver (0 + 1) (BitVec.ofNat 32 0) ∧ ¬phaseOver (0 + 1) (BitVec.ofNat 32 1) := by
  unfold phaseOver inHandler; refine ⟨?_, ?_, ?_, ?_, ?_, ?_⟩ <;> decide +kernel
/-- Counts at the ends of SEMW's and SEMS's range, and words around them. -/
theorem witness_Semaphores : semFull 1 1 ∧ ¬semFull 0 1 ∧ ¬semFull (2 ^ 32 - 1) (2 ^ 32) ∧ semFull (2 ^ 63) 1 ∧ atHomeOf 0 0x10000100 8 ∧ 0x10000100 % 8 = 0 ∧
    lineIdle full (0x10000100 / 128) ∧ collects (envOf someThread) 0 someThread (some (.reg 1)) (srcA noPat .whole (v 4)) (srcB noPat .whole (v 3)) none = true := by
  unfold semFull atHomeOf; refine ⟨?_, ?_, ?_, ?_, ?_, ?_, idle _ rfl rfl _, ?_⟩ <;> decide +kernel
/-- Two SEMWs that wait for one word, the first of them served or left to wait, and one that waits for another word. -/
def waitingSem (n : Nat) (pa : Nat) : SemWait := ⟨pointerIn, pa, ⟨0x100, pa, 8, 0, false, 0, none, 0x1000000F, true⟩, .thread 0, n, true, 10⟩
theorem witness_Semaphores_order : let s : Nat → State := fun count => { writing with
      mem := Memory.write writing.mem 0x10000100 8 count, semWaits := [waitingSem 1 0x10000108, waitingSem 3 0x10000100, waitingSem 4 0x10000100] }
    (s 3).semWaits = [waitingSem 1 0x10000108] ++ waitingSem 3 0x10000100 :: [waitingSem 4 0x10000100] ∧ semFull 3 3 ∧ ¬semFull 2 3 ∧ (s 3).idsBusy 0 1 = false ∧
    (s 3).poison = [] ∧ (writing.setBlock (blockKey 1 0) { loadBlock with restartable := true }).restartable (envOf someThread) = true := by
  unfold semFull; refine ⟨?_, ?_, ?_, ?_, ?_, ?_⟩ <;> decide +kernel
/-! ### Scratchpad, editions -/

/-- The last words of the 65,536 bytes, and the next one past them. -/
theorem witness_ScratchpadWords : (single someThread).block? (envOf someThread).g.blockKey = some loadBlock ∧ loadBlock.spadPoison = [] ∧
    spadFits loadBlock 0xFFFC 4 ∧ spadFits loadBlock 0xFFF0 16 ∧ ¬spadFits loadBlock 0xFFF2 4 ∧ loadBlock.scratch < 0x10000 + 4 ∧
    collects (envOf someThread) 0 someThread none (srcA noPat .whole (v 2)) (srcB noPat (.int .u64) (v 3)) none = true := by
  unfold spadFits; refine ⟨?_, ?_, ?_, ?_, ?_, ?_, ?_⟩ <;> decide +kernel
def banked (r : SpadReq) : State := (single someThread).setCore 0 { Core.init with banks := [(1, [r])] }
theorem witness_ScratchpadBanks : let w := SpadReq.write (some 0) (blockKey 1 0) 16 8 7 true
    let b := SpadReq.setBit (some 0) (blockKey 1 0) 1 false
    Table.getD ((banked w).coreOf 0).banks 1 [] = [w] ∧ Table.getD ((banked b).coreOf 0).banks 1 [] = [b] ∧
    (banked w).group? 0 = some (groupOf someThread) ∧ (banked w).block? (blockKey 1 0) = some loadBlock ∧ loadBlock.core = 0 ∧
    ((banked w).coreOf 0).waiters = [] ∧ ((banked w).coreOf 0).held = [] ∧ (Table.getD ((banked w).coreOf 0).banks (32 / 16 % 64) []).length < 8 := by
  refine ⟨?_, ?_, ?_, ?_, ?_, ?_, ?_, ?_⟩ <;> decide +kernel
/-- An LDS.take of the granule of offset 16, its bit set. -/
theorem witness_ScratchpadBanks_lds : let w : SpadWaiter := ⟨.thread 0, (groupOf someThread).blockKey, 16, true, .lds always .ident .u64 false .take (.reg 1) (v 2) 11⟩
    let s := (banked (.read w)).setBlock (blockKey 1 0) { loadBlock with full := [1] }
    Table.getD (s.coreOf 0).banks 1 [] = [.read w] ∧ s.group? (0 / 32) = some (groupOf someThread) ∧ s.block? (groupOf someThread).blockKey = some { loadBlock with full := [1] } ∧
    (1 : Nat) ∉ loadBlock.full ∧ (s.env? ⟨0 / 1024, 0 / 32 % 32, loadPc, [0 % 32], 0, false⟩).isSome = true ∧
    (match s.env? ⟨0 / 1024, 0 / 32 % 32, loadPc, [0 % 32], 0, false⟩ with
      | some e => collects e 0 { someThread with status := .run } (some (.reg 1)) (srcP .ident (.cell 64) (v 2)) none none
      | none => false) = true := by
  refine ⟨?_, ?_, ?_, ?_, ?_, ?_⟩ <;> decide +kernel

/-- The context's first page is a view of buffer 3. -/
def edited (th : Thread) (d : Desc) : State :=
  { single th with mem := writeDesc (Memory.write (Memory.write (single th).mem 0x3A60000 8 0x3A70001) 0x3A70000 8 0x3010F) (descAt 0 3) d }
def someDesc : Desc := ⟨0x20000000, 0x20010000, 1, 4, 0, 0, 0, false, false, 0⟩
def toBuffer (s : State) (k : AccessKind) : Bool := match s.check 0 1 pointerIn 1 1 (kindNeed k) with
  | .ok (x :: xs) => x.leaf.getLsbD 8 && decide (x.leaf.toNat / 2 ^ 16 % 2 ^ 12 = 3) && !(s.heldBack 0 1 (x :: xs)) &&
    decide ((s.fillCaches 0 1 1 (x :: xs)).desc? 1 3 = s.desc? 1 3) && (s.desc? 1 3).isSome
  | _ => false
theorem witness_EditionWords : toBuffer (edited someThread someDesc) .load = true ∧ toBuffer (edited someThread someDesc) .publish = true ∧
    (match (single someThread).check 0 1 pointerIn 1 1 (kindNeed .publish) with
      | .ok (x :: _) => !(x.leaf.getLsbD 8)
      | _ => false) = true ∧
    (edited someThread someDesc).desc? 1 3 = some someDesc ∧ (edited someThread { someDesc with code := true }).desc? 1 3 = some { someDesc with code := true } ∧
    (edited someThread { someDesc with withdrawn := 3 }).desc? 1 3 = some { someDesc with withdrawn := 3 } ∧
    ((edited someThread someDesc).noteWithdrawn 1 3).everWithdrawn 1 3 = true ∧ (edited someThread someDesc).everWithdrawn 1 3 = false ∧
    (edited someThread someDesc).uncreated 0 1 0x100 = false ∧ (edited someThread { someDesc with pages := 0 }).uncreated 0 1 0x100 = true ∧
    (edited someThread { someDesc with pages := 0 }).check 0 1 pointerIn 1 1 (kindNeed .publish) = .error (.trap 0x0D) ∧
    pinCount { someDesc with pins0 := 1 } 0 ≠ 0 ∧ pinCount someDesc 0 = 0 ∧ (edited someThread someDesc).restartable (envOf someThread) = false ∧
    ((edited someThread someDesc).before (envOf someThread) 0 .rel .pkg).isSome = true ∧ (edited someThread someDesc).publications = [] ∧
    Memory.wf (edited someThread someDesc).mem = true := by refine ⟨?_, ?_, ?_, ?_, ?_, ?_, ?_, ?_, ?_, ?_, ?_, ?_, ?_, ?_, ?_, ?_, ?_⟩ <;> decide +kernel
/-- A pin of EDQ's own, behind one of a fetch, which EDQ does not release. -/
theorem witness_EditionWords_pins : let fetch : Pin := ⟨1, 3, 0, 4, .thread 0⟩
    let its : Pin := ⟨1, 3, 0, 4, .edq (some 0)⟩
    ({ edited someThread { someDesc with pins0 := 2 } with pins := [fetch, its] } : State).pins = [fetch] ++ its :: [] ∧
    (∃ o, its.owner = .edq o) ∧ (∀ q ∈ [fetch], ¬∃ o, q.owner = .edq o) ∧ pinCount { someDesc with pins0 := 2 } 0 ≠ 0 ∧ someThread.passed = [] :=
  ⟨rfl, ⟨some 0, rfl⟩, by simp, by decide +kernel, rfl⟩
/-- A thread in a region whose edition is no longer the newest, and one in the newest. -/
theorem witness_EditionWords_regions : let th := { someThread with region := some ⟨3, 1, 3⟩ }
    th.region = some ⟨3, 1, 3⟩ ∧ (edited th someDesc).thread? 0 = some th ∧ ¬(3 = someDesc.num ∧ 1 = someDesc.cur) ∧ (4 = someDesc.num ∧ 0 = someDesc.cur) := by
  refine ⟨?_, ?_, ?_, ?_⟩ <;> decide +kernel
def pubThread : Thread := { someThread with status := .wait (.pub 3 (.pub always .ident .pkg (.reg 1) (v 4))) }
def publishing (acks : List Nat) : State := { edited pubThread someDesc with publications := [⟨1, 3, 0, acks⟩] }
theorem witness_EditionCommits : (publishing []).publications = [⟨1, 3, 0, []⟩] ∧ (publishing []).engineOpen 1 3 = false ∧ ((publishing []).coreOf 0).pend = [] ∧
    ((publishing []).setCore 0 { Core.init with pend := [{ someStore with buf := some (3, 0) }] }).publications = [⟨1, 3, 0, []⟩] ∧
    (publishing [0]).desc? 1 3 = some someDesc ∧ (publishing [0]).context? 1 = some loadContext ∧ (publishing [0]).thread? 0 = some pubThread ∧
    (∀ k ∈ (publishing [0]).coresOf 1, k ∈ [0]) ∧ (publishing [0]).dies = [] ∧ Memory.wf (publishing [0]).mem = true ∧
    ∀ e : Env, e.group = 0 / 32 → collect e (0 % 32) { pubThread with status := .run } (some (.reg 1)) (srcP .ident .whole (v 4)) none none =
      .ok (gotten (envOf someThread) 0 someThread (some (.reg 1)) (srcP .ident .whole (v 4)) none none) := by
  refine ⟨?_, ?_, ?_, ?_, ?_, ?_, ?_, ?_, ?_, ?_, fun e _ => rfl⟩ <;> decide +kernel

/-- A thread that waits for the edition; an event that the log has room for, to its last byte, and one that it has none for. -/
theorem witness_EditionCommits_waiters : let w := { someThread with status := .wait (.edition 3) }
    (edited w someDesc).thread? 0 = some w ∧ Table.find (edited w someDesc).groups (0 / 32) = some (groupOf w) ∧ (groupOf w).ctx = 1 ∧
    (edited w someDesc).context? 1 = some loadContext ∧ loadContext.logged + 71 ≤ 0x100000 ∧ loadContext.logged + 0x100000 ≤ 0x100000 ∧
    ¬loadContext.logged + 0x100001 ≤ 0x100000 ∧ Memory.wf (edited w someDesc).mem = true ∧
    (∀ en, ((edited w someDesc).engineOf 0 en).seq = none) := by
  refine ⟨?_, ?_, ?_, ?_, ?_, ?_, ?_, ?_, fun en => by cases en <;> rfl⟩ <;> decide +kernel
/-! ### Engines -/

def enginesWith (en : Eng) (g : Engine) : State := (single someThread).setEngine 0 en g
def someCmd (op : CmdOp) (ph : CmdPhase) : Cmd := ⟨5, 1, 0, blockKey 1 0, op, ph, none, [], []⟩
theorem witness_EngineWords : ((single someThread).engineOf 0 .bulk).queue.length < 16 ∧
    16 ≤ ((enginesWith .bulk { Engine.init with queue := List.replicate 16 (someCmd (.cpy 0 0 8 true true) .queued) }).engineOf 0 .bulk).queue.length ∧
    ((single someThread).mediaOf 15).queue = [] ∧ toBuffer (edited someThread someDesc) .publish = true ∧
    collects (envOf someThread) 0 someThread (some (.reg 1)) (srcA noPat .whole (v 1)) (srcB noPat .whole (v 1)) none = true := by
  refine ⟨?_, ?_, ?_, ?_, ?_⟩ <;> decide +kernel
theorem witness_EngineWords_known : knownOf { Engine.init with queue := [someCmd (.edcopy 3) .queued], next := 6 } 5 .pending ∧
    knownOf { Engine.init with done := [⟨5, 7, 0x0A, 0⟩], next := 6 } 5 (.status ⟨5, 7, 0x0A, 0⟩) ∧ knownOf { Engine.init with next := 6 } 5 .expired ∧
    knownOf { Engine.init with next := 6 } 6 .unknown ∧ waitTraps 0 ⟨5, 7, 0x0A, 0⟩ ∧ ¬waitTraps 3 ⟨5, 7, 0x0A, 0⟩ := by
  refine ⟨?_, ?_, ?_, ?_, ?_, ?_⟩ <;> simp [knownOf, waitTraps, Engine.init, someCmd]
/-- Commands of a media engine: pending, with a status, and the 64th and the 65th latest accepted. -/
theorem witness_EngineWords_media : knownMedia { Media.init with done := [(0, ⟨5, 9, 0, 3⟩)], next := [(0, 69)] } 0 5 (.status ⟨5, 9, 0, 3⟩) ∧
    knownMedia { Media.init with done := [(0, ⟨5, 9, 0, 3⟩)], next := [(0, 70)] } 0 5 .expired ∧ knownMedia { Media.init with next := [(0, 6)] } 0 6 .unknown ∧
    ¬waitTraps 3 ⟨5, 9, 0, 3⟩ := by
  refine ⟨?_, ?_, ?_, ?_⟩ <;> simp [knownMedia, waitTraps, Media.init, Table.getD, Table.find]
theorem witness_EngineSteps : let s := fun (len : Word) => enginesWith .bulk { Engine.init with queue := [someCmd (.cpy 64 0 len true true) .queued] }
    ((s 32).engineOf 0 .bulk).queue = [someCmd (.cpy 64 0 32 true true) .queued] ∧ (2 : Nat) ^ 32 < (0x100000001 : Word).toNat ∧ (0x100000000 : Word).toNat ≤ 2 ^ 32 ∧
    Table.find (s 32).groups 0 = some (groupOf someThread) ∧ Table.find (s 32).blocks (1 * 2 ^ 24 + 0) = some loadBlock ∧ 64 + 32 ≤ loadBlock.scratch ∧
    ((s 32).coreOf 0).banks = [] ∧ ((s 32).coreOf 0).waiters = [] ∧
    ((enginesWith .bulk { Engine.init with seq := some ⟨0, 1, 0, 0, [], 0, none, .slot⟩ }).engineOf 0 .bulk).seq = some ⟨0, 1, 0, 0, [], 0, none, .slot⟩ ∧
    ((enginesWith .bulk { Engine.init with queue := [someCmd (.edcopy 3) (.done 0 0)] }).engineOf 0 .bulk).queue = [someCmd (.edcopy 3) (.done 0 0)] := by
  refine ⟨?_, ?_, ?_, ?_, ?_, ?_, ?_, ?_, ?_, ?_⟩ <;> decide +kernel
/-- Four 64-bit elements within the scratchpad, summed by one participant; and two participants that differ in their counts. -/
def someColl : CollEntry := ⟨1, 2, 0, 0, 0, 0, 5, [64 + 4 * 2 ^ 128 + 3 * 2 ^ 176], [], [], 1⟩
theorem witness_EngineSteps_collective : let s := { enginesWith .coll { Engine.init with queue := [someCmd (.coll 0 2) .collWait] } with colls := [someColl] }
    (s.engineOf 0 .coll).queue = [someCmd (.coll 0 2) .collWait] ∧ parseColl (64 + 4 * 2 ^ 128 + 3 * 2 ^ 176) 1 = some ⟨64, 0, 4, 0, 0, true, true, 0⟩ ∧
    0 + 4 * collBytes 0 ≤ loadBlock.scratch ∧ 64 + 4 * collBytes 0 ≤ loadBlock.scratch ∧ Table.find s.groups 0 = some (groupOf someThread) ∧
    fieldAt (4 * 2 ^ 128) 16 6 ≠ fieldAt (5 * 2 ^ 128) 16 6 ∧
    (∃ i, i < 2 ∧ ∀ x ∈ [{ someColl with parts := 2 }], x.part ≠ i) := by
  refine ⟨?_, ?_, ?_, ?_, ?_, ?_, ⟨1, ?_⟩⟩ <;> decide +kernel
/-- A sequencer at a MOVI whose predicate selects it. -/
def sequencing : State := (State.reset.loadWord 0x8000300012345678).setEngine 0 .bulk { Engine.init with seq := some ⟨loadPc, 1, 0, 0, [], 0, none, .none⟩ }
theorem witness_EnginePrograms : (sequencing.engineOf 0 .bulk).seq = some ⟨loadPc, 1, 0, 0, [], 0, none, .none⟩ ∧
    (match sequencing.fetchWord (.engine 0 .bulk) 0 1 none loadPc with
      | (u, .got w none) => (Table.find u.groups 0).isSome && decide (Table.find u.grids 1 = some loadGrid) &&
          decide (decodeWord 7 w = .ok (.movi ⟨0, false⟩ (.reg 3) false 0x12345678))
      | _ => false) = true ∧ seqForm .bulk (.movi ⟨0, false⟩ (.reg 3) false 0x12345678) = some ⟨0, false⟩ ∧ seqForm .bulk (.movi ⟨0, false⟩ (.reg 30) false 0) = none ∧
    listedWord .gather (.mbswp ⟨0, false⟩) = false := by refine ⟨?_, ?_, ?_, ?_, ?_⟩ <;> decide +kernel
theorem witness_EnginePrograms_fork : GroupMet none (srcA noPat .whole (v 1)) (srcB noPat .whole (v 2)) (srcN .whole (v 3))
    (fun s e got => (got 0).a = 0 ∧ e.g.fork = none ∧ (s.engineOf e.core .bulk).seq = none ∧
      Table.find e.g.threads 0 = some (Thread.start loadPc 0) ∧ (Thread.start loadPc 0).poisoned = []) := groupMet (by decide +kernel) (by decide +kernel)

/-! ### The matrix path -/

def holding (m : Matrix) : State := full.setCore 0 { Core.init with matrix := { m with holder := some 0, granted := 2 } }
theorem witness_MatrixWords : holdsPath (holding Matrix.init) fullEnv (some 1) ∧ ¬holdsPath full fullEnv none ∧ outsideHandlers fullEnv ∧
    ¬holdsPath (full.setCore 0 { Core.init with matrix := { Matrix.init with holder := some 0, granted := 1 } }) fullEnv (some 1) ∧
    (holding Matrix.init).env? fullIssue = some fullEnv ∧
    (List.range 32).all (fun l => collects fullEnv l (Thread.start loadPc l) (some (.reg 1)) (srcA noPat .whole (v 2)) (srcB noPat .whole (v 3))
      (srcN .whole (v 4))) = true := by
  unfold holdsPath outsideHandlers inHandler
  refine ⟨⟨?_, ?_⟩, ?_, ?_, ?_, ?_, ?_⟩
  · decide +kernel
  · intro n h; cases h; decide +kernel
  · intro h; exact absurd h.1 (by decide +kernel)
  · decide +kernel
  · intro h; exact absurd (h.2 1 rfl) (by decide +kernel)
  · decide +kernel
  · decide +kernel
/-- Reads of one plane's 8,192 bytes and of none, within the scratchpad. -/
theorem witness_MatrixWords_reads : let c : MatCtx := ⟨.thread 0, 0, 0, 1, blockKey 1 0, 10, none, false, none⟩
    (0 : Word).toNat % 16 = 0 ∧ Table.find (holding Matrix.init).blocks c.block = some loadBlock ∧
    Table.find ((holding Matrix.init).spadDrain 0).blocks c.block = some loadBlock ∧ ((holding Matrix.init).spadDrain 0).groups = (holding Matrix.init).groups ∧
    loadGroup.spadCount = 0 ∧ (0 : Word).toNat + 8192 ≤ loadBlock.scratch ∧ loadBlock.spadPoison = [] := by
  refine ⟨?_, ?_, ?_, ?_, ?_, ?_, ?_⟩ <;> decide +kernel
theorem witness_MatrixSteps : ((holding { Matrix.init with loads := [⟨[]⟩] }).coreOf 0).matrix.loads = [⟨[]⟩] ∧
    ((holding { Matrix.init with mmas := [⟨1, 8⟩] }).coreOf 0).matrix.mmas = [⟨1, 8⟩] ∧
    (∀ j ∈ ((holding { Matrix.init with drains := [⟨0, true, true⟩] }).coreOf 0).matrix.drains, j.tile < 2) ∧
    (-1 : BitVec 32).toInt ≠ 0 := by refine ⟨?_, ?_, ?_, ?_⟩ <;> decide +kernel

/-- An MMA that has still to end keeps gstat's words waiting. -/
theorem witness_ControlRegisters_pending : (holding { Matrix.init with mmas := [⟨1, 8⟩] }).satPending 0 = true ∧
    (holding Matrix.init).satPending 0 = false := by constructor <;> decide +kernel

/-! ### Sidings, joins and launches -/

def someRec : Rec := { code := loadPc, frame := 0, join := 0, flags := 2, grid := 1, block := 0, clock := 0, slot := 0 }
def sided (id : Nat) : State := { single someThread with sidings := [(sidingFor 1 id, [someRec])] }
theorem witness_Sidings : flagsGood (single someThread) (envOf someThread) 2 ∧ ¬flagsGood (single someThread) (envOf someThread) 1 ∧ loadPc.toNat % 8 = 0 ∧
    roomIn (single someThread) (ownSiding (envOf someThread) false) ∧
    ¬roomIn { single someThread with sidings := [(sidingFor 1 0, List.replicate 4096 someRec)] } (sidingFor 1 0) ∧
    newestOf (sided 0) (groupOf someThread) [someRec] someRec [] ∧ oldestOf (sided 320) (groupOf someThread) [someRec] someRec [] ∧
    noneIn (sided 1) (groupOf someThread) (sidingFor 1 0) ∧ stealOrder 0 = [] ++ 1 :: (stealOrder 0).tail ∧
    (single someThread).restartable (envOf someThread) = false ∧ ((single someThread).before (envOf someThread) 0 .rel .core).isSome = true := by
  refine ⟨?_, ?_, ?_, ?_, ?_, ⟨[], [], rfl, rfl, ?_, by simp⟩, ⟨[], [], rfl, rfl, ?_, by simp⟩, ?_, ?_, ?_, ?_⟩
  · unfold flagsGood; decide +kernel
  · unfold flagsGood; decide +kernel
  · decide
  · unfold roomIn; decide +kernel
  · unfold roomIn; decide +kernel
  all_goals first | decide +kernel | (unfold noneIn; decide +kernel)
theorem witness_Sidings_room : let th := { someThread with status := .wait (.siding 1024 (.spush always .ident 1 false false)) }
    let d : Deferred := ⟨1024, 0, someRec, none⟩
    roomIn (single th) 1024 ∧ (single th).thread? 0 = some th ∧ 1024 = sidingFor 1 0 ∧
    (∀ e : Env, e.group = 0 / 32 → collect e (0 % 32) { th with status := .run } none (srcP .ident .whole ⟨.reg 1, false⟩) none none =
      .ok (gotten (envOf someThread) 0 someThread none (srcP .ident .whole (v 1)) none none)) ∧
    ({ single th with deferred := [d] } : State).deferred = [d] ∧ d.siding = 1024 ∧ d.undo = none ∧
    (∃ a : PendAtomic, ({ d with undo := some a } : Deferred).undo ≠ none) := by
  refine ⟨?_, ?_, ?_, fun e _ => rfl, ?_, ?_, ?_, ⟨⟨0, 0, 0, .int .u64, .add, 1, 0, 0, 0, false, 0, false, none⟩, ?_⟩⟩
  · unfold roomIn; decide +kernel
  all_goals decide +kernel
/-- The lowest place that is free: between two records, and behind them; and one record waits for another siding before the one for this. -/
theorem witness_Sidings_places : let s := fun (l : List Nat) => ({ single someThread with sidings := [(1024, l.map (fun i => { someRec with slot := i }))] } : State)
    FreeSlot (s [0, 2]) 1024 1 ∧ FreeSlot (s [1, 0]) 1024 2 ∧ FreeSlot (s []) 1024 0 ∧ (s [0, 2]).idsBusy 0 1 = false ∧
    (∀ x ∈ [(⟨1025, 0, someRec, none⟩ : Deferred)], x.siding ≠ 1024) ∧ roomIn (s [0, 2]) 1024 := by
  unfold FreeSlot roomIn; refine ⟨?_, ?_, ?_, ?_, ?_, ?_⟩ <;> decide +kernel
/-- A join block whose count is 1, with a record. -/
def joining : State := { writing with mem := Memory.write (Memory.write writing.mem 0x10000100 8 1) 0x10000108 8 loadPc.toNat }
theorem witness_JoinsAndLaunches : (match joining.check 0 1 pointerIn 40 8 (kindNeed .atomic) with
      | .ok xs => let w := joining.fillCaches 0 1 1 xs
        match xlatAt xs 0x100, w.before (envOf someThread) 0 .ar .pkg with
        | some x, some y => match y.atomicThrough (.thread 0) 0 1 (y.leaseOf 1) x 0x100 8 .join 0 with
          | (y1, .done old) => decide (old = 1) && (y1.poisonVa 0 xs 0x108 32).isNone && !(y1.heldBack 0 1 xs) &&
            (match y1.loadOwn (envOf someThread) 0 xs 0x108 32 with
              | (y2, some v) => decide (v = loadPc.toNat) && (y2.release 0 0 .core).isSome
              | _ => false)
          | _ => false
        | _, _ => false
      | .error _ => false) = true ∧ flagsGood joining (envOf someThread) 0 ∧ ¬flagsGood joining (envOf someThread) 8 ∧ entersOn someThread 0x02 ∧
    (∃ th : Thread, th.answer = some (1, pointerIn)) := by
  refine ⟨?_, ?_, ?_, ?_, ⟨{ someThread with answer := some (1, pointerIn) }, rfl⟩⟩
  · decide +kernel
  · unfold flagsGood; decide +kernel
  · unfold flagsGood; decide +kernel
  · unfold entersOn inHandler; decide +kernel
def queued (waiting : List Nat) : State :=
  { single someThread with contexts := [(1, { loadContext with queues := [(3, ⟨0x10004000, 2, 7, waiting⟩)] })] }
theorem witness_JoinsAndLaunches_queues : (queued []).queue? 1 3 = some ⟨0x10004000, 2, 7, []⟩ ∧ (queued [5, 6]).queue? 1 3 = some ⟨0x10004000, 2, 7, [5, 6]⟩ ∧
    (0x10004000 + 64 * (7 % 2)) % 64 = 0 ∧ lineIdle (queued []) ((0x10004000 + 64 * (7 % 2)) / 128) ∧
    (match (queued []).check 0 1 pointerIn 64 64 (kindNeed .load) with
      | .ok xs => match ((queued []).fillCaches 0 1 1 xs).before (envOf someThread) 0 .rel .pkg with
        | some y => match y.loadOwn (envOf someThread) 0 xs 0x100 64 with
          | (z, some p) => (z.enqueue (.thread 0) 1 3 ⟨0x10004000, 2, 7, []⟩ p 1).2
          | _ => false
        | none => false
      | .error _ => false) = true := by
  refine ⟨by decide +kernel, by decide +kernel, by decide, idle _ rfl rfl _, by decide +kernel⟩

/-! ### Issue and faults -/

theorem witness_Scheduling : ReadyAt (single someThread) 0 0 0 0 someThread ∧
    (∀ n, Table.find ((single someThread).coreOf 0).picks n = none) ∧ someThread.waited < 64 ∧ isReady someThread := by
  refine ⟨⟨by decide, by decide, groupOf someThread, ?_⟩, fun n => rfl, by decide, by unfold isReady; decide⟩
  unfold isReady; decide +kernel
/-- A thread in a YIELD interval with one cycle left, and one whose 64 are over, beside a ready one. -/
theorem witness_Scheduling_yield : let th := { someThread with yieldAt := some (0, [1]) }
    let s := fun (n : Nat) => { single th with groups := [(0, groupOf th), (1, groupOf someThread)], cycle := n }
    (s 63).thread? 0 = some th ∧ th.yieldAt = some (0, [1]) ∧ (s 63).cycle < 0 + 64 ∧ 0 + 64 ≤ (s 64).cycle ∧
    (s 63).thread? ((0 * 32 + 0 / 8 * 8 + 1) * 32 + 0) = some someThread := by refine ⟨?_, ?_, ?_, ?_, ?_⟩ <;> decide +kernel
theorem witness_Scheduling_conv : let w := { someThread with status := .wait .conv }
    let g := { groupOf w with threads := [(0, w), (1, { w with status := .retired })] }
    let s := { single w with groups := [(0, g)] }
    Table.find s.groups 0 = some g ∧ Table.sorted g.threads = true ∧ (∀ p ∈ g.threads, p.1 < 32) ∧ s.mayIssue 0 g = true ∧
    (∃ p ∈ g.threads.filter (fun p => decide (p.2.status ≠ .retired)), p.2.status = .wait .conv ∧ ¬inHandler p.2) := by
  unfold inHandler; refine ⟨?_, ?_, ?_, ?_, ?_⟩ <;> decide +kernel
def someFault : FaultEntry := ⟨9, 0x40, 0, 0, 0, 1, 0, 0, 0, none, .unanswered⟩
def faulty (th : Thread) (q : FaultQueue) : State := { single th with contexts := [(1, { loadContext with faults := [(0, q)] })] }
theorem witness_FaultQueues : ringFull ⟨9 + 4096, [someFault], []⟩ ∧ ¬ringFull ⟨9 + 4095, [someFault], []⟩ ∧
    Table.find (faulty someThread ⟨10, [someFault], []⟩).contexts 1 = some { loadContext with faults := [(0, ⟨10, [someFault], []⟩)] } ∧
    queueOf { loadContext with faults := [(0, ⟨10, [someFault], []⟩)] } 0 = ⟨10, [someFault], []⟩ ∧
    (faulty { someThread with status := .parkFull } ⟨10, [], [someFault]⟩).thread? 0 = some { someThread with status := .parkFull } ∧
    (faulty { someThread with status := .park 0 9 } ⟨10, [{ someFault with state := .replayable }], []⟩).thread? 0 = some { someThread with status := .park 0 9 } ∧
    Table.sorted [((0 : Nat), (⟨10, [someFault], []⟩ : FaultQueue))] = true ∧ (∀ p ∈ (groupOf someThread).threads, p.1 < 32 ∧ ¬inHandler p.2) := by
  unfold ringFull inHandler; refine ⟨?_, ?_, ?_, ?_, ?_, ?_, ?_, ?_⟩ <;> decide +kernel
/-! ### The yard and the ends of blocks -/

/-- A record of one level with one block of one group, and a packet that names it. -/
def launchRecord : Nat := 2 ^ 64 + 2 * 2 ^ 72 + 2 ^ 80 + 2 ^ 88 + 2 ^ 256 + 2 ^ 288
def packetWaits (parent : Nat) : State :=
  { queued [0] with mem := [(43, 16), (48, 63), (0x3A50000, 1), (0x3A50002, 0xA6), (0x3A50003, 3), (0x3A60000, 0x17), (0x3A60003, 0x10),
    (0x10002008, 1), (0x10002009, 2), (0x1000200A, 1), (0x1000200B, 1), (0x10002020, 1), (0x10002024, 1),
    (0x10004001, 0x20), (0x10004006, 0x40), (0x10004009, 0x10), (0x1000400E, 0x40)] ++ (if parent = 1 then [(0x10004020, 1)] else []) }
theorem witness_GridsAndBlocks_packets : (packetWaits 0).queue? 1 3 = some ⟨0x10004000, 2, 7, [0]⟩ ∧ runs (packetWaits 0) 1 ∧
    lineIdle (packetWaits 0) (0x10004000 / 128) ∧ (packetWaits 0).grids.length < 256 ∧
    (let p := Memory.read (packetWaits 0).mem 0x10004000 64
     Table.find (packetWaits 0).grids (fieldAt p 32 8) = none ∧ fieldAt p 24 8 = 0) ∧
    (∃ g, Table.find (packetWaits 1).grids (fieldAt (Memory.read (packetWaits 1).mem 0x10004000 64) 32 8) = some g) := by
  refine ⟨?_, ⟨{ loadContext with queues := [(3, ⟨0x10004000, 2, 7, [0]⟩)] }, ?_⟩, idle _ rfl rfl _, ?_, ⟨?_, ?_⟩, ⟨loadGrid, ?_⟩⟩ <;> decide +kernel
def somePacket : Nat := 0x0040000000002000 + loadPc.toNat * 2 ^ 64
def packetRead : State × Option Nat := (packetWaits 0).yardRead 1 (physParts 0x10004000 64 0)
def recordRead : State × RecordRead := packetRead.1.readRecord 1 somePacket
/-- The bytes of a line, read one by one. -/
theorem byteList_line {s : State} {L : Nat} {a : LineData} (h : s.lineNow L = a) : ∀ n k, k + n ≤ 128 →
    s.byteList (128 * L + k) n = (List.range' k n).map (fun i => BitVec.ofNat 8 (LineData.read a i 1))
  | 0, _, _ => rfl
  | n + 1, k, hk => by
    have hd : (128 * L + k) / 128 = L := by omega
    have hm : (128 * L + k) % 128 = k := by omega
    simp only [State.byteList, State.bytesNow, hd, hm, h, Nat.mul_zero, Nat.add_zero, List.range'_succ, List.map_cons]
    rw [show 128 * L + k + 1 = 128 * L + (k + 1) by omega, byteList_line h n (k + 1) (by omega)]
theorem yardRead_of {s : State} {ctx : Nat} {l : List (Nat × Nat × Nat)} (h : (s.partsReady ctx l).2 = true) :
    s.yardRead ctx l = ((s.partsReady ctx l).1, some (leNat ((s.partsReady ctx l).1.partBytes l))) := by
  unfold State.yardRead
  split
  · next t hb => simp [hb] at h
  · next t hb => simp [hb]
def packetReady : State := ((packetWaits 0).partsReady 1 (physParts 0x10004000 64 0)).1
theorem packetBytes_of : packetReady.partBytes (physParts 0x10004000 64 0) =
    (List.range' 0 64).map (fun i => BitVec.ofNat 8 (LineData.read (BitVec.ofNat 1024 somePacket) i 1)) := by
  have h : packetReady.lineNow 0x200080 = BitVec.ofNat 1024 somePacket := by decide +kernel
  have hp : physParts 0x10004000 64 0 = [(0x10004000, 64, 0)] := by decide +kernel
  rw [hp]; simpa [State.partBytes, isControl] using byteList_line h 64 0 (by decide)
theorem packetRead_eq : packetRead = (packetReady, some somePacket) := by
  rw [packetRead, yardRead_of (by decide +kernel)]
  exact congrArg (fun x => (packetReady, some (leNat x))) packetBytes_of |>.trans (by
    rw [show leNat ((List.range' 0 64).map (fun i => BitVec.ofNat 8 (LineData.read (BitVec.ofNat 1024 somePacket) i 1))) = somePacket by decide +kernel])
def recordParts : List (Nat × Nat × Nat) := [(0x10002000, 128, 0), (0x10002080, 128, 0)]
def recordReady : State := (packetReady.partsReady 1 recordParts).1
def recordPage : List Xlat := [⟨0x2000, 0x10002000, 256, 0, false, 0, none, 0x10000017, true⟩]
theorem recordBytes_of : recordReady.partBytes recordParts = (List.range' 0 128).map (fun i => BitVec.ofNat 8 (LineData.read
    (BitVec.ofNat 1024 launchRecord) i 1)) ++ (List.range' 0 128).map (fun i => BitVec.ofNat 8 (LineData.read 0 i 1)) := by
  have h0 : recordReady.lineNow 0x200040 = BitVec.ofNat 1024 launchRecord := by decide +kernel
  have h1 : recordReady.lineNow 0x200041 = 0 := by decide +kernel
  simpa [State.partBytes, recordParts, isControl] using
    congr (congrArg HAppend.hAppend (byteList_line h0 128 0 (by decide))) (byteList_line h1 128 0 (by decide))
theorem recordRead_eq : recordRead = (recordReady, .got launchRecord) := by
  have hc : packetReady.check noCore 1 (word (field somePacket 0 8)) 256 64 Need.load = .ok recordPage := by decide +kernel
  have hy : packetReady.yardRead 1 recordParts = (recordReady, some launchRecord) := by
    rw [yardRead_of (by decide +kernel)]
    exact congrArg (fun x => (recordReady, some (leNat x))) recordBytes_of |>.trans (by
      rw [show leNat ((List.range' 0 128).map (fun i => BitVec.ofNat 8 (LineData.read (BitVec.ofNat 1024 launchRecord) i 1)) ++
        (List.range' 0 128).map (fun i => BitVec.ofNat 8 (LineData.read 0 i 1))) = launchRecord by decide +kernel])
  have hp : packetOk somePacket = true := by decide +kernel
  have ha : recordPage.any (fun x => isAperture x.pa) = false := by decide +kernel
  have hm : mediaParts recordPage [(vaOf (word (field somePacket 0 8)), 256, 0)] = recordParts := by decide +kernel
  have hf : (recordFits launchRecord && decide ((if field somePacket 8 8 = 0 then field launchRecord 0 8 else field somePacket 8 8) % 8 = 0)) = true := by
    decide +kernel
  rw [recordRead, packetRead_eq]
  simp [State.readRecord, hp, hc, ha, hm, hy, hf]
theorem witness_GridsAndBlocks_record : packetRead = (packetReady, some somePacket) ∧ packetReady.grids = (packetWaits 0).grids ∧
    recordRead = (recordReady, .got launchRecord) ∧ recordReady.grids = packetReady.grids ∧ unasked (packetWaits 0) .host :=
  ⟨packetRead_eq, by decide +kernel, recordRead_eq, by decide +kernel, noneAsks _ rfl _⟩
theorem cannotFit_of {s : State} {p v : Nat} (now : Nat) (clock : Option (BitVec 16)) (hg : recGang v = 2) :
    s.cannotFit (gridOf 1 3 0 p v now clock) = s.cannotFit (gridOf 1 3 0 p v 0 none) := by
  simp [State.cannotFit, placeMember, placeBlock, Room.fit, gridOf, hg, Grid.lcnt]
/-- Its grid fits, whenever it starts. -/
theorem witness_GridsAndBlocks_fit (now : Nat) (clock : Option (BitVec 16)) :
    recordReady.cannotFit (gridOf 1 3 0 somePacket launchRecord now clock) = false :=
  (cannotFit_of now clock (by decide +kernel)).trans (by decide +kernel)
def smallGrid : Grid := { loadGrid with top := 2, gang := 2, domains := [1], counts := [1], pendingBlocks := [0], regs := 1, scratch := 0 }
def yardState (n : Nat) : State := { single someThread with groups := [], blocks := [], grids := [(1, smallGrid)], issue := [], cycle := n }
theorem witness_GridsAndBlocks_place : runs (yardState 0) 1 ∧ (match smallGrid.place 1 (smallGrid.memberAt 0 (smallGrid.unitLevel - 2)) (yardState 0).rooms with
      | some y => match y.places with
        | [p] => decide (p.block = 0) && decide (p.core / 40 < 8) && decide p.slots.Nodup && (yardState 0).poolRoom 1 p.slots.length
        | _ => false
      | none => false) = true ∧ (∀ c ∈ (yardState 0).contexts, c.2.phase ≠ .preempted) ∧
    (yardState 1572863).fabric < 0 + 2 ^ 20 ∧ 0 + 2 ^ 20 ≤ (yardState 1572864).fabric ∧ smallGrid.members = [] ∧
    (∀ c, ((yardState 0).coreOf c).reserved ≠ some (keyOf 1 0)) ∧ ((yardState 0).coreOf 0).inService = true := by
  refine ⟨⟨loadContext, ?_⟩, ?_, ?_, ?_, ?_, ?_, fun c h => ?_, ?_⟩
  case refine_7 => exact nomatch (show none = some (keyOf 1 0) from h)
  all_goals decide +kernel
/-- A grid that needs the whole scratchpad of the one core in service, where a grid of lower priority runs. -/
def wanting : State :=
  { single someThread with
    cores := (List.range 319).map (fun c => (c + 1, { Core.init with inService := false }))
    contexts := [(1, loadContext), (2, loadContext)]
    grids := [(1, loadGrid), (2, { smallGrid with ctx := 2, scratch := 917504, priority := 3 })] }
theorem witness_GridsAndBlocks_victim : (let g := { smallGrid with ctx := 2, scratch := 917504, priority := 3 }
     Table.find wanting.grids 2 = some g ∧ 0 ∈ g.pendingBlocks ∧ runs wanting 2 ∧ g.place 2 (g.memberAt 0 (g.unitLevel - 2)) wanting.rooms = none ∧
     wanting.victim 2 g (g.memberAt 0 (g.unitLevel - 2)) = some 1) ∧ wanting.cutDone 1 = true ∧ Table.sorted wanting.groups = true := by
  refine ⟨⟨?_, ?_, ⟨loadContext, ?_⟩, ?_, ?_⟩, ?_, ?_⟩ <;> decide +kernel
/-- A block that waits to be relaunched may take a core that is not the one on which it was contained, and has waited as long as it must. -/
theorem witness_GridsAndBlocks_relaunch : let r : Relaunch := ⟨0, 5, 1, 0⟩
    let g := { smallGrid with pendingBlocks := [], relaunch := [r] }
    let s := { yardState 1572864 with grids := [(1, g)] }
    Table.find s.grids 1 = some g ∧ 0 ∉ g.pendingBlocks ∧ g.relaunch.find? (fun x => decide (x.block = 0)) = some r ∧ r.since + 2 ^ 20 ≤ s.fabric ∧
    relaunchAllowed g r 8 = true ∧ relaunchAllowed g r 5 = false ∧ (s.coreOf 8).inService = true ∧ (∀ q ∈ s.grids, q.2.order < 1) := by
  refine ⟨?_, ?_, ?_, ?_, ?_, ?_, ?_, ?_⟩ <;> decide +kernel
theorem witness_GridsAndBlocks_ends : let s := { yardState 0 with grids := [(1, { smallGrid with pendingBlocks := [], completion := 0x0040000000000108 })], mem := writing.mem }
    (∀ b ∈ s.blocks, b.2.grid ≠ 1) ∧ Table.sorted s.grids = true ∧ s.draftPinned 1 [] = false ∧ s.replicated = [] ∧ unasked s .host ∧
    (match s.check 320 1 0x0040000000000108 8 8 (kindNeed .store) with
      | .ok [x] => decide (x.pa < 2 ^ 38) && decide (x.pa % 8 = 0) && !(s.draftPinned 1 [x])
      | _ => false) = true := by refine ⟨?_, ?_, ?_, ?_, noneAsks _ rfl _, ?_⟩ <;> decide +kernel
def retiredState : State := { single { someThread with status := .retired } with issue := [] }
theorem witness_BlockEnds : Table.find retiredState.groups 0 = some (groupOf { someThread with status := .retired }) ∧
    Table.find retiredState.blocks (keyOf 1 0) = some loadBlock ∧ loadBlock.stopped = none ∧ retiredState.drains 0 = false ∧
    (retiredState.setCore 0 { Core.init with pend := [someStore] }).drains 0 = true ∧
    Table.find retiredState.groups (trackKey 0 0) = none ∧ (∀ l, unasked retiredState (.thread l)) ∧ (groupOf { someThread with status := .retired }).holds = [] ∧
    Table.sorted retiredState.groups = true ∧
    Table.sorted retiredState.blocks = true ∧ (∀ p ∈ retiredState.groups, p.1 = 0) := by
  refine ⟨?_, ?_, ?_, ?_, ?_, ?_, fun l => noneAsks _ rfl _, ?_, ?_, ?_, ?_⟩ <;> decide +kernel
/-- A group that leaves its slot while it holds the matrix path, with a tile to be drained and with none. -/
theorem witness_BlockEnds_path : let s := fun (m : Matrix) => retiredState.setCore 0 { Core.init with matrix := { m with holder := some 0 }, pend := [someStore] }
    ((s Matrix.init).coreOf 0).matrix.holder = some 0 ∧ ((s Matrix.init).coreOf 0).matrix.drains = [] ∧ (s Matrix.init).drains 0 = true ∧
    ((s { Matrix.init with drains := [⟨0, true, true⟩] }).coreOf 0).matrix.drains ≠ [] ∧
    (∀ m, m < 1 → Table.find ({ retiredState with groups := retiredState.groups ++ [(trackKey 0 0, groupOf someThread)] } : State).groups (trackKey 0 m) ≠ none) := by
  refine ⟨?_, ?_, ?_, ?_, ?_⟩ <;> decide +kernel
def stoppedBy : Failure := ⟨0x18, 0, loadPc, 1, 0, 0, 0⟩
def blockState (b : Block) : State :=
  { yardState 0 with blocks := [(keyOf 1 0, b)], grids := [(1, { smallGrid with pendingBlocks := [], restartable := true, domains := [1], relaunch := [⟨0, 5, 1, 0⟩] })] }
theorem witness_BlockEnds_commit : let b := { loadBlock with restartable := true, store := [.store 0 pointerIn 0x10000100 8 7, .store 0 pointerIn 0x10000108 8 9] }
    Table.find (blockState b).blocks (keyOf 1 0) = some b ∧ Table.sorted (blockState b).blocks = true ∧ lineIdle (blockState b) (0x10000100 / 128) ∧
    (∀ p ∈ (blockState b).groups, keyOf p.2.grid p.2.block ≠ keyOf 1 0) ∧ (blockState b).replicated = [] ∧ (blockState b).peerSent = [] ∧
    ((blockState b).coreOf 0).pend = [] ∧ (∀ x ∈ b.store, ∃ th p loc n v, x = .store th p loc n v ∧ 0 < n ∧ loc + n ≤ 2 ^ 38 ∧ loc % 128 + n ≤ 128) ∧ (blockState b).idsBusy 0 1 = false ∧
    unasked (blockState b) (.posted 0) :=
  ⟨by decide +kernel, by decide +kernel, idle _ rfl rfl _, by decide +kernel, rfl, rfl, rfl,
    by rintro x h; rcases (by simpa using h : _ ∨ _) with rfl | rfl <;> exact ⟨_, _, _, _, _, rfl, by decide, by decide, by decide⟩, by decide +kernel, noneAsks _ rfl _⟩
theorem witness_BlockEnds_containment : let b := { loadBlock with stopped := some stoppedBy }
    Table.find (blockState b).blocks (keyOf 1 0) = some b ∧ b.grid = 1 ∧ b.index = 0 ∧ allQuiet (blockState b) ∧ runs (blockState b) 1 ∧
    (let g := { smallGrid with pendingBlocks := [], restartable := true, domains := [1], relaunch := [⟨0, 5, 1, 0⟩] }
     (placeBlock g 1 0 (relaunchAllowed g ⟨0, 5, 1, 0⟩) ⟨(blockState b).rooms, g.members, []⟩).isSome = true ∧
       (placeBlock g 1 0 (relaunchAllowed g ⟨0, 5, 1, 0⟩) ⟨[], g.members, []⟩).isSome = false) := by
  refine ⟨?_, ?_, ?_, ⟨?_, ?_, ?_⟩, ⟨loadContext, ?_⟩, ?_, ?_⟩ <;> decide +kernel

/-! ### The device -/

theorem witness_Errors : countOf full 1 0 7 < thresholdOf full 1 ∧
    thresholdOf { full with thresholds := [(1, 1)] } 1 ≤ countOf { full with thresholds := [(1, 1)] } 1 0 7 ∧ (1, 0, 7) ∉ full.failing ∧
    Table.find (groupOf someThread).threads 0 = some someThread ∧ Table.find someThread.v 2 = some 5 ∧
    (∃ p ∈ (single someThread).groups, keyOf p.2.grid p.2.block = keyOf 1 0) ∧ ((single someThread).coreOf 0).inService = true ∧
    (single someThread).cutDone 1 = true ∧ runs (single someThread) 1 ∧ ((yardState 0).coreOf 0).inService = true ∧
    (∀ p ∈ (yardState 0).groups, p.1 / 32 ≠ 0) ∧ full.reqRecords = [] ∧
    (∃ r ∈ ({ full with reqRecords := [⟨0, 3, 9, 0⟩] } : State).reqRecords, r.core = 3 ∧ r.id.toNat = 9) := by
  refine ⟨?_, ?_, ?_, ?_, ?_, ?_, ?_, ?_, ⟨loadContext, ?_⟩, ?_, ?_, ?_, ?_⟩ <;> decide +kernel
theorem witness_Errors_commit : let b := { loadBlock with restartable := true }
    commits (blockState b) (keyOf 1 0) b ∧ Table.find (blockState b).blocks (keyOf 1 0) = some b ∧ Table.sorted (blockState b).blocks = true ∧
    Table.find (blockState b).contexts b.ctx = some loadContext ∧ loadContext.failure = none :=
  ⟨⟨rfl, by decide +kernel⟩, by decide +kernel, by decide +kernel, by decide +kernel, rfl⟩
/-- A request from die 0 to die 7 crosses four boundaries; one to its own die crosses none. -/
theorem witness_Errors_routes : let s := fun (pa : Nat) => full.setCore 0 { Core.init with pend := [{ someStore with pa := pa }] }
    (s 0x3810000100).requestLinks 0 0 ≠ [] ∧ (s 0x10000100).requestLinks 0 0 = [] ∧ routeDies 0 7 = [0, 1, 2, 3, 7] ∧ routeDies 7 0 = [7, 6, 5, 4, 0] ∧
    (((s 0x3810000100).coreOf 0).pend.find? (fun q => decide (q.id.toNat = 0))).isSome = true ∧ someStore.replicated = false := by
  refine ⟨?_, ?_, ?_, ?_, ?_, ?_⟩ <;> decide +kernel
def boxed (status : Word) (cmd : Table Word) : State := { single someThread with mailboxes := [(3, ⟨9, false, status, cmd, []⟩)] }
def someAck : AckWait := ⟨3, 1, 1, [], true, [0, 1], 0⟩
/-- A SEMW of the first thread that waits at the first word of tag 1's page. -/
def someWait : SemWait := ⟨pointerIn, 0x10000100, ⟨0x100, 0x10000100, 8, 0, false, 0, none, 0x1000000F, true⟩, .thread 0, 1, true, 10⟩
theorem witness_DeviceSteps : (∀ c, c < 320 → ∀ n ∈ neighbours (c / 40),
      leT ((full.coreOf c).clock + 1) (Table.getD (full.dieOf (c / 40)).heard n 0 + 1024) = true) ∧ Table.sorted full.cores = true ∧
    ¬isReadyBox ((boxed 0 []).mailboxOf 3) ∧ isReadyBox ((boxed 0x8000000100000000 []).mailboxOf 3) ∧ isBusyBox ((boxed 0x8000000100000000 []).mailboxOf 3) ∧
    ¬isBusyBox ((boxed 0x8000000000000000 []).mailboxOf 3) ∧ captures ⟨0xFFFF010A, 0, 0, 0, []⟩ 10 1 ∧ captures ⟨0x00010101, 0, 0, 0, []⟩ 1 1 ∧
    ¬captures ⟨0x0001010B, 0, 0, 0, []⟩ 11 1 ∧ performed full 0 someAck ∧
    ¬performed (full.setCore 0 { Core.init with pend := [someStore] }) 0 someAck ∧ ¬performed { full with semWaits := [someWait] } 0 someAck ∧
    ({ full with acks := [someAck] } : State).acks = [someAck] ∧ performed full 321 someAck := by
  refine ⟨?_, ?_, ?_, ?_, ?_, ?_, ?_, ?_, ?_, ?_, ?_, ?_, ?_, ?_⟩
  · decide +kernel
  · decide +kernel
  all_goals first | decide +kernel | (unfold isReadyBox; decide +kernel) | (unfold isBusyBox; decide +kernel) | (unfold captures; decide +kernel) |
    (unfold performed; decide +kernel)
/-! ### Media -/

def someMedia (desc : Nat) (ph : MediaPhase) (op : Nat) : MediaCmd :=
  ⟨0, 0, 1, 0, blockKey 1 0, [], pointerIn, desc, [], [], [], [], [], [⟨0x40, 0x10000140, 8, 2, false, 0, none, 0, true⟩], 0, 0, ph, op⟩
def playing (c : MediaCmd) : State := { writing with media := [(2, { Media.init with queue := [c] })] }
/-- The least frame, 16 by 16, of a decode; and a command of zeros, which is malformed. -/
theorem witness_MediaSteps : mediaGood (2 ^ 32 + 16 * 2 ^ 384 + 16 * 2 ^ 400) ∧ ¬mediaGood 0 ∧
    ((playing (someMedia 0 .queued 0)).mediaOf 2).queue = [someMedia 0 .queued 0] ∧
    (playing (someMedia 0 .queued 0)).check 0 1 pointerIn 64 1 (kindNeed .engRead) = .ok [⟨0x100, 0x10000100, 64, 0, false, 0, none, 0x1000000F, true⟩] ∧
    Memory.read (playing (someMedia 0 .queued 0)).mem 0x10000100 64 = 0 ∧ lineIdle (playing (someMedia 0 .queued 0)) (0x10000100 / 128) ∧
    (∀ w ∈ (playing (someMedia 0 .filtered 0)).semWaits, w.pa ≠ 0x10000140) ∧ atHomeOf 0 0x10000140 8 ∧ semFull 1 1 ∧ ¬semFull 0 1 ∧
    lineIdle (playing (someMedia 0 .filtered 0)) (0x10000140 / 128) ∧ unasked (playing (someMedia 0 .queued 0)) (.media 2) ∧
    (playing (someMedia 0 .queued 0)).poison = [] ∧ pointerIn.toNat % 2 ^ 54 + 64 ≤ 2 ^ 54 := by
  refine ⟨?_, ?_, ?_, ?_, ?_, idle _ rfl rfl _, ?_, ?_, ?_, ?_, idle _ rfl rfl _, noneAsks _ rfl _, ?_, ?_⟩
  all_goals first | decide +kernel | (unfold mediaGood; decide +kernel) | (unfold atHomeOf; decide +kernel) | (unfold semFull; decide +kernel)
/-- A row ends at a break of its stream or not; one with nothing to write has its parts idle. -/
theorem witness_MediaSteps_rows (c : MediaCmd) (d r : Nat) (l : List Byte) : (Config.mediaBroken d l r = true ∨ Config.mediaBroken d l r = false) ∧
    partsIdle (playing c) [] ∧ partsIdle (playing c) [(0x10000100, 128, 7)] := by
  refine ⟨(Bool.eq_false_or_eq_true _), fun q h => (nomatch h), fun q h => ?_⟩
  obtain rfl : q = (0x10000100, 128, 7) := by simpa using h
  exact ⟨by decide, by decide, by decide, idle _ rfl rfl _⟩

/-- A command whose groups filter its rows: the next filtered row is owed, or taken; a signal on a replicated page; a broken stream. -/
theorem witness_MediaSteps_filtered (ph : MediaPhase) : let d := 0x10000 + 16 * 2 ^ 384 + 16 * 2 ^ 400
    (someMedia d ph 0).external = true ∧ (someMedia 0 ph 0).external = false ∧ ({ someMedia d ph 0 with row := 1 }).taken < 1 ∧
    ({ someMedia d ph 0 with row := 1, taken := 1 }).row ≤ 1 ∧ (someMedia d ph 0).rowX = [] ∧ (someMedia d ph 0).rowPtr = 0 ∧
    16 ≤ (someMedia d ph 0).height ∧ (playing (someMedia d ph 0)).replicated = [] ∧ (playing (someMedia d ph 0)).peerSent = [] ∧
    (playing (someMedia d ph 0)).idsBusy 0 1 = false ∧ (∃ x, ({ someMedia d ph 0 with rowX := [x] }).rowX = [x] ∧ x.repl = true ∧ x.pa < 2 ^ 38) := by
  refine ⟨(by decide +kernel : (someMedia (0x10000 + 16 * 2 ^ 384 + 16 * 2 ^ 400) .queued 0).external = true),
    (by decide +kernel : (someMedia 0 .queued 0).external = false), Nat.one_pos, le_refl 1, rfl,
    (by decide +kernel : (someMedia (0x10000 + 16 * 2 ^ 384 + 16 * 2 ^ 400) .queued 0).rowPtr = 0), (by decide +kernel : 16 ≤ (someMedia (0x10000 + 16 * 2 ^ 384 + 16 * 2 ^ 400) .queued 0).height), rfl, rfl, rfl,
    ⟨⟨0x40, 0x10000140, 8, 2, true, 0, none, 0, true⟩, rfl, rfl, by decide⟩⟩
/-! ### The firmware's commands -/

/-- A command rung at mailbox 3. -/
def rung (code ctx : Nat) (ws : Table Word) : State :=
  { boxed 0x8000000100000000 ((0, BitVec.ofNat 64 (code + ctx * 2 ^ 16)) :: ws) with doorbells := [3] }
theorem rings {code ctx : Nat} {ws : Table Word} (h : (BitVec.ofNat 64 (code + ctx * 2 ^ 16)).toNat = code + ctx * 2 ^ 16) (hc : code < 2 ^ 8)
    (hx : ctx < 2 ^ 16) : Rings (rung code ctx ws) 3 code ctx :=
  ⟨⟨[], rfl⟩, fun _ h => (nomatch h), h, hc, hx⟩
theorem witness_ContextCommands_create : let s : State := { rung 0x01 0 [(1, 1), (2, 0x20000000), (3, 0x4000000)] with contexts := [] }
    Rings s 3 0x01 0 ∧ operand s 3 1 < 4 ∧ operand s 3 1 / 2 ≠ 1 ∧ 2 ^ 26 ≤ operand s 3 3 ∧ operand s 3 2 % 65536 = 0 ∧ operand s 3 3 % 65536 = 0 ∧
    s.populatedRange (operand s 3 2) (operand s 3 3) = true ∧ s.outsideAreas (operand s 3 2) (operand s 3 3) = true ∧ s.contexts.length < 65535 ∧
    Table.sorted s.contexts = true ∧ (s.mailboxOf 3).fromHost = false ∧ s.inUse (operand s 3 2) (operand s 3 3) = false ∧
    (rung 0x01 0 []).inUse 0x10000000 0x4000000 = true := by
  refine ⟨⟨⟨[], rfl⟩, fun _ h => (nomatch h), by decide +kernel, by decide, by decide⟩, ?_, ?_, ?_, ?_, ?_, ?_, ?_, ?_, ?_, ?_, ?_, ?_⟩ <;> decide +kernel
theorem witness_ContextCommands_destroy : let s := { rung 0x02 1 [] with contexts := [(1, { loadContext with phase := .ending })], groups := [], blocks := [], grids := [] }
    Rings s 3 0x02 1 ∧ Rings (rung 0x02 1 []) 3 0x02 1 ∧ ¬nothingOf (rung 0x02 1 []) 1 ∧ nothingOf s 1 ∧ Table.sorted s.contexts = true := by
  refine ⟨⟨⟨[], rfl⟩, fun _ h => (nomatch h), by decide +kernel, by decide, by decide⟩, rings (by decide) (by decide) (by decide), ?_, ?_, by decide⟩
  · rintro ⟨h, -⟩; exact h (keyOf 1 0, loadBlock) (by decide +kernel) rfl
  · exact ⟨fun p h => (nomatch h), fun p h => (nomatch h), fun p h => (nomatch h), fun p h => (nomatch h), fun p h => (nomatch h)⟩
theorem ringsFor {code ctx : Nat} {ws : Table Word} (h : (BitVec.ofNat 64 (code + ctx * 2 ^ 16)).toNat = code + ctx * 2 ^ 16) (hc : code < 2 ^ 8)
    (hx : ctx = 1) : RingsFor (rung code ctx ws) 3 code ctx loadContext := by
  subst hx; exact ⟨rings h hc (by decide), by decide, rfl, by decide⟩
/-- MAP of one page at virtual 2^30, from physical 0x30000000, and of an edition buffer of one page with one view. -/
theorem witness_ContextCommands_map : let s := rung 0x03 1 [(2, 0x40000000), (3, 0x30000000), (4, 0xC), (5, 1)]
    RingsFor s 3 0x03 1 loadContext ∧ operand s 3 1 % 256 ≠ 1 ∧ operand s 3 4 / 8 % 4 ≠ 3 ∧
    s.framesRefused (operand s 3 3) (operand s 3 5 * 65536) (BitVec.ofNat 64 (operand s 3 4)) = false ∧
    s.framesRefused 0x2000000 65536 0xC = true ∧
    (s.putLeaves 1 (operand s 3 2) (operand s 3 4 / 4 * 4 + operand s 3 3 + 3) 65536 false (operand s 3 5)).isSome = true := by
  refine ⟨ringsFor (by decide) (by decide) rfl, ?_, ?_, ?_, ?_, ?_⟩ <;> decide +kernel
/-- MAP of a control page, uncached, by a context that is no service. -/
theorem witness_ContextCommands_control : let s := rung 0x03 1 [(2, 0x40000000), (3, 0x4000000000), (4, 0x4C), (5, 1)]
    RingsFor s 3 0x03 1 loadContext ∧ s.framesRefused (operand s 3 3) (operand s 3 5 * 65536) (BitVec.ofNat 64 (operand s 3 4)) = false ∧
    2 ^ 38 ≤ operand s 3 3 ∧ operand s 3 3 < 2 ^ 38 + 2 ^ 31 ∧ loadContext.service = false := by
  refine ⟨ringsFor (by decide) (by decide) rfl, ?_, ?_, ?_, ?_⟩ <;> decide +kernel
theorem witness_ContextCommands_editions : let s := rung 0x03 1 [(1, 1), (2, 3), (3, 0x40000000), (4, 0), (5, 1), (6, 0x30000000), (7, 0x30010000)]
    RingsFor s 3 0x03 1 loadContext ∧ operand s 3 1 % 256 = 1 ∧ s.desc? 1 (operand s 3 2) = none ∧ mapEditionOk (s.mailboxOf 3) = true ∧
    s.backingsOk (s.mailboxOf 3) = true ∧ (s.mapViews (s.mailboxOf 3) true).isSome = true ∧ Memory.wf s.mem = true := by
  refine ⟨ringsFor (by decide) (by decide) rfl, ?_, ?_, ?_, ?_, ?_, ?_⟩ <;> decide +kernel
theorem witness_ContextCommands_unmap : let s := rung 0x04 1 [(2, 0), (3, 1)]
    RingsFor s 3 0x04 1 loadContext ∧ operand s 3 2 % 65536 = 0 ∧ operand s 3 2 + operand s 3 3 * 65536 ≤ 2 ^ 54 ∧
    (s.clearLeaves 1 (operand s 3 2) (operand s 3 3)).isSome = true := by
  refine ⟨ringsFor (by decide) (by decide) rfl, ?_, ?_, ?_⟩ <;> decide +kernel
/-- A key that is installed nowhere, and a packet for a queue with room and for one without. -/
theorem witness_ContextCommands_launch : let s := fun (w : List Nat) => { rung 0x06 1 [(1, 3), (2, 0x10004000)] with contexts := (queued w).contexts }
    (rung 0x05 1 [(5, 0x10000000)]).memoryAt 0x10000000 1952 = true ∧ loadContext.keys = [] ∧
    (s []).queue? 1 3 = some ⟨0x10004000, 2, 7, []⟩ ∧ (s [5, 6]).queue? 1 3 = some ⟨0x10004000, 2, 7, [5, 6]⟩ ∧
    (s []).memoryAt (operand (s []) 3 2) 64 = true ∧ operand (s []) 3 1 ≤ 63 ∧ lineIdle (s []) (operand (s []) 3 2 / 128) ∧
    unasked (s []) .host ∧ ((s []).firmReady 1 [(operand (s []) 3 2, 64)]).2 = true ∧
    (((s []).firmReady 1 [(operand (s []) 3 2, 64)]).1.enqueue .host 1 3 ⟨0x10004000, 2, 7, []⟩ 0 0).2 = true := by
  refine ⟨?_, ?_, ?_, ?_, ?_, ?_, idle _ rfl rfl _, noneAsks _ rfl _, ?_, ?_⟩ <;> decide +kernel
/-- An object that the loader can read, in a state whose memory holds nothing. -/
theorem witness_ContextCommands_load : let s : State := { rung 0x05 1 [(1, 0x20000000), (5, 0x20000000)] with mem := [] }
    RingsFor s 3 0x05 1 loadContext ∧ (s.objectReady (s.mailboxOf 3)).2 = true ∧ partsIdle s (physParts 0x20000000 64 0) ∧ unasked s .host := by
  refine ⟨ringsFor (by decide) (by decide) rfl, by decide +kernel, fun q h => ?_, noneAsks _ rfl _⟩
  have hp : physParts 0x20000000 64 0 = [(0x20000000, 64, 0)] := by decide +kernel
  obtain rfl : q = (0x20000000, 64, 0) := by simpa [hp] using h
  exact ⟨by decide, by decide, by decide, idle _ rfl rfl _⟩
theorem witness_ContextCommands_saves : RingsFor (rung 0x07 1 [(1, 0x20000000), (2, 0)]) 3 0x07 1 loadContext ∧ loadContext.phase = .running ∧ loadContext.failure = none ∧
    (rung 0x07 1 []).cutDone 1 = true ∧ ((rung 0x07 1 []).setCore 0 { Core.init with pend := [someStore] }).cutDone 1 = false ∧
    (rung 0x07 1 []).dies = [] ∧ ((rung 0x07 1 []).parkTenures 1).imageBufferOk 0x20000000 0x10000 = true ∧
    ((rung 0x07 1 []).parkTenures 1).imageBufferOk 0x20000001 1 = false ∧ ((rung 0x08 1 [(1, 3)]).imageReady 1 3).2 = true ∧
    (match (rung 0x08 1 [(1, 3)]).restoreCheck 1 loadContext 3 with
      | .error n => decide (n = 1)
      | .ok _ => false) = true :=
  ⟨ringsFor (by decide) (by decide) rfl, rfl, rfl, by decide +kernel, by decide +kernel, by decide +kernel, by decide +kernel, by decide +kernel,
    by decide +kernel, by decide +kernel⟩
theorem witness_PolicyAndQueries : RingsFor (rung 0x0C 1 [(1, 0), (2, 1023), (3, 0), (4, 0x40000000000000), (5, 63)]) 3 0x0C 1 loadContext ∧
    operand (rung 0x0C 1 [(1, 0), (2, 1023), (3, 0), (4, 0x40000000000000), (5, 63)]) 3 4 ≤ 2 ^ 54 ∧
    Rings (rung 0x0D 1 []) 3 0x0D 1 ∧ Rings (rung 0x10 0 []) 3 0x10 0 ∧ RingsFor (rung 0x09 1 [(1, 7)]) 3 0x09 1 loadContext ∧
    (let s := rung 0x0B 0 [(1, 7), (2, 23)]
     Rings s 3 0x0B 0 ∧ operand s 3 2 ∈ (s.dieOf (operand s 3 1)).live ∧ s.dropRefused (operand s 3 1) = false ∧ s.mappersOf (operand s 3 1) = [] ∧
       (({ Die.init with live := List.range 16 } : Die).live.length ≤ 16)) ∧
    RingsFor (rung 0x0E 1 [(1, 0x10000000)]) 3 0x0E 1 loadContext ∧ (rung 0x0E 1 []).memoryAt 0x10000000 32 = true ∧ (rung 0x0E 1 []).memoryAt 0x4000000000 32 = false ∧
    Rings (rung 0x0F 0 [(1, 15)]) 3 0x0F 0 ∧ ((playing (someMedia 0 .queued 0)).mediaOf 2).queue.length = 1 ∧ (someMedia 0 .queued 0).ended = none ∧
    ((someMedia 0 .queued 0).rowX = [] ∧ (someMedia 0 .queued 0).rowPtr = 0) ∧ ({ someMedia 0 .queued 0 with filtX := [] } : MediaCmd).filtX = [] ∧
    (someMedia 0 .queued 0).external = false ∧ (playing (someMedia 0 .queued 0)).replicated = [] ∧ (playing (someMedia 0 .queued 0)).peerSent = [] := by
  refine ⟨ringsFor (by decide) (by decide) rfl, ?_, rings (by decide) (by decide) (by decide), rings (by decide) (by decide) (by decide),
    ringsFor (by decide) (by decide) rfl, ⟨rings (by decide) (by decide) (by decide), ?_, ?_, ?_, ?_⟩, ringsFor (by decide) (by decide) rfl, ?_, ?_,
    rings (by decide) (by decide) (by decide), ?_, ?_, ?_, ?_, ?_, ?_, ?_⟩ <;> decide +kernel

/-! ### Words and operands -/

/-- The state right after reset, with a word loaded, and its first step's outcome: a next state. -/
theorem witness_StepKeepsMemoryCanonical : State.reset.memOk ∧ (match step (State.reset.withFetchWord 64 0x8000300012345678) with
      | .next _ => true
      | _ => false) = true := by
  refine ⟨?_, ?_⟩
  · unfold State.memOk; decide
  · decide +kernel
theorem witness_DecodeEncodeRoundTrip : (Instr.movi ⟨0, false⟩ (.reg 3) false 0x12345678).wf = true ∧
    encode (.movi ⟨0, false⟩ (.reg 3) false 0x12345678) = some 0x8000300012345678 ∧ decodeWord 7 0x8000300012345678 = .ok (.movi ⟨0, false⟩ (.reg 3) false 0x12345678) := by
  refine ⟨?_, ?_, ?_⟩ <;> decide +kernel
def loaded (w : Word) : State := State.reset.loadWord w
def fetchPage : Xlat := ⟨0x1000, 0x10001000, 8, 0, false, 0, none, 0x10000017, true⟩
/-- A full group at a word that decodes, at a collective one, at one that does not, and at an address outside its pointer's bounds. -/
theorem witness_StepRunsDecodedInstruction : Standing (loaded 0x8000300012345678) fullIssue loadGroup ∧
    Fetches (loaded 0x8000300012345678) fullIssue loadGroup fetchPage ∧ wordAt (loaded 0x8000300012345678) fetchPage = 0x8000300012345678 ∧
    fullIssue.lanes = loadGroup.lanesAt fullIssue.pc ∧ wordAt (loaded 0xE000000000000000) fetchPage = 0xE000000000000000 ∧
    launchTop (loaded 0) loadGroup = 7 ∧ (∀ p ∈ loadGroup.threads, p.2.tctl.getLsbD 0 = false ∧ ¬inHandler p.2) ∧
    (∃ p, State.reset.agenda = [p] ∧ isTimely p = false) ∧
    [Instr.gridEnd 0, .clockSelfAdvance].find? isTimely = some .clockSelfAdvance ∧ State.reset.issue = [] ∧ (∃ n, Config.fairBound < n) := by
  refine ⟨⟨rfl, by decide +kernel, by decide, by decide, fun l hl => ?_⟩, ⟨by decide +kernel, rfl, by decide, by decide, idle _ rfl rfl _, fun w h => (nomatch h)⟩,
    by decide +kernel, by decide +kernel, by decide +kernel, by decide +kernel, by unfold inHandler; decide +kernel, ⟨_, rfl, by decide +kernel⟩, by decide +kernel, rfl, ⟨Config.fairBound + 1, Nat.lt_succ_self _⟩⟩
  have hl : l < 32 := by simpa [fullIssue] using hl
  refine ⟨hl, Thread.start loadPc l, ?_, ⟨rfl, rfl⟩, rfl, rfl, rfl, rfl⟩
  have : ∀ k : Fin 32, Table.find loadGroup.threads k.val = some (Thread.start loadPc k.val) := by decide +kernel
  exact this ⟨l, hl⟩
theorem witness_StepRunsDecodedInstruction_fetch : let i := { fullIssue with pc := 0x0080000000001000 }
    (loaded 0).check i.core loadGroup.ctx i.pc 8 8 (kindNeed .fetch) = .error (.trap 0x0A) ∧
    (match (loaded 0).check 0 1 0x0040000000001000 8 8 (kindNeed .fetch), { loaded 0 with mem := Memory.write (loaded 0).mem 0x3A60000 8 0 }.check 0 1 0x0040000000001000 8 8 (kindNeed .fetch) with
      | .ok _, .error (.park _ _) => true
      | _, _ => false) = true := by constructor <;> decide +kernel
/-- A register through each kind of pattern, a window at both of its ends and just past them, and queues that are empty, one deep and full. -/
theorem witness_OperandSources : inWindow ⟨2, 2, 0, 0⟩ ∧ inWindow ⟨2, 2, 1, 0⟩ ∧ ¬inWindow ⟨2, 2, 2, 0⟩ ∧ ¬inWindow ⟨2, 2, 0xFFFF, 0⟩ ∧ inWindow ⟨0, 128, 127, 0⟩ ∧
    ¬inWindow ⟨1, 128, 0, 0⟩ ∧ (someThread.queueOf 0).entries = [9] ∧ (someThread.queueOf 1).entries = [] ∧ (someThread.queueOf 0).depth = 2 ∧
    badIndex { someThread with x := [(0, ⟨2, 2, 2, 1⟩)] } (some (.ind 0)) ∧ ¬badIndex someThread (some (.reg 2)) := by
  refine ⟨?_, ?_, ?_, ?_, ?_, ?_, ?_, ?_, ?_, ⟨0, Or.inl rfl, ?_⟩, ?_⟩
  all_goals first | decide +kernel | (unfold inWindow; decide +kernel) | (rintro ⟨x, h | h, _⟩ <;> cases h)

/-! ## Single steps -/

/-- The thread after one word on registers 2, 3 and 4, none where the machine stops or the thread is gone. -/
def ran (i : Instr) (a b c : Word) : Option Thread :=
  match exec i (single { someThread with v := [(2, a), (3, b), (4, c)] }) with
  | .next t => t.thread? 0
  | _ => none
/-- Register 1 afterwards, and astat. -/
def gave (i : Instr) (a b c : Word) : Option (Word × Word) := (ran i a b c).map (fun t => (t.vreg 1, t.astat))

/-- Unsigned addition wraps in each sub-element alone, and clamps under .sat (R137, R198). -/
theorem test_add : gave (.add (bin .u8) false) 0x01FF 0x0101 0 = some (0x0200, 0) ∧ gave (.add (bin .u8) true) 0x01FF 0x0101 0 = some (0x02FF, 0) := by
  decide +kernel
/-- R138's own example: (7, -128, 9) by (0, -1, 2), the other divisors 1, gives (-1, -128, 4) and sets DZ. -/
theorem test_div : gave (.div (bin .i8)) 0x098007 0x010101010102FF00 0 = some (0x0480FF, 0x20) := by decide +kernel
/-- R200's own examples. -/
theorem test_bfx : gave (.bfx (bin .u16)) 0xBEEF 0x0404 0 = some (0x000E, 0) ∧ gave (.bfx (bin .i16)) 0xBEEF 0x0404 0 = some (0xFFFE, 0) := by decide +kernel
theorem test_bfi : gave (.bfi (ter .u16)) 0xBEEF 0x0005 0x0404 = some (0xBE5F, 0) ∧ gave (.bfx (bin .u16)) 0xBEEF 0x080C 0 = some (0x000B, 0) := by decide +kernel
/-- The examples of CVTI (R203). -/
theorem test_cvti : gave (.cvti (un .i32) .i8 4 false) 0x00007F8000000000 0 0 = some (0x0000007FFFFFFF80, 0) ∧
    gave (.cvti (un .u8) .i16 0 true) 0x012CFFFB 0 0 = some (0xFF00, 0) := by decide +kernel
/-- IDOT4's own example (R268). -/
theorem test_idot4 : gave (.idot4 (ter .i8) false) 0xFFFFFFFF04030201 0x0807060501010101 100 = some (0xFFFFFFE60000006E, 0) := by decide +kernel
/-- FCVT of 1 and -2 from F32 to the low half of an F16 word; FTOI of 300.5 in the second F32, clamped with NV (R148, R153). -/
theorem test_fcvt : gave (.fcvt (un .f16) .f32 0 .rn) 0xC00000003F800000 0 0 = some (0xC0003C00, 0) := by decide +kernel
theorem test_ftoi : gave (.ftoi (un .i8) .f32 1 .rz) 0x4396400000000000 0 0 = some (0x7F, 0x10) := by decide +kernel
/-- Round to nearest, ties to even: 1 + 2^-24 in F32 is inexact and 1 (R142, R147). -/
theorem test_fadd : gave (.fadd (bin .f32) .rn) 0x3F800000 0x33800000 0 = some (0x3F800000, 1) := by decide +kernel
/-- The first draw of the thread whose state starts at 0, and the state after it (R279, by hand). -/
theorem test_rng : (ran (.rng always (.raw (.reg 1))) 0 0 0).map (fun t => (t.vreg 1, t.rng)) = some (0xE220A8397B1DCDAF, 0x9E3779B97F4A7C15) := by decide +kernel
/-- A branch back by one word keeps the pointer's tag (R62, R210). -/
theorem test_bra : (ran (.bra always .none (BitVec.ofInt 30 (-1))) 0 0 0).map (fun t => t.pc) = some 0x0040000000000FF8 := by decide +kernel
/-- R20: with 24 live channels, the line 25 of a die is the second of channel 1; with channel 3 dropped, line 3 is the first of channel 4. -/
theorem test_place : placeLine (List.range 24) (25 * 128 + 5) = some (1, 1) ∧ placeLine ((List.range 24).filter (fun n => n ≠ 3)) (3 * 128) = some (4, 0) := by
  decide +kernel
/-- R21: bits 11:7 and bits 16:12 of an address, exclusive or. -/
theorem test_slice : stacksSlice 0x1F080 = 0x1E ∧ stacksSlice 0x80 = 1 := by decide +kernel
/-- A software trap enters the handler (R222): cause, value, resume address and mode. -/
theorem test_trap : (ran (.trap always 7) 0 0 0).map (fun t => (t.tcause, t.tepc, t.tmode, t.pc)) = some (0x17, 0x0040000000001008, 1, 0) := by decide +kernel
end Sys2Proof.Tests
end

section
/-!
PROOFS. Integer arithmetic (R136 to R140, R198): each word's meaning as the exact results of the statement, and what a lane that traps comes to.
-/
namespace Sys2Proof.Claims

open Sys2Proof.Machine

/-! ## The shapes of integer words -/

theorem unInt_completes {ins : Instr} {o : Un IType} {f r : Word → Word} (hm : ∀ s, exec ins s = unInt o f s)
    (hf : ∀ a, f a = r a) : UnCompletes ins o (.int o.ty) r :=
  lanesComplete_of_lane (f := fun _ _ _ x => .ok (x.t.put x.d (f x.a))) hm
    (fun _ _ _ x _ _ => ⟨_, rfl, by simp only [writes, hf]⟩)

theorem binInt_completes {ins : Instr} {o : Bin IType} {f r : Word → Word → Word} (hm : ∀ s, exec ins s = binInt o f s)
    (hf : ∀ a b, f a b = r a b) : BinCompletes ins o (.int o.ty) r :=
  lanesComplete_of_lane (f := fun _ _ _ x => .ok (x.t.put x.d (f x.a x.b))) hm
    (fun _ _ _ x _ _ => ⟨_, rfl, by simp only [writes, hf]⟩)

theorem terInt_completes {ins : Instr} {o : Ter IType} {f r : Word → Word → Word → Word} (hm : ∀ s, exec ins s = terInt o f s)
    (hf : ∀ a b c, f a b c = r a b c) : TerCompletes ins o (.int o.ty) (.int o.ty) r :=
  lanesComplete_of_lane (f := fun _ _ _ x => .ok (x.t.put x.d (f x.a x.b x.c))) hm
    (fun _ _ _ x _ _ => ⟨_, rfl, by simp only [writes, hf]⟩)

/-! ## Exact results per sub-element (R137, R198) -/

theorem arith1_eq {t : IType} {sat : Bool} {f g : Int → Int} (h : ∀ x, f x = g x) (a : Word) :
    arith1 t sat f a = intWord t sat (fun i => g (elemI t a i)) := by
  simp only [intWord_eq, elemI_eq, arith1, h]

theorem arith2_eq {t : IType} {sat : Bool} {f g : Int → Int → Int} (h : ∀ x y, f x y = g x y) (a b : Word) :
    arith2 t sat f a b = intWord t sat (fun i => g (elemI t a i) (elemI t b i)) := by
  simp only [intWord_eq, elemI_eq, arith2, h]

theorem arith3_eq (t : IType) (sat : Bool) (f : Int → Int → Int → Int) (a b c : Word) :
    arith3 t sat f a b c = intWord t sat (fun i => f (elemI t a i) (elemI t b i) (elemI t c i)) := by
  simp only [intWord_eq, elemI_eq, arith3]

theorem minW_eq (t : IType) (a b : Word) : minW t a b = minWord t a b :=
  arith2_eq (g := fun x y => if x ≤ y then x else y) min_def a b

theorem maxW_eq (t : IType) (a b : Word) : maxW t a b = maxWord t a b :=
  arith2_eq (g := fun x y => if x ≤ y then y else x) max_def a b

theorem absW_eq (t : IType) (sat : Bool) (a : Word) : absW t sat a = intWord t sat (fun i => (elemI t a i).natAbs) :=
  arith1_eq (g := fun x => (x.natAbs : Int)) (fun x => by split <;> omega) a

/-! ## Division (R138, R139) -/

/-- The remainder by -1 is zero, which R138 lists as a case of its own. -/
theorem remI_eq_tmod (t : IType) (a b : Int) : remI t a b = if b = 0 then a else a.tmod b := by
  unfold remI
  split
  · rfl
  · split
    · rename_i h
      simp [h.2]
    · rfl

theorem divI_word (t : IType) (a b : Word) : arith2 t false (divI t) a b = intWord t false (quotient t a b) :=
  arith2_eq (fun _ _ => rfl) a b

theorem remI_word (t : IType) (a b : Word) : arith2 t false (remI t) a b = intWord t false (remainder t a b) :=
  arith2_eq (remI_eq_tmod t) a b

theorem divCase_eq (t : IType) (a b : Word) (i : Nat) : divCase t (subI t a i) (subI t b i) = divisionCase t a b i := by
  unfold divCase divisionCase leastI
  rw [elemI_eq, elemI_eq]
  cases t.signed <;> simp

theorem divFlags_toNat (t : IType) (a b : Word) : (divFlags t a b).toNat = divisionFlags t a b := by
  unfold divFlags divisionFlags
  simp only [divCase_eq, subCount]
  split <;> rfl

/-! ## A lane that takes a trap of its result (R140, R364, R365) -/

/-- Outside a handler, a trap that is no decode trap enters the handler at the word itself (R222). -/
theorem trapLane_enters {e : Env} {t : Thread} {tr : Trap} (hd : tr.isDecode = false) (hh : ¬inHandler t) :
    trapLane e t tr = ⟨entered t tr.cause tr.val t.pc e.tvec, none⟩ := by
  rcases Thread.takeTrap_cases t e.tvec t.pc tr with ⟨-, h, -⟩ | ⟨-, -, h⟩ | ⟨-, h, -⟩
  · rw [hd] at h; cases h
  · exact h
  · exact absurd h hh

/-- A lane whose body answers a trap takes it, with the flags that the trap still sets. -/
theorem lane_error {d : Option Operand} {a b c : Option SrcSpec} {f : Got → Except Raise Thread} {e : Env} {l : Nat} {t : Thread}
    {r : Got} {tr : Trap} {fl : Word} (hc : collect e l t d a b c = .ok r) (hp : r.poisoned = false) (hf : f r = .error (tr, fl)) :
    lane d a b c f e l t = trapLane e { t with astat := t.astat ||| fl } tr := by
  simp [lane, hc, hp, hf]

/-- The shape of a word whose every selected lane takes a trap of its result outside a handler. -/
theorem lanesComplete_of_trap {ins : Instr} {g : Guard} {d : Option Operand} {a b c : Option SrcSpec}
    {ok : Env → Nat → Thread → Got → Prop} {new : Env → Nat → Thread → Got → Thread} {f : Got → Except Raise Thread}
    (hm : ∀ s, exec ins s = lanewise g (lane d a b c f) s)
    (hf : ∀ e l t r, collect e l t d a b c = .ok r → ok e l t r → ∃ tr fl, f r = .error (tr, word fl) ∧ tr.isDecode = false ∧
      ¬inHandler t ∧ new e l t r = entered (flagged t fl) tr.cause tr.val t.pc e.tvec) :
    LanesComplete ins g d a b c ok new := by
  intro s i rest e got hi he hc
  rw [hm s]
  apply lanewise_completes hi he
  intro p hp hl hs
  obtain ⟨hr, hpois, hok⟩ := hc p hp hl hs
  obtain ⟨tr, fl, herr, hd, hh, hnew⟩ := hf e p.1 p.2 (got p.1) hr hok
  rw [lane_error hr hpois herr, hnew]
  exact trapLane_enters (t := flagged p.2 fl) hd hh

/-- DZ alone, enabled by bit 13 of astat, is trap 0x13 (R139, R364). -/
theorem flagTrap_DZ {astat : Word} (h : astat.getLsbD 13 = true) (low : Nat) : flagTrap astat flagDZ low = some ⟨0x13, 0⟩ := by
  have hbit : ((astat.toNat / 256) % 64).testBit 5 = true := by
    have hmod := Nat.testBit_mod_two_pow (astat.toNat / 2 ^ 8) 6 5
    rw [Nat.testBit_div_two_pow] at hmod
    exact hmod.trans h
  have hen : enabledFlags astat flagDZ = flagDZ := BitVec.eq_of_toNat_eq (by
    rw [enabled_toNat, show flagDZ.toNat = 2 ^ 5 from rfl, Nat.two_pow_and, hbit]
    rfl)
  rw [flagTrap, hen]
  rfl

theorem division_traps {p : Instr} {o : Bin IType} {f : Word → Word → Word}
    (hm : ∀ s, exec p s = lanewise o.g (lane (some o.d) (srcA o.pat (.int o.ty) o.a) (srcB o.pat (.int o.ty) o.b) none
      (fun r => finishFlags r.t r.d (f r.a r.b) (divFlags o.ty r.a r.b))) s) :
    LanesComplete p o.g (some o.d) (srcA o.pat (.int o.ty) o.a) (srcB o.pat (.int o.ty) o.b) none
      (fun _ _ t r => divisionFlags o.ty r.a r.b = 0x20 ∧ t.astat.getLsbD 13 = true ∧ ¬inHandler t)
      (fun e _ t _ => entered (flagged t 0x20) 0x13 0 t.pc e.tvec) := by
  refine lanesComplete_of_trap hm ?_
  rintro e l t r hr ⟨hdz, hen, hh⟩
  have hfl : divFlags o.ty r.a r.b = flagDZ := BitVec.eq_of_toNat_eq (by rw [divFlags_toNat, hdz]; rfl)
  refine ⟨⟨0x13, 0⟩, 0x20, ?_, rfl, hh, rfl⟩
  rw [finishFlags, hfl, flagTrap_DZ (by rw [collect_astat hr]; exact hen)]
  rfl

/-- Settles O1: each word is one of the shapes above, and its sub-elements are the exact results wrapped or clamped. A division traps where DZ,
the only flag it raises, is enabled. -/
theorem integerArithmetic : Obligations.IntegerArithmetic := by
  unfold Obligations.IntegerArithmetic
  refine ⟨fun o sat => ?_, fun o sat => ?_, fun o sat => ?_, fun o => ?_, fun o sat => ?_, fun o => ?_, fun o => ?_,
    fun o sat => ?_, fun o sat => ?_, fun o => ⟨?_, ?_⟩, fun o p hp => ?_⟩
  · exact binInt_completes (fun _ => rfl) (arith2_eq (fun _ _ => rfl))
  · exact binInt_completes (fun _ => rfl) (arith2_eq (fun _ _ => rfl))
  · exact binInt_completes (fun _ => rfl) (arith2_eq (fun _ _ => rfl))
  · exact binInt_completes (fun _ => rfl) (arith2_eq (g := fun x y => x * y / 2 ^ o.ty.width) (fun _ _ => rfl))
  · exact terInt_completes (f := arith3 o.ty sat (fun x y z => x * y + z)) (fun _ => rfl) (arith3_eq o.ty sat _)
  · exact binInt_completes (fun _ => rfl) (minW_eq o.ty)
  · exact binInt_completes (fun _ => rfl) (maxW_eq o.ty)
  · exact unInt_completes (fun _ => rfl) (absW_eq o.ty sat)
  · exact unInt_completes (fun _ => rfl) (arith1_eq (fun _ => rfl))
  · exact flagsComplete_of (q := fun r => (arith2 o.ty false (divI o.ty) r.a r.b, divFlags o.ty r.a r.b)) (fun _ => rfl)
      (fun r => ⟨divI_word o.ty r.a r.b, divFlags_toNat o.ty r.a r.b⟩)
  · exact flagsComplete_of (q := fun r => (arith2 o.ty false (remI o.ty) r.a r.b, divFlags o.ty r.a r.b)) (fun _ => rfl)
      (fun r => ⟨remI_word o.ty r.a r.b, divFlags_toNat o.ty r.a r.b⟩)
  · simp only [List.mem_cons, List.not_mem_nil, or_false] at hp
    rcases hp with rfl | rfl
    · exact division_traps (f := arith2 o.ty false (divI o.ty)) (fun _ => rfl)
    · exact division_traps (f := arith2 o.ty false (remI o.ty)) (fun _ => rfl)

end Sys2Proof.Claims
end

section
/-!
PROOFS. Collective words (R225, R257, R340): what a word comes to when all 32 threads are present, selected and can collect their operands.
-/
namespace Sys2Proof.Claims

open Sys2Proof.Machine

/-! ## Group issue with every thread present (R340) -/

/-- In a table without repeated keys, what stands under a key is found. -/
theorem find_of_mem {α : Type} {t : Table α} {p : Nat × α} (hn : (t.map Prod.fst).Nodup) (hp : p ∈ t) :
    Table.find t p.1 = some p.2 := by
  induction t with
  | nil => cases hp
  | cons q t ih =>
    rw [List.map_cons, List.nodup_cons] at hn
    rcases List.mem_cons.mp hp with rfl | hp
    · simp [Table.find]
    · have hne : q.1 ≠ p.1 := fun h => hn.1 (h ▸ List.mem_map_of_mem hp)
      simp [Table.find, hne, ih hn.2 hp]

/-- Every lane below 32 holds a thread. -/
theorem AllPresent.exists_thread {e : Env} {i : Issue} {g : Guard} (h : AllPresent e i g) {l : Nat} (hl : l < 32) :
    ∃ t, (l, t) ∈ e.g.threads := by
  have hmem : l ∈ e.g.threads.map (fun p => p.1) := h.1 ▸ List.mem_range.mpr hl
  obtain ⟨p, hp, rfl⟩ := List.mem_map.mp hmem
  exact ⟨p.2, hp⟩

theorem AllPresent.takesPart {e : Env} {i : Issue} {g : Guard} (h : AllPresent e i g) {l : Nat} (hl : l < 32) :
    e.g.takesPart i g l = true := by
  obtain ⟨t, ht⟩ := h.exists_thread hl
  obtain ⟨hlane, hrun, hpc, hsel⟩ := h.2 (l, t) ht
  have hfind := find_of_mem (p := (l, t)) (h.1 ▸ List.nodup_range) ht
  simp only at hlane hrun hpc hsel hfind
  simp [Group.takesPart, hfind, Thread.atWord, hlane, hrun, hpc, hsel]

theorem AllPresent.firstAbsent {e : Env} {i : Issue} {g : Guard} (h : AllPresent e i g) : e.g.firstAbsent i g = none := by
  unfold Group.firstAbsent
  rw [List.find?_eq_none]
  intro l hl
  simp [h.takesPart (List.mem_range.mp hl)]

/-- With all 32 threads present and selected, the word's body runs. -/
theorem collective_present {s : State} {i : Issue} {g : Guard} {e : Env} {body : Env → State} (he : s.env? i = some e)
    (h : AllPresent e i g) : s.collective i g body = body e := by
  obtain ⟨t, ht⟩ := h.exists_thread (l := 0) (by decide)
  have hany : i.lanes.any (e.g.takesPart i g) = true :=
    List.any_eq_true.mpr ⟨0, (h.2 _ ht).1, h.takesPart (by decide)⟩
  unfold State.collective
  simp only [he, hany, h.firstAbsent, if_true]

/-! ## What the threads have collected -/

/-- What `collectAll` gives where each thread collects what `got` says of its lane. -/
def gathered (e : Env) (got : Nat → Got) : List (Nat × Thread × Got) := e.g.threads.map (fun p => (p.1, p.2, got p.1))

theorem collectAll_eq {e : Env} {got : Nat → Got} {d : Option Operand} {a b c : Option SrcSpec} {ts : List (Nat × Thread)}
    (h : ∀ p ∈ ts, collect e p.1 p.2 d a b c = .ok (got p.1)) :
    collectAll e d a b c ts = .ok (ts.map (fun p => (p.1, p.2, got p.1))) := by
  induction ts with
  | nil => rfl
  | cons p ts ih =>
    simp only [collectAll, h p (by simp), ih (fun q hq => h q (List.mem_cons_of_mem _ hq)), List.map_cons]

theorem collectAll_gathered {e : Env} {got : Nat → Got} {d : Option Operand} {a b c : Option SrcSpec}
    (h : ∀ p ∈ e.g.threads, collect e p.1 p.2 d a b c = .ok (got p.1)) :
    collectAll e d a b c e.g.threads = .ok (gathered e got) := collectAll_eq h

theorem anyPoisoned_gathered {e : Env} {got : Nat → Got} (h : ∀ p ∈ e.g.threads, (got p.1).poisoned = false) :
    anyPoisoned (gathered e got) = false := by
  unfold anyPoisoned gathered
  rw [List.any_map, List.any_eq_false]
  intro p hp
  simp [h p hp]

theorem gotOf_gathered {e : Env} {i : Issue} {g : Guard} (h : AllPresent e i g) (got : Nat → Got) {l : Nat} (hl : l < 32) :
    gotOf (gathered e got) l = some (got l) := by
  obtain ⟨t, ht⟩ := h.exists_thread hl
  unfold gotOf
  cases hf : (gathered e got).find? (fun p => decide (p.1 = l)) with
  | none => exact absurd (List.find?_eq_none.mp hf _ (List.mem_map_of_mem ht)) (by simp)
  | some q =>
    obtain ⟨p, -, rfl⟩ := List.mem_map.mp (List.mem_of_find?_eq_some hf)
    have hpl : p.1 = l := by simpa using List.find?_some hf
    simp [hpl]

theorem gotA_gathered {e : Env} {i : Issue} {g : Guard} (h : AllPresent e i g) (got : Nat → Got) {l : Nat} (hl : l < 32) :
    gotA (gathered e got) l = (got l).a := by
  simp [gotA, gotOf_gathered h got hl]

theorem gotB_gathered {e : Env} {i : Issue} {g : Guard} (h : AllPresent e i g) (got : Nat → Got) {l : Nat} (hl : l < 32) :
    gotB (gathered e got) l = (got l).b := by
  simp [gotB, gotOf_gathered h got hl]

/-- A word without a destination resolves none. -/
theorem collect_dest_none {e : Env} {l : Nat} {t : Thread} {a b c : Option SrcSpec} {r : Got}
    (h : collect e l t none a b c = .ok r) : r.d = .none := by
  unfold collect at h
  simp only [destOf] at h
  repeat' split at h
  all_goals cases h
  rfl

/-! ## How a collective word ends -/

/-- Where no thread's flags trap, every thread is written and goes on (R257). -/
theorem collFinish_quiet {s : State} {i : Issue} {e : Env} {ps : List Part} {upd : Group → Group}
    (h : ∀ p ∈ ps, quiet p.t0 p.fl.toNat) :
    s.collFinish i e ps upd = s.setGroup i.group (upd { e.g with threads := ps.map (fun p => (p.lane, (p.t.setFlags p.fl).advance)) }) := by
  have hf : ps.find? (fun p => (flagTrap p.t0.astat p.fl 0).isSome) = none := by
    rw [List.find?_eq_none]
    intro p hp
    simp [(flagTrap_none p.t0 p.fl 0).mpr (h p hp)]
  simp only [State.collFinish, hf]

/-- Every present thread takes one trap: outside handlers, each enters its handler (R222, R257). -/
theorem trapPresent_enters {s : State} {i : Issue} {e : Env} {tr : Trap} (he : s.env? i = some e)
    (hl : ∀ p ∈ e.g.threads, p.1 ∈ i.lanes) (hd : tr.isDecode = false) (hh : ∀ p ∈ e.g.threads, ¬inHandler p.2) :
    s.trapPresent i tr = s.setGroup i.group
      { e.g with threads := e.g.threads.map (fun p => (p.1, entered p.2 tr.cause tr.val p.2.pc e.tvec)) } := by
  unfold State.trapPresent
  rw [State.runLanes_plain he (fun p hp _ => by rw [trapLane_enters hd (hh p hp)])]
  unfold Group.mapLanes
  congr 2
  apply List.map_congr_left
  intro p hp
  simp [hl p hp, trapLane_enters hd (hh p hp)]

section
variable {s : State} {i : Issue} {rest : List Issue} {e : Env} {got : Nat → Got} {g : Guard} {d : Option Operand} {a b c : Option SrcSpec}
  {body : Env → List (Nat × Thread × Got) → Except Trap ((Nat → Word) × (Nat → Flags) × (Group → Group))}

/-- All threads collect unpoisoned operands and the body answers a result: the word finishes with it. -/
theorem collWord_ok {w : Nat → Word} {fl : Nat → Flags} {upd : Group → Group} (hi : s.issue = i :: rest) (he : s.env? i = some e)
    (hall : AllPresent e i g) (hc : ∀ p ∈ e.g.threads, collect e p.1 p.2 d a b c = .ok (got p.1) ∧ (got p.1).poisoned = false)
    (hb : body e (gathered e got) = .ok (w, fl, upd)) :
    collWord g d a b c body s = .next (s.collFinish i e
      (e.g.threads.map (fun p => ⟨p.1, p.2, (got p.1).t.put (got p.1).d (w p.1), fl p.1⟩)) upd) := by
  simp only [collWord, issued_cons hi, collective_present he hall, collectAll_gathered (fun p hp => (hc p hp).1), hb,
    anyPoisoned_gathered (fun p hp => (hc p hp).2), Bool.false_eq_true, if_false]
  simp only [gathered, List.map_map, Function.comp_def]

/-- All threads collect unpoisoned operands and the body answers a trap: every thread takes it. -/
theorem collWord_error {tr : Trap} (hi : s.issue = i :: rest) (he : s.env? i = some e) (hall : AllPresent e i g)
    (hc : ∀ p ∈ e.g.threads, collect e p.1 p.2 d a b c = .ok (got p.1) ∧ (got p.1).poisoned = false)
    (hb : body e (gathered e got) = .error tr) : collWord g d a b c body s = .next (s.trapPresent i tr) := by
  simp only [collWord, issued_cons hi, collective_present he hall, collectAll_gathered (fun p hp => (hc p hp).1), hb,
    anyPoisoned_gathered (fun p hp => (hc p hp).2), Bool.false_and, Bool.false_eq_true, if_false]

end

/-- The shape of a collective word: all collect, the body answers results, flags and the change of the group's registers, and every
thread is written and goes on. -/
theorem groupCompletes_of_body {ins : Instr} {g : Guard} {d : Option Operand} {a b c : Option SrcSpec}
    {ok : State → Env → (Nat → Got) → Prop} {new : Env → (Nat → Got) → Nat → Thread} {upd : Env → (Nat → Got) → Group → Group}
    {body : Env → List (Nat × Thread × Got) → Except Trap ((Nat → Word) × (Nat → Flags) × (Group → Group))}
    (hm : ∀ s, exec ins s = collWord g d a b c body s)
    (hb : ∀ s i e got, AllPresent e i g → (∀ p ∈ e.g.threads, collect e p.1 p.2 d a b c = .ok (got p.1)) → ok s e got →
      ∃ w fl, body e (gathered e got) = .ok (w, fl, upd e got) ∧ ∀ p ∈ e.g.threads, quiet p.2 (fl p.1).toNat ∧
        (flagged ((got p.1).t.put (got p.1).d (w p.1)) (fl p.1).toNat).advance = new e got p.1) :
    GroupCompletes ins g d a b c ok new upd := by
  intro s i rest e got hi he hall hc hok
  obtain ⟨w, fl, hbody, hthread⟩ := hb s i e got hall (fun p hp => (hc p hp).1) hok
  rw [hm s, collWord_ok hi he hall hc hbody, collFinish_quiet]
  · simp only [List.map_map, Function.comp_def, setFlags_eq]
    rw [List.map_congr_left (g := fun p => (p.1, new e got p.1)) (fun p hp => by rw [(hthread p hp).2])]
  · simp only [List.forall_mem_map]
    exact fun p hp => (hthread p hp).1

/-- The shape of a collective word that ends in one trap for every thread. -/
theorem groupCompletes_of_trap {ins : Instr} {g : Guard} {d : Option Operand} {a b c : Option SrcSpec}
    {ok : State → Env → (Nat → Got) → Prop} {new : Env → (Nat → Got) → Nat → Thread}
    {body : Env → List (Nat × Thread × Got) → Except Trap ((Nat → Word) × (Nat → Flags) × (Group → Group))} {tr : Trap}
    (hm : ∀ s, exec ins s = collWord g d a b c body s) (hd : tr.isDecode = false)
    (hb : ∀ s i e got, AllPresent e i g → (∀ p ∈ e.g.threads, collect e p.1 p.2 d a b c = .ok (got p.1)) → ok s e got →
      body e (gathered e got) = .error tr ∧ ∀ p ∈ e.g.threads, ¬inHandler p.2 ∧
        entered p.2 tr.cause tr.val p.2.pc e.tvec = new e got p.1) :
    GroupCompletes ins g d a b c ok new (fun _ _ gr => gr) := by
  intro s i rest e got hi he hall hc hok
  obtain ⟨hbody, hthread⟩ := hb s i e got hall (fun p hp => (hc p hp).1) hok
  rw [hm s, collWord_error hi he hall hc hbody,
    trapPresent_enters he (fun p hp => (hall.2 p hp).1) hd (fun p hp => (hthread p hp).1),
    List.map_congr_left (g := fun p => (p.1, new e got p.1)) (fun p hp => by rw [(hthread p hp).2])]

/-! ## Collective words without flags -/

theorem quiet_zero (t : Thread) : quiet t 0 := by simp [quiet]
theorem flagged_zero (t : Thread) : flagged t 0 = t := by simp [flagged]

/-- A word that writes nothing and raises no flag: every thread goes on. -/
theorem groupGoesOn_of_body {ins : Instr} {g : Guard} {a b c : Option SrcSpec} {ok : State → Env → (Nat → Got) → Prop}
    {upd : Env → (Nat → Got) → Group → Group}
    {body : Env → List (Nat × Thread × Got) → Except Trap ((Nat → Word) × (Nat → Flags) × (Group → Group))}
    (hm : ∀ s, exec ins s = collWord g none a b c body s)
    (hb : ∀ s i e got, AllPresent e i g → ok s e got → body e (gathered e got) = .ok (noWord, noFlags, upd e got)) :
    GroupCompletes ins g none a b c ok groupGoesOn upd := by
  refine groupCompletes_of_body hm (fun s i e got hall hc hok => ⟨noWord, noFlags, hb s i e got hall hok, fun p hp => ⟨quiet_zero _, ?_⟩⟩)
  rw [collect_dest_none (hc p hp)]
  exact congrArg Thread.advance (flagged_zero _)

/-- A word that writes each thread a result, raises no flag and leaves the group's registers. -/
theorem groupWrites_of_body {ins : Instr} {g : Guard} {d : Option Operand} {a b c : Option SrcSpec}
    {ok : State → Env → (Nat → Got) → Prop} {f : Env → (Nat → Got) → Nat → Word}
    {body : Env → List (Nat × Thread × Got) → Except Trap ((Nat → Word) × (Nat → Flags) × (Group → Group))}
    (hm : ∀ s, exec ins s = collWord g d a b c body s)
    (hb : ∀ s i e got, AllPresent e i g → ok s e got → body e (gathered e got) = .ok (f e got, noFlags, fun gr => gr)) :
    GroupCompletes ins g d a b c ok (groupWrites f) (fun _ _ gr => gr) :=
  groupCompletes_of_body hm (fun s i e got hall _ hok => ⟨f e got, noFlags, hb s i e got hall hok, fun _ _ =>
    ⟨quiet_zero _, congrArg Thread.advance (flagged_zero _)⟩⟩)

/-- A word that gives each thread a result with its flags, of which none is enabled. -/
theorem groupFlags_of_body {ins : Instr} {g : Guard} {d : Option Operand} {a b c : Option SrcSpec}
    {ok : State → Env → (Nat → Got) → Prop} {res : Env → (Nat → Got) → Nat → Word × Nat} {upd : Env → (Nat → Got) → Group → Group}
    {body : Env → List (Nat × Thread × Got) → Except Trap ((Nat → Word) × (Nat → Flags) × (Group → Group))}
    (hm : ∀ s, exec ins s = collWord g d a b c body s) (hq : ∀ s e got, ok s e got → groupQuiet res e got)
    (hb : ∀ s i e got, AllPresent e i g → ok s e got → ∃ w fl, body e (gathered e got) = .ok (w, fl, upd e got) ∧
      ∀ l < 32, (w l, (fl l).toNat) = res e got l) :
    GroupCompletes ins g d a b c ok (groupFlags res) upd := by
  refine groupCompletes_of_body hm (fun s i e got hall _ hok => ?_)
  obtain ⟨w, fl, hbody, hres⟩ := hb s i e got hall hok
  refine ⟨w, fl, hbody, fun p hp => ?_⟩
  have hl : p.1 < 32 := List.mem_range.mp (hall.1 ▸ List.mem_map_of_mem (f := fun p => p.1) hp)
  have hw : w p.1 = (res e got p.1).1 := congrArg Prod.fst (hres p.1 hl)
  have hfl : (fl p.1).toNat = (res e got p.1).2 := congrArg Prod.snd (hres p.1 hl)
  rw [hw, hfl]
  exact ⟨hq s e got hok p hp, rfl⟩

/-- A collective word none of whose group registers is poisoned goes on. -/
theorem unpoisoned_ok {α : Type} {e : Env} {marks : List Nat} (h : ∀ m ∈ marks, m ∉ e.g.poisoned) (x : Except Trap α) :
    unpoisoned e marks x = x := by
  have hany : marks.any e.g.poisoned.contains = false := List.any_eq_false.mpr (fun m hm => by simpa using h m hm)
  simp [unpoisoned, hany]

end Sys2Proof.Claims
end

section
/-!
PROOFS. Float codes (R141 to R148): the exponents that decoded values have, and that every code of a rounded result lies below 2^w.
-/
namespace Sys2Proof.Claims

open Sys2Proof.Machine

/-! ## Exponents of decoded values -/

/-- A finite value has at least the given exponent. -/
def expAtLeast (k : Int) : FV → Prop
  | .fin _ _ e => k ≤ e
  | _ => True

theorem expAtLeast.mono {k j : Int} {v : FV} (h : expAtLeast k v) (hj : j ≤ k) : expAtLeast j v := by
  cases v with
  | nan _ => trivial
  | inf _ => trivial
  | fin n m e => exact hj.trans h

/-- Every value of a format is a multiple of its least unit (R141, R144). -/
theorem expAtLeast_decodeF (t : FType) (c : Nat) : expAtLeast (leastUnit t) (Machine.decodeF t c) := by
  have hfield := Int.natCast_nonneg (c % 2 ^ magBits t / 2 ^ fracBits t)
  unfold Machine.decodeF leastUnit
  cases hn : isNarrow t with
  | true =>
    simp only [if_true]
    split
    · split
      · trivial
      · simp only [expAtLeast]; omega
    · simp only [expAtLeast]; omega
  | false =>
    simp only [Bool.false_eq_true, if_false]
    split
    · split <;> trivial
    · split
      · simp only [expAtLeast]; omega
      · rename_i h0
        have hpos := Nat.pos_of_ne_zero h0
        simp only [expAtLeast]
        omega

theorem leastUnit_ge (t : FType) : -1074 ≤ leastUnit t := by cases t <;> decide

theorem leastUnit_ge_of_ne_f64 {t : FType} (h : t ≠ .f64) : -537 ≤ leastUnit t := by
  cases t with
  | f64 => exact absurd rfl h
  | f32 | f16 | b16 | f8 | f6 | f4 => decide

/-- The exponent of an exact product is the sum of the exponents. -/
theorem expAtLeast_mulF {j k : Int} {x y : FV} (hx : expAtLeast j x) (hy : expAtLeast k y) : expAtLeast (j + k) (mulF x y).1 := by
  cases x with
  | nan _ => cases y <;> trivial
  | inf _ =>
    cases y with
    | nan _ => trivial
    | inf _ => trivial
    | fin _ _ _ => simp only [mulF]; split <;> trivial
  | fin _ _ _ =>
    cases y with
    | nan _ => trivial
    | inf _ => simp only [mulF]; split <;> trivial
    | fin _ _ _ => exact add_le_add hx hy

/-! ## Dyadic comparisons as comparisons of rationals -/

theorem leDyadic_iff (m : Nat) (e : Int) (n : Nat) (f : Int) :
    leDyadic m e n f = true ↔ (m : ℚ) * 2 ^ e ≤ (n : ℚ) * 2 ^ f := by
  have hpow : ∀ {i j : Int}, i ≤ j → (2 : ℚ) ^ j = ((2 ^ (j - i).toNat : Nat) : ℚ) * 2 ^ i := fun {i j} h => by
    push_cast
    rw [← zpow_natCast, Int.toNat_of_nonneg (by omega), ← zpow_add₀ (by norm_num), Int.sub_add_cancel]
  unfold leDyadic
  split
  · rename_i h
    have hpos : (0 : ℚ) < 2 ^ e := by positivity
    rw [hpow h, ← mul_assoc, mul_le_mul_iff_left₀ hpos, decide_eq_true_eq]
    exact_mod_cast Iff.rfl
  · rename_i h
    have hpos : (0 : ℚ) < 2 ^ f := by positivity
    rw [hpow (by omega : f ≤ e), ← mul_assoc, mul_le_mul_iff_left₀ hpos, decide_eq_true_eq]
    exact_mod_cast Iff.rfl

/-- The leading bit of a value bounds it from below and from above. -/
theorem leadExp_le {m : Nat} (hm : m ≠ 0) (e : Int) : (2 : ℚ) ^ leadExp m e ≤ (m : ℚ) * 2 ^ e := by
  rw [leadExp, add_comm, zpow_add₀ (by norm_num), zpow_natCast]
  exact mul_le_mul_of_nonneg_right (by exact_mod_cast Nat.log2_self_le hm) (by positivity)

theorem lt_leadExp (m : Nat) (e : Int) : (m : ℚ) * 2 ^ e < (2 : ℚ) ^ (leadExp m e + 1) := by
  rw [leadExp, add_assoc, add_comm, zpow_add₀ (by norm_num), ← Nat.cast_succ, zpow_natCast]
  exact mul_lt_mul_of_pos_right (by exact_mod_cast Nat.lt_log2_self) (by positivity)

/-! ## Rounding does not pass a representable bound -/

/-- An exact quotient does not round up. -/
theorem roundsUp_exact (r : Rnd) (neg : Bool) (q sh : Nat) : roundsUp r neg q 0 sh = false := by
  cases r with
  | rn => simp [roundsUp, (Nat.two_pow_pos sh).ne]
  | rz => rfl
  | rd | ru => simp [roundsUp]

/-- What is at most n units is rounded to at most n units (R142). -/
theorem roundAt_le {m n : Nat} {e u : Int} (r : Rnd) (neg : Bool) (h : leDyadic m e n u = true) : (roundAt r neg m e u).1 ≤ n := by
  unfold roundAt
  unfold leDyadic at h
  by_cases hue : u ≤ e
  · rw [if_pos hue]
    by_cases heu : e ≤ u
    · obtain rfl : e = u := le_antisymm heu hue
      simpa using h
    · simpa [heu] using h
  · have hm : m ≤ n * 2 ^ (u - e).toNat := by simpa [(not_le.mp hue).le] using h
    have hq : m / 2 ^ (u - e).toNat ≤ n := Nat.div_le_of_le_mul (by rwa [mul_comm])
    rw [if_neg hue]
    simp only
    rcases hq.lt_or_eq with hlt | heq
    · split <;> omega
    · have hrem : m % 2 ^ (u - e).toNat = 0 := by
        have hdiv := Nat.div_add_mod m (2 ^ (u - e).toNat)
        rw [heq, mul_comm] at hdiv
        omega
      rw [hrem, roundsUp_exact, heq]
      simp

/-- A value rounded at a unit that leaves it fb bits after the leading one. -/
theorem roundAt_lead_le {m fb : Nat} {e u : Int} (r : Rnd) (neg : Bool) (hu : leadExp m e - fb ≤ u) :
    (roundAt r neg m e u).1 ≤ 2 ^ (fb + 1) := by
  refine roundAt_le r neg ((leDyadic_iff m e _ u).mpr ((lt_leadExp m e).le.trans ?_))
  push_cast
  rw [← zpow_natCast, ← zpow_add₀ (by norm_num)]
  exact zpow_le_zpow_right₀ (by norm_num) (by push_cast; omega)

/-! ## Codes lie below 2^w -/

theorem signCode_lt {t : FType} {mag : Nat} (neg : Bool) (h : mag < 2 ^ magBits t) : signCode t neg mag < 2 ^ t.width := by
  have hw : 2 ^ t.width = 2 ^ magBits t + 2 ^ magBits t := by cases t <;> rfl
  unfold signCode
  split <;> omega

/-- The exponent field of all ones, with no fraction, is a magnitude of the format. -/
theorem expMax_lt (t : FType) : expMax t * 2 ^ fracBits t < 2 ^ magBits t := by cases t <;> decide

theorem largestMag_lt (t : FType) : largestMag t < 2 ^ magBits t := by cases t <;> decide

theorem nanCode_lt (t : FType) : nanCode t < 2 ^ t.width := by cases t <;> decide

theorem zeroCode_lt (t : FType) (neg : Bool) : zeroCode t neg < 2 ^ t.width := by
  unfold zeroCode
  split
  · exact Nat.two_pow_pos _
  · exact signCode_lt neg (Nat.two_pow_pos _)

theorem infCode_lt (t : FType) (neg : Bool) : infCode t neg < 2 ^ t.width := by
  unfold infCode
  split
  · exact signCode_lt neg (largestMag_lt t)
  · exact signCode_lt neg (expMax_lt t)

theorem ite_lt_of_lt {p : Prop} [Decidable p] {x y n : Nat} (hx : x < n) (hy : y < n) : (if p then x else y) < n := by
  split
  · exact hx
  · exact hy

theorem roundIeee_lt (t : FType) (r : Rnd) (neg : Bool) (m : Nat) (e : Int) : (roundIeee t r neg m e).1 < 2 ^ t.width := by
  unfold roundIeee
  simp only
  split
  · exact ite_lt_of_lt (infCode_lt t neg) (signCode_lt neg (largestMag_lt t))
  · rename_i h
    exact signCode_lt neg ((not_le.mp h).trans (expMax_lt t))

/-- The magnitude bits of a value that is at most the largest one: at the largest one's exponent it rounds to at most its significand, and
below it to at most the next power of two (R144, R148). -/
theorem narrow_mag_lt {t : FType} (r : Rnd) (neg : Bool) {m : Nat} {e : Int} (hm : m ≠ 0)
    (h : leDyadic m e (2 ^ fracBits t + largestMag t % 2 ^ fracBits t)
      ((largestMag t / 2 ^ fracBits t : Nat) + (-(bias t : Int) - fracBits t)) = true) :
    let umin : Int := -(bias t : Int) - fracBits t
    let u := max (leadExp m e - fracBits t) umin
    (u - umin).toNat * 2 ^ fracBits t + (roundAt r neg m e u).1 - 2 ^ fracBits t < 2 ^ magBits t := by
  intro umin u
  have hsplit := Nat.div_add_mod (largestMag t) (2 ^ fracBits t)
  have hlargest := largestMag_lt t
  have hmod := Nat.mod_lt (largestMag t) (Nat.two_pow_pos (fracBits t))
  generalize largestMag t / 2 ^ fracBits t = k at *
  generalize largestMag t % 2 ^ fracBits t = f at *
  have hlead : leadExp m e < fracBits t + 1 + (k + umin) := by
    have hsig : ((2 ^ fracBits t + f : Nat) : ℚ) < (2 : ℚ) ^ ((fracBits t : Int) + 1) := by
      rw [← Nat.cast_succ, zpow_natCast]
      exact_mod_cast (by rw [Nat.pow_succ]; omega : 2 ^ fracBits t + f < 2 ^ (fracBits t + 1))
    have hle := (leadExp_le hm e).trans ((leDyadic_iff m e _ _).mp h)
    have hlt := hle.trans_lt (mul_lt_mul_of_pos_right hsig (by positivity))
    rw [← zpow_add₀ (by norm_num)] at hlt
    exact (zpow_lt_zpow_iff_right₀ (by norm_num)).mp hlt
  have hmax : u ≤ k + umin := max_le (by omega) (by omega)
  obtain ⟨j, hj⟩ : ∃ j : Nat, u = j + umin := ⟨(u - umin).toNat, by have := le_max_right (leadExp m e - fracBits t) umin; omega⟩
  have hround : (roundAt r neg m e u).1 ≤ 2 ^ (fracBits t + 1) := roundAt_lead_le r neg (le_max_left _ _)
  rw [show (u - umin).toNat = j by omega]
  rcases (show j ≤ k by omega).lt_or_eq with hlt | rfl
  · have hmul := Nat.mul_le_mul_left (2 ^ fracBits t) (Nat.succ_le_of_lt hlt)
    rw [Nat.mul_succ] at hmul
    rw [Nat.pow_succ] at hround
    rw [Nat.mul_comm j]
    omega
  · have htop := roundAt_le r neg (hj ▸ h : leDyadic m e (2 ^ fracBits t + f) u = true)
    rw [Nat.mul_comm j]
    omega

theorem roundNarrow_lt {t : FType} (hn : isNarrow t = true) (r : Rnd) (neg : Bool) {m : Nat} (hm : m ≠ 0) (e : Int) :
    (roundNarrow t r neg m e).1 < 2 ^ t.width := by
  have hone : 1 < 2 ^ magBits t := by cases t <;> decide
  unfold roundNarrow
  simp only
  split
  · exact signCode_lt neg (largestMag_lt t)
  · rename_i h
    split
    · exact ite_lt_of_lt (signCode_lt neg hone) (Nat.two_pow_pos _)
    · exact signCode_lt neg (narrow_mag_lt r neg hm (by simpa [ltDyadic] using h))

theorem roundF_lt (t : FType) (r : Rnd) (neg : Bool) (m : Nat) (e : Int) : (roundF t r neg m e).1 < 2 ^ t.width := by
  unfold roundF
  split
  · exact zeroCode_lt t neg
  · rename_i hm
    split
    · rename_i hn
      exact roundNarrow_lt hn r neg hm e
    · exact roundIeee_lt t r neg m e

end Sys2Proof.Claims
end

section
/-!
PROOFS. The exact accumulator (R154, R155, R275 to R277) and the check residues (R156, R278).
-/
namespace Sys2Proof.Claims

open Sys2Proof.Machine

/-! ## The values of a group's elements by position -/

theorem fval_eq (t : FType) (a : Word) (i : Nat) : fval t a i = valueAt t a i := by
  rw [fval, valueAt, elemN_eq]

/-- A position of a group's words lies in one of its 32 lanes. -/
theorem lane_lt_of_position {p n : Nat} (h : p < 32 * n) : p / n < 32 :=
  Nat.div_lt_of_lt_mul (by rwa [mul_comm])

theorem groupVals_gathered {e : Env} {i : Issue} {g : Guard} (h : AllPresent e i g) (got : Nat → Got) (t : FType) :
    groupVals t (gathered e got) = positionsOf t (fun l => (got l).a) :=
  List.map_congr_left (fun p hp => by
    rw [fval_eq, gotA_gathered h got (lane_lt_of_position (List.mem_range.mp hp)), subCount])

theorem groupProducts_gathered {e : Env} {i : Issue} {g : Guard} (h : AllPresent e i g) (got : Nat → Got) (t : FType) :
    groupProducts t (gathered e got) =
      List.zipWith (fun x y => (mulF x y).1) (positionsOf t (fun l => (got l).a)) (positionsOf t (fun l => (got l).b)) := by
  rw [positionsOf, positionsOf, List.zipWith_map, List.zipWith_self]
  refine List.map_congr_left (fun p hp => ?_)
  have hl := lane_lt_of_position (List.mem_range.mp hp)
  rw [fval_eq, fval_eq, gotA_gathered h got hl, gotB_gathered h got hl, subCount]

/-! ## Exact sums in units of 2^-1074 (R154) -/

/-- A term that is a multiple of 2^-1074 is added exactly. -/
theorem kulTerm_eq {n : Bool} {m : Nat} {e : Int} (h : -1074 ≤ e) :
    (kulTerm n m e : ℚ) = ratOf (.fin n m e) * (2 : ℚ) ^ (1074 : Nat) := by
  have hpow : (2 : ℚ) ^ e * (2 : ℚ) ^ (1074 : Nat) = (2 : ℚ) ^ (e + 1074).toNat := by
    rw [← zpow_natCast, ← zpow_natCast, Int.toNat_of_nonneg (by omega), ← zpow_add₀ (by norm_num)]
    rfl
  rw [kulTerm, if_pos (by omega), ratOf, mul_assoc, hpow]
  cases n <;> simp [signedM]

theorem kulSum_concat (vs : List FV) (v : FV) : kulSum (vs ++ [v]) = kulSum vs + kulSum [v] := by
  unfold kulSum
  rw [List.foldl_append]
  cases v <;> simp

theorem kulSum_append (vs ws : List FV) : kulSum (vs ++ ws) = kulSum vs + kulSum ws := by
  induction ws using List.reverseRecOn with
  | nil => simp [kulSum]
  | append_singleton ws w ih => rw [← List.append_assoc, kulSum_concat, ih, kulSum_concat, add_assoc]

theorem kulSum_cons (v : FV) (vs : List FV) : kulSum (v :: vs) = kulSum [v] + kulSum vs := kulSum_append [v] vs

theorem kulSum_eq {vs : List FV} (h : ∀ v ∈ vs, expAtLeast (-1074) v) : (kulSum vs : ℚ) = termSum vs := by
  induction vs with
  | nil => rfl
  | cons v vs ih =>
    rw [kulSum_cons, termSum, List.map_cons, List.sum_cons, Int.cast_add, ih (fun w hw => h w (List.mem_cons_of_mem _ hw))]
    congr 1
    cases v with
    | nan _ => simp [kulSum, ratOf]
    | inf _ => simp [kulSum, ratOf]
    | fin n m e => simpa [kulSum] using kulTerm_eq (n := n) (m := m) (h (.fin n m e) List.mem_cons_self)

/-- Every element that KADD and KSCAN add is a multiple of 2^-1074 (R154). -/
theorem positionsOf_whole (t : FType) (f : Nat → Word) : ∀ v ∈ positionsOf t f, expAtLeast (-1074) v := by
  simp only [positionsOf, List.forall_mem_map]
  exact fun p _ => (expAtLeast_decodeF t _).mono (leastUnit_ge t)

/-- So is every product that KMAC adds (R154). -/
theorem products_whole {t : FType} (ht : t ≠ .f64) (f h : Nat → Word) :
    ∀ v ∈ List.zipWith (fun x y => (mulF x y).1) (positionsOf t f) (positionsOf t h), expAtLeast (-1074) v := by
  rw [positionsOf, positionsOf, List.zipWith_map, List.zipWith_self]
  simp only [List.forall_mem_map]
  intro p _
  have hu := leastUnit_ge_of_ne_f64 ht
  exact (expAtLeast_mulF (expAtLeast_decodeF t _) (expAtLeast_decodeF t _)).mono (by omega)

/-! ## k after terms are added (R275) -/

theorem any_eq_decide_mem (vs : List FV) (x : FV) : vs.any (fun v => decide (v = x)) = decide (x ∈ vs) := by
  rw [Bool.eq_iff_iff]
  simp

theorem any_isNan (vs : List FV) : vs.any isNan = (decide (.nan true ∈ vs) || decide (.nan false ∈ vs)) := by
  rw [Bool.eq_iff_iff]
  simp only [List.any_eq_true, Bool.or_eq_true, decide_eq_true_eq]
  constructor
  · rintro ⟨v, hv, hn⟩
    cases v with
    | nan s => cases s <;> simp [hv]
    | inf _ => cases hn
    | fin _ _ _ => cases hn
  · rintro (h | h)
    · exact ⟨_, h, rfl⟩
    · exact ⟨_, h, rfl⟩

theorem kul_add_eq {k : Kul} {vs : List FV} {r : Int} (h : ∀ v ∈ vs, expAtLeast (-1074) v)
    (hr : (r : ℚ) = k.k.toInt + termSum vs) : k.add vs = kAfter k vs r := by
  have hsum : k.k.toInt + kulSum vs = r := by
    rw [← kulSum_eq h] at hr
    exact_mod_cast hr.symm
  simp only [Kul.add, kAfter, hsum, any_eq_decide_mem, any_isNan, Bool.or_assoc]

/-! ## k rounded (R155) -/

/-- The zero of an empty sum: -0 under rd, where the format has it (R145, R155). -/
theorem zeroCode_rd (t : FType) (r : Rnd) :
    zeroCode t (decide (r = .rd)) = if r = .rd ∧ isNarrow t = false then 2 ^ (t.width - 1) else 0 := by
  unfold zeroCode signCode magBits
  cases isNarrow t <;> simp

theorem round_eq (k : Kul) (t : FType) (r : Rnd) : coded (k.round t r) = kRounded k t r := by
  unfold Kul.round kRounded
  have hnan : (k.kq || k.ko || (k.kp && k.kn)) = true ↔ k.kq = true ∨ k.ko = true ∨ (k.kp = true ∧ k.kn = true) := by simp [or_assoc]
  by_cases h : k.kq = true ∨ k.ko = true ∨ (k.kp = true ∧ k.kn = true)
  · rw [if_pos h, if_pos (hnan.mpr h)]
    rfl
  · rw [if_neg h, if_neg (hnan.not.mpr h), zeroCode_rd]
    simp only [apply_ite coded]
    rfl

theorem round_lt (k : Kul) (t : FType) (r : Rnd) : (k.round t r).1 < 2 ^ t.width := by
  unfold Kul.round
  simp only
  repeat' split
  · exact nanCode_lt t
  · exact infCode_lt t false
  · exact infCode_lt t true
  · exact zeroCode_lt t _
  · exact roundF_lt t r _ _ _

/-! ## Words of codes with their flags (R140) -/

theorem orFlags_toNat (l : List Flags) (a : Nat) : (l.map BitVec.toNat).foldl (· ||| ·) a = a ||| (orFlags l).toNat := by
  induction l generalizing a with
  | nil => simp [orFlags]
  | cons f l ih => simp [orFlags, ih, Nat.or_assoc]

theorem packNat_mod (w : Nat) (l : List Nat) : packNat w (l.map (· % 2 ^ w)) = packNat w l := by
  induction l with
  | nil => rfl
  | cons x l ih => simp [packNat, ih]

/-- A word of codes, packed, with the OR of their flags. -/
theorem floatWord_eq {w : Nat} {f : Nat → Nat × Flags} {g : Nat → Nat × Nat} (h : ∀ i, coded (f i) = g i) :
    floatWord w g = (pack w ((List.range (64 / w)).map (fun i => (f i).1)),
      (orFlags ((List.range (64 / w)).map (fun i => (f i).2))).toNat) := by
  obtain rfl : (fun i => coded (f i)) = g := funext h
  unfold floatWord
  rw [assemble_eq w _ (fun i => Nat.mod_lt _ (Nat.two_pow_pos w))]
  congr 1
  · have hpack := packNat_mod w ((List.range (64 / w)).map (fun i => (f i).1))
    rw [List.map_map] at hpack
    exact congrArg word hpack
  · have hor := orFlags_toNat ((List.range (64 / w)).map (fun i => (f i).2)) 0
    rw [List.map_map, Nat.zero_or] at hor
    exact hor

/-! ## KSCAN (R277) -/

/-- k after the terms of a list, from a running sum and its sticky bits. -/
def runningKul (k0 : Kul) (v : Int) (kp kn kq : Bool) (xs : List FV) : Kul :=
  k0.at (v + kulSum xs) (kp || xs.any (fun x => decide (x = .inf false))) (kn || xs.any (fun x => decide (x = .inf true)))
    (kq || xs.any isNan)

theorem runningKul_nil (k0 : Kul) (v : Int) (kp kn kq : Bool) : runningKul k0 v kp kn kq [] = k0.at v kp kn kq := by
  simp [runningKul, kulSum]

theorem runningKul_cons (k0 : Kul) (v : Int) (kp kn kq : Bool) (x : FV) (xs : List FV) :
    runningKul k0 v kp kn kq (x :: xs) =
      runningKul k0 (v + kulSum [x]) (kp || decide (x = .inf false)) (kn || decide (x = .inf true)) (kq || isNan x) xs := by
  rw [runningKul, runningKul, kulSum_cons]
  simp only [List.any_cons, add_assoc, Bool.or_assoc]

/-- The run over positions: at each position k after the terms so far, rounded, and at the end k after them all. -/
theorem kscanGo_eq (t : FType) (r : Rnd) (k0 : Kul) (xs : List FV) (v : Int) (kp kn kq : Bool) :
    kscanGo t r k0 v kp kn kq xs = ((List.range xs.length).map (fun p => (runningKul k0 v kp kn kq (xs.take (p + 1))).round t r),
      runningKul k0 v kp kn kq xs) := by
  induction xs generalizing v kp kn kq with
  | nil => rw [kscanGo, runningKul_nil]; rfl
  | cons x xs ih =>
    simp only [kscanGo, ih, List.length_cons, List.range_succ_eq_map, List.map_cons, List.map_map, Function.comp_def,
      List.take_succ_cons, List.take_zero, runningKul_cons, runningKul_nil]

/-- From k itself, the running state is k after the terms are added. -/
theorem kscanGo_start (t : FType) (r : Rnd) (k : Kul) (xs : List FV) :
    kscanGo t r k k.k.toInt k.kp k.kn k.kq xs =
      ((List.range xs.length).map (fun p => (k.add (xs.take (p + 1))).round t r), k.add xs) :=
  kscanGo_eq t r k xs k.k.toInt k.kp k.kn k.kq

/-- The part of a list over positions that belongs to one lane. -/
theorem drop_take_map_range {α : Type} (f : Nat → α) {l n N : Nat} (h : l * n + n ≤ N) :
    (((List.range N).map f).drop (l * n)).take n = (List.range n).map (fun i => f (l * n + i)) := by
  apply List.ext_getElem
  · simp; omega
  · intro i h1 h2
    simp

/-! ## Residues (R156) -/

/-- The least non-negative residue of an integer is congruent to it. -/
theorem residue_modEq (v : Int) : (residue v : Int) ≡ v [ZMOD 2 ^ 61 - 1] := by
  have hM : (resM : Int) = 2 ^ 61 - 1 := by decide
  rw [residue, hM, Int.toNat_of_nonneg (Int.emod_nonneg _ (by decide))]
  exact Int.mod_modEq _ _

theorem sum_residue_modEq (l : List Nat) (f : Nat → Int) :
    (((l.map (fun p => residue (f p))).foldl (· + ·) 0 : Nat) : Int) ≡ (l.map f).sum [ZMOD 2 ^ 61 - 1] := by
  rw [← List.sum_eq_foldl]
  induction l with
  | nil => rfl
  | cons p l ih =>
    simp only [List.map_cons, List.sum_cons, Nat.cast_add]
    exact (residue_modEq _).add ih

/-- A sum over positions is the sum over lanes of the sums over a lane's elements. -/
theorem sum_positions (f : Nat → Nat → Int) {n : Nat} (hn : 0 < n) (k : Nat) :
    ((List.range (k * n)).map (fun p => f (p / n) (p % n))).sum =
      ((List.range k).map (fun l => ((List.range n).map (f l)).sum)).sum := by
  induction k with
  | zero => simp
  | succ k ih =>
    rw [Nat.succ_mul, List.range_add, List.map_append, List.sum_append, ih, List.range_succ, List.map_append, List.sum_append,
      List.map_map]
    congr 1
    simp only [List.map_cons, List.map_nil, List.sum_cons, List.sum_nil, add_zero]
    refine congrArg List.sum (List.map_congr_left (fun i hi => ?_))
    have hi := List.mem_range.mp hi
    simp [Nat.add_comm (k * n), Nat.add_mul_div_right _ _ hn, Nat.div_eq_of_lt hi, Nat.mod_eq_of_lt hi]

/-- The exact sum of all sub-elements of the group's words. -/
def elementSum (t : IType) (got : Nat → Got) : Int :=
  ((List.range 32).map (fun l => ((List.range (64 / t.width)).map (fun i => elemI t (got l).a i)).sum)).sum

theorem ckSum_modEq {e : Env} {i : Issue} {g : Guard} (h : AllPresent e i g) (got : Nat → Got) (t : IType) :
    (ckSum t (gathered e got) : Int) ≡ elementSum t got [ZMOD 2 ^ 61 - 1] := by
  have hn : 0 < 64 / t.width := by cases t <;> decide
  rw [elementSum, ← sum_positions (fun l i => elemI t (got l).a i) hn]
  refine (sum_residue_modEq _ (fun p => subI t (gotA (gathered e got) (p / (64 / t.width))) (p % (64 / t.width)))).trans ?_
  rw [List.map_congr_left (g := fun p => elemI t (got (p / (64 / t.width))).a (p % (64 / t.width))) (fun p hp => by
    rw [gotA_gathered h got (lane_lt_of_position (n := 64 / t.width) (List.mem_range.mp hp)), elemI_eq]), subCount]

theorem residue_congr {v u : Int} (h : v ≡ u [ZMOD 2 ^ 61 - 1]) : residue v = (u % (2 ^ 61 - 1)).toNat := by
  rw [residue, show (resM : Int) = 2 ^ 61 - 1 by decide, h]

theorem residue_natCast (n : Nat) : residue n = n % (2 ^ 61 - 1) := by
  rw [residue, resM, ← Int.natCast_mod, Int.toNat_natCast]

/-- CKACC adds or takes the sum of the elements modulo 2^61 - 1. -/
theorem residue_accumulate {x y : Int} (h : x ≡ y [ZMOD 2 ^ 61 - 1]) (old : Int) (sub : Bool) :
    residue (if sub then old - x else old + x) = ((if sub then old - y else old + y) % (2 ^ 61 - 1)).toNat := by
  cases sub with
  | true => exact residue_congr (Int.ModEq.rfl.sub h)
  | false => exact residue_congr (Int.ModEq.rfl.add h)

/-! ## The words of the accumulator -/

theorem kclr_completes (g : Guard) : GroupCompletes (.kclr g) g none none none none (fun _ _ _ => True) groupGoesOn
    (fun _ _ gr => withK gr ⟨0, false, false, false, false⟩) :=
  groupGoesOn_of_body (body := fun _ _ => .ok (noWord, noFlags, fun gr => gr.setKul ⟨0, false, false, false, false⟩))
    (fun _ => rfl) (fun _ _ _ _ _ _ => rfl)

/-- KADD (R275). -/
theorem kadd_completes (g : Guard) (pat : LanePat) (ty : FType) (a : Src) {sum : Env → (Nat → Got) → Int}
    (hsum : ∀ e got, (sum e got : ℚ) = e.g.k.toInt + termSum (positionsOf ty (fun l => (got l).a))) :
    GroupCompletes (.kadd g pat ty a) g none (srcP pat (.flt ty) a) none none (fun _ e _ => 0 ∉ e.g.poisoned) groupGoesOn
      (fun e got gr => withK gr (kAfter e.g.kul (positionsOf ty (fun l => (got l).a)) (sum e got))) := by
  refine groupGoesOn_of_body (fun _ => rfl) (fun _ _ e got hall hk => ?_)
  have hadd : e.g.kul.add _ = _ := kul_add_eq (positionsOf_whole ty (fun l => (got l).a)) (hsum e got)
  rw [unpoisoned_ok (by simpa [markK] using hk), groupVals_gathered hall, hadd]
  rfl

/-- KMAC (R275). -/
theorem kmac_completes (g : Guard) (pat : Pat) {ty : FType} (a b : Src) (hty : ty ≠ .f64) {sum : Env → (Nat → Got) → Int}
    (hsum : ∀ e got, (sum e got : ℚ) = e.g.k.toInt + termSum (List.zipWith (fun x y => (mulF x y).1)
      (positionsOf ty (fun l => (got l).a)) (positionsOf ty (fun l => (got l).b)))) :
    GroupCompletes (.kmac g pat ty a b) g none (srcA pat (.flt ty) a) (srcB pat (.flt ty) b) none (fun _ e _ => 0 ∉ e.g.poisoned)
      groupGoesOn (fun e got gr => withK gr (kAfter e.g.kul (List.zipWith (fun x y => (mulF x y).1)
        (positionsOf ty (fun l => (got l).a)) (positionsOf ty (fun l => (got l).b))) (sum e got))) := by
  refine groupGoesOn_of_body (fun _ => rfl) (fun _ _ e got hall hk => ?_)
  have hadd : e.g.kul.add _ = _ := kul_add_eq (products_whole hty (fun l => (got l).a) (fun l => (got l).b)) (hsum e got)
  rw [unpoisoned_ok (by simpa [markK] using hk), groupProducts_gathered hall, hadd]
  rfl

/-- KRND (R155, R276). -/
theorem krnd_completes (g : Guard) (ty : FType) (r : Rnd) (d : Operand) {res : Env → (Nat → Got) → Nat → Word × Nat}
    (hres : res = fun e _ _ => (assemble ty.width (fun _ => (kRounded e.g.kul ty r).1), (kRounded e.g.kul ty r).2)) :
    GroupCompletes (.krnd g ty r d) g (some d) none none none (fun _ e got => 0 ∉ e.g.poisoned ∧ groupQuiet res e got) (groupFlags res)
      (fun _ _ gr => gr) := by
  refine groupFlags_of_body (fun _ => rfl) (fun _ _ _ h => h.2) (fun _ _ e got _ hok => ?_)
  refine ⟨fun _ => mapSub ty.width (fun _ => (e.g.kul.round ty r).1), fun _ => (e.g.kul.round ty r).2,
    unpoisoned_ok (by simpa [markK] using hok.1) _, fun l _ => ?_⟩
  simp only [hres, ← round_eq, coded]
  rw [assemble_eq _ _ (fun _ => round_lt e.g.kul ty r)]

/-- KSCAN (R277): the state before each position's rounding is k after the terms up to it. -/
theorem kscan_completes (o : Un FType) (r : Rnd) {pre : Env → (Nat → Got) → Nat → Kul} {res : Env → (Nat → Got) → Nat → Word × Nat}
    (hpre : ∀ e got p, pre e got p = e.g.kul.add ((positionsOf o.ty (fun l => (got l).a)).take (p + 1)))
    (hres : res = fun e got l => floatWord o.ty.width (fun i => kRounded (pre e got (l * (64 / o.ty.width) + i)) o.ty r)) :
    GroupCompletes (.kscan o r) o.g (some o.d) (srcA o.pat (.flt o.ty) o.a) none none
      (fun _ e got => 0 ∉ e.g.poisoned ∧ groupQuiet res e got) (groupFlags res)
      (fun e got gr => withK gr (pre e got (32 * (64 / o.ty.width) - 1))) := by
  refine groupFlags_of_body (fun _ => rfl) (fun _ _ _ h => h.2) (fun _ _ e got hall hok => ?_)
  have hn : 0 < 64 / o.ty.width := by cases o.ty <;> decide
  have hlen : (positionsOf o.ty (fun l => (got l).a)).length = 32 * (64 / o.ty.width) := by simp [positionsOf]
  have hend : pre e got (32 * (64 / o.ty.width) - 1) = e.g.kul.add (positionsOf o.ty (fun l => (got l).a)) := by
    rw [hpre, List.take_of_length_le (by omega)]
  rw [hend]
  simp only [groupVals_gathered hall, kscanGo_start, hlen, unpoisoned_ok (show ∀ m ∈ [markK], m ∉ e.g.poisoned by simpa [markK] using hok.1)]
  refine ⟨_, _, rfl, fun l hl => ?_⟩
  have hmine : l * (64 / o.ty.width) + 64 / o.ty.width ≤ 32 * (64 / o.ty.width) := by
    rw [← Nat.succ_mul]
    exact Nat.mul_le_mul_right _ hl
  simp only [hres]
  rw [floatWord_eq (fun i => round_eq (pre e got (l * (64 / o.ty.width) + i)) o.ty r), subCount, drop_take_map_range _ hmine]
  simp only [List.map_map, Function.comp_def, hpre]

/-! ## The words of the residues -/

theorem ckclr_clear_completes (g : Guard) (c : Fin 4) : GroupCompletes (.ckclr g c .clear) g none none none none (fun _ _ _ => True)
    groupGoesOn (fun _ _ gr => { gr with c := Table.set gr.c c.val 0, poisoned := cleared gr.poisoned (1 + c.val) }) :=
  groupGoesOn_of_body (body := fun _ _ => .ok (noWord, noFlags, fun gr => gr.setC c 0)) (fun _ => rfl) (fun _ _ _ _ _ _ => rfl)

theorem ckclr_set_completes (g : Guard) (c : Fin 4) (a : Src) (pat : LanePat) :
    GroupCompletes (.ckclr g c (.set a pat)) g none (srcP pat .whole a) none none (fun _ _ _ => True) groupGoesOn
      (fun _ got gr => { gr with c := Table.set gr.c c.val (BitVec.ofNat 64 ((got 0).a.toNat % (2 ^ 61 - 1))),
                                 poisoned := cleared gr.poisoned (1 + c.val) }) := by
  refine groupGoesOn_of_body
    (body := fun _ gs => .ok (noWord, noFlags, fun gr => gr.setC c (word (residue (gotA gs 0).toNat)))) (fun _ => rfl)
    (fun _ _ e got hall _ => ?_)
  rw [gotA_gathered hall got (by decide), residue_natCast]
  rfl

/-- CKACC (R278). -/
theorem ckacc_completes (g : Guard) (pat : LanePat) (ty : IType) (c : Fin 4) (a : Src) (sub : Bool) :
    GroupCompletes (.ckacc g pat ty c a sub) g none (srcP pat (.int ty) a) none none (fun _ e _ => 1 + c.val ∉ e.g.poisoned) groupGoesOn
      (fun e got gr => { gr with
        c := Table.set gr.c c.val (BitVec.ofNat 64 (((if sub then ((Table.getD e.g.c c.val 0).toNat : Int) - elementSum ty got
          else (Table.getD e.g.c c.val 0).toNat + elementSum ty got) % (2 ^ 61 - 1)).toNat)),
        poisoned := cleared gr.poisoned (1 + c.val) }) := by
  refine groupGoesOn_of_body (fun _ => rfl) (fun _ _ e got hall hc => ?_)
  rw [unpoisoned_ok (by simpa [markC] using hc), residue_accumulate (ckSum_modEq hall got ty)]
  rfl

theorem ckchk_equal_completes (g : Guard) (ca cb : Fin 4) : GroupCompletes (.ckchk g (.check ca cb)) g none none none none
    (fun _ e _ => 1 + ca.val ∉ e.g.poisoned ∧ 1 + cb.val ∉ e.g.poisoned ∧ Table.getD e.g.c ca.val 0 = Table.getD e.g.c cb.val 0)
    groupGoesOn (fun _ _ gr => gr) := by
  refine groupGoesOn_of_body (fun _ => rfl) (fun _ _ e _ _ hok => ?_)
  obtain ⟨ha, hb, heq⟩ := hok
  rw [unpoisoned_ok (by simpa [markC] using ⟨ha, hb⟩)]
  exact if_neg (not_not.mpr heq)

theorem ckchk_get_completes (g : Guard) (d : Operand) (ca : Fin 4) : GroupCompletes (.ckchk g (.get d ca)) g (some d) none none none
    (fun _ e _ => 1 + ca.val ∉ e.g.poisoned) (groupWrites (fun e _ _ => Table.getD e.g.c ca.val 0)) (fun _ _ gr => gr) := by
  refine groupWrites_of_body (fun _ => rfl) (fun _ _ e _ _ hok => ?_)
  rw [unpoisoned_ok (by simpa [markC] using hok)]
  rfl

/-- CKCHK of two residues that differ: trap 0x12 with both fields in tval (R278, R364). -/
theorem ckchk_differs_traps (g : Guard) (ca cb : Fin 4) : GroupCompletes (.ckchk g (.check ca cb)) g none none none none
    (fun _ e _ => 1 + ca.val ∉ e.g.poisoned ∧ 1 + cb.val ∉ e.g.poisoned ∧ Table.getD e.g.c ca.val 0 ≠ Table.getD e.g.c cb.val 0 ∧
      ∀ p ∈ e.g.threads, ¬inHandler p.2)
    (fun e got l => entered (got l).t 0x12 (BitVec.ofNat 64 (ca.val + cb.val * 256)) (got l).t.pc e.tvec) (fun _ _ gr => gr) := by
  refine groupCompletes_of_trap (tr := ⟨0x12, word (ca.val + cb.val * 256)⟩) (fun _ => rfl) rfl (fun _ _ e got _ hc hok => ?_)
  obtain ⟨ha, hb, hne, hh⟩ := hok
  refine ⟨?_, fun p hp => ⟨hh p hp, ?_⟩⟩
  · rw [unpoisoned_ok (by simpa [markC] using ⟨ha, hb⟩)]
    exact if_pos hne
  · have ht : (got p.1).t = p.2 := by
      have hgot := hc p hp
      rw [collect_nothing, Except.ok.injEq] at hgot
      rw [← hgot]
    rw [ht]
    rfl

/-- Settles O19: each word's clause is the lemma above of its name. KADD and KMAC add terms that are all multiples of 2^-1074, so the sum
that the statement gives in rationals is the integer that k holds; KSCAN's states are k after the terms so far. -/
theorem exactSums : Obligations.ExactSums := by
  unfold Obligations.ExactSums
  refine ⟨kclr_completes, fun g pat ty a sum hsum => kadd_completes g pat ty a hsum,
    fun g pat ty a b sum hty => fun hsum => kmac_completes g pat a b hty hsum,
    fun g ty r d => krnd_completes g ty r d rfl, fun o r pre hpre => kscan_completes o r (fun e got p => ?_) rfl,
    ckclr_clear_completes, ckclr_set_completes, ckacc_completes, ckchk_equal_completes, ckchk_get_completes, ckchk_differs_traps⟩
  obtain ⟨v, hv, hp⟩ := hpre e got p
  have hadd : e.g.kul.add _ = _ :=
    kul_add_eq (fun x hx => positionsOf_whole o.ty (fun l => (got l).a) x (List.mem_of_mem_take hx)) hv
  rw [hp, hadd]
  rfl

end Sys2Proof.Claims
end

section
/-!
PROOFS. Logic, shifts, counts and bit fields (R199, R200): what the machine computes on one element is the number of the table, and each word
has the table's number in every sub-element.
-/
namespace Sys2Proof.Claims

open Sys2Proof.Machine

/-! ## Words from the bits of each element -/

theorem sub_lt (a : Word) (w i : Nat) : sub a w i < 2 ^ w := Nat.mod_lt _ (Nat.two_pow_pos w)

/-- Two words of elements are one where their elements agree modulo 2^w. -/
theorem mapSub_eq_bitsWord {w : Nat} {f g : Nat → Nat} (h : ∀ i, f i % 2 ^ w = g i % 2 ^ w) : mapSub w f = bitsWord w g := by
  rw [bitsWord, assemble_eq w _ (fun i => Nat.mod_lt _ (Nat.two_pow_pos w)), ← funext h]
  have hpack := packNat_mod w ((List.range (subCount w)).map f)
  rw [List.map_map] at hpack
  exact (congrArg word hpack).symm

/-- A word of one source has a number in every sub-element when the machine computes that number, modulo 2^w, on every element. -/
theorem logic1_eq {t : IType} {f : Nat → Nat → Nat} {g : Nat → Nat}
    (h : ∀ x, x < 2 ^ t.width → f t.width x % 2 ^ t.width = g x % 2 ^ t.width) (a : Word) :
    logic1 t f a = bitsWord t.width (fun i => g (elemN t.width a i)) := by
  simp only [elemN_eq]
  exact mapSub_eq_bitsWord (fun i => h _ (sub_lt a t.width i))

theorem logic2_eq {t : IType} {f : Nat → Nat → Nat → Nat} {g : Nat → Nat → Nat}
    (h : ∀ x y, x < 2 ^ t.width → f t.width x y % 2 ^ t.width = g x y % 2 ^ t.width) (a b : Word) :
    logic2 t f a b = bitsWord t.width (fun i => g (elemN t.width a i) (elemN t.width b i)) := by
  simp only [elemN_eq]
  exact mapSub_eq_bitsWord (fun i => h _ _ (sub_lt a t.width i))

/-- A word of three sources from the bits of each sub-element, as `logic1` and `logic2` are of one and of two. -/
def logic3 (t : IType) (f : Nat → Nat → Nat → Nat → Nat) (a b c : Word) : Word :=
  mapSub t.width (fun i => f t.width (sub a t.width i) (sub b t.width i) (sub c t.width i))

theorem logic3_eq {t : IType} {f : Nat → Nat → Nat → Nat → Nat} {g : Nat → Nat → Nat → Nat}
    (h : ∀ x y z, f t.width x y z = g x y z) (a b c : Word) :
    logic3 t f a b c = bitsWord t.width (fun i => g (elemN t.width a i) (elemN t.width b i) (elemN t.width c i)) := by
  simp only [elemN_eq]
  exact mapSub_eq_bitsWord (fun i => congrArg (· % _) (h _ _ _))

/-! ## Shifts (R199) -/

theorem shlN_mod (w x n : Nat) : shlN w x n % 2 ^ w = (if w ≤ n then 0 else x * 2 ^ n) % 2 ^ w := by
  unfold shlN
  split
  · rfl
  · rw [Nat.mod_mod, Nat.shiftLeft_eq]

theorem shrN_eq (w x n : Nat) : shrN w x n = if w ≤ n then 0 else x / 2 ^ n := by
  rw [shrN, Nat.shiftRight_eq_div_pow]

theorem toSigned_eq_signValue (w n : Nat) : toSigned w n = signValue w n := by
  unfold toSigned signValue
  split <;> split <;> omega

/-- An element of width w lies within 2^w of zero, on either side. -/
theorem signValue_bounds {w x : Nat} (h : x < 2 ^ w) : -(2 ^ w) ≤ signValue w x ∧ signValue w x < 2 ^ w := by
  have hx : (x : Int) < 2 ^ w := by exact_mod_cast h
  unfold signValue
  split <;> omega

/-- A number within 2^w of zero, divided by 2^w or more, is 0 or -1 by its sign: shifting further than w changes nothing. -/
theorem ediv_two_pow_of_le {v : Int} {w n : Nat} (hv : -(2 ^ w) ≤ v ∧ v < 2 ^ w) (h : w ≤ n) :
    v / 2 ^ n = if v < 0 then -1 else 0 := by
  have hwn : (2 : Int) ^ w ≤ 2 ^ n := by exact_mod_cast Nat.pow_le_pow_right (by decide) h
  split
  · exact Int.ediv_eq_neg_one_of_neg_of_le (by omega) (by omega)
  · exact Int.ediv_eq_zero_of_lt (by omega) (by omega)

theorem sarN_eq {w x : Nat} (n : Nat) (h : x < 2 ^ w) : sarN w x n = (signValue w x / 2 ^ n % 2 ^ w).toNat := by
  have hdiv : signValue w x / 2 ^ min n w = signValue w x / 2 ^ n := by
    rcases Nat.le_total n w with hn | hn
    · rw [min_eq_left hn]
    · rw [min_eq_right hn, ediv_two_pow_of_le (signValue_bounds h) le_rfl, ediv_two_pow_of_le (signValue_bounds h) hn]
  rw [sarN, toSigned_eq_signValue, hdiv]

/-- A rotation: the bits that leave at the top are those that a right shift by the rest keeps, and they fall into the zeros below. -/
theorem rotlN_mod {w x : Nat} (n : Nat) (hw : 0 < w) (h : x < 2 ^ w) :
    rotlN w x n % 2 ^ w = (x * 2 ^ (n % w) + x / 2 ^ (w - n % w)) % 2 ^ w := by
  unfold rotlN
  have hk : n % w < w := Nat.mod_lt n hw
  generalize n % w = k at hk ⊢
  have hsplit : 2 ^ w = 2 ^ k * 2 ^ (w - k) := by rw [← Nat.pow_add]; congr 1; omega
  have hlow : x / 2 ^ (w - k) < 2 ^ k := Nat.div_lt_of_lt_mul (by rwa [Nat.mul_comm, ← hsplit])
  have hhigh : x * 2 ^ k % 2 ^ w = 2 ^ k * (x % 2 ^ (w - k)) := by rw [Nat.mul_comm, hsplit, Nat.mul_mod_mul_left]
  rw [Nat.shiftLeft_eq, Nat.shiftRight_eq_div_pow, hhigh, ← Nat.two_pow_add_eq_or_of_lt hlow, ← hhigh, Nat.mod_add_mod]

/-! ## Counts and reversal (R199) -/

theorem testBit_ite_eq_bitOf (x j : Nat) : (if x.testBit j then 1 else 0) = Claims.bitOf x j := by
  rw [Nat.testBit_eq_decide_div_mod_eq, Claims.bitOf]
  rcases Nat.mod_two_eq_zero_or_one (x / 2 ^ j) with h | h <;> simp [h]

theorem clzN_eq {w x : Nat} (h : x < 2 ^ w) : clzN w x = leadingZeros w x := by
  induction w with
  | zero =>
    obtain rfl : x = 0 := by simpa using h
    rfl
  | succ w ih =>
    unfold clzN
    cases hb : x.testBit w with
    | true =>
      have hx : 2 ^ w ≤ x := Nat.ge_two_pow_of_testBit hb
      have h0 : x ≠ 0 := ((Nat.two_pow_pos w).trans_le hx).ne'
      have hlog : Nat.log2 x = w := (Nat.log2_eq_iff h0).mpr ⟨hx, h⟩
      simp [leadingZeros, h0, hlog]
    | false =>
      have hx : x < 2 ^ w := by
        by_contra hle
        rw [Nat.testBit_of_two_pow_le_and_two_pow_add_one_gt (not_lt.mp hle) h] at hb
        cases hb
      rw [if_neg (by simp), ih hx]
      unfold leadingZeros
      split
      · omega
      · rename_i h0
        have hlog := (Nat.log2_lt h0).mpr hx
        omega

theorem popcN_eq (w x : Nat) : popcN w x = ((List.range w).map (Claims.bitOf x)).sum := by
  induction w with
  | zero => rfl
  | succ w ih =>
    rw [popcN, ih, testBit_ite_eq_bitOf, List.range_succ, List.map_append, List.sum_append, Nat.add_comm]
    simp

theorem brevN_eq (w x : Nat) : brevN w x = ((List.range w).map (fun j => Claims.bitOf x (w - 1 - j) * 2 ^ j)).sum := by
  have hbit : ∀ j, Claims.bitOf x (w - 1 - j) < 2 ^ 1 := fun j => Nat.mod_lt _ (by decide)
  have hsum := packNat_eq 1 (fun j => Claims.bitOf x (w - 1 - j)) w 0 hbit
  simp only [testBit_ite_eq_bitOf, brevN, List.range_eq_range']
  simpa using hsum

/-! ## Bit fields (R200) -/

theorem fieldOf_eq (w c : Nat) : fieldOf w c = control w c := by
  unfold fieldOf control
  simp only [ge_iff_le, min_def]

/-- The length that a control gives is at least 1 and stays within the element. -/
theorem control_len {w c pos len : Nat} (h : control w c = some (pos, len)) : 0 < len ∧ pos + len ≤ w := by
  unfold control at h
  simp only at h
  generalize c % 2 ^ (w / 2) = p at h
  generalize c / 2 ^ (w / 2) = n at h
  split at h
  · cases h
  · cases h
    split <;> omega

/-- A field sign-extended from its own width to the element's. -/
theorem toSigned_mod {len w f : Nat} (hlen : len ≤ w) (hf : f < 2 ^ len) :
    (toSigned len f % 2 ^ w).toNat = if 2 ^ (len - 1) ≤ f then f + 2 ^ w - 2 ^ len else f := by
  have hpow : 2 ^ len ≤ 2 ^ w := Nat.pow_le_pow_right (by decide) hlen
  have hcast : ∀ n : Nat, (2 : Int) ^ n = ((2 ^ n : Nat) : Int) := fun n => by norm_cast
  unfold toSigned
  rw [hcast len, hcast w]
  generalize 2 ^ len = l at *
  generalize 2 ^ w = m at *
  by_cases hneg : 2 ^ (len - 1) ≤ f
  · rw [if_neg (by omega), if_pos hneg, ← Int.add_emod_right, Int.emod_eq_of_lt (by omega) (by omega)]
    omega
  · rw [if_pos (by omega), if_neg hneg, Int.emod_eq_of_lt (by omega) (by omega), Int.toNat_natCast]

theorem bfxN_eq (t : IType) (x c : Nat) : bfxN t x c = extracted t x c := by
  unfold bfxN extracted
  rw [fieldOf_eq]
  cases hc : control t.width c with
  | none => rfl
  | some p =>
    obtain ⟨pos, len⟩ := p
    obtain ⟨-, hlen⟩ := control_len hc
    simp only [Nat.shiftRight_eq_div_pow]
    rw [toSigned_mod (by omega) (Nat.mod_lt _ (Nat.two_pow_pos len))]
    cases t.signed <;> simp

theorem bfiN_eq (w x y c : Nat) : bfiN w x y c = inserted w x y c := by
  unfold bfiN inserted
  rw [fieldOf_eq]
  cases control w c with
  | none => rfl
  | some p => ring

/-- Settles O2: the logic words are those of whole registers, and every other word has in each sub-element the number that the lemma of its
name gives. -/
theorem logicAndShifts : Obligations.LogicAndShifts := by
  unfold Obligations.LogicAndShifts
  refine ⟨fun o => ?_, fun o => ?_, fun o => ?_, fun o => ?_, fun o => ?_, fun o => ?_, fun o => ?_, fun o => ?_, fun o => ?_,
    fun o => ?_, fun o => ?_, fun o => ?_, fun o => ?_, fun o => ?_⟩
  · exact binInt_completes (fun _ => rfl) (fun _ _ => rfl)
  · exact binInt_completes (fun _ => rfl) (fun _ _ => rfl)
  · exact binInt_completes (fun _ => rfl) (fun _ _ => rfl)
  · exact binInt_completes (f := fun a b => a &&& ~~~b) (fun _ => rfl) (fun _ _ => rfl)
  · exact unInt_completes (f := fun a => ~~~a) (fun _ => rfl) (fun _ => rfl)
  · exact binInt_completes (fun _ => rfl) (logic2_eq (fun x n _ => shlN_mod _ x n))
  · exact binInt_completes (fun _ => rfl) (logic2_eq (fun x n _ => congrArg (· % _) (shrN_eq _ x n)))
  · exact binInt_completes (fun _ => rfl) (logic2_eq (fun x n hx => congrArg (· % _) (sarN_eq n hx)))
  · exact binInt_completes (fun _ => rfl) (logic2_eq (fun x n hx => rotlN_mod n (by cases o.ty <;> decide) hx))
  · exact unInt_completes (fun _ => rfl) (logic1_eq (fun x hx => congrArg (· % _) (clzN_eq hx)))
  · exact unInt_completes (fun _ => rfl) (logic1_eq (fun x _ => congrArg (· % _) (popcN_eq _ x)))
  · exact unInt_completes (fun _ => rfl) (logic1_eq (fun x _ => congrArg (· % _) (brevN_eq _ x)))
  · exact binInt_completes (fun _ => rfl) (logic2_eq (fun x c _ => congrArg (· % _) (bfxN_eq o.ty x c)))
  · exact terInt_completes (f := logic3 o.ty bfiN) (fun _ => rfl) (logic3_eq (bfiN_eq o.ty.width))

end Sys2Proof.Claims
end

section
/-!
PROOFS. Software traps, SYSC and ERET (R219, R222, R223), containment in a handler (R366), and the flags of the float arithmetic of two operands
with trap 0x14 (R140, R259).
-/
namespace Sys2Proof.Claims

open Sys2Proof.Machine

/-! ## Program counters (R62, R63) -/

theorem ptrAdd_eq_pcPlus (pc : Word) (d : Int) : ptrAdd pc d = pcPlus pc d := by
  have hm : (0 : Int) < 2 ^ 54 := by norm_num
  have hlt : (((pc.toNat % 2 ^ 54 : Nat) + d) % 2 ^ 54).toNat < 2 ^ 54 := by
    have := Int.emod_lt_of_pos ((pc.toNat % 2 ^ 54 : Nat) + d) hm
    omega
  unfold ptrAdd ptr pcPlus pointer tagOf vaOf word
  rw [Nat.mod_eq_of_lt hlt, Nat.shiftRight_eq_div_pow]

theorem nextPc_eq_pcPlus (pc : Word) : nextPc pc = pcPlus pc 8 := ptrAdd_eq_pcPlus pc 8

theorem advance_eq (t : Thread) : t.advance = { t with pc := pcPlus t.pc 8 } := by
  rw [Thread.advance, nextPc_eq_pcPlus]

/-- The model's test for a handler is the statement's. -/
theorem inHandler_iff (t : Thread) : t.inHandler = true ↔ inHandler t := Iff.rfl

/-! ## What a trap comes to (R222, R366) -/

/-- Outside a handler, a trap that is no decode trap enters the handler with the word at which the thread is to resume. -/
theorem takeTrap_enters {t : Thread} {vec resume : Word} {tr : Trap} (hd : tr.isDecode = false) (hh : ¬inHandler t) :
    t.takeTrap vec resume tr = ⟨entered t tr.cause tr.val resume vec, none⟩ := by
  rcases Thread.takeTrap_cases t vec resume tr with ⟨-, h, -⟩ | ⟨-, -, h⟩ | ⟨-, h, -⟩
  · rw [hd] at h; cases h
  · exact h
  · exact absurd h hh

/-- In a handler it leaves the thread as it is and asks for the containment of its block. -/
theorem takeTrap_contains {t : Thread} {vec resume : Word} {tr : Trap} (hd : tr.isDecode = false) (hh : inHandler t) :
    t.takeTrap vec resume tr = ⟨t, some (.contain tr resume)⟩ := by
  rcases Thread.takeTrap_cases t vec resume tr with ⟨-, h, -⟩ | ⟨-, h, -⟩ | ⟨-, -, h⟩
  · rw [hd] at h; cases h
  · exact absurd (h.symm.trans hh) (by decide)
  · exact h

/-- The shape of a word without operands whose every selected lane comes to the thread given. -/
theorem lanesComplete_of_word {ins : Instr} {g : Guard} {f : LaneFn} {ok : Env → Nat → Thread → Got → Prop}
    {new : Env → Nat → Thread → Got → Thread} (hm : ∀ s, exec ins s = lanewise g f s)
    (hf : ∀ e l t r, ok e l t r → f e l t = ⟨new e l t r, none⟩) : LanesComplete ins g none none none none ok new := by
  intro s i rest e got hi he hc
  rw [hm s]
  exact lanewise_completes hi he (fun p hp hl hs => hf e p.1 p.2 (got p.1) (hc p hp hl hs).2.2)

/-! ## The words that trap and return (R219, R222, R223) -/

theorem nop_completes (g : Guard) : LanesComplete (.nop g) g none none none none noCondition
    (fun _ _ t _ => { t with pc := pcPlus t.pc 8 }) :=
  lanesComplete_of_word (fun _ => rfl) (fun _ _ t _ _ => by rw [advance_eq])

theorem trap_enters (g : Guard) (imm : BitVec 8) : LanesComplete (.trap g imm) g none none none none (fun _ _ t _ => ¬inHandler t)
    (fun e _ t _ => entered t 0x17 (imm.setWidth 64) (pcPlus t.pc 8) e.tvec) :=
  lanesComplete_of_word (fun _ => rfl) (fun _ _ _ _ hh => by rw [takeTrap_enters rfl hh, nextPc_eq_pcPlus, word, BitVec.ofNat_toNat])

theorem bpt_enters (g : Guard) (imm : BitVec 8) : LanesComplete (.bpt g imm) g none none none none (fun _ _ t _ => ¬inHandler t)
    (fun e _ t _ => entered t 0x16 (imm.setWidth 64) t.pc e.tvec) :=
  lanesComplete_of_word (fun _ => rfl) (fun _ _ _ _ hh => by rw [takeTrap_enters rfl hh, word, BitVec.ofNat_toNat])

theorem sysc_enters (g : Guard) (fn : BitVec 6) : LanesComplete (.sysc g fn) g none none none none (fun _ _ t _ => ¬inHandler t)
    (fun e _ t _ => entered t 0 (fn.setWidth 64) (pcPlus t.pc 8) e.svec) := by
  refine lanesComplete_of_word (fun _ => rfl) (fun e _ t _ hh => ?_)
  rw [if_neg ((inHandler_iff t).not.mpr hh), nextPc_eq_pcPlus, word, BitVec.ofNat_toNat]
  rfl

theorem eret_returns (g : Guard) : LanesComplete (.eret g) g none none none none (fun _ _ t _ => inHandler t ∧ t.tepc.toNat % 8 = 0)
    (fun _ _ t _ => { t with tmode := 0, pc := t.tepc }) := by
  refine lanesComplete_of_word (fun _ => rfl) ?_
  rintro e l t r ⟨hh, halign⟩
  simp only [(inHandler_iff t).mpr hh, halign]
  rfl

/-- ERET outside a handler is a privilege violation (R223). -/
theorem eret_outside_enters (g : Guard) : LanesComplete (.eret g) g none none none none (fun _ _ t _ => ¬inHandler t)
    (fun e _ t _ => entered t 0x19 0 t.pc e.tvec) := by
  refine lanesComplete_of_word (fun _ => rfl) (fun e _ t _ hh => ?_)
  rw [if_pos (by simpa [← inHandler_iff] using hh), trapLane_enters rfl hh]

/-! ## Containment (R366, R390) -/

theorem mem_set_self {α : Type} (t : Table α) (n : Nat) (v : α) : (n, v) ∈ Table.set t n v := by
  induction t with
  | nil => simp [Table.set]
  | cons p t ih =>
    unfold Table.set
    split
    · simp
    · split
      · simp
      · exact List.mem_cons_of_mem _ ih

/-- A block that still has a group is not committing (R393). -/
theorem not_committing_setGroup (s : State) (n : Nat) (gr : Group) (b : Block) : (s.setGroup n gr).committing gr.blockKey b = false := by
  have hany : (Table.set s.groups n gr).any (fun p => decide (blockKey p.2.grid p.2.block = gr.blockKey)) = true :=
    List.any_eq_true.mpr ⟨_, mem_set_self s.groups n gr, decide_eq_true rfl⟩
  simp [State.committing, hany]

/-- A containment request for a block with a group, not stopped before, stops it (R390). -/
theorem stopBlock_stops {s : State} {n : Nat} {gr : Group} {b : Block} (hb : Table.find s.blocks (keyOf gr.grid gr.block) = some b)
    (hs : b.stopped = none) (cause : Nat) (val pc : Word) :
    Stopped (s.setGroup n gr) ((s.setGroup n gr).stopBlock gr.blockKey cause val pc) gr.grid gr.block b cause val pc := by
  have hfind : (s.setGroup n gr).block? gr.blockKey = some b := hb
  unfold State.stopBlock Stopped
  simp only [hfind, hs, not_committing_setGroup]
  rfl

section
variable {e : Env} {lanes : List Nat} {g : Guard} {f : LaneFn} {tr : Thread → Trap} {pc : Thread → Word}
  (h : ∀ p ∈ e.g.threads, p.1 ∈ lanes → runLane g f e p.1 p.2 = ⟨p.2, some (.contain (tr p.2) (pc p.2))⟩)
include h

/-- Where every issued lane traps in a handler, no thread changes. -/
theorem mapLanes_contained : e.g.mapLanes lanes (runLane g f e) = e.g := by
  have hmap : e.g.threads.map (fun p => if lanes.contains p.1 then (p.1, (runLane g f e p.1 p.2).t) else p) = e.g.threads := by
    refine (List.map_congr_left (fun p hp => ?_)).trans (List.map_id _)
    by_cases hl : p.1 ∈ lanes <;> simp [hl, h p hp]
  rw [Group.mapLanes, hmap]

/-- Each of them asks for containment, in lane order. -/
theorem asides_contained : e.g.asides lanes (runLane g f e) =
    (e.g.threads.filter (fun p => decide (p.1 ∈ lanes))).map (fun p => .contain (tr p.2) (pc p.2)) := by
  rw [← List.filterMap_eq_map, List.filterMap_filter, Group.asides]
  refine List.filterMap_congr (fun p hp => ?_)
  by_cases hl : p.1 ∈ lanes <;> simp [hl, h p hp]

end

section
variable {s : State} {i : Issue} {rest : List Issue} {e : Env} {l : Nat} {th : Thread} {more : List (Nat × Thread)} {b : Block}
  (hi : s.issue = i :: rest) (he : s.env? i = some e)
  (hl : e.g.threads.filter (fun p => decide (p.1 ∈ i.lanes)) = (l, th) :: more)
  (hb : Table.find s.blocks (keyOf e.g.grid e.g.block) = some b) (hs : b.stopped = none)
include hi he hl hb hs

/-- A word whose every issued lane traps in a handler: the block is stopped with the trap of the lowest lane, and no thread changes (R366). -/
theorem lanewise_contains {g : Guard} {f : LaneFn} (tr : Thread → Trap) (pc : Thread → Word)
    (h : ∀ p ∈ (l, th) :: more, p.2.selected g = true ∧ f e p.1 p.2 = ⟨p.2, some (.contain (tr p.2) (pc p.2))⟩) :
    ∃ t, lanewise g f s = .next t ∧ Stopped (s.setGroup i.group e.g) t e.g.grid e.g.block b (tr th).cause (tr th).val (pc th) := by
  have hrun : ∀ p ∈ e.g.threads, p.1 ∈ i.lanes → runLane g f e p.1 p.2 = ⟨p.2, some (.contain (tr p.2) (pc p.2))⟩ := by
    intro p hp hpl
    obtain ⟨hsel, hout⟩ := h p (hl ▸ List.mem_filter.mpr ⟨hp, decide_eq_true hpl⟩)
    rw [runLane_run hsel, hout]
  have hprobe : (((l, th) :: more).map (fun p => Aside.contain (tr p.2) (pc p.2))).contains .probe = false := by simp
  refine ⟨_, issued_cons hi _, ?_⟩
  unfold State.runLanes
  simp only [he, mapLanes_contained hrun, asides_contained hrun, hl, List.map_cons, firstContained] at hprobe ⊢
  rw [hprobe]
  exact stopBlock_stops hb hs _ _ _

/-- TRAP, BPT and SYSC in a handler (R219, R223, R366). -/
theorem software_traps_contained {g : Guard} {imm : BitVec 8} {fn : BitVec 6}
    (h : ∀ p ∈ (l, th) :: more, p.2.selected g = true ∧ inHandler p.2) :
    ∀ x ∈ ([(.trap g imm, 0x17, imm.setWidth 64, pcPlus th.pc 8), (.bpt g imm, 0x16, imm.setWidth 64, th.pc), (.sysc g fn, 0x19, 0, th.pc)] :
        List (Instr × Nat × Word × Word)),
      ∃ t, exec x.1 s = .next t ∧ Stopped (s.setGroup i.group e.g) t e.g.grid e.g.block b x.2.1 x.2.2.1 x.2.2.2 := by
  intro x hx
  simp only [List.mem_cons, List.not_mem_nil, or_false] at hx
  rw [← nextPc_eq_pcPlus, ← BitVec.ofNat_toNat] at hx
  rcases hx with rfl | rfl | rfl
  · exact lanewise_contains hi he hl hb hs (fun _ => ⟨0x17, word imm.toNat⟩) (fun t => nextPc t.pc)
      (fun p hp => ⟨(h p hp).1, takeTrap_contains rfl (h p hp).2⟩)
  · exact lanewise_contains hi he hl hb hs (fun _ => ⟨0x16, word imm.toNat⟩) (fun t => t.pc)
      (fun p hp => ⟨(h p hp).1, takeTrap_contains rfl (h p hp).2⟩)
  · refine lanewise_contains hi he hl hb hs (fun _ => ⟨0x19, 0⟩) (fun t => t.pc) (fun p hp => ⟨(h p hp).1, ?_⟩)
    rw [if_pos ((inHandler_iff p.2).mpr (h p hp).2)]
    exact takeTrap_contains rfl (h p hp).2

/-- ERET in a handler with a misaligned tepc (R223, R366). -/
theorem eret_misaligned_contained {g : Guard} (h : ∀ p ∈ (l, th) :: more, p.2.selected g = true ∧ inHandler p.2)
    (hodd : ∀ p ∈ (l, th) :: more, p.2.tepc.toNat % 8 ≠ 0) :
    ∃ t, exec (.eret g) s = .next t ∧ Stopped (s.setGroup i.group e.g) t e.g.grid e.g.block b 0x0E th.tepc th.pc := by
  refine lanewise_contains hi he hl hb hs (fun t => ⟨0x0E, t.tepc⟩) (fun t => t.pc) (fun p hp => ⟨(h p hp).1, ?_⟩)
  simp only [(inHandler_iff p.2).mpr (h p hp).2, if_pos (hodd p hp)]
  exact takeTrap_contains rfl (h p hp).2

end

/-! ## Float arithmetic raises no DZ (R139, R143, R259) -/

/-- Flags without DZ, whose trap would be 0x13. -/
def noDZ (f : Flags) : Prop := f &&& flagDZ = 0

theorem noDZ_zero : noDZ 0 := rfl

theorem noDZ_or {f h : Flags} (hf : noDZ f) (hh : noDZ h) : noDZ (f ||| h) := by
  unfold noDZ at *
  rw [BitVec.and_or_distrib_right, hf, hh]
  rfl

theorem noDZ_ite {p : Prop} [Decidable p] {f h : Flags} (hf : noDZ f) (hh : noDZ h) : noDZ (if p then f else h) := by
  split
  · exact hf
  · exact hh

theorem noDZ_orFlags {l : List Flags} (h : ∀ f ∈ l, noDZ f) : noDZ (orFlags l) := by
  induction l with
  | nil => rfl
  | cons f l ih => exact noDZ_or (h f (by simp)) (ih (fun x hx => h x (List.mem_cons_of_mem _ hx)))

theorem roundIeee_noDZ (t : FType) (r : Rnd) (neg : Bool) (m : Nat) (e : Int) : noDZ (roundIeee t r neg m e).2 := by
  unfold roundIeee
  simp only
  split
  · exact noDZ_or rfl rfl
  · exact noDZ_or (noDZ_ite rfl rfl) (noDZ_ite rfl rfl)

theorem roundNarrow_noDZ (t : FType) (r : Rnd) (neg : Bool) (m : Nat) (e : Int) : noDZ (roundNarrow t r neg m e).2 := by
  unfold roundNarrow
  simp only
  split
  · exact noDZ_or rfl rfl
  · split
    · exact noDZ_or rfl rfl
    · exact noDZ_ite rfl rfl

theorem roundF_noDZ (t : FType) (r : Rnd) (neg : Bool) (m : Nat) (e : Int) : noDZ (roundF t r neg m e).2 := by
  unfold roundF
  split
  · exact noDZ_zero
  · split
    · exact roundNarrow_noDZ t r neg m e
    · exact roundIeee_noDZ t r neg m e

theorem finishF_noDZ (t : FType) (r : Rnd) (v : FV) {fl : Flags} (h : noDZ fl) : noDZ (finishF t r v fl).2 := by
  cases v with
  | nan _ => exact h
  | inf _ => exact noDZ_or h (noDZ_ite rfl rfl)
  | fin neg m e => exact noDZ_or (roundF_noDZ t r neg m e) h

theorem sigNV_noDZ (a b : FV) : noDZ (sigNV a ||| sigNV b) := by
  have hone : ∀ v, noDZ (sigNV v) := fun v => by
    unfold sigNV
    split <;> rfl
  exact noDZ_or (hone a) (hone b)

theorem addF_noDZ (r : Rnd) (a b : FV) : noDZ (addF r a b).2 := by
  have hs := sigNV_noDZ a b
  cases a with
  | nan _ => exact hs
  | inf n =>
    cases b with
    | inf k =>
      rw [addF, apply_ite Prod.snd]
      exact noDZ_ite hs rfl
    | _ => exact hs
  | fin _ _ _ => cases b <;> exact hs

theorem mulF_noDZ (a b : FV) : noDZ (mulF a b).2 := by
  have hs := sigNV_noDZ a b
  cases a with
  | nan _ => exact hs
  | inf n =>
    cases b with
    | fin k m e =>
      rw [mulF, apply_ite Prod.snd]
      exact noDZ_ite rfl hs
    | _ => exact hs
  | fin n m e =>
    cases b with
    | inf k =>
      rw [mulF, apply_ite Prod.snd]
      exact noDZ_ite rfl hs
    | _ => exact hs

/-- A division by a zero raises DV, which is a flag of its own (R139, R143). -/
theorem divF_noDZ (a b : FV) : noDZ (divF a b).2 := by
  have hs := sigNV_noDZ a b
  cases a with
  | nan _ => exact hs
  | inf n =>
    cases b with
    | inf k => exact (rfl : noDZ flagNV)
    | _ => exact hs
  | fin n m e =>
    cases b with
    | fin k m' e' =>
      simp only [divF, apply_ite Prod.snd]
      exact noDZ_ite (noDZ_ite rfl rfl) (noDZ_ite hs hs)
    | _ => exact hs

/-! ## Words of float arithmetic and their trap (R140, R259, R364) -/

theorem arithF2_flags (t : FType) (r : Rnd) (f : FV → FV → FV × Flags) (a b : Word) :
    floatWord t.width (fun i =>
      let v := f (valueAt t a i) (valueAt t b i)
      coded (finishF t r v.1 v.2)) = ((arithF2 t r f a b).1, (arithF2 t r f a b).2.toNat) := by
  simp only [← fval_eq]
  rw [floatWord_eq (f := fun i => finishF t r (f (fval t a i) (fval t b i)).1 (f (fval t a i) (fval t b i)).2) (fun _ => rfl)]
  simp only [arithF2, mapF, List.map_map, Function.comp_def, subCount]

theorem arithF2_noDZ {f : FV → FV → FV × Flags} (h : ∀ x y, noDZ (f x y).2) (t : FType) (r : Rnd) (a b : Word) :
    noDZ (arithF2 t r f a b).2 := by
  refine noDZ_orFlags (fun fl hfl => ?_)
  simp only [List.map_map, List.mem_map] at hfl
  obtain ⟨i, -, rfl⟩ := hfl
  exact finishF_noDZ t r _ (h _ _)

/-- Enabled flags without DZ are trap 0x14, with the enabled flags raised in bits 12:8 of tval (R364). -/
theorem flagTrap_noDZ {t : Thread} {f : Flags} (hf : noDZ f) (hq : ¬quiet t f.toNat) :
    flagTrap t.astat f 0 = some ⟨0x14, BitVec.ofNat 64 (256 * (f.toNat &&& (t.astat.toNat / 256) % 64))⟩ := by
  have hen : enabledFlags t.astat f ≠ 0 := fun h0 => hq (by rw [quiet, ← enabled_toNat, h0]; rfl)
  have hdz : enabledFlags t.astat f &&& flagDZ = 0 := by
    rw [enabledFlags, BitVec.and_assoc, BitVec.and_comm _ flagDZ, ← BitVec.and_assoc, show f &&& flagDZ = 0 from hf]
    exact BitVec.zero_and
  have hlow : ∀ x : Flags, x &&& flagDZ = 0 → x &&& 0x1F = x := by decide
  rw [flagTrap, if_neg hen, if_neg (not_not.mpr hdz), hlow _ hdz, enabled_toNat, Nat.mul_comm, Nat.add_zero]
  rfl

/-- A word whose body ends in `finishFlags` and raises no DZ takes trap 0x14 where a raised flag is enabled. -/
theorem flagsTrap_of {ins : Instr} {g : Guard} {d : Operand} {a b c : Option SrcSpec} {f : Got → Word × Nat} {q : Got → Word × Flags}
    (hm : ∀ s, exec ins s = lanewise g (lane (some d) a b c (fun r => finishFlags r.t r.d (q r).1 (q r).2)) s)
    (hq : ∀ r, (q r).2.toNat = (f r).2) (hdz : ∀ r, noDZ (q r).2) : FlagsTrap ins g d a b c f := by
  refine lanesComplete_of_trap hm ?_
  rintro e l t r hr ⟨hnq, hh⟩
  rw [← hq] at hnq
  refine ⟨⟨0x14, _⟩, (q r).2.toNat, ?_, rfl, hh, by rw [hq]⟩
  rw [finishFlags, collect_astat hr, flagTrap_noDZ (hdz r) hnq, hq]

theorem binF_traps {ins : Instr} {o : Bin FType} {r : Rnd} {f : FV → FV → FV × Flags} (hm : ∀ s, exec ins s = binF o (arithF2 o.ty r f) s)
    (hf : ∀ x y, noDZ (f x y).2) :
    FlagsTrap ins o.g o.d (srcA o.pat (.flt o.ty) o.a) (srcB o.pat (.flt o.ty) o.b) none (fun x => floatWord o.ty.width (fun i =>
      let v := f (valueAt o.ty x.a i) (valueAt o.ty x.b i)
      coded (finishF o.ty r v.1 v.2))) :=
  flagsTrap_of (q := fun x => arithF2 o.ty r f x.a x.b) hm (fun x => by rw [arithF2_flags]) (fun x => arithF2_noDZ hf o.ty r x.a x.b)

/-- Settles O15: outside a handler each word enters or returns by the lemma of its name, in one its block is stopped with the trap of the lowest
issued lane; float arithmetic raises no DZ, so that its enabled flags trap with 0x14. -/
theorem softwareTraps : Obligations.SoftwareTraps := by
  unfold Obligations.SoftwareTraps
  refine ⟨fun g imm fn => ⟨nop_completes g, trap_enters g imm, bpt_enters g imm, sysc_enters g fn, eret_returns g, eret_outside_enters g, ?_⟩,
    fun o r p hp => ?_⟩
  · intro s i rest e l th more b hi he hl h hb hs
    exact ⟨software_traps_contained hi he hl hb hs h, fun hodd => eret_misaligned_contained hi he hl hb hs h hodd⟩
  · simp only [List.mem_cons, List.not_mem_nil, or_false] at hp
    rcases hp with rfl | rfl | rfl | rfl
    · exact binF_traps (f := addF r) (fun _ => rfl) (addF_noDZ r)
    · exact binF_traps (f := fun x y => addF r x (negF y)) (fun _ => rfl) (fun x y => addF_noDZ r x (negF y))
    · exact binF_traps (f := mulF) (fun _ => rfl) mulF_noDZ
    · exact binF_traps (f := divF) (fun _ => rfl) divF_noDZ

end Sys2Proof.Claims
end

section
/-!
PROOFS. FMIN, FMAX, FCMP and FCLASS (R260, R261, R264): the model's exact comparisons as comparisons of rationals, the NaN rules and flags of one
element, and the words assembled from their elements.
-/
namespace Sys2Proof.Claims

open Sys2Proof.Machine

/-! ## Exact comparisons as comparisons of rationals -/

theorem signedM_mul_zpow (n : Bool) (m : Nat) (e : Int) : (signedM n m : ℚ) * 2 ^ e = ratOf (.fin n m e) := by
  cases n <;> simp [signedM, ratOf]

/-- An exact sum in units of the lesser exponent. -/
theorem addExact_mul_zpow (n k : Int) (e f : Int) :
    ((addExact n e k f).1 : ℚ) * 2 ^ (min e f) = (n : ℚ) * 2 ^ e + (k : ℚ) * 2 ^ f := by
  have hunit : ∀ j : Int, min e f ≤ j → (2 : ℚ) ^ (j - min e f).toNat * 2 ^ (min e f) = 2 ^ j := fun j hj => by
    rw [← zpow_natCast, Int.toNat_of_nonneg (by omega), ← zpow_add₀ (by norm_num), Int.sub_add_cancel]
  simp only [addExact]
  push_cast
  rw [add_mul, mul_assoc, mul_assoc, hunit e (min_le_left e f), hunit f (min_le_right e f)]

/-- The numerator that the comparisons of two finite values look at. -/
def differenceOf (n : Bool) (m : Nat) (e : Int) (k : Bool) (q : Nat) (f : Int) : Int :=
  (addExact (signedM n m) e (-(signedM k q)) f).1

theorem differenceOf_mul_zpow (n : Bool) (m : Nat) (e : Int) (k : Bool) (q : Nat) (f : Int) :
    (differenceOf n m e k q f : ℚ) * 2 ^ (min e f) = ratOf (.fin n m e) - ratOf (.fin k q f) := by
  rw [differenceOf, addExact_mul_zpow, ← signedM_mul_zpow, ← signedM_mul_zpow]
  push_cast
  ring

theorem differenceOf_neg_iff (n : Bool) (m : Nat) (e : Int) (k : Bool) (q : Nat) (f : Int) :
    differenceOf n m e k q f < 0 ↔ ratOf (.fin n m e) < ratOf (.fin k q f) := by
  have hpos : (0 : ℚ) < 2 ^ (min e f) := by positivity
  rw [← sub_neg (a := ratOf _), ← differenceOf_mul_zpow, ← Int.cast_lt_zero (R := ℚ), ← mul_lt_mul_iff_left₀ hpos, zero_mul]

theorem differenceOf_eq_zero_iff (n : Bool) (m : Nat) (e : Int) (k : Bool) (q : Nat) (f : Int) :
    differenceOf n m e k q f = 0 ↔ ratOf (.fin n m e) = ratOf (.fin k q f) := by
  have hpos : (0 : ℚ) < 2 ^ (min e f) := by positivity
  rw [← sub_eq_zero (a := ratOf _), ← differenceOf_mul_zpow, mul_eq_zero_iff_right hpos.ne', Int.cast_eq_zero]

/-! ## The orders of R260 and R261 -/

theorem ratOf_zero (n : Bool) (e : Int) : ratOf (.fin n 0 e) = 0 := by simp [ratOf]

/-- Two finite values: zeros by their signs, all others by their difference. -/
theorem ltTotal_fin (n : Bool) (m : Nat) (e : Int) (k : Bool) (q : Nat) (f : Int) :
    ltTotal (.fin n m e) (.fin k q f) = if m = 0 ∧ q = 0 then n && !k else decide (differenceOf n m e k q f < 0) := rfl

theorem ltTotal_iff {a b : FV} (ha : isNan a = false) (hb : isNan b = false) : ltTotal a b = true ↔ precedes a b := by
  cases a with
  | nan _ => cases ha
  | inf n =>
    cases b with
    | nan _ => cases hb
    | inf k => simp [ltTotal, precedes, below]
    | fin k q f => simp [ltTotal, precedes, below]
  | fin n m e =>
    cases b with
    | nan _ => cases hb
    | inf k => simp [ltTotal, precedes, below]
    | fin k q f =>
      simp only [ltTotal_fin, precedes, below]
      by_cases hz : m = 0 ∧ q = 0
      · obtain ⟨rfl, rfl⟩ := hz
        simp [ratOf_zero]
      · rw [if_neg hz, decide_eq_true_iff, differenceOf_neg_iff]
        exact (or_iff_left (fun h => hz ⟨h.1, h.2.1⟩)).symm

theorem eqNum_iff (a b : FV) : eqNum a b = true ↔ same a b := by
  cases a with
  | nan _ => simp [eqNum, same]
  | inf n => cases b <;> simp [eqNum, same]
  | fin n m e =>
    cases b with
    | nan _ => simp [eqNum, same]
    | inf k => simp [eqNum, same]
    | fin k q f => exact decide_eq_true_iff.trans (differenceOf_eq_zero_iff n m e k q f)

/-- The numeric order is the order of R260 without the pair of zeros that it holds apart. -/
theorem below_iff_precedes (a b : FV) : below a b ↔ precedes a b ∧ ¬same a b := by
  cases a with
  | nan _ => simp [precedes, below]
  | inf n =>
    cases b with
    | nan _ => simp [precedes, below]
    | inf k => cases n <;> cases k <;> simp [precedes, below, same]
    | fin k q f => simp [precedes, below, same]
  | fin n m e =>
    cases b with
    | nan _ => simp [precedes, below]
    | inf k => simp [precedes, below, same]
    | fin k q f =>
      simp only [precedes, below, same]
      constructor
      · exact fun h => ⟨.inl h, h.ne⟩
      · rintro ⟨h | ⟨rfl, rfl, -, -⟩, hne⟩
        · exact h
        · exact absurd ((ratOf_zero n e).trans (ratOf_zero k f).symm) hne

theorem ltNum_iff {a b : FV} (ha : isNan a = false) (hb : isNan b = false) : ltNum a b = true ↔ below a b := by
  rw [below_iff_precedes, ← ltTotal_iff ha hb, ← eqNum_iff, ltNum, Bool.and_eq_true, Bool.not_eq_true', Bool.not_eq_true]

/-- The numeric order is total on the values that are not NaN. -/
theorem not_below_iff {a b : FV} (ha : isNan a = false) (hb : isNan b = false) : ¬below b a ↔ below a b ∨ same a b := by
  cases a with
  | nan _ => cases ha
  | inf n =>
    cases b with
    | nan _ => cases hb
    | inf k => cases n <;> cases k <;> simp [below, same]
    | fin k q f => simp [below, same]
  | fin n m e =>
    cases b with
    | nan _ => cases hb
    | inf k => simp [below, same]
    | fin k q f => exact not_lt.trans le_iff_lt_or_eq

theorem same_comm (a b : FV) : same a b ↔ same b a := by
  cases a <;> cases b <;> simp [same, eq_comm]

/-! ## Flags of two operands (R143) -/

theorem sigNV_or_toNat (a b : FV) : (sigNV a ||| sigNV b).toNat = if a = .nan true ∨ b = .nan true then 0x10 else 0 := by
  have hone : ∀ v, sigNV v = if v = .nan true then flagNV else 0 := fun v => by
    unfold sigNV
    split <;> simp_all
  rw [hone a, hone b]
  by_cases ha : a = .nan true <;> by_cases hb : b = .nan true <;> simp [ha, hb, flagNV]

theorem isNan_of_eq_nan {a : FV} {s : Bool} (h : a = .nan s) : isNan a = true := h ▸ rfl

/-- No operand is a NaN: none is a signalling one. -/
theorem sigNV_or_of_not_nan {a b : FV} (ha : isNan a = false) (hb : isNan b = false) : (sigNV a ||| sigNV b).toNat = 0 := by
  rw [sigNV_or_toNat, if_neg]
  rintro (h | h)
  · exact absurd (isNan_of_eq_nan h) (by simp [ha])
  · exact absurd (isNan_of_eq_nan h) (by simp [hb])

/-! ## FMIN and FMAX of one element (R260) -/

section
variable {t : FType} {nanFn max : Bool} {ca cb : Nat}

theorem minmaxF_both_nan (ha : isNan (Machine.decodeF t ca) = true) (hb : isNan (Machine.decodeF t cb) = true) :
    coded (minmaxF t nanFn max ca cb) =
      (nanCode t, if Machine.decodeF t ca = .nan true ∨ Machine.decodeF t cb = .nan true then 0x10 else 0) := by
  simp [minmaxF, coded, ha, hb, ← sigNV_or_toNat]

/-- A NaN and a number: the canonical NaN under .nan, the number's code under .num. -/
theorem minmaxF_left_nan (ha : isNan (Machine.decodeF t ca) = true) (hb : isNan (Machine.decodeF t cb) = false) :
    coded (minmaxF t nanFn max ca cb) = (if nanFn then nanCode t else cb,
      if Machine.decodeF t ca = .nan true ∨ Machine.decodeF t cb = .nan true then 0x10 else 0) := by
  simp [minmaxF, coded, ha, hb, ← sigNV_or_toNat]

theorem minmaxF_right_nan (ha : isNan (Machine.decodeF t ca) = false) (hb : isNan (Machine.decodeF t cb) = true) :
    coded (minmaxF t nanFn max ca cb) = (if nanFn then nanCode t else ca,
      if Machine.decodeF t ca = .nan true ∨ Machine.decodeF t cb = .nan true then 0x10 else 0) := by
  simp [minmaxF, coded, ha, hb, ← sigNV_or_toNat]

theorem minmaxF_numbers (ha : isNan (Machine.decodeF t ca) = false) (hb : isNan (Machine.decodeF t cb) = false) :
    coded (minmaxF t nanFn max ca cb) =
      (if xor (ltTotal (Machine.decodeF t cb) (Machine.decodeF t ca)) max then cb else ca, 0) := by
  simp [minmaxF, coded, ha, hb, sigNV_or_of_not_nan ha hb]

/-- The second operand comes first: the smaller is the second, the larger is the first. -/
theorem minmaxF_of_precedes (ha : isNan (Machine.decodeF t ca) = false) (hb : isNan (Machine.decodeF t cb) = false)
    (h : precedes (Machine.decodeF t cb) (Machine.decodeF t ca)) : coded (minmaxF t nanFn max ca cb) = (if max then ca else cb, 0) := by
  rw [minmaxF_numbers ha hb, (ltTotal_iff hb ha).mpr h]
  cases max <;> rfl

theorem minmaxF_of_not_precedes (ha : isNan (Machine.decodeF t ca) = false) (hb : isNan (Machine.decodeF t cb) = false)
    (h : ¬precedes (Machine.decodeF t cb) (Machine.decodeF t ca)) : coded (minmaxF t nanFn max ca cb) = (if max then cb else ca, 0) := by
  rw [minmaxF_numbers ha hb, Bool.eq_false_iff.mpr (mt (ltTotal_iff hb ha).mp h)]
  cases max <;> rfl

/-- The cases of R260 give both results: `x` and `y` are the operands' values, `f` and `g` what FMIN and FMAX are to write. -/
theorem minmaxF_eq_of_cases {f g : Nat × Nat} {x y : FV} {nv : Nat} (hx : Machine.decodeF t ca = x) (hy : Machine.decodeF t cb = y)
    (hnv : nv = if x = .nan true ∨ y = .nan true then 0x10 else 0)
    (both : isNan x = true ∧ isNan y = true → f = (nanCode t, nv) ∧ g = (nanCode t, nv))
    (left : isNan x = true ∧ isNan y = false → f = (if nanFn then nanCode t else cb, nv) ∧ g = f)
    (right : isNan x = false ∧ isNan y = true → f = (if nanFn then nanCode t else ca, nv) ∧ g = f)
    (numbers : isNan x = false → isNan y = false → (precedes y x → f = (cb, 0) ∧ g = (ca, 0)) ∧ (¬precedes y x → f = (ca, 0) ∧ g = (cb, 0))) :
    coded (minmaxF t nanFn false ca cb) = f ∧ coded (minmaxF t nanFn true ca cb) = g := by
  subst hx hy hnv
  cases ha : isNan (Machine.decodeF t ca) <;> cases hb : isNan (Machine.decodeF t cb)
  case false.false =>
    by_cases h : precedes (Machine.decodeF t cb) (Machine.decodeF t ca)
    · obtain ⟨rfl, rfl⟩ := (numbers ha hb).1 h
      exact ⟨minmaxF_of_precedes ha hb h, minmaxF_of_precedes ha hb h⟩
    · obtain ⟨rfl, rfl⟩ := (numbers ha hb).2 h
      exact ⟨minmaxF_of_not_precedes ha hb h, minmaxF_of_not_precedes ha hb h⟩
  case false.true =>
    obtain ⟨rfl, rfl⟩ := right ⟨ha, hb⟩
    exact ⟨minmaxF_right_nan ha hb, minmaxF_right_nan ha hb⟩
  case true.false =>
    obtain ⟨rfl, rfl⟩ := left ⟨ha, hb⟩
    exact ⟨minmaxF_left_nan ha hb, minmaxF_left_nan ha hb⟩
  case true.true =>
    obtain ⟨rfl, rfl⟩ := both ⟨ha, hb⟩
    exact ⟨minmaxF_both_nan ha hb, minmaxF_both_nan ha hb⟩

theorem minmaxF_noDZ : noDZ (minmaxF t nanFn max ca cb).2 := by
  simp only [minmaxF, apply_ite Prod.snd]
  exact noDZ_ite (sigNV_noDZ _ _) (noDZ_ite (sigNV_noDZ _ _) (sigNV_noDZ _ _))

end

/-! ## FCMP of one element (R261) -/

theorem not_same_of_nan {a b : FV} (h : isNan a = true ∨ isNan b = true) : ¬same a b := by
  cases a <;> cases b <;> simp_all [same, isNan]

theorem fcondHolds_iff (c : FCond) (a b : FV) : (fcondHolds c a b).1 = true ↔ holdsF c a b := by
  by_cases hnan : isNan a = true ∨ isNan b = true
  · have hun : (isNan a || isNan b) = true := by simpa using hnan
    have heq : eqNum a b = false := Bool.eq_false_iff.mpr (mt (eqNum_iff a b).mp (not_same_of_nan hnan))
    cases c <;> simp [fcondHolds, holdsF, hun, hnan, heq]
  · obtain ⟨ha, hb⟩ : isNan a = false ∧ isNan b = false := by simpa using hnan
    cases c with
    | eq => simp [fcondHolds, holdsF, ha, hb, eqNum_iff]
    | ne => simp [fcondHolds, holdsF, ha, hb, ← eqNum_iff]
    | lt => simp [fcondHolds, holdsF, ha, hb, ltNum_iff ha hb]
    | le => simp [fcondHolds, holdsF, ha, hb, ← not_below_iff ha hb, ← ltNum_iff hb ha]
    | gt => simp [fcondHolds, holdsF, ha, hb, ltNum_iff hb ha]
    | ge => simp [fcondHolds, holdsF, ha, hb, same_comm a b, ← not_below_iff hb ha, ← ltNum_iff ha hb]
    | un => simp [fcondHolds, holdsF, ha, hb]

theorem fcondHolds_flags (c : FCond) (a b : FV) : (fcondHolds c a b).2.toNat = flagsF c a b := by
  have hsig : (sigNV a ||| sigNV b).toNat = if (decide (a = .nan true) || decide (b = .nan true)) = true then 0x10 else 0 := by
    rw [sigNV_or_toNat]
    simp
  have hord : (if (isNan a || isNan b) = true then flagNV else 0).toNat = if (isNan a || isNan b) = true then 0x10 else 0 :=
    apply_ite BitVec.toNat _ _ _
  cases c with
  | eq | ne | un => exact hsig
  | lt | le | gt | ge => exact hord

theorem fcondHolds_noDZ (c : FCond) (a b : FV) : noDZ (fcondHolds c a b).2 := by
  cases c with
  | eq | ne | un => exact sigNV_noDZ a b
  | lt | le | gt | ge => exact noDZ_ite rfl rfl

/-- All or any of the sub-elements, over the list that the machine makes of them (R205). -/
theorem combine_iff {any : Bool} {w : Nat} {f : Nat → Bool} {P : Nat → Prop} (h : ∀ i, f i = true ↔ P i) :
    combine any ((List.range (64 / w)).map f) = true ↔ combined any w P := by
  cases any <;> simp [combine, combined, h]

/-! ## Words of codes with their flags (R140) -/

theorem floatWord_eq_mapF {t : FType} {f : Nat → Nat × Flags} {g : Nat → Nat × Nat} (h : ∀ i, coded (f i) = g i) :
    floatWord t.width g = ((mapF t f).1, (mapF t f).2.toNat) := by
  simp only [floatWord_eq h, mapF, List.map_map, Function.comp_def, subCount]

theorem mapF_noDZ {t : FType} {f : Nat → Nat × Flags} (h : ∀ i, noDZ (f i).2) : noDZ (mapF t f).2 := by
  simp only [mapF, List.map_map]
  exact noDZ_orFlags (List.forall_mem_map.mpr (fun i _ => h i))

theorem orFlags_map_zero {α : Type} (l : List α) : orFlags (l.map (fun _ => 0)) = 0 := by
  induction l with
  | nil => rfl
  | cons x l ih => exact (BitVec.zero_or).trans ih

/-- A word of codes that raise no flag. -/
theorem floatWord_of_no_flags (w : Nat) (f : Nat → Nat) : floatWord w (fun i => (f i, 0)) = (mapSub w f, 0) := by
  rw [floatWord_eq (f := fun i => (f i, 0)) (g := fun i => (f i, 0)) (fun _ => rfl), orFlags_map_zero]
  rfl

/-! ## The shapes of float words -/

/-- A word whose body ends in `finishFlags` and raises no DZ completes or takes trap 0x14. -/
theorem floatComplete_of {ins : Instr} {g : Guard} {d : Operand} {a b c : Option SrcSpec} {f : Got → Word × Nat} {q : Got → Word × Flags}
    (hm : ∀ s, exec ins s = lanewise g (lane (some d) a b c (fun r => finishFlags r.t r.d (q r).1 (q r).2)) s)
    (hq : ∀ r, f r = ((q r).1, (q r).2.toNat)) (hdz : ∀ r, noDZ (q r).2) : FloatComplete ins g d a b c f :=
  ⟨flagsComplete_of hm (fun r => by rw [hq]; exact ⟨rfl, rfl⟩), flagsTrap_of hm (fun r => by rw [hq]) hdz⟩

theorem binFlags_of_mapF {ins : Instr} {o : Bin FType} {q : Word → Word → Nat → Nat × Flags} {r : Word → Word → Word × Nat}
    (hm : ∀ s, exec ins s = binF o (fun a b => mapF o.ty (q a b)) s)
    (hr : ∀ a b, ∃ f, r a b = floatWord o.ty.width f ∧ ∀ i, coded (q a b i) = f i) (hdz : ∀ a b i, noDZ (q a b i).2) : BinFlags ins o r :=
  floatComplete_of (q := fun x => mapF o.ty (q x.a x.b)) hm
    (fun x => by
      obtain ⟨f, hf, hc⟩ := hr x.a x.b
      rw [hf, floatWord_eq_mapF hc])
    (fun x => mapF_noDZ (hdz x.a x.b))

/-- How a word ends that sets a predicate and flags: as `finishFlags`, with the predicate for the destination. -/
def finishPred (t : Thread) (pd : Fin 8) (b : Bool) (f : Flags) : Except Raise Thread :=
  match flagTrap t.astat f 0 with
  | some tr => .error (tr, word f.toNat)
  | none => .ok ((t.setP pd b).setFlags f)

section
variable {ins : Instr} {g : Guard} {a b c : Option SrcSpec} {pd : Fin 8} {p : Got → Bool} {q : Got → Flags}
  (hm : ∀ s, exec ins s = lanewise g (lane none a b c (fun r => finishPred r.t pd (p r) (q r))) s)
include hm

theorem predFlags_complete : LanesComplete ins g none a b c (fun _ _ t r => quiet t (q r).toNat)
    (fun _ _ _ r => (flagged (r.t.setP pd (p r)) (q r).toNat).advance) := by
  refine lanesComplete_of_lane (f := fun _ _ _ r => finishPred r.t pd (p r) (q r)) hm ?_
  intro e l t r hr hquiet
  have hnone : flagTrap r.t.astat (q r) 0 = none := by rw [collect_astat hr, flagTrap_none]; exact hquiet
  exact ⟨(r.t.setP pd (p r)).setFlags (q r), by rw [finishPred, hnone], by rw [setFlags_eq]⟩

theorem predFlags_trap (hdz : ∀ r, noDZ (q r)) : LanesComplete ins g none a b c (fun _ _ t r => ¬quiet t (q r).toNat ∧ ¬inHandler t)
    (fun e _ t r => entered (flagged t (q r).toNat) 0x14
      (BitVec.ofNat 64 (256 * ((q r).toNat &&& (t.astat.toNat / 256) % 64))) t.pc e.tvec) := by
  refine lanesComplete_of_trap hm ?_
  rintro e l t r hr ⟨hnq, hh⟩
  refine ⟨⟨0x14, _⟩, (q r).toNat, ?_, rfl, hh, rfl⟩
  rw [finishPred, collect_astat hr, flagTrap_noDZ (hdz r) hnq]
  rfl

end

/-! ## The words -/

theorem exec_fmin (o : Bin FType) (nan : Bool) (s : State) : exec (.fmin o nan) s =
    binF o (fun a b => mapF o.ty (fun i => minmaxF o.ty nan false (sub a o.ty.width i) (sub b o.ty.width i))) s := rfl

theorem exec_fmax (o : Bin FType) (nan : Bool) (s : State) : exec (.fmax o nan) s =
    binF o (fun a b => mapF o.ty (fun i => minmaxF o.ty nan true (sub a o.ty.width i) (sub b o.ty.width i))) s := rfl

theorem fclassN_eq (t : FType) (c : Nat) : fclassN t c = classOf t c := by
  have hfield : c % 2 ^ magBits t / 2 ^ fracBits t = c / 2 ^ fracBits t % 2 ^ (t.width - 1 - fracBits t) := by
    have hsplit : magBits t = fracBits t + (t.width - 1 - fracBits t) := by cases t <;> rfl
    rw [hsplit, Nat.pow_add, Nat.mod_mul_right_div_self]
  unfold fclassN classOf
  rw [hfield]
  cases Machine.decodeF t c with
  | nan s => cases s <;> rfl
  | inf n => rfl
  | fin n m e => simp only [Bool.and_eq_true, decide_eq_true_eq]

theorem fclass_completes (o : Un FType) : UnFlags (.fclass o) o (fun a => floatWord o.ty.width (fun i =>
    (classOf o.ty (elemN o.ty.width a i), 0))) :=
  floatComplete_of (q := fun x => (mapSub o.ty.width (fun i => fclassN o.ty (sub x.a o.ty.width i)), 0)) (fun _ => rfl)
    (fun x => by simp only [floatWord_of_no_flags, elemN_eq, fclassN_eq]; rfl) (fun _ => noDZ_zero)

/-- The conditions and the flags of FCMP's elements, what it gives its predicate, and the flags that it raises (R140, R261). -/
def fcmpElements (ty : FType) (c : FCond) (a b : Word) : List (Bool × Flags) :=
  (List.range (subCount ty.width)).map (fun i => fcondHolds c (fval ty a i) (fval ty b i))
def fcmpHolds (ty : FType) (c : FCond) (any : Bool) (a b : Word) : Bool := combine any ((fcmpElements ty c a b).map (fun p => p.1))
def fcmpFlags (ty : FType) (c : FCond) (a b : Word) : Flags := orFlags ((fcmpElements ty c a b).map (fun p => p.2))

theorem exec_fcmp (g : Guard) (pat : Pat) (ty : FType) (pd : Fin 8) (a b : Src) (c : FCond) (any : Bool) (s : State) :
    exec (.fcmp g pat ty pd a b c any) s = lanewise g (lane none (srcA pat (.flt ty) a) (srcB pat (.flt ty) b) none (fun r =>
      finishPred r.t pd (fcmpHolds ty c any r.a r.b) (fcmpFlags ty c r.a r.b))) s := rfl

theorem fcmpHolds_iff (ty : FType) (c : FCond) (any : Bool) (a b : Word) :
    fcmpHolds ty c any a b = true ↔ combined any ty.width (fun i => holdsF c (valueAt ty a i) (valueAt ty b i)) := by
  simp only [fcmpHolds, fcmpElements, List.map_map, ← fval_eq]
  exact combine_iff (fun _ => fcondHolds_iff c _ _)

theorem fcmpFlags_toNat (ty : FType) (c : FCond) (a b : Word) :
    (floatWord ty.width (fun i => (0, flagsF c (valueAt ty a i) (valueAt ty b i)))).2 = (fcmpFlags ty c a b).toNat := by
  simp only [fcmpFlags, fcmpElements, List.map_map, ← fval_eq, ← fcondHolds_flags]
  exact congrArg Prod.snd (floatWord_eq (f := fun i => (0, (fcondHolds c (fval ty a i) (fval ty b i)).2)) (fun _ => rfl))

theorem fcmpFlags_noDZ (ty : FType) (c : FCond) (a b : Word) : noDZ (fcmpFlags ty c a b) := by
  simp only [fcmpFlags, fcmpElements, List.map_map]
  exact noDZ_orFlags (List.forall_mem_map.mpr (fun _ _ => fcondHolds_noDZ c _ _))

/-- Settles O11: the elements of FMIN and FMAX are those of R260's cases, the predicate and the flags of FCMP those of R261, and the classes
those of R264. None of these words raises DZ, so that an enabled flag traps with 0x14. -/
theorem floatSelection : Obligations.FloatSelection := by
  unfold Obligations.FloatSelection
  refine ⟨fun o nan min max h => ?_, fun g pat ty pd a b c any t ht => ?_, fclass_completes⟩
  · have elements : ∀ a b, ∃ f g, min a b = floatWord o.ty.width f ∧ max a b = floatWord o.ty.width g ∧ ∀ i,
        coded (minmaxF o.ty nan false (sub a o.ty.width i) (sub b o.ty.width i)) = f i ∧
        coded (minmaxF o.ty nan true (sub a o.ty.width i) (sub b o.ty.width i)) = g i := by
      intro a b
      obtain ⟨f, g, hmin, hmax, hcases⟩ := h a b
      refine ⟨f, g, hmin, hmax, fun i => ?_⟩
      obtain ⟨both, left, right, numbers⟩ := hcases i
      rw [← elemN_eq, ← elemN_eq]
      exact minmaxF_eq_of_cases rfl rfl rfl both left right numbers
    constructor
    · refine binFlags_of_mapF (exec_fmin o nan) (fun a b => ?_) (fun _ _ _ => minmaxF_noDZ)
      obtain ⟨f, _, hmin, -, hf⟩ := elements a b
      exact ⟨f, hmin, fun i => (hf i).1⟩
    · refine binFlags_of_mapF (exec_fmax o nan) (fun a b => ?_) (fun _ _ _ => minmaxF_noDZ)
      obtain ⟨_, g, -, hmax, hg⟩ := elements a b
      exact ⟨g, hmax, fun i => (hg i).2⟩
  · obtain rfl : t = fun x => fcmpHolds ty c any x.a x.b :=
      funext (fun x => Bool.eq_iff_iff.mpr ((ht x).trans (fcmpHolds_iff ty c any x.a x.b).symm))
    simp only [fcmpFlags_toNat]
    exact ⟨predFlags_complete (exec_fcmp g pat ty pd a b c any),
      predFlags_trap (exec_fcmp g pat ty pd a b c any) (fun x => fcmpFlags_noDZ ty c x.a x.b)⟩

end Sys2Proof.Claims
end
